-- ==== Sys2Proof/Word.lean ====
section
/-! DEFINITION. The word types of the Maelyel Tuizu and the register indices its instructions name (R5, R36). -/

namespace Sys2Proof

/-- A 64-bit doubleword: a scalar register, a CSR, an instruction word (R5, R12, R99). -/
abbrev Word := BitVec 64

/-- One byte of memory (R5). -/
abbrev Byte := BitVec 8

/-- A scalar register x0-x31 (R36). -/
abbrev XReg := Fin 32

/-- A vector register v0-v31 (R36). -/
abbrev VReg := Fin 32

/-- A mask register m0-m7 (R36). -/
abbrev MReg := Fin 8

/-- A descriptor register d0-d15 (R36). -/
abbrev DReg := Fin 16

/-- An accumulator tile t0-t7 (R36). -/
abbrev TReg := Fin 8

end Sys2Proof
end

