-- ==== Sys2Proof/Syntax.lean ====
section
/-! DEFINITION. The instruction set Prorin as data (02_encoding): one constructor of Instr for each row of
spec/opcode_table.json. The first 225 stand for instruction words; the others for the steps the table lists that no
word names (traps raised by hardware, completions, launch, engine commands, host and management events), which carry
their operands here. Nothing in this file computes. -/

namespace Sys2Proof

/-- Element formats (R19). -/
inductive Fmt where
  | i8 | i16 | i32 | i64 | bp | fp4 | fp8a | fp8b | fp16 | bf16 | fp32 | e8 | i4
  deriving DecidableEq, Repr

/-- Rounding modes, RND 0-4 (R20, R63). -/
inductive Rnd where
  | rne | rtz | rdn | rup | rna
  deriving DecidableEq, Repr

/-- Scopes (R21, R216). -/
inductive Scope where
  | lane | slice | core | cluster | die | package | bank | stack | memory | host | domain | system
  deriving DecidableEq, Repr

/-- Engine and access classes (R21). -/
inductive Cls where
  | ls | mxl | ccopy | dcopy | seam | coll | disp | enc | host
  deriving DecidableEq, Repr

/-- Block codes of svl and of descriptors (R23, R133). -/
inductive Blk where
  | none | b16 | b32 | b64
  deriving DecidableEq, Repr

/-- Inner operations (R20). -/
inductive Iop where
  | add | mul | max | min | and | or | xor | eq | lt
  deriving DecidableEq, Repr

/-- Order of an atomic (R23, R219). -/
inductive Order where
  | rlx | acq | rel | acqrel
  deriving DecidableEq, Repr

/-- The CSRs of R101, every one the device defines. -/
inductive Csr where
  | ctl | stat | vl | vlg | vcfg | scnt | eidx | vah | detw
  | fmsk (n : Fin 16)
  | tcause | taddr | tpc | tvec | tsp | tinfo | dfcause | dfaddr
  | lmap | vlmax | lgrant | eptlim | eptport | mxctl | mxrowp | mxcolp | mxprog
  | plst | swlim | pltol | plsw | pleps | tick | deadln | prio | dlwin | hmexp | session
  | watch (n : Fin 4)
  | watchctl | ptroot | asid
  deriving DecidableEq, Repr

/-- The second source of a format S instruction: FORM 00 register, FORM 10 immediate (R14, R23). -/
inductive XSrc where
  | reg (r : XReg)
  | imm (v : BitVec 32)
  deriving DecidableEq, Repr

/-- The second source of a format V instruction: FORM 00, 01 or 10 (R14, R74). -/
inductive VSrc where
  | vec (r : VReg)
  | sca (r : XReg)
  | imm (v : BitVec 16)
  deriving DecidableEq, Repr

/-- A count operand of format V: FORM 01 register or FORM 10 immediate (R24, R90). -/
inductive VCount where
  | sca (r : XReg)
  | imm (v : BitVec 16)
  deriving DecidableEq, Repr

/-- A count operand of format A: FORM 01 register or FORM 10 signed 20-bit immediate (R26, R148). -/
inductive ACount where
  | sca (r : XReg)
  | imm (v : BitVec 20)
  deriving DecidableEq, Repr

/-- A cell rank: 0-8, or none for 15, the whole argument (R20). -/
abbrev CellRank := Option (Fin 9)

/-- An axis: 0-7, or none for 15, the last axis (R20). -/
abbrev Axis := Option (Fin 8)

/-- Descriptor fields that dset and dget name (R26, R137). -/
inductive DField where
  | base | fmt | rank | shape | stride | pstride | sbase | block | cap
  deriving DecidableEq, Repr

/-- Register group code, U, RND and SAT: every format V instruction accepts them (R30). -/
structure VMods where
  grp : Fin 4
  u : Bool
  rnd : Rnd
  sat : Bool
  deriving DecidableEq, Repr

/-- Operands of an atomic (R114). -/
structure AmoOp where
  rd : XReg
  ra : XReg
  rb : XReg
  scope : Scope
  order : Order
  deriving DecidableEq, Repr

/-- Operands of smb (R117): count register, pointers in use from the first upward, element size codes, offset. -/
structure SmbOp where
  xc : XReg
  xp0 : XReg
  xp1 : XReg
  xp2 : XReg
  xp3 : XReg
  sh0 : Fin 8
  sh1 : Fin 8
  sh2 : Fin 8
  sh3 : Fin 8
  off : BitVec 15
  deriving DecidableEq, Repr

/-- Operands of ebatch (R129). -/
structure BatchOp where
  cls : Cls
  grp : Fin 4
  pm : MReg
  mr : MReg
  vc : VReg
  deriving DecidableEq, Repr

/-- Two-source element operation (R24). -/
structure VBinOp where
  vd : VReg
  va : VReg
  b : VSrc
  pm : MReg
  fmt : Fmt
  m : VMods
  deriving DecidableEq, Repr

/-- Three-source element operation (R24). -/
structure VTernOp where
  vd : VReg
  va : VReg
  vb : VReg
  vc : VReg
  pm : MReg
  fmt : Fmt
  m : VMods
  deriving DecidableEq, Repr

/-- vaddc and vsubb: pm is the carry-in mask, md the carry-out mask (R80). -/
structure VCarryOp where
  vd : VReg
  md : MReg
  va : VReg
  vb : VReg
  pm : MReg
  fmt : Fmt
  m : VMods
  deriving DecidableEq, Repr

/-- Comparison into a mask (R81). -/
structure VCmpOp where
  md : MReg
  va : VReg
  b : VSrc
  pm : MReg
  fmt : Fmt
  m : VMods
  deriving DecidableEq, Repr

/-- One-source element operation, and the reductions (R24). -/
structure VUnOp where
  vd : VReg
  va : VReg
  pm : MReg
  fmt : Fmt
  m : VMods
  deriving DecidableEq, Repr

/-- Conversion: destination and source formats (R85). -/
structure VCvtOp where
  vd : VReg
  va : VReg
  dst : Fmt
  src : Fmt
  pm : MReg
  m : VMods
  deriving DecidableEq, Repr

/-- Quantization: as a conversion, with the scale register (R85, R87). -/
structure VQntOp where
  vd : VReg
  va : VReg
  vc : VReg
  dst : Fmt
  src : Fmt
  pm : MReg
  m : VMods
  deriving DecidableEq, Repr

/-- vslup and vsldn (R91). -/
structure VSlideOp where
  vd : VReg
  va : VReg
  n : VCount
  pm : MReg
  fmt : Fmt
  m : VMods
  deriving DecidableEq, Repr

/-- vgath and vredbs: a second vector register and no other form (R24). -/
structure VPairOp where
  vd : VReg
  va : VReg
  vb : VReg
  pm : MReg
  fmt : Fmt
  m : VMods
  deriving DecidableEq, Repr

/-- vbcast: FORM 00 element 0 of VA, FORM 01 and 10 the value of R74 (R91). -/
structure VBcastOp where
  vd : VReg
  b : VSrc
  pm : MReg
  fmt : Fmt
  m : VMods
  deriving DecidableEq, Repr

/-- vmvx (R91). -/
structure VMvxOp where
  rd : XReg
  va : VReg
  pm : MReg
  fmt : Fmt
  m : VMods
  deriving DecidableEq, Repr

/-- vid (R91). -/
structure VIdOp where
  vd : VReg
  pm : MReg
  fmt : Fmt
  m : VMods
  deriving DecidableEq, Repr

/-- vscan: the operation is one of IOP 0-6 (R95). -/
structure VScanOp where
  vd : VReg
  va : VReg
  op : Iop
  pm : MReg
  fmt : Fmt
  m : VMods
  deriving DecidableEq, Repr

/-- vrng and vctr: the scalar key or stream (R98). -/
structure VRngOp where
  vd : VReg
  va : VReg
  xb : XReg
  pm : MReg
  m : VMods
  deriving DecidableEq, Repr

/-- vld (R203). -/
structure VmLdOp where
  vd : VReg
  xa : XReg
  pm : MReg
  fmt : Fmt
  grp : Fin 4
  off : BitVec 16
  hm : Bool
  deriving DecidableEq, Repr

/-- vlds (R203). -/
structure VmLdsOp where
  vd : VReg
  xa : XReg
  xb : XReg
  pm : MReg
  fmt : Fmt
  grp : Fin 4
  off : BitVec 16
  hm : Bool
  deriving DecidableEq, Repr

/-- vldx (R203, R204). -/
structure VmLdxOp where
  vd : VReg
  xa : XReg
  vb : VReg
  pm : MReg
  fmt : Fmt
  grp : Fin 4
  off : BitVec 16
  hm : Bool
  deriving DecidableEq, Repr

/-- vldbp: pl is planes minus 1 (R203). -/
structure VmLdbpOp where
  vd : VReg
  xa : XReg
  xb : XReg
  pm : MReg
  off : BitVec 16
  hm : Bool
  pl : Fin 8
  deriving DecidableEq, Repr

/-- vst (R203). -/
structure VmStOp where
  vd : VReg
  xa : XReg
  pm : MReg
  fmt : Fmt
  grp : Fin 4
  off : BitVec 16
  deriving DecidableEq, Repr

/-- vsts (R203). -/
structure VmStsOp where
  vd : VReg
  xa : XReg
  xb : XReg
  pm : MReg
  fmt : Fmt
  grp : Fin 4
  off : BitVec 16
  deriving DecidableEq, Repr

/-- vstx and vamo (R203, R204, R207). -/
structure VmStxOp where
  vd : VReg
  xa : XReg
  vb : VReg
  pm : MReg
  fmt : Fmt
  grp : Fin 4
  off : BitVec 16
  deriving DecidableEq, Repr

/-- vstbp: pl is planes minus 1 (R203). -/
structure VmStbpOp where
  vd : VReg
  xa : XReg
  xb : XReg
  pm : MReg
  off : BitVec 16
  pl : Fin 8
  deriving DecidableEq, Repr

/-- Array instruction with two arguments and their cell ranks (R26). -/
structure ArrPairOp where
  dd : DReg
  da : DReg
  db : DReg
  ka : CellRank
  kb : CellRank
  deriving DecidableEq, Repr

/-- arr.red and arr.scan (R26): the operation is one of IOP 0-6. -/
structure ArrRedOp where
  dd : DReg
  da : DReg
  k : CellRank
  ax : Axis
  op : Iop
  deriving DecidableEq, Repr

/-- arr.rot, arr.take and arr.drop (R26). -/
structure ArrCountOp where
  dd : DReg
  da : DReg
  n : ACount
  k : CellRank
  ax : Axis
  deriving DecidableEq, Repr

/-- mxa (R160). -/
structure MxaOp where
  td : TReg
  da : DReg
  db : DReg
  fmt : Fmt
  rpt : Fin 8
  deriving DecidableEq, Repr

/-- The row or column index of mxrd and mxwr: IDX8 or XN (R27, R170). -/
inductive TileIdx where
  | imm (v : Fin 64)
  | reg (r : XReg)
  deriving DecidableEq, Repr

/-- The destination of plout: COL 0 a tile, COL 1 memory (R183). -/
inductive PlDst where
  | tile (td : TReg)
  | mem (da : DReg)
  deriving DecidableEq, Repr

/-- A clasp id: 0-63 of the cluster, 256-511 of the die (R28, R256). -/
inductive ClaspId where
  | cluster (i : Fin 64)
  | die (i : Fin 256)
  deriving DecidableEq, Repr

/-! Operands of the steps that no instruction word names. -/

/-- A clasp by place: cluster number of the machine, or die number, and index (R256, R257). -/
inductive ClaspAt where
  | cluster (clu : Nat) (i : Fin 64)
  | die (d : Nat) (i : Fin 256)
  deriving DecidableEq, Repr

/-- What the element-progress timer found stalled (R227, R231): queue, the elements that a vector memory instruction had
performed, address, element, and what it awaits. -/
structure Stall where
  queue : Fin 8
  performed : Nat
  va : Word
  reg : Fin 8
  idx : BitVec 13
  kind : Fin 8
  index : BitVec 12
  deriving DecidableEq, Repr

/-- What a management message configures (R298, R333). -/
inductive Setting where
  | queue (die q : Nat) (image : BitVec 512)
  | prep (die ns : Nat)
  | rcwin (die cycles : Nat)
  | savePool (die : Nat) (recs : List (Nat × Nat))
  deriving DecidableEq, Repr

/-- A package of the load-store domain: its id, and its address on every rail (R343). -/
structure Member where
  id : Nat
  rails : Vector (BitVec 48) 4
  deriving DecidableEq, Repr

/-- A firmware image: its target (0 root of trust, 1-4 dies, 5 HBM, 6 time and Ethernet), security version, content
digest and the two signatures over it (R337); in the image of time and Ethernet, the domain map and the IEEE 1588 domain number
of its configuration (R343, R346). -/
structure Firmware where
  target : Nat
  version : Nat
  digest : BitVec 384
  ecdsa : BitVec 768
  lms : List Byte
  map : List Member
  ptpDomain : BitVec 8
  deriving DecidableEq, Repr

/-- Firmware that a package is to come up with, and the dies of it that fail the steps 2 to 5 (R336). -/
structure BringUp (α : Type) where
  images : α
  failed : BitVec 4
  deriving DecidableEq, Repr

/-- A link or module that retrains (R335, R340, R363). -/
inductive Link where
  | ucie (pkg d0 d1 module : Nat)
  | port (die p : Nat)
  deriving DecidableEq, Repr

/-- What one rail transport message delivers (R342): the row of the dispatch command with a serial number, or a
collective's cancel. -/
inductive RailMsg where
  | row (serial : Nat)
  | cancel (group seq : BitVec 32)
  deriving DecidableEq, Repr

/-- An Ethernet frame at a port: its EtherType and, for rail transport, the sending die, the port of its package that numbered it
and the number, which say what it carries, or the same of the frame that it acknowledges (R342). -/
structure Frame where
  etherType : BitVec 16
  src : Nat
  port : Nat
  seq : Nat
  ack : Bool
  deriving DecidableEq, Repr

/-- An IEEE 1588 message: the port it passes, the identity of the port that sent it, its domain number, what it is (R346). -/
structure PtpAt (α : Type) where
  port : Nat
  sender : BitVec 80
  domain : BitVec 8
  message : α
  deriving DecidableEq, Repr

/-- IEEE 1588 event messages, timestamped at a port: a Sync that arrives, a Delay_Req that leaves (R346). -/
inductive PtpEvent where
  | sync
  | delayReq
  deriving DecidableEq, Repr

/-- IEEE 1588 general messages (R346): a master's data set, as the best-master-clock algorithm compares it, least best; the precise time
a Sync left; the time a Delay_Req arrived. -/
inductive PtpGeneral where
  | announce (data : BitVec 128)
  | followUp (time : Nat)
  | delayResp (time : Nat)
  deriving DecidableEq, Repr

/-- How a leaf has bytes stored in HBM (R196): raw aperture, compression, skew, lines per tile row of a tensor page (0 for
any other) and lines in the page (R305). -/
structure Lay where
  raw : Bool
  cz : Bool
  sk : Nat
  rl : Nat
  page : Nat
  deriving DecidableEq, Repr

def Lay.plain : Lay := ⟨false, false, 0, 0, 512⟩

/-- An access that arrives from a context of another package, with what its leaf there says of the bytes (R196, R344): a load of
n bytes, a store, an 8-byte atomic (FN as R114, operand, compare value), or an element of a vamo (FN as R207, INT32, INT64 or FP32,
operand). -/
inductive RemoteReq where
  | load (lay : Lay) (ctx pa n : Nat)
  | store (lay : Lay) (ctx pa : Nat) (bytes : List Byte)
  | atomic (lay : Lay) (ctx pa : Nat) (fn : Fin 8) (b cmp : Word)
  | vamo (lay : Lay) (ctx pa : Nat) (op : Iop) (fmt : Fmt) (b : Nat)
  deriving DecidableEq, Repr

/-- A location that the die supervisor reads again after an error (R340): an address, an entry of a register slice of a context, an
element of a tile of a core, the hallmark of a granule of a cluster. -/
inductive Location where
  | memory (pa : Nat)
  | slice (ctx : Nat) (r : VReg) (lane : Fin 64)
  | tile (core : Nat) (t : TReg) (row col : Fin 64)
  | hallmark (clu g : Nat)
  deriving DecidableEq, Repr

/-- The instructions and steps of the part: one constructor per row of spec/opcode_table.json (R22). -/
inductive Instr where
  /-- ADD (R111). -/
  | add (rd ra : XReg) (b : XSrc)
  /-- SUB (R111). -/
  | sub (rd ra : XReg) (b : XSrc)
  /-- AND (R111). -/
  | and (rd ra : XReg) (b : XSrc)
  /-- OR (R111). -/
  | or (rd ra : XReg) (b : XSrc)
  /-- XOR (R111). -/
  | xor (rd ra : XReg) (b : XSrc)
  /-- SLL (R111). -/
  | sll (rd ra : XReg) (b : XSrc)
  /-- SRL (R111). -/
  | srl (rd ra : XReg) (b : XSrc)
  /-- SRA (R111). -/
  | sra (rd ra : XReg) (b : XSrc)
  /-- SLT (R111). -/
  | slt (rd ra : XReg) (b : XSrc)
  /-- SLTU (R111). -/
  | sltu (rd ra : XReg) (b : XSrc)
  /-- MIN (R111). -/
  | min (rd ra : XReg) (b : XSrc)
  /-- MAX (R111). -/
  | max (rd ra : XReg) (b : XSrc)
  /-- MINU (R111). -/
  | minu (rd ra : XReg) (b : XSrc)
  /-- MAXU (R111). -/
  | maxu (rd ra : XReg) (b : XSrc)
  /-- MUL (R111). -/
  | mul (rd ra : XReg) (b : XSrc)
  /-- MULH (R111). -/
  | mulh (rd ra : XReg) (b : XSrc)
  /-- MULHU (R111). -/
  | mulhu (rd ra : XReg) (b : XSrc)
  /-- DIV (R111). -/
  | div (rd ra : XReg) (b : XSrc)
  /-- DIVU (R111). -/
  | divu (rd ra : XReg) (b : XSrc)
  /-- REM (R111). -/
  | rem (rd ra : XReg) (b : XSrc)
  /-- REMU (R111). -/
  | remu (rd ra : XReg) (b : XSrc)
  /-- CLZ (R111). -/
  | clz (rd ra : XReg)
  /-- CTZ (R111). -/
  | ctz (rd ra : XReg)
  /-- POPC (R111). -/
  | popc (rd ra : XReg)
  /-- FIXED_LATENCY_WRITEBACK (R108). -/
  | fixedLatencyWriteback
  /-- LI (R112). -/
  | li (rd : XReg) (imm : BitVec 32)
  /-- LUI (R112). -/
  | lui (rd ra : XReg) (imm : BitVec 32)
  /-- MV (R112). -/
  | mv (rd ra : XReg)
  /-- SEL (R112). -/
  | sel (rd ra rb : XReg)
  /-- LD8 (R113). -/
  | ld8 (rd ra : XReg) (b : XSrc)
  /-- LD16 (R113). -/
  | ld16 (rd ra : XReg) (b : XSrc)
  /-- LD32 (R113). -/
  | ld32 (rd ra : XReg) (b : XSrc)
  /-- LD64 (R113). -/
  | ld64 (rd ra : XReg) (b : XSrc)
  /-- LDZ8 (R113). -/
  | ldz8 (rd ra : XReg) (b : XSrc)
  /-- LDZ16 (R113). -/
  | ldz16 (rd ra : XReg) (b : XSrc)
  /-- LDZ32 (R113). -/
  | ldz32 (rd ra : XReg) (b : XSrc)
  /-- ST8 (R113). -/
  | st8 (rs ra : XReg) (b : XSrc)
  /-- ST16 (R113). -/
  | st16 (rs ra : XReg) (b : XSrc)
  /-- ST32 (R113). -/
  | st32 (rs ra : XReg) (b : XSrc)
  /-- ST64 (R113). -/
  | st64 (rs ra : XReg) (b : XSrc)
  /-- AMO_ADD (R114). -/
  | amoAdd (o : AmoOp)
  /-- AMO_AND (R114). -/
  | amoAnd (o : AmoOp)
  /-- AMO_OR (R114). -/
  | amoOr (o : AmoOp)
  /-- AMO_XOR (R114). -/
  | amoXor (o : AmoOp)
  /-- AMO_MIN (R114). -/
  | amoMin (o : AmoOp)
  /-- AMO_MAX (R114). -/
  | amoMax (o : AmoOp)
  /-- AMO_SWAP (R114). -/
  | amoSwap (o : AmoOp)
  /-- AMO_CAS (R114). -/
  | amoCas (o : AmoOp)
  /-- BEQ (R115). -/
  | beq (ra rb : XReg) (off : BitVec 32)
  /-- BNE (R115). -/
  | bne (ra rb : XReg) (off : BitVec 32)
  /-- BLT (R115). -/
  | blt (ra rb : XReg) (off : BitVec 32)
  /-- BGE (R115). -/
  | bge (ra rb : XReg) (off : BitVec 32)
  /-- BLTU (R115). -/
  | bltu (ra rb : XReg) (off : BitVec 32)
  /-- BGEU (R115). -/
  | bgeu (ra rb : XReg) (off : BitVec 32)
  /-- JAL (R116). -/
  | jal (rd : XReg) (off : BitVec 32)
  /-- JALR (R116). -/
  | jalr (rd rb : XReg) (off : BitVec 32)
  /-- SMB (R117). -/
  | smb (o : SmbOp)
  /-- VBANY (R119). -/
  | vbany (pm : MReg) (off : BitVec 32)
  /-- VBNONE (R119). -/
  | vbnone (pm : MReg) (off : BitVec 32)
  /-- LTC (R120). -/
  | ltc (pm : MReg) (off : BitVec 32)
  /-- VFETCH (R122). -/
  | vfetch (off : BitVec 32)
  /-- TFETCH (R124). -/
  | tfetch (pm : MReg) (off : BitVec 32)
  /-- TSTOP (R124). -/
  | tstop
  /-- VJOIN (R125). -/
  | vjoin
  /-- VJOIN_COMPLETION (R125). -/
  | vjoinCompletion
  /-- SVL (R126). -/
  | svl (rd ra : XReg) (fmt : Fmt) (blk : Blk)
  /-- LANE_BINDING (R126). -/
  | laneBinding
  /-- VREL (R127). -/
  | vrel
  /-- EBATCH (R129). -/
  | ebatch (o : BatchOp)
  /-- EWAIT (R130). -/
  | ewait (cls : Cls) (xq : XReg)
  /-- EPOLL (R130). -/
  | epoll (cls : Cls) (xq : XReg)
  /-- ENGINE_COUNT_WAIT_RELEASE (R130). -/
  | engineCountWaitRelease
  /-- CSRR (R131). -/
  | csrr (rd : XReg) (r : Csr)
  /-- CSRW (R131). -/
  | csrw (r : Csr) (ra : XReg)
  /-- CSRS (R131). -/
  | csrs (r : Csr) (ra : XReg)
  /-- CSRC (R131). -/
  | csrc (r : Csr) (ra : XReg)
  /-- TRAP (R131). -/
  | trap (imm : BitVec 14)
  /-- TRET (R225). -/
  | tret
  /-- WFE (R131). -/
  | wfe
  /-- WFE_WAKE (R131). -/
  | wfeWake
  /-- NOP (R131). -/
  | nop
  /-- HALT (R132). -/
  | halt
  /-- BRK (R131). -/
  | brk (imm : BitVec 14)
  /-- TASK_END (R132). -/
  | taskEnd
  /-- DRAIN_COMPLETION (R107). -/
  | drainCompletion
  /-- ILLEGAL_INSTRUCTION (R31). -/
  | illegalInstruction (w : Word)
  /-- FENCE (R217). -/
  | fence (sc : Scope)
  /-- LSYNC (R217). -/
  | lsync
  /-- XFENCE (R218). -/
  | xfence (sc : Scope) (ca cb : Cls)
  /-- VFENCE (R270). -/
  | vfence
  /-- DRAIN_GROUP_RELEASE (R270). -/
  | drainGroupRelease
  /-- BFENCE (R320). -/
  | bfence (sc : Scope) (rd : XReg)
  /-- VADD (R79). -/
  | vadd (o : VBinOp)
  /-- VSUB (R79). -/
  | vsub (o : VBinOp)
  /-- VADDC (R80). -/
  | vaddc (o : VCarryOp)
  /-- VSUBB (R80). -/
  | vsubb (o : VCarryOp)
  /-- VMUL (R79). -/
  | vmul (o : VBinOp)
  /-- VMULH (R79). -/
  | vmulh (o : VBinOp)
  /-- VMIN (R79). -/
  | vmin (o : VBinOp)
  /-- VMAX (R79). -/
  | vmax (o : VBinOp)
  /-- VAND (R79). -/
  | vand (o : VBinOp)
  /-- VOR (R79). -/
  | vor (o : VBinOp)
  /-- VXOR (R79). -/
  | vxor (o : VBinOp)
  /-- VSLL (R79). -/
  | vsll (o : VBinOp)
  /-- VSRL (R79). -/
  | vsrl (o : VBinOp)
  /-- VSRA (R79). -/
  | vsra (o : VBinOp)
  /-- VABSD (R79). -/
  | vabsd (o : VBinOp)
  /-- VMAC (R79). -/
  | vmac (o : VTernOp)
  /-- VCEQ (R81). -/
  | vceq (o : VCmpOp)
  /-- VCNE (R81). -/
  | vcne (o : VCmpOp)
  /-- VCLT (R81). -/
  | vclt (o : VCmpOp)
  /-- VCLE (R81). -/
  | vcle (o : VCmpOp)
  /-- VCGT (R81). -/
  | vcgt (o : VCmpOp)
  /-- VCGE (R81). -/
  | vcge (o : VCmpOp)
  /-- VFADD (R82). -/
  | vfadd (o : VBinOp)
  /-- VFSUB (R82). -/
  | vfsub (o : VBinOp)
  /-- VFMUL (R82). -/
  | vfmul (o : VBinOp)
  /-- VFFMA (R82). -/
  | vffma (o : VTernOp)
  /-- VFFNMA (R82). -/
  | vffnma (o : VTernOp)
  /-- VFMIN (R84). -/
  | vfmin (o : VBinOp)
  /-- VFMAX (R84). -/
  | vfmax (o : VBinOp)
  /-- VFABS (R82). -/
  | vfabs (o : VUnOp)
  /-- VFNEG (R82). -/
  | vfneg (o : VUnOp)
  /-- VFSGN (R82). -/
  | vfsgn (o : VBinOp)
  /-- VFEXP2 (R83). -/
  | vfexp2 (o : VUnOp)
  /-- VFLOG2 (R83). -/
  | vflog2 (o : VUnOp)
  /-- VFRCP (R83). -/
  | vfrcp (o : VUnOp)
  /-- VFRSQ (R83). -/
  | vfrsq (o : VUnOp)
  /-- VFDIV (R82). -/
  | vfdiv (o : VBinOp)
  /-- VFSQRT (R83). -/
  | vfsqrt (o : VUnOp)
  /-- VCVT (R86). -/
  | vcvt (o : VCvtOp)
  /-- VQNT (R87). -/
  | vqnt (o : VQntOp)
  /-- VDQNT (R88). -/
  | vdqnt (o : VQntOp)
  /-- VBPSPLIT (R89). -/
  | vbpsplit (o : VCvtOp)
  /-- VBPJOIN (R89). -/
  | vbpjoin (o : VCvtOp)
  /-- MAND (R90). -/
  | mand (md ma mb : MReg) (m : VMods)
  /-- MOR (R90). -/
  | mor (md ma mb : MReg) (m : VMods)
  /-- MXOR (R90). -/
  | mxor (md ma mb : MReg) (m : VMods)
  /-- MANDN (R90). -/
  | mandn (md ma mb : MReg) (m : VMods)
  /-- MNOT (R90). -/
  | mnot (md ma : MReg) (m : VMods)
  /-- MSHL (R90). -/
  | mshl (md ma : MReg) (n : VCount) (m : VMods)
  /-- MSHR (R90). -/
  | mshr (md ma : MReg) (n : VCount) (m : VMods)
  /-- MPOP (R90). -/
  | mpop (rd : XReg) (ma : MReg) (m : VMods)
  /-- MFIRST (R90). -/
  | mfirst (rd : XReg) (ma : MReg) (m : VMods)
  /-- MSET (R90). -/
  | mset (md : MReg) (n : VCount) (m : VMods)
  /-- MMV (R90). -/
  | mmv (md ma : MReg) (m : VMods)
  /-- VSLUP (R91). -/
  | vslup (o : VSlideOp)
  /-- VSLDN (R91). -/
  | vsldn (o : VSlideOp)
  /-- VGATH (R91). -/
  | vgath (o : VPairOp)
  /-- VCOMP (R91). -/
  | vcomp (o : VUnOp)
  /-- VEXPD (R91). -/
  | vexpd (o : VUnOp)
  /-- VBCAST (R91). -/
  | vbcast (o : VBcastOp)
  /-- VMVX (R91). -/
  | vmvx (o : VMvxOp)
  /-- VMVV (R91). -/
  | vmvv (o : VUnOp)
  /-- VID (R91). -/
  | vid (o : VIdOp)
  /-- VREDSUM (R92). -/
  | vredsum (o : VUnOp)
  /-- VREDMAX (R92). -/
  | vredmax (o : VUnOp)
  /-- VREDMIN (R92). -/
  | vredmin (o : VUnOp)
  /-- VREDAND (R92). -/
  | vredand (o : VUnOp)
  /-- VREDOR (R92). -/
  | vredor (o : VUnOp)
  /-- VREDBS (R94). -/
  | vredbs (o : VPairOp)
  /-- VSCAN (R95). -/
  | vscan (o : VScanOp)
  /-- VCSWI (R96). -/
  | vcswi (o : VBinOp)
  /-- VRNG (R98). -/
  | vrng (o : VRngOp)
  /-- VCTR (R98). -/
  | vctr (o : VRngOp)
  /-- VLD (R210). -/
  | vld (o : VmLdOp)
  /-- VLDS (R203). -/
  | vlds (o : VmLdsOp)
  /-- VLDX (R203). -/
  | vldx (o : VmLdxOp)
  /-- VLDBP (R203). -/
  | vldbp (o : VmLdbpOp)
  /-- VST (R210). -/
  | vst (o : VmStOp)
  /-- VSTS (R203). -/
  | vsts (o : VmStsOp)
  /-- VSTX (R205). -/
  | vstx (o : VmStxOp)
  /-- VSTBP (R203). -/
  | vstbp (o : VmStbpOp)
  /-- VAMO_ADD (R207). -/
  | vamoAdd (o : VmStxOp)
  /-- VAMO_MIN (R207). -/
  | vamoMin (o : VmStxOp)
  /-- VAMO_MAX (R207). -/
  | vamoMax (o : VmStxOp)
  /-- ARR_ADD (R146). -/
  | arrAdd (o : ArrPairOp)
  /-- ARR_SUB (R146). -/
  | arrSub (o : ArrPairOp)
  /-- ARR_MUL (R146). -/
  | arrMul (o : ArrPairOp)
  /-- ARR_DIV (R146). -/
  | arrDiv (o : ArrPairOp)
  /-- ARR_MAX (R146). -/
  | arrMax (o : ArrPairOp)
  /-- ARR_MIN (R146). -/
  | arrMin (o : ArrPairOp)
  /-- ARR_EQ (R146). -/
  | arrEq (o : ArrPairOp)
  /-- ARR_LT (R146). -/
  | arrLt (o : ArrPairOp)
  /-- ARR_AND (R146). -/
  | arrAnd (o : ArrPairOp)
  /-- ARR_OR (R146). -/
  | arrOr (o : ArrPairOp)
  /-- ARR_NEG (R146). -/
  | arrNeg (dd da : DReg) (k : CellRank)
  /-- ARR_ABS (R146). -/
  | arrAbs (dd da : DReg) (k : CellRank)
  /-- ARR_EXP (R146). -/
  | arrExp (dd da : DReg) (k : CellRank)
  /-- ARR_LOG (R146). -/
  | arrLog (dd da : DReg) (k : CellRank)
  /-- ARR_CVT (R147). -/
  | arrCvt (dd da : DReg) (k : CellRank)
  /-- ARR_COPY (R146). -/
  | arrCopy (dd da : DReg) (k : CellRank)
  /-- ARR_RED (R149). -/
  | arrRed (o : ArrRedOp)
  /-- ARR_SCAN (R148). -/
  | arrScan (o : ArrRedOp)
  /-- ARR_GRADE (R150). -/
  | arrGrade (dd da : DReg) (k : CellRank) (ax : Axis)
  /-- ARR_ROT (R148). -/
  | arrRot (o : ArrCountOp)
  /-- ARR_TAKE (R148). -/
  | arrTake (o : ArrCountOp)
  /-- ARR_DROP (R148). -/
  | arrDrop (o : ArrCountOp)
  /-- ARR_SHAPE (R148). -/
  | arrShape (dd da db : DReg)
  /-- ARR_TPOSE (R148). -/
  | arrTpose (dd da db : DReg)
  /-- ARR_OUTER (R148). -/
  | arrOuter (o : ArrPairOp) (iop : Iop)
  /-- ARR_FROM (R151). -/
  | arrFrom (o : ArrPairOp)
  /-- ARR_COMP (R152). -/
  | arrComp (o : ArrPairOp) (ax : Axis)
  /-- ARR_CAT (R148). -/
  | arrCat (o : ArrPairOp) (ax : Axis)
  /-- ARR_IOTA (R148). -/
  | arrIota (dd : DReg) (n : ACount)
  /-- DLD (R136). -/
  | dld (dd : DReg) (xa : XReg)
  /-- DST (R136). -/
  | dst (da : DReg) (xa : XReg)
  /-- DSET (R137). -/
  | dset (dd : DReg) (xa : XReg) (f : DField) (ax : Axis)
  /-- DGET (R137). -/
  | dget (xd : XReg) (da : DReg) (f : DField) (ax : Axis)
  /-- MXON (R157). -/
  | mxon
  /-- MXOFF (R157). -/
  | mxoff
  /-- MXZ (R168). -/
  | mxz (td : TReg) (rpt : Fin 8)
  /-- MXA (R164). -/
  | mxa (o : MxaOp)
  /-- MXPRED (R159). -/
  | mxpred (xn : XReg) (col : Bool)
  /-- MXRD (R170). -/
  | mxrd (vs : VReg) (ts : TReg) (ix : TileIdx) (col : Bool)
  /-- MXWR (R170). -/
  | mxwr (td : TReg) (vs : VReg) (ix : TileIdx) (col : Bool)
  /-- MXLD (R169). -/
  | mxld (td : TReg) (da : DReg) (rpt : Fin 8)
  /-- MXST (R169). -/
  | mxst (ts : TReg) (da : DReg) (bf : Bool) (rpt : Fin 8)
  /-- PLSET (R178). -/
  | plset (td : TReg) (da : DReg)
  /-- PLMARG (R179). -/
  | plmarg (da db : DReg)
  /-- BAL (R180). -/
  | bal (ts : TReg)
  /-- PLOUT (R183). -/
  | plout (dst : PlDst) (ts : TReg)
  /-- PLCOST (R184). -/
  | plcost (xd : XReg) (ts : TReg)
  /-- PLSCL (R185). -/
  | plscl (vd : VReg) (ts : TReg)
  /-- CLASP (R258). -/
  | clasp (cid : ClaspId)
  /-- CLASPW (R261). -/
  | claspw (cid : ClaspId) (xa : XReg)
  /-- CLASPA (R260). -/
  | claspa (cid : ClaspId) (xa : XReg)
  /-- CLASP_WAIT_RELEASE (R261). -/
  | claspWaitRelease
  /-- HMSET (R254). -/
  | hmset (xs xa : XReg)
  /-- HMCHK (R260). -/
  | hmchk (xd xa : XReg)
  /-- SPCLAIM (R262). -/
  | spclaim (xd xa : XReg) (n : BitVec 14)
  /-- SPREL (R262). -/
  | sprel (xa : XReg) (n : BitVec 14)
  /-- ASYOPEN (R325). -/
  | asyopen (aid : Fin 256)
  /-- ASYCLOSE (R325). -/
  | asyclose (aid : Fin 256)
  /-- ASYRD (R325). -/
  | asyrd (xd : XReg) (aid : Fin 256)
  /-- PROGRESS (R231). -/
  | progress (p : Stall)
  /-- WATCH_EVENT_DELIVERY (R233). -/
  | watchEventDelivery
  /-- SWITCH_OUT (R239). -/
  | switchOut
  /-- SWITCH_IN (R239). -/
  | switchIn
  /-- MXCTL_RES_WRITE (R155). -/
  | mxctlResWrite (res : Bool)
  /-- PTROOT_ASID_WRITE (R201). -/
  | ptrootAsidWrite (asid : Bool) (v : Word)
  /-- DOORBELL (R279). -/
  | doorbell (die q : Nat) (v : Word)
  /-- PGREQ (R331). -/
  | pgreq (v : Word)
  /-- ASYCLR (R324). -/
  | asyclr (die : Nat) (v : Word)
  /-- CLASP_TARGET_WRITE (R257). -/
  | claspTargetWrite (at_ : ClaspAt) (v : Word)
  /-- REGISTER_WRITE (R303). -/
  | registerWrite (pa : Nat) (v : Word)
  /-- PAGE_ANSWER (R212). -/
  | pageAnswer (g : Nat) (gen : BitVec 16) (fail : Bool) (refused : BitVec 16)
  /-- LAUNCH_RECORD_READ (R284). -/
  | launchRecordRead (die q : Nat)
  /-- RECORD_FIRE (R285). -/
  | recordFire (die q : Nat)
  /-- PREP_RESERVATION (R290). -/
  | prepReservation (die q : Nat) (places : List Nat)
  /-- CREW_PLACEMENT (R286). -/
  | crewPlacement (die q crew : Nat) (places : List Nat)
  /-- RCWIN_EXPIRY (R288). -/
  | rcwinExpiry (g : Nat)
  /-- INVALIDATE_TRANSLATIONS (R298). -/
  | invalidateTranslations (die : Nat) (asid : Option (BitVec 16)) (lo hi : Nat)
  /-- RELEASE_SESSION (R298). -/
  | releaseSession (die : Nat) (session : BitVec 32)
  /-- END_DIG (R298). -/
  | endDig (die : Nat) (dig : Word)
  /-- CONFIGURE (R298). -/
  | configure (m : Setting)
  /-- END_FROZEN_TASK (R230). -/
  | endFrozenTask (g : Nat)
  /-- LANE_RETIREMENT (R54). -/
  | laneRetirement (core : Nat) (lane : Fin 64)
  /-- CORE_SUBSTITUTION (R271). -/
  | coreSubstitution (core : Nat)
  /-- SET_PLIMIT (R339). -/
  | setPlimit (pkg watts : Nat)
  /-- READ_HISTOGRAMS (R341). -/
  | readHistograms (pkg : Nat)
  /-- LOAD_FIRMWARE (R337). -/
  | loadFirmware (pkg : Nat) (img : BringUp Firmware)
  /-- GET_VERSION (R333). -/
  | getVersion (pkg : Nat)
  /-- GET_CAPABILITIES (R333). -/
  | getCapabilities (pkg : Nat)
  /-- NEGOTIATE_ALGORITHMS (R333). -/
  | negotiateAlgorithms (pkg : Nat)
  /-- GET_MEASUREMENTS (R338). -/
  | getMeasurements (pkg : Nat)
  /-- HOST_WRITE (R329). -/
  | hostWrite (pa : Nat) (bs : List Byte)
  /-- HOST_READ (R329). -/
  | hostRead (pa n : Nat)
  /-- BOOT (R336). -/
  | boot (pkg : Nat) (imgs : BringUp (List Firmware))
  /-- POWER_CONTROL_TICK (R339). -/
  | powerControlTick (pkg watts : Nat) (temps : List Nat)
  /-- HISTOGRAM_FLASH_WRITE (R341). -/
  | histogramFlashWrite (pkg : Nat)
  /-- SUPERVISOR_REREAD (R340). -/
  | supervisorReread (a : Location)
  /-- LINK_RETRAINING (R340). -/
  | linkRetraining (l : Link) (ok : Bool)
  /-- PER_BANK_REFRESH (R308). -/
  | perBankRefresh (chan : Nat) (bank : Fin 64)
  /-- ALERT_BACK_OFF (R308). -/
  | alertBackOff (chan : Nat) (bank : Fin 64) (committed : Nat)
  /-- POWER_DOWN_ENTRY (R307). -/
  | powerDownEntry (chan : Nat)
  /-- SELF_REFRESH_ENTRY (R307). -/
  | selfRefreshEntry (chan : Nat)
  /-- RAIL_FRAME_RECEIVE (R342). -/
  | railFrameReceive (die : Nat) (f : Frame)
  /-- FRAME_RESEND (R342). -/
  | frameResend (die port seq : Nat)
  /-- REMOTE_ACCESS (R344). -/
  | remoteAccess (a : RemoteReq)
  /-- PACKAGE_TIMEOUT (R363). -/
  | packageTimeout (pkg : Nat)
  /-- PTP_EVENT_MESSAGE (R346). -/
  | ptpEventMessage (die : Nat) (m : PtpAt PtpEvent)
  /-- PTP_GENERAL_MESSAGE (R347). -/
  | ptpGeneralMessage (pkg : Nat) (m : PtpAt PtpGeneral)
  /-- HOLDOVER_ENTRY (R348). -/
  | holdoverEntry (pkg : Nat)
  /-- CCOPY_COPY (R265). -/
  | ccopyCopy (clu i : Nat)
  /-- CCOPY_FILL (R265). -/
  | ccopyFill (clu i : Nat)
  /-- CCOPY_HMSET (R265). -/
  | ccopyHmset (clu i : Nat)
  /-- CCOPY_COMPLETION (R266). -/
  | ccopyCompletion (clu i : Nat)
  /-- DCOPY_COPY (R293). -/
  | dcopyCopy (die i : Nat)
  /-- DCOPY_FILL (R293). -/
  | dcopyFill (die i : Nat)
  /-- DCOPY_HMSET (R293). -/
  | dcopyHmset (die i : Nat)
  /-- DCOPY_COMPLETION (R293). -/
  | dcopyCompletion (die i : Nat)
  /-- ENC_OPEN (R296). -/
  | encOpen (die i : Nat)
  /-- ENC_FRAME (R296). -/
  | encFrame (die i : Nat)
  /-- ENC_COMPLETION (R296). -/
  | encCompletion (die i : Nat)
  /-- SADD (R315). -/
  | sadd (die i : Nat)
  /-- SAXPY (R315). -/
  | saxpy (die i : Nat)
  /-- SSCAL (R315). -/
  | sscal (die i : Nat)
  /-- SUPD (R315). -/
  | supd (die i : Nat)
  /-- SMOM (R315). -/
  | smom (die i : Nat)
  /-- SFILL (R315). -/
  | sfill (die i : Nat)
  /-- SCPY (R315). -/
  | scpy (die i : Nat)
  /-- SEAM_MICRO_COMMAND (R318). -/
  | seamMicroCommand (die bank : Nat)
  /-- SEAM_COMPLETION (R319). -/
  | seamCompletion (die i : Nat)
  /-- ALLRED (R351). -/
  | allred (die i : Nat)
  /-- REDSCAT (R351). -/
  | redscat (die i : Nat)
  /-- ALLGATH (R351). -/
  | allgath (die i : Nat)
  /-- BCAST (R351). -/
  | bcast (die i : Nat)
  /-- COLL_CANCEL (R353). -/
  | collCancel (die : Nat) (group seq : BitVec 32)
  /-- COLL_COMPLETION (R354). -/
  | collCompletion (die i : Nat)
  /-- SEND (R358). -/
  | send (die i : Nat)
  /-- LAND (R358). -/
  | land (die i : Nat)
  /-- LZSET (R357). -/
  | lzset (die i : Nat)
  /-- ZSTAT (R357). -/
  | zstat (die i : Nat)
  /-- RTSET (R360). -/
  | rtset (die i : Nat)
  /-- DISP_COMPLETION (R358). -/
  | dispCompletion (die i : Nat)
  /-- HOST_LINK_DOWN (R332). -/
  | hostLinkDown (pkg : Nat)
  /-- HOST_LINK_UP (R332). -/
  | hostLinkUp (pkg : Nat)
  /-- DIE_LEAVES_SERVICE (R299). -/
  | dieLeavesService (die : Nat)
  /-- POWER_FAILURE (R341). -/
  | powerFailure (pkg : Nat)
  deriving DecidableEq, Repr

end Sys2Proof
end

