-- ==== Sys2Proof/WellFormed.lean ====
section
/-! DEFINITION. Which terms of Instr are instructions: the conditions of R31 and of R23 to R30, R85, R95 and R204 that
the types of Syntax.lean do not already carry. Each check has a name of its own. -/

namespace Sys2Proof

/-- Element width in bits (R56). -/
def Fmt.width : Fmt → Nat
  | .i8 | .fp8a | .fp8b | .e8 => 8
  | .i16 | .fp16 | .bf16 => 16
  | .i32 | .fp32 => 32
  | .i64 => 64
  | .i4 | .fp4 => 4
  | .bp => 1

/-- INT8 to INT64 (R29). -/
def Fmt.isInt : Fmt → Bool
  | .i8 | .i16 | .i32 | .i64 => true
  | _ => false

/-- FP16, BF16 and FP32 (R29). -/
def Fmt.isFp : Fmt → Bool
  | .fp16 | .bf16 | .fp32 => true
  | _ => false

/-- The formats of the permutes (R29). -/
def Fmt.isPerm : Fmt → Bool
  | .bp | .fp4 | .i4 => false
  | _ => true

/-- The formats that take a block (R69, R70). -/
def Fmt.isBlock : Fmt → Bool
  | .fp4 | .fp8a | .fp8b | .i8 | .i4 => true
  | _ => false

/-- Registers in a group (R20). -/
def grpSize (g : Fin 4) : Nat := 2 ^ g.val

/-- Why a term is no instruction (R31). -/
inductive IllFormed where
  | offset     -- OFF32 bits 2:0 are not zero
  | smbShape   -- XC is 0, a gap among the pointers, or an unused pointer with a nonzero SH
  | cls        -- a class the instruction does not accept
  | scope      -- a bfence SCOPE below 6
  | fmt        -- a format the instruction does not accept (R29)
  | group      -- a vector register that is no multiple of its group size
  | iop        -- an operation the instruction does not accept
  | e8Imm      -- an E8 immediate with bits 15:8 set (R31, R74); the counts of vslup and vsldn are none (log 39, DEDUCED)
  | planes     -- PL is 0 in vldbp or vstbp
  | tile       -- tile index plus RPT above 7
  | index      -- an index register operand x0, whose word is that of the immediate 0
  | fieldAxis  -- an axis on a descriptor field that has none (R26)
  | granules   -- IMM14 of spclaim or sprel is 0 or above 2048
  deriving DecidableEq, Repr

/-- Register r begins a group of n registers. -/
def aligned (r : VReg) (n : Nat) : Bool := r.val % n == 0

/-- A vector second source begins a group of n registers; other sources are not grouped. -/
def VSrc.aligned (b : VSrc) (n : Nat) : Bool :=
  match b with
  | .vec r => Sys2Proof.aligned r n
  | _ => true

/-- The first failing check of a list of named checks. -/
def firstIll : List (Bool × IllFormed) → Option IllFormed
  | [] => none
  | (ok, e) :: t => if ok then firstIll t else some e

def offOk (off : BitVec 32) : Bool := off.extractLsb' 0 3 == 0#3

/-- Engine classes 2-7 (R28). -/
def Cls.isEngine : Cls → Bool
  | .ls | .mxl | .host => false
  | _ => true

/-- Scopes 6-11 (R28, R217). -/
def Scope.isFar : Scope → Bool
  | .lane | .slice | .core | .cluster | .die | .package => false
  | _ => true

/-- smb: a count register, no gap, SH of unused pointers zero (R23, R31). -/
def SmbOp.ok (o : SmbOp) : Bool :=
  o.xc != 0 && (o.xp0 != 0 || o.xp1 == 0) && (o.xp1 != 0 || o.xp2 == 0) && (o.xp2 != 0 || o.xp3 == 0) &&
  (o.xp0 != 0 || o.sh0 == 0) && (o.xp1 != 0 || o.sh1 == 0) && (o.xp2 != 0 || o.sh2 == 0) && (o.xp3 != 0 || o.sh3 == 0)

/-- A two-source operation over the formats p accepts. -/
def VBinOp.ill (p : Fmt → Bool) (o : VBinOp) : Option IllFormed :=
  let g := grpSize o.m.grp
  firstIll [(p o.fmt, .fmt), (aligned o.vd g && aligned o.va g && o.b.aligned g, .group)]

def VTernOp.ill (p : Fmt → Bool) (o : VTernOp) : Option IllFormed :=
  let g := grpSize o.m.grp
  firstIll [(p o.fmt, .fmt), (aligned o.vd g && aligned o.va g && aligned o.vb g && aligned o.vc g, .group)]

def VCarryOp.ill (o : VCarryOp) : Option IllFormed :=
  let g := grpSize o.m.grp
  firstIll [(o.fmt.isInt, .fmt), (aligned o.vd g && aligned o.va g && aligned o.vb g, .group)]

def VCmpOp.ill (o : VCmpOp) : Option IllFormed :=
  let g := grpSize o.m.grp
  firstIll [(o.fmt.isInt || o.fmt.isFp, .fmt), (aligned o.va g && o.b.aligned g, .group)]

def VUnOp.ill (p : Fmt → Bool) (o : VUnOp) : Option IllFormed :=
  let g := grpSize o.m.grp
  firstIll [(p o.fmt, .fmt), (aligned o.vd g && aligned o.va g, .group)]

/-- vcswi: the running group and its indices together, VD a multiple of twice the group size (R24, R31). -/
def VBinOp.illSwap (o : VBinOp) : Option IllFormed :=
  let g := grpSize o.m.grp
  firstIll [(o.fmt == .i32 || o.fmt.isFp, .fmt),
    (aligned o.vd (2 * g) && aligned o.va g && o.b.aligned g, .group)]

/-- Formats vcvt converts between (R85). -/
def Fmt.isCvt : Fmt → Bool
  | .bp | .e8 => false
  | _ => true

/-- Registers of one vector of a conversion side of width w when the narrower width is wn (R85). -/
def sideRegs (w wn : Nat) : Nat := w / wn

/-- The effective group of a conversion side (R85). -/
def sideGroup (g : Fin 4) (w wn : Nat) : Nat := grpSize g * sideRegs w wn

def VCvtOp.ill (o : VCvtOp) : Option IllFormed :=
  let wn := min o.dst.width o.src.width
  let gd := sideGroup o.m.grp o.dst.width wn
  let gs := sideGroup o.m.grp o.src.width wn
  firstIll [(o.dst.isCvt && o.src.isCvt, .fmt), (decide (gd ≤ 8) && decide (gs ≤ 8), .group),
    (aligned o.vd gd && aligned o.va gs, .group)]

/-- vbpsplit and vbpjoin: G = 1; the plane operand is a group of 8, and so is the INT8 operand, whose width is 8 times
the narrower one (R85, R89). -/
def VCvtOp.illPlanes (split : Bool) (o : VCvtOp) : Option IllFormed :=
  firstIll [(if split then o.dst == .bp && o.src == .i8 else o.dst == .i8 && o.src == .bp, .fmt),
    (o.m.grp == 0 && aligned o.vd 8 && aligned o.va 8, .group)]

/-- vqnt (quantizing) and vdqnt: a block format one side, a floating format the other (R85). -/
def VQntOp.ill (quant : Bool) (o : VQntOp) : Option IllFormed :=
  let wn := min o.dst.width o.src.width
  let gd := sideGroup o.m.grp o.dst.width wn
  let gs := sideGroup o.m.grp o.src.width wn
  firstIll [(if quant then o.dst.isBlock && o.src.isFp else o.dst.isFp && o.src.isBlock, .fmt),
    (decide (gd ≤ 8) && decide (gs ≤ 8), .group),
    (aligned o.vd gd && aligned o.va gs && aligned o.vc (grpSize o.m.grp), .group)]

/-- A vector memory group whose index group, if any, spans G x k registers (R203, R204). -/
def vmIll (vd : VReg) (fmt : Fmt) (grp : Fin 4) (idx : Option VReg) (p : Fmt → Bool) : Option IllFormed :=
  let g := grpSize grp
  let gk := g * max 1 (32 / fmt.width)
  firstIll [(p fmt, .fmt), (aligned vd g, .group),
    (match idx with
     | none => true
     | some vb => decide (gk ≤ 8) && aligned vb gk, .group)]

/-- Every code except BP (R29). -/
def Fmt.isMem : Fmt → Bool
  | .bp => false
  | _ => true

/-- INT32, INT64 and FP32 (R29, R207). -/
def Fmt.isAmo : Fmt → Bool
  | .i32 | .i64 | .fp32 => true
  | _ => false

/-- The formats of mxa (R29). -/
def Fmt.isMxa : Fmt → Bool
  | .i8 | .bp | .fp4 | .fp8a | .fp8b | .fp16 | .bf16 => true
  | _ => false

/-- The formats of vredbs (R29). -/
def Fmt.isRedbs : Fmt → Bool
  | .fp4 | .fp8a | .fp8b | .i8 | .i4 => true
  | _ => false

/-- IOP 0-6, the operations of scans and reductions (R26, R95). -/
def Iop.isScan : Iop → Bool
  | .eq | .lt => false
  | _ => true

/-- IOP 0-3, those a floating-point vscan accepts (R95). -/
def Iop.isFpScan : Iop → Bool
  | .add | .mul | .max | .min => true
  | _ => false

/-- An axis is named only for the shape and stride fields; it is 0 otherwise (R26). -/
def fieldAxisOk (f : DField) (ax : Axis) : Bool :=
  f == .shape || f == .stride || ax == some 0

def tileOk (t : TReg) (rpt : Fin 8) : Bool := decide (t.val + rpt.val ≤ 7)

def granulesOk (n : BitVec 14) : Bool := decide (1 ≤ n.toNat) && decide (n.toNat ≤ 2048)

/-- Which check of R31 an instruction fails, if any. The steps that no word names carry operands of their own and
have nothing to check. R31 refuses every E8 word of FORM 10 with EXT16 bits 15:8 set, the counts of vslup and vsldn
included; that R74 has golod-as accept counts to 4,096 binds the assembler (log 39, DEDUCED). -/
def illFormed : Instr → Option IllFormed
  | .beq _ _ off | .bne _ _ off | .blt _ _ off | .bge _ _ off | .bltu _ _ off | .bgeu _ _ off
  | .jal _ off | .jalr _ _ off | .vbany _ off | .vbnone _ off | .ltc _ off | .tfetch _ off
  | .vfetch off => firstIll [(offOk off, .offset)]
  | .smb o => firstIll [(o.ok, .smbShape)]
  | .ebatch o => firstIll [(o.cls.isEngine, .cls), (aligned o.vc (grpSize o.grp), .group)]
  | .ewait c _ | .epoll c _ => firstIll [(c.isEngine, .cls)]
  | .bfence sc _ => firstIll [(sc.isFar, .scope)]
  | .vadd o | .vsub o | .vmul o | .vmulh o | .vmin o | .vmax o | .vand o | .vor o | .vxor o
  | .vsll o | .vsrl o | .vsra o | .vabsd o => o.ill Fmt.isInt
  | .vfadd o | .vfsub o | .vfmul o | .vfmin o | .vfmax o | .vfsgn o | .vfdiv o => o.ill Fmt.isFp
  | .vcswi o => o.illSwap
  | .vaddc o | .vsubb o => o.ill
  | .vmac o => o.ill Fmt.isInt
  | .vffma o | .vffnma o => o.ill Fmt.isFp
  | .vceq o | .vcne o | .vclt o | .vcle o | .vcgt o | .vcge o => o.ill
  | .vfabs o | .vfneg o | .vfexp2 o | .vflog2 o | .vfrcp o | .vfrsq o | .vfsqrt o => o.ill Fmt.isFp
  | .vcomp o | .vexpd o | .vmvv o => o.ill Fmt.isPerm
  | .vredsum o | .vredmax o | .vredmin o => o.ill fun f => f.isInt || f.isFp
  | .vredand o | .vredor o => o.ill Fmt.isInt
  | .vcvt o => o.ill
  | .vbpsplit o => o.illPlanes true
  | .vbpjoin o => o.illPlanes false
  | .vqnt o => o.ill true
  | .vdqnt o => o.ill false
  | .vslup o | .vsldn o =>
    firstIll [(o.fmt.isPerm, .fmt), (aligned o.vd (grpSize o.m.grp) && aligned o.va (grpSize o.m.grp), .group)]
  | .vgath o =>
    firstIll [(o.fmt.isPerm, .fmt),
      (aligned o.vd (grpSize o.m.grp) && aligned o.va (grpSize o.m.grp) && aligned o.vb (grpSize o.m.grp), .group)]
  | .vredbs o =>
    firstIll [(o.fmt.isRedbs, .fmt),
      (aligned o.vd (grpSize o.m.grp) && aligned o.va (grpSize o.m.grp) && aligned o.vb (grpSize o.m.grp), .group)]
  | .vbcast o =>
    firstIll [(o.fmt.isPerm, .fmt), (aligned o.vd (grpSize o.m.grp) && o.b.aligned (grpSize o.m.grp), .group),
      (match o.b with
       | .imm v => o.fmt != .e8 || v.extractLsb' 8 8 == 0#8
       | _ => true, .e8Imm)]
  | .vmvx o => firstIll [(o.fmt.isPerm, .fmt), (aligned o.va (grpSize o.m.grp), .group)]
  | .vid o => firstIll [(o.fmt.isInt, .fmt), (aligned o.vd (grpSize o.m.grp), .group)]
  | .vscan o =>
    firstIll [(o.fmt.isInt || o.fmt.isFp, .fmt),
      (aligned o.vd (grpSize o.m.grp) && aligned o.va (grpSize o.m.grp), .group),
      (if o.fmt.isFp then o.op.isFpScan else o.op.isScan, .iop)]
  | .vrng o | .vctr o =>
    firstIll [(aligned o.vd (grpSize o.m.grp) && aligned o.va (grpSize o.m.grp), .group)]
  | .vld o => vmIll o.vd o.fmt o.grp none Fmt.isMem
  | .vlds o => vmIll o.vd o.fmt o.grp none Fmt.isMem
  | .vldx o => vmIll o.vd o.fmt o.grp (some o.vb) Fmt.isMem
  | .vst o => vmIll o.vd o.fmt o.grp none Fmt.isMem
  | .vsts o => vmIll o.vd o.fmt o.grp none Fmt.isMem
  | .vstx o => vmIll o.vd o.fmt o.grp (some o.vb) Fmt.isMem
  | .vamoAdd o | .vamoMin o | .vamoMax o => vmIll o.vd o.fmt o.grp (some o.vb) Fmt.isAmo
  | .vldbp o => firstIll [(aligned o.vd 8, .group), (o.pl != 0, .planes)]
  | .vstbp o => firstIll [(aligned o.vd 8, .group), (o.pl != 0, .planes)]
  | .arrRed o | .arrScan o => firstIll [(o.op.isScan, .iop)]
  | .dset _ _ f ax | .dget _ _ f ax => firstIll [(fieldAxisOk f ax, .fieldAxis)]
  | .mxz t rpt => firstIll [(tileOk t rpt, .tile)]
  | .mxa o => firstIll [(o.fmt.isMxa, .fmt), (tileOk o.td o.rpt, .tile)]
  | .mxld t _ rpt => firstIll [(tileOk t rpt, .tile)]
  | .mxst t _ _ rpt => firstIll [(tileOk t rpt, .tile)]
  | .mxrd _ _ ix _ | .mxwr _ _ ix _ => firstIll [(ix != .reg 0, .index)]
  | .spclaim _ _ n | .sprel _ n => firstIll [(granulesOk n, .granules)]
  | .add _ _ _ | .sub _ _ _ | .and _ _ _ | .or _ _ _ | .xor _ _ _ | .sll _ _ _ | .srl _ _ _ | .sra _ _ _
  | .slt _ _ _ | .sltu _ _ _ | .min _ _ _ | .max _ _ _ | .minu _ _ _ | .maxu _ _ _ | .mul _ _ _ | .mulh _ _ _
  | .mulhu _ _ _ | .div _ _ _ | .divu _ _ _ | .rem _ _ _ | .remu _ _ _ | .clz _ _ | .ctz _ _ | .popc _ _
  | .fixedLatencyWriteback | .li _ _ | .lui _ _ _ | .mv _ _ | .sel _ _ _ | .ld8 _ _ _ | .ld16 _ _ _ | .ld32 _ _ _
  | .ld64 _ _ _ | .ldz8 _ _ _ | .ldz16 _ _ _ | .ldz32 _ _ _ | .st8 _ _ _ | .st16 _ _ _ | .st32 _ _ _ | .st64 _ _ _
  | .amoAdd _ | .amoAnd _ | .amoOr _ | .amoXor _ | .amoMin _ | .amoMax _ | .amoSwap _ | .amoCas _ | .tstop | .vjoin
  | .vjoinCompletion | .svl _ _ _ _ | .laneBinding | .vrel | .engineCountWaitRelease | .csrr _ _ | .csrw _ _
  | .csrs _ _ | .csrc _ _ | .trap _ | .tret | .wfe | .wfeWake | .nop | .halt | .brk _ | .taskEnd | .drainCompletion
  | .illegalInstruction _ | .fence _ | .lsync | .xfence _ _ _ | .vfence | .drainGroupRelease | .mand _ _ _ _
  | .mor _ _ _ _ | .mxor _ _ _ _ | .mandn _ _ _ _ | .mnot _ _ _ | .mshl _ _ _ _ | .mshr _ _ _ _ | .mpop _ _ _
  | .mfirst _ _ _ | .mset _ _ _ | .mmv _ _ _ | .arrAdd _ | .arrSub _ | .arrMul _ | .arrDiv _ | .arrMax _
  | .arrMin _ | .arrEq _ | .arrLt _ | .arrAnd _ | .arrOr _ | .arrNeg _ _ _ | .arrAbs _ _ _ | .arrExp _ _ _
  | .arrLog _ _ _ | .arrCvt _ _ _ | .arrCopy _ _ _ | .arrGrade _ _ _ _ | .arrRot _ | .arrTake _ | .arrDrop _
  | .arrShape _ _ _ | .arrTpose _ _ _ | .arrOuter _ _ | .arrFrom _ | .arrComp _ _ | .arrCat _ _ | .arrIota _ _
  | .dld _ _ | .dst _ _ | .mxon | .mxoff | .mxpred _ _ | .plset _ _ | .plmarg _ _ | .bal _ | .plout _ _
  | .plcost _ _ | .plscl _ _ | .clasp _ | .claspw _ _ | .claspa _ _ | .claspWaitRelease | .hmset _ _ | .hmchk _ _
  | .asyopen _ | .asyclose _ | .asyrd _ _ | .progress _ | .watchEventDelivery | .switchOut | .switchIn
  | .mxctlResWrite _ | .ptrootAsidWrite _ _ | .doorbell _ _ _ | .pgreq _ | .asyclr _ _ | .claspTargetWrite _ _
  | .registerWrite _ _ | .pageAnswer _ _ _ _ | .launchRecordRead _ _ | .recordFire _ _ | .prepReservation _ _ _
  | .crewPlacement _ _ _ _ | .rcwinExpiry _ | .invalidateTranslations _ _ _ _ | .releaseSession _ _ | .endDig _ _
  | .configure _ | .endFrozenTask _ | .laneRetirement _ _ | .coreSubstitution _ | .setPlimit _ _
  | .readHistograms _ | .loadFirmware _ _ | .getVersion _ | .getCapabilities _ | .negotiateAlgorithms _
  | .getMeasurements _ | .hostWrite _ _ | .hostRead _ _ | .boot _ _ | .powerControlTick _ _ _
  | .histogramFlashWrite _ | .supervisorReread _ | .linkRetraining _ _ | .perBankRefresh _ _ | .alertBackOff _ _ _
  | .powerDownEntry _ | .selfRefreshEntry _ | .railFrameReceive _ _ | .frameResend _ _ _ | .remoteAccess _
  | .packageTimeout _ | .ptpEventMessage _ _ | .ptpGeneralMessage _ _ | .holdoverEntry _ | .ccopyCopy _ _
  | .ccopyFill _ _ | .ccopyHmset _ _ | .ccopyCompletion _ _ | .dcopyCopy _ _ | .dcopyFill _ _ | .dcopyHmset _ _
  | .dcopyCompletion _ _ | .encOpen _ _ | .encFrame _ _ | .encCompletion _ _ | .sadd _ _ | .saxpy _ _ | .sscal _ _
  | .supd _ _ | .smom _ _ | .sfill _ _ | .scpy _ _ | .seamMicroCommand _ _ | .seamCompletion _ _ | .allred _ _
  | .redscat _ _ | .allgath _ _ | .bcast _ _ | .collCancel _ _ _ | .collCompletion _ _ | .send _ _ | .land _ _
  | .lzset _ _ | .zstat _ _ | .rtset _ _ | .dispCompletion _ _ | .hostLinkDown _ | .hostLinkUp _
  | .dieLeavesService _ | .powerFailure _ => none

/-- An instruction that R31 does not refuse. -/
def Instr.wf (i : Instr) : Bool := (illFormed i).isNone

end Sys2Proof
end

