-- ==== Sys2Proof/Machine/Num.lean ====
section
/-! DEFINITION. Numbers: the exact values of the element formats (R58, R60, R61, R68), rounding and overflow (R63 to
R65), and the exact operations every arithmetic instruction rounds. A pattern is a Nat below 2^width. -/

namespace Sys2Proof.Machine

/-- An exact value: fin neg m e is (-1)^neg x m x 2^e, so a zero keeps its sign. -/
inductive FVal where
  | nan
  | inf (neg : Bool)
  | fin (neg : Bool) (m : Nat) (e : Int)
  deriving DecidableEq, Repr

/-- Layout of a floating-point format (R60): exponent bits, fraction bits, bias. -/
structure FpLayout where
  ebits : Nat
  mbits : Nat
  bias : Nat
  deriving DecidableEq, Repr

/-- The layouts of R60; none for the formats that are not floating point. -/
def fpLayout : Fmt → Option FpLayout
  | .fp32 => some ⟨8, 23, 127⟩
  | .fp16 => some ⟨5, 10, 15⟩
  | .bf16 => some ⟨8, 7, 127⟩
  | .fp8b => some ⟨5, 2, 15⟩
  | .fp8a => some ⟨4, 3, 7⟩
  | .fp4 => some ⟨2, 1, 1⟩
  | .i8 | .i16 | .i32 | .i64 | .i4 | .bp | .e8 => none

/-- FP32, FP16, BF16 and FP8B have infinities (R61). -/
def hasInf : Fmt → Bool
  | .fp32 | .fp16 | .bf16 | .fp8b => true
  | _ => false

/-- The canonical NaN (R61); FP4 has none and takes +0 (R64). -/
def canonicalNaN : Fmt → Nat
  | .fp32 => 0x7FC00000
  | .fp16 => 0x7E00
  | .bf16 => 0x7FC0
  | .fp8b => 0x7E
  | .fp8a => 0x7F
  | .e8 => 0xFF
  | _ => 0

/-- The largest finite value of a floating-point format, as a pattern with sign 0 (R61). -/
def maxFinite : Fmt → Nat
  | .fp32 => 0x7F7FFFFF
  | .fp16 => 0x7BFF
  | .bf16 => 0x7F7F
  | .fp8b => 0x7B
  | .fp8a => 0x7E
  | .fp4 => 0x7
  | _ => 0

/-- Infinity with sign 0 (R61). -/
def infPattern : Fmt → Nat
  | .fp32 => 0x7F800000
  | .fp16 => 0x7C00
  | .bf16 => 0x7F80
  | .fp8b => 0x7C
  | _ => 0

/-- A pattern with its sign bit set when neg. -/
def withSign (f : Fmt) (neg : Bool) (p : Nat) : Nat := if neg then p + 2 ^ (f.width - 1) else p

/-- The exact value of a floating-point pattern (R60, R61). -/
def fpDecode (f : Fmt) (l : FpLayout) (p : Nat) : FVal :=
  let neg := (p / 2 ^ (l.ebits + l.mbits)) % 2 == 1
  let e := (p / 2 ^ l.mbits) % 2 ^ l.ebits
  let m := p % 2 ^ l.mbits
  if e = 0 then .fin neg m (1 - (l.bias : Int) - l.mbits)
  else if e = 2 ^ l.ebits - 1 ∧ hasInf f then if m = 0 then .inf neg else .nan
  else if e = 2 ^ l.ebits - 1 ∧ f = .fp8a ∧ m = 7 then .nan
  else .fin neg (2 ^ l.mbits + m) ((e : Int) - l.bias - l.mbits)

/-- A w-bit pattern as an integer: two's complement, or unsigned when u (R58). -/
def intOf (w : Nat) (u : Bool) (p : Nat) : Int :=
  if u then (p % 2 ^ w : Nat) else if p % 2 ^ w < 2 ^ (w - 1) then (p % 2 ^ w : Nat) else (p % 2 ^ w : Nat) - (2 ^ w : Nat)

/-- Least and greatest value of a w-bit integer (R58). -/
def intMin (w : Nat) (u : Bool) : Int := if u then 0 else -(2 ^ (w - 1) : Nat)
def intMax (w : Nat) (u : Bool) : Int := if u then (2 ^ w : Nat) - 1 else (2 ^ (w - 1) : Nat) - 1

/-- The w-bit pattern of an integer, wrapping. -/
def wrapInt (w : Nat) (z : Int) : Nat := (z % (2 ^ w : Nat)).toNat

/-- The nearest end of the range that u selects. -/
def clampInt (w : Nat) (u : Bool) (z : Int) : Int := max (intMin w u) (min (intMax w u) z)

/-- An exact integer result brought to a w-bit format (R59). -/
def fitInt (w : Nat) (u sat : Bool) (z : Int) : Nat := if sat then wrapInt w (clampInt w u z) else wrapInt w z

/-- The exact value of an integer. -/
def FVal.ofInt (z : Int) : FVal := .fin (decide (z < 0)) z.natAbs 0

/-- The exact value of an element pattern in any format; u reads integers unsigned (R58, R60, R68). -/
def elemVal (f : Fmt) (u : Bool) (p : Nat) : FVal :=
  match fpLayout f with
  | some l => fpDecode f l p
  | none => if f = .e8 then if p = 0xFF then .nan else .fin false 1 ((p : Int) - 127) else FVal.ofInt (intOf f.width u p)

/-- m x 2^e brought to a multiple of 2^q under rnd, as that multiple (R63). -/
def roundAt (rnd : Rnd) (neg : Bool) (m : Nat) (e q : Int) : Nat :=
  if q ≤ e then m * 2 ^ (e - q).toNat
  else
    let s := (q - e).toNat
    -- a shift past the number's length leaves 0 and a remainder below one half
    let t := if s > Nat.log2 m + 2 then 0 else m / 2 ^ s
    let r := if s > Nat.log2 m + 2 then (if m = 0 then 0 else 1) else m % 2 ^ s
    let h := if s > Nat.log2 m + 2 then 2 else 2 ^ (s - 1)
    let up := match rnd with
      | .rne => decide (r > h) || (decide (r = h) && t % 2 == 1)
      | .rtz => false
      | .rdn => neg && decide (r ≠ 0)
      | .rup => !neg && decide (r ≠ 0)
      | .rna => decide (r ≥ h)
    if up then t + 1 else t

/-- The result of an overflow (R64). -/
def overflow (f : Fmt) (rnd : Rnd) (sat neg : Bool) : Nat :=
  let toward := match rnd with
    | .rtz => true
    | .rdn => !neg
    | .rup => neg
    | .rne | .rna => false
  if toward || sat || f == .fp4 then withSign f neg (maxFinite f)
  else if hasInf f then withSign f neg (infPattern f)
  else canonicalNaN f

/-- A finite exact value in a floating-point format: one rounding with the exponent unbounded above, then R64. -/
def fpRound (f : Fmt) (l : FpLayout) (rnd : Rnd) (sat neg : Bool) (m : Nat) (e : Int) : Nat :=
  if m = 0 then withSign f neg 0
  else
    let emin : Int := 1 - (l.bias : Int) - l.mbits
    let q := max emin ((Nat.log2 m : Int) + e - l.mbits)
    let t := roundAt rnd neg m e q
    let carry := decide (t = 2 ^ (l.mbits + 1))
    let t' := if carry then t / 2 else t
    let q' := if carry then q + 1 else q
    if t' < 2 ^ l.mbits then withSign f neg t'
    else
      let b := (q' + l.mbits + l.bias).toNat
      let p := b * 2 ^ l.mbits + (t' - 2 ^ l.mbits)
      if p > maxFinite f then overflow f rnd sat neg else withSign f neg p

/-- An exact value in a floating-point format, specials included (R62 to R64). -/
def fpEncode (f : Fmt) (l : FpLayout) (rnd : Rnd) (sat : Bool) : FVal → Nat
  | .nan => canonicalNaN f
  | .inf neg =>
    if hasInf f then withSign f neg (infPattern f)
    else if f = .fp8a ∧ !sat then canonicalNaN f else withSign f neg (maxFinite f)
  | .fin neg m e => fpRound f l rnd sat neg m e

/-- A value converted to a w-bit integer: rounded, then saturated whatever SAT says; NaN gives 0 (R65). -/
def intEncode (w : Nat) (u : Bool) (rnd : Rnd) : FVal → Nat
  | .nan => 0
  | .inf neg => wrapInt w (if neg then intMin w u else intMax w u)
  | .fin neg m e =>
    -- past 2^200 the result saturates, so the shift is bounded
    let t := if (Nat.log2 m : Int) + e > 200 then 2 ^ 200 else roundAt rnd neg m e 0
    wrapInt w (clampInt w u (if neg then -(t : Int) else t))

/-- A value brought to any format: floating point by R63 and R64, integers by R65. -/
def encode (f : Fmt) (u : Bool) (rnd : Rnd) (sat : Bool) (v : FVal) : Nat :=
  match fpLayout f with
  | some l => fpEncode f l rnd sat v
  | none => intEncode f.width u rnd v

/-! Exact operations. -/

def FVal.neg : FVal → FVal
  | .nan => .nan
  | .inf s => .inf (!s)
  | .fin s m e => .fin (!s) m e

def FVal.abs : FVal → FVal
  | .nan => .nan
  | .inf _ => .inf false
  | .fin _ m e => .fin false m e

def FVal.isNaN : FVal → Bool
  | .nan => true
  | _ => false

def FVal.isZero : FVal → Bool
  | .fin _ 0 _ => true
  | _ => false

def FVal.sign : FVal → Bool
  | .nan => false
  | .inf s => s
  | .fin s _ _ => s

/-- x x 2^k. -/
def FVal.scale (k : Int) : FVal → FVal
  | .fin s m e => .fin s m (e + k)
  | v => v

/-- Signed integer of a finite value in units of 2^q, for q at most its exponent. -/
def signedAt (s : Bool) (m : Nat) (e q : Int) : Int :=
  let t : Int := (m * 2 ^ (e - q).toNat : Nat)
  if s then -t else t

/-- Exact sum: opposite infinities give NaN, an exact zero of opposite signs +0, or -0 under rdn (R63, R82). -/
def FVal.add (rnd : Rnd) : FVal → FVal → FVal
  | .nan, _ => .nan
  | _, .nan => .nan
  | .inf a, .inf b => if a = b then .inf a else .nan
  | .inf a, .fin _ _ _ => .inf a
  | .fin _ _ _, .inf b => .inf b
  | .fin a m e, .fin b n d =>
    if m = 0 ∧ n = 0 then .fin (if a = b then a else decide (rnd = .rdn)) 0 0
    else if m = 0 then .fin b n d
    else if n = 0 then .fin a m e
    else
      let q := min e d
      let z := signedAt a m e q + signedAt b n d q
      if z = 0 then .fin (decide (rnd = .rdn)) 0 0 else .fin (decide (z < 0)) z.natAbs q

def FVal.sub (rnd : Rnd) (a b : FVal) : FVal := a.add rnd b.neg

/-- Exact product: zero times infinity is NaN (R82). -/
def FVal.mul : FVal → FVal → FVal
  | .nan, _ => .nan
  | _, .nan => .nan
  | .inf a, .inf b => .inf (a ^^ b)
  | .inf a, .fin b n _ => if n = 0 then .nan else .inf (a ^^ b)
  | .fin a m _, .inf b => if m = 0 then .nan else .inf (a ^^ b)
  | .fin a m e, .fin b n d => .fin (a ^^ b) (m * n) (e + d)

/-- A value strictly between m and m + 1 in units of 2^e when it is not exact, as a value that rounds alike. -/
def inexact (neg : Bool) (m : Nat) (e : Int) (exact : Bool) : FVal :=
  if exact then .fin neg m e else .fin neg (2 * m + 1) (e - 1)

/-- Quotient, to 160 bits and an inexact mark, enough for one rounding to any format (R82). -/
def FVal.div : FVal → FVal → FVal
  | .nan, _ => .nan
  | _, .nan => .nan
  | .inf _, .inf _ => .nan
  | .inf a, .fin b _ _ => .inf (a ^^ b)
  | .fin a _ _, .inf b => .fin (a ^^ b) 0 0
  | .fin a m e, .fin b n d =>
    if n = 0 then if m = 0 then .nan else .inf (a ^^ b)
    else
      let k := 160 + Nat.log2 n
      inexact (a ^^ b) (m * 2 ^ k / n) (e - d - k) (m * 2 ^ k % n == 0)

/-- Numeric order; none when either is NaN. Zeros of both signs are equal (R81). -/
def FVal.cmp : FVal → FVal → Option Ordering
  | .nan, _ => none
  | _, .nan => none
  | .inf a, .inf b => some (if a = b then .eq else if a then .lt else .gt)
  | .inf a, .fin _ _ _ => some (if a then .lt else .gt)
  | .fin _ _ _, .inf b => some (if b then .gt else .lt)
  | .fin a m e, .fin b n d =>
    let q := min e d
    some (compare (signedAt a m e q) (signedAt b n d q))

def FVal.lt (a b : FVal) : Bool := a.cmp b == some .lt
def FVal.eq (a b : FVal) : Bool := a.cmp b == some .eq

/-- Order of R84: numeric, with -0 below +0. -/
def FVal.ltTotal (a b : FVal) : Bool := a.lt b || (a.eq b && a.sign && !b.sign)

/-- floor of log2 of a nonzero finite magnitude. -/
def FVal.ilog2 : FVal → Int
  | .fin _ m e => (Nat.log2 m : Int) + e
  | _ => 0

/-- floor of the square root, bit by bit. -/
def isqrt : Nat → Nat → Nat → Nat
  | 0, _, r => r
  | k + 1, x, r => let t := r + 2 ^ k; isqrt k x (if t * t ≤ x then t else r)

/-- Square root of a finite nonzero value, with an inexact mark. -/
def sqrtVal (m : Nat) (e : Int) : FVal :=
  let m2 := if e % 2 = 0 then m else 2 * m
  let e2 := if e % 2 = 0 then e else e - 1
  let x := m2 * 2 ^ 160
  let r := isqrt (Nat.log2 x / 2 + 1) x 0
  inexact false r (e2 / 2 - 80) (r * r == x)

/-- Reciprocal square root of a finite nonzero value, with an inexact mark. -/
def rsqrtVal (m : Nat) (e : Int) : FVal :=
  let m2 := if e % 2 = 0 then m else 2 * m
  let e2 := if e % 2 = 0 then e else e - 1
  let k := 2 * (100 + Nat.log2 m2)
  let r := isqrt (k / 2 + 1) (2 ^ k / m2) 0
  inexact false r (-(e2 / 2) - (k / 2 : Nat)) (r * r * m2 == 2 ^ k)

/-! Exponentials and logarithms, by series in fixed point with fracBits fraction bits: far past what one rounding to
FP32 needs (R82: every result is the correctly rounded exact result). -/

def fracBits : Nat := 320

/-- floor of ln 2 x 2^fracBits: the sum of 1 / (k 2^k). -/
def ln2Terms : Nat → Nat
  | 0 => 0
  | k + 1 => ln2Terms k + 2 ^ (fracBits + 32) / ((k + 1) * 2 ^ (k + 1))

def ln2Fixed : Nat := ln2Terms 352 / 2 ^ 32

/-- 1 + x + x^2/2! + ... in fixed point: sum, term and index carried along. -/
def expTerms : Nat → Nat → Nat → Nat → Nat → Nat
  | 0, _, _, _, acc => acc
  | n + 1, x, k, term, acc =>
    let t := term * x / 2 ^ fracBits / k
    expTerms n x (k + 1) t (acc + t)

/-- e^x for fixed-point x in [0, ln 2]. -/
def expFixed (x : Nat) : Nat := expTerms 80 x 1 (2 ^ fracBits) (2 ^ fracBits)

/-- z + z^3/3 + z^5/5 + ... in fixed point. -/
def atanhTerms : Nat → Nat → Nat → Nat → Nat → Nat
  | 0, _, _, _, acc => acc
  | n + 1, z2, k, pow, acc => atanhTerms n z2 (k + 2) (pow * z2 / 2 ^ fracBits) (acc + pow / k)

/-- ln of m / 2^(log2 m), a value in [1, 2), in fixed point. -/
def lnFixed (m : Nat) : Nat :=
  let d := 2 ^ Nat.log2 m
  let z := (m - d) * 2 ^ fracBits / (m + d)
  2 * atanhTerms 110 (z * z / 2 ^ fracBits) 1 z 0

/-- The value of a signed fixed-point number that is not exact. -/
def ofFixed (z : Int) : FVal := inexact (decide (z < 0)) z.natAbs (-(fracBits : Int)) false

/-- 2^a for finite a (R83): exact for an integer, and far past every format's range cut short. -/
def exp2Val (s : Bool) (m : Nat) (e : Int) : FVal :=
  if m = 0 then .fin false 1 0
  else if (Nat.log2 m : Int) + e ≥ 10 then .fin false 1 (if s then -1000 else 1000)
  else
    -- a as fixed point, floor and fraction
    let z := if e + fracBits ≥ 0 then signedAt s m e (-(fracBits : Int)) else if s then -1 else 1
    let n := z / (2 ^ fracBits : Nat)
    let fr := (z % (2 ^ fracBits : Nat)).toNat
    if fr = 0 then .fin false 1 n
    else inexact false (expFixed (fr * ln2Fixed / 2 ^ fracBits)) (n - fracBits) false

/-- e^a for finite a. -/
def expVal (s : Bool) (m : Nat) (e : Int) : FVal :=
  if m = 0 then .fin false 1 0
  else if (Nat.log2 m : Int) + e ≥ 10 then .fin false 1 (if s then -1000 else 1000)
  else
    let z := if e + fracBits ≥ 0 then signedAt s m e (-(fracBits : Int)) else if s then -1 else 1
    let n := z / (ln2Fixed : Int)
    let fr := (z % (ln2Fixed : Int)).toNat
    inexact false (expFixed fr) (n - fracBits) false

/-- log2 of a positive finite value (R83). -/
def log2Val (m : Nat) (e : Int) : FVal :=
  let k : Int := (Nat.log2 m : Int) + e
  if m = 2 ^ Nat.log2 m then FVal.ofInt k
  else ofFixed (k * (2 ^ fracBits : Nat) + ((lnFixed m * 2 ^ fracBits / ln2Fixed : Nat) : Int))

/-- ln of a positive finite value. -/
def lnVal (m : Nat) (e : Int) : FVal :=
  let k : Int := (Nat.log2 m : Int) + e
  if m = 2 ^ Nat.log2 m ∧ k = 0 then .fin false 0 0
  else ofFixed (k * (ln2Fixed : Int) + (lnFixed m : Int))

/-- vfexp2 on every input (R83). -/
def FVal.exp2 : FVal → FVal
  | .nan => .nan
  | .inf s => if s then .fin false 0 0 else .inf false
  | .fin s m e => exp2Val s m e

/-- e^a on every input, specials as vfexp2's. -/
def FVal.exp : FVal → FVal
  | .nan => .nan
  | .inf s => if s then .fin false 0 0 else .inf false
  | .fin s m e => expVal s m e

/-- vflog2 on every input (R83). -/
def FVal.log2 : FVal → FVal
  | .nan => .nan
  | .inf s => if s then .nan else .inf false
  | .fin s m e => if m = 0 then .inf true else if s then .nan else log2Val m e

/-- ln on every input, specials as vflog2's. -/
def FVal.ln : FVal → FVal
  | .nan => .nan
  | .inf s => if s then .nan else .inf false
  | .fin s m e => if m = 0 then .inf true else if s then .nan else lnVal m e

/-- vfrcp on every input (R83). -/
def FVal.rcp (a : FVal) : FVal := FVal.div (.fin false 1 0) a

/-- vfrsq on every input (R83). -/
def FVal.rsq : FVal → FVal
  | .nan => .nan
  | .inf s => if s then .nan else .fin false 0 0
  | .fin s m e => if m = 0 then .inf s else if s then .nan else rsqrtVal m e

/-- vfsqrt on every input (R83). -/
def FVal.sqrt : FVal → FVal
  | .nan => .nan
  | .inf s => if s then .nan else .inf false
  | .fin s m e => if m = 0 then .fin s 0 0 else if s then .nan else sqrtVal m e

end Sys2Proof.Machine
end

