-- ==== Sys2Proof/Decode.lean ====
section
/-! DEFINITION. Decoding and encoding (R12 to R33): the nine formats of R17 as records packed to and from the word, the
field codes of R19 to R21, the opcode map of R22 and the operands of R23 to R28. decode is total: a word is an
instruction or is refused by name, and a refused word raises ILLEGAL (R31, R33). encode writes the word of an
instruction. -/

namespace Sys2Proof

/-- Why a word is no instruction (R31). -/
inductive DecodeError where
  | op                       -- OP is unassigned
  | fn                       -- FN at or above the family's count
  | form                     -- FORM 11, or one the instruction does not take
  | nonzero                  -- a field that is zero for the instruction is not
  | fmt                      -- FMT 13-15
  | rnd                      -- RND 5-7
  | rank                     -- KA or KB 9-14
  | axis                     -- AX 8-14
  | iop                      -- IOP 9-15, or a vscan operation code 7-31
  | field                    -- a field selector 9-15
  | cls                      -- CLS 9-15
  | scope                    -- SCOPE 12-15
  | csr                      -- an undefined CSR number
  | clasp                    -- a clasp id outside 0-63 and 256-511
  | assay                    -- an assay id above 255
  | index                    -- IDX8 above 63, or IDX8 and XN both nonzero
  | illFormed (e : IllFormed)  -- a condition of WellFormed
  deriving DecidableEq, Repr

abbrev Dec (α : Type) := Except DecodeError α

/-- A condition the word must meet. -/
def need (c : Bool) (e : DecodeError) : Dec Unit := if c then .ok () else .error e

def orErr {α : Type} (e : DecodeError) : Option α → Dec α
  | some a => .ok a
  | none => .error e

/-! The formats (R17): the fields of bits 51:0, high to low. -/

/-- Format S, scalar (R17). -/
structure RawS where
  xd : BitVec 5 := 0
  xa : BitVec 5 := 0
  xb : BitVec 5 := 0
  fn : BitVec 5 := 0
  imm : BitVec 32 := 0
  deriving DecidableEq, Repr

def RawS.pack (r : RawS) : BitVec 52 :=
  r.xd ++ r.xa ++ r.xb ++ r.fn ++ r.imm

def RawS.ofBody (b : BitVec 52) : RawS where
  xd := b.extractLsb' 47 5
  xa := b.extractLsb' 42 5
  xb := b.extractLsb' 37 5
  fn := b.extractLsb' 32 5
  imm := b.extractLsb' 0 32

/-- Format B, branch (R17). -/
structure RawB where
  xa : BitVec 5 := 0
  xb : BitVec 5 := 0
  fn : BitVec 5 := 0
  z : BitVec 2 := 0
  pm : BitVec 3 := 0
  off : BitVec 32 := 0
  deriving DecidableEq, Repr

def RawB.pack (r : RawB) : BitVec 52 :=
  r.xa ++ r.xb ++ r.fn ++ r.z ++ r.pm ++ r.off

def RawB.ofBody (b : BitVec 52) : RawB where
  xa := b.extractLsb' 47 5
  xb := b.extractLsb' 42 5
  fn := b.extractLsb' 37 5
  z := b.extractLsb' 35 2
  pm := b.extractLsb' 32 3
  off := b.extractLsb' 0 32

/-- Format M, strip-mine branch (R17). -/
structure RawM where
  xc : BitVec 5 := 0
  xp0 : BitVec 5 := 0
  xp1 : BitVec 5 := 0
  xp2 : BitVec 5 := 0
  xp3 : BitVec 5 := 0
  sh0 : BitVec 3 := 0
  sh1 : BitVec 3 := 0
  sh2 : BitVec 3 := 0
  sh3 : BitVec 3 := 0
  off : BitVec 15 := 0
  deriving DecidableEq, Repr

def RawM.pack (r : RawM) : BitVec 52 :=
  r.xc ++ r.xp0 ++ r.xp1 ++ r.xp2 ++ r.xp3 ++ r.sh0 ++ r.sh1 ++ r.sh2 ++ r.sh3 ++ r.off

def RawM.ofBody (b : BitVec 52) : RawM where
  xc := b.extractLsb' 47 5
  xp0 := b.extractLsb' 42 5
  xp1 := b.extractLsb' 37 5
  xp2 := b.extractLsb' 32 5
  xp3 := b.extractLsb' 27 5
  sh0 := b.extractLsb' 24 3
  sh1 := b.extractLsb' 21 3
  sh2 := b.extractLsb' 18 3
  sh3 := b.extractLsb' 15 3
  off := b.extractLsb' 0 15

/-- Format V, vector (R17). -/
structure RawV where
  vd : BitVec 5 := 0
  va : BitVec 5 := 0
  vb : BitVec 5 := 0
  pm : BitVec 3 := 0
  fmt : BitVec 4 := 0
  fn : BitVec 4 := 0
  grp : BitVec 2 := 0
  ext : BitVec 16 := 0
  u : BitVec 1 := 0
  rnd : BitVec 3 := 0
  sat : BitVec 1 := 0
  z : BitVec 3 := 0
  deriving DecidableEq, Repr

def RawV.pack (r : RawV) : BitVec 52 :=
  r.vd ++ r.va ++ r.vb ++ r.pm ++ r.fmt ++ r.fn ++ r.grp ++ r.ext ++ r.u ++ r.rnd ++ r.sat ++ r.z

def RawV.ofBody (b : BitVec 52) : RawV where
  vd := b.extractLsb' 47 5
  va := b.extractLsb' 42 5
  vb := b.extractLsb' 37 5
  pm := b.extractLsb' 34 3
  fmt := b.extractLsb' 30 4
  fn := b.extractLsb' 26 4
  grp := b.extractLsb' 24 2
  ext := b.extractLsb' 8 16
  u := b.extractLsb' 7 1
  rnd := b.extractLsb' 4 3
  sat := b.extractLsb' 3 1
  z := b.extractLsb' 0 3

/-- Format VM, vector memory (R17). -/
structure RawVM where
  vd : BitVec 5 := 0
  xa : BitVec 5 := 0
  xb : BitVec 5 := 0
  pm : BitVec 3 := 0
  fmt : BitVec 4 := 0
  fn : BitVec 4 := 0
  grp : BitVec 2 := 0
  off : BitVec 16 := 0
  hm : BitVec 1 := 0
  pl : BitVec 3 := 0
  z : BitVec 4 := 0
  deriving DecidableEq, Repr

def RawVM.pack (r : RawVM) : BitVec 52 :=
  r.vd ++ r.xa ++ r.xb ++ r.pm ++ r.fmt ++ r.fn ++ r.grp ++ r.off ++ r.hm ++ r.pl ++ r.z

def RawVM.ofBody (b : BitVec 52) : RawVM where
  vd := b.extractLsb' 47 5
  xa := b.extractLsb' 42 5
  xb := b.extractLsb' 37 5
  pm := b.extractLsb' 34 3
  fmt := b.extractLsb' 30 4
  fn := b.extractLsb' 26 4
  grp := b.extractLsb' 24 2
  off := b.extractLsb' 8 16
  hm := b.extractLsb' 7 1
  pl := b.extractLsb' 4 3
  z := b.extractLsb' 0 4

/-- Format A, array (R17). -/
structure RawA where
  dd : BitVec 4 := 0
  da : BitVec 4 := 0
  db : BitVec 4 := 0
  ka : BitVec 4 := 0
  kb : BitVec 4 := 0
  ax : BitVec 4 := 0
  iop : BitVec 4 := 0
  imm : BitVec 20 := 0
  fn : BitVec 4 := 0
  deriving DecidableEq, Repr

def RawA.pack (r : RawA) : BitVec 52 :=
  r.dd ++ r.da ++ r.db ++ r.ka ++ r.kb ++ r.ax ++ r.iop ++ r.imm ++ r.fn

def RawA.ofBody (b : BitVec 52) : RawA where
  dd := b.extractLsb' 48 4
  da := b.extractLsb' 44 4
  db := b.extractLsb' 40 4
  ka := b.extractLsb' 36 4
  kb := b.extractLsb' 32 4
  ax := b.extractLsb' 28 4
  iop := b.extractLsb' 24 4
  imm := b.extractLsb' 4 20
  fn := b.extractLsb' 0 4

/-- Format X, matrix and plan (R17). -/
structure RawX where
  td : BitVec 3 := 0
  da : BitVec 4 := 0
  db : BitVec 4 := 0
  xn : BitVec 5 := 0
  vs : BitVec 5 := 0
  ts : BitVec 3 := 0
  fn : BitVec 4 := 0
  idx : BitVec 8 := 0
  col : BitVec 1 := 0
  fmt : BitVec 4 := 0
  rpt : BitVec 3 := 0
  z : BitVec 8 := 0
  deriving DecidableEq, Repr

def RawX.pack (r : RawX) : BitVec 52 :=
  r.td ++ r.da ++ r.db ++ r.xn ++ r.vs ++ r.ts ++ r.fn ++ r.idx ++ r.col ++ r.fmt ++ r.rpt ++ r.z

def RawX.ofBody (b : BitVec 52) : RawX where
  td := b.extractLsb' 49 3
  da := b.extractLsb' 45 4
  db := b.extractLsb' 41 4
  xn := b.extractLsb' 36 5
  vs := b.extractLsb' 31 5
  ts := b.extractLsb' 28 3
  fn := b.extractLsb' 24 4
  idx := b.extractLsb' 16 8
  col := b.extractLsb' 15 1
  fmt := b.extractLsb' 11 4
  rpt := b.extractLsb' 8 3
  z := b.extractLsb' 0 8

/-- Format E, engine (R17). -/
structure RawE where
  vc : BitVec 5 := 0
  grp : BitVec 2 := 0
  pm : BitVec 3 := 0
  mr : BitVec 3 := 0
  cls : BitVec 4 := 0
  xq : BitVec 5 := 0
  fn : BitVec 4 := 0
  z : BitVec 26 := 0
  deriving DecidableEq, Repr

def RawE.pack (r : RawE) : BitVec 52 :=
  r.vc ++ r.grp ++ r.pm ++ r.mr ++ r.cls ++ r.xq ++ r.fn ++ r.z

def RawE.ofBody (b : BitVec 52) : RawE where
  vc := b.extractLsb' 47 5
  grp := b.extractLsb' 45 2
  pm := b.extractLsb' 42 3
  mr := b.extractLsb' 39 3
  cls := b.extractLsb' 35 4
  xq := b.extractLsb' 30 5
  fn := b.extractLsb' 26 4
  z := b.extractLsb' 0 26

/-- Format C, control (R17). -/
structure RawC where
  xd : BitVec 5 := 0
  xa : BitVec 5 := 0
  csel : BitVec 12 := 0
  fn : BitVec 4 := 0
  scope : BitVec 4 := 0
  cla : BitVec 4 := 0
  clb : BitVec 4 := 0
  imm : BitVec 14 := 0
  deriving DecidableEq, Repr

def RawC.pack (r : RawC) : BitVec 52 :=
  r.xd ++ r.xa ++ r.csel ++ r.fn ++ r.scope ++ r.cla ++ r.clb ++ r.imm

def RawC.ofBody (b : BitVec 52) : RawC where
  xd := b.extractLsb' 47 5
  xa := b.extractLsb' 42 5
  csel := b.extractLsb' 30 12
  fn := b.extractLsb' 26 4
  scope := b.extractLsb' 22 4
  cla := b.extractLsb' 18 4
  clb := b.extractLsb' 14 4
  imm := b.extractLsb' 0 14

/-- The common fields (R13) and bits 51:0. -/
structure Parts where
  op : BitVec 7
  stl : BitVec 3
  form : BitVec 2
  body : BitVec 52
  deriving DecidableEq, Repr

def Parts.pack (p : Parts) : Word := p.op ++ p.stl ++ p.form ++ p.body

def Parts.ofWord (w : Word) : Parts where
  op := w.extractLsb' 57 7
  stl := w.extractLsb' 54 3
  form := w.extractLsb' 52 2
  body := w.extractLsb' 0 52

/-! Field codes. -/

/-- The code of a Fmt (R19). -/
def Fmt.code : Fmt → BitVec 4
  | .i8 => 0
  | .i16 => 1
  | .i32 => 2
  | .i64 => 3
  | .bp => 4
  | .fp4 => 5
  | .fp8a => 6
  | .fp8b => 7
  | .fp16 => 8
  | .bf16 => 9
  | .fp32 => 10
  | .e8 => 11
  | .i4 => 12

def Fmt.ofCode (c : BitVec 4) : Option Fmt :=
  match c.toNat with
  | 0 => some .i8
  | 1 => some .i16
  | 2 => some .i32
  | 3 => some .i64
  | 4 => some .bp
  | 5 => some .fp4
  | 6 => some .fp8a
  | 7 => some .fp8b
  | 8 => some .fp16
  | 9 => some .bf16
  | 10 => some .fp32
  | 11 => some .e8
  | 12 => some .i4
  | _ => none

/-- The code of a Rnd (R20). -/
def Rnd.code : Rnd → BitVec 3
  | .rne => 0
  | .rtz => 1
  | .rdn => 2
  | .rup => 3
  | .rna => 4

def Rnd.ofCode (c : BitVec 3) : Option Rnd :=
  match c.toNat with
  | 0 => some .rne
  | 1 => some .rtz
  | 2 => some .rdn
  | 3 => some .rup
  | 4 => some .rna
  | _ => none

/-- The code of a Scope (R21). -/
def Scope.code : Scope → BitVec 4
  | .lane => 0
  | .slice => 1
  | .core => 2
  | .cluster => 3
  | .die => 4
  | .package => 5
  | .bank => 6
  | .stack => 7
  | .memory => 8
  | .host => 9
  | .domain => 10
  | .system => 11

def Scope.ofCode (c : BitVec 4) : Option Scope :=
  match c.toNat with
  | 0 => some .lane
  | 1 => some .slice
  | 2 => some .core
  | 3 => some .cluster
  | 4 => some .die
  | 5 => some .package
  | 6 => some .bank
  | 7 => some .stack
  | 8 => some .memory
  | 9 => some .host
  | 10 => some .domain
  | 11 => some .system
  | _ => none

/-- The code of a Cls (R21). -/
def Cls.code : Cls → BitVec 4
  | .ls => 0
  | .mxl => 1
  | .ccopy => 2
  | .dcopy => 3
  | .seam => 4
  | .coll => 5
  | .disp => 6
  | .enc => 7
  | .host => 8

def Cls.ofCode (c : BitVec 4) : Option Cls :=
  match c.toNat with
  | 0 => some .ls
  | 1 => some .mxl
  | 2 => some .ccopy
  | 3 => some .dcopy
  | 4 => some .seam
  | 5 => some .coll
  | 6 => some .disp
  | 7 => some .enc
  | 8 => some .host
  | _ => none

/-- The code of a Iop (R20). -/
def Iop.code : Iop → BitVec 4
  | .add => 0
  | .mul => 1
  | .max => 2
  | .min => 3
  | .and => 4
  | .or => 5
  | .xor => 6
  | .eq => 7
  | .lt => 8

def Iop.ofCode (c : BitVec 4) : Option Iop :=
  match c.toNat with
  | 0 => some .add
  | 1 => some .mul
  | 2 => some .max
  | 3 => some .min
  | 4 => some .and
  | 5 => some .or
  | 6 => some .xor
  | 7 => some .eq
  | 8 => some .lt
  | _ => none

/-- Block codes of svl (R23). -/
def Blk.code : Blk → BitVec 2
  | .none => 0
  | .b16 => 1
  | .b32 => 2
  | .b64 => 3

def Blk.ofCode (c : BitVec 2) : Blk :=
  match c.toNat with
  | 0 => .none
  | 1 => .b16
  | 2 => .b32
  | _ => .b64

/-- Order codes of amo (R23). -/
def Order.code : Order → BitVec 2
  | .rlx => 0
  | .acq => 1
  | .rel => 2
  | .acqrel => 3

def Order.ofCode (c : BitVec 2) : Order :=
  match c.toNat with
  | 0 => .rlx
  | 1 => .acq
  | 2 => .rel
  | _ => .acqrel

/-- The code of a DField (R26). -/
def DField.code : DField → BitVec 4
  | .base => 0
  | .fmt => 1
  | .rank => 2
  | .shape => 3
  | .stride => 4
  | .pstride => 5
  | .sbase => 6
  | .block => 7
  | .cap => 8

def DField.ofCode (c : BitVec 4) : Option DField :=
  match c.toNat with
  | 0 => some .base
  | 1 => some .fmt
  | 2 => some .rank
  | 3 => some .shape
  | 4 => some .stride
  | 5 => some .pstride
  | 6 => some .sbase
  | 7 => some .block
  | 8 => some .cap
  | _ => none

/-- KA and KB (R20): 0-8, or 15 for the whole argument. -/
def rankCode : CellRank → BitVec 4
  | some k => BitVec.ofNat 4 k.val
  | none => 15

def rankOf (c : BitVec 4) : Option CellRank :=
  if c = 15 then some none else if h : c.toNat < 9 then some (some ⟨c.toNat, h⟩) else none

/-- AX (R20): 0-7, or 15 for the last axis. -/
def axisCode : Axis → BitVec 4
  | some k => BitVec.ofNat 4 k.val
  | none => 15

def axisOf (c : BitVec 4) : Option Axis :=
  if c = 15 then some none else if h : c.toNat < 8 then some (some ⟨c.toNat, h⟩) else none

/-- Clasp ids (R28): 0-63 of the cluster, 256-511 of the die. -/
def ClaspId.code : ClaspId → BitVec 12
  | .cluster i => BitVec.ofNat 12 i.val
  | .die i => BitVec.ofNat 12 (256 + i.val)

def ClaspId.ofCode (c : BitVec 12) : Option ClaspId :=
  if h : c.toNat < 64 then some (.cluster ⟨c.toNat, h⟩)
  else if h : 256 ≤ c.toNat ∧ c.toNat - 256 < 256 then some (.die ⟨c.toNat - 256, h.2⟩) else none

/-- CSR numbers (R101). -/
def Csr.code : Csr → BitVec 12
  | .ctl => 0x000
  | .stat => 0x001
  | .vl => 0x002
  | .vlg => 0x003
  | .vcfg => 0x004
  | .scnt => 0x005
  | .eidx => 0x006
  | .vah => 0x007
  | .detw => 0x008
  | .tcause => 0x020
  | .taddr => 0x021
  | .tpc => 0x022
  | .tvec => 0x023
  | .tsp => 0x024
  | .tinfo => 0x025
  | .dfcause => 0x026
  | .dfaddr => 0x027
  | .lmap => 0x030
  | .vlmax => 0x031
  | .lgrant => 0x032
  | .eptlim => 0x040
  | .eptport => 0x041
  | .mxctl => 0x050
  | .mxrowp => 0x051
  | .mxcolp => 0x052
  | .mxprog => 0x053
  | .plst => 0x060
  | .swlim => 0x061
  | .pltol => 0x062
  | .plsw => 0x063
  | .pleps => 0x064
  | .tick => 0x070
  | .deadln => 0x071
  | .prio => 0x072
  | .dlwin => 0x073
  | .hmexp => 0x080
  | .session => 0x081
  | .watchctl => 0x094
  | .ptroot => 0x0A0
  | .asid => 0x0A1
  | .fmsk n => BitVec.ofNat 12 (0x010 + n.val)
  | .watch n => BitVec.ofNat 12 (0x090 + n.val)

def Csr.ofCode (c : BitVec 12) : Option Csr :=
  match c.toNat with
  | 0x000 => some .ctl
  | 0x001 => some .stat
  | 0x002 => some .vl
  | 0x003 => some .vlg
  | 0x004 => some .vcfg
  | 0x005 => some .scnt
  | 0x006 => some .eidx
  | 0x007 => some .vah
  | 0x008 => some .detw
  | 0x020 => some .tcause
  | 0x021 => some .taddr
  | 0x022 => some .tpc
  | 0x023 => some .tvec
  | 0x024 => some .tsp
  | 0x025 => some .tinfo
  | 0x026 => some .dfcause
  | 0x027 => some .dfaddr
  | 0x030 => some .lmap
  | 0x031 => some .vlmax
  | 0x032 => some .lgrant
  | 0x040 => some .eptlim
  | 0x041 => some .eptport
  | 0x050 => some .mxctl
  | 0x051 => some .mxrowp
  | 0x052 => some .mxcolp
  | 0x053 => some .mxprog
  | 0x060 => some .plst
  | 0x061 => some .swlim
  | 0x062 => some .pltol
  | 0x063 => some .plsw
  | 0x064 => some .pleps
  | 0x070 => some .tick
  | 0x071 => some .deadln
  | 0x072 => some .prio
  | 0x073 => some .dlwin
  | 0x080 => some .hmexp
  | 0x081 => some .session
  | 0x094 => some .watchctl
  | 0x0A0 => some .ptroot
  | 0x0A1 => some .asid
  | 0x010 => some (.fmsk 0)
  | 0x011 => some (.fmsk 1)
  | 0x012 => some (.fmsk 2)
  | 0x013 => some (.fmsk 3)
  | 0x014 => some (.fmsk 4)
  | 0x015 => some (.fmsk 5)
  | 0x016 => some (.fmsk 6)
  | 0x017 => some (.fmsk 7)
  | 0x018 => some (.fmsk 8)
  | 0x019 => some (.fmsk 9)
  | 0x01A => some (.fmsk 10)
  | 0x01B => some (.fmsk 11)
  | 0x01C => some (.fmsk 12)
  | 0x01D => some (.fmsk 13)
  | 0x01E => some (.fmsk 14)
  | 0x01F => some (.fmsk 15)
  | 0x090 => some (.watch 0)
  | 0x091 => some (.watch 1)
  | 0x092 => some (.watch 2)
  | 0x093 => some (.watch 3)
  | _ => none

/-- A register field as an index. -/
def fld5 (b : BitVec 5) : Fin 32 := b.toFin
def fld4 (b : BitVec 4) : Fin 16 := b.toFin
def fld3 (b : BitVec 3) : Fin 8 := b.toFin
def fld2 (b : BitVec 2) : Fin 4 := b.toFin
def bits5 (r : Fin 32) : BitVec 5 := BitVec.ofFin r
def bits4 (r : Fin 16) : BitVec 4 := BitVec.ofFin r
def bits3 (r : Fin 8) : BitVec 3 := BitVec.ofFin r
def bits2 (r : Fin 4) : BitVec 2 := BitVec.ofFin r
def flag (b : BitVec 1) : Bool := b == 1#1
def flagBit (b : Bool) : BitVec 1 := BitVec.ofBool b

/-! Decoding, family by family. In each family FN picks the mnemonic by its place in its row of R22. -/

/-- The second source of a format S instruction: FORM 00 XB with IMM32 zero, FORM 10 IMM32 with XB zero (R23). -/
def xsrcOf (form : BitVec 2) (r : RawS) : Dec XSrc :=
  if form = 0 then do need (r.imm == 0) .nonzero; return .reg (fld5 r.xb)
  else if form = 2 then do need (r.xb == 0) .nonzero; return .imm r.imm
  else .error .form

/-- XALU with two sources (R22). -/
def xaluOp (fn : BitVec 5) : Option (XReg → XReg → XSrc → Instr) :=
  match fn.toNat with
  | 0 => some Instr.add
  | 1 => some Instr.sub
  | 2 => some Instr.and
  | 3 => some Instr.or
  | 4 => some Instr.xor
  | 5 => some Instr.sll
  | 6 => some Instr.srl
  | 7 => some Instr.sra
  | 8 => some Instr.slt
  | 9 => some Instr.sltu
  | 10 => some Instr.min
  | 11 => some Instr.max
  | 12 => some Instr.minu
  | 13 => some Instr.maxu
  | 14 => some Instr.mul
  | 15 => some Instr.mulh
  | 16 => some Instr.mulhu
  | 17 => some Instr.div
  | 18 => some Instr.divu
  | 19 => some Instr.rem
  | 20 => some Instr.remu
  | _ => none

/-- XALU with one source (R22). -/
def xaluUn (fn : BitVec 5) : Option (XReg → XReg → Instr) :=
  match fn.toNat with
  | 21 => some Instr.clz
  | 22 => some Instr.ctz
  | 23 => some Instr.popc
  | _ => none

/-- XMEM (R22). -/
def xmemOp (fn : BitVec 5) : Option (XReg → XReg → XSrc → Instr) :=
  match fn.toNat with
  | 0 => some Instr.ld8
  | 1 => some Instr.ld16
  | 2 => some Instr.ld32
  | 3 => some Instr.ld64
  | 4 => some Instr.ldz8
  | 5 => some Instr.ldz16
  | 6 => some Instr.ldz32
  | 7 => some Instr.st8
  | 8 => some Instr.st16
  | 9 => some Instr.st32
  | 10 => some Instr.st64
  | _ => none

/-- XAMO (R22). -/
def xamoOp (fn : BitVec 5) : Option (AmoOp → Instr) :=
  match fn.toNat with
  | 0 => some Instr.amoAdd
  | 1 => some Instr.amoAnd
  | 2 => some Instr.amoOr
  | 3 => some Instr.amoXor
  | 4 => some Instr.amoMin
  | 5 => some Instr.amoMax
  | 6 => some Instr.amoSwap
  | 7 => some Instr.amoCas
  | _ => none

/-- BR (R22). -/
def brOp (fn : BitVec 5) : Option (XReg → XReg → BitVec 32 → Instr) :=
  match fn.toNat with
  | 0 => some Instr.beq
  | 1 => some Instr.bne
  | 2 => some Instr.blt
  | 3 => some Instr.bge
  | 4 => some Instr.bltu
  | 5 => some Instr.bgeu
  | _ => none

/-- VIA with two sources (R22). -/
def viaOp (fn : BitVec 4) : Option (VBinOp → Instr) :=
  match fn.toNat with
  | 0 => some Instr.vadd
  | 1 => some Instr.vsub
  | 4 => some Instr.vmul
  | 5 => some Instr.vmulh
  | 6 => some Instr.vmin
  | 7 => some Instr.vmax
  | 8 => some Instr.vand
  | 9 => some Instr.vor
  | 10 => some Instr.vxor
  | 11 => some Instr.vsll
  | 12 => some Instr.vsrl
  | 13 => some Instr.vsra
  | 14 => some Instr.vabsd
  | _ => none

/-- vaddc and vsubb (R22). -/
def viaCarry (fn : BitVec 4) : Option (VCarryOp → Instr) :=
  match fn.toNat with
  | 2 => some Instr.vaddc
  | 3 => some Instr.vsubb
  | _ => none

/-- VCMP (R22). -/
def vcmpOp (fn : BitVec 4) : Option (VCmpOp → Instr) :=
  match fn.toNat with
  | 0 => some Instr.vceq
  | 1 => some Instr.vcne
  | 2 => some Instr.vclt
  | 3 => some Instr.vcle
  | 4 => some Instr.vcgt
  | 5 => some Instr.vcge
  | _ => none

/-- VFA with two sources (R22). -/
def vfaBin (fn : BitVec 4) : Option (VBinOp → Instr) :=
  match fn.toNat with
  | 0 => some Instr.vfadd
  | 1 => some Instr.vfsub
  | 2 => some Instr.vfmul
  | 5 => some Instr.vfmin
  | 6 => some Instr.vfmax
  | 9 => some Instr.vfsgn
  | 14 => some Instr.vfdiv
  | _ => none

/-- VFA with three sources (R22). -/
def vfaTern (fn : BitVec 4) : Option (VTernOp → Instr) :=
  match fn.toNat with
  | 3 => some Instr.vffma
  | 4 => some Instr.vffnma
  | _ => none

/-- VFA with one source (R22). -/
def vfaUn (fn : BitVec 4) : Option (VUnOp → Instr) :=
  match fn.toNat with
  | 7 => some Instr.vfabs
  | 8 => some Instr.vfneg
  | 10 => some Instr.vfexp2
  | 11 => some Instr.vflog2
  | 12 => some Instr.vfrcp
  | 13 => some Instr.vfrsq
  | 15 => some Instr.vfsqrt
  | _ => none

/-- VCVT without a scale register (R22). -/
def vcvtOp (fn : BitVec 4) : Option (VCvtOp → Instr) :=
  match fn.toNat with
  | 0 => some Instr.vcvt
  | 3 => some Instr.vbpsplit
  | 4 => some Instr.vbpjoin
  | _ => none

/-- VCVT with a scale register (R22). -/
def vqntOp (fn : BitVec 4) : Option (VQntOp → Instr) :=
  match fn.toNat with
  | 1 => some Instr.vqnt
  | 2 => some Instr.vdqnt
  | _ => none

/-- VMSK with two sources (R22). -/
def vmskBin (fn : BitVec 4) : Option (MReg → MReg → MReg → VMods → Instr) :=
  match fn.toNat with
  | 0 => some Instr.mand
  | 1 => some Instr.mor
  | 2 => some Instr.mxor
  | 3 => some Instr.mandn
  | _ => none

/-- VMSK with one source (R22). -/
def vmskUn (fn : BitVec 4) : Option (MReg → MReg → VMods → Instr) :=
  match fn.toNat with
  | 4 => some Instr.mnot
  | 10 => some Instr.mmv
  | _ => none

/-- mshl and mshr (R22). -/
def vmskShift (fn : BitVec 4) : Option (MReg → MReg → VCount → VMods → Instr) :=
  match fn.toNat with
  | 5 => some Instr.mshl
  | 6 => some Instr.mshr
  | _ => none

/-- mpop and mfirst (R22). -/
def vmskX (fn : BitVec 4) : Option (XReg → MReg → VMods → Instr) :=
  match fn.toNat with
  | 7 => some Instr.mpop
  | 8 => some Instr.mfirst
  | _ => none

/-- vslup and vsldn (R22). -/
def vpermSlide (fn : BitVec 4) : Option (VSlideOp → Instr) :=
  match fn.toNat with
  | 0 => some Instr.vslup
  | 1 => some Instr.vsldn
  | _ => none

/-- VPERM with one source (R22). -/
def vpermUn (fn : BitVec 4) : Option (VUnOp → Instr) :=
  match fn.toNat with
  | 3 => some Instr.vcomp
  | 4 => some Instr.vexpd
  | 7 => some Instr.vmvv
  | _ => none

/-- VRED with one source (R22). -/
def vredOp (fn : BitVec 4) : Option (VUnOp → Instr) :=
  match fn.toNat with
  | 0 => some Instr.vredsum
  | 1 => some Instr.vredmax
  | 2 => some Instr.vredmin
  | 3 => some Instr.vredand
  | 4 => some Instr.vredor
  | _ => none

/-- VRNG (R22). -/
def vrngOp (fn : BitVec 4) : Option (VRngOp → Instr) :=
  match fn.toNat with
  | 0 => some Instr.vrng
  | 1 => some Instr.vctr
  | _ => none

/-- VAMO (R22). -/
def vamoOp (fn : BitVec 4) : Option (VmStxOp → Instr) :=
  match fn.toNat with
  | 0 => some Instr.vamoAdd
  | 1 => some Instr.vamoMin
  | 2 => some Instr.vamoMax
  | _ => none

/-- AELT with two arguments (R22). -/
def aeltBin (fn : BitVec 4) : Option (ArrPairOp → Instr) :=
  match fn.toNat with
  | 0 => some Instr.arrAdd
  | 1 => some Instr.arrSub
  | 2 => some Instr.arrMul
  | 3 => some Instr.arrDiv
  | 4 => some Instr.arrMax
  | 5 => some Instr.arrMin
  | 6 => some Instr.arrEq
  | 7 => some Instr.arrLt
  | 8 => some Instr.arrAnd
  | 9 => some Instr.arrOr
  | _ => none

/-- AELT with one argument (R22). -/
def aeltUn (fn : BitVec 4) : Option (DReg → DReg → CellRank → Instr) :=
  match fn.toNat with
  | 10 => some Instr.arrNeg
  | 11 => some Instr.arrAbs
  | 12 => some Instr.arrExp
  | 13 => some Instr.arrLog
  | 14 => some Instr.arrCvt
  | 15 => some Instr.arrCopy
  | _ => none

/-- arr.red and arr.scan (R22). -/
def astrRed (fn : BitVec 4) : Option (ArrRedOp → Instr) :=
  match fn.toNat with
  | 0 => some Instr.arrRed
  | 1 => some Instr.arrScan
  | _ => none

/-- arr.rot, arr.take and arr.drop (R22). -/
def astrCount (fn : BitVec 4) : Option (ArrCountOp → Instr) :=
  match fn.toNat with
  | 3 => some Instr.arrRot
  | 4 => some Instr.arrTake
  | 5 => some Instr.arrDrop
  | _ => none

/-- arr.shape and arr.tpose (R22). -/
def astrPlain (fn : BitVec 4) : Option (DReg → DReg → DReg → Instr) :=
  match fn.toNat with
  | 6 => some Instr.arrShape
  | 7 => some Instr.arrTpose
  | _ => none

/-- arr.comp and arr.cat (R22). -/
def astrAxis (fn : BitVec 4) : Option (ArrPairOp → Axis → Instr) :=
  match fn.toNat with
  | 10 => some Instr.arrComp
  | 11 => some Instr.arrCat
  | _ => none

/-- CSR writes (R22). -/
def csrOp (fn : BitVec 4) : Option (Csr → XReg → Instr) :=
  match fn.toNat with
  | 1 => some Instr.csrw
  | 2 => some Instr.csrs
  | 3 => some Instr.csrc
  | _ => none

def decXalu (form : BitVec 2) (r : RawS) : Dec Instr :=
  match xaluOp r.fn with
  | some c => do
    let b ← xsrcOf form r
    return c (fld5 r.xd) (fld5 r.xa) b
  | none =>
    match xaluUn r.fn with
    | some c => do
      need (form == 0) .form
      need (r.xb == 0 && r.imm == 0) .nonzero
      return c (fld5 r.xd) (fld5 r.xa)
    | none => .error .fn

def decXmov (form : BitVec 2) (r : RawS) : Dec Instr :=
  match r.fn.toNat with
  | 0 => do
    need (form == 2) .form
    need (r.xa == 0 && r.xb == 0) .nonzero
    return .li (fld5 r.xd) r.imm
  | 1 => do
    need (form == 2) .form
    need (r.xb == 0) .nonzero
    return .lui (fld5 r.xd) (fld5 r.xa) r.imm
  | 2 => do
    need (form == 0) .form
    need (r.xb == 0 && r.imm == 0) .nonzero
    return .mv (fld5 r.xd) (fld5 r.xa)
  | 3 => do
    need (form == 0) .form
    need (r.imm == 0) .nonzero
    return .sel (fld5 r.xd) (fld5 r.xa) (fld5 r.xb)
  | _ => .error .fn

def decXmem (form : BitVec 2) (r : RawS) : Dec Instr := do
  let c ← orErr .fn (xmemOp r.fn)
  let b ← xsrcOf form r
  return c (fld5 r.xd) (fld5 r.xa) b

/-- XAMO: IMM32 bits 3:0 the scope, 5:4 the order, 31:6 zero (R23). -/
def decXamo (form : BitVec 2) (r : RawS) : Dec Instr := do
  let c ← orErr .fn (xamoOp r.fn)
  need (form == 0) .form
  need (r.imm.extractLsb' 6 26 == 0) .nonzero
  let sc ← orErr .scope (Scope.ofCode (r.imm.extractLsb' 0 4))
  return c { rd := fld5 r.xd, ra := fld5 r.xa, rb := fld5 r.xb, scope := sc,
             order := Order.ofCode (r.imm.extractLsb' 4 2) }

/-- svl: IMM32 bits 3:0 the format, 5:4 the block, 31:6 zero; vrel: no operand (R23). -/
def decVcfg (form : BitVec 2) (r : RawS) : Dec Instr :=
  match r.fn.toNat with
  | 0 => do
    need (form == 2) .form
    need (r.xb == 0 && r.imm.extractLsb' 6 26 == 0) .nonzero
    let f ← orErr .fmt (Fmt.ofCode (r.imm.extractLsb' 0 4))
    return .svl (fld5 r.xd) (fld5 r.xa) f (Blk.ofCode (r.imm.extractLsb' 4 2))
  | 1 => do
    need (form == 0) .form
    need (r.xd == 0 && r.xa == 0 && r.xb == 0 && r.imm == 0) .nonzero
    return .vrel
  | _ => .error .fn

def decBr (form : BitVec 2) (r : RawB) : Dec Instr := do
  let c ← orErr .fn (brOp r.fn)
  need (form == 0) .form
  need (r.z == 0 && r.pm == 0) .nonzero
  return c (fld5 r.xa) (fld5 r.xb) r.off

def decJmp (form : BitVec 2) (r : RawB) : Dec Instr :=
  match r.fn.toNat with
  | 0 => do
    need (form == 0) .form
    need (r.xb == 0 && r.z == 0 && r.pm == 0) .nonzero
    return .jal (fld5 r.xa) r.off
  | 1 => do
    need (form == 0) .form
    need (r.z == 0 && r.pm == 0) .nonzero
    return .jalr (fld5 r.xa) (fld5 r.xb) r.off
  | _ => .error .fn

def decSmb (form : BitVec 2) (r : RawM) : Dec Instr := do
  need (form == 0) .form
  return .smb { xc := fld5 r.xc, xp0 := fld5 r.xp0, xp1 := fld5 r.xp1, xp2 := fld5 r.xp2, xp3 := fld5 r.xp3,
                sh0 := fld3 r.sh0, sh1 := fld3 r.sh1, sh2 := fld3 r.sh2, sh3 := fld3 r.sh3, off := r.off }

def decVbr (form : BitVec 2) (r : RawB) : Dec Instr :=
  match r.fn.toNat with
  | 0 => do
    need (form == 0) .form
    need (r.xa == 0 && r.xb == 0 && r.z == 0) .nonzero
    return .vbany (fld3 r.pm) r.off
  | 1 => do
    need (form == 0) .form
    need (r.xa == 0 && r.xb == 0 && r.z == 0) .nonzero
    return .vbnone (fld3 r.pm) r.off
  | _ => .error .fn

def decLtc (form : BitVec 2) (r : RawB) : Dec Instr := do
  need (r.fn == 0) .fn
  need (form == 0) .form
  need (r.xa == 0 && r.xb == 0 && r.z == 0) .nonzero
  return .ltc (fld3 r.pm) r.off

def decVtf (form : BitVec 2) (r : RawB) : Dec Instr :=
  match r.fn.toNat with
  | 0 => do
    need (form == 0) .form
    need (r.xa == 0 && r.xb == 0 && r.z == 0 && r.pm == 0) .nonzero
    return .vfetch r.off
  | 1 => do
    need (form == 0) .form
    need (r.xa == 0 && r.xb == 0 && r.z == 0) .nonzero
    return .tfetch (fld3 r.pm) r.off
  | 2 => do
    need (form == 0) .form
    need (r.xa == 0 && r.xb == 0 && r.z == 0 && r.pm == 0 && r.off == 0) .nonzero
    return .tstop
  | 3 => do
    need (form == 0) .form
    need (r.xa == 0 && r.xb == 0 && r.z == 0 && r.pm == 0 && r.off == 0) .nonzero
    return .vjoin
  | _ => .error .fn

def decEng (form : BitVec 2) (r : RawE) : Dec Instr :=
  match r.fn.toNat with
  | 0 => do
    need (form == 0) .form
    need (r.xq == 0 && r.z == 0) .nonzero
    let c ← orErr .cls (Cls.ofCode r.cls)
    return .ebatch { cls := c, grp := fld2 r.grp, pm := fld3 r.pm, mr := fld3 r.mr, vc := fld5 r.vc }
  | 1 => do
    need (form == 0) .form
    need (r.vc == 0 && r.grp == 0 && r.pm == 0 && r.mr == 0 && r.z == 0) .nonzero
    let c ← orErr .cls (Cls.ofCode r.cls)
    return .ewait c (fld5 r.xq)
  | 2 => do
    need (form == 0) .form
    need (r.vc == 0 && r.grp == 0 && r.pm == 0 && r.mr == 0 && r.z == 0) .nonzero
    let c ← orErr .cls (Cls.ofCode r.cls)
    return .epoll c (fld5 r.xq)
  | _ => .error .fn

/-- The fields of a format C word other than XD, XA, CSEL, SCOPE, CLA and CLB and IMM14 that an instruction names. -/
def cZero (r : RawC) (xd xa csel scope cl imm : Bool) : Dec Unit :=
  need ((xd || r.xd == 0) && (xa || r.xa == 0) && (csel || r.csel == 0) && (scope || r.scope == 0) &&
    (cl || (r.cla == 0 && r.clb == 0)) && (imm || r.imm == 0)) .nonzero

def decSys (form : BitVec 2) (r : RawC) : Dec Instr := do
  need (form == 0) .form
  match csrOp r.fn with
  | some c =>
    cZero r false true true false false false
    let k ← orErr .csr (Csr.ofCode r.csel)
    return c k (fld5 r.xa)
  | none =>
    match r.fn.toNat with
    | 0 =>
      cZero r true false true false false false
      let k ← orErr .csr (Csr.ofCode r.csel)
      return .csrr (fld5 r.xd) k
    | 4 => cZero r false false false false false true; return .trap r.imm
    | 5 => cZero r false false false false false false; return .tret
    | 6 => cZero r false false false false false false; return .wfe
    | 7 => cZero r false false false false false false; return .nop
    | 8 => cZero r false false false false false false; return .halt
    | 9 => cZero r false false false false false true; return .brk r.imm
    | _ => .error .fn

def decFence (form : BitVec 2) (r : RawC) : Dec Instr := do
  need (form == 0) .form
  match r.fn.toNat with
  | 0 =>
    cZero r false false false true false false
    let sc ← orErr .scope (Scope.ofCode r.scope)
    return .fence sc
  | 1 => cZero r false false false false false false; return .lsync
  | 2 =>
    cZero r false false false true true false
    let sc ← orErr .scope (Scope.ofCode r.scope)
    let a ← orErr .cls (Cls.ofCode r.cla)
    let b ← orErr .cls (Cls.ofCode r.clb)
    return .xfence sc a b
  | 3 => cZero r false false false false false false; return .vfence
  | 4 =>
    cZero r true false false true false false
    let sc ← orErr .scope (Scope.ofCode r.scope)
    return .bfence sc (fld5 r.xd)
  | _ => .error .fn

def decCls (form : BitVec 2) (r : RawC) : Dec Instr := do
  need (form == 0) .form
  match r.fn.toNat with
  | 0 =>
    cZero r false false true false false false
    let c ← orErr .clasp (ClaspId.ofCode r.csel)
    return .clasp c
  | 1 =>
    cZero r false true true false false false
    let c ← orErr .clasp (ClaspId.ofCode r.csel)
    return .claspw c (fld5 r.xa)
  | 2 =>
    cZero r false true true false false false
    let c ← orErr .clasp (ClaspId.ofCode r.csel)
    return .claspa c (fld5 r.xa)
  | 3 => cZero r true true false false false false; return .hmset (fld5 r.xd) (fld5 r.xa)
  | 4 => cZero r true true false false false false; return .hmchk (fld5 r.xd) (fld5 r.xa)
  | 5 => cZero r true true false false false true; return .spclaim (fld5 r.xd) (fld5 r.xa) r.imm
  | 6 => cZero r false true false false false true; return .sprel (fld5 r.xa) r.imm
  | _ => .error .fn

/-- An assay id, 0-255 (R28). -/
def assayOf (c : BitVec 12) : Option (Fin 256) :=
  if h : c.toNat < 256 then some ⟨c.toNat, h⟩ else none

def decAsy (form : BitVec 2) (r : RawC) : Dec Instr := do
  need (form == 0) .form
  match r.fn.toNat with
  | 0 =>
    cZero r false false true false false false
    let a ← orErr .assay (assayOf r.csel)
    return .asyopen a
  | 1 =>
    cZero r false false true false false false
    let a ← orErr .assay (assayOf r.csel)
    return .asyclose a
  | 2 =>
    cZero r true false true false false false
    let a ← orErr .assay (assayOf r.csel)
    return .asyrd (fld5 r.xd) a
  | _ => .error .fn

/-- GRP, U, RND and SAT of a format V word (R30). -/
def vmodsOf (r : RawV) : Dec VMods := do
  need (r.z == 0) .nonzero
  let rnd ← orErr .rnd (Rnd.ofCode r.rnd)
  return { grp := fld2 r.grp, u := flag r.u, rnd := rnd, sat := flag r.sat }

/-- EXT16 of FORM 00: VC, MD and eight zeros (R17). -/
def RawV.vc (r : RawV) : BitVec 5 := r.ext.extractLsb' 11 5
def RawV.md (r : RawV) : BitVec 3 := r.ext.extractLsb' 8 3
def RawV.lo (r : RawV) : BitVec 8 := r.ext.extractLsb' 0 8

/-- The last source of a two-source format V instruction (R24). -/
def vsrcOf (form : BitVec 2) (r : RawV) : Dec VSrc :=
  if form = 0 then do need (r.ext == 0) .nonzero; return .vec (fld5 r.vb)
  else if form = 1 then do need (r.ext == 0) .nonzero; return .sca (fld5 r.vb)
  else if form = 2 then do need (r.vb == 0) .nonzero; return .imm r.ext
  else .error .form

/-- A count (R24): FORM 01 VB, FORM 10 EXT16. -/
def vcountOf (form : BitVec 2) (r : RawV) : Dec VCount :=
  if form = 1 then do need (r.ext == 0) .nonzero; return .sca (fld5 r.vb)
  else if form = 2 then do need (r.vb == 0) .nonzero; return .imm r.ext
  else .error .form

def binOf (form : BitVec 2) (r : RawV) : Dec VBinOp := do
  let m ← vmodsOf r
  let b ← vsrcOf form r
  let f ← orErr .fmt (Fmt.ofCode r.fmt)
  return { vd := fld5 r.vd, va := fld5 r.va, b := b, pm := fld3 r.pm, fmt := f, m := m }

def ternOf (form : BitVec 2) (r : RawV) : Dec VTernOp := do
  need (form == 0) .form
  let m ← vmodsOf r
  need (r.md == 0 && r.lo == 0) .nonzero
  let f ← orErr .fmt (Fmt.ofCode r.fmt)
  return { vd := fld5 r.vd, va := fld5 r.va, vb := fld5 r.vb, vc := fld5 r.vc, pm := fld3 r.pm, fmt := f, m := m }

def carryOf (form : BitVec 2) (r : RawV) : Dec VCarryOp := do
  need (form == 0) .form
  let m ← vmodsOf r
  need (r.vc == 0 && r.lo == 0) .nonzero
  let f ← orErr .fmt (Fmt.ofCode r.fmt)
  return { vd := fld5 r.vd, md := fld3 r.md, va := fld5 r.va, vb := fld5 r.vb, pm := fld3 r.pm, fmt := f, m := m }

def unOf (form : BitVec 2) (r : RawV) : Dec VUnOp := do
  need (form == 0) .form
  let m ← vmodsOf r
  need (r.vb == 0 && r.ext == 0) .nonzero
  let f ← orErr .fmt (Fmt.ofCode r.fmt)
  return { vd := fld5 r.vd, va := fld5 r.va, pm := fld3 r.pm, fmt := f, m := m }

def pairOf (form : BitVec 2) (r : RawV) : Dec VPairOp := do
  need (form == 0) .form
  let m ← vmodsOf r
  need (r.ext == 0) .nonzero
  let f ← orErr .fmt (Fmt.ofCode r.fmt)
  return { vd := fld5 r.vd, va := fld5 r.va, vb := fld5 r.vb, pm := fld3 r.pm, fmt := f, m := m }

def decVia (form : BitVec 2) (r : RawV) : Dec Instr :=
  match viaOp r.fn with
  | some c => do return c (← binOf form r)
  | none =>
    match viaCarry r.fn with
    | some c => do return c (← carryOf form r)
    | none => do return .vmac (← ternOf form r)

/-- A mask in a five-bit field: bits 4:3 zero (R24). -/
def maskOf (b : BitVec 5) : Dec MReg := do
  need (b.extractLsb' 3 2 == 0) .nonzero
  return fld3 (b.extractLsb' 0 3)

def decVcmp (form : BitVec 2) (r : RawV) : Dec Instr := do
  let c ← orErr .fn (vcmpOp r.fn)
  let m ← vmodsOf r
  let b ← vsrcOf form r
  let md ← maskOf r.vd
  let f ← orErr .fmt (Fmt.ofCode r.fmt)
  return c { md := md, va := fld5 r.va, b := b, pm := fld3 r.pm, fmt := f, m := m }

def decVfa (form : BitVec 2) (r : RawV) : Dec Instr :=
  match vfaBin r.fn with
  | some c => do return c (← binOf form r)
  | none =>
    match vfaTern r.fn with
    | some c => do return c (← ternOf form r)
    | none =>
      match vfaUn r.fn with
      | some c => do return c (← unOf form r)
      | none => .error .fn

/-- VCVT: FMT the destination format, VB bits 3:0 the source format, VB bit 4 zero (R24). -/
def decVcvt (form : BitVec 2) (r : RawV) : Dec Instr := do
  need (form == 0) .form
  let m ← vmodsOf r
  need (r.vb.extractLsb' 4 1 == 0) .nonzero
  let dst ← orErr .fmt (Fmt.ofCode r.fmt)
  let src ← orErr .fmt (Fmt.ofCode (r.vb.extractLsb' 0 4))
  match vcvtOp r.fn with
  | some c =>
    need (r.ext == 0) .nonzero
    return c { vd := fld5 r.vd, va := fld5 r.va, dst := dst, src := src, pm := fld3 r.pm, m := m }
  | none =>
    match vqntOp r.fn with
    | some c =>
      need (r.md == 0 && r.lo == 0) .nonzero
      return c { vd := fld5 r.vd, va := fld5 r.va, vc := fld5 r.vc, dst := dst, src := src, pm := fld3 r.pm, m := m }
    | none => .error .fn

def decVmsk (form : BitVec 2) (r : RawV) : Dec Instr := do
  let m ← vmodsOf r
  need (r.pm == 0 && r.fmt == 0) .nonzero
  match vmskBin r.fn with
  | some c =>
    need (form == 0) .form
    need (r.ext == 0) .nonzero
    return c (← maskOf r.vd) (← maskOf r.va) (← maskOf r.vb) m
  | none =>
    match vmskUn r.fn with
    | some c =>
      need (form == 0) .form
      need (r.vb == 0 && r.ext == 0) .nonzero
      return c (← maskOf r.vd) (← maskOf r.va) m
    | none =>
      match vmskShift r.fn with
      | some c =>
        let n ← vcountOf form r
        return c (← maskOf r.vd) (← maskOf r.va) n m
      | none =>
        match vmskX r.fn with
        | some c =>
          need (form == 0) .form
          need (r.vb == 0 && r.ext == 0) .nonzero
          return c (fld5 r.vd) (← maskOf r.va) m
        | none =>
          if r.fn = 9 then do
            need (r.va == 0) .nonzero
            let n ← vcountOf form r
            return .mset (← maskOf r.vd) n m
          else .error .fn

def decVperm (form : BitVec 2) (r : RawV) : Dec Instr :=
  match vpermSlide r.fn with
  | some c => do
    let m ← vmodsOf r
    let n ← vcountOf form r
    let f ← orErr .fmt (Fmt.ofCode r.fmt)
    return c { vd := fld5 r.vd, va := fld5 r.va, n := n, pm := fld3 r.pm, fmt := f, m := m }
  | none =>
    match vpermUn r.fn with
    | some c => do return c (← unOf form r)
    | none =>
      match r.fn.toNat with
      | 2 => do return .vgath (← pairOf form r)
      | 5 =>
        if form = 0 then do
          let o ← unOf form r
          return .vbcast { vd := o.vd, b := .vec o.va, pm := o.pm, fmt := o.fmt, m := o.m }
        else do
          need (r.va == 0) .nonzero
          let o ← binOf form r
          return .vbcast { vd := o.vd, b := o.b, pm := o.pm, fmt := o.fmt, m := o.m }
      | 6 => do
        let o ← unOf form r
        return .vmvx { rd := o.vd, va := o.va, pm := o.pm, fmt := o.fmt, m := o.m }
      | 8 => do
        let o ← unOf form r
        need (r.va == 0) .nonzero
        return .vid { vd := o.vd, pm := o.pm, fmt := o.fmt, m := o.m }
      | _ => .error .fn

def decVred (form : BitVec 2) (r : RawV) : Dec Instr :=
  match vredOp r.fn with
  | some c => do return c (← unOf form r)
  | none =>
    match r.fn.toNat with
    | 5 => do return .vredbs (← pairOf form r)
    | 6 => do
      let o ← pairOf form r
      need (r.vb.extractLsb' 4 1 == 0) .iop
      let op ← orErr .iop (Iop.ofCode (r.vb.extractLsb' 0 4))
      return .vscan { vd := o.vd, va := o.va, op := op, pm := o.pm, fmt := o.fmt, m := o.m }
    | _ => .error .fn

def decVtop (form : BitVec 2) (r : RawV) : Dec Instr := do
  need (r.fn == 0) .fn
  return .vcswi (← binOf form r)

/-- VRNG: FORM 01 only, FMT INT32 (R24, R29). -/
def decVrng (form : BitVec 2) (r : RawV) : Dec Instr := do
  let c ← orErr .fn (vrngOp r.fn)
  need (form == 1) .form
  let m ← vmodsOf r
  need (r.ext == 0) .nonzero
  need (r.fmt == Fmt.code .i32) .fmt
  return c { vd := fld5 r.vd, va := fld5 r.va, xb := fld5 r.vb, pm := fld3 r.pm, m := m }

/-- Checks common to a vector memory word: FORM 00, bits 3:0 zero, PL zero outside the bitplane forms, HM zero outside
loads (R25, R204). -/
def vmCheck (form : BitVec 2) (r : RawVM) (load planes : Bool) : Dec Fmt := do
  need (form == 0) .form
  need (r.z == 0 && (planes || r.pl == 0) && (load || r.hm == 0)) .nonzero
  orErr .fmt (Fmt.ofCode r.fmt)

/-- The bitplane forms: FMT BP, GRP 0 (R29, R204). -/
def planeCheck (r : RawVM) (f : Fmt) : Dec Unit := do
  need (f == .bp) .fmt
  need (r.grp == 0) .nonzero

def decVld (form : BitVec 2) (r : RawVM) : Dec Instr :=
  match r.fn.toNat with
  | 0 => do
    let f ← vmCheck form r true false
    need (r.xb == 0) .nonzero
    return .vld { vd := fld5 r.vd, xa := fld5 r.xa, pm := fld3 r.pm, fmt := f, grp := fld2 r.grp, off := r.off,
                  hm := flag r.hm }
  | 1 => do
    let f ← vmCheck form r true false
    return .vlds { vd := fld5 r.vd, xa := fld5 r.xa, xb := fld5 r.xb, pm := fld3 r.pm, fmt := f, grp := fld2 r.grp,
                   off := r.off, hm := flag r.hm }
  | 2 => do
    let f ← vmCheck form r true false
    return .vldx { vd := fld5 r.vd, xa := fld5 r.xa, vb := fld5 r.xb, pm := fld3 r.pm, fmt := f, grp := fld2 r.grp,
                   off := r.off, hm := flag r.hm }
  | 3 => do
    let f ← vmCheck form r true true
    planeCheck r f
    return .vldbp { vd := fld5 r.vd, xa := fld5 r.xa, xb := fld5 r.xb, pm := fld3 r.pm, off := r.off,
                    hm := flag r.hm, pl := fld3 r.pl }
  | _ => .error .fn

def decVst (form : BitVec 2) (r : RawVM) : Dec Instr :=
  match r.fn.toNat with
  | 0 => do
    let f ← vmCheck form r false false
    need (r.xb == 0) .nonzero
    return .vst { vd := fld5 r.vd, xa := fld5 r.xa, pm := fld3 r.pm, fmt := f, grp := fld2 r.grp, off := r.off }
  | 1 => do
    let f ← vmCheck form r false false
    return .vsts { vd := fld5 r.vd, xa := fld5 r.xa, xb := fld5 r.xb, pm := fld3 r.pm, fmt := f, grp := fld2 r.grp,
                   off := r.off }
  | 2 => do
    let f ← vmCheck form r false false
    return .vstx { vd := fld5 r.vd, xa := fld5 r.xa, vb := fld5 r.xb, pm := fld3 r.pm, fmt := f, grp := fld2 r.grp,
                   off := r.off }
  | 3 => do
    let f ← vmCheck form r false true
    planeCheck r f
    return .vstbp { vd := fld5 r.vd, xa := fld5 r.xa, xb := fld5 r.xb, pm := fld3 r.pm, off := r.off,
                    pl := fld3 r.pl }
  | _ => .error .fn

def decVamo (form : BitVec 2) (r : RawVM) : Dec Instr := do
  let c ← orErr .fn (vamoOp r.fn)
  let f ← vmCheck form r false false
  return c { vd := fld5 r.vd, xa := fld5 r.xa, vb := fld5 r.xb, pm := fld3 r.pm, fmt := f, grp := fld2 r.grp,
             off := r.off }

def arrPair (r : RawA) : Dec ArrPairOp := do
  let ka ← orErr .rank (rankOf r.ka)
  let kb ← orErr .rank (rankOf r.kb)
  return { dd := fld4 r.dd, da := fld4 r.da, db := fld4 r.db, ka := ka, kb := kb }

/-- A count of format A (R26): FORM 01 a register in IMM20 bits 19:15 with the rest zero, FORM 10 the immediate. -/
def acountOf (form : BitVec 2) (r : RawA) : Dec ACount :=
  if form = 1 then do
    need (r.imm.extractLsb' 0 15 == 0) .nonzero
    return .sca (fld5 (r.imm.extractLsb' 15 5))
  else if form = 2 then .ok (.imm r.imm)
  else .error .form

def decAelt (form : BitVec 2) (r : RawA) : Dec Instr := do
  need (form == 0) .form
  need (r.ax == 0 && r.iop == 0 && r.imm == 0) .nonzero
  match aeltBin r.fn with
  | some c => return c (← arrPair r)
  | none =>
    match aeltUn r.fn with
    | some c =>
      need (r.db == 0 && r.kb == 0) .nonzero
      let ka ← orErr .rank (rankOf r.ka)
      return c (fld4 r.dd) (fld4 r.da) ka
    | none => .error .fn

def decAstr (form : BitVec 2) (r : RawA) : Dec Instr :=
  match astrRed r.fn with
  | some c => do
    need (form == 0) .form
    need (r.db == 0 && r.kb == 0 && r.imm == 0) .nonzero
    let k ← orErr .rank (rankOf r.ka)
    let ax ← orErr .axis (axisOf r.ax)
    let op ← orErr .iop (Iop.ofCode r.iop)
    return c { dd := fld4 r.dd, da := fld4 r.da, k := k, ax := ax, op := op }
  | none =>
    match astrCount r.fn with
    | some c => do
      need (r.db == 0 && r.kb == 0 && r.iop == 0) .nonzero
      let k ← orErr .rank (rankOf r.ka)
      let ax ← orErr .axis (axisOf r.ax)
      let n ← acountOf form r
      return c { dd := fld4 r.dd, da := fld4 r.da, n := n, k := k, ax := ax }
    | none =>
      match astrPlain r.fn with
      | some c => do
        need (form == 0) .form
        need (r.ka == 0 && r.kb == 0 && r.ax == 0 && r.iop == 0 && r.imm == 0) .nonzero
        return c (fld4 r.dd) (fld4 r.da) (fld4 r.db)
      | none =>
        match astrAxis r.fn with
        | some c => do
          need (form == 0) .form
          need (r.iop == 0 && r.imm == 0) .nonzero
          let o ← arrPair r
          let ax ← orErr .axis (axisOf r.ax)
          return c o ax
        | none =>
          match r.fn.toNat with
          | 2 => do
            need (form == 0) .form
            need (r.db == 0 && r.kb == 0 && r.iop == 0 && r.imm == 0) .nonzero
            let k ← orErr .rank (rankOf r.ka)
            let ax ← orErr .axis (axisOf r.ax)
            return .arrGrade (fld4 r.dd) (fld4 r.da) k ax
          | 8 => do
            need (form == 0) .form
            need (r.ax == 0 && r.imm == 0) .nonzero
            let o ← arrPair r
            let op ← orErr .iop (Iop.ofCode r.iop)
            return .arrOuter o op
          | 9 => do
            need (form == 0) .form
            need (r.ax == 0 && r.iop == 0 && r.imm == 0) .nonzero
            return .arrFrom (← arrPair r)
          | 12 => do
            need (r.da == 0 && r.db == 0 && r.ka == 0 && r.kb == 0 && r.ax == 0 && r.iop == 0) .nonzero
            let n ← acountOf form r
            return .arrIota (fld4 r.dd) n
          | _ => .error .fn

/-- ADSC is always FORM 01; its scalar register stands in IMM20 (R26). -/
def decAdsc (form : BitVec 2) (r : RawA) : Dec Instr := do
  need (form == 1) .form
  need (r.imm.extractLsb' 0 15 == 0 && r.db == 0 && r.ka == 0 && r.kb == 0) .nonzero
  let x := fld5 (r.imm.extractLsb' 15 5)
  match r.fn.toNat with
  | 0 =>
    need (r.da == 0 && r.ax == 0 && r.iop == 0) .nonzero
    return .dld (fld4 r.dd) x
  | 1 =>
    need (r.dd == 0 && r.ax == 0 && r.iop == 0) .nonzero
    return .dst (fld4 r.da) x
  | 2 =>
    need (r.da == 0) .nonzero
    let f ← orErr .field (DField.ofCode r.iop)
    let ax ← orErr .axis (axisOf r.ax)
    return .dset (fld4 r.dd) x f ax
  | 3 =>
    need (r.dd == 0) .nonzero
    let f ← orErr .field (DField.ofCode r.iop)
    let ax ← orErr .axis (axisOf r.ax)
    return .dget x (fld4 r.da) f ax
  | _ => .error .fn

/-- The fields of a format X word that the instruction does not name are zero (R27). -/
def xZero (r : RawX) (td da db xn vs ts idx col fmt rpt : Bool) : Dec Unit :=
  need (r.z == 0 && (td || r.td == 0) && (da || r.da == 0) && (db || r.db == 0) && (xn || r.xn == 0) &&
    (vs || r.vs == 0) && (ts || r.ts == 0) && (idx || r.idx == 0) && (col || r.col == 0) && (fmt || r.fmt == 0) &&
    (rpt || r.rpt == 0)) .nonzero

/-- The tile index of mxrd and mxwr: XN when IDX8 is zero and XN is not, else IDX8 below 64 (R27, R31). -/
def idxOf (r : RawX) : Dec TileIdx :=
  if r.xn = 0 then
    if h : r.idx.toNat < 64 then .ok (.imm ⟨r.idx.toNat, h⟩) else .error .index
  else if r.idx = 0 then .ok (.reg (fld5 r.xn)) else .error .index

def decMx (form : BitVec 2) (r : RawX) : Dec Instr := do
  need (form == 0) .form
  match r.fn.toNat with
  | 0 => xZero r false false false false false false false false false false; return .mxon
  | 1 => xZero r false false false false false false false false false false; return .mxoff
  | 2 => xZero r true false false false false false false false false true; return .mxz (fld3 r.td) (fld3 r.rpt)
  | 3 =>
    xZero r true true true false false false false false true true
    let f ← orErr .fmt (Fmt.ofCode r.fmt)
    return .mxa { td := fld3 r.td, da := fld4 r.da, db := fld4 r.db, fmt := f, rpt := fld3 r.rpt }
  | 4 => xZero r false false false true false false false true false false; return .mxpred (fld5 r.xn) (flag r.col)
  | 5 =>
    xZero r false false false true true true true true false false
    let ix ← idxOf r
    return .mxrd (fld5 r.vs) (fld3 r.ts) ix (flag r.col)
  | 6 =>
    xZero r true false false true true false true true false false
    let ix ← idxOf r
    return .mxwr (fld3 r.td) (fld5 r.vs) ix (flag r.col)
  | 7 =>
    xZero r true true false false false false false false true true
    need (r.fmt == Fmt.code .fp32) .fmt
    return .mxld (fld3 r.td) (fld4 r.da) (fld3 r.rpt)
  | 8 =>
    xZero r false true false false false true false false true true
    need (r.fmt == Fmt.code .fp32 || r.fmt == Fmt.code .bf16) .fmt
    return .mxst (fld3 r.ts) (fld4 r.da) (r.fmt == Fmt.code .bf16) (fld3 r.rpt)
  | _ => .error .fn

def decPl (form : BitVec 2) (r : RawX) : Dec Instr := do
  need (form == 0) .form
  match r.fn.toNat with
  | 0 => xZero r true true false false false false false false false false; return .plset (fld3 r.td) (fld4 r.da)
  | 1 => xZero r false true true false false false false false false false; return .plmarg (fld4 r.da) (fld4 r.db)
  | 2 => xZero r false false false false false true false false false false; return .bal (fld3 r.ts)
  | 3 =>
    if flag r.col then do
      xZero r false true false false false true false true false false
      return .plout (.mem (fld4 r.da)) (fld3 r.ts)
    else do
      xZero r true false false false false true false true false false
      return .plout (.tile (fld3 r.td)) (fld3 r.ts)
  | 4 => xZero r false false false true false true false false false false; return .plcost (fld5 r.xn) (fld3 r.ts)
  | 5 => xZero r false false false false true true false false false false; return .plscl (fld5 r.vs) (fld3 r.ts)
  | _ => .error .fn

/-- The opcode map (R22): OP picks the family and with it the format. -/
def decodeBody (op : BitVec 7) (form : BitVec 2) (b : BitVec 52) : Dec Instr :=
  match op.toNat with
  | 0x01 => decXalu form (RawS.ofBody b)
  | 0x02 => decXmov form (RawS.ofBody b)
  | 0x03 => decXmem form (RawS.ofBody b)
  | 0x04 => decXamo form (RawS.ofBody b)
  | 0x08 => decBr form (RawB.ofBody b)
  | 0x09 => decJmp form (RawB.ofBody b)
  | 0x0A => decSmb form (RawM.ofBody b)
  | 0x0B => decVbr form (RawB.ofBody b)
  | 0x0C => decLtc form (RawB.ofBody b)
  | 0x0D => decVtf form (RawB.ofBody b)
  | 0x0E => decVcfg form (RawS.ofBody b)
  | 0x0F => decEng form (RawE.ofBody b)
  | 0x10 => decSys form (RawC.ofBody b)
  | 0x11 => decFence form (RawC.ofBody b)
  | 0x20 => decVia form (RawV.ofBody b)
  | 0x21 => decVcmp form (RawV.ofBody b)
  | 0x22 => decVfa form (RawV.ofBody b)
  | 0x23 => decVcvt form (RawV.ofBody b)
  | 0x24 => decVmsk form (RawV.ofBody b)
  | 0x25 => decVperm form (RawV.ofBody b)
  | 0x26 => decVred form (RawV.ofBody b)
  | 0x27 => decVtop form (RawV.ofBody b)
  | 0x28 => decVrng form (RawV.ofBody b)
  | 0x30 => decVld form (RawVM.ofBody b)
  | 0x31 => decVst form (RawVM.ofBody b)
  | 0x32 => decVamo form (RawVM.ofBody b)
  | 0x40 => decAelt form (RawA.ofBody b)
  | 0x41 => decAstr form (RawA.ofBody b)
  | 0x42 => decAdsc form (RawA.ofBody b)
  | 0x48 => decMx form (RawX.ofBody b)
  | 0x49 => decPl form (RawX.ofBody b)
  | 0x50 => decCls form (RawC.ofBody b)
  | 0x51 => decAsy form (RawC.ofBody b)
  | _ => .error .op

/-- The instruction of decoded parts: the fields as the family reads them, and the conditions of WellFormed. -/
def decodeParts (p : Parts) : Dec Instr := do
  let i ← decodeBody p.op p.form p.body
  match illFormed i with
  | none => return i
  | some e => .error (.illFormed e)

/-- The instruction a word stands for, or why it stands for none (R31, R33). -/
def decode (w : Word) : Dec Instr := decodeParts (Parts.ofWord w)

/-- STL of a word (R13, R15). -/
def stlOf (w : Word) : Nat := (w.extractLsb' 54 3).toNat

/-- The instruction the decoder reads from a word whose bits are w (the table numbers bits from the first word). -/
def decodeTableWord (nbits w : Nat) : Option Instr :=
  if nbits ≤ 64 then
    match decode (BitVec.ofNat 64 (w % 2 ^ nbits)) with
    | .ok i => some i
    | .error _ => none
  else none

/-! Encoding: the form and the fields of each instruction, from the same tables. -/

/-- OP, FORM and bits 51:0 of an instruction. -/
structure Enc where
  op : BitVec 7
  form : BitVec 2
  body : BitVec 52
  deriving DecidableEq, Repr

def encS (op : BitVec 7) (form : BitVec 2) (r : RawS) : Option Enc := some ⟨op, form, r.pack⟩
def encB (op : BitVec 7) (r : RawB) : Option Enc := some ⟨op, 0, r.pack⟩
def encC (op : BitVec 7) (r : RawC) : Option Enc := some ⟨op, 0, r.pack⟩
def encE (r : RawE) : Option Enc := some ⟨0x0F, 0, r.pack⟩
def encX (op : BitVec 7) (r : RawX) : Option Enc := some ⟨op, 0, r.pack⟩
def encVM (op : BitVec 7) (r : RawVM) : Option Enc := some ⟨op, 0, r.pack⟩
def encV (op : BitVec 7) (form : BitVec 2) (r : RawV) : Option Enc := some ⟨op, form, r.pack⟩
def encA (op : BitVec 7) (form : BitVec 2) (r : RawA) : Option Enc := some ⟨op, form, r.pack⟩

/-- A two-source scalar instruction, XALU and XMEM (R23). -/
def encXs (op : BitVec 7) (fn : BitVec 5) (rd ra : XReg) (b : XSrc) : Option Enc :=
  match b with
  | .reg rb => encS op 0 { xd := bits5 rd, xa := bits5 ra, xb := bits5 rb, fn := fn }
  | .imm v => encS op 2 { xd := bits5 rd, xa := bits5 ra, fn := fn, imm := v }

def encAmo (fn : BitVec 5) (o : AmoOp) : Option Enc :=
  encS 0x04 0 { xd := bits5 o.rd, xa := bits5 o.ra, xb := bits5 o.rb, fn := fn,
                imm := (0#26 ++ o.order.code ++ o.scope.code : BitVec 32) }

/-- GRP, U, RND and SAT over a format V record (R30). -/
def RawV.withMods (r : RawV) (m : VMods) : RawV :=
  { r with grp := bits2 m.grp, u := flagBit m.u, rnd := m.rnd.code, sat := flagBit m.sat }

/-- EXT16 of FORM 00 (R17). -/
def ext0 (vc : BitVec 5) (md : BitVec 3) : BitVec 16 := vc ++ md ++ 0#8

/-- Form and last source of a two-source instruction over the rest of its fields (R24). -/
def encVs (op : BitVec 7) (b : VSrc) (r : RawV) : Option Enc :=
  match b with
  | .vec vb => encV op 0 { r with vb := bits5 vb }
  | .sca xb => encV op 1 { r with vb := bits5 xb }
  | .imm v => encV op 2 { r with ext := v }

def encVcount (op : BitVec 7) (n : VCount) (r : RawV) : Option Enc :=
  match n with
  | .sca xb => encV op 1 { r with vb := bits5 xb }
  | .imm v => encV op 2 { r with ext := v }

def encBin (op : BitVec 7) (fn : BitVec 4) (o : VBinOp) : Option Enc :=
  encVs op o.b (RawV.withMods { vd := bits5 o.vd, va := bits5 o.va, pm := bits3 o.pm, fmt := o.fmt.code, fn := fn } o.m)

def encTern (op : BitVec 7) (fn : BitVec 4) (o : VTernOp) : Option Enc :=
  encV op 0 (RawV.withMods
      { vd := bits5 o.vd, va := bits5 o.va, vb := bits5 o.vb, pm := bits3 o.pm, fmt := o.fmt.code, fn := fn,
        ext := ext0 (bits5 o.vc) 0 } o.m)

def encCarry (fn : BitVec 4) (o : VCarryOp) : Option Enc :=
  encV 0x20 0 (RawV.withMods
      { vd := bits5 o.vd, va := bits5 o.va, vb := bits5 o.vb, pm := bits3 o.pm, fmt := o.fmt.code, fn := fn,
        ext := ext0 0 (bits3 o.md) } o.m)

/-- A mask register in a five-bit field (R24). -/
def mbits (m : MReg) : BitVec 5 := (0#2 ++ bits3 m : BitVec 5)

def encCmp (fn : BitVec 4) (o : VCmpOp) : Option Enc :=
  encVs 0x21 o.b (RawV.withMods { vd := mbits o.md, va := bits5 o.va, pm := bits3 o.pm, fmt := o.fmt.code, fn := fn } o.m)

def encUn (op : BitVec 7) (fn : BitVec 4) (o : VUnOp) : Option Enc :=
  encV op 0 (RawV.withMods { vd := bits5 o.vd, va := bits5 o.va, pm := bits3 o.pm, fmt := o.fmt.code, fn := fn } o.m)

def encCvt (fn : BitVec 4) (o : VCvtOp) : Option Enc :=
  encV 0x23 0 (RawV.withMods
      { vd := bits5 o.vd, va := bits5 o.va, vb := (0#1 ++ o.src.code : BitVec 5), pm := bits3 o.pm,
        fmt := o.dst.code, fn := fn } o.m)

def encQnt (fn : BitVec 4) (o : VQntOp) : Option Enc :=
  encV 0x23 0 (RawV.withMods
      { vd := bits5 o.vd, va := bits5 o.va, vb := (0#1 ++ o.src.code : BitVec 5), pm := bits3 o.pm,
        fmt := o.dst.code, fn := fn, ext := ext0 (bits5 o.vc) 0 } o.m)

def encPair (op : BitVec 7) (fn : BitVec 4) (o : VPairOp) : Option Enc :=
  encV op 0 (RawV.withMods
      { vd := bits5 o.vd, va := bits5 o.va, vb := bits5 o.vb, pm := bits3 o.pm, fmt := o.fmt.code, fn := fn } o.m)

def encSlide (fn : BitVec 4) (o : VSlideOp) : Option Enc :=
  encVcount 0x25 o.n (RawV.withMods
      { vd := bits5 o.vd, va := bits5 o.va, pm := bits3 o.pm, fmt := o.fmt.code, fn := fn } o.m)

def encRng (fn : BitVec 4) (o : VRngOp) : Option Enc :=
  encV 0x28 1 (RawV.withMods
      { vd := bits5 o.vd, va := bits5 o.va, vb := bits5 o.xb, pm := bits3 o.pm, fmt := Fmt.code .i32,
        fn := fn } o.m)

/-- The mask instructions: destination, sources as five-bit fields. -/
def encMsk (fn : BitVec 4) (vd va vb : BitVec 5) (m : VMods) : Option Enc :=
  encV 0x24 0 (RawV.withMods { vd := vd, va := va, vb := vb, fn := fn } m)

def encMskCount (fn : BitVec 4) (vd va : BitVec 5) (n : VCount) (m : VMods) : Option Enc :=
  encVcount 0x24 n (RawV.withMods { vd := vd, va := va, fn := fn } m)

def encBcast (o : VBcastOp) : Option Enc :=
  let r := RawV.withMods { vd := bits5 o.vd, pm := bits3 o.pm, fmt := o.fmt.code, fn := 5 } o.m
  match o.b with
  | .vec va => encV 0x25 0 { r with va := bits5 va }
  | .sca xb => encV 0x25 1 { r with vb := bits5 xb }
  | .imm v => encV 0x25 2 { r with ext := v }

def encStx (op : BitVec 7) (fn : BitVec 4) (o : VmStxOp) : Option Enc :=
  encVM op { vd := bits5 o.vd, xa := bits5 o.xa, xb := bits5 o.vb, pm := bits3 o.pm, fmt := o.fmt.code, fn := fn,
             grp := bits2 o.grp, off := o.off }

def encArrPair (op : BitVec 7) (fn : BitVec 4) (o : ArrPairOp) (ax : BitVec 4) (iop : BitVec 4) : Option Enc :=
  encA op 0 { dd := bits4 o.dd, da := bits4 o.da, db := bits4 o.db, ka := rankCode o.ka, kb := rankCode o.kb,
              ax := ax, iop := iop, fn := fn }

def encArrUn (fn : BitVec 4) (dd da : DReg) (k : CellRank) : Option Enc :=
  encA 0x40 0 { dd := bits4 dd, da := bits4 da, ka := rankCode k, fn := fn }

def encArrRed (fn : BitVec 4) (o : ArrRedOp) : Option Enc :=
  encA 0x41 0 { dd := bits4 o.dd, da := bits4 o.da, ka := rankCode o.k, ax := axisCode o.ax, iop := o.op.code, fn := fn }

/-- The form and IMM20 of a format A count (R26). -/
def encAcount (op : BitVec 7) (n : ACount) (r : RawA) : Option Enc :=
  match n with
  | .sca x => encA op 1 { r with imm := (bits5 x ++ 0#15 : BitVec 20) }
  | .imm v => encA op 2 { r with imm := v }

def encArrCount (fn : BitVec 4) (o : ArrCountOp) : Option Enc :=
  encAcount 0x41 o.n { dd := bits4 o.dd, da := bits4 o.da, ka := rankCode o.k, ax := axisCode o.ax, fn := fn }

def encArrPlain (fn : BitVec 4) (dd da db : DReg) : Option Enc :=
  encA 0x41 0 { dd := bits4 dd, da := bits4 da, db := bits4 db, fn := fn }

def encAdsc (fn : BitVec 4) (dd da : BitVec 4) (x : XReg) (iop ax : BitVec 4) : Option Enc :=
  encA 0x42 1 { dd := dd, da := da, ax := ax, iop := iop, imm := (bits5 x ++ 0#15 : BitVec 20), fn := fn }

/-- XN and IDX8 of a tile index (R27). -/
def RawX.withIdx (r : RawX) (ix : TileIdx) : RawX :=
  match ix with
  | .imm v => { r with idx := BitVec.ofNat 8 v.val }
  | .reg x => { r with xn := bits5 x }

/-- The encoding of an instruction; the steps that no word names have none. -/
def encBody : Instr → Option Enc
  | .add rd ra b => encXs 0x01 0 rd ra b
  | .sub rd ra b => encXs 0x01 1 rd ra b
  | .and rd ra b => encXs 0x01 2 rd ra b
  | .or rd ra b => encXs 0x01 3 rd ra b
  | .xor rd ra b => encXs 0x01 4 rd ra b
  | .sll rd ra b => encXs 0x01 5 rd ra b
  | .srl rd ra b => encXs 0x01 6 rd ra b
  | .sra rd ra b => encXs 0x01 7 rd ra b
  | .slt rd ra b => encXs 0x01 8 rd ra b
  | .sltu rd ra b => encXs 0x01 9 rd ra b
  | .min rd ra b => encXs 0x01 10 rd ra b
  | .max rd ra b => encXs 0x01 11 rd ra b
  | .minu rd ra b => encXs 0x01 12 rd ra b
  | .maxu rd ra b => encXs 0x01 13 rd ra b
  | .mul rd ra b => encXs 0x01 14 rd ra b
  | .mulh rd ra b => encXs 0x01 15 rd ra b
  | .mulhu rd ra b => encXs 0x01 16 rd ra b
  | .div rd ra b => encXs 0x01 17 rd ra b
  | .divu rd ra b => encXs 0x01 18 rd ra b
  | .rem rd ra b => encXs 0x01 19 rd ra b
  | .remu rd ra b => encXs 0x01 20 rd ra b
  | .clz rd ra => encS 0x01 0 { xd := bits5 rd, xa := bits5 ra, fn := 21 }
  | .ctz rd ra => encS 0x01 0 { xd := bits5 rd, xa := bits5 ra, fn := 22 }
  | .popc rd ra => encS 0x01 0 { xd := bits5 rd, xa := bits5 ra, fn := 23 }
  | .li rd imm => encS 0x02 2 { xd := bits5 rd, fn := 0, imm := imm }
  | .lui rd ra imm => encS 0x02 2 { xd := bits5 rd, xa := bits5 ra, fn := 1, imm := imm }
  | .mv rd ra => encS 0x02 0 { xd := bits5 rd, xa := bits5 ra, fn := 2 }
  | .sel rd ra rb => encS 0x02 0 { xd := bits5 rd, xa := bits5 ra, xb := bits5 rb, fn := 3 }
  | .ld8 rd ra b => encXs 0x03 0 rd ra b
  | .ld16 rd ra b => encXs 0x03 1 rd ra b
  | .ld32 rd ra b => encXs 0x03 2 rd ra b
  | .ld64 rd ra b => encXs 0x03 3 rd ra b
  | .ldz8 rd ra b => encXs 0x03 4 rd ra b
  | .ldz16 rd ra b => encXs 0x03 5 rd ra b
  | .ldz32 rd ra b => encXs 0x03 6 rd ra b
  | .st8 rs ra b => encXs 0x03 7 rs ra b
  | .st16 rs ra b => encXs 0x03 8 rs ra b
  | .st32 rs ra b => encXs 0x03 9 rs ra b
  | .st64 rs ra b => encXs 0x03 10 rs ra b
  | .amoAdd o => encAmo 0 o
  | .amoAnd o => encAmo 1 o
  | .amoOr o => encAmo 2 o
  | .amoXor o => encAmo 3 o
  | .amoMin o => encAmo 4 o
  | .amoMax o => encAmo 5 o
  | .amoSwap o => encAmo 6 o
  | .amoCas o => encAmo 7 o
  | .beq ra rb off => encB 0x08 { xa := bits5 ra, xb := bits5 rb, fn := 0, off := off }
  | .bne ra rb off => encB 0x08 { xa := bits5 ra, xb := bits5 rb, fn := 1, off := off }
  | .blt ra rb off => encB 0x08 { xa := bits5 ra, xb := bits5 rb, fn := 2, off := off }
  | .bge ra rb off => encB 0x08 { xa := bits5 ra, xb := bits5 rb, fn := 3, off := off }
  | .bltu ra rb off => encB 0x08 { xa := bits5 ra, xb := bits5 rb, fn := 4, off := off }
  | .bgeu ra rb off => encB 0x08 { xa := bits5 ra, xb := bits5 rb, fn := 5, off := off }
  | .jal rd off => encB 0x09 { xa := bits5 rd, fn := 0, off := off }
  | .jalr rd rb off => encB 0x09 { xa := bits5 rd, xb := bits5 rb, fn := 1, off := off }
  | .smb o => some ⟨0x0A, 0, RawM.pack
      { xc := bits5 o.xc, xp0 := bits5 o.xp0, xp1 := bits5 o.xp1, xp2 := bits5 o.xp2, xp3 := bits5 o.xp3,
        sh0 := bits3 o.sh0, sh1 := bits3 o.sh1, sh2 := bits3 o.sh2, sh3 := bits3 o.sh3, off := o.off }⟩
  | .vbany pm off => encB 0x0B { fn := 0, pm := bits3 pm, off := off }
  | .vbnone pm off => encB 0x0B { fn := 1, pm := bits3 pm, off := off }
  | .ltc pm off => encB 0x0C { fn := 0, pm := bits3 pm, off := off }
  | .vfetch off => encB 0x0D { fn := 0, off := off }
  | .tfetch pm off => encB 0x0D { fn := 1, pm := bits3 pm, off := off }
  | .tstop => encB 0x0D { fn := 2 }
  | .vjoin => encB 0x0D { fn := 3 }
  | .svl rd ra fmt blk => encS 0x0E 2
      { xd := bits5 rd, xa := bits5 ra, fn := 0, imm := (0#26 ++ blk.code ++ fmt.code : BitVec 32) }
  | .vrel => encS 0x0E 0 { fn := 1 }
  | .ebatch o => encE { vc := bits5 o.vc, grp := bits2 o.grp, pm := bits3 o.pm, mr := bits3 o.mr, cls := o.cls.code, fn := 0 }
  | .ewait c xq => encE { cls := c.code, xq := bits5 xq, fn := 1 }
  | .epoll c xq => encE { cls := c.code, xq := bits5 xq, fn := 2 }
  | .csrr rd r => encC 0x10 { xd := bits5 rd, csel := r.code, fn := 0 }
  | .csrw r ra => encC 0x10 { xa := bits5 ra, csel := r.code, fn := 1 }
  | .csrs r ra => encC 0x10 { xa := bits5 ra, csel := r.code, fn := 2 }
  | .csrc r ra => encC 0x10 { xa := bits5 ra, csel := r.code, fn := 3 }
  | .trap imm => encC 0x10 { fn := 4, imm := imm }
  | .tret => encC 0x10 { fn := 5 }
  | .wfe => encC 0x10 { fn := 6 }
  | .nop => encC 0x10 { fn := 7 }
  | .halt => encC 0x10 { fn := 8 }
  | .brk imm => encC 0x10 { fn := 9, imm := imm }
  | .fence sc => encC 0x11 { fn := 0, scope := sc.code }
  | .lsync => encC 0x11 { fn := 1 }
  | .xfence sc a b => encC 0x11 { fn := 2, scope := sc.code, cla := a.code, clb := b.code }
  | .vfence => encC 0x11 { fn := 3 }
  | .bfence sc rd => encC 0x11 { xd := bits5 rd, fn := 4, scope := sc.code }
  | .vadd o => encBin 0x20 0 o
  | .vsub o => encBin 0x20 1 o
  | .vmul o => encBin 0x20 4 o
  | .vmulh o => encBin 0x20 5 o
  | .vmin o => encBin 0x20 6 o
  | .vmax o => encBin 0x20 7 o
  | .vand o => encBin 0x20 8 o
  | .vor o => encBin 0x20 9 o
  | .vxor o => encBin 0x20 10 o
  | .vsll o => encBin 0x20 11 o
  | .vsrl o => encBin 0x20 12 o
  | .vsra o => encBin 0x20 13 o
  | .vabsd o => encBin 0x20 14 o
  | .vaddc o => encCarry 2 o
  | .vsubb o => encCarry 3 o
  | .vmac o => encTern 0x20 15 o
  | .vceq o => encCmp 0 o
  | .vcne o => encCmp 1 o
  | .vclt o => encCmp 2 o
  | .vcle o => encCmp 3 o
  | .vcgt o => encCmp 4 o
  | .vcge o => encCmp 5 o
  | .vfadd o => encBin 0x22 0 o
  | .vfsub o => encBin 0x22 1 o
  | .vfmul o => encBin 0x22 2 o
  | .vfmin o => encBin 0x22 5 o
  | .vfmax o => encBin 0x22 6 o
  | .vfsgn o => encBin 0x22 9 o
  | .vfdiv o => encBin 0x22 14 o
  | .vffma o => encTern 0x22 3 o
  | .vffnma o => encTern 0x22 4 o
  | .vfabs o => encUn 0x22 7 o
  | .vfneg o => encUn 0x22 8 o
  | .vfexp2 o => encUn 0x22 10 o
  | .vflog2 o => encUn 0x22 11 o
  | .vfrcp o => encUn 0x22 12 o
  | .vfrsq o => encUn 0x22 13 o
  | .vfsqrt o => encUn 0x22 15 o
  | .vcvt o => encCvt 0 o
  | .vbpsplit o => encCvt 3 o
  | .vbpjoin o => encCvt 4 o
  | .vqnt o => encQnt 1 o
  | .vdqnt o => encQnt 2 o
  | .mand md ma mb m => encMsk 0 (mbits md) (mbits ma) (mbits mb) m
  | .mor md ma mb m => encMsk 1 (mbits md) (mbits ma) (mbits mb) m
  | .mxor md ma mb m => encMsk 2 (mbits md) (mbits ma) (mbits mb) m
  | .mandn md ma mb m => encMsk 3 (mbits md) (mbits ma) (mbits mb) m
  | .mnot md ma m => encMsk 4 (mbits md) (mbits ma) 0 m
  | .mmv md ma m => encMsk 10 (mbits md) (mbits ma) 0 m
  | .mshl md ma n m => encMskCount 5 (mbits md) (mbits ma) n m
  | .mshr md ma n m => encMskCount 6 (mbits md) (mbits ma) n m
  | .mpop rd ma m => encMsk 7 (bits5 rd) (mbits ma) 0 m
  | .mfirst rd ma m => encMsk 8 (bits5 rd) (mbits ma) 0 m
  | .mset md n m => encMskCount 9 (mbits md) 0 n m
  | .vslup o => encSlide 0 o
  | .vsldn o => encSlide 1 o
  | .vgath o => encPair 0x25 2 o
  | .vcomp o => encUn 0x25 3 o
  | .vexpd o => encUn 0x25 4 o
  | .vmvv o => encUn 0x25 7 o
  | .vbcast o => encBcast o
  | .vmvx o => encUn 0x25 6 { vd := o.rd, va := o.va, pm := o.pm, fmt := o.fmt, m := o.m }
  | .vid o => encUn 0x25 8 { vd := o.vd, va := 0, pm := o.pm, fmt := o.fmt, m := o.m }
  | .vredsum o => encUn 0x26 0 o
  | .vredmax o => encUn 0x26 1 o
  | .vredmin o => encUn 0x26 2 o
  | .vredand o => encUn 0x26 3 o
  | .vredor o => encUn 0x26 4 o
  | .vredbs o => encPair 0x26 5 o
  | .vscan o => encV 0x26 0 (RawV.withMods
      { vd := bits5 o.vd, va := bits5 o.va, vb := (0#1 ++ o.op.code : BitVec 5), pm := bits3 o.pm,
        fmt := o.fmt.code, fn := 6 } o.m)
  | .vcswi o => encBin 0x27 0 o
  | .vrng o => encRng 0 o
  | .vctr o => encRng 1 o
  | .vld o => encVM 0x30
      { vd := bits5 o.vd, xa := bits5 o.xa, pm := bits3 o.pm, fmt := o.fmt.code, fn := 0, grp := bits2 o.grp,
        off := o.off, hm := flagBit o.hm }
  | .vlds o => encVM 0x30
      { vd := bits5 o.vd, xa := bits5 o.xa, xb := bits5 o.xb, pm := bits3 o.pm, fmt := o.fmt.code, fn := 1,
        grp := bits2 o.grp, off := o.off, hm := flagBit o.hm }
  | .vldx o => encVM 0x30
      { vd := bits5 o.vd, xa := bits5 o.xa, xb := bits5 o.vb, pm := bits3 o.pm, fmt := o.fmt.code, fn := 2,
        grp := bits2 o.grp, off := o.off, hm := flagBit o.hm }
  | .vldbp o => encVM 0x30
      { vd := bits5 o.vd, xa := bits5 o.xa, xb := bits5 o.xb, pm := bits3 o.pm, fmt := Fmt.code .bp, fn := 3,
        off := o.off, hm := flagBit o.hm, pl := bits3 o.pl }
  | .vst o => encVM 0x31
      { vd := bits5 o.vd, xa := bits5 o.xa, pm := bits3 o.pm, fmt := o.fmt.code, fn := 0, grp := bits2 o.grp,
        off := o.off }
  | .vsts o => encVM 0x31
      { vd := bits5 o.vd, xa := bits5 o.xa, xb := bits5 o.xb, pm := bits3 o.pm, fmt := o.fmt.code, fn := 1,
        grp := bits2 o.grp, off := o.off }
  | .vstx o => encStx 0x31 2 o
  | .vstbp o => encVM 0x31
      { vd := bits5 o.vd, xa := bits5 o.xa, xb := bits5 o.xb, pm := bits3 o.pm, fmt := Fmt.code .bp, fn := 3,
        off := o.off, pl := bits3 o.pl }
  | .vamoAdd o => encStx 0x32 0 o
  | .vamoMin o => encStx 0x32 1 o
  | .vamoMax o => encStx 0x32 2 o
  | .arrAdd o => encArrPair 0x40 0 o 0 0
  | .arrSub o => encArrPair 0x40 1 o 0 0
  | .arrMul o => encArrPair 0x40 2 o 0 0
  | .arrDiv o => encArrPair 0x40 3 o 0 0
  | .arrMax o => encArrPair 0x40 4 o 0 0
  | .arrMin o => encArrPair 0x40 5 o 0 0
  | .arrEq o => encArrPair 0x40 6 o 0 0
  | .arrLt o => encArrPair 0x40 7 o 0 0
  | .arrAnd o => encArrPair 0x40 8 o 0 0
  | .arrOr o => encArrPair 0x40 9 o 0 0
  | .arrNeg dd da k => encArrUn 10 dd da k
  | .arrAbs dd da k => encArrUn 11 dd da k
  | .arrExp dd da k => encArrUn 12 dd da k
  | .arrLog dd da k => encArrUn 13 dd da k
  | .arrCvt dd da k => encArrUn 14 dd da k
  | .arrCopy dd da k => encArrUn 15 dd da k
  | .arrRed o => encArrRed 0 o
  | .arrScan o => encArrRed 1 o
  | .arrGrade dd da k ax => encA 0x41 0 { dd := bits4 dd, da := bits4 da, ka := rankCode k, ax := axisCode ax, fn := 2 }
  | .arrRot o => encArrCount 3 o
  | .arrTake o => encArrCount 4 o
  | .arrDrop o => encArrCount 5 o
  | .arrShape dd da db => encArrPlain 6 dd da db
  | .arrTpose dd da db => encArrPlain 7 dd da db
  | .arrOuter o iop => encArrPair 0x41 8 o 0 iop.code
  | .arrFrom o => encArrPair 0x41 9 o 0 0
  | .arrComp o ax => encArrPair 0x41 10 o (axisCode ax) 0
  | .arrCat o ax => encArrPair 0x41 11 o (axisCode ax) 0
  | .arrIota dd n => encAcount 0x41 n { dd := bits4 dd, fn := 12 }
  | .dld dd xa => encAdsc 0 (bits4 dd) 0 xa 0 0
  | .dst da xa => encAdsc 1 0 (bits4 da) xa 0 0
  | .dset dd xa f ax => encAdsc 2 (bits4 dd) 0 xa f.code (axisCode ax)
  | .dget xd da f ax => encAdsc 3 0 (bits4 da) xd f.code (axisCode ax)
  | .mxon => encX 0x48 { fn := 0 }
  | .mxoff => encX 0x48 { fn := 1 }
  | .mxz td rpt => encX 0x48 { td := bits3 td, fn := 2, rpt := bits3 rpt }
  | .mxa o => encX 0x48
      { td := bits3 o.td, da := bits4 o.da, db := bits4 o.db, fn := 3, fmt := o.fmt.code, rpt := bits3 o.rpt }
  | .mxpred xn col => encX 0x48 { xn := bits5 xn, fn := 4, col := flagBit col }
  | .mxrd vs ts ix col => encX 0x48 (RawX.withIdx { vs := bits5 vs, ts := bits3 ts, fn := 5, col := flagBit col } ix)
  | .mxwr td vs ix col => encX 0x48 (RawX.withIdx { td := bits3 td, vs := bits5 vs, fn := 6, col := flagBit col } ix)
  | .mxld td da rpt => encX 0x48 { td := bits3 td, da := bits4 da, fn := 7, fmt := Fmt.code .fp32, rpt := bits3 rpt }
  | .mxst ts da bf rpt => encX 0x48
      { da := bits4 da, ts := bits3 ts, fn := 8, fmt := if bf then Fmt.code .bf16 else Fmt.code .fp32,
        rpt := bits3 rpt }
  | .plset td da => encX 0x49 { td := bits3 td, da := bits4 da, fn := 0 }
  | .plmarg da db => encX 0x49 { da := bits4 da, db := bits4 db, fn := 1 }
  | .bal ts => encX 0x49 { ts := bits3 ts, fn := 2 }
  | .plout dst ts =>
    match dst with
    | .tile td => encX 0x49 { td := bits3 td, ts := bits3 ts, fn := 3 }
    | .mem da => encX 0x49 { da := bits4 da, ts := bits3 ts, fn := 3, col := 1 }
  | .plcost xd ts => encX 0x49 { xn := bits5 xd, ts := bits3 ts, fn := 4 }
  | .plscl vd ts => encX 0x49 { vs := bits5 vd, ts := bits3 ts, fn := 5 }
  | .clasp cid => encC 0x50 { csel := cid.code, fn := 0 }
  | .claspw cid xa => encC 0x50 { xa := bits5 xa, csel := cid.code, fn := 1 }
  | .claspa cid xa => encC 0x50 { xa := bits5 xa, csel := cid.code, fn := 2 }
  | .hmset xs xa => encC 0x50 { xd := bits5 xs, xa := bits5 xa, fn := 3 }
  | .hmchk xd xa => encC 0x50 { xd := bits5 xd, xa := bits5 xa, fn := 4 }
  | .spclaim xd xa n => encC 0x50 { xd := bits5 xd, xa := bits5 xa, fn := 5, imm := n }
  | .sprel xa n => encC 0x50 { xa := bits5 xa, fn := 6, imm := n }
  | .asyopen aid => encC 0x51 { csel := BitVec.ofNat 12 aid.val, fn := 0 }
  | .asyclose aid => encC 0x51 { csel := BitVec.ofNat 12 aid.val, fn := 1 }
  | .asyrd xd aid => encC 0x51 { xd := bits5 xd, csel := BitVec.ofNat 12 aid.val, fn := 2 }
  | .fixedLatencyWriteback | .vjoinCompletion | .laneBinding | .engineCountWaitRelease | .wfeWake | .taskEnd
  | .drainCompletion | .illegalInstruction _ | .drainGroupRelease | .claspWaitRelease | .progress _
  | .watchEventDelivery | .switchOut | .switchIn | .mxctlResWrite _ | .ptrootAsidWrite _ _ | .doorbell _ _ _
  | .pgreq _ | .asyclr _ _ | .claspTargetWrite _ _ | .registerWrite _ _ | .pageAnswer _ _ _ _
  | .launchRecordRead _ _ | .recordFire _ _ | .prepReservation _ _ _ | .crewPlacement _ _ _ _ | .rcwinExpiry _
  | .invalidateTranslations _ _ _ _ | .releaseSession _ _ | .endDig _ _ | .configure _ | .endFrozenTask _
  | .laneRetirement _ _ | .coreSubstitution _ | .setPlimit _ _ | .readHistograms _ | .loadFirmware _ _
  | .getVersion _ | .getCapabilities _ | .negotiateAlgorithms _ | .getMeasurements _ | .hostWrite _ _
  | .hostRead _ _ | .boot _ _ | .powerControlTick _ _ _ | .histogramFlashWrite _ | .supervisorReread _
  | .linkRetraining _ _ | .perBankRefresh _ _ | .alertBackOff _ _ _ | .powerDownEntry _ | .selfRefreshEntry _
  | .railFrameReceive _ _ | .frameResend _ _ _ | .remoteAccess _ | .packageTimeout _ | .ptpEventMessage _ _
  | .ptpGeneralMessage _ _ | .holdoverEntry _ | .ccopyCopy _ _ | .ccopyFill _ _ | .ccopyHmset _ _
  | .ccopyCompletion _ _ | .dcopyCopy _ _ | .dcopyFill _ _ | .dcopyHmset _ _ | .dcopyCompletion _ _ | .encOpen _ _
  | .encFrame _ _ | .encCompletion _ _ | .sadd _ _ | .saxpy _ _ | .sscal _ _ | .supd _ _ | .smom _ _ | .sfill _ _
  | .scpy _ _ | .seamMicroCommand _ _ | .seamCompletion _ _ | .allred _ _ | .redscat _ _ | .allgath _ _
  | .bcast _ _ | .collCancel _ _ _ | .collCompletion _ _ | .send _ _ | .land _ _ | .lzset _ _ | .zstat _ _
  | .rtset _ _ | .dispCompletion _ _ | .hostLinkDown _ | .hostLinkUp _ | .dieLeavesService _ | .powerFailure _ => none

/-- The word of an instruction with stall count stl (R13, R17): none for the steps that no word names. -/
def encode (i : Instr) (stl : BitVec 3) : Option Word :=
  match encBody i with
  | some e => some (Parts.pack ⟨e.op, stl, e.form, e.body⟩)
  | none => none

end Sys2Proof
end

