-- ==== Sys2Proof/Config.lean ====
section
/-! DEFINITION. What the device fixes (figures of R1 and of the rules named here), and the values the spec leaves open.
A value left open is a constant with no body: nothing can be proved of it but what holds of every value. -/

namespace Sys2Proof.Config

/-- A byte the spec calls undefined, taken for the k-th time: output bytes after a failed ENC command (R296), a slot after
a failed landing (R358). The counter fresh of State is k (log 5, DESIGN CHOICE). -/
opaque freeByte : Nat → Byte

/-- What the element-progress timer finds where no event of the agenda says it: elements performed, the address, register and element
stalled, and what it awaits, by kind and index (R227, R231; log 5, DESIGN CHOICE). -/
opaque freeStall : Nat → Nat × Word × Fin 8 × BitVec 13 × Fin 8 × BitVec 12

/-- Whether an undefined destination byte of a failed collective holds its old value or the value the command would write
(R353: one or the other). -/
opaque freeChoice : Nat → Bool

/-- Whether byte j of row r of a copy command, numbered by its acceptance, receives its source byte's value from before the
command, where an earlier row of the command has written that source byte: R265 allows both (log 28, DESIGN CHOICE). -/
opaque copyOld (serial r j : Nat) : Bool

/-- An axis length of 2^32 or more, and a dense stride of 2^47 or more, as a descriptor's 32 and 48 bits hold it: no rule
says (log 13, DESIGN CHOICE). -/
opaque longAxis : Nat → BitVec 32
opaque longStride : Nat → BitVec 48

/-- The width, less one, by which a thread region counts its elements under a VCFG.FMT code that names no format: R122 gives
none (log 9, DESIGN CHOICE). -/
opaque openWidth : BitVec 4 → Nat

/-- What a BF16 immediate becomes in an instruction of a format that cannot hold it: R74 converts it exactly, and gives no
value where that cannot be (log 6, DESIGN CHOICE). -/
opaque inexactImm (f : Fmt) : BitVec 16 → BitVec 16

/-- The result of plan operation op (0 PlanAdd, 1 PlanExp, 2 Ln, 3 LSE, 4 Update, 5 a product, 6 a quotient) on operands
that R177 does not admit (NaN, +infinity, a negative mass), which a bound tile written by mxwr or a plan image can hold
(log 6, DESIGN CHOICE). -/
opaque planOpen (op : Nat) (operands : List (BitVec 32)) : BitVec 32

/-- What R294 leaves to the outside specification that it names in the bits an encoder writes: stretch part of the headers, and the
tile's data: fixed functions of the frame's samples, the stream area and the command's fields; and, for every frame alike, whether
superblocks are of 128 samples, whether tiles are spaced evenly, and how many bits more than needed the frame size takes (log 54,
PRESUMED). -/
opaque headerBits (part : Nat) (samples : List Nat) (area : List Byte) (rec : BitVec 512) (key : Bool) : List Bool
opaque tileData (samples : List Nat) (area : List Byte) (rec : BitVec 512) (key : Bool) : List Byte
opaque largeBlocks : Bool
opaque evenTiles : Bool
opaque sizeSpare : Nat

/-- The stream area behind its parameters as OPEN and as FRAME leave it: rate-control state and two reconstructed frames, in a layout
the spec does not give (R295, R296). -/
opaque openState (rec : BitVec 512) : List Byte
opaque nextState (samples : List Nat) (area : List Byte) (rec : BitVec 512) (key : Bool) : List Byte

/-- How the stream's parameters stand in the first bytes of the area: byte i is its value in the order of Stream.bytes combined with
this one (R295 gives no layout: log 52, DESIGN CHOICE). -/
opaque areaMask (i : Nat) : Byte

/-- The data set by which the clock of a package compares itself with the masters it hears (R346; log 51, PRESUMED). -/
opaque clockData (pkg : Nat) : BitVec 128

/-- Whether the ECDSA P-384 signature of an image verifies over its digest under the fused key (R337). -/
opaque ecdsaOk (img : Firmware) : Bool

/-- Whether the LMS signature of an image verifies over its digest under the fused key (R337). -/
opaque lmsOk (img : Firmware) : Bool

/-- The device identity key's signature over a measurement response (R338). -/
opaque signMeasurements (pkg : Nat) (blocks : List (BitVec 384)) : BitVec 768

/-- The digest of the fused configuration (R338). -/
opaque fusedDigest (pkg : Nat) : BitVec 384

/-- The security version fused into a package (R336). -/
opaque fusedVersion (pkg : Nat) : Nat

/-- Nanoseconds without an Announce after which a master is no longer heard: three intervals of two seconds (R346; log 51,
PRESUMED). -/
def announceTimeout : Nat := 6000000000

/-- Packages of the load-store domain at most (R343). -/
def maxPackages : Nat := 64

/-- Bytes of one HBM die region (R301) and of the package's HBM. -/
def dieRegion : Nat := 0x3000000000
def hbmBytes : Nat := 4 * dieRegion

end Sys2Proof.Config
end

