-- ==== Sys2Proof/Machine/Tab.lean ====
section
/-! DEFINITION. A sparse table of plain data: a list of keys and values, keys strictly rising, with no entry equal
to what an unlisted key reads as. Memory and every collection of like units (cores, clusters, dies) are such tables,
so that equal tables are equal data. -/

namespace Sys2Proof.Machine

/-- A sparse table from Nat keys to values. -/
abbrev Tab (α : Type) := List (Nat × α)

/-- What key k reads as; d is what an unlisted key reads as. -/
def tabGet {α : Type} (d : α) : Tab α → Nat → α
  | [], _ => d
  | (j, v) :: t, k => if k < j then d else if k = j then v else tabGet d t k

/-- Insert or replace key k, in key order. -/
def tabPut {α : Type} : Tab α → Nat → α → Tab α
  | [], k, v => [(k, v)]
  | (j, w) :: t, k, v =>
    if k < j then (k, v) :: (j, w) :: t else if k = j then (k, v) :: t else (j, w) :: tabPut t k v

/-- Remove key k. -/
def tabDel {α : Type} : Tab α → Nat → Tab α
  | [], _ => []
  | (j, w) :: t, k => if k < j then (j, w) :: t else if k = j then t else (j, w) :: tabDel t k

/-- Write key k: writing what an unlisted key reads as removes the entry. -/
def tabSet {α : Type} [DecidableEq α] (d : α) (t : Tab α) (k : Nat) (v : α) : Tab α :=
  if v = d then tabDel t k else tabPut t k v

/-- Every key of the table is above k. -/
def tabAbove {α : Type} (k : Nat) (t : Tab α) : Bool := t.all fun p => decide (k < p.1)

/-- The canonical form: keys strictly rising, no entry equal to the value of an unlisted key. -/
def tabWf {α : Type} [DecidableEq α] (d : α) : Tab α → Bool
  | [] => true
  | (j, v) :: t => decide (v ≠ d) && tabAbove j t && tabWf d t

/-- Every value of the table changed; f keeps what an unlisted key reads as. -/
def tabMap {α : Type} [DecidableEq α] (d : α) (f : α → α) (t : Tab α) : Tab α :=
  (t.map fun p => (p.1, f p.2)).filter fun p => decide (p.2 ≠ d)

/-- Drop every entry whose key lies in lo .. lo + n - 1: the range then reads as unlisted. -/
def tabClear {α : Type} (t : Tab α) (lo n : Nat) : Tab α :=
  t.filter fun p => !(decide (lo ≤ p.1) && decide (p.1 < lo + n))

/-- Put an item before the first that it may stand before. -/
def insertBy {α : Type} (before : α → α → Bool) (a : α) : List α → List α
  | [] => [a]
  | b :: t => if before a b then a :: b :: t else b :: insertBy before a t

/-- A stable sort: le a b says that a may stand before b. -/
def sortBy {α : Type} (le : α → α → Bool) : List α → List α
  | [] => []
  | a :: t => insertBy le a (sortBy le t)

end Sys2Proof.Machine
end

