-- ==== Sys2Proof/Machine/State.lean ====
section
/-! DEFINITION. The state of the machine: every package of the load-store domain, with every register, memory, queue and
status bit the spec names, as plain data. A register file is a vector; a collection of like units is a sparse table (Tab)
keyed by the unit's number in the machine:
package p; die 4p + d; cluster 8(4p + d) + c; core 16 x cluster + k; context 4 x core + n.
The context and the core that move next stand unpacked in c and k; every other one stands in ctxs and cores. -/

namespace Sys2Proof.Machine

/-- No step of this machine stops with a fault: every trap is a next state (R224), and so is the freeze of a double fault
(R229). -/
inductive Fault where
  deriving DecidableEq, Repr

/-- Why a step has no meaning in the model. -/
inductive Refusal where
  /-- Raised by the dispatcher alone, for an instruction the model does not give a meaning: safe, the run stops. -/
  | notModelled (mnemonic : String)
  deriving DecidableEq, Repr

/-! Contexts. -/

/-- What a context is doing (R100). -/
inductive Status where
  | free | bound | out | drain | frozen
  deriving DecidableEq, Repr

/-- A fixed-latency result on its way (R108): register, value, the first slot that reads it, the instruction's address. -/
structure Pending where
  reg : XReg
  val : Word
  due : Nat
  pc : Word
  deriving DecidableEq, Repr

/-- An array descriptor (R133). -/
structure Desc where
  base : BitVec 72
  fmt : Fmt
  u : Bool
  rank : Fin 9
  shape : Vector (BitVec 32) 8
  stride : Vector (BitVec 48) 8
  pstride : Word
  sbase : Word
  blk : Blk
  cap : Word
  deriving DecidableEq, Repr

/-- A lane's micro-thread (R52): LPC, RUN, and the words of its block still to carry out, fetched and checked (R123); none
when a block is still to be fetched at LPC. -/
structure LaneState where
  lpc : Word
  run : Bool
  block : List Word
  deriving DecidableEq, Repr

/-- What a thread region holds for its vjoin (R123, R124): the lowest element and its register in the group, cause, TINFO
detail and address. -/
structure LaneFault where
  reg : BitVec 3
  elem : BitVec 13
  cause : BitVec 8
  detail : BitVec 56
  addr : Word
  deriving DecidableEq, Repr

/-- A held line of the write-combining buffer (R270): its address, its 64 bytes, which of them are held, and the leaf fields
and assay id its stores carry (R196, R324). -/
structure HeldLine where
  pa : Nat
  bytes : BitVec 512
  sel : BitVec 64
  lay : Lay
  assay : Option (Fin 256)
  deriving DecidableEq, Repr

/-- A queued watch event (R233): first byte of the access and first matching byte, class, agent kind and number, and TINFO
bits 55:52. -/
structure WatchEvent where
  start : Nat
  pa : Nat
  cls : BitVec 8
  kind : BitVec 8
  agent : BitVec 16
  detail : BitVec 4
  deriving DecidableEq, Repr

/-- Queue a waiting instruction stands in; the SCU's own waits stand in none (R104). -/
inductive Queue where
  | scu | vq | mq | lq | aq
  deriving DecidableEq, Repr

/-- What a context waits for, its PC still at the waiting instruction. -/
inductive Wait where
  | none
  | engine (cls : Cls) (target : Word)          -- ewait (R130)
  | clasp (c : ClaspAt) (old : Bool) (arrived : Bool) -- claspw, or claspa once it has arrived (R260, R261)
  | wfe                                         -- R131
  | vfence                                      -- the drain group's release (R270)
  | vjoin                                       -- lanes still running (R125)
  | lanes                                       -- svl, until the sequencer binds lanes (R126)
  | queued (w : Word) (q : Queue)               -- it has come to the head of its queue and is still to begin (R104)
  | drain (qs : List Queue)                     -- a draining instruction: the queues it names (R107)
  | seam                                        -- bfence (R320)
  | assay                                       -- asyclose (R325)
  | fence (cla : Cls)                           -- xfence, for commands of an engine class (R218)
  | port                                        -- a PGREQ write that finds 1,024 requests in use (R331)
  | going                                       -- between two steps (R144, R167, R181)
  | begun                                       -- in its queue, begun, and nothing done yet (R231)
  deriving DecidableEq, Repr

/-- The queued instructions that have begun and not completed, by address (R99, R104). -/
structure Queues where
  vq : List Word
  mq : List Word
  lq : List Word
  aq : List Word
  deriving DecidableEq, Repr

/-- What the SCU holds of a context as it runs ahead of the queues (R104, R105): the scalar registers, the PC, the slot and the
fixed-latency results pending, VL, VLG and VCFG; and the scalar registers that instructions still in the queues have to write. -/
structure Scu where
  x : Vector Word 32
  pc : Word
  slot : Nat
  pending : List Pending
  vl : BitVec 13
  vlg : BitVec 13
  vfmt : BitVec 4
  vblk : Blk
  owed : List XReg
  deriving DecidableEq, Repr

/-- An instruction in a queue behind the oldest that has not completed: what the SCU supplies it, its word, its queue (R105). -/
structure Queued where
  scu : Scu
  word : Word
  queue : Queue
  deriving DecidableEq, Repr

/-- Asynchronous causes asked of a context and not yet taken (R223): the progress timer, a reclaim to a cap, a pre-emption. -/
structure Asked where
  progress : Option Stall
  preempt : Bool
  deriving DecidableEq, Repr

/-- The bfence aggregate and the cancelled banks of a task (R321, R323). -/
structure SeamLog where
  tag : BitVec 32
  code : BitVec 8
  first : Nat
  fails : Nat
  banks : List Nat
  deriving DecidableEq, Repr

/-- Which task a context holds (R4, R286): a number of its own in this machine, its queue and record, its coordinates,
the addresses of its save record, its image table with the windows that have an image (bit 0 TCM, 1 scratchpad, 2 die
SRAM; R283), and whether it has issued an instruction. -/
structure Task where
  id : Nat
  queue : Nat
  n : BitVec 32
  dig : Word
  crew : Nat
  member : Nat
  stage : Nat
  save : Nat
  saveVa : Nat
  table : BitVec 16 × Word
  images : BitVec 3
  began : Bool
  deriving DecidableEq, Repr

/-- An uncorrectable error in a protected unit (R340): how many more reads find it (none: every read); the layout under
which the read that first failed was made, so that the next read is the retry; whether that retry failed, after which every
read fails; and whether its code was written to report an error until a write replaces the whole unit. -/
structure Bad where
  left : Option Nat
  erred : Option Lay
  lasting : Bool
  poison : Bool
  deriving DecidableEq, Repr

/-- A sector of 32 bytes of HBM whose last normal writes wait in a line buffer (R313): what a raw read finds there, byte j in bits
8j + 7 to 8j, and the contexts and classes that wrote. -/
structure Unencoded where
  old : BitVec 256
  writers : List (Nat × Cls)
  deriving DecidableEq, Repr

/-- A unit with no error. -/
def Bad.clean : Bad := ⟨some 0, Option.none, false, false⟩

/-- A tile element with an uncorrectable error (R154): its tile, row and column, how the error stands. -/
structure BadTile where
  tile : TReg
  row : Fin 64
  col : Fin 64
  bad : Bad
  deriving DecidableEq, Repr

/-- A register-slice entry with an uncorrectable error (R53): its register, its physical lane, how the error stands. -/
structure BadSlice where
  reg : VReg
  lane : Fin 64
  bad : Bad
  deriving DecidableEq, Repr

/-- What a PAGE or HPAGE that the context has taken reported, for an HPAGE that answers a request of it (R212): its fault batch,
TADDR, MORE and UNIT of TINFO, and EIDX. -/
structure Paged where
  record : BitVec 2048
  addr : Word
  more : Bool
  unit : BitVec 3
  reg : BitVec 3
  idx : BitVec 13
  deriving DecidableEq, Repr

/-- One hardware context (R99, R101). -/
structure Ctx where
  status : Status
  x : Vector Word 32
  pc : Word
  -- CTL (R102)
  det : Bool
  sbc : Bool
  hmchk : Bool
  lpin : Bool
  -- STAT (R103); MXE is mxen
  hnd : Bool
  thr : Bool
  vlive : Bool
  -- VL, VLG, VCFG (R71)
  vl : BitVec 13
  vlg : BitVec 13
  vfmt : BitVec 4
  vblk : Blk
  scnt : Word
  eidxReg : BitVec 3
  eidx : BitVec 13
  vah : BitVec 8
  detw : BitVec 7
  fmsk : BitVec 1024
  -- trap registers (R226, R229)
  tcause : BitVec 8
  taddr : Word
  tpc : Word
  tvec : Word
  tsp : Word
  tinfo : Word
  dfcause : BitVec 12
  dfaddr : Word
  -- LGRANT (R234)
  cap : BitVec 7
  next : BitVec 7
  pend : Bool
  lanesHeld : BitVec 8                -- lanes reclaimed for this context; 0: it shares the core's lanes (R237)
  lanesBack : Bool                    -- they have returned, and count until its next grant point (R237)
  taker : Option (Fin 4)             -- the context that the lanes a cap frees pass to (R237)
  spilled : Bool                     -- the entries above the cap stand in the save record (R236)
  -- element-progress timer (R231)
  eptlim : BitVec 32
  eptport : BitVec 16
  ept : Nat
  consumed : Nat                     -- bits of source the array instruction has read since its last element group (R144)
  -- matrix and plan (R155, R159, R167, R176)
  mxen : Bool
  mxrowp : Word
  mxcolp : Word
  mxprog : BitVec 10
  plst : BitVec 32
  swlim : BitVec 16
  pltol : BitVec 32
  plsw : BitVec 16
  pleps : BitVec 32
  deadln : Word
  prio : BitVec 2
  dlwin : Word
  hmexp : BitVec 18
  session : BitVec 32
  watch : Vector Word 4
  watchctl : Word
  ptroot : Word
  asid : BitVec 16
  -- vector state (R49, R51) and the register-slice entries with an uncorrectable error (R53)
  v : Vector (BitVec 4096) 32
  m : Vector (BitVec 4096) 8
  vbad : List BadSlice
  d : Vector Desc 16
  counts : Vector Word 6
  -- thread region (R105, R122 to R125)
  lanes : Tab LaneState
  thrX : Vector Word 32
  thrFmt : BitVec 4                   -- VCFG.FMT as the region's vfetch found it (R124)
  thrFault : Option LaneFault
  -- issue (R104, R108)
  slot : Nat
  pending : List Pending
  queues : Queues
  wait : Wait
  queued : List Queued                -- instructions placed in the queues behind the oldest, in program order
  ahead : Option Scu                  -- where the SCU stands, when it has run ahead of the oldest instruction
  asked : Asked
  -- arbitration (R242): the charge, and whether the context was ready at the core's last dispatch
  charge : Nat
  ready : Bool
  -- page requests (R212, R330)
  gen : BitVec 16
  held : Bool
  pgreq : Word
  asking : Bool                       -- a request was sent; the next tret holds the context
  request : BitVec 2048               -- the record of the latest request
  answer : Option (Bool × BitVec 16)  -- its matched answer, not yet acted on: failure, entries refused
  paged : List Paged                  -- PAGE and HPAGE taken since the last in task mode, that one included, latest first
  -- watchpoints (R233)
  event : Option WatchEvent
  lost : BitVec 32
  -- deterministic drain (R270): held lines, oldest first; epochs closed
  lines : List HeldLine
  epoch : Nat
  assay : Option (Fin 256)
  seam : SeamLog
  task : Option Task
  deriving DecidableEq, Repr

/-! Cores. -/

/-- Plan state (R175). -/
structure Plan where
  bnd : Bool
  pt : TReg
  m : BitVec 32
  n : BitVec 32
  eps : BitVec 32
  lrs : Vector (BitVec 32) 64
  lcs : Vector (BitVec 32) 64
  mrow : Vector (BitVec 32) 64
  mcol : Vector (BitVec 32) 64
  deriving DecidableEq, Repr

/-- One logical core (R54, R57, R154, R271, R283). A tile is 64 rows of 64 FP32 elements. -/
structure Core where
  lmap : BitVec 64
  tiles : Vector (Vector (BitVec 2048) 64) 8
  tbad : List BadTile
  owner : Option (Fin 4)
  plan : Plan
  image : Option (BitVec 16 × Word)
  phys : Nat
  absent : Bool
  closed : Bool
  retiring : List (Fin 64)
  replacing : Bool
  since : Nat                         -- dispatches since the last background one, while one was ready (R243)
  deriving DecidableEq, Repr

/-! Clusters. -/

/-- A clasp (R256). -/
structure Clasp where
  target : BitVec 16
  arrived : BitVec 16
  phase : Bool
  deriving DecidableEq, Repr

/-- What an engine command came to: its status word, and the hallmarks it sets when it completes (granule, tag, layout). -/
structure Result where
  word : Word
  marks : List (Nat × BitVec 18)
  deriving DecidableEq, Repr

/-- A row of expert dispatch on its way (R358). -/
structure Flight where
  die : Nat
  zone : Nat
  slot : Nat
  seq : BitVec 32
  rowb : Nat
  bytes : List Byte
  arrived : Bool                       -- it has reached the destination die
  deriving DecidableEq, Repr

/-- Physical memory an engine has found: address, layout, bytes. -/
abbrev Piece := Nat × Lay × Nat

/-- An accepted engine command (R128, R129): who issued it, under which translation, and how far it is. -/
structure Cmd where
  serial : Nat
  ctx : Nat
  task : Nat
  image : BitVec 512
  root : Word
  asid : BitVec 16
  session : BitVec 32
  assay : Option (Fin 256)
  started : Bool
  fails : List (Nat × Nat × Nat)      -- seam: bank, code, first element left undone
  micro : Nat                          -- seam: micro-commands outstanding
  second : Bool                        -- ENC: the encoder it goes to
  table : List Nat                     -- COLL: the group table as it was read
  src : List Piece                     -- COLL: the source and the destination as they were translated
  dst : List Piece
  flight : Option Flight
  result : Option Result
  deriving DecidableEq, Repr

/-- A micro-command at a bank (R317, R318): the seam command it serves, and its elements with the address and layout of
each operand's element. -/
structure Micro where
  serial : Nat
  elems : List (Nat × List (Nat × Lay))
  deriving DecidableEq, Repr

/-- One cluster (R249 to R272). -/
structure Cluster where
  clasps : Tab Clasp
  hall : Tab (BitVec 18)
  pins : Tab (BitVec 32)
  hallBad : Tab Bad                   -- hallmarks with an uncorrectable error, by granule
  ccopy : List Cmd
  down : Bool
  spareUsed : Bool
  errors : Nat
  image : Option (BitVec 16 × Word)
  deriving DecidableEq, Repr

/-! Dies. -/

/-- A queue context (R278) with its ring pointers (R279): head and tail, records read, and whether the host has set it. -/
structure HostQueue where
  set : Bool
  image : BitVec 512
  head : BitVec 32
  tail : BitVec 32
  deriving DecidableEq, Repr

/-- A record read and not yet fired (R284, R290): its ring index, its image, the queue context it was read under, the
PREP and the save pool as they stood then, the contexts of each crew reserved for it, first crew first, the windows whose images
stand there for it (R283), whether it is late, and whether the host has ended its dig. -/
structure Waiting where
  queue : Nat
  n : BitVec 32
  image : BitVec 512
  qctx : BitVec 512
  prep : Nat
  era : Nat
  reserved : List (List Nat)
  images : BitVec 3
  late : Bool
  ended : Bool
  deriving DecidableEq, Repr

/-- A fired record with tasks to place or running (R285 to R289): crews placed, tasks that live, tasks that ended frozen,
the status it ends with (0: none yet), the save pool it was read under and the save records its tasks hold, by address, and
whether it is late. -/
structure Launch where
  queue : Nat
  n : BitVec 32
  image : BitVec 512
  qctx : BitVec 512
  era : Nat
  dig : Word
  fire : Word
  placed : Nat
  live : Nat
  frozen : Nat
  status : BitVec 8
  saves : List Nat
  late : Bool
  deriving DecidableEq, Repr

/-- What the die's task table keeps of a task switched out (R239, R325): all that is not in its save record. -/
structure OutTask where
  ctx : Nat
  task : Task
  assay : Option (Fin 256)
  seam : SeamLog
  added : Vector Word 6
  thrX : Vector Word 32
  thrFmt : BitVec 4
  thrFault : Option LaneFault
  lanesHeld : BitVec 8
  taker : Option (Fin 4)
  progress : Option Stall
  epoch : Nat
  event : Option WatchEvent
  lost : BitVec 32
  ept : Nat
  asking : Bool
  request : BitVec 2048
  answer : Option (Bool × BitVec 16)
  gen : BitVec 16
  pgreq : Word
  paged : List Paged
  vbad : List BadSlice
  lineTags : List (Lay × Option (Fin 256))
  deriving DecidableEq, Repr

/-- A landing zone (R357 to R359): the physical frames it lands on, and a window of sequence numbers per source. -/
structure Zone where
  cap : Nat
  rowb : Nat
  base : Nat
  frames : List Piece
  landed : Nat
  dups : Nat
  refused : Nat
  windows : Tab (Nat × List Nat)
  armed : Bool
  deriving DecidableEq, Repr

/-- The replica tables (R360). -/
structure Replica where
  bound : Bool
  t0 : BitVec 72
  t1 : BitVec 72
  nent : Nat
  clasp : Nat
  active : Bool
  cmd : Option Cmd
  deriving DecidableEq, Repr

/-- A page request not yet answered (R331): context, generation, translation, entries, and whether it waits for the
link. -/
structure PageReq where
  ctx : Nat
  gen : BitVec 16
  asid : BitVec 16
  root : Word
  entries : BitVec 2048
  waiting : Bool
  deriving DecidableEq, Repr

/-- A rail frame sent and not acknowledged (R342): destination die, the port of the package that numbered it and its number, the
place of its message among those to that die, the message, how often it was sent, and whether it has reached its destination. -/
structure Sent where
  peer : Nat
  port : Nat
  seq : Nat
  order : Nat
  msg : RailMsg
  tries : Nat
  got : Bool
  deriving DecidableEq, Repr

/-- A configured save record of the die's pool (R240, R298): physical address, virtual address, the pool it is of. -/
structure SaveRec where
  pa : Nat
  va : Nat
  used : Bool
  era : Nat
  deriving DecidableEq, Repr

/-- One die (R275 to R299, R330, R342, R350 to R361). -/
structure Die where
  tick : Word
  queues : Tab HostQueue
  waiting : List Waiting
  launches : List Launch
  out : List OutTask
  prep : Nat
  rcwin : Nat
  pool : List SaveRec
  era : Nat                           -- number of the save pool that records are now read under (R298)
  placements : List Nat               -- classes of the last 16 placements, latest first (R288)
  turns : Nat × Nat                   -- the queue last served in class 1, and in class 2
  clasps : Tab Clasp
  dcopy : List Cmd
  enc : List Cmd
  seam : List Cmd
  micro : Tab (List Micro)            -- per bank of this die, the micro-commands that wait, in arrival order
  coll : List Cmd
  disp : List Cmd
  strays : List Cmd                   -- DISP commands ended with CODE 7 whose row may still land (R363)
  zones : Tab Zone
  replica : Replica
  cancels : List (BitVec 32 × BitVec 32)      -- cancels kept for commands not yet issued (R353), oldest first
  cancelBox : List (BitVec 32 × BitVec 32)    -- cancels on their way to this die
  copyLost : BitVec 4                 -- one bit per copy engine out of service
  encDown : Fin 4                     -- one bit per encoder out of service
  streams : Tab Bool                  -- the encoder each stream area is bound to
  throttle : Fin 8
  asyclr : BitVec 8
  lateans : BitVec 32
  requests : List PageReq
  pwrctl : Vector Word 3
  refcnt : Vector Word 3
  image : Option (BitVec 16 × Word)
  errors : Nat
  down : Bool
  ports : Tab Nat                     -- 0 in service, 1 on its spare lane, 2 out of service
  sent : List Sent
  received : Tab Nat                  -- messages received from each peer
  ordered : Tab Nat                   -- messages sent to each peer
  discarded : Nat
  deriving DecidableEq, Repr

/-! Packages and the memory. -/

/-- Boot state (R336, R337). -/
inductive BootState where
  | off | running | recovery
  deriving DecidableEq, Repr

/-- State of the 1588 clock (R346 to R349). -/
inductive Clock where
  | unlocked | locked | holdover
  deriving DecidableEq, Repr

/-- Power state of a pseudo-channel (R307) and the postponed refreshes of its banks (R308). -/
inductive ChanPower where
  | active | powerDown | selfRefresh
  deriving DecidableEq, Repr

structure Chan where
  power : ChanPower
  owed : Tab Nat
  deriving DecidableEq, Repr

/-- A master that a port of rail 0 of the package hears (R346): port, the identity of the sending port, its data set, ns since its
last Announce. -/
structure Master where
  port : Nat
  sender : BitVec 80
  data : BitVec 128
  age : Nat
  deriving DecidableEq, Repr

/-- One package (R329 to R343, R346 to R349). -/
structure Pkg where
  boot : BootState
  images : List (Nat × BitVec 384)    -- verified images: target and digest (R336, R338)
  linkUp : Bool
  silent : Bool                       -- has not answered for 100 us (R363)
  plimit : Nat
  overTime : Nat                      -- us over a limit since the last rise of L (R339)
  underTime : Nat                     -- us under both limits since the last fall of L
  hotTime : Nat                       -- us above 3,200 W at L = 7
  hist : Tab Nat                      -- lifetime counts in flash (R341)
  since : Tab Nat                     -- counts gathered since the last flash write
  ticks : Tab Nat                     -- parts of a second of the counts kept in seconds, in steps of 10 us
  modules : Tab Nat                   -- UCIe modules: 0 in service, 1 or 2 spare lanes used, 3 out (R335)
  map : List Member                   -- the domain map of the verified configuration (R343)
  clock : Clock
  offset : Int
  slew : Int
  ptpDomain : BitVec 8                -- the IEEE 1588 domain number of the configuration (R346)
  heard : List Master                 -- the masters that ports of die 0 hear
  origin : Option Int                 -- when the last Sync left its master, when it arrived, and when a Delay_Req left
  arrival : Option Int
  request : Option Int
  numbered : Tab Nat                  -- next frame number of each of the 16 ports (R342)
  deriving DecidableEq, Repr

/-- The algorithms that SPDM offers (R333). -/
inductive Algorithm where
  | ecdsaP384 | sha384
  deriving DecidableEq, Repr

/-- What the device sends the host (R229, R289, R299, R331, R333, R338, R341). -/
inductive HostMsg where
  | pageRequest (ctx : Nat) (gen : BitVec 16) (asid : BitVec 16) (root : Word) (entries : BitVec 2048)
  | frozen (ctx : Nat)
  | dieDown (die : Nat)
  | ack
  | refused
  | histograms (pkg : Nat) (counts : Tab Nat)
  | version (major minor : Nat)
  | capabilities
  | algorithms (offered : List Algorithm)
  | measurements (pkg : Nat) (blocks : List (BitVec 384)) (sig : BitVec 768)
  | readData (bytes : List Byte)
  | readFailed
  | remoteData (bytes : List Byte)
  | remoteFailed (code : Nat)
  | clock (pkg : Nat) (c : Clock) (offset : Int)
  deriving DecidableEq, Repr

/-- The units whose errors the lifetime histograms count (R341): a physical lane of a logical core, a core, a row group of
SRAM or TCM of a package (log 48, DESIGN CHOICE: 64 KiB of its window), a pseudo-channel of HBM, a UCIe module of a package, a port
of a die, an engine of a class: by its cluster for CCOPY; 4 x die + number for DCOPY; 2 x die + number for ENC; else by its die. -/
inductive ErrUnit where
  | lane (core phys l : Nat)
  | core (n : Nat)
  | row (pkg group : Nat)
  | chan (n : Nat)
  | module (pkg key : Nat)
  | port (die p : Nat)
  | engine (cls : Cls) (n : Nat)
  deriving DecidableEq, Repr

/-- Errors that arrive from outside (R53, R154, R191, R256, R271, R272, R299, R300, R340): one that its code corrects; a unit of
memory, a register-slice entry, a tile element or a hallmark, and how many reads find the error (none: every read); clasp state;
a core or an engine, whose retry fails or succeeds. -/
inductive Upset where
  | corrected (u : ErrUnit)
  | memory (pa : Nat) (reads : Option Nat)
  | slice (ctx : Nat) (r : VReg) (lane : Fin 64) (reads : Option Nat)
  | tile (core : Nat) (t : TReg) (row col : Fin 64) (reads : Option Nat)
  | hallmark (clu g : Nat) (reads : Option Nat)
  | claspState (clu : Nat)
  | core (n : Nat) (fails : Bool)
  | engine (cls : Cls) (n : Nat) (fails : Bool)
  deriving DecidableEq, Repr

/-- What moves next (log 1, DESIGN CHOICE): an event of the table that no instruction word names; the context whose oldest instruction
goes on or whose next one issues; the SCU of a context, ahead of the oldest instruction; a queued instruction of a context that begins
and does not complete yet; the running lanes of a context; time; a pre-emption or a lane reclaim asked of a context; an error from
outside. -/
inductive Turn where
  | event (i : Instr)
  | issue (ctx : Nat)
  | ahead (ctx : Nat)
  | begin (ctx : Nat)
  | threads (ctx : Nat)
  | clock (ns : Nat)
  | preempt (ctx : Nat)
  | reclaim (ctx : Nat) (cap : BitVec 7) (taker : Option (Fin 4))
  | upset (u : Upset)
  | refreshDue (chan : Nat) (bank : Fin 64) -- a bank's refresh falls due (R308)
  | encode (sector : Nat)             -- a controller encodes what waits for a sector of 32 bytes (R313)
  deriving DecidableEq, Repr

/-- The whole machine. -/
structure State where
  here : Nat                          -- the context in hand
  c : Ctx
  k : Core
  ctxs : Tab Ctx
  cores : Tab Core
  clusters : Tab Cluster
  dies : Tab Die
  pkgs : Tab Pkg
  mem : Tab Byte                      -- stored bytes by physical address (R194)
  tags : Tab Nat                      -- compression tag of each 128-byte line (R310)
  unencoded : Tab Unencoded           -- sectors with writes in line buffers, by address / 32 (R313)
  bad : Tab Bad                       -- protected units with an uncorrectable error, by their first byte (R340)
  assay : Tab Word                    -- accumulators: (12 x package + stack) x 256 + id (R324)
  chans : Tab Chan                    -- pseudo-channels: (12 x package + stack) x 64 + number (R307)
  host : List HostMsg                 -- messages to the host, latest first
  laneSel : Option Nat                -- the lane whose block word is being carried out (R124)
  agenda : List Turn                  -- what moves next (log 1, DESIGN CHOICE); empty: the context in hand issues
  fresh : Nat                         -- free values taken so far (log 5, DESIGN CHOICE)
  serial : Nat                        -- engine commands accepted so far
  tasks : Nat                         -- tasks placed so far
  deriving DecidableEq, Repr

/-! What the machine holds when nothing has happened to it (R4, R99; log 4, DESIGN CHOICE for what no rule gives). -/

def Desc.zero : Desc where
  base := 0
  fmt := .i8
  u := false
  rank := 0
  shape := Vector.replicate 8 0
  stride := Vector.replicate 8 0
  pstride := 0
  sbase := 0
  blk := .none
  cap := 0

def LaneState.idle : LaneState := ⟨0, false, []⟩

def SeamLog.clear : SeamLog := ⟨0, 0, 0, 0, []⟩

def Queues.empty : Queues := ⟨[], [], [], []⟩

/-- A context as it is FREE after bring-up: every CSR at the reset value of its table, registers zero. -/
def Ctx.reset : Ctx where
  status := .free
  x := Vector.replicate 32 0
  pc := 0
  det := false
  sbc := false
  hmchk := false
  lpin := false
  hnd := false
  thr := false
  vlive := false
  vl := 0
  vlg := 0
  vfmt := 0
  vblk := .none
  scnt := 0
  eidxReg := 0
  eidx := 0
  vah := 0
  detw := 0
  fmsk := 0
  tcause := 0
  taddr := 0
  tpc := 0
  tvec := 0
  tsp := 0
  tinfo := 0
  dfcause := 0
  dfaddr := 0
  cap := 64
  next := 64
  pend := false
  lanesHeld := 0
  lanesBack := false
  taker := none
  spilled := false
  eptlim := 0x4000
  eptport := 0
  ept := 0
  consumed := 0
  mxen := false
  mxrowp := BitVec.allOnes 64
  mxcolp := BitVec.allOnes 64
  mxprog := 0
  plst := 3
  swlim := 64
  pltol := 0x3A83126F
  plsw := 0
  pleps := 0x3F800000
  deadln := 0
  prio := 0
  dlwin := 0
  hmexp := 0
  session := 0
  watch := Vector.replicate 4 0
  watchctl := 0
  ptroot := 0
  asid := 0
  v := Vector.replicate 32 0
  m := Vector.replicate 8 0
  vbad := []
  d := Vector.replicate 16 Desc.zero
  counts := Vector.replicate 6 0
  lanes := []
  thrX := Vector.replicate 32 0
  thrFmt := 0
  thrFault := none
  slot := 0
  pending := []
  queues := Queues.empty
  wait := .none
  queued := []
  ahead := none
  asked := ⟨none, false⟩
  charge := 0
  ready := false
  gen := 0
  held := false
  pgreq := 0
  asking := false
  request := 0
  answer := none
  paged := []
  event := none
  lost := 0
  lines := []
  epoch := 0
  assay := none
  seam := SeamLog.clear
  task := none

def Plan.clear : Plan where
  bnd := false
  pt := 0
  m := 0
  n := 0
  eps := 0
  lrs := Vector.replicate 64 0
  lcs := Vector.replicate 64 0
  mrow := Vector.replicate 64 0
  mcol := Vector.replicate 64 0

/-- A core after bring-up: tiles cleared (R336), every lane in service (log 4, DESIGN CHOICE). -/
def Core.reset : Core where
  lmap := BitVec.allOnes 64
  tiles := Vector.replicate 8 (Vector.replicate 64 0)
  tbad := []
  owner := none
  plan := Plan.clear
  image := none
  phys := 0
  absent := false
  closed := false
  retiring := []
  replacing := false
  since := 0

/-- A clasp after bring-up (R256). -/
def Clasp.reset : Clasp := ⟨1, 0, false⟩

def Cluster.reset : Cluster where
  clasps := []
  hall := []
  pins := []
  hallBad := []
  ccopy := []
  down := false
  spareUsed := false
  errors := 0
  image := none

def HostQueue.reset : HostQueue := ⟨false, 0, 0, 0⟩

def Zone.reset : Zone where
  cap := 0
  rowb := 0
  base := 0
  frames := []
  landed := 0
  dups := 0
  refused := 0
  windows := []
  armed := false

def Replica.reset : Replica := ⟨false, 0, 0, 0, 0, false, none⟩

/-- A die after bring-up. PWRCTL holds SRIDLE 100 and PDIDLE 10 (R303). -/
def Die.reset : Die where
  tick := 0
  queues := []
  waiting := []
  launches := []
  out := []
  prep := 50000
  rcwin := 4096
  pool := []
  era := 0
  placements := []
  turns := (16383, 16383)
  clasps := []
  dcopy := []
  enc := []
  seam := []
  micro := []
  coll := []
  disp := []
  strays := []
  zones := []
  replica := Replica.reset
  cancels := []
  cancelBox := []
  copyLost := 0
  encDown := 0
  streams := []
  throttle := 0
  asyclr := 0
  lateans := 0
  requests := []
  pwrctl := Vector.replicate 3 0x64000A0000
  refcnt := Vector.replicate 3 0
  image := none
  errors := 0
  down := false
  ports := []
  sent := []
  received := []
  ordered := []
  discarded := 0

def Pkg.reset : Pkg where
  boot := .off
  images := []
  linkUp := true
  silent := false
  plimit := 3000
  overTime := 0
  underTime := 0
  hotTime := 0
  hist := []
  since := []
  ticks := []
  modules := []
  map := []
  clock := .unlocked
  offset := 0
  slew := 0
  ptpDomain := 0
  heard := []
  origin := none
  arrival := none
  request := none
  numbered := []

def Chan.reset : Chan := ⟨.active, []⟩

/-- The machine right after power-on and reset, before BOOT: no package has come up, memory with nothing listed, no task anywhere. -/
def State.reset : State where
  here := 0
  c := Ctx.reset
  k := Core.reset
  ctxs := []
  cores := []
  clusters := []
  dies := []
  pkgs := []
  mem := []
  tags := []
  unencoded := []
  bad := []
  assay := []
  chans := []
  host := []
  laneSel := none
  agenda := []
  fresh := 0
  serial := 0
  tasks := 0

end Sys2Proof.Machine
end

