-- ==== Sys2Proof/Machine/Units.lean ====
section
/-! DEFINITION. Naming the units of the machine: which context and core stand in hand, and reading or changing any other
context, core, cluster, die or package by its number. -/

namespace Sys2Proof.Machine

/-! Numbers of units: package p; die 4p + d; cluster 8 x die + c; core 16 x cluster + k; context 4 x core + n. -/

def coreOf (g : Nat) : Nat := g / 4
def clusterOf (g : Nat) : Nat := g / 64
def dieOf (g : Nat) : Nat := g / 512
def pkgOf (g : Nat) : Nat := g / 2048

/-- The context with number g, wherever it stands. -/
def State.ctxAt (s : State) (g : Nat) : Ctx := if g = s.here then s.c else tabGet Ctx.reset s.ctxs g

/-- Write context g, wherever it stands. -/
def State.putCtx (s : State) (g : Nat) (c : Ctx) : State :=
  if g = s.here then { s with c := c } else { s with ctxs := tabSet Ctx.reset s.ctxs g c }

def State.onCtx (s : State) (g : Nat) (f : Ctx → Ctx) : State := s.putCtx g (f (s.ctxAt g))

/-- The core with number n, wherever it stands. -/
def State.coreAt (s : State) (n : Nat) : Core := if n = coreOf s.here then s.k else tabGet Core.reset s.cores n

def State.putCore (s : State) (n : Nat) (k : Core) : State :=
  if n = coreOf s.here then { s with k := k } else { s with cores := tabSet Core.reset s.cores n k }

def State.onCore (s : State) (n : Nat) (f : Core → Core) : State := s.putCore n (f (s.coreAt n))

/-- Take context g in hand: the one in hand, and its core, go to the tables. -/
def State.focus (s : State) (g : Nat) : State :=
  if g = s.here then s
  else
    let ctxs := tabSet Ctx.reset s.ctxs s.here s.c
    let cores := tabSet Core.reset s.cores (coreOf s.here) s.k
    { s with
      here := g
      c := tabGet Ctx.reset ctxs g
      k := tabGet Core.reset cores (coreOf g)
      ctxs := tabDel ctxs g
      cores := tabDel cores (coreOf g) }

def State.clusterAt (s : State) (n : Nat) : Cluster := tabGet Cluster.reset s.clusters n
def State.onCluster (s : State) (n : Nat) (f : Cluster → Cluster) : State :=
  { s with clusters := tabSet Cluster.reset s.clusters n (f (s.clusterAt n)) }

def State.dieAt (s : State) (n : Nat) : Die := tabGet Die.reset s.dies n
def State.onDie (s : State) (n : Nat) (f : Die → Die) : State :=
  { s with dies := tabSet Die.reset s.dies n (f (s.dieAt n)) }

def State.pkgAt (s : State) (n : Nat) : Pkg := tabGet Pkg.reset s.pkgs n
def State.onPkg (s : State) (n : Nat) (f : Pkg → Pkg) : State :=
  { s with pkgs := tabSet Pkg.reset s.pkgs n (f (s.pkgAt n)) }

/-- Does the domain map of package p list package q (R343)? A package whose configuration has no map is alone in its domain. -/
def Pkg.lists (x : Pkg) (p q : Nat) : Bool := if x.map = [] then q == p else x.map.any (·.id == q)
def State.listed (s : State) (p q : Nat) : Bool := (s.pkgAt p).lists p q

/-- Cluster, die and package of the context in hand. -/
def State.clu (s : State) : Nat := clusterOf s.here
def State.die (s : State) : Nat := dieOf s.here
def State.pkg (s : State) : Nat := pkgOf s.here

def State.tell (s : State) (m : HostMsg) : State := { s with host := m :: s.host }

/-- Change the context in hand. -/
def State.onC (s : State) (f : Ctx → Ctx) : State := { s with c := f s.c }

/-- Change the core of the context in hand. -/
def State.onK (s : State) (f : Core → Core) : State := { s with k := f s.k }

/-! Lifetime counts (R341): a key for each count, 32 bits, saturating. -/

/-- Kinds of lifetime counts. -/
inductive Count where
  | corrected | transient | lasting | junction | refreshDebt | laneRetired | coreSwapped | deadlineMiss | lateAnswer
  | throttleTime | clusterDown | portDown | fabric | dieDown
  deriving DecidableEq, Repr

def Count.code : Count → Nat
  | .corrected => 0
  | .transient => 1
  | .lasting => 2
  | .junction => 3
  | .refreshDebt => 4
  | .laneRetired => 5
  | .coreSwapped => 6
  | .deadlineMiss => 7
  | .lateAnswer => 8
  | .throttleTime => 9
  | .clusterDown => 10
  | .portDown => 11
  | .fabric => 12
  | .dieDown => 13

/-- The key of the count of kind c for unit u. -/
def countKey (c : Count) (u : Nat) : Nat := c.code * 2 ^ 60 + u

/-- Add n to a lifetime count of package p. -/
def State.count (s : State) (p : Nat) (c : Count) (u n : Nat) : State :=
  s.onPkg p fun q =>
    let key := countKey c u
    { q with since := tabSet 0 q.since key (min (2 ^ 32 - 1) (tabGet 0 q.since key + n)) }

/-- A physical lane as the histograms number it: logical core, whether the spare core stands behind it, lane. -/
def laneKey (core phys l : Nat) : Nat := 2048 * core + 64 * (phys / 16) + l

def ErrUnit.pkg : ErrUnit → Nat
  | .lane n _ _ => n / 512
  | .core n => n / 512
  | .row p _ => p
  | .chan n => n / 768
  | .module p _ => p
  | .port die _ => die / 4
  | .engine cls n => match cls with
    | .ccopy => n / 32
    | .dcopy => n / 16
    | .enc => n / 8
    | .seam | .coll | .disp | .ls | .mxl | .host => n / 4

/-- The number of a unit among all those that the histograms count errors of. -/
def ErrUnit.key : ErrUnit → Nat
  | .lane n phys l => laneKey n phys l
  | .core n => 2 ^ 52 + n
  | .row _ g => 2 * 2 ^ 52 + g
  | .chan n => 3 * 2 ^ 52 + n
  | .module _ k => 4 * 2 ^ 52 + k
  | .port die p => 5 * 2 ^ 52 + 4 * die + p
  | .engine cls n => 6 * 2 ^ 52 + (Cls.code cls).toNat * 2 ^ 40 + n

/-- Count an error of a unit: corrected, transient or lasting (R341). -/
def State.countError (s : State) (c : Count) (u : ErrUnit) : State := s.count u.pkg c u.key 1

/-- Lanes in service of a core: A (R49, R57). -/
def popcount (w : BitVec 64) : Nat := ((List.range 64).filter fun i => w.getLsbD i).length

def Core.active (k : Core) : Nat := popcount k.lmap

/-- Physical lane of logical lane l (R49): the position of the (l + 1)-th set bit of LMAP. -/
def Core.physLane (k : Core) (l : Nat) : Nat := ((List.range 64).filter fun i => k.lmap.getLsbD i).getD l 0

end Sys2Proof.Machine
end

