-- ==== Sys2Proof/Machine/Mem.lean ====
section
/-! DEFINITION. Physical memory: what each address holds (R194, R301, R302, R367), bytes under line compression (R310 to
R312), errors in protected units (R340), the assay digest (R324), the writes of any agent, and the watch events they queue
(R233). Lists of bytes run from the lowest address upward. -/

namespace Sys2Proof.Machine

/-- What an address holds, by unit number in the machine and offset in the unit (R302). -/
inductive Place where
  | hbm (die : Nat)
  | dsram (die off : Nat)
  | spad (clu off : Nat)
  | tcm (core off : Nat)
  | doorbell (die q : Nat)
  | dieClasp (die : Nat) (i : Nat)
  | clasp (clu : Nat) (i : Nat)
  | asyclr (die : Nat)
  | pgreq (die : Nat)
  | lateans (die : Nat)
  | pwrctl (die j : Nat)
  | refcnt (die j : Nat)
  | nothing
  deriving DecidableEq, Repr

/-- An MMIO register stands at every multiple of 8 of its block; other offsets of one register belong to it (R199). -/
def mmioPlace (d : Nat) (o : Nat) : Place :=
  if o < 0x20000 then .doorbell d (o / 8)
  else if 0x100000 ≤ o ∧ o < 0x100800 then .dieClasp d ((o - 0x100000) / 8)
  else if 0x200000 ≤ o ∧ o < 0x208000 ∧ o % 0x1000 < 512 then
    .clasp (8 * d + (o - 0x200000) / 0x1000) (o % 0x1000 / 8)
  else if 0x300000 ≤ o ∧ o < 0x300008 then .asyclr d
  else if 0x400000 ≤ o ∧ o < 0x400008 then .pgreq d
  else if 0x400008 ≤ o ∧ o < 0x400010 then .lateans d
  else if 0x1000000 ≤ o ∧ o < 0x1030000 then
    if o % 0x10000 < 8 then .pwrctl d ((o - 0x1000000) / 0x10000)
    else if o % 0x10000 < 16 then .refcnt d ((o - 0x1000000) / 0x10000) else .nothing
  else .nothing

/-- What physical address pa holds in its package (R194, R302): nothing on a die out of service, or in the alias, which resolve
replaces first. -/
def State.place (s : State) (pa : Nat) : Place :=
  let p := pa / 2 ^ 46
  let a := pa % 2 ^ 46
  let d := if a < Config.hbmBytes then 4 * p + a / Config.dieRegion else 4 * p + (a / 2 ^ 40) % 16
  if a < Config.hbmBytes then if (s.dieAt d).down then .nothing else .hbm d
  else
    let o := a % 2 ^ 40
    if (a / 2 ^ 40) % 16 ≥ 4 then .nothing
    else if (s.dieAt d).down then .nothing
    else if a / 2 ^ 44 = 2 then
      if o < 0x4000000 then .dsram d o
      else if 0x100000000 ≤ o ∧ o < 0x108000000 ∧ o % 0x1000000 < 0x800000 then
        .spad (8 * d + (o - 0x100000000) / 0x1000000) (o % 0x1000000)
      else if 0x200000000 ≤ o ∧ o < 0x208000000 then
        .tcm (16 * (8 * d + (o - 0x200000000) / 0x1000000) + o % 0x1000000 / 0x100000) (o % 0x100000)
      else .nothing
    else if a / 2 ^ 44 = 3 then mmioPlace d o
    else .nothing

/-- What an access from package pkg finds there: nothing in a package its domain map does not list (R343), nor in another that has
stopped answering (R363). -/
def State.seen (s : State) (pkg pa : Nat) : Place :=
  if s.listed pkg (pa / 2 ^ 46) && (pa / 2 ^ 46 == pkg || !(s.pkgAt (pa / 2 ^ 46)).silent) then s.place pa else .nothing

/-- The MMIO range (R194). -/
def inMmio (pa : Nat) : Bool := pa % 2 ^ 46 / 2 ^ 44 == 3

/-- Memory that holds bytes: HBM and the SRAMs. -/
def Place.isMem : Place → Bool
  | .hbm _ | .dsram _ _ | .spad _ _ | .tcm _ _ => true
  | _ => false

/-- Memory number of TINFO for MEMUE (R227). -/
def Place.memNo : Place → Nat
  | .tcm _ _ => 1
  | .spad _ _ => 2
  | .dsram _ _ => 3
  | _ => 4

/-- The scratchpad granule at an address: cluster and index (R249). -/
def Place.granule : Place → Option (Nat × Nat)
  | .spad clu off => some (clu, off / 4096)
  | _ => none

/-- Base addresses of the SRAM windows (R302). -/
def dsramBase (die : Nat) : Nat := die / 4 * 2 ^ 46 + 0x200000000000 + die % 4 * 2 ^ 40
def spadBase (clu : Nat) : Nat := dsramBase (clu / 8) + 0x100000000 + clu % 8 * 0x1000000
def tcmBase (core : Nat) : Nat := dsramBase (core / 128) + 0x200000000 + core / 16 % 8 * 0x1000000 + core % 16 * 0x100000

/-- The address an access reaches for the context it serves (R367): a local alias of the context's own package becomes the
real window; for an agent that serves no context, and on another package, the alias stays and holds nothing. -/
def resolve (ctx : Option Nat) (pa : Nat) : Nat :=
  match ctx with
  | none => pa
  | some g =>
    if pa / 2 ^ 46 ≠ pkgOf g then pa
    else
      let a := pa % 2 ^ 46
      let o := a % 2 ^ 40
      if a / 2 ^ 40 ≠ 0x2F then pa
      else if o < 0x100000 then tcmBase (coreOf g) + o
      else if 0x100000000 ≤ o ∧ o < 0x100800000 then spadBase (clusterOf g) + (o - 0x100000000)
      else if 0x200000000 ≤ o ∧ o < 0x204000000 then dsramBase (dieOf g) + (o - 0x200000000)
      else pa

/-! Stored bytes and their meaning under a line's tag. -/

/-- Little-endian value of bytes. -/
def leNat : List Byte → Nat
  | [] => 0
  | b :: t => b.toNat + 256 * leNat t

/-- n little-endian bytes of a value. -/
def leBytes : Nat → Nat → List Byte
  | 0, _ => []
  | n + 1, v => BitVec.ofNat 8 v :: leBytes n (v / 256)

/-- n stored bytes from pa, as they lie in the arrays (R310's image, R312's raw view). -/
def State.rawBytes (s : State) (pa : Nat) : Nat → List Byte
  | 0 => []
  | n + 1 => tabGet 0 s.mem pa :: State.rawBytes s (pa + 1) n

/-- No write waits for a sector. -/
def Unencoded.none : Unencoded := ⟨0, []⟩

/-- The byte that a raw read finds: the stored one, or the one from before the writes that wait in a line buffer (R312, R313). -/
def State.rawByte (s : State) (pa : Nat) : Byte :=
  let e := tabGet Unencoded.none s.unencoded (pa / 32)
  if e.writers = [] then tabGet 0 s.mem pa else e.old.extractLsb' (8 * (pa % 32)) 8

/-- n bytes from pa as a raw read finds them. -/
def State.rawSeen (s : State) (pa : Nat) : Nat → List Byte
  | 0 => []
  | n + 1 => s.rawByte pa :: State.rawSeen s (pa + 1) n

/-- Sign extension of a w-bit pattern to 64 bits, as a Nat. -/
def sext64 (w v : Nat) : Nat := if v % 2 ^ w < 2 ^ (w - 1) then v % 2 ^ w else v % 2 ^ w + (2 ^ 64 - 2 ^ w)

/-- The deltas of a compressed line: 16 fields of w bytes from byte 8 of the image, added to w0 modulo 2^64 (R310). -/
def expand (w0 w : Nat) (img : List Byte) : Nat → List Byte
  | 0 => []
  | n + 1 => leBytes 8 ((w0 + sext64 (8 * w) (leNat (img.take w))) % 2 ^ 64) ++ expand w0 w (img.drop w) n

/-- The 128 bytes a stored line decodes to; none for a tag that is never written (R310). -/
def decodeLine (tag : Nat) (img : List Byte) : Option (List Byte) :=
  let w0 := leNat (img.take 8)
  match tag with
  | 0 => some img
  | 1 => some (List.replicate 128 0)
  | 2 => some (List.replicate 16 (leBytes 8 w0)).flatten
  | 3 => some (expand w0 1 (img.drop 8) 16)
  | 4 => some (expand w0 2 (img.drop 8) 16)
  | 5 => some (expand w0 4 (img.drop 8) 16)
  | _ => none

/-- The 16 words of a line. -/
def lineWords : List Byte → Nat → List Nat
  | _, 0 => []
  | bs, n + 1 => leNat (bs.take 8) :: lineWords (bs.drop 8) n

/-- A delta fits a signed field of w bytes. -/
def fitsDelta (w : Nat) (w0 wi : Nat) : Bool :=
  let d := (wi + 2 ^ 64 - w0) % 2 ^ 64
  decide (d < 2 ^ (8 * w - 1)) || decide (2 ^ 64 - 2 ^ (8 * w - 1) ≤ d)

/-- Tag and image of a line: the first encoding that fits, in the order 1, 2, 3, 4, 5, 0 when cz, else tag 0 (R311). The
image is written in whole bursts, zeros past its end; bursts past it are not written (R310). -/
def encodeLine (cz : Bool) (bs : List Byte) : Nat × List Byte :=
  let ws := lineWords bs 16
  let w0 := ws.headD 0
  let deltas (w : Nat) := (ws.map fun wi => leBytes w ((wi + 2 ^ 64 - w0) % 2 ^ 64)).flatten
  if !cz then (0, bs)
  else if ws.all (· == 0) then (1, [])
  else if ws.all (· == w0) then (2, leBytes 8 w0 ++ List.replicate 24 0)
  else if ws.all (fitsDelta 1 w0) then (3, leBytes 8 w0 ++ deltas 1 ++ List.replicate 8 0)
  else if ws.all (fitsDelta 2 w0) then (4, leBytes 8 w0 ++ deltas 2 ++ List.replicate 24 0)
  else if ws.all (fitsDelta 4 w0) then (5, leBytes 8 w0 ++ deltas 4 ++ List.replicate 24 0)
  else (0, bs)

/-- Whether an address lies in HBM; only its lines have tags and digests. -/
def inHbm (pa : Nat) : Bool := decide (pa % 2 ^ 46 < Config.hbmBytes)

def State.tagOf (s : State) (line : Nat) : Nat := tabGet 0 s.tags line

/-- The 128 bytes of the line at index line, as a normal read returns them (R310). -/
def State.lineBytes (s : State) (line : Nat) : Option (List Byte) :=
  decodeLine (s.tagOf line) (s.rawBytes (128 * line) 128)

/-- n bytes of one line from offset o in it, normal aperture. -/
def State.normalPart (s : State) (line o n : Nat) : List Byte :=
  if s.tagOf line = 0 then s.rawBytes (128 * line + o) n
  else match s.lineBytes line with
    | some bs => (bs.drop o).take n
    | none => List.replicate n 0

/-- n bytes from pa through the normal aperture, line by line in HBM; fuel bounds the lines. -/
def State.normalBytes (s : State) : Nat → Nat → Nat → List Byte
  | 0, _, _ => []
  | f + 1, pa, n =>
    if n = 0 then []
    else
      let m := min n (128 - pa % 128)
      State.normalPart s (pa / 128) (pa % 128) m ++ State.normalBytes s f (pa + m) (n - m)

/-- The bytes an access reads: raw for AP 1 on HBM, decoded otherwise (R310, R312, R313). -/
def State.bytesAt (s : State) (raw : Bool) (pa n : Nat) : List Byte :=
  if !inHbm pa then s.rawBytes pa n else if raw then s.rawSeen pa n else s.normalBytes (n / 128 + 2) pa n

/-! Where a line lies, and waking its pseudo-channel (R304, R305, R307). -/

/-- The bank b of line r of 12,288 under a skew (R304). -/
def bankOf (sk r : Nat) : Nat :=
  match sk with
  | 0 =>
    let k := r / 192
    192 * k + (r % 192 + 3 * (k ^^^ (k / 8))) % 192
  | 2 => if r < 12224 then 192 * (r / 191) + r % 191 else 192 * (r - 12224) + 191
  | _ => r

/-- The line that line j of a tensor page of P lines is placed as (R305). -/
def tensorLine (rl p j : Nat) : Nat :=
  if j < p / rl * rl then
    let t := j / rl
    t * rl + (j % rl + 768 * (t % 4)) % rl
  else j

/-- Die and die bank of a line, its page stored under lay (R301, R304, R305). -/
def bankAt (lay : Lay) (line : Nat) : Nat × Nat :=
  let placed := if lay.sk = 3 ∧ lay.rl ≠ 0 then line / lay.page * lay.page + tensorLine lay.rl lay.page (line % lay.page) else line
  let a := 128 * placed % 2 ^ 46
  let die := a / Config.dieRegion
  (4 * (128 * line / 2 ^ 46) + die, bankOf lay.sk ((a - die * Config.dieRegion) / 128 % 12288))

/-- The pseudo-channel of a line stored under lay (R304). -/
def chanOf (lay : Lay) (line : Nat) : Nat :=
  let d := bankAt lay line
  (3 * d.1 + d.2 % 192 / 64) * 64 + d.2 % 64

/-- A request wakes the pseudo-channels of the lines it touches: n bytes from pa in HBM (R307). -/
def State.wake (s : State) (lay : Lay) (pa n : Nat) : State :=
  if s.chans = [] || !inHbm pa then s
  else
    let active (cs : Tab Chan) (j : Nat) : Tab Chan :=
      let key := chanOf lay (pa / 128 + j)
      if 128 * (pa / 128 + j) < pa + n then tabSet Chan.reset cs key { tabGet Chan.reset cs key with power := .active } else cs
    { s with chans := (List.range (n / 128 + 2)).foldl active s.chans }

/-- A request wakes pseudo-channel n. -/
def State.wakeChan (s : State) (n : Nat) : State :=
  if s.chans = [] then s
  else { s with chans := tabSet Chan.reset s.chans n { tabGet Chan.reset s.chans n with power := .active } }

/-! Errors in protected units (R340). -/

/-- First byte and length of the protected unit of an address: 32 bytes of HBM, 8 bytes elsewhere. -/
def unitLen (pa : Nat) : Nat := if inHbm pa then 32 else 8
def unitOf (pa : Nat) : Nat := pa - pa % unitLen pa

/-- Does a read of this unit fail now? -/
def Bad.failing (b : Bad) : Bool := b.lasting || b.poison || b.left != some 0

/-- What one read leaves of an error, whether the read fails, and how the error is classed by it: a first read that fails
waits for its retry, the next read is the retry, and an error whose retry has failed is reported by every read (R340). -/
def Bad.read (b : Bad) (lay : Lay) : Bad × Bool × Option Count :=
  if b.lasting then (b, true, none)
  else if b.failing then
    if b.erred.isSome then ({ b with lasting := true }, true, some .lasting)
    else ({ b with left := b.left.map (· - 1), erred := some lay }, true, none)
  else if b.erred.isSome then ({ b with erred := none }, false, some .transient)
  else (b, false, none)

def State.badAt (s : State) (u : Nat) : Bad := tabGet Bad.clean s.bad u
def State.setBad (s : State) (u : Nat) (b : Bad) : State := { s with bad := tabSet Bad.clean s.bad u b }

/-- What the histograms count an error at an address under (R341): the pseudo-channel, or the row group. -/
def errUnitAt (lay : Lay) (pa : Nat) : ErrUnit :=
  if inHbm pa then .chan (chanOf lay (pa / 128)) else .row (pa / 2 ^ 46) (pa % 2 ^ 46 / 2 ^ 16)

/-- Count an error that a read has classed (R340, R341). -/
def State.classed (s : State) (u : ErrUnit) : Option Count → State
  | none => s
  | some c => s.countError c u

/-- One read of a unit, and whether it failed (R340). -/
def State.readUnit (s : State) (lay : Lay) (u : Nat) : State × Bool :=
  let r := (s.badAt u).read lay
  ((s.setBad u r.1).classed (errUnitAt lay u) r.2.2, r.2.1)

/-- Read units in order, each with the address it is read for, up to the first that fails: its address, if any. -/
def State.readUnits (s : State) (lay : Lay) : List (Nat × Nat) → State × Option Nat
  | [] => (s, none)
  | (u, pa) :: t =>
    match s.readUnit lay u with
    | (s1, true) => (s1, some pa)
    | (s1, false) => State.readUnits s1 lay t

/-- The units that hold n bytes from pa, each with its first byte among them. -/
def unitsAt : Nat → Nat → Nat → List (Nat × Nat)
  | 0, _, _ => []
  | f + 1, pa, n =>
    if n = 0 then []
    else
      let m := min n (unitLen pa - pa % unitLen pa)
      (unitOf pa, pa) :: unitsAt f (pa + m) (n - m)

/-- The bursts of its image that a tag needs (R310). -/
def tagBursts : Nat → Nat
  | 0 => 4
  | 2 | 3 => 1
  | 4 => 2
  | 5 => 3
  | _ => 0

/-- The units that a read of n bytes of one HBM line from pa needs: those of the bytes; of a line under another tag than 0 the
bursts of its image (R310, R312). -/
def State.partUnits (s : State) (raw : Bool) (pa n : Nat) : List (Nat × Nat) :=
  let tag := s.tagOf (pa / 128)
  if raw || tag == 0 then unitsAt 5 pa n else (List.range (tagBursts tag)).map fun j => (pa / 128 * 128 + 32 * j, pa)

/-- The error a read of HBM meets, line by line: a tag no write leaves, or a failing burst. -/
def State.readParts (s : State) (lay : Lay) : Nat → Nat → Nat → State × Option Nat
  | 0, _, _ => (s, none)
  | f + 1, pa, n =>
    if n = 0 then (s, none)
    else
      let m := min n (128 - pa % 128)
      if !lay.raw && decide (5 < s.tagOf (pa / 128)) then (s, some pa)
      else match (if s.bad = [] then (s, none) else s.readUnits lay (s.partUnits lay.raw pa m)) with
        | (s1, some e) => (s1, some e)
        | (s1, none) => State.readParts s1 lay f (pa + m) (n - m)

/-- The error a read of n bytes from pa meets, if any: an uncorrectable unit, or a tag no write leaves. With no error in
the machine no unit is looked up. -/
def State.checkRead (s0 : State) (lay : Lay) (pa n : Nat) : State × Option Nat :=
  let s := s0.wake lay pa n
  if inHbm pa then s.readParts lay (n / 128 + 2) pa n
  else if s.bad = [] then (s, none) else s.readUnits lay (unitsAt (n / 8 + 2) pa n)

/-- The bytes pa .. pa + n - 1 and those of a unit have one in common. -/
def meetsUnit (u pa n : Nat) : Bool := decide (u < pa + n) && decide (pa < u + unitLen u)

/-- A unit that a read of the lines of pa .. pa + n - 1 finds in error leaves the bytes read from it free: its own, or those of its
whole line where that is encoded (log 5, DESIGN CHOICE). -/
def State.freeUnit (s : State) (fresh u : Nat) : State :=
  let whole := inHbm u && s.tagOf (u / 128) != 0
  let lo := if whole then u / 128 * 128 else u
  let n := if whole then 128 else unitLen u
  { s with
    mem := ((List.range n).foldl (fun m j => tabSet 0 m (lo + j) (Config.freeByte (fresh + j))) s.mem)
    tags := if whole then tabSet 0 s.tags (u / 128) 0 else s.tags }

/-- The device reads pa .. pa + n - 1 for itself, a read of every unit there: the machine after it, and the machine as the read
sees it, with free bytes where an error stands (R307, R340; no rule gives the value: log 5, DESIGN CHOICE). -/
def State.deviceView (s : State) (pa n : Nat) : State × State :=
  let t := s.wake Lay.plain pa n
  if t.bad = [] then (t, t)
  else
    ((t.bad.map (·.1)).filter fun u => meetsUnit u pa n).foldl (fun r u =>
      match r.1.readUnit Lay.plain u with
      | (s1, false) => (s1, r.2)
      | (s1, true) => ({ s1 with fresh := s1.fresh + 128 }, r.2.freeUnit s1.fresh u)) (t, t)

/-- The code of a unit is written anew: good, or in a form that reports an error until a whole write (R340). -/
def State.recode (s : State) (u : Nat) (poison : Bool) : State :=
  let b := s.badAt u
  if b.poison == poison then s else s.setBad u { b with poison := poison }

/-- A write over units: a whole unit takes new data and code; a part is merged after a read, and a failing read leaves a
unit that reports an error until a whole write (R340). -/
def State.writeUnits (s : State) (lay : Lay) : Nat → Nat → Nat → State
  | 0, _, _ => s
  | f + 1, pa, n =>
    if n = 0 then s
    else
      let m := min n (unitLen pa - pa % unitLen pa)
      let u := unitOf pa
      let s1 :=
        if m = unitLen pa then s.recode u false
        else match s.readUnit lay u with
          | (s2, true) => s2.recode u true
          | (s2, false) => s2
      State.writeUnits s1 lay f (pa + m) (n - m)

/-- The bursts that a write of n bytes of a line re-encodes: for less than a whole line those that decode it are read first,
every one of them; the bursts of the new image, k of them, are written, with a code that reports an error when a read has
failed (R310, R311, R340). -/
def State.recodeLine (s : State) (lay : Lay) (line n k : Nat) : State :=
  let r := if n = 128 then (s, false)
    else (s.partUnits false (128 * line) 128).foldl (fun a u =>
      let b := a.1.readUnit lay u.1
      (b.1, a.2 || b.2)) (s, false)
  (List.range k).foldl (fun t j => t.recode (128 * line + 32 * j) r.2) r.1

/-! The assay digest (R324). -/

/-- One bit of CRC-64/XZ, reflected. -/
def crcStep (c : BitVec 64) : BitVec 64 :=
  if c.getLsbD 0 then (c >>> 1) ^^^ 0xC96C5795D7870F42#64 else c >>> 1

def crcByte (c : BitVec 64) (b : Byte) : BitVec 64 :=
  crcStep (crcStep (crcStep (crcStep (crcStep (crcStep (crcStep (crcStep (c ^^^ b.zeroExtend 64))))))))

/-- CRC-64/XZ: initial value and final XOR all ones. -/
def crc64 (bs : List Byte) : BitVec 64 := ~~~(bs.foldl crcByte (BitVec.allOnes 64))

/-- H of R324: over the line's address as 8 bytes, then its 128 bytes. -/
def lineHash (line : Nat) (bs : List Byte) : BitVec 64 := crc64 (leBytes 8 (128 * line) ++ bs)

/-! Writes. -/

/-- Who makes an access: the context it serves, its class, session and assay id, and its kind and number for the watch
record (R233). -/
structure Agent where
  ctx : Option Nat
  cls : Cls
  session : BitVec 32
  assay : Option (Fin 256)
  kind : Nat
  number : Nat
  deriving DecidableEq, Repr

/-- Put bytes into the arrays as they stand. -/
def State.putRaw (s : State) (pa : Nat) : List Byte → State
  | [] => s
  | b :: t => State.putRaw { s with mem := tabSet 0 s.mem pa b } (pa + 1) t

/-- The stack whose assay unit counts a line, 12 to a package (R301, R304). -/
def stackOf (lay : Lay) (line : Nat) : Nat :=
  let d := bankAt lay line
  3 * d.1 + d.2 % 192 / 64

def State.addAssay (s : State) (stack : Nat) (id : Fin 256) (d : Word) : State :=
  let key := stack * 256 + id.val
  { s with assay := tabSet 0 s.assay key (tabGet 0 s.assay key + d) }

/-- One part of one HBM line: decode, merge, encode (R311), or as given through the raw aperture (R312); with the line's
contribution to the digest (R324). -/
def State.putLine (s : State) (id : Option (Fin 256)) (lay : Lay) (line o : Nat) (bs : List Byte) : State :=
  let before := (s.lineBytes line).getD (List.replicate 128 0)
  let s1 :=
    if lay.raw || (!lay.cz && s.tagOf line == 0) then
      (if s.bad = [] then s else s.writeUnits lay 5 (128 * line + o) bs.length).putRaw (128 * line + o) bs
    else
      let after := before.take o ++ bs ++ before.drop (o + bs.length)
      let e := encodeLine lay.cz after
      let t := if s.bad = [] then s else s.recodeLine lay line bs.length (e.2.length / 32)
      { (t.putRaw (128 * line) e.2) with tags := tabSet 0 s.tags line e.1 }
  match id with
  | none => s1
  | some i =>
    let after := (s1.lineBytes line).getD (List.replicate 128 0)
    s1.addAssay (stackOf lay line) i (lineHash line after - lineHash line before)

/-- Bytes over HBM, line by line; fuel bounds the lines. -/
def State.putLines (s : State) (id : Option (Fin 256)) (lay : Lay) : Nat → Nat → List Byte → State
  | 0, _, _ => s
  | f + 1, pa, bs =>
    if bs = [] then s
    else
      let m := 128 - pa % 128
      State.putLines (s.putLine id lay (pa / 128) (pa % 128) (bs.take m)) id lay f (pa + m) (bs.drop m)

/-- Bytes of any memory, with the errors of partly written units (R340). -/
def State.putBytes (s0 : State) (id : Option (Fin 256)) (lay : Lay) (pa : Nat) (bs : List Byte) : State :=
  let s := s0.wake lay pa bs.length
  if inHbm pa then s.putLines id lay (bs.length / 128 + 2) pa bs
  else (if s.bad = [] then s else s.writeUnits lay (bs.length / 8 + 2) pa bs.length).putRaw pa bs

/-! Watchpoints (R232, R233). -/

/-- Does watch n of a context cover a byte of pa .. pa + len - 1, with its class and kind enabled? -/
def watchOn (w : Word) (ctl : Word) (n : Fin 4) (cls : Cls) (rd wr : Bool) (pa len : Nat) : Bool :=
  let sz := (w.extractLsb' 58 6).toNat
  let base := w.toNat % 2 ^ 52 / 2 ^ sz * 2 ^ sz
  let ci := match cls with
    | .ls => 0
    | .mxl => 1
    | .ccopy => 2
    | .dcopy => 3
    | .seam => 4
    | .coll => 5
    | .disp => 6
    | .enc => 7
    | .host => 8
  ctl.getLsbD (16 * n.val) && ctl.getLsbD (16 * n.val + 4 + ci) &&
    ((rd && ctl.getLsbD (16 * n.val + 1)) || (wr && ctl.getLsbD (16 * n.val + 2))) &&
    decide (6 ≤ sz) && decide (sz ≤ 51) && decide (pa < base + 2 ^ sz) && decide (base < pa + len)

/-- The watches of a context that an access matches, lowest number first. -/
def Ctx.matches (c : Ctx) (cls : Cls) (rd wr : Bool) (pa len : Nat) : List (Fin 4) :=
  if c.watchctl = 0 then []
  else ([0, 1, 2, 3] : List (Fin 4)).filter fun n => watchOn c.watch[n] c.watchctl n cls rd wr pa len

/-- TINFO bits 55:52 of a match (R227): number of the lowest watch, write, more than one. -/
def watchDetail (ms : List (Fin 4)) (wr : Bool) : BitVec 4 :=
  BitVec.ofNat 2 (ms.headD 0).val ++ BitVec.ofBool wr ++ BitVec.ofBool (decide (1 < ms.length))

/-- The first byte of pa .. pa + len - 1 that lies in a watch's region. -/
def watchFirst (w : Word) (pa : Nat) : Nat :=
  let sz := (w.extractLsb' 58 6).toNat
  max pa (w.toNat % 2 ^ 52 / 2 ^ sz * 2 ^ sz)

/-- Is the write one that context g's own LS or MXL access makes (checked before, precisely)? -/
def Agent.ownOf (a : Agent) (g : Nat) : Bool := a.ctx == some g && (a.cls == .ls || a.cls == .mxl)

/-- Queue a watch event for one context when another agent's write matches (R233): one is kept, more add to LOST. -/
def Ctx.noteWrite (c : Ctx) (g : Nat) (a : Agent) (pa len : Nat) : Ctx :=
  if c.watchctl = 0 || a.ownOf g then c
  else
    match c.matches a.cls false true pa len with
    | [] => c
    | n :: t =>
      match c.event with
      | some _ => { c with lost := if c.lost = BitVec.allOnes 32 then c.lost else c.lost + 1 }
      | none =>
        { c with event := some {
            start := pa
            pa := watchFirst c.watch[n] pa
            cls := BitVec.ofNat 8 (match a.cls with
              | .ls => 0
              | .mxl => 1
              | .ccopy => 2
              | .dcopy => 3
              | .seam => 4
              | .coll => 5
              | .disp => 6
              | .enc => 7
              | .host => 8)
            kind := BitVec.ofNat 8 a.kind
            agent := BitVec.ofNat 16 a.number
            detail := watchDetail (n :: t) true } }

/-- Every context that watches sees a write (R233). -/
def State.noteWrite (s : State) (a : Agent) (pa len : Nat) : State :=
  { s with
    c := s.c.noteWrite s.here a pa len
    ctxs := s.ctxs.map fun e => (e.1, e.2.noteWrite e.1 a pa len) }

/-- The assay id a write carries to an address: none across the fabric (R344). -/
def Agent.assayAt (a : Agent) (pa : Nat) : Option (Fin 256) :=
  match a.ctx with
  | some g => if pkgOf g = pa / 2 ^ 46 then a.assay else none
  | none => none

/-- The agent as the memory at an address sees it: one of another package is that package (R233). -/
def Agent.seenAt (a : Agent) (pa : Nat) : Agent :=
  match a.ctx with
  | some g => if pkgOf g = pa / 2 ^ 46 then a else { a with kind := 8, number := pkgOf g }
  | none => a

/-! Line buffers (R313). -/

/-- The sectors of the lines that n bytes from pa touch. -/
def sectorsOf (pa n : Nat) : List Nat := (List.range (4 * ((pa + n + 127) / 128 - pa / 128))).map (pa / 128 * 4 + ·)

/-- What waits in line buffers once writer w has written n bytes from pa over s: of every sector what raw reads have found so far. -/
def State.buffer (s : State) (w : Nat × Cls) (pa n : Nat) : Tab Unencoded :=
  (sectorsOf pa n).foldl (fun u k =>
    let e := tabGet Unencoded.none s.unencoded k
    tabSet Unencoded.none u k
      ⟨BitVec.ofNat 256 (leNat (s.rawSeen (32 * k) 32)), if e.writers.contains w then e.writers else w :: e.writers⟩) s.unencoded

/-- A raw write is found by raw reads at once. -/
def patchRaw : Tab Unencoded → Nat → List Byte → Tab Unencoded
  | u, _, [] => u
  | u, pa, b :: t =>
    let e := tabGet Unencoded.none u (pa / 32)
    let sh := 8 * (pa % 32)
    let v := if e.writers = [] then u
      else tabSet Unencoded.none u (pa / 32) { e with old := (e.old &&& ~~~(255#256 <<< sh)) ||| (b.zeroExtend 256 <<< sh) }
    patchRaw v (pa + 1) t

/-- What waits in line buffers after a write of n bytes over s: one of a context or of an engine of its waits itself; one of a seam
unit or of an agent that serves no context has the lines encoded (log 53, DEDUCED). -/
def State.waiting (s : State) (a : Agent) (lay : Lay) (pa : Nat) (bs : List Byte) : Tab Unencoded :=
  if !inHbm pa then s.unencoded
  else if lay.raw then patchRaw s.unencoded pa bs
  else match a.ctx, a.cls with
    | none, _ | some _, .seam =>
      if s.unencoded = [] then []
      else s.unencoded.filter fun e => !(sectorsOf pa bs.length).contains e.1
    | some g, cls => s.buffer (g, cls) pa bs.length

/-- The writes of context g of the classes ok are performed at PACKAGE scope (R216, R313). -/
def State.encoded (s : State) (g : Nat) (ok : Cls → Bool) : State :=
  { s with unencoded := s.unencoded.filter fun e => !e.2.writers.any fun w => w.1 == g && ok w.2 }

/-- Scopes that contain every agent of the package. -/
def atPackage : Scope → Bool
  | .package | .memory | .host | .domain | .system => true
  | .lane | .slice | .core | .cluster | .die | .bank | .stack => false

/-- The same for fence and the atomics, for which BANK and STACK act as PACKAGE (R114, R217). -/
def actsAtPackage (sc : Scope) : Bool := atPackage sc || sc == .bank || sc == .stack

/-- A write of any agent to memory: the bytes, the digest, the watch events. -/
def State.write (s : State) (a : Agent) (lay : Lay) (pa : Nat) (bs : List Byte) : State :=
  { (s.putBytes (a.assayAt pa) lay pa bs).noteWrite (a.seenAt pa) pa bs.length with unencoded := s.waiting a lay pa bs }

/-! Session pins (R259). -/

/-- The session a granule is pinned to; 0 when unpinned. -/
def State.pinAt (s : State) (pa : Nat) : BitVec 32 :=
  match (s.place pa).granule with
  | some (clu, g) => tabGet 0 (s.clusterAt clu).pins g
  | none => 0

/-- May a task of this session, on package pkg, touch the byte's granule? Pins are not checked across the fabric (R344). -/
def State.pinOk (s : State) (pkg : Nat) (session : BitVec 32) (pa : Nat) : Bool :=
  pa / 2 ^ 46 != pkg || s.pinAt pa == 0 || s.pinAt pa == session

end Sys2Proof.Machine
end

