-- ==== Sys2Proof/Machine/Walk.lean ====
section
/-! DEFINITION. Translation (R195 to R200): the walk, the permissions and apertures of each access, the order in which its
failures are reported, and the accessed and dirty bits. The device may cache entries (R201); this one never does. -/

namespace Sys2Proof.Machine

/-- What an access needs of its leaf (R198): read, write, execute, seam. -/
structure Need where
  rd : Bool
  wr : Bool
  ex : Bool
  sm : Bool
  deriving DecidableEq, Repr

def Need.read : Need := ⟨true, false, false, false⟩
def Need.write : Need := ⟨false, true, false, false⟩
def Need.both : Need := ⟨true, true, false, false⟩
def Need.fetch : Need := ⟨false, false, true, false⟩

/-- KIND of R211 and R227: bit 0 read, bit 1 write, bit 2 execute. -/
def Need.kind (n : Need) : BitVec 3 := BitVec.ofBool n.ex ++ BitVec.ofBool n.wr ++ BitVec.ofBool n.rd

/-- Which apertures an access admits (R199): a naturally aligned XMEM access admits every one, and reaches MMIO through
AP 2 when it has 8 bytes (device); with fewer (narrow) it reaches no register there (R199, R302); an atomic admits AP 0 only; any other AP 0 and 1. -/
inductive Ap where
  | device | narrow | atomic | plain
  deriving DecidableEq, Repr

/-- Why a translation gives no address: a page fault at a level with a reason, ACCESS with a reason (R199, R211), or an
uncorrectable error in what the walk reads: its address and memory number (R227, R340). -/
inductive Miss where
  | page (level reason : Nat)
  | access (reason : Nat)
  | broken (pa mem : Nat)
  deriving DecidableEq, Repr

/-- What a walk finds: the address, the leaf's fields, and the entry itself. -/
structure Leaf where
  pa : Nat
  ap : Nat
  lay : Lay
  shp : Nat
  level : Nat
  entry : Nat
  w0 : Nat
  deriving DecidableEq, Repr

def bit (w n : Nat) : Bool := w / 2 ^ n % 2 == 1
def field (w lo n : Nat) : Nat := w / 2 ^ lo % 2 ^ n

/-- An entry with V = 1 that is malformed at level lev (R195, R196); pkg is the walking package. -/
def malformed (pkg lev w0 w1 : Nat) : Bool :=
  let leaf := bit w0 1
  let pa := field w0 24 36 * 2 ^ 16
  field w0 60 4 != 0 || field w0 17 7 != 0 ||
  (leaf && decide (3 ≤ lev)) || (!leaf && lev == 0) ||
  (leaf && lev == 2 && pa / 2 ^ 16 % 2 ^ 16 != 0) || (leaf && lev == 1 && pa / 2 ^ 16 % 2 ^ 8 != 0) ||
  (leaf && (decide (3 ≤ field w0 9 3) || decide (4 ≤ field w0 12 4) || (field w0 12 4 == 3 && field w1 0 8 == 0))) ||
  (!leaf && (field w0 2 15 != 0 || field w1 0 8 != 0 || pa / 2 ^ 46 != pkg))

/-- Low bit of the index of each level, from level 5 downward, with the index width (R195). -/
def walkLevels : List (Nat × Nat × Nat) := [(5, 64, 8), (4, 52, 12), (3, 40, 12), (2, 32, 8), (1, 24, 8), (0, 16, 8)]

/-- The walk from a table base over the remaining levels (R195). -/
def State.walkFrom (s : State) (pkg va : Nat) : Nat → List (Nat × Nat × Nat) → Except Miss Leaf
  | _, [] => .error (.page 0 1)
  | base, (lev, lo, wd) :: t =>
    let entry := base + field va lo wd * 16
    let w0 := leNat (s.bytesAt false entry 8)
    let w1 := leNat (s.bytesAt false (entry + 8) 8)
    if !bit w0 0 then .error (.page lev 0)
    else if malformed pkg lev w0 w1 then .error (.page lev 1)
    else
      let pa := field w0 24 36 * 2 ^ 16
      if bit w0 1 then
        .ok { pa := pa / 2 ^ lo * 2 ^ lo + va % 2 ^ lo
              ap := field w0 9 3
              lay := ⟨field w0 9 3 == 1, bit w0 16, field w0 12 4, 0, 2 ^ lo / 128⟩
              shp := field w1 0 8
              level := lev
              entry := entry
              w0 := w0 }
      else State.walkFrom s pkg va pa t

/-- The walk of a virtual address under a PTROOT, by an agent of package pkg: a ROOT of another package stops it at level 5
(R195). -/
def State.walk (s : State) (pkg : Nat) (root : Word) (va : Nat) : Except Miss Leaf :=
  let base := field root.toNat 16 36 * 2 ^ 16
  if base / 2 ^ 46 ≠ pkg then .error (.page 5 1) else s.walkFrom pkg va base walkLevels

/-- The shape record of a tensor leaf: valid, zero fields zero, RL not 0 (R305); an SHP of 64 or more has none. -/
def State.shapeOk (s : State) (root : Word) (shp : Nat) : Bool :=
  let pa := field root.toNat 16 36 * 2 ^ 16 + 0x1000 + 16 * shp
  let w0 := leNat (s.bytesAt false pa 8)
  let w1 := leNat (s.bytesAt false (pa + 8) 8)
  decide (shp < 64) && bit w0 0 && field w0 1 15 == 0 && field w0 16 16 != 0 && field w0 32 32 == 0 && w1 == 0

/-- Lines per tile row of a shape record (R305). -/
def State.shapeRl (s : State) (root : Word) (shp : Nat) : Nat :=
  field (leNat (s.bytesAt false (field root.toNat 16 36 * 2 ^ 16 + 0x1000 + 16 * shp) 8)) 16 16

/-- The access a leaf admits, in the order of R199: permission (0), aperture (1), no memory (3). The address is the
resolved one. -/
def State.leafMiss (s : State) (pkg : Nat) (root : Word) (l : Leaf) (pa : Nat) (n : Need) (ap : Ap) : Option Nat :=
  let perm := (!n.rd || bit l.w0 2) && (!n.wr || bit l.w0 3) && (!n.ex || bit l.w0 4) && (!n.sm || bit l.w0 5)
  let apOk := match ap with
    | .device => l.ap == 2 || !inMmio pa
    | .narrow => !inMmio pa || (l.ap == 2 && s.seen pkg pa == .nothing)
    | .atomic => l.ap == 0 && !inMmio pa
    | .plain => l.ap != 2 && !inMmio pa
  if !perm then some 0
  else if !apOk then some 1
  else if inHbm pa && l.lay.sk == 3 && !s.shapeOk root l.shp then some 1
  else if s.seen pkg pa == .nothing then some 3
  else none

/-- Set AC, and DT for a write, in the entry (R200). -/
def State.setUsed (s : State) (l : Leaf) (wr : Bool) : State :=
  let w := l.w0 ||| 0x80 ||| (if wr then 0x100 else 0)
  if w = l.w0 then s else s.putBytes none Lay.plain l.entry (leBytes 8 w)

/-- Who translates: the context served, its package, and its tables. -/
structure View where
  ctx : Option Nat
  pkg : Nat
  root : Word
  deriving DecidableEq, Repr

/-- The entries that a walk reads, from the first table on (R195). -/
def State.walkReads (s : State) (pkg va : Nat) : Nat → List (Nat × Nat × Nat) → List Nat
  | _, [] => []
  | base, (lev, lo, wd) :: t =>
    let entry := base + field va lo wd * 16
    let w0 := leNat (s.bytesAt false entry 8)
    let w1 := leNat (s.bytesAt false (entry + 8) 8)
    entry :: (if !bit w0 0 || malformed pkg lev w0 w1 || bit w0 1 then []
      else State.walkReads s pkg va (field w0 24 36 * 2 ^ 16) t)

/-- One read of a walk: it wakes the pseudo-channel it reaches, and is a read of the units it needs (R307, R340). -/
def State.readEntry (s : State) (e : Nat) : State × Option Nat :=
  let t := s.wake Lay.plain e 16
  if t.bad = [] then (t, none)
  else t.readUnits Lay.plain (if inHbm e then t.partUnits false e 16 else unitsAt 3 e 16)

/-- Reads in order, up to the first that meets an error: its address. -/
def State.readEntries (s : State) : List Nat → State × Option Nat
  | [] => (s, none)
  | e :: es =>
    match s.readEntry e with
    | (t, some pa) => (t, some pa)
    | (t, none) => State.readEntries t es

/-- The reads of a walk: of its entries, and of the shape record of a tensor leaf (R195, R305). -/
def State.readWalk (s : State) (v : View) (va : Nat) : State × Option Nat :=
  let base := field v.root.toNat 16 36 * 2 ^ 16
  if (s.chans = [] && s.bad = []) || base / 2 ^ 46 != v.pkg then (s, none)
  else
    let shape := match s.walk v.pkg v.root va with
      | .ok l => if inHbm l.pa && l.lay.sk == 3 then [base + 0x1000 + 16 * l.shp] else []
      | .error _ => []
    s.readEntries (s.walkReads v.pkg va base walkLevels ++ shape)

/-- Translate one access (R195 to R200): the state with the used bits set, and the leaf with its resolved address. -/
def State.translate (s0 : State) (v : View) (va : Nat) (n : Need) (ap : Ap) : State × Except Miss Leaf :=
  match s0.readWalk v va with
  | (s, some pa) => (s, .error (.broken pa (s.place pa).memNo))
  | (s, none) =>
    match s.walk v.pkg v.root va with
    | .error e => (s, .error e)
    | .ok l =>
      let pa := resolve v.ctx l.pa
      match s.leafMiss v.pkg v.root l pa n ap with
      | some r => (s, .error (.access r))
      | none =>
        let rl := if inHbm pa && l.lay.sk == 3 then s.shapeRl v.root l.shp else 0
        (s.setUsed l n.wr, .ok { l with pa := pa, lay := { l.lay with rl := rl } })

end Sys2Proof.Machine
end

