-- ==== Sys2Proof/Machine/Ops.lean ====
section
/-! DEFINITION. The shared operations of every instruction: reading and writing registers, advancing, the causes and
fields of traps (R226, R227), taking a trap and the double fault (R224, R229), the context's own memory accesses with
watchpoints, pins, uncorrectable errors and held stores (R210, R213, R233, R259, R270). -/

namespace Sys2Proof.Machine

/-- What an instruction answers. -/
abbrev Out := Host.Outcome State Fault Refusal

/-! Registers. -/

/-- Handler mode (R103). -/
def State.hnd (s : State) : Bool := s.c.hnd

/-- A scalar register as an instruction reads it at issue: x0 is zero, and a lane inside a block reads the copy its vfetch
took (R105, R124). -/
def State.rx (s : State) (r : XReg) : Word :=
  if r = 0 then 0 else if s.laneSel.isSome then s.c.thrX[r] else s.c.x[r]

/-- Write a scalar register: x0 discards; a fixed-latency result still to come for it is discarded (R99, R108). -/
def State.wx (s : State) (r : XReg) (v : Word) : State :=
  if r = 0 then s
  else { s with c := { s.c with x := s.c.x.set r v, pending := s.c.pending.filter fun p => p.reg != r } }

/-- A mask: m0 reads all ones (R51). -/
def Ctx.rm (c : Ctx) (m : MReg) : BitVec 4096 := if m = 0 then BitVec.allOnes 4096 else c.m[m]

def State.rm (s : State) (m : MReg) : BitVec 4096 := s.c.rm m

/-- Write a mask: m0 discards (R51). -/
def State.wm (s : State) (m : MReg) (v : BitVec 4096) : State :=
  if m = 0 then s else { s with c := { s.c with m := s.c.m.set m v } }

def State.rv (s : State) (r : VReg) : BitVec 4096 := s.c.v[r]
def State.wv (s : State) (r : VReg) (v : BitVec 4096) : State := { s with c := { s.c with v := s.c.v.set r v } }
def State.rd (s : State) (d : DReg) : Desc := s.c.d[d]
def State.wd (s : State) (d : DReg) (v : Desc) : State := { s with c := { s.c with d := s.c.d.set d v } }

/-- Set the address of the next instruction. -/
def State.goto (s : State) (pc : Word) : State := { s with c := { s.c with pc := pc } }

/-- Done with this instruction: the next one follows; inside a block the lane goes on (R76, R124). -/
def State.adv (s : State) : State :=
  match s.laneSel with
  | none => s.goto (s.c.pc + 8)
  | some l =>
    let st := tabGet LaneState.idle s.c.lanes l
    { s with c := { s.c with lanes := tabSet LaneState.idle s.c.lanes l { st with lpc := st.lpc + 8, block := st.block.tail } } }

def Queues.push (q : Queues) (k : Queue) (pc : Word) : Queues :=
  match k with
  | .scu => q
  | .vq => { q with vq := [pc] }
  | .mq => { q with mq := [pc] }
  | .lq => { q with lq := [pc] }
  | .aq => { q with aq := [pc] }

/-- The instruction has begun and waits: its PC stands, and it stands in its queue (log 2, DESIGN CHOICE). -/
def State.waitFor (s : State) (w : Wait) (q : Queue) : State :=
  { s with c := { s.c with wait := w, queues := s.c.queues.push q s.c.pc } }

/-- The wait is over; nothing stands in a queue. -/
def State.resume (s : State) : State := { s with c := { s.c with wait := .none, queues := Queues.empty } }

def Queues.isEmpty (q : Queues) : Queue → Bool
  | .scu => true
  | .vq => q.vq.isEmpty
  | .mq => q.mq.isEmpty
  | .lq => q.lq.isEmpty
  | .aq => q.aq.isEmpty

/-- An instruction that drains acts once the queues it names are empty (R107). -/
def State.draining (s : State) (qs : List Queue) (act : Out) : Out :=
  if qs.all s.c.queues.isEmpty then act else .next (s.waitFor (.drain qs) .scu)

/-- VQ and LQ; every queue (R107). -/
def drainLanes : List Queue := [.vq, .lq]
def drainAll : List Queue := [.vq, .lq, .mq, .aq]

/-! Free values (log 5, DESIGN CHOICE). -/

/-- Take one free byte. -/
def State.freeByte (s : State) : Byte × State := (Config.freeByte s.fresh, { s with fresh := s.fresh + 1 })

/-! Traps. -/

/-- Trap causes (R227). -/
inductive Cause where
  | illegal | pcalign | stall | page | access | frame | capacity | rank | mxoff | plan | hallmark | layout | progress
  | memue | seamerr | watch | swtrap | brk | hpage | format | detw | engine
  deriving DecidableEq, Repr

def Cause.code : Cause → BitVec 8
  | .illegal => 0x01
  | .pcalign => 0x02
  | .stall => 0x03
  | .page => 0x04
  | .access => 0x05
  | .frame => 0x06
  | .capacity => 0x07
  | .rank => 0x08
  | .mxoff => 0x09
  | .plan => 0x0A
  | .hallmark => 0x0B
  | .layout => 0x0C
  | .progress => 0x0D
  | .memue => 0x0E
  | .seamerr => 0x0F
  | .watch => 0x10
  | .swtrap => 0x11
  | .brk => 0x12
  | .hpage => 0x13
  | .format => 0x14
  | .detw => 0x15
  | .engine => 0x16

/-- Where an instruction is carried out: UNIT of TINFO (R104, R226). -/
inductive Where where
  | scu | vq | lq | mq | aq | lane | agent
  deriving DecidableEq, Repr

def Where.code : Where → BitVec 3
  | .scu => 0
  | .vq => 1
  | .lq => 2
  | .mq => 3
  | .aq => 4
  | .lane => 5
  | .agent => 6

/-- The progress point an instruction has, for TINFO.PROG (R222, R226). -/
inductive Point where
  | none | scnt | mxprog | plsw | fmsk
  deriving DecidableEq, Repr

/-- What a trap reports (R226, R227): a record it writes at TSP, FMSK and EIDX where the cause uses them. -/
structure Trap where
  cause : Cause
  detail : BitVec 56 := 0
  addr : Word := 0
  unit : Where := .scu
  elem : Option (BitVec 3 × BitVec 13) := none
  async : Bool := false
  point : Point := .none
  fmsk : Option (BitVec 1024) := none
  record : List Byte := []
  deriving DecidableEq, Repr

/-- DETAIL with a reason in bits 55:52. -/
def reason (r : Nat) : BitVec 56 := BitVec.ofNat 56 (r * 2 ^ 52)

/-- FORMAT of the SCU or VQ, its reason in bits 51:48 (R227). -/
def formatTrap (u : Where) (r : Nat) : Trap := { cause := .format, detail := BitVec.ofNat 56 (r * 2 ^ 48), unit := u }

/-- ACCESS: reason in 55:52, kind in 51:49 (R227). -/
def accessTrap (u : Where) (r : Nat) (n : Need) (a : Word) : Trap :=
  { cause := .access, detail := reason r ||| (n.kind.zeroExtend 56 <<< 49), addr := a, unit := u }

/-- One entry of a fault batch (R211). -/
def pageEntry (va : Nat) (n : Need) (level why elems : Nat) : List Byte :=
  leBytes 7 (va / 2 ^ 16 % 2 ^ 56) ++ [BitVec.ofNat 8 (why * 16 + level)] ++ leBytes 2 n.kind.toNat ++ leBytes 2 elems ++
    leBytes 4 0

/-- A fault batch: up to 16 entries in 256 bytes (R211). -/
def pageBatch (es : List (List Byte)) : List Byte :=
  let b := (es.take 16).flatten
  b ++ List.replicate (256 - b.length) 0

/-- COUNT and MORE of TINFO (R211). -/
def pageDetail (n : Nat) : BitVec 56 := BitVec.ofNat 56 (min n 16 * 2 ^ 51 + (if 16 < n then 2 ^ 50 else 0))

/-- PAGE as a batch of one (R113, R211). -/
def pageTrap (u : Where) (va : Nat) (n : Need) (level why : Nat) : Trap :=
  { cause := .page, detail := pageDetail 1, addr := BitVec.ofNat 64 va, unit := u, elem := some (0, 0),
    record := pageBatch [pageEntry va n level why 1] }

/-- What a translation that fails raises for an access of one element at va. -/
def missTrap (u : Where) (va : Nat) (n : Need) : Miss → Trap
  | .page lev why => pageTrap u va n lev why
  | .access r => accessTrap u r n (BitVec.ofNat 64 va)
  | .broken pa mem => { cause := .memue, detail := reason mem, addr := BitVec.ofNat 64 pa, unit := u }

/-- MEMUE at a physical address (R227): memory 4 for another package's memory, whatever holds the bytes there (R363). -/
def memueTrap (s : State) (u : Where) (pa : Nat) : Trap :=
  { cause := .memue, detail := reason (if pa / 2 ^ 46 = s.pkg then (s.place pa).memNo else 4), addr := BitVec.ofNat 64 pa, unit := u }

/-! Who translates and who writes. -/

def State.view (s : State) : View := ⟨some s.here, s.pkg, s.c.ptroot⟩

/-- The agent that context g is for an access of class cls carrying an assay id (R233, R324). -/
def State.agentOf (s : State) (g : Nat) (cls : Cls) (id : Option (Fin 256)) : Agent :=
  { ctx := some g, cls := cls, session := (s.ctxAt g).session, assay := id, kind := 0, number := coreOf g % 512 }

def State.self (s : State) (cls : Cls) : Agent :=
  { ctx := some s.here, cls := cls, session := s.c.session, assay := s.c.assay, kind := 0, number := coreOf s.here % 512 }

/-- A device write of bytes at a virtual address with bits 71:64 zero, page by page (R224); it is not held, and carries no assay id
(R324). -/
def State.devWrite (s : State) : Nat → Word → List Byte → State × Option Trap
  | 0, _, _ => (s, none)
  | f + 1, va, bs =>
    if bs = [] then (s, none)
    else
      let m := 2 ^ 16 - va.toNat % 2 ^ 16
      match s.translate s.view va.toNat Need.write .plain with
      | (s1, .error e) => (s1, some (missTrap .scu va.toNat Need.write e))
      | (s1, .ok l) =>
        State.devWrite (s1.write { s1.self .ls with assay := none } l.lay l.pa (bs.take m)) f (va + BitVec.ofNat 64 m) (bs.drop m)

/-- A device read of n bytes at a virtual address within one page (R225). -/
def State.devRead (s : State) (va : Word) (n : Nat) : State × Except Trap (List Byte) :=
  match s.translate s.view va.toNat Need.read .plain with
  | (s1, .error e) => (s1, .error (missTrap .scu va.toNat Need.read e))
  | (s1, .ok l) =>
    match s1.checkRead l.lay l.pa n with
    | (s2, some pa) => (s2, .error (memueTrap s2 .scu pa))
    | (s2, none) => (s2, .ok (s2.bytesAt l.lay.raw l.pa n))

/-! Taking a trap (R224) and the double fault (R229). -/

/-- Every fixed-latency result still pending is written, in program order (R109). -/
def State.flush (s : State) : State :=
  { s with c := { s.c with
      x := s.c.pending.foldl (fun x p => if p.reg = 0 then x else x.set p.reg p.val) s.c.x
      pending := [] } }

/-- Is no fixed-latency result pending, at the slot of the oldest instruction or at the SCU's next one (R109)? -/
def Ctx.settled (c : Ctx) : Bool :=
  c.pending.isEmpty && match c.ahead with
    | some a => a.pending.isEmpty
    | none => true

/-- The fixed-latency results that are due are written (R108). -/
def State.writeback (s : State) : State :=
  { s with c := { s.c with
      x := s.c.pending.foldl (fun x p => if p.due ≤ s.c.slot ∧ p.reg ≠ 0 then x.set p.reg p.val else x) s.c.x
      pending := s.c.pending.filter fun p => decide (s.c.slot < p.due) } }

def State.busy (s : State) : Bool := s.c.tinfo.getLsbD 63

/-- The double fault: the context freezes, the second fault latched (R229). -/
def State.doubleFault (s : State) (phase : BitVec 4) (t : Trap) : State :=
  { s.flush with
    c := { s.flush.c with
      status := .frozen
      dfcause := phase ++ t.cause.code
      dfaddr := t.addr
      wait := .none
      queues := Queues.empty
      queued := []
      ahead := none }
    host := .frozen s.here :: s.host }

/-- Is the instruction's progress point nonzero (R226)? -/
def Ctx.progressed (c : Ctx) : Point → Bool
  | .none => false
  | .scnt => c.scnt != 0
  | .mxprog => c.mxprog != 0
  | .plsw => c.plsw != 0
  | .fmsk => c.fmsk != 0

/-- What a PAGE or HPAGE reports is kept, with those taken since the last one in task mode (R212). -/
def Ctx.keepPage (c : Ctx) (t : Trap) : List Paged :=
  let at_ := t.elem.getD (0, 0)
  let p : Paged := ⟨BitVec.ofNat 2048 (leNat t.record), t.addr, t.detail.getLsbD 50, t.unit.code, at_.1, at_.2⟩
  if t.cause = .page ∨ t.cause = .hpage then p :: (if c.hnd then c.paged else []) else c.paged

/-- Steps 1 to 3 of R224: the results pending, the trap registers, handler mode; what the SCU did ahead is dropped (R222). -/
def State.latch (s : State) (t : Trap) : State :=
  let c := s.flush.c
  let c := { c with
    tcause := t.cause.code
    taddr := t.addr
    tpc := c.pc &&& ~~~7#64
    eidxReg := (t.elem.getD (c.eidxReg, c.eidx)).1
    eidx := (t.elem.getD (c.eidxReg, c.eidx)).2
    fmsk := t.fmsk.getD c.fmsk
    paged := c.keepPage t
    consumed := 0
    wait := .none
    queues := Queues.empty
    queued := []
    ahead := none }
  { s.flush with c := { c with
      tinfo := 1#1 ++ BitVec.ofBool t.async ++ t.unit.code ++ BitVec.ofBool (c.progressed t.point) ++ BitVec.ofBool c.hnd ++
        0#1 ++ t.detail
      hnd := true } }

/-- Steps 4 to 6 of R224: x31 at TSP - 8, the record at TSP, the handler's first fetch. -/
def State.enter (s : State) (t : Trap) : State :=
  let s1 := s.latch t
  let sp := s1.c.tsp &&& ~~~15#64
  match s1.devWrite 2 (sp - 8) (leBytes 8 (s1.c.x[31]).toNat) with
  | (s2, some e) => s2.doubleFault 0 e
  | (s2, none) =>
    let s3 := s2.wx 31 (sp - 8)
    match s3.devWrite 2 sp t.record with
    | (s4, some e) => s4.doubleFault 1 e
    | (s4, none) =>
      let pc := s4.c.tvec &&& ~~~7#64
      let s5 := s4.goto pc
      match s5.translate s5.view pc.toNat Need.fetch .plain with
      | (s6, .error e) => s6.doubleFault 2 (missTrap .scu pc.toNat Need.fetch e)
      | (s6, .ok l) =>
        match s6.checkRead l.lay l.pa 8 with
        | (s7, some pa) => s7.doubleFault 2 (memueTrap s7 .scu pa)
        | (s7, none) => s7

/-- Width of a format code; under one that names none the width is free (log 9, DESIGN CHOICE). -/
def codeWidth (f : BitVec 4) : Nat :=
  match Fmt.ofCode f with
  | some f => f.width
  | none => Config.openWidth f + 1

/-- The width by which a thread region counts its elements: that of VCFG.FMT as its vfetch found it (R122, R124). -/
def Ctx.regionWidth (c : Ctx) : Nat := codeWidth c.thrFmt

/-- The lowest element lane l holds, counted in the region's format (R49, R124). It is the element EIDX names for a lane's FORMAT or
failed block check, which no element of the instruction's own format causes; where VCFG.FMT names no format it is counted by the free
width (logs 9 and 49, DESIGN CHOICE). -/
def Ctx.laneFirst (c : Ctx) (l : Nat) : Nat := 64 * l / c.regionWidth

/-- A lane that faults inside a block stops at its word, and the region keeps the fault of the lowest element (R124). -/
def State.laneFault (s : State) (l : Nat) (t : Trap) : State :=
  let at_ := t.elem.getD (0, BitVec.ofNat 13 (s.c.laneFirst l))
  let st := tabGet LaneState.idle s.c.lanes l
  let f : LaneFault := ⟨at_.1, at_.2, t.cause.code, t.detail, t.addr⟩
  { s with c := { s.c with
      lanes := tabSet LaneState.idle s.c.lanes l { st with run := false }
      thrFault := some (match s.c.thrFault with
        | some g => if g.elem ≤ f.elem then g else f
        | none => f) } }

/-- Raise a trap: a lane's fault inside a block; a double fault while BUSY (R229); else entry (R224). -/
def State.raise (s : State) (t : Trap) : State :=
  match s.laneSel with
  | some l => s.laneFault l t
  | none => if s.busy then s.doubleFault 3 t else s.enter t

/-! Instructions that reach memory: a computation over the state that either ends or raises a trap. -/

abbrev Act := ExceptT Trap (StateM State)

/-- Carry out a computation; the trap it may end in is raised in the state it leaves. -/
def State.carry (s : State) (a : Act Unit) : State :=
  match a.run s with
  | (.ok _, s1) => s1
  | (.error t, s1) => s1.raise t

/-- Translate an own access of class LS or MXL, with its pin check (R195 to R200, R259). -/
def xlate (u : Where) (va : Nat) (n : Need) (ap : Ap) : Act Leaf := do
  let s ← get
  match s.translate s.view va n ap with
  | (s1, .error e) =>
    set s1
    throw (missTrap u va n e)
  | (s1, .ok l) =>
    set s1
    if s1.pinOk s1.pkg s1.c.session l.pa then pure l else throw (accessTrap u 0 n (BitVec.ofNat 64 va))

/-- WATCH for an own access, before it is performed (R233). -/
def watchTrap (u : Where) (ms : List (Fin 4)) (wr : Bool) (pa : Nat) : Trap :=
  { cause := .watch, detail := (watchDetail ms wr).zeroExtend 56 <<< 52, addr := BitVec.ofNat 64 pa, unit := u,
    elem := some (0, 0) }

/-- The watches of the context that its own access matches. -/
def State.watched (s : State) (cls : Cls) (n : Need) (pa len : Nat) : List (Fin 4) := s.c.matches cls n.rd n.wr pa len

def checkWatch (u : Where) (cls : Cls) (n : Need) (pa len : Nat) : Act Unit := do
  let s ← get
  match s.watched cls n pa len with
  | [] => pure ()
  | ms => throw (watchTrap u ms n.wr pa)

/-! Held stores (R270). -/

/-- The runs of held bytes of a line: offset and length. -/
def heldRuns (sel : BitVec 64) : List (Nat × Nat) :=
  ((List.range 64).foldl (fun rs o =>
    if sel.getLsbD o then
      match rs with
      | (b, n) :: t => if b + n = o then (b, n + 1) :: t else (o, 1) :: (b, n) :: t
      | [] => [(o, 1)]
    else rs) []).reverse

def HeldLine.slice (l : HeldLine) (o n : Nat) : List Byte := (List.range n).map fun j => l.bytes.extractLsb' (8 * (o + j)) 8

/-- Perform one held line of context g. -/
def State.release (s : State) (g : Nat) (l : HeldLine) : State :=
  (heldRuns l.sel).foldl (fun t r => t.write (t.agentOf g .ls l.assay) l.lay (l.pa + r.1) (l.slice r.1 r.2)) s

/-- Perform the held lines of context g that p picks, in the order their stores were made; the others stay held. -/
def State.releaseIf (s : State) (g : Nat) (p : HeldLine → Bool) : State :=
  let ls := (s.ctxAt g).lines
  let s1 := s.onCtx g fun c => { c with lines := ls.filter fun l => !p l }
  (ls.filter p).foldl (fun t l => t.release g l) s1

def State.releaseAll (s : State) (g : Nat) : State := s.releaseIf g fun _ => true

/-- Perform the held lines that pa .. pa + n - 1 touches (log 24, DEDUCED). -/
def State.releaseBytes (s : State) (g pa n : Nat) : State :=
  s.releaseIf g fun l => decide (l.pa < pa + n) && decide (pa < l.pa + 64)

/-- Merge bytes into a held line. -/
def HeldLine.merge (l : HeldLine) (o : Nat) (bs : List Byte) : HeldLine :=
  let n := bs.length
  let mask : BitVec 512 := BitVec.ofNat 512 ((2 ^ (8 * n) - 1) * 2 ^ (8 * o))
  { l with
    bytes := (l.bytes &&& ~~~mask) ||| BitVec.ofNat 512 (leNat bs * 2 ^ (8 * o))
    sel := l.sel ||| BitVec.ofNat 64 ((2 ^ n - 1) * 2 ^ o) }

/-- Hold bytes in the first of the given lines, newest first, that has the address and tags; none if there is none. A
newer line of the same address with other tags comes first and stops the search. -/
def mergeHeld (pa : Nat) (lay : Lay) (id : Option (Fin 256)) (o : Nat) (bs : List Byte) : List HeldLine → Option (List HeldLine)
  | [] => none
  | l :: t =>
    if l.pa = pa then if l.lay = lay ∧ l.assay = id then some (l.merge o bs :: t) else none
    else (mergeHeld pa lay id o bs t).map (l :: ·)

/-- Hold bytes that lie in one 64-byte line; when 1,024 lines are in use the oldest is performed first (R270). -/
def State.holdPart (s : State) (pa : Nat) (lay : Lay) (bs : List Byte) : State :=
  let base := pa - pa % 64
  match mergeHeld base lay s.c.assay (pa % 64) bs s.c.lines.reverse with
  | some ls => { s with c := { s.c with lines := ls.reverse } }
  | none =>
    let s1 :=
      match s.c.lines with
      | l :: t => if 1024 ≤ s.c.lines.length then { s with c := { s.c with lines := t } }.release s.here l else s
      | [] => s
    let l : HeldLine := HeldLine.merge ⟨base, 0, 0, lay, s.c.assay⟩ (pa % 64) bs
    { s1 with c := { s1.c with lines := s1.c.lines ++ [l] } }

/-- Hold bytes, line by line. -/
def State.hold (s : State) : Nat → Nat → Lay → List Byte → State
  | 0, _, _, _ => s
  | f + 1, pa, lay, bs =>
    if bs = [] then s
    else
      let m := 64 - pa % 64
      State.hold (s.holdPart pa lay (bs.take m)) f (pa + m) lay (bs.drop m)

/-- Bytes with the context's own held stores over them (R213). -/
def overlay (ls : List HeldLine) (pa : Nat) (bs : List Byte) : List Byte :=
  if ls = [] then bs
  else
    (List.range bs.length).map fun j =>
      ls.foldl (fun b l =>
        if l.pa ≤ pa + j ∧ pa + j < l.pa + 64 ∧ l.sel.getLsbD (pa + j - l.pa) then l.bytes.extractLsb' (8 * (pa + j - l.pa)) 8
        else b) (bs.getD j 0)

/-- The bytes an own load returns, with no check. -/
def State.ownBytes (s : State) (cls : Cls) (l : Leaf) (n : Nat) : List Byte :=
  let bs := s.bytesAt l.lay.raw l.pa n
  if cls = .ls then overlay s.c.lines l.pa bs else bs

/-- Read n bytes of an own access, with its uncorrectable errors (R300, R340). -/
def readOwn (u : Where) (cls : Cls) (l : Leaf) (n : Nat) : Act (List Byte) := do
  let s ← get
  match s.checkRead l.lay l.pa n with
  | (s1, some pa) =>
    set s1
    throw (memueTrap s1 u pa)
  | (s1, none) =>
    set s1
    pure (s1.ownBytes cls l n)

/-- An own store: held under CTL.DET for class LS, else performed (R270). -/
def State.storeOwn (s : State) (cls : Cls) (l : Leaf) (bs : List Byte) : State :=
  if s.c.det && cls == .ls then s.hold (bs.length / 64 + 2) l.pa l.lay bs else s.write (s.self cls) l.lay l.pa bs

def writeOwn (cls : Cls) (l : Leaf) (bs : List Byte) : Act Unit := modify fun s => s.storeOwn cls l bs

/-- The 72-bit virtual address of a 64-bit address computation (R192). -/
def State.va72 (s : State) (a : Word) : Nat := s.c.vah.toNat * 2 ^ 64 + a.toNat

end Sys2Proof.Machine
end

