-- ==== Sys2Proof/Machine/Operands.lean ====
section
/-! DEFINITION. Operands: the second sources of formats S, V and A (R14, R23, R24, R26, R74), element access in register
images (R49, R50), the width in force and VLMAX (R55, R235), the element classes of a lane instruction (R72, R76), and
uncorrectable errors in register-slice entries (R53). -/

namespace Sys2Proof.Machine

/-- b of a format S instruction: the register, or the immediate sign-extended (R111, R113). -/
def State.xsrc (s : State) : XSrc → Word
  | .reg r => s.rx r
  | .imm v => v.signExtend 64

/-- A count of format V: an unsigned register or EXT16 (R74, R90). -/
def State.vcount (s : State) : VCount → Nat
  | .sca r => (s.rx r).toNat
  | .imm v => v.toNat

/-- A count of format A: a register read as signed, or the signed 20-bit immediate (R26). -/
def State.acount (s : State) : ACount → Int
  | .sca r => (s.rx r).toInt
  | .imm v => v.toInt

/-! Elements of a register image. -/

/-- Element i in a format of width w (R50). -/
def elem (w : Nat) (r : BitVec 4096) (i : Nat) : Nat := (r.toNat >>> (w * i)) % 2 ^ w

/-- The image with element i replaced. -/
def setElem (w : Nat) (r : BitVec 4096) (i v : Nat) : BitVec 4096 :=
  (r &&& ~~~BitVec.ofNat 4096 ((2 ^ w - 1) <<< (w * i))) ||| BitVec.ofNat 4096 ((v % 2 ^ w) <<< (w * i))

/-- The image with every listed element replaced. -/
def setElems (w : Nat) (r : BitVec 4096) (ps : List (Nat × Nat)) : BitVec 4096 :=
  ps.foldl (fun r p => setElem w r p.1 p.2) r

/-- Register g of a group. -/
def regAt (r : VReg) (g : Nat) : VReg := Fin.ofNat 32 (r.val + g)

def State.elemAt (s : State) (r : VReg) (w i : Nat) : Nat := elem w (s.rv r) i

/-! Widths (R55, R57, R235). -/

/-- H: the logical lanes a context runs on: all of the core's, or those reclaimed for it (R235, R237). -/
def Ctx.laneCount (c : Ctx) (k : Core) : Nat := if c.lanesHeld = 0 then k.active else c.lanesHeld.toNat

/-- W of R55. -/
def Ctx.laneWidth (c : Ctx) (k : Core) : Nat := if c.det && c.detw != 0 then c.detw.toNat else k.active

/-- WID, the width in force (R235). -/
def State.wid (s : State) : Nat := min (s.c.laneWidth s.k) (min s.c.cap.toNat (s.c.laneCount s.k))

/-- VLMAX for elements of width w (R55). -/
def State.vlmax (s : State) (w : Nat) : Nat := s.wid * 64 / w

/-- The physical lane of logical lane l of the context (R49, R237). -/
def State.physLane (s : State) (l : Nat) : Nat := s.k.physLane (s.k.active - s.c.laneCount s.k + l)

/-- Block length (R23). -/
def Blk.len : Blk → Nat
  | .none => 0
  | .b16 => 16
  | .b32 => 32
  | .b64 => 64

def State.vl (s : State) : Nat := s.c.vl.toNat
def State.vlg (s : State) : Nat := s.c.vlg.toNat
def State.blk (s : State) : Nat := Blk.len s.c.vblk

/-- A VL, VLG and VCFG that no svl could have produced (R71); a format code that names none is one (log 9). -/
def State.badConfig (s : State) : Bool :=
  decide (s.vlg < s.vl) ||
  (match Fmt.ofCode s.c.vfmt with
   | some f => decide (s.vlmax f.width < s.vlg)
   | none => true) ||
  (s.blk != 0 && s.vlg % s.blk != 0)

/-- FORMAT before anything changes (R75): n counts against VLMAX of width w. Where several reasons hold, 2 goes before 3, and both
before 4 and 5 (log 57, DESIGN CHOICE). -/
def State.configTrap (s : State) (u : Where) (w n : Nat) : Option Trap :=
  if s.badConfig then some (formatTrap u 2) else if s.vlmax w < n then some (formatTrap u 3) else none

/-! Element classes (R72, R76). -/

/-- Mask bit i. -/
def State.maskBit (s : State) (m : MReg) (i : Nat) : Bool := (s.rm m).getLsbD i

/-- Active: below VL with its mask bit set. -/
def State.active (s : State) (m : MReg) (i : Nat) : Bool := decide (i < s.vl) && s.maskBit m i

/-- The elements of width w below VL that lane l holds (R49, R124). -/
def State.laneElems (s : State) (l w : Nat) : List Nat :=
  ((List.range (64 / w)).map fun j => 64 * l / w + j).filter fun i => decide (i < s.vl)

/-- The elements an instruction acts on: all of the grant, or inside a block those the lane holds (R124). -/
def State.reach (s : State) (w : Nat) : List Nat :=
  match s.laneSel with
  | none => List.range s.vlg
  | some l => s.laneElems l w

/-- What an instruction writes in one vector below element lim: f of active elements (none: unchanged), +0 in padding,
nothing in inactive elements and the tail. -/
def State.results (s : State) (w : Nat) (m : MReg) (lim : Nat) (f : Nat → Option Nat) : List (Nat × Nat) :=
  (s.reach w).filterMap fun i =>
    if lim ≤ i then none else if s.vl ≤ i then some (i, 0) else if s.maskBit m i then (f i).map (i, ·) else none

/-- The active elements an instruction acts on. -/
def State.actives (s : State) (w : Nat) (m : MReg) : List Nat := (s.reach w).filter (s.active m)

/-! Errors in register-slice entries (R53). -/

/-- Elements an instruction reads: register g of its group, the register, the width, and the elements, each with the element
of the result that is computed from it. -/
structure Read where
  g : Nat
  reg : VReg
  w : Nat
  elems : List (Nat × Nat)
  deriving DecidableEq, Repr

/-- Elements that each give the result of their own number. -/
def same (is : List Nat) : List (Nat × Nat) := is.map fun i => (i, i)

/-- The entry of element i of a register: its physical lane. -/
def State.entry (s : State) (w i : Nat) : Nat := s.physLane (w * i / 64)

/-- Does element i of a register lie in an entry? -/
def State.inEntry (s : State) (b : BadSlice) (r : VReg) (w i : Nat) : Bool := b.reg == r && b.lane.val == s.entry w i

def State.isBad (s : State) (r : VReg) (w i : Nat) : Bool := s.c.vbad.any fun b => b.bad.failing && s.inEntry b r w i

/-- The lowest active element of the result that reads a failing entry, with its register in the group; an inactive element that lies
in the failing lane is not counted (log 57, DESIGN CHOICE). -/
def State.sliceStop (s : State) (rs : List Read) : Option (Nat × Nat) :=
  if s.c.vbad = [] then none
  else
    rs.foldl (fun acc r =>
      (r.elems.filter fun e => s.isBad r.reg r.w e.1).foldl (fun acc e =>
        match acc with
        | some (g, j) => if e.2 < j then some (r.g, e.2) else some (g, j)
        | none => some (r.g, e.2)) acc) none

/-- The entries that p picks are read, each once: an error is retried, or classed transient or lasting, and counted for its lane
(R340, R341). -/
def State.readEntriesIf (s : State) (p : BadSlice → Bool) : State :=
  let outcome (b : BadSlice) := if p b then b.bad.read Lay.plain else (b.bad, false, none)
  let t := s.c.vbad.foldl (fun t b => t.classed (.lane (coreOf s.here) s.k.phys b.lane.val) (outcome b).2.2) s
  { t with c := { t.c with
      vbad := (s.c.vbad.map fun b => { b with bad := (outcome b).1 }).filter fun b => b.bad != Bad.clean } }

/-- The entries that hold elements are read. -/
def State.readSlices (s : State) (rs : List Read) : State :=
  if s.c.vbad = [] then s
  else s.readEntriesIf fun b => rs.any fun r => r.elems.any fun e => s.inEntry b r.reg r.w e.1

/-- MEMUE of a register slice at element i of register g (R53, R227). -/
def sliceTrap (u : Where) (g i : Nat) : Trap :=
  { cause := .memue, unit := u, elem := some (BitVec.ofNat 3 g, BitVec.ofNat 13 i) }

/-- Write elements of one register. An entry written in part is read first to merge; a read that fails leaves it to report an
error until it is written whole, which gives it a good code again (R340). -/
def State.putElems (s : State) (r : VReg) (w : Nat) (ps : List (Nat × Nat)) : State :=
  let s1 := s.wv r (setElems w (s.rv r) ps)
  if s.c.vbad = [] then s1
  else
    let holds (b : BadSlice) (l : Nat) : Bool := b.reg == r && s.physLane l == b.lane.val
    let whole (b : BadSlice) : Bool := (List.range 64).any fun l =>
      holds b l && (List.range (64 / w)).all fun j => ps.any fun q => q.1 == 64 / w * l + j
    let part (b : BadSlice) : Bool := !whole b && ps.any fun q => holds b (w * q.1 / 64)
    let t := s1.readSlices (ps.map fun q => ⟨0, r, w, if s.c.vbad.any fun b => part b && s.inEntry b r w q.1 then [q] else []⟩)
    { t with c := { t.c with
        vbad := (t.c.vbad.map fun b =>
          if whole b then { b with bad := { b.bad with poison := false } }
          else if part b && s.isBad r w (64 / w * ((List.range 64).find? (holds b)).getD 0) then
            { b with bad := { b.bad with poison := true } }
          else b).filter fun b => b.bad != Bad.clean } }

/-- Write a group: res g is what register g receives. -/
def State.putGroup (s : State) (vd : VReg) (n w : Nat) (res : Nat → List (Nat × Nat)) : State :=
  (List.range n).foldl (fun t g => t.putElems (regAt vd g) w (res g)) s

/-- Elements past every register image: no limit to what an instruction writes. -/
def noLimit : Nat := 4096

/-- The shape of a lane instruction: FORMAT before anything changes; then its effect; with an uncorrectable entry among
its sources, the effect below the failing element and MEMUE (R53, R75, R76). -/
def State.laneOp (s : State) (fault : Option Trap) (reads : List Read) (eff : Nat → State) : State :=
  match fault with
  | some t => s.raise t
  | none =>
    match s.sliceStop reads with
    | none => ((eff noLimit).readSlices reads).adv
    | some (g, i) => ((eff i).readSlices reads).raise (sliceTrap .vq g i)

/-! Second sources of format V (R74). -/

/-- A BF16 immediate in an element format: exact, a NaN with its sign; what has no exact pattern is left open (R40, R74;
log 6, DESIGN CHOICE). -/
def bfImm (f : Fmt) (v : BitVec 16) : Nat :=
  match f with
  | .fp32 => v.toNat * 2 ^ 16
  | .bf16 => v.toNat
  | _ =>
    match elemVal .bf16 false v.toNat with
    | .nan => withSign f (v.getLsbD 15) (canonicalNaN f)
    | x =>
      let p := encode f false .rne false x
      if (elemVal f false p).cmp x == some .eq then p else (Config.inexactImm f v).toNat % 2 ^ f.width

/-- The value of the FORM 10 immediate. -/
def immElem (f : Fmt) (v : BitVec 16) : Nat :=
  if f.isInt then (v.signExtend 64).toNat % 2 ^ f.width else if f = .e8 then v.toNat % 256 else bfImm f v

/-- Element i of register g of the second source. -/
def State.second (s : State) (f : Fmt) (b : VSrc) (g i : Nat) : Nat :=
  match b with
  | .vec r => s.elemAt (regAt r g) f.width i
  | .sca x => (s.rx x).toNat % 2 ^ f.width
  | .imm v => immElem f v

/-- What a second source reads from registers. -/
def secondReads (b : VSrc) (n w : Nat) (is : List Nat) : List Read :=
  match b with
  | .vec r => (List.range n).map fun g => ⟨g, regAt r g, w, same is⟩
  | _ => []

/-- What a group of n registers reads. -/
def groupReads (r : VReg) (n w : Nat) (is : List Nat) : List Read := (List.range n).map fun g => ⟨g, regAt r g, w, same is⟩

end Sys2Proof.Machine
end

