-- ==== Sys2Proof/Machine/Flags.lean ====
section
/-! DEFINITION. The machine keeps no condition flags (R62). What other machines call flags are bits here that an
instruction computes into a mask or tests at once: the relations of R81 and R115, and the carries of R80. -/

namespace Sys2Proof.Machine

/-- The relations of R81 on the outcome of a comparison; an unordered pair (a NaN) satisfies ne alone. -/
inductive Rel where
  | eq | ne | lt | le | gt | ge
  deriving DecidableEq, Repr

def Rel.holds (r : Rel) (c : Option Ordering) : Bool :=
  match r with
  | .eq => c == some .eq
  | .ne => c != some .eq
  | .lt => c == some .lt
  | .le => c == some .lt || c == some .eq
  | .gt => c == some .gt
  | .ge => c == some .gt || c == some .eq

/-- How two element patterns compare: floating point as numbers, integers signed or unsigned by u (R81). -/
def compareElem (f : Fmt) (u : Bool) (a b : Nat) : Option Ordering :=
  if f.isFp then (elemVal f u a).cmp (elemVal f u b) else some (compare (intOf f.width u a) (intOf f.width u b))

/-- One limb of a carry chain: result and carry out (R80). -/
def addCarry (w a b : Nat) (c : Bool) : Nat × Bool :=
  let t := a + b + c.toNat
  (t % 2 ^ w, decide (2 ^ w ≤ t))

/-- One limb of a borrow chain: result and borrow out (R80). -/
def subBorrow (w a b : Nat) (c : Bool) : Nat × Bool :=
  ((a + 2 ^ (w + 1) - b - c.toNat) % 2 ^ w, decide (a < b + c.toNat))

/-- The relations of BR (R115): equal, signed less, unsigned less. -/
inductive Branch where
  | eq | ne | lt | ge | ltu | geu
  deriving DecidableEq, Repr

def Branch.taken (b : Branch) (x y : Word) : Bool :=
  match b with
  | .eq => x == y
  | .ne => x != y
  | .lt => x.slt y
  | .ge => !x.slt y
  | .ltu => x.ult y
  | .geu => !x.ult y

end Sys2Proof.Machine
end

