-- ==== Sys2Proof/Machine/Mmio.lean ====
section
/-! DEFINITION. The registers of the MMIO range (R257, R279, R302, R303, R330, R331): doorbells, clasp registers, ASYCLR,
the page-request port, and the controller blocks. -/

namespace Sys2Proof.Machine

/-! Clasps (R256, R257). -/

def State.claspAt (s : State) : ClaspAt → Clasp
  | .cluster c i => tabGet Clasp.reset (s.clusterAt c).clasps i.val
  | .die d i => tabGet Clasp.reset (s.dieAt d).clasps i.val

def State.putClasp (s : State) (p : ClaspAt) (c : Clasp) : State :=
  match p with
  | .cluster k i => s.onCluster k fun x => { x with clasps := tabSet Clasp.reset x.clasps i.val c }
  | .die d i => s.onDie d fun x => { x with clasps := tabSet Clasp.reset x.clasps i.val c }

/-- One arrival (R256). -/
def Clasp.arrive (c : Clasp) : Clasp :=
  let n := c.arrived.toNat + 1
  if c.target.toNat ≤ n then { c with arrived := 0, phase := !c.phase } else { c with arrived := BitVec.ofNat 16 n }

/-- A flip of the die clasp that the replica tables are bound to inverts ActiveIndex (R360). -/
def State.flipReplica (s : State) (p : ClaspAt) : State :=
  match p with
  | .cluster _ _ => s
  | .die d i =>
    s.onDie d fun x =>
      if x.replica.bound && x.replica.clasp == 256 + i.val then
        { x with replica := { x.replica with active := !x.replica.active } } else x

def State.arrive (s : State) (p : ClaspAt) : State :=
  let c := s.claspAt p
  let t := s.putClasp p c.arrive
  if c.arrive.phase = c.phase then t else t.flipReplica p

/-- A write of TARGET: 0 stands for 1; ARRIVED is cleared, PHASE kept (R257). -/
def Clasp.setTarget (c : Clasp) (v : Word) : Clasp :=
  let t : BitVec 16 := v.extractLsb' 0 16
  { c with target := if t = 0 then 1 else t, arrived := 0 }

def Clasp.word (c : Clasp) : Word := 0#31 ++ BitVec.ofBool c.phase ++ c.arrived ++ c.target

/-- The clasp that an id names for a context (R256). -/
def claspOf (g : Nat) : ClaspId → ClaspAt
  | .cluster i => .cluster (clusterOf g) i
  | .die i => .die (dieOf g) i

/-! Doorbells (R279). -/

def State.queueAt (s : State) (die q : Nat) : HostQueue := tabGet HostQueue.reset (s.dieAt die).queues q

def State.putQueue (s : State) (die q : Nat) (h : HostQueue) : State :=
  s.onDie die fun x => { x with queues := tabSet HostQueue.reset x.queues q h }

/-- LOG2 of a queue context: entries of its rings (R278). -/
def qcSize (image : BitVec 512) : Nat := 2 ^ (image.extractLsb' 384 5).toNat

/-- A queue takes new values: a TAIL that runs more than the ring ahead of HEAD, once the queue has a ring, is cut to it, and the
excess counted (R279). -/
def State.setQueue (s : State) (die q : Nat) (h : HostQueue) : State :=
  if h.set && decide (qcSize h.image < (h.tail - h.head).toNat) then
    (s.putQueue die q { h with tail := h.head + BitVec.ofNat 32 (qcSize h.image) }).onDie die fun x =>
      { x with errors := x.errors + 1 }
  else s.putQueue die q h

/-- A doorbell write sets TAIL (R279). -/
def State.ring (s : State) (die q : Nat) (v : Word) : State :=
  s.setQueue die q { s.queueAt die q with tail := v.extractLsb' 0 32 }

/-! ASYCLR (R303, R324). -/

/-- Clear one assay id in the twelve stacks of the package. -/
def State.clearAssay (s : State) (pkg : Nat) (id : Nat) : State :=
  { s with assay := (List.range 12).foldl (fun a k => tabSet 0 a ((12 * pkg + k) * 256 + id) 0) s.assay }

def State.asyclr (s : State) (die : Nat) (v : Word) : State :=
  let id : BitVec 8 := v.extractLsb' 0 8
  (s.clearAssay (die / 4) id.toNat).onDie die fun x => { x with asyclr := id }

/-! The page-request port (R330, R331). -/

/-- Requests a die holds unanswered. -/
def maxRequests : Nat := 1024

/-- What a unit of the device reads at a virtual address under a view, page by page. None where it cannot read. -/
def State.readPages (s : State) (v : View) : Nat → Nat → Nat → State × Option (List Byte)
  | 0, _, _ => (s, some [])
  | f + 1, va, n =>
    if n = 0 then (s, some [])
    else
      let m := min n (2 ^ 16 - va % 2 ^ 16)
      match s.translate v (va % 2 ^ 72) Need.read .plain with
      | (s1, .error _) => (s1, none)
      | (s1, .ok l) =>
        match s1.checkRead l.lay l.pa m with
        | (s2, some _) => (s2, none)
        | (s2, none) =>
          let bs := s2.bytesAt l.lay.raw l.pa m
          match State.readPages s2 v f (va + m) (n - m) with
          | (s3, none) => (s3, none)
          | (s3, some t) => (s3, some (bs ++ t))

/-- The record a request names: 256 bytes of the TCM window, read through the context's translation; none outside the
window or where it cannot be read (log 10, DEDUCED). -/
def State.requestRecord (s : State) (v : Word) : State × Option (List Byte) :=
  let a := v.toNat - v.toNat % 64
  if a < 2 ^ 32 ∨ 2 ^ 32 + 2 ^ 20 < a + 256 then (s, none) else s.readPages s.view 2 a 256

/-- A write of PGREQ; none while 1,024 requests of the die are unanswered (R331). -/
def State.requestPage (s : State) (die : Nat) (v : Word) : Option State :=
  if maxRequests ≤ (s.dieAt die).requests.length then none
  else
    let r := s.requestRecord v
    let bytes := r.2.getD (List.replicate 256 0)
    let rec' : BitVec 2048 := BitVec.ofNat 2048 (leNat bytes)
    let s1 := r.1
    let gen := s1.c.gen + 1
    let s2 := { s1 with c := { s1.c with gen := gen, pgreq := v &&& ~~~63#64, asking := true, request := rec', answer := none } }
    if r.2.isNone || rec' == 0 then some { s2 with c := { s2.c with answer := some (true, 0xFFFF) } }
    else
      let up := (s2.pkgAt (die / 4)).linkUp
      let s3 := s2.onDie die fun x => { x with requests := x.requests ++ [⟨s2.here, gen, s2.c.asid, s2.c.ptroot, rec', !up⟩] }
      some (if up then s3.tell (.pageRequest s3.here gen s3.c.asid s3.c.ptroot rec') else s3)

/-! Reads and writes of registers. -/

/-- Fields of PWRCTL that software writes (R303). -/
def pwrctlMask : Word := 0x0000FFFFFFFF0000

def State.mmioRead (s : State) : Place → Word
  | .doorbell d q => (s.queueAt d q).tail.zeroExtend 64
  | .dieClasp d i => (s.claspAt (.die d (Fin.ofNat 256 i))).word
  | .clasp c i => (s.claspAt (.cluster c (Fin.ofNat 64 i))).word
  | .asyclr d => (s.dieAt d).asyclr.zeroExtend 64
  | .pgreq _ => s.c.pgreq
  | .lateans d => (s.dieAt d).lateans.zeroExtend 64
  | .pwrctl d j => (s.dieAt d).pwrctl[j % 3]'(Nat.mod_lt _ (by decide))
  | .refcnt d j => (s.dieAt d).refcnt[j % 3]'(Nat.mod_lt _ (by decide))
  | .hbm _ | .dsram _ _ | .spad _ _ | .tcm _ _ | .nothing => 0

/-- Store the RW fields of a register with no behaviour of its own (R303); read-only registers ignore a write. -/
def State.registerWrite (s : State) (p : Place) (v : Word) : State :=
  match p with
  | .pwrctl d j => s.onDie d fun x => { x with pwrctl := x.pwrctl.set (j % 3) (v &&& pwrctlMask) (Nat.mod_lt _ (by decide)) }
  | _ => s

/-- A write of a register; none where it must wait (R331). -/
def State.mmioWrite (s : State) (p : Place) (v : Word) : Option State :=
  match p with
  | .doorbell d q => some (s.ring d q v)
  | .dieClasp d i => let k := ClaspAt.die d (Fin.ofNat 256 i); some (s.putClasp k ((s.claspAt k).setTarget v))
  | .clasp c i => let k := ClaspAt.cluster c (Fin.ofNat 64 i); some (s.putClasp k ((s.claspAt k).setTarget v))
  | .asyclr d => some (s.asyclr d v)
  | .pgreq d => s.requestPage d v
  | .pwrctl d j => some (s.registerWrite (.pwrctl d j) v)
  | .refcnt d j => some (s.registerWrite (.refcnt d j) v)
  | .lateans d => some (s.registerWrite (.lateans d) v)
  | .hbm _ | .dsram _ _ | .spad _ _ | .tcm _ _ | .nothing => some s

end Sys2Proof.Machine
end

