-- ==== Sys2Proof/Machine/Scalar.lean ====
section
/-! DEFINITION. Scalar arithmetic, moves, memory and atomics: XALU, XMOV, XMEM and XAMO (R108, R111 to R114, R219). -/

namespace Sys2Proof.Machine

/-- A scalar result available to the next slot. -/
def State.put (s : State) (rd : XReg) (v : Word) : Out := .next ((s.wx rd v).adv)

/-- A fixed-latency result: it reaches its register at slot p + L + 1 (R108). -/
def State.putLate (s : State) (rd : XReg) (v : Word) (lat : Nat) : Out :=
  let p : Pending := ⟨rd, v, s.c.slot + lat + 1, s.c.pc⟩
  .next { s with c := { s.c with pending := if rd = 0 then s.c.pending else s.c.pending ++ [p] } }.adv

/-! XALU (R111). -/

def minS (a b : Word) : Word := if a.sle b then a else b
def maxS (a b : Word) : Word := if a.sle b then b else a
def minU (a b : Word) : Word := if a.ule b then a else b
def maxU (a b : Word) : Word := if a.ule b then b else a

/-- Bits 127:64 of the signed and of the unsigned product. -/
def mulHigh (a b : Word) : Word := (a.signExtend 128 * b.signExtend 128).extractLsb' 64 64
def mulHighU (a b : Word) : Word := (a.zeroExtend 128 * b.zeroExtend 128).extractLsb' 64 64

/-- Quotients and remainders: a zero divisor gives all ones and the dividend; -2^63 by -1 wraps (R59, R111). -/
def divS (a b : Word) : Word := if b = 0 then BitVec.allOnes 64 else a.sdiv b
def divU (a b : Word) : Word := if b = 0 then BitVec.allOnes 64 else a / b
def remS (a b : Word) : Word := if b = 0 then a else a.srem b
def remU (a b : Word) : Word := if b = 0 then a else a % b

/-- The first k below n with p k, else n. -/
def firstBelow (p : Nat → Bool) : Nat → Nat
  | 0 => 0
  | n + 1 => let k := firstBelow p n; if k < n then k else if p n then n else n + 1

def leadZeros (a : Word) : Word := BitVec.ofNat 64 (firstBelow (fun k => a.getLsbD (63 - k)) 64)
def trailZeros (a : Word) : Word := BitVec.ofNat 64 (firstBelow (fun k => a.getLsbD k) 64)
def popCount (a : Word) : Word := BitVec.ofNat 64 (popcount a)

def execAdd (rd ra : XReg) (b : XSrc) (s : State) : Out := s.put rd (s.rx ra + s.xsrc b)
def execSub (rd ra : XReg) (b : XSrc) (s : State) : Out := s.put rd (s.rx ra - s.xsrc b)
def execAnd (rd ra : XReg) (b : XSrc) (s : State) : Out := s.put rd (s.rx ra &&& s.xsrc b)
def execOr (rd ra : XReg) (b : XSrc) (s : State) : Out := s.put rd (s.rx ra ||| s.xsrc b)
def execXor (rd ra : XReg) (b : XSrc) (s : State) : Out := s.put rd (s.rx ra ^^^ s.xsrc b)

/-- Shift counts are b[5:0]. -/
def shamt (b : Word) : Nat := b.toNat % 64

def execSll (rd ra : XReg) (b : XSrc) (s : State) : Out := s.put rd (s.rx ra <<< shamt (s.xsrc b))
def execSrl (rd ra : XReg) (b : XSrc) (s : State) : Out := s.put rd (s.rx ra >>> shamt (s.xsrc b))
def execSra (rd ra : XReg) (b : XSrc) (s : State) : Out := s.put rd ((s.rx ra).sshiftRight (shamt (s.xsrc b)))

def bool64 (b : Bool) : Word := if b then 1 else 0

def execSlt (rd ra : XReg) (b : XSrc) (s : State) : Out := s.put rd (bool64 ((s.rx ra).slt (s.xsrc b)))
def execSltu (rd ra : XReg) (b : XSrc) (s : State) : Out := s.put rd (bool64 ((s.rx ra).ult (s.xsrc b)))
def execMin (rd ra : XReg) (b : XSrc) (s : State) : Out := s.put rd (minS (s.rx ra) (s.xsrc b))
def execMax (rd ra : XReg) (b : XSrc) (s : State) : Out := s.put rd (maxS (s.rx ra) (s.xsrc b))
def execMinu (rd ra : XReg) (b : XSrc) (s : State) : Out := s.put rd (minU (s.rx ra) (s.xsrc b))
def execMaxu (rd ra : XReg) (b : XSrc) (s : State) : Out := s.put rd (maxU (s.rx ra) (s.xsrc b))

/-- Latencies of R108. -/
def mulLatency : Nat := 3
def bitLatency : Nat := 2

def execMul (rd ra : XReg) (b : XSrc) (s : State) : Out := s.putLate rd (s.rx ra * s.xsrc b) mulLatency
def execMulh (rd ra : XReg) (b : XSrc) (s : State) : Out := s.putLate rd (mulHigh (s.rx ra) (s.xsrc b)) mulLatency
def execMulhu (rd ra : XReg) (b : XSrc) (s : State) : Out := s.putLate rd (mulHighU (s.rx ra) (s.xsrc b)) mulLatency
def execDiv (rd ra : XReg) (b : XSrc) (s : State) : Out := s.put rd (divS (s.rx ra) (s.xsrc b))
def execDivu (rd ra : XReg) (b : XSrc) (s : State) : Out := s.put rd (divU (s.rx ra) (s.xsrc b))
def execRem (rd ra : XReg) (b : XSrc) (s : State) : Out := s.put rd (remS (s.rx ra) (s.xsrc b))
def execRemu (rd ra : XReg) (b : XSrc) (s : State) : Out := s.put rd (remU (s.rx ra) (s.xsrc b))
def execClz (rd ra : XReg) (s : State) : Out := s.putLate rd (leadZeros (s.rx ra)) bitLatency
def execCtz (rd ra : XReg) (s : State) : Out := s.putLate rd (trailZeros (s.rx ra)) bitLatency
def execPopc (rd ra : XReg) (s : State) : Out := s.putLate rd (popCount (s.rx ra)) bitLatency

/-- The results that are due reach their registers (R108). -/
def execFixedLatencyWriteback (s : State) : Out := .next s.writeback

/-! XMOV (R112). -/

def execLi (rd : XReg) (imm : BitVec 32) (s : State) : Out := s.put rd (imm.signExtend 64)
def execLui (rd ra : XReg) (imm : BitVec 32) (s : State) : Out :=
  s.put rd ((imm.zeroExtend 64 <<< 32) ||| ((s.rx ra).extractLsb' 0 32).zeroExtend 64)
def execMv (rd ra : XReg) (s : State) : Out := s.put rd (s.rx ra)
def execSel (rd ra rb : XReg) (s : State) : Out := s.put rd (if s.rx rd ≠ 0 then s.rx ra else s.rx rb)

/-! XMEM (R113). -/

/-- Which accesses an XMEM of n bytes is (R199). -/
def xmemAp (n : Nat) : Ap := if n = 8 then .device else .narrow

/-- A loaded value of n bytes extended to 64 bits. -/
def extend (n : Nat) (signed : Bool) (v : Nat) : Word := BitVec.ofNat 64 (if signed then sext64 (8 * n) v else v)

/-- The value at a translated address: a register of the MMIO range, or memory. -/
def readAt (l : Leaf) (n : Nat) : Act Nat := do
  let s ← get
  if (s.place l.pa).isMem then
    let bs ← readOwn .lq .ls l n
    pure (leNat bs)
  else pure (s.mmioRead (s.place l.pa)).toNat

/-- ScalarMem for loads (R113). -/
def loadScalar (n : Nat) (signed : Bool) (rd ra : XReg) (b : XSrc) (s : State) : Out :=
  let a := s.rx ra + s.xsrc b
  .next <| s.carry do
    if a.toNat % n ≠ 0 then throw (accessTrap .lq 2 Need.read a)
    let l ← xlate .lq (s.va72 a) Need.read (xmemAp n)
    checkWatch .lq .ls Need.read l.pa n
    let v ← readAt l n
    modify fun t => (t.wx rd (extend n signed v)).adv

/-- Perform a scalar store: a device-aperture store is not held, and follows the context's held stores to its bytes; a
register that cannot take the write makes the store wait (R213, R270, R331). -/
def State.storeScalar (s : State) (l : Leaf) (n : Nat) (v : Word) : State :=
  if (s.place l.pa).isMem then
    if l.ap = 2 then
      let s1 := s.releaseBytes s.here l.pa n
      (s1.write (s1.self .ls) l.lay l.pa (leBytes n v.toNat)).adv
    else (s.storeOwn .ls l (leBytes n v.toNat)).adv
  else
    match s.mmioWrite (s.place l.pa) v with
    | some t => t.adv
    | none => s.waitFor .port .lq

/-- ScalarMem for stores (R113). -/
def storeScalar (n : Nat) (rs ra : XReg) (b : XSrc) (s : State) : Out :=
  let a := s.rx ra + s.xsrc b
  .next <| s.carry do
    if a.toNat % n ≠ 0 then throw (accessTrap .lq 2 Need.write a)
    let l ← xlate .lq (s.va72 a) Need.write (xmemAp n)
    checkWatch .lq .ls Need.write l.pa n
    modify fun t => t.storeScalar l n (s.rx rs)

def execLd8 (rd ra : XReg) (b : XSrc) (s : State) : Out := loadScalar 1 true rd ra b s
def execLd16 (rd ra : XReg) (b : XSrc) (s : State) : Out := loadScalar 2 true rd ra b s
def execLd32 (rd ra : XReg) (b : XSrc) (s : State) : Out := loadScalar 4 true rd ra b s
def execLd64 (rd ra : XReg) (b : XSrc) (s : State) : Out := loadScalar 8 true rd ra b s
def execLdz8 (rd ra : XReg) (b : XSrc) (s : State) : Out := loadScalar 1 false rd ra b s
def execLdz16 (rd ra : XReg) (b : XSrc) (s : State) : Out := loadScalar 2 false rd ra b s
def execLdz32 (rd ra : XReg) (b : XSrc) (s : State) : Out := loadScalar 4 false rd ra b s
def execSt8 (rs ra : XReg) (b : XSrc) (s : State) : Out := storeScalar 1 rs ra b s
def execSt16 (rs ra : XReg) (b : XSrc) (s : State) : Out := storeScalar 2 rs ra b s
def execSt32 (rs ra : XReg) (b : XSrc) (s : State) : Out := storeScalar 4 rs ra b s
def execSt64 (rs ra : XReg) (b : XSrc) (s : State) : Out := storeScalar 8 rs ra b s

/-! XAMO (R114, R219). -/

/-- The held stores an atomic releases first: all of them under release order, else those of its bytes (R270). -/
def State.releaseFor (s : State) (o : Order) (pa : Nat) : State :=
  match o with
  | .rel | .acqrel => s.releaseAll s.here
  | .rlx | .acq => s.releaseBytes s.here pa 8

/-- A releasing atomic at PACKAGE scope or wider: every earlier LS write of the context is performed there (R219, R313). -/
def State.performedFor (s : State) (o : AmoOp) : State :=
  if (o.order = .rel ∨ o.order = .acqrel) ∧ actsAtPackage o.scope then s.encoded s.here (· == .ls) else s

/-- Atomic (R114): f gives the new value from the old one, or none where nothing is written. -/
def atomic (f : Word → Option Word) (o : AmoOp) (s : State) : Out :=
  let a := s.rx o.ra
  .next <| s.carry do
    if a.toNat % 8 ≠ 0 then throw (accessTrap .lq 2 Need.both a)
    let l ← xlate .lq (s.va72 a) Need.both .atomic
    checkWatch .lq .ls Need.both l.pa 8
    modify fun t => (t.releaseFor o.order l.pa).performedFor o
    let bs ← readOwn .lq .ls l 8
    let old : Word := BitVec.ofNat 64 (leNat bs)
    match f old with
    | some v => modify fun t => t.write (t.self .ls) l.lay l.pa (leBytes 8 v.toNat)
    | none => pure ()
    modify fun t => (t.wx o.rd old).adv

def execAmoAdd (o : AmoOp) (s : State) : Out := atomic (fun old => some (old + s.rx o.rb)) o s
def execAmoAnd (o : AmoOp) (s : State) : Out := atomic (fun old => some (old &&& s.rx o.rb)) o s
def execAmoOr (o : AmoOp) (s : State) : Out := atomic (fun old => some (old ||| s.rx o.rb)) o s
def execAmoXor (o : AmoOp) (s : State) : Out := atomic (fun old => some (old ^^^ s.rx o.rb)) o s
def execAmoMin (o : AmoOp) (s : State) : Out := atomic (fun old => some (minS old (s.rx o.rb))) o s
def execAmoMax (o : AmoOp) (s : State) : Out := atomic (fun old => some (maxS old (s.rx o.rb))) o s
def execAmoSwap (o : AmoOp) (s : State) : Out := atomic (fun _ => some (s.rx o.rb)) o s
def execAmoCas (o : AmoOp) (s : State) : Out := atomic (fun old => if old = s.rx o.rd then some (s.rx o.rb) else none) o s

end Sys2Proof.Machine
end

