-- ==== Sys2Proof/Machine/Control.lean ====
section
/-! DEFINITION. Branches, jumps, strip loops, vector branches and lane grants: BR, JMP, SMB, VBR, LTC and VCFG (R107, R115
to R120, R126, R127, R234 to R238). -/

namespace Sys2Proof.Machine

/-! Branches and jumps (R115, R116). -/

/-- PC plus OFF32. -/
def State.target (s : State) (off : BitVec 32) : Word := s.c.pc + off.signExtend 64

def branch (b : Branch) (ra rb : XReg) (off : BitVec 32) (s : State) : Out :=
  .next (if b.taken (s.rx ra) (s.rx rb) then s.goto (s.target off) else s.adv)

def execBeq (ra rb : XReg) (off : BitVec 32) (s : State) : Out := branch .eq ra rb off s
def execBne (ra rb : XReg) (off : BitVec 32) (s : State) : Out := branch .ne ra rb off s
def execBlt (ra rb : XReg) (off : BitVec 32) (s : State) : Out := branch .lt ra rb off s
def execBge (ra rb : XReg) (off : BitVec 32) (s : State) : Out := branch .ge ra rb off s
def execBltu (ra rb : XReg) (off : BitVec 32) (s : State) : Out := branch .ltu ra rb off s
def execBgeu (ra rb : XReg) (off : BitVec 32) (s : State) : Out := branch .geu ra rb off s

def execJal (rd : XReg) (off : BitVec 32) (s : State) : Out := .next ((s.wx rd (s.c.pc + 8)).goto (s.target off))

/-- jalr: a target that is not a multiple of 8 raises PCALIGN and changes nothing; XB is read first (R116). -/
def execJalr (rd rb : XReg) (off : BitVec 32) (s : State) : Out :=
  let t := s.rx rb + off.signExtend 64
  .next (if t.extractLsb' 0 3 = 0#3 then (s.wx rd (s.c.pc + 8)).goto t else s.raise { cause := .pcalign, addr := t })

/-! Strip loops (R117, R118). -/

/-- A pointer advances by VL elements of 2^sh bits. -/
def State.advancePointer (s : State) (vl : Nat) (p : XReg) (sh : Fin 8) : State :=
  if p = 0 then s else s.wx p (s.rx p + BitVec.ofNat 64 (vl * 2 ^ sh.val / 8))

def execSmb (o : SmbOp) (s : State) : Out :=
  let s1 := s.wx o.xc (s.rx o.xc - BitVec.ofNat 64 s.vl)
  let n := s1.rx o.xc
  let s2 := (((s1.advancePointer s.vl o.xp0 o.sh0).advancePointer s.vl o.xp1 o.sh1).advancePointer s.vl o.xp2
    o.sh2).advancePointer s.vl o.xp3 o.sh3
  .next (if (0#64).slt n then s2.goto (s.c.pc + (o.off.signExtend 64 <<< 3)) else s2.adv)

/-! Vector branches and lane walks (R119, R120). -/

/-- Mask bits 0 to VL - 1. -/
def State.lowMask (s : State) (m : MReg) : Nat := (s.rm m).toNat % 2 ^ s.vl

def execVbany (pm : MReg) (off : BitVec 32) (s : State) : Out :=
  s.draining drainLanes (.next (if s.lowMask pm ≠ 0 then s.goto (s.target off) else s.adv))

def execVbnone (pm : MReg) (off : BitVec 32) (s : State) : Out :=
  s.draining drainLanes (.next (if s.lowMask pm = 0 then s.goto (s.target off) else s.adv))

/-- The lowest set bit of a number below 2^n; n where none is. -/
def lowestBit (v n : Nat) : Nat := firstBelow (fun i => v.testBit i) n

/-- LaneTripCount (R120). -/
def execLtc (pm : MReg) (off : BitVec 32) (s : State) : Out :=
  s.draining drainLanes <| .next <|
    let v := s.lowMask pm
    if pm = 0 ∨ v = 0 then s.adv
    else
      let b := 2 ^ lowestBit v s.vl
      let t := s.wm pm (s.rm pm &&& ~~~BitVec.ofNat 4096 b)
      if v ≠ b then t.goto (s.target off) else t.adv

/-! Lane reclaiming (R234 to R237). -/

/-- The caps that are multiples of 8 from 8 to 64. -/
def capOk (cap : BitVec 7) : Bool := cap.toNat % 8 == 0 && decide (8 ≤ cap.toNat) && decide (cap.toNat ≤ 64)

/-- The least cap a deterministic context of width DETW is given (R235). -/
def detCap (a : Nat) (detw : BitVec 7) : Nat := let m := (detw.toNat + 7) / 8 * 8; if a < m then 64 else m

/-- Does a context run on lanes reclaimed from another, which have not returned (R237)? -/
def Ctx.borrows (c : Ctx) : Bool := c.lanesHeld != 0 && !c.lanesBack

/-- Has a context of the core lanes that were reclaimed from context g? -/
def State.lent (s : State) (g : Nat) : Bool :=
  match (s.ctxAt g).taker with
  | some j => (s.ctxAt (4 * coreOf g + j.val)).borrows && 4 * coreOf g + j.val != g
  | none => false

/-- May a cap be asked of context g: BOUND, not pinned, not deterministic at the full width, on lanes of its own that stand with no
other? While lanes of its stand with another the cap stays: they return first, and no lane passes to two contexts (R235 to R237). -/
def State.capFits (s : State) (g : Nat) : Bool :=
  let c := s.ctxAt g
  c.status == .bound && !c.lpin && !(c.det && c.detw == 0) && !c.borrows && !s.lent g

/-- The one of a list of contexts whose task was placed last. -/
def State.newest (s : State) (gs : List Nat) : Option Nat :=
  let id (g : Nat) : Nat := ((s.ctxAt g).task.map (·.id)).getD 0
  gs.foldl (fun m g => match m with
    | none => some g
    | some h => some (if id h < id g then g else h)) none

/-- The context of a core whose lanes are reclaimed for a task of class 0: of class 2 first, then of class 1, the task placed last first;
never of class 0, nor one of which a reclaim is asked already (R288). -/
def State.laneVictim (s : State) (k : Nat) : Option Nat :=
  let of (cls : BitVec 2) : List Nat := ((List.range 4).map (4 * k + ·)).filter fun g =>
    s.capFits g && (s.ctxAt g).vlive && (s.ctxAt g).prio == cls && !((s.ctxAt g).pend && (s.ctxAt g).next.ult (s.ctxAt g).cap)
  (s.newest (of 2)).or (s.newest (of 1))

/-- The sequencer asks to cap context g: a lower cap where its task is the one to make room, its lanes to pass to a task of class 0
in another context of the core; or a higher one (R235, R288). -/
def State.askCap (s : State) (g : Nat) (cap : BitVec 7) (taker : Option (Fin 4)) : State :=
  let c := s.ctxAt g
  let a := (s.coreAt (coreOf g)).active
  let next := if c.det then max cap.toNat (detCap a c.detw) else cap.toNat
  let needs := match taker with
    | some j => (s.ctxAt (4 * coreOf g + j.val)).status == .bound && (s.ctxAt (4 * coreOf g + j.val)).prio == 0
    | none => true
  if !capOk cap || !s.capFits g || (decide (next < c.cap.toNat) && !(needs && s.laneVictim (coreOf g) == some g)) then s
  else s.putCtx g { c with next := BitVec.ofNat 7 next, pend := BitVec.ofNat 7 next != c.cap, taker := taker }

/-- May the taker run on n reclaimed lanes: it holds none, and a deterministic one needs its whole width (R237). -/
def Ctx.takes (c : Ctx) (k : Core) (n : Nat) : Bool :=
  c.status == .bound && !c.vlive && !c.borrows && decide (0 < n) && (!c.det || decide (c.laneWidth k ≤ n))

/-- Entries of logical lanes cap to A - 1 go to the save record (R236, R240). -/
def State.spill (s : State) (cap : Nat) : State :=
  match s.c.task with
  | none => s
  | some t =>
    let n := 8 * (s.k.active - cap)
    { s with c := { s.c with spilled := true } } |> (List.range 32).foldl (fun u r =>
      u.putBytes none Lay.plain (t.save + 0x4000 + 512 * r + 8 * cap)
        (leBytes n ((s.rv (Fin.ofNat 32 r)).toNat >>> (64 * cap))))

/-- The entries above the old cap lo come back from the save record, those below a cap hi that remains (R236). -/
def State.reload (s : State) (lo hi : Nat) : State :=
  let n := min hi s.k.active - lo
  match s.c.task with
  | none => s
  | some t =>
    if !s.c.spilled || n == 0 then s
    else
      let keep : BitVec 4096 := ~~~BitVec.ofNat 4096 ((2 ^ (64 * n) - 1) * 2 ^ (64 * lo))
      let r := s.deviceView (t.save + 0x4000) 0x4000
      let s1 := (List.range 32).foldl (fun u j =>
        let bs := r.2.bytesAt false (t.save + 0x4000 + 512 * j + 8 * lo) (8 * n)
        u.wv (Fin.ofNat 32 j) ((u.rv (Fin.ofNat 32 j) &&& keep) ||| BitVec.ofNat 4096 (leNat bs * 2 ^ (64 * lo)))) r.1
      { s1 with c := { s1.c with spilled := decide (hi < s.k.active) } }

/-- The context shares the core's lanes again, once those reclaimed for it have returned (R237). -/
def State.regain (s : State) : State :=
  if s.c.lanesBack then { s with c := { s.c with lanesHeld := 0, lanesBack := false } } else s

/-- A cap or a lift that waits takes effect, outside a thread region, a lower cap not against LPIN, nor while a fixed-latency result is
pending, nor in handler mode (R109, R223, R235, R236). -/
def State.takeCap (s : State) : State :=
  if !s.c.pend || s.c.thr || ((s.c.lpin || !s.c.settled || s.c.hnd) && decide (s.c.next.toNat < s.c.cap.toNat)) then s
  else
    let cap := s.c.next.toNat
    let s1 := { s with c := { s.c with cap := s.c.next, pend := false } }
    if s.c.cap.toNat ≤ cap then s1.reload s.c.cap.toNat cap
    else
      let s2 := if cap < s.k.active then s1.spill cap else s1
      match s.c.taker with
      | none => s2
      | some j =>
        let g := 4 * coreOf s.here + j.val
        let n := s.k.active - cap
        if g ≠ s.here ∧ (s2.ctxAt g).takes s.k n then s2.onCtx g fun c => { c with lanesHeld := BitVec.ofNat 8 n, lanesBack := false }
        else { s2 with c := { s2.c with taker := none } }

/-- A grant point (R235). -/
def State.grantPoint (s : State) : State := s.regain.takeCap

/-- Lanes reclaimed for context g return to their victim: its cap is to lift at its next grant point, after it has come back where it
is switched out; g counts them until its own next grant point (R236, R237). -/
def State.returnLanes (s : State) (g : Nat) : State :=
  if !(s.ctxAt g).borrows then s
  else
    let s1 := s.onCtx g fun c => { c with lanesBack := true }
    let s2 := (List.range 4).foldl (fun u j =>
      let h := 4 * coreOf g + j
      if h ≠ g ∧ (u.ctxAt h).taker = some (Fin.ofNat 4 g) then
        u.onCtx h fun c => { c with next := 64, pend := c.cap != 64, taker := none }
      else u) s1
    let back (o : OutTask) : OutTask :=
      if o.ctx ≠ g ∧ (coreOf o.ctx) = coreOf g ∧ o.taker = some (Fin.ofNat 4 g) then { o with taker := none } else o
    s2.onDie (dieOf g) fun x => { x with out := x.out.map back }

/-- Context g lets go of its lanes: its vector registers and masks are dead and read zero (R127, R132, R239). -/
def State.dropLanes (s : State) (g : Nat) : State :=
  (s.returnLanes g).onCtx g fun c =>
    { c with vl := 0, vlg := 0, vfmt := 0, vblk := .none, vlive := false, v := Vector.replicate 32 0,
             m := Vector.replicate 8 0, vbad := [], spilled := false }

/-! VCFG (R126, R127). -/

/-- SvlGrant (R70): VL and VLG, or the reason of FORMAT. -/
def svlGrant (wid : Nat) (request : Nat) (f : Fmt) (b : Blk) : Except Nat (Nat × Nat) :=
  let vlmax := wid * 64 / f.width
  let n := Blk.len b
  if n = 0 then .ok (min request vlmax, min request vlmax)
  else if !f.isBlock then .error 0
  else if vlmax < n then .error 1
  else
    let vlg := min ((request + n - 1) / n * n) (vlmax / n * n)
    .ok (min request vlg, vlg)

def execSvl (rd ra : XReg) (f : Fmt) (b : Blk) (s : State) : Out :=
  .next <|
    if s.c.det ∧ s.k.active < s.c.detw.toNat then
      s.raise { cause := .detw, detail := s.c.detw.zeroExtend 56 <<< 49, addr := BitVec.ofNat 64 s.k.active }
    else if !s.c.vlive then s.waitFor .lanes .scu
    else
      let t := s.grantPoint
      match svlGrant t.wid (s.rx ra).toNat f b with
      | .error r => s.raise (formatTrap .scu r)
      | .ok (vl, vlg) =>
        ({ t with c := { t.c with vl := BitVec.ofNat 13 vl, vlg := BitVec.ofNat 13 vlg, vfmt := f.code, vblk := b } }.wx rd
          (BitVec.ofNat 64 vl)).adv

/-- The sequencer binds lanes to the context that waits: VLIVE is set, registers and masks read zero (R126). -/
def execLaneBinding (s : State) : Out :=
  .next <|
    if s.c.wait = .lanes then
      { s.resume with c := { s.resume.c with
          vlive := true, v := Vector.replicate 32 0, m := Vector.replicate 8 0, vbad := [] } }
    else s

def execVrel (s : State) : Out := s.draining drainAll (.next (s.dropLanes s.here).adv)

/-- The named queues are empty: the draining instruction goes on (R107). -/
def execDrainCompletion (s : State) : Out :=
  .next <| match s.c.wait with
  | .drain qs => if qs.all s.c.queues.isEmpty then s.resume else s
  | _ => s

end Sys2Proof.Machine
end

