-- ==== Sys2Proof/Machine/Threads.lean ====
section
/-! DEFINITION. Vector threads: VTF (R121 to R125): opening a region, fetching and checking a lane's block, and joining. -/

namespace Sys2Proof.Machine

/-- What a trap of the SCU for an illegal word reports: its reason and the word (R227). -/
def illegalTrap (r : Nat) (w : Word) : Trap := { cause := .illegal, detail := reason r, addr := w }

/-! Opening a region (R122). -/

/-- The lanes that vfetch starts: below the width in force, with an element below VL in VCFG.FMT; under a code that names no format
the width is free (log 9, DESIGN CHOICE). -/
def State.threadLanes (s : State) : List Nat :=
  (List.range s.wid).filter fun l => decide (64 * l / codeWidth s.c.vfmt < s.vl)

def execVfetch (off : BitVec 32) (s : State) : Out :=
  let t := s.target off
  .next ({ s with c := { s.c with
      thr := true
      thrX := s.c.x
      thrFmt := s.c.vfmt
      thrFault := none
      lanes := (s.threadLanes).foldl (fun ls l => tabSet LaneState.idle ls l ⟨t, true, []⟩) s.c.lanes } }).adv

/-! A lane's blocks (R123, R124). -/

/-- What may stand in a block (R123). -/
def blockAllows : Instr → Bool
  | .vadd _ | .vsub _ | .vaddc _ | .vsubb _ | .vmul _ | .vmulh _ | .vmin _ | .vmax _ | .vand _ | .vor _ | .vxor _
  | .vsll _ | .vsrl _ | .vsra _ | .vabsd _ | .vmac _
  | .vceq _ | .vcne _ | .vclt _ | .vcle _ | .vcgt _ | .vcge _
  | .vfadd _ | .vfsub _ | .vfmul _ | .vffma _ | .vffnma _ | .vfmin _ | .vfmax _ | .vfabs _ | .vfneg _ | .vfsgn _
  | .vfexp2 _ | .vflog2 _ | .vfrcp _ | .vfrsq _ | .vfdiv _ | .vfsqrt _
  | .vcswi _ | .vcvt _ | .mand _ _ _ _ | .mor _ _ _ _ | .mxor _ _ _ _ | .mandn _ _ _ _ | .mnot _ _ _ | .mmv _ _ _
  | .vmvv _ | .vid _ | .tfetch _ _ | .tstop => true
  | .vbcast o => match o.b with
    | .vec _ => false
    | .sca _ | .imm _ => true
  | _ => false

/-- Does a word end its block: a tstop or an unpredicated tfetch? -/
def endsBlock : Instr → Bool
  | .tstop => true
  | .tfetch pm _ => pm == 0
  | _ => false

/-- The address a lane fetches a word of its block at: under VAH as it stands then, since no rule has vfetch carry it past its own
fetch (R105; log 49, DESIGN CHOICE), and under 0 in handler mode (R224). -/
def State.laneVa (s : State) (a : Word) : Nat := if s.c.hnd then a.toNat else s.va72 a

/-- Fetch one word of a block: none where it cannot be fetched, an uncorrectable error in it included (log 49, DESIGN CHOICE); no
trap of its own (R123). -/
def State.laneWord (s : State) (a : Word) : State × Option Word :=
  match s.translate s.view (s.laneVa a) Need.fetch .plain with
  | (s1, .error _) => (s1, none)
  | (s1, .ok l) =>
    if l.ap ≠ 0 then (s1, none)
    else
      match s1.checkRead l.lay l.pa 8 with
      | (s2, some _) => (s2, none)
      | (s2, none) => (s2, some (BitVec.ofNat 64 (leNat (s2.bytesAt l.lay.raw l.pa 8))))

/-- Fetch and check the block at a: its words, or the sub-reason of R123, that of the first word that fails (log 49, DESIGN
CHOICE). The first argument is how many words it may still have. -/
def State.fetchBlock (s : State) : Nat → Word → State × Except Nat (List Word)
  | 0, _ => (s, .error 0)
  | n + 1, a =>
    match s.laneWord a with
    | (s1, none) => (s1, .error 2)
    | (s1, some w) =>
      match decode w with
      | .error _ => (s1, .error 1)
      | .ok i =>
        if !blockAllows i then (s1, .error 0)
        else if endsBlock i then (s1, .ok [w])
        else
          match State.fetchBlock s1 n (a + 8) with
          | (s2, .error e) => (s2, .error e)
          | (s2, .ok ws) => (s2, .ok (w :: ws))

/-- A failed check: the lane executes none of the block and stops, LPC at it (R123). -/
def blockTrap (sub : Nat) (a : Word) : Trap :=
  { cause := .illegal, detail := reason 2 ||| BitVec.ofNat 56 (sub * 2 ^ 48), addr := a, unit := .vq }

/-- Lane l fetches its next block. -/
def State.laneFetch (s : State) (l : Nat) : State :=
  let st := tabGet LaneState.idle s.c.lanes l
  match s.fetchBlock 16 st.lpc with
  | (s1, .error sub) => s1.laneFault l (blockTrap sub st.lpc)
  | (s1, .ok ws) =>
    { s1 with c := { s1.c with lanes := tabSet LaneState.idle s1.c.lanes l { st with block := ws } } }

/-- Set the micro-thread state of lane l. -/
def State.setLane (s : State) (l : Nat) (st : LaneState) : State :=
  { s with c := { s.c with lanes := tabSet LaneState.idle s.c.lanes l st } }

/-- tfetch: the lane goes to the target when the mask holds all its elements below VL, else on; in the SCU's own stream
it is ILLEGAL (R121, R124). -/
def execTfetch (pm : MReg) (off : BitVec 32) (s : State) : Out :=
  .next <| match s.laneSel with
  | none => s.raise (illegalTrap 1 ((Sys2Proof.encode (.tfetch pm off) 0).getD 0))
  | some l =>
    if (s.laneElems l s.c.regionWidth).all (s.maskBit pm) then
      let st := tabGet LaneState.idle s.c.lanes l
      s.setLane l { st with lpc := st.lpc + off.signExtend 64, block := [] }
    else s.adv

/-- tstop: the lane stops; in the SCU's own stream it is ILLEGAL (R121, R124). -/
def execTstop (s : State) : Out :=
  .next <| match s.laneSel with
  | none => s.raise (illegalTrap 1 ((Sys2Proof.encode .tstop 0).getD 0))
  | some l =>
    let st := tabGet LaneState.idle s.c.lanes l
    s.setLane l { st with run := false, block := [] }

/-! Joining (R125). -/

/-- Lanes that run. -/
def Ctx.running (c : Ctx) : List Nat := (c.lanes.filter fun e => e.2.run).map (·.1)

/-- The trap a region's fault becomes at its vjoin: of a lane (UNIT 5), or of a failed check, of the vjoin (R123, R124). -/
def LaneFault.trap (f : LaneFault) : Trap :=
  { cause := if f.cause = 0x01 then .illegal else if f.cause = 0x14 then .format else .memue
    detail := f.detail
    addr := f.addr
    unit := if f.cause = 0x01 then .vq else .lane
    elem := some (f.reg, f.elem) }

/-- Close the region: every RUN is 0, THR clear. -/
def State.closeRegion (s : State) : State :=
  { s.resume with c := { s.resume.c with
      thr := false
      thrFault := none
      lanes := tabMap LaneState.idle (fun st => { st with run := false, block := [] }) s.c.lanes } }

/-- Every lane has stopped: the region closes, with its fault if it has one. -/
def State.join (s : State) : State :=
  match s.c.thrFault with
  | none => s.closeRegion.adv
  | some f => s.closeRegion.raise f.trap

/-- vjoin completes at once with no region open or no lane running; else it waits (R125, R231). -/
def execVjoin (s : State) : Out :=
  .next <| if !s.c.thr then s.adv else if s.c.running = [] then s.join else s.waitFor .vjoin .scu

/-- Every lane of a waiting vjoin has stopped (R125). -/
def execVjoinCompletion (s : State) : Out :=
  .next <| if s.c.wait = .vjoin ∧ s.c.running = [] then s.join else s

end Sys2Proof.Machine
end

