-- ==== Sys2Proof/Machine/System.lean ====
section
/-! DEFINITION. System instructions: the CSRs and their fields (R57, R71, R101 to R103, R144, R155, R159, R167, R176, R193,
R197, R209, R226, R229, R231, R232, R234, R243, R252, R277), SYS (R131), traps from it and the return (R224, R225),
waits for engines (R130), and halt (R132). -/

namespace Sys2Proof.Machine

/-! Ownership of the matrix state (R154, R155, R157). -/

/-- The number of the context in hand within its core. -/
def State.num (s : State) : Fin 4 := Fin.ofNat 4 s.here

/-- RES: this context owns the matrix state (R155). -/
def State.owns (s : State) : Bool := s.k.owner == some s.num

/-- RES written in handler mode: 1 makes this context the owner, tiles kept; 0 by the owner ends ownership (R155). -/
def State.setRes (s : State) (res : Bool) : State :=
  if res then { s with k := { s.k with owner := some s.num } }
  else if s.owns then { s with k := { s.k with owner := none } } else s

/-- mxoff (R157); in handler mode MXPROG stays as it is (R158; log 47, DEDUCED). -/
def State.matrixOff (s : State) : State :=
  let t := { s with c := { s.c with mxen := false, mxprog := if s.c.hnd then s.c.mxprog else 0 } }
  if t.owns then { t with k := { t.k with owner := none } } else t

/-! What each CSR reads. -/

/-- STAT (R103). -/
def State.stat (s : State) : Word :=
  let b (v : Bool) (n : Nat) : Nat := v.toNat * 2 ^ n
  let n := s.here
  BitVec.ofNat 64 (n / 512 % 4 * 2 ^ 27 + n / 64 % 8 * 2 ^ 24 + n / 4 % 16 * 2 ^ 20 + b s.c.vlive 5 + b s.c.mxen 4 +
    b s.c.thr 3 + b s.c.hnd 2 + n % 4)

/-- CTL (R102). -/
def Ctx.ctl (c : Ctx) : Word := 0#60 ++ BitVec.ofBool c.lpin ++ BitVec.ofBool c.hmchk ++ BitVec.ofBool c.sbc ++ BitVec.ofBool c.det

/-- LGRANT (R234). -/
def State.lgrant (s : State) : Word :=
  let held : BitVec 8 := if s.c.vlive then BitVec.ofNat 8 (s.c.laneCount s.k) else 0
  0#40 ++ BitVec.ofBool s.c.pend ++ s.c.next ++ held ++ 0#1 ++ s.c.cap

/-- MXCTL (R155). -/
def State.mxctl (s : State) : Word :=
  let own : Fin 4 := s.k.owner.getD 0
  0#56 ++ BitVec.ofBool s.k.owner.isSome ++ BitVec.ofNat 2 own.val ++ 0#3 ++ BitVec.ofBool s.owns ++ BitVec.ofBool s.c.mxen

/-- EIDX (R226). -/
def Ctx.eidxWord (c : Ctx) : Word := 0#45 ++ c.eidxReg ++ 0#3 ++ c.eidx

/-- The value of a CSR (R101). -/
def State.csr (s : State) : Csr → Word
  | .ctl => s.c.ctl
  | .stat => s.stat
  | .vl => s.c.vl.zeroExtend 64
  | .vlg => s.c.vlg.zeroExtend 64
  | .vcfg => 0#58 ++ Blk.code s.c.vblk ++ s.c.vfmt
  | .scnt => s.c.scnt
  | .eidx => s.c.eidxWord
  | .vah => s.c.vah.zeroExtend 64
  | .detw => s.c.detw.zeroExtend 64
  | .fmsk n => s.c.fmsk.extractLsb' (64 * n.val) 64
  | .tcause => s.c.tcause.zeroExtend 64
  | .taddr => s.c.taddr
  | .tpc => s.c.tpc
  | .tvec => s.c.tvec
  | .tsp => s.c.tsp
  | .tinfo => s.c.tinfo
  | .dfcause => s.c.dfcause.zeroExtend 64
  | .dfaddr => s.c.dfaddr
  | .lmap => s.k.lmap
  | .vlmax => BitVec.ofNat 64 (s.k.active * 2 ^ 8 + s.wid)
  | .lgrant => s.lgrant
  | .eptlim => s.c.eptlim.zeroExtend 64
  | .eptport => s.c.eptport.zeroExtend 64
  | .mxctl => s.mxctl
  | .mxrowp => s.c.mxrowp
  | .mxcolp => s.c.mxcolp
  | .mxprog => s.c.mxprog.zeroExtend 64
  | .plst => s.c.plst.zeroExtend 64
  | .swlim => s.c.swlim.zeroExtend 64
  | .pltol => s.c.pltol.zeroExtend 64
  | .plsw => s.c.plsw.zeroExtend 64
  | .pleps => s.c.pleps.zeroExtend 64
  | .tick => (s.dieAt s.die).tick
  | .deadln => s.c.deadln
  | .prio => s.c.prio.zeroExtend 64
  | .dlwin => s.c.dlwin
  | .hmexp => s.c.hmexp.zeroExtend 64
  | .session => s.c.session.zeroExtend 64
  | .watch n => s.c.watch[n]
  | .watchctl => s.c.watchctl
  | .ptroot => s.c.ptroot
  | .asid => s.c.asid.zeroExtend 64

/-! Writing a CSR. -/

/-- How task mode may use a CSR (R101): read and write, read only everywhere, read only but written in handler mode, H. -/
inductive CsrMode where
  | rw | ro | handler | h
  deriving DecidableEq, Repr

def csrMode : Csr → CsrMode
  | .ctl | .vah | .mxrowp | .mxcolp | .swlim | .pltol | .pleps | .hmexp | .watch _ | .watchctl => .rw
  | .stat | .detw | .lmap | .vlmax | .lgrant | .tick | .deadln | .prio | .session => .ro
  | .vl | .vlg | .vcfg | .plst | .plsw => .handler
  | .scnt | .eidx | .fmsk _ | .tcause | .taddr | .tpc | .tvec | .tsp | .tinfo | .dfcause | .dfaddr | .eptlim | .eptport
  | .mxctl | .mxprog | .dlwin | .ptroot | .asid => .h

/-- FMSK with doubleword n replaced. -/
def putFmsk (f : BitVec 1024) (n : Fin 16) (v : Word) : BitVec 1024 :=
  (f &&& ~~~(BitVec.ofNat 1024 ((2 ^ 64 - 1) * 2 ^ (64 * n.val)))) ||| BitVec.ofNat 1024 (v.toNat * 2 ^ (64 * n.val))

/-- Watch fields that software writes (R232). -/
def watchMask : Word := 0xFC0FFFFFFFFFFFC0
def watchctlMask : Word := 0x1FF71FF71FF71FF7

/-- Store the writable fields of a CSR; its zero fields ignore the write (R6). -/
def State.putCsr (s : State) (r : Csr) (v : Word) : State :=
  match r with
  | .ctl => { s with c := { s.c with lpin := v.getLsbD 3, hmchk := v.getLsbD 2, sbc := v.getLsbD 1 } }
  | .vl => { s with c := { s.c with vl := v.extractLsb' 0 13 } }
  | .vlg => { s with c := { s.c with vlg := v.extractLsb' 0 13 } }
  | .vcfg => { s with c := { s.c with vfmt := v.extractLsb' 0 4, vblk := Blk.ofCode (v.extractLsb' 4 2) } }
  | .scnt => { s with c := { s.c with scnt := v } }
  | .eidx => { s with c := { s.c with eidxReg := v.extractLsb' 16 3, eidx := v.extractLsb' 0 13 } }
  | .vah => { s with c := { s.c with vah := v.extractLsb' 0 8 } }
  | .fmsk n => { s with c := { s.c with fmsk := putFmsk s.c.fmsk n v } }
  | .tcause => { s with c := { s.c with tcause := v.extractLsb' 0 8 } }
  | .taddr => { s with c := { s.c with taddr := v } }
  | .tpc => { s with c := { s.c with tpc := v &&& ~~~7#64 } }
  | .tvec => { s with c := { s.c with tvec := v &&& ~~~7#64 } }
  | .tsp => { s with c := { s.c with tsp := v &&& ~~~15#64 } }
  | .tinfo => { s with c := { s.c with tinfo := v &&& ~~~0x0100000000000000#64 } }
  | .dfcause => { s with c := { s.c with dfcause := v.extractLsb' 0 12 } }
  | .dfaddr => { s with c := { s.c with dfaddr := v } }
  | .eptlim => { s with c := { s.c with eptlim := v.extractLsb' 0 32 } }
  | .eptport => { s with c := { s.c with eptport := v.extractLsb' 0 16 } }
  | .mxctl => { s.setRes (v.getLsbD 1) with c := { s.c with mxen := v.getLsbD 0 } }
  | .mxrowp => { s with c := { s.c with mxrowp := v } }
  | .mxcolp => { s with c := { s.c with mxcolp := v } }
  | .mxprog => { s with c := { s.c with mxprog := v.extractLsb' 0 10 } }
  | .plst => { s with c := { s.c with plst := v.extractLsb' 0 32 &&& 0xFFFF000F } }
  | .swlim => { s with c := { s.c with swlim := v.extractLsb' 0 16 } }
  | .pltol => { s with c := { s.c with pltol := v.extractLsb' 0 32 } }
  | .plsw => { s with c := { s.c with plsw := v.extractLsb' 0 16 } }
  | .pleps => { s with c := { s.c with pleps := v.extractLsb' 0 32 } }
  | .dlwin => { s with c := { s.c with dlwin := v } }
  | .hmexp => { s with c := { s.c with hmexp := v.extractLsb' 0 18 } }
  | .watch n => { s with c := { s.c with watch := s.c.watch.set n (v &&& watchMask) } }
  | .watchctl => { s with c := { s.c with watchctl := v &&& watchctlMask } }
  | .ptroot => { s with c := { s.c with ptroot := v &&& 0x000FFFFFFFFF0000#64 } }
  | .asid => { s with c := { s.c with asid := v.extractLsb' 0 16 } }
  | .stat | .detw | .lmap | .vlmax | .lgrant | .tick | .deadln | .prio | .session => s

/-- A write of a CSR by csrw, csrs or csrc (R101): ACCESS with reason 4 for an H register in task mode; writes of what is
read only are ignored. -/
def State.writeCsr (s : State) (r : Csr) (v : Word) : State :=
  match csrMode r with
  | .rw => (s.putCsr r v).adv
  | .ro => s.adv
  | .handler => if s.c.hnd then (s.putCsr r v).adv else s.adv
  | .h =>
    if s.c.hnd then (s.putCsr r v).adv
    else s.raise (accessTrap .scu 4 Need.write (Csr.code r |>.zeroExtend 64))

def execCsrr (rd : XReg) (r : Csr) (s : State) : Out :=
  if r = .tick then s.put rd (s.csr r) else s.draining drainAll (s.put rd (s.csr r))

def execCsrw (r : Csr) (ra : XReg) (s : State) : Out := s.draining drainAll (.next (s.writeCsr r (s.rx ra)))
def execCsrs (r : Csr) (ra : XReg) (s : State) : Out := s.draining drainAll (.next (s.writeCsr r (s.csr r ||| s.rx ra)))
def execCsrc (r : Csr) (ra : XReg) (s : State) : Out := s.draining drainAll (.next (s.writeCsr r (s.csr r &&& ~~~s.rx ra)))

/-- A handler-mode write of MXCTL.RES (R155). -/
def execMxctlResWrite (res : Bool) (s : State) : Out := .next (if s.c.hnd then s.setRes res else s)

/-- A handler-mode write of PTROOT or ASID; this machine caches no translation to discard (R201). -/
def execPtrootAsidWrite (asid : Bool) (v : Word) (s : State) : Out :=
  .next (if s.c.hnd then s.putCsr (if asid then .asid else .ptroot) v else s)

/-! Traps and the return (R131, R224, R225). -/

/-- SWTRAP and BRK report IMM14 (R227). -/
def softTrap (c : Cause) (imm : BitVec 14) : Trap := { cause := c, detail := imm.zeroExtend 56 }

def execTrap (imm : BitVec 14) (s : State) : Out := .next (s.raise (softTrap .swtrap imm))
def execBrk (imm : BitVec 14) (s : State) : Out := .next (s.raise (softTrap .brk imm))

/-- Entry e of a fault batch with REASON 2 where the mask names it (R212, R332). -/
def refuseEntry (mask : BitVec 16) (e : Nat) (bs : List Byte) : List Byte :=
  if mask.getLsbD e then bs.set 7 ((bs.getD 7 0 &&& 0x0F) ||| 0x20) else bs

/-- The progress point of an instruction (R144, R167, R181, R210, R222). -/
def pointOf : Instr → Point
  | .vld _ | .vlds _ | .vldx _ | .vldbp _ | .vst _ | .vsts _ | .vstx _ | .vstbp _ | .vamoAdd _ | .vamoMin _ | .vamoMax _ => .fmsk
  | .arrAdd _ | .arrSub _ | .arrMul _ | .arrDiv _ | .arrMax _ | .arrMin _ | .arrEq _ | .arrLt _ | .arrAnd _ | .arrOr _
  | .arrNeg _ _ _ | .arrAbs _ _ _ | .arrExp _ _ _ | .arrLog _ _ _ | .arrCvt _ _ _ | .arrCopy _ _ _ | .arrRed _
  | .arrScan _ | .arrGrade _ _ _ _ | .arrRot _
  | .arrTake _ | .arrDrop _ | .arrShape _ _ _ | .arrTpose _ _ _ | .arrOuter _ _ | .arrFrom _ | .arrComp _ _ | .arrCat _ _
  | .arrIota _ _ => .scnt
  | .mxa _ | .mxld _ _ _ | .mxst _ _ _ _ | .plset _ _ | .plout _ _ => .mxprog
  | .bal _ => .plsw
  | _ => .none

/-- The instruction at the PC of the context in hand, where its word can be fetched and decodes. -/
def State.atPc (s : State) : State × Option Instr :=
  match s.laneWord s.c.pc with
  | (t, some w) =>
    match decode w with
    | .ok i => (t, some i)
    | .error _ => (t, none)
  | (t, none) => (t, none)

/-- The progress point of I, the instruction at the PC, for an asynchronous stop (R222, R226). -/
def State.pointAt (s : State) : State × Point := (s.atPc.1, (s.atPc.2.map pointOf).getD .none)

/-- The fault that the context's request answers: the PAGE or HPAGE that wrote its record, else the one taken in task mode (R212;
log 16, DEDUCED). -/
def Ctx.requested (c : Ctx) : Paged :=
  ((c.paged.find? fun p => p.record == c.request).or c.paged.getLast?).getD ⟨c.request, c.taddr, false, 0, c.eidxReg, c.eidx⟩

/-- HPAGE for the context in hand, held at I (R212, R226, R227): the request's record with the refused entries marked; TADDR, MORE,
UNIT and EIDX as its fault reported them, TADDR in the first entry's page; the progress point I's (log 16, DEDUCED). -/
def State.hpage (s : State) (mask : BitVec 16) : Trap :=
  let bs := leBytes 256 s.c.request.toNat
  let entries := (List.range 16).map fun e => (bs.drop (16 * e)).take 16
  let n := (entries.filter fun e => e.any (· != 0)).length
  let page := BitVec.ofNat 64 (leNat (bs.take 7) * 2 ^ 16)
  let p := s.c.requested
  { cause := .hpage
    detail := BitVec.ofNat 56 (n * 2 ^ 51 + p.more.toNat * 2 ^ 50)
    addr := if p.addr &&& ~~~0xFFFF#64 = page then p.addr else page
    unit := match p.unit with
      | 1 => .vq
      | 2 => .lq
      | 3 => .mq
      | 4 => .aq
      | _ => .scu
    elem := some (p.reg, p.idx)
    point := s.pointAt.2
    record := ((List.range 16).map fun e => refuseEntry mask e (entries.getD e [])).flatten }

/-- A context held for an answer that has come goes on, or raises HPAGE at its PC (R212). -/
def State.takeAnswer (s : State) : State :=
  match s.c.held, s.c.answer with
  | true, some (fail, mask) =>
    let t := { s with c := { s.c with held := false, answer := none } }
    if fail then t.pointAt.1.raise (t.hpage mask) else t
  | _, _ => s

/-- The return from a handler: x31, PC, HND and BUSY; a failing read of x31 is a double fault (R225, R229). A request sent
by the handler holds the context at TPC (R212). -/
def State.tret (s : State) : State :=
  match s.devRead ((s.c.tsp &&& ~~~15#64) - 8) 8 with
  | (s1, .error t) => s1.doubleFault 4 t
  | (s1, .ok bs) =>
    let s2 := s1.wx 31 (BitVec.ofNat 64 (leNat bs))
    State.takeAnswer { s2 with c := { s2.c with
        pc := s2.c.tpc
        hnd := s2.c.tinfo.getLsbD 57
        tinfo := s2.c.tinfo &&& ~~~0x8000000000000000#64
        held := s2.c.asking || s2.c.held
        asking := false } }

def execTret (s : State) : Out :=
  if s.c.hnd then s.draining drainAll (.next s.tret)
  else .next (s.raise (illegalTrap 4 ((Sys2Proof.encode .tret 0).getD 0)))

/-- Why a word is illegal where it stands: it does not decode; tfetch or tstop; tret in task mode; not accepted in a thread
region (R31, R121, R125, R131). -/
def illegalReason (w : Word) : Nat :=
  match decode w with
  | .error _ => 0
  | .ok i =>
    match i with
    | .tfetch _ _ | .tstop => 1
    | .tret => 4
    | _ => 3

/-- A word that is no instruction, or none here (R31, R32). -/
def execIllegalInstruction (w : Word) (s : State) : Out := .next (s.raise (illegalTrap (illegalReason w) w))

/-! Waiting (R130, R131). -/

def execNop (s : State) : Out := .next s.adv

/-- wfe suspends issue; it may return with no event, so the wait may end at any step (R131). -/
def execWfe (s : State) : Out := .next (s.waitFor .wfe .scu)

/-- An event, or none, ends a wfe. -/
def execWfeWake (s : State) : Out := .next (if s.c.wait = .wfe then s.resume.adv else s)

/-- The place of a class among the completed counts (R99); a class that has none is never named (R28). -/
def countOf : Cls → Fin 6
  | .ccopy => 0
  | .dcopy => 1
  | .seam => 2
  | .coll => 3
  | .disp => 4
  | .enc => 5
  | .ls | .mxl | .host => 0

/-- Has the count of a class reached a target, as a signed difference (R130)? -/
def State.reached (s : State) (c : Cls) (target : Word) : Bool := (0#64).sle (s.c.counts[countOf c] - target)

def execEwait (c : Cls) (xq : XReg) (s : State) : Out :=
  s.draining [.lq] (.next (if s.reached c (s.rx xq) then s.adv else s.waitFor (.engine c (s.rx xq)) .scu))

def execEpoll (c : Cls) (xq : XReg) (s : State) : Out := s.draining [.lq] (s.put xq (s.c.counts[countOf c]))

/-- A waiting ewait goes on once its count is reached (R130). -/
def execEngineCountWaitRelease (s : State) : Out :=
  .next <| match s.c.wait with
  | .engine c target => if s.reached c target then s.resume.adv else s
  | _ => s

/-! The end of a task (R132): halt, then the task's end when its work has completed. -/

/-- halt: queues drained, lanes released, matrix state off; the context drains (R132). -/
def execHalt (s : State) : Out :=
  s.draining drainAll <| .next <|
    let t := s.dropLanes s.here
    let u := if t.c.mxen then t.matrixOff else t
    { u.releaseAll u.here with c := { (u.releaseAll u.here).c with status := .drain } }.adv

end Sys2Proof.Machine
end

