-- ==== Sys2Proof/Machine/Forms.lean ====
section
/-! DEFINITION. What issue needs to know of each instruction: the scalar registers it reads and writes (R105, R106, R110), the
queue it goes to (R104), whether a thread region accepts it (R125), and how it drives the lanes (R242). -/

namespace Sys2Proof.Machine

/-! Scalar registers that an instruction reads at issue (R105, R110). -/

def xsrcReads : XSrc → List XReg
  | .reg r => [r]
  | .imm _ => []

def vsrcReads : VSrc → List XReg
  | .sca r => [r]
  | .vec _ | .imm _ => []

def vcountReads : VCount → List XReg
  | .sca r => [r]
  | .imm _ => []

def acountReads : ACount → List XReg
  | .sca r => [r]
  | .imm _ => []

def tileReads : TileIdx → List XReg
  | .reg r => [r]
  | .imm _ => []

def allXRegs : List XReg := (List.range 32).map fun n => Fin.ofNat 32 n

/-- The scalar registers an instruction reads at issue; vfetch copies them all, every instruction not listed reads none. -/
def xreads : Instr → List XReg
  | .add _ ra b | .sub _ ra b | .and _ ra b | .or _ ra b | .xor _ ra b | .sll _ ra b | .srl _ ra b | .sra _ ra b
  | .slt _ ra b | .sltu _ ra b | .min _ ra b | .max _ ra b | .minu _ ra b | .maxu _ ra b | .mul _ ra b | .mulh _ ra b
  | .mulhu _ ra b | .div _ ra b | .divu _ ra b | .rem _ ra b | .remu _ ra b | .ld8 _ ra b | .ld16 _ ra b
  | .ld32 _ ra b | .ld64 _ ra b | .ldz8 _ ra b | .ldz16 _ ra b | .ldz32 _ ra b => [ra] ++ xsrcReads b
  | .clz _ ra | .ctz _ ra | .popc _ ra | .lui _ ra _ | .mv _ ra | .svl _ ra _ _ | .csrw _ ra | .csrs _ ra | .csrc _ ra =>
    [ra]
  | .sel rd ra rb => [rd, ra, rb]
  | .st8 rs ra b | .st16 rs ra b | .st32 rs ra b | .st64 rs ra b => [rs, ra] ++ xsrcReads b
  | .amoAdd o | .amoAnd o | .amoOr o | .amoXor o | .amoMin o | .amoMax o | .amoSwap o => [o.ra, o.rb]
  | .amoCas o => [o.ra, o.rb, o.rd]
  | .beq ra rb _ | .bne ra rb _ | .blt ra rb _ | .bge ra rb _ | .bltu ra rb _ | .bgeu ra rb _ => [ra, rb]
  | .jalr _ rb _ => [rb]
  | .smb o => [o.xc, o.xp0, o.xp1, o.xp2, o.xp3]
  | .vfetch _ => allXRegs
  | .ewait _ xq => [xq]
  | .vadd o | .vsub o | .vmul o | .vmulh o | .vmin o | .vmax o | .vand o | .vor o | .vxor o | .vsll o | .vsrl o
  | .vsra o | .vabsd o | .vceq o | .vcne o | .vclt o | .vcle o | .vcgt o | .vcge o | .vfadd o | .vfsub o | .vfmul o
  | .vfmin o | .vfmax o | .vfsgn o | .vfdiv o | .vbcast o | .vcswi o => vsrcReads o.b
  | .mshl _ _ n _ | .mshr _ _ n _ | .mset _ n _ => vcountReads n
  | .vslup o | .vsldn o => vcountReads o.n
  | .vrng o | .vctr o => [o.xb]
  | .vld o | .vldx o | .vst o | .vstx o | .vamoAdd o | .vamoMin o | .vamoMax o => [o.xa]
  | .vlds o | .vldbp o | .vsts o | .vstbp o => [o.xa, o.xb]
  | .arrRot o | .arrTake o | .arrDrop o => acountReads o.n
  | .arrIota _ n => acountReads n
  | .dld _ xa | .dst _ xa | .dset _ xa _ _ | .claspw _ xa | .claspa _ xa | .hmchk _ xa | .spclaim _ xa _ | .sprel xa _ =>
    [xa]
  | .mxpred xn _ => [xn]
  | .mxrd _ _ ix _ | .mxwr _ _ ix _ => tileReads ix
  | .hmset xs xa => [xs, xa]
  | _ => []

/-- The scalar registers an instruction writes; every instruction not listed writes none. -/
def xwrites : Instr → List XReg
  | .add rd _ _ | .sub rd _ _ | .and rd _ _ | .or rd _ _ | .xor rd _ _ | .sll rd _ _ | .srl rd _ _ | .sra rd _ _
  | .slt rd _ _ | .sltu rd _ _ | .min rd _ _ | .max rd _ _ | .minu rd _ _ | .maxu rd _ _ | .mul rd _ _ | .mulh rd _ _
  | .mulhu rd _ _ | .div rd _ _ | .divu rd _ _ | .rem rd _ _ | .remu rd _ _ | .clz rd _ | .ctz rd _ | .popc rd _
  | .li rd _ | .lui rd _ _ | .mv rd _ | .sel rd _ _ | .ld8 rd _ _ | .ld16 rd _ _ | .ld32 rd _ _ | .ld64 rd _ _
  | .ldz8 rd _ _ | .ldz16 rd _ _ | .ldz32 rd _ _ | .jal rd _ | .jalr rd _ _ | .svl rd _ _ _ | .epoll _ rd | .csrr rd _
  | .bfence _ rd | .mpop rd _ _ | .mfirst rd _ _ | .dget rd _ _ _ | .plcost rd _ | .hmchk rd _ | .spclaim rd _ _ | .asyrd rd _ =>
    [rd]
  | .amoAdd o | .amoAnd o | .amoOr o | .amoXor o | .amoMin o | .amoMax o | .amoSwap o | .amoCas o => [o.rd]
  | .smb o => [o.xc, o.xp0, o.xp1, o.xp2, o.xp3]
  | .vmvx o => [o.rd]
  | _ => []

/-! The queues (R104). -/

/-- Entries of a queue (R99); the SCU's own instructions stand in none. -/
def Queue.depth : Queue → Nat
  | .scu => 0
  | .vq => 32
  | .mq => 16
  | .lq => 32
  | .aq => 8

/-- Where an instruction is placed (R104); a row that no instruction word names is the SCU's. -/
def queueOf : Instr → Queue
  | .vadd _ | .vsub _ | .vaddc _ | .vsubb _ | .vmul _ | .vmulh _ | .vmin _ | .vmax _ | .vand _ | .vor _ | .vxor _ | .vsll _
  | .vsrl _ | .vsra _ | .vabsd _ | .vmac _ | .vceq _ | .vcne _ | .vclt _ | .vcle _ | .vcgt _ | .vcge _ | .vfadd _ | .vfsub _
  | .vfmul _ | .vffma _ | .vffnma _ | .vfmin _ | .vfmax _ | .vfabs _ | .vfneg _ | .vfsgn _ | .vfexp2 _ | .vflog2 _ | .vfrcp _
  | .vfrsq _ | .vfdiv _ | .vfsqrt _ | .vcvt _ | .vqnt _ | .vdqnt _ | .vbpsplit _ | .vbpjoin _
  | .mand _ _ _ _ | .mor _ _ _ _ | .mxor _ _ _ _ | .mandn _ _ _ _ | .mnot _ _ _ | .mshl _ _ _ _ | .mshr _ _ _ _ | .mpop _ _ _
  | .mfirst _ _ _ | .mset _ _ _ | .mmv _ _ _ | .vslup _ | .vsldn _ | .vgath _ | .vcomp _ | .vexpd _ | .vbcast _ | .vmvx _
  | .vmvv _ | .vid _ | .vredsum _ | .vredmax _ | .vredmin _ | .vredand _ | .vredor _ | .vredbs _ | .vscan _ | .vcswi _ | .vrng _
  | .vctr _ | .vfetch _ | .vjoin => .vq
  | .ld8 _ _ _ | .ld16 _ _ _ | .ld32 _ _ _ | .ld64 _ _ _ | .ldz8 _ _ _ | .ldz16 _ _ _ | .ldz32 _ _ _ | .st8 _ _ _
  | .st16 _ _ _ | .st32 _ _ _ | .st64 _ _ _ | .amoAdd _ | .amoAnd _ | .amoOr _ | .amoXor _ | .amoMin _ | .amoMax _ | .amoSwap _
  | .amoCas _ | .vld _ | .vlds _ | .vldx _ | .vldbp _ | .vst _ | .vsts _ | .vstx _ | .vstbp _ | .vamoAdd _ | .vamoMin _
  | .vamoMax _ | .fence _ | .lsync | .xfence _ _ _ | .vfence | .bfence _ _ | .ebatch _ | .clasp _ | .claspa _ _ | .hmset _ _
  | .hmchk _ _ | .spclaim _ _ _ | .sprel _ _ | .asyopen _ | .asyclose _ => .lq
  | .mxon | .mxoff | .mxz _ _ | .mxa _ | .mxpred _ _ | .mxrd _ _ _ _ | .mxwr _ _ _ _ | .mxld _ _ _ | .mxst _ _ _ _ | .plset _ _
  | .plmarg _ _ | .bal _ | .plout _ _ | .plcost _ _ | .plscl _ _ => .mq
  | .dld _ _ | .dst _ _ | .dset _ _ _ _ | .dget _ _ _ _ | .arrAdd _ | .arrSub _ | .arrMul _ | .arrDiv _ | .arrMax _ | .arrMin _
  | .arrEq _ | .arrLt _ | .arrAnd _ | .arrOr _ | .arrNeg _ _ _ | .arrAbs _ _ _ | .arrExp _ _ _ | .arrLog _ _ _ | .arrCvt _ _ _
  | .arrCopy _ _ _ | .arrRed _ | .arrScan _ | .arrGrade _ _ _ _ | .arrRot _ | .arrTake _ | .arrDrop _ | .arrShape _ _ _
  | .arrTpose _ _ _ | .arrOuter _ _ | .arrFrom _ | .arrComp _ _ | .arrCat _ _ | .arrIota _ _ => .aq
  | _ => .scu

/-- Instructions of VQ that drain VQ and LQ before they act (R107). -/
def drainsAhead : Instr → Bool
  | .vmvx _ | .mpop _ _ _ | .mfirst _ _ _ => true
  | _ => false

/-- Instructions of the assay that asyrd waits for (R325). -/
def movesAssay : Instr → Bool
  | .asyopen _ | .asyclose _ => true
  | _ => false

def opensRegion : Instr → Bool
  | .vfetch _ => true
  | _ => false

/-! Thread regions (R125). -/

/-- What the SCU accepts while a thread region is open; tfetch and tstop trap as themselves. -/
def regionAllows : Instr → Bool
  | .add _ _ _ | .sub _ _ _ | .and _ _ _ | .or _ _ _ | .xor _ _ _ | .sll _ _ _ | .srl _ _ _ | .sra _ _ _ | .slt _ _ _
  | .sltu _ _ _ | .min _ _ _ | .max _ _ _ | .minu _ _ _ | .maxu _ _ _ | .mul _ _ _ | .mulh _ _ _ | .mulhu _ _ _
  | .div _ _ _ | .divu _ _ _ | .rem _ _ _ | .remu _ _ _ | .clz _ _ | .ctz _ _ | .popc _ _
  | .li _ _ | .lui _ _ _ | .mv _ _ | .sel _ _ _
  | .ld8 _ _ _ | .ld16 _ _ _ | .ld32 _ _ _ | .ld64 _ _ _ | .ldz8 _ _ _ | .ldz16 _ _ _ | .ldz32 _ _ _
  | .st8 _ _ _ | .st16 _ _ _ | .st32 _ _ _ | .st64 _ _ _
  | .amoAdd _ | .amoAnd _ | .amoOr _ | .amoXor _ | .amoMin _ | .amoMax _ | .amoSwap _ | .amoCas _
  | .beq _ _ _ | .bne _ _ _ | .blt _ _ _ | .bge _ _ _ | .bltu _ _ _ | .bgeu _ _ _ | .jal _ _ | .jalr _ _ _ | .smb _
  | .ewait _ _ | .epoll _ _ | .fence _ | .lsync | .xfence _ _ _ | .bfence _ _
  | .csrr _ _ | .csrw _ _ | .csrs _ _ | .csrc _ _ | .trap _ | .brk _ | .tret | .wfe | .nop
  | .clasp _ | .claspw _ _ | .claspa _ _ | .hmset _ _ | .hmchk _ _ | .spclaim _ _ _ | .sprel _ _
  | .asyopen _ | .asyclose _ | .asyrd _ _ | .vjoin | .tfetch _ _ | .tstop => true
  | _ => false

/-- Does the SCU's own stream accept an instruction here (R121, R125, R131)? tfetch and tstop stand in blocks alone, tret in
handler mode. -/
def State.accepts (s : State) (i : Instr) : Bool :=
  match i with
  | .tfetch _ _ | .tstop => false
  | .tret => s.c.hnd
  | _ => !s.c.thr || regionAllows i

/-! Strips (R242). -/

/-- Registers of a group and element width of a lane instruction, or of a vector memory instruction: a conversion counts the
wider side's elements in the group of the narrower, a mask instruction bits (log 50, DESIGN CHOICE). -/
def stripShape : Instr → Option (Nat × Nat)
  | .vadd o | .vsub o | .vmul o | .vmulh o | .vmin o | .vmax o | .vand o | .vor o | .vxor o | .vsll o | .vsrl o | .vsra o
  | .vabsd o | .vfadd o | .vfsub o | .vfmul o | .vfmin o | .vfmax o | .vfsgn o | .vfdiv o | .vcswi o =>
    some (grpSize o.m.grp, o.fmt.width)
  | .vaddc o | .vsubb o => some (grpSize o.m.grp, o.fmt.width)
  | .vmac o | .vffma o | .vffnma o => some (grpSize o.m.grp, o.fmt.width)
  | .vceq o | .vcne o | .vclt o | .vcle o | .vcgt o | .vcge o => some (grpSize o.m.grp, o.fmt.width)
  | .vfabs o | .vfneg o | .vfexp2 o | .vflog2 o | .vfrcp o | .vfrsq o | .vfsqrt o | .vcomp o | .vexpd o | .vmvv o | .vredsum o
  | .vredmax o | .vredmin o | .vredand o | .vredor o => some (grpSize o.m.grp, o.fmt.width)
  | .vcvt o | .vbpsplit o | .vbpjoin o => some (grpSize o.m.grp, max o.dst.width o.src.width)
  | .vqnt o | .vdqnt o => some (grpSize o.m.grp, max o.dst.width o.src.width)
  | .vslup o | .vsldn o => some (grpSize o.m.grp, o.fmt.width)
  | .vgath o | .vredbs o => some (grpSize o.m.grp, o.fmt.width)
  | .vbcast o => some (grpSize o.m.grp, o.fmt.width)
  | .vmvx o => some (1, o.fmt.width)
  | .vid o => some (grpSize o.m.grp, o.fmt.width)
  | .vscan o => some (grpSize o.m.grp, o.fmt.width)
  | .vrng o | .vctr o => some (grpSize o.m.grp, 32)
  | .mand _ _ _ _ | .mor _ _ _ _ | .mxor _ _ _ _ | .mandn _ _ _ _ | .mnot _ _ _ | .mshl _ _ _ _ | .mshr _ _ _ _ | .mpop _ _ _
  | .mfirst _ _ _ | .mset _ _ _ | .mmv _ _ _ => some (1, 1)
  | .vld o => some (grpSize o.grp, o.fmt.width)
  | .vlds o => some (grpSize o.grp, o.fmt.width)
  | .vldx o => some (grpSize o.grp, o.fmt.width)
  | .vldbp o => some (o.pl.val + 1, 1)
  | .vst o => some (grpSize o.grp, o.fmt.width)
  | .vsts o => some (grpSize o.grp, o.fmt.width)
  | .vstx o | .vamoAdd o | .vamoMin o | .vamoMax o => some (grpSize o.grp, o.fmt.width)
  | .vstbp o => some (o.pl.val + 1, 1)
  | _ => none

/-- The element-beats a strip of an instruction is charged, if it is one that drives the lanes and can dispatch: one that waits for
lanes dispatches none (R242). -/
def State.beats (s : State) (i : Instr) : Option Nat :=
  match i with
  | .mxrd _ _ _ _ | .mxwr _ _ _ _ | .plscl _ _ => if s.c.vlive then some 4 else none
  | _ =>
    match stripShape i with
    | some (n, w) => some (n * ((s.vlg * w + 511) / 512))
    | none => if pointOf i = .scnt ∧ s.c.vlive then some 8 else none

end Sys2Proof.Machine
end

