-- ==== Sys2Proof/Machine/Fences.lean ====
section
/-! DEFINITION. Fences (R217 to R219, R270, R320, R323). Every access of this machine is performed when its instruction or
engine step runs (log 2, DESIGN CHOICE), so a fence waits for engine commands alone, and releases the held stores of a deterministic
context. -/

namespace Sys2Proof.Machine

/-! Engine commands of a context (R129, R130). -/

/-- The commands a class has accepted and not completed, where context g issues them. -/
def State.engine (s : State) (g : Nat) : Cls → List Cmd
  | .ccopy => (s.clusterAt (clusterOf g)).ccopy
  | .dcopy => (s.dieAt (dieOf g)).dcopy
  | .seam => (s.dieAt (dieOf g)).seam
  | .coll => (s.dieAt (dieOf g)).coll
  | .disp => (s.dieAt (dieOf g)).disp
  | .enc => (s.dieAt (dieOf g)).enc
  | .ls | .mxl | .host => []

/-- Was a command issued by the task context g holds? -/
def State.ownCmd (s : State) (g : Nat) (c : Cmd) : Bool := c.ctx == g && some c.task == (s.ctxAt g).task.map (·.id)

/-- The commands of a class that the task of context g has outstanding. -/
def State.cmdsOf (s : State) (g : Nat) (cls : Cls) : List Cmd := (s.engine g cls).filter (s.ownCmd g)

def engineClasses : List Cls := [.ccopy, .dcopy, .seam, .coll, .disp, .enc]

/-- Every command outstanding of the task of context g. -/
def State.allCmds (s : State) (g : Nat) : List Cmd := engineClasses.flatMap (s.cmdsOf g)

/-! FENCE. -/

/-- fence and lsync: every earlier LS access is performed; held stores are released (R217, R270). -/
def State.fenced (s : State) : State := s.releaseAll s.here

/-- A fence of the context in hand at a scope that contains the package: its writes of the classes ok are in the arrays (R313). -/
def State.settled (s : State) (wide : Bool) (ok : Cls → Bool) : State := if wide then s.encoded s.here ok else s

def execFence (sc : Scope) (s : State) : Out := .next (s.fenced.settled (actsAtPackage sc) (· == .ls)).adv
def execLsync (s : State) : Out := .next s.fenced.adv

/-- xfence: with an engine class first, it waits until the commands of that class accepted before it have completed their
accesses (R218). -/
def execXfence (sc : Scope) (ca _cb : Cls) (s : State) : Out :=
  .next <|
    let t := if ca = .ls then s.fenced else s
    if t.cmdsOf t.here ca = [] then (t.settled (atPackage sc) (· == ca)).adv else t.waitFor (.fence ca) .lq

/-! vfence and the drain group (R269, R270). -/

/-- Two tasks of one drain group: same dig, crew and stage. -/
def Task.grouped (a b : Task) : Bool := a.dig == b.dig && a.crew == b.crew && a.stage == b.stage && a.queue == b.queue

/-- The contexts of a cluster that hold a task of t's drain group which has not ended. -/
def State.groupCtxs (s : State) (t : Task) : List Nat :=
  let clu := clusterOf s.here
  ((List.range 64).map fun j => 64 * clu + j).filter fun g =>
    match (s.ctxAt g).task with
    | some u => t.grouped u && ((s.ctxAt g).status == .bound || (s.ctxAt g).status == .frozen)
    | none => false

/-- Has a task of the group closed epoch e? One that is switched out has not. -/
def Ctx.closed (c : Ctx) (e : Nat) : Bool := decide (e < c.epoch) || (c.epoch == e && c.wait == .vfence)

/-- Every task of the drain group of the context in hand has closed its epoch, or has ended. -/
def State.groupClosed (s : State) : Bool :=
  match s.c.task with
  | none => true
  | some t =>
    (s.groupCtxs t).all (fun g => (s.ctxAt g).closed s.c.epoch) &&
    (s.dieAt s.die).out.all fun o => !(t.grouped o.task && clusterOf o.ctx == s.clu) || decide (s.c.epoch < o.epoch)

/-- The vfence of context g completes: its epoch is closed and the next instruction follows. -/
def State.endVfence (s : State) (g : Nat) : State :=
  s.onCtx g fun c =>
    if c.wait = .vfence then { c with wait := .none, queues := Queues.empty, epoch := c.epoch + 1, pc := c.pc + 8, ept := 0 }
    else c

/-- Contexts in increasing member number. -/
def State.byMember (s : State) (gs : List Nat) : List Nat :=
  let m (g : Nat) : Nat := match (s.ctxAt g).task with
    | some t => t.member
    | none => 0
  sortBy (fun a b => decide (m a ≤ m b)) gs

/-- vfence: without CTL.DET nothing is held; with it the context closes its epoch and waits for its drain group (R270). -/
def execVfence (s : State) : Out := .next (if s.c.det then s.waitFor .vfence .lq else s.adv)

/-- The drain group has closed the epoch: held stores are performed member by member, and every vfence completes (R270). -/
def execDrainGroupRelease (s : State) : Out :=
  .next <|
    if s.c.wait = .vfence ∧ s.groupClosed then
      let gs := match s.c.task with
        | none => [s.here]
        | some t => s.byMember ((s.groupCtxs t).filter fun g => (s.ctxAt g).wait == Wait.vfence && (s.ctxAt g).epoch == s.c.epoch)
      gs.foldl (fun t g => t.endVfence g) (gs.foldl (fun t g => t.releaseAll g) s)
    else s

/-! bfence (R320, R323). -/

/-- The aggregate as bfence writes it. -/
def SeamLog.word (l : SeamLog) : Word := l.tag ++ BitVec.ofNat 16 (min l.fails 65535) ++ 0#8 ++ l.code

/-- SEAMERR (R323). -/
def SeamLog.trap (l : SeamLog) : Trap :=
  { cause := .seamerr, addr := l.tag.zeroExtend 64, unit := .lq
    detail := (l.code.zeroExtend 56 <<< 48) ||| BitVec.ofNat 56 (min l.fails 65535 * 2 ^ 32) }

/-- bfence: waits until every SEAM command of the context has completed; then writes the aggregate, or raises it when XD is
x0, and clears it. -/
def execBfence (sc : Scope) (rd : XReg) (s : State) : Out :=
  .next <|
    let t := s.fenced
    if t.cmdsOf t.here .seam = [] then
      let l := t.c.seam
      let u := ({ t with c := { t.c with seam := SeamLog.clear } } : State).settled (atPackage sc) fun _ => true
      if rd = 0 ∧ l.word ≠ 0 then u.raise l.trap else (u.wx rd l.word).adv
    else t.waitFor .seam .lq

end Sys2Proof.Machine
end

