-- ==== Sys2Proof/Machine/Lanes.lean ====
section
/-! DEFINITION. Element-wise lane instructions: VIA, VCMP and VFA (R74 to R84). -/

namespace Sys2Proof.Machine

/-- LaneElementwise (R76): op of register g and element i; none leaves the element as it is. -/
def State.elementwise (s : State) (f : Fmt) (n : Nat) (vd : VReg) (pm : MReg) (reads : List Read)
    (op : Nat → Nat → Option Nat) : Out :=
  .next <| s.laneOp (s.configTrap .vq f.width s.vlg) reads fun lim =>
    s.putGroup vd n f.width fun g => s.results f.width pm lim (op g)

/-- A two-source element operation on patterns. -/
def lane2 (op : Fmt → VMods → Nat → Nat → Nat) (o : VBinOp) (s : State) : Out :=
  let n := grpSize o.m.grp
  let act := s.actives o.fmt.width o.pm
  s.elementwise o.fmt n o.vd o.pm (groupReads o.va n o.fmt.width act ++ secondReads o.b n o.fmt.width act) fun g i =>
    some (op o.fmt o.m (s.elemAt (regAt o.va g) o.fmt.width i) (s.second o.fmt o.b g i))

/-- A three-source element operation on patterns. -/
def lane3 (op : Fmt → VMods → Nat → Nat → Nat → Nat) (o : VTernOp) (s : State) : Out :=
  let n := grpSize o.m.grp
  let w := o.fmt.width
  let act := s.actives w o.pm
  s.elementwise o.fmt n o.vd o.pm (groupReads o.va n w act ++ groupReads o.vb n w act ++ groupReads o.vc n w act) fun g i =>
    some (op o.fmt o.m (s.elemAt (regAt o.va g) w i) (s.elemAt (regAt o.vb g) w i) (s.elemAt (regAt o.vc g) w i))

/-- A one-source element operation on patterns. -/
def lane1 (op : Fmt → VMods → Nat → Nat) (o : VUnOp) (s : State) : Out :=
  let n := grpSize o.m.grp
  let act := s.actives o.fmt.width o.pm
  s.elementwise o.fmt n o.vd o.pm (groupReads o.va n o.fmt.width act) fun g i =>
    some (op o.fmt o.m (s.elemAt (regAt o.va g) o.fmt.width i))

/-! VIA (R79). -/

/-- An exact integer operation brought to the format. -/
def intOp (op : Int → Int → Int) (f : Fmt) (m : VMods) (a b : Nat) : Nat :=
  fitInt f.width m.u m.sat (op (intOf f.width m.u a) (intOf f.width m.u b))

/-- An exact integer operation whose result wraps, whatever SAT says. -/
def intWrap (op : Int → Int → Int) (f : Fmt) (m : VMods) (a b : Nat) : Nat :=
  wrapInt f.width (op (intOf f.width m.u a) (intOf f.width m.u b))

/-- A bitwise operation on patterns. -/
def bitOp (op : Nat → Nat → Nat) (_ : Fmt) (_ : VMods) (a b : Nat) : Nat := op a b

/-- Shift counts: the low log2(w) bits of b. -/
def shiftLeftElem (f : Fmt) (_ : VMods) (a b : Nat) : Nat := a * 2 ^ (b % f.width) % 2 ^ f.width
def shiftRightElem (f : Fmt) (_ : VMods) (a b : Nat) : Nat := a / 2 ^ (b % f.width)
def shiftArithElem (f : Fmt) (_ : VMods) (a b : Nat) : Nat :=
  wrapInt f.width (intOf f.width false a / ((2 ^ (b % f.width) : Nat) : Int))

/-- Bits 2w-1:w of the product. -/
def mulHighElem (f : Fmt) (m : VMods) (a b : Nat) : Nat :=
  wrapInt f.width (intOf f.width m.u a * intOf f.width m.u b / ((2 ^ f.width : Nat) : Int))

def macElem (f : Fmt) (m : VMods) (a b c : Nat) : Nat :=
  fitInt f.width m.u m.sat (intOf f.width m.u a * intOf f.width m.u b + intOf f.width m.u c)

def execVadd (o : VBinOp) (s : State) : Out := lane2 (intOp (· + ·)) o s
def execVsub (o : VBinOp) (s : State) : Out := lane2 (intOp (· - ·)) o s
def execVmul (o : VBinOp) (s : State) : Out := lane2 (intOp (· * ·)) o s
def execVmulh (o : VBinOp) (s : State) : Out := lane2 mulHighElem o s
def execVmin (o : VBinOp) (s : State) : Out := lane2 (intWrap min) o s
def execVmax (o : VBinOp) (s : State) : Out := lane2 (intWrap max) o s
def execVand (o : VBinOp) (s : State) : Out := lane2 (bitOp (· &&& ·)) o s
def execVor (o : VBinOp) (s : State) : Out := lane2 (bitOp (· ||| ·)) o s
def execVxor (o : VBinOp) (s : State) : Out := lane2 (bitOp (· ^^^ ·)) o s
def execVsll (o : VBinOp) (s : State) : Out := lane2 shiftLeftElem o s
def execVsrl (o : VBinOp) (s : State) : Out := lane2 shiftRightElem o s
def execVsra (o : VBinOp) (s : State) : Out := lane2 shiftArithElem o s
/-- abs(a - b) of the values that U selects; that R79's closing example has 255 of the patterns of -128 and 127 with U and
SAT set speaks of the range alone (log 45, DEDUCED). -/
def execVabsd (o : VBinOp) (s : State) : Out := lane2 (intOp fun a b => ((a - b).natAbs : Int)) o s
def execVmac (o : VTernOp) (s : State) : Out := lane3 macElem o s

/-! Carry chains (R80). -/

/-- The mask with every listed bit replaced. -/
def setBits (m : BitVec 4096) (ps : List (Nat × Bool)) : BitVec 4096 :=
  let sel := ps.foldl (fun v p => v ||| 2 ^ p.1) 0
  let on := ps.foldl (fun v p => if p.2 then v ||| 2 ^ p.1 else v) 0
  (m &&& ~~~BitVec.ofNat 4096 sel) ||| BitVec.ofNat 4096 on

/-- Write mask bits; m0 discards (R76, R81). -/
def State.putMask (s : State) (m : MReg) (ps : List (Nat × Bool)) : State := s.wm m (setBits (s.rm m) ps)

/-- The chain of element i through n registers: limbs from the least, and the carry out. -/
def State.chain (s : State) (step : Nat → Nat → Nat → Bool → Nat × Bool) (o : VCarryOp) (i : Nat) : Nat → List Nat × Bool
  | 0 => ([], s.maskBit o.pm i)
  | n + 1 =>
    let p := s.chain step o i n
    let w := o.fmt.width
    let r := step w (s.elemAt (regAt o.va n) w i) (s.elemAt (regAt o.vb n) w i) p.2
    (p.1 ++ [r.1], r.2)

/-- vaddc and vsubb: every element below VL, carries in by MK and out by MD. -/
def carryOp (step : Nat → Nat → Nat → Bool → Nat × Bool) (o : VCarryOp) (s : State) : Out :=
  let n := grpSize o.m.grp
  let w := o.fmt.width
  let is := (s.reach w).filter fun i => decide (i < s.vl)
  .next <| s.laneOp (s.configTrap .vq w s.vlg) (groupReads o.va n w is ++ groupReads o.vb n w is) fun lim =>
    let rows := ((s.reach w).filter fun i => decide (i < lim)).map fun i =>
      if i < s.vl then (i, s.chain step o i n) else (i, (List.replicate n 0, false))
    (s.putGroup o.vd n w fun g => rows.map fun r => (r.1, r.2.1.getD g 0)).putMask o.md (rows.map fun r => (r.1, r.2.2))

def execVaddc (o : VCarryOp) (s : State) : Out := carryOp addCarry o s
def execVsubb (o : VCarryOp) (s : State) : Out := carryOp subBorrow o s

/-! VCMP (R78, R81). -/

/-- A bit is set when the relation holds for the element in every register of the group. -/
def compareOp (r : Rel) (o : VCmpOp) (s : State) : Out :=
  let n := grpSize o.m.grp
  let w := o.fmt.width
  let act := s.actives w o.pm
  .next <| s.laneOp (s.configTrap .vq w s.vlg) (groupReads o.va n w act ++ secondReads o.b n w act) fun lim =>
    s.putMask o.md <| (s.reach w).filterMap fun i =>
      if lim ≤ i then none
      else if s.vl ≤ i then some (i, false)
      else if s.maskBit o.pm i then
        some (i, (List.range n).all fun g =>
          r.holds (compareElem o.fmt o.m.u (s.elemAt (regAt o.va g) w i) (s.second o.fmt o.b g i)))
      else none

def execVceq (o : VCmpOp) (s : State) : Out := compareOp .eq o s
def execVcne (o : VCmpOp) (s : State) : Out := compareOp .ne o s
def execVclt (o : VCmpOp) (s : State) : Out := compareOp .lt o s
def execVcle (o : VCmpOp) (s : State) : Out := compareOp .le o s
def execVcgt (o : VCmpOp) (s : State) : Out := compareOp .gt o s
def execVcge (o : VCmpOp) (s : State) : Out := compareOp .ge o s

/-! VFA (R82 to R84). -/

/-- An exact operation on values, rounded once. -/
def fpOp (op : Rnd → FVal → FVal → FVal) (f : Fmt) (m : VMods) (a b : Nat) : Nat :=
  encode f false m.rnd m.sat (op m.rnd (elemVal f false a) (elemVal f false b))

def fpOp1 (op : FVal → FVal) (f : Fmt) (m : VMods) (a : Nat) : Nat := encode f false m.rnd m.sat (op (elemVal f false a))

def fmaElem (neg : Bool) (f : Fmt) (m : VMods) (a b c : Nat) : Nat :=
  let p := (elemVal f false a).mul (elemVal f false b)
  encode f false m.rnd m.sat ((if neg then p.neg else p).add m.rnd (elemVal f false c))

/-- minimumNumber and maximumNumber (R84). -/
def FVal.minNum (a b : FVal) : FVal := if a.isNaN then b else if b.isNaN then a else if b.ltTotal a then b else a
def FVal.maxNum (a b : FVal) : FVal := if a.isNaN then b else if b.isNaN then a else if a.ltTotal b then b else a

/-- A sign operation: a NaN gives the canonical NaN, anything else is not rounded. -/
def signOp (op : Nat → Nat) (f : Fmt) (a : Nat) : Nat :=
  if (elemVal f false a).isNaN then canonicalNaN f else op a

/-- The pattern with sign 0, and the sign bit. -/
def magOf (f : Fmt) (a : Nat) : Nat := a % 2 ^ (f.width - 1)
def signOf (f : Fmt) (a : Nat) : Bool := a.testBit (f.width - 1)

def execVfadd (o : VBinOp) (s : State) : Out := lane2 (fpOp FVal.add) o s
def execVfsub (o : VBinOp) (s : State) : Out := lane2 (fpOp FVal.sub) o s
def execVfmul (o : VBinOp) (s : State) : Out := lane2 (fpOp fun _ => FVal.mul) o s
def execVffma (o : VTernOp) (s : State) : Out := lane3 (fmaElem false) o s
def execVffnma (o : VTernOp) (s : State) : Out := lane3 (fmaElem true) o s
def execVfmin (o : VBinOp) (s : State) : Out := lane2 (fpOp fun _ => FVal.minNum) o s
def execVfmax (o : VBinOp) (s : State) : Out := lane2 (fpOp fun _ => FVal.maxNum) o s
def execVfabs (o : VUnOp) (s : State) : Out := lane1 (fun f _ => signOp (magOf f) f) o s
def execVfneg (o : VUnOp) (s : State) : Out := lane1 (fun f _ => signOp (fun a => withSign f (!signOf f a) (magOf f a)) f) o s
def execVfsgn (o : VBinOp) (s : State) : Out :=
  lane2 (fun f _ a b => signOp (fun a => withSign f (signOf f b) (magOf f a)) f a) o s
def execVfexp2 (o : VUnOp) (s : State) : Out := lane1 (fpOp1 FVal.exp2) o s
def execVflog2 (o : VUnOp) (s : State) : Out := lane1 (fpOp1 FVal.log2) o s
def execVfrcp (o : VUnOp) (s : State) : Out := lane1 (fpOp1 FVal.rcp) o s
def execVfrsq (o : VUnOp) (s : State) : Out := lane1 (fpOp1 FVal.rsq) o s
def execVfdiv (o : VBinOp) (s : State) : Out := lane2 (fpOp fun _ => FVal.div) o s
def execVfsqrt (o : VUnOp) (s : State) : Out := lane1 (fpOp1 FVal.sqrt) o s

end Sys2Proof.Machine
end

