-- ==== Sys2Proof/Machine/Convert.lean ====
section
/-! DEFINITION. Conversion, block quantization, bitplane split and join: VCVT (R85 to R89). -/

namespace Sys2Proof.Machine

/-- Where element i of vector g of a conversion side lies: its width w, the narrower width wn (R85). -/
def State.sideAt (s : State) (base : VReg) (w wn g i : Nat) : VReg × Nat :=
  if w = wn then (regAt base g, i)
  else
    let e := s.vlmax w
    (regAt base (g * (w / wn) + i / e), i % e)

def State.sideElem (s : State) (base : VReg) (w wn g i : Nat) : Nat :=
  let p := s.sideAt base w wn g i
  s.elemAt p.1 w p.2

/-- What a conversion side reads. -/
def State.sideReads (s : State) (base : VReg) (w wn n : Nat) (is : List Nat) : List Read :=
  (List.range n).flatMap fun g => is.map fun i =>
    let p := s.sideAt base w wn g i
    ⟨g, p.1, w, [(p.2, i)]⟩

/-- Write elements of vector g of a conversion side, register by register. -/
def State.putSide (s : State) (base : VReg) (w wn g : Nat) (res : List (Nat × Nat)) : State :=
  if w = wn then s.putElems (regAt base g) w res
  else
    let e := s.vlmax w
    (List.range (w / wn)).foldl (fun t j =>
      t.putElems (regAt base (g * (w / wn) + j)) w
        ((res.filter fun p => p.1 / e == j).map fun p => (p.1 % e, p.2))) s

/-- The elements a conversion acts on: inside a block, those whose destination position the lane holds (R124). -/
def State.sideReach (s : State) (w wn : Nat) : List Nat :=
  match s.laneSel with
  | none => List.range s.vlg
  | some l => (List.range s.vl).filter fun i => (if w = wn then i else i % s.vlmax w) * w / 64 == l

/-- Integer formats of every width. -/
def isAnyInt (f : Fmt) : Bool := f.isInt || f == .i4

/-- One element converted (R86). -/
def convertElem (dst src : Fmt) (m : VMods) (a : Nat) : Nat :=
  if isAnyInt dst && isAnyInt src then fitInt dst.width m.u m.sat (intOf src.width m.u a)
  else Machine.encode dst m.u m.rnd m.sat (elemVal src m.u a)

/-- The shape of the element-wise conversions: op of vector g and element i. -/
def State.convertOp (s : State) (extra : Option Trap) (dst src : Fmt) (n : Nat) (vd : VReg) (pm : MReg) (reads : List Read)
    (op : Nat → Nat → Nat) : Out :=
  let wn := min dst.width src.width
  .next <| s.laneOp ((s.configTrap .vq wn s.vlg).or extra) reads fun lim =>
    (List.range n).foldl (fun t g =>
      t.putSide vd dst.width wn g <| (s.sideReach dst.width wn).filterMap fun i =>
        if lim ≤ i then none else if s.vl ≤ i then some (i, 0) else if s.maskBit pm i then some (i, op g i) else none) s

def execVcvt (o : VCvtOp) (s : State) : Out :=
  let n := grpSize o.m.grp
  let wn := min o.dst.width o.src.width
  let act := (s.sideReach o.dst.width wn).filter (s.active o.pm)
  s.convertOp none o.dst o.src n o.vd o.pm (s.sideReads o.va o.src.width wn n act) fun g i =>
    convertElem o.dst o.src o.m (s.sideElem o.va o.src.width wn g i)

/-- FORMAT where VCFG.BLK is 0 (R87, R88, R94). -/
def State.blockTrap (s : State) : Option Trap := if s.blk = 0 then some (formatTrap .vq 4) else none

/-- vdqnt (R88): the element times its block's scale, rounded once; a scale of 0xFF gives NaN. -/
def dequantElem (dst src : Fmt) (m : VMods) (sc a : Nat) : Nat :=
  if sc = 0xFF then canonicalNaN dst
  else Machine.encode dst false m.rnd m.sat ((elemVal src m.u a).scale ((sc : Int) - 127))

def execVdqnt (o : VQntOp) (s : State) : Out :=
  let n := grpSize o.m.grp
  let wn := min o.dst.width o.src.width
  let act := s.actives wn o.pm
  s.convertOp s.blockTrap o.dst o.src n o.vd o.pm
    (s.sideReads o.va o.src.width wn n act ++
      (List.range n).map fun g => ⟨g, regAt o.vc g, 8, act.map fun i => (i / s.blk, i)⟩) fun g i =>
      dequantElem o.dst o.src o.m (s.elemAt (regAt o.vc g) 8 (i / s.blk)) (s.sideElem o.va o.src.width wn g i)

/-- Exponent of the destination's largest finite value (R87). -/
def quantEmax (f : Fmt) (u : Bool) : Int :=
  match f with
  | .fp4 => 2
  | .fp8a => 8
  | .fp8b => 15
  | .i8 => if u then 7 else 6
  | _ => if u then 3 else 2

/-- The scale of a block from its active values (R87). -/
def quantScale (dst : Fmt) (u : Bool) (xs : List FVal) : Nat :=
  let finite (x : FVal) : Bool := match x with
    | .fin _ _ _ => true
    | _ => false
  if !xs.all finite then 0xFF
  else
    match (xs.filter fun x => !x.isZero).map FVal.ilog2 with
    | [] => 127
    | e :: t => (max 0 (min 254 (t.foldl max e - quantEmax dst u + 127))).toNat

/-- One element quantized under its block's scale (R87). -/
def quantElem (dst : Fmt) (m : VMods) (sc : Nat) (x : FVal) : Nat :=
  if sc = 0xFF then 0 else Machine.encode dst m.u m.rnd true (x.scale (127 - (sc : Int)))

/-- The codes of block b of register g under its scale, below lim. -/
def State.blockCodes (s : State) (o : VQntOp) (lim g b sc : Nat) : List (Nat × Nat) :=
  let wn := min o.dst.width o.src.width
  (((List.range s.blk).map (s.blk * b + ·)).filter fun i => s.active o.pm i && decide (i < lim)).map fun i =>
    (i, quantElem o.dst o.m sc (elemVal o.src false (s.sideElem o.va o.src.width wn g i)))

/-- The scale of block b of register g, none where no element of it below lim is active; free where an active element of it reads a
failing entry: R53 has the elements below that one complete, and no rule gives the scale (log 5, DESIGN CHOICE). -/
def State.blockScale (s : State) (o : VQntOp) (lim fresh g b : Nat) : Option Nat :=
  let wn := min o.dst.width o.src.width
  let act := ((List.range s.blk).map (s.blk * b + ·)).filter (s.active o.pm)
  let bad (i : Nat) : Bool :=
    let p := s.sideAt o.va o.src.width wn g i
    s.isBad p.1 o.src.width p.2
  if !act.any (decide <| · < lim) then none
  else if act.any bad then some (Config.freeByte fresh).toNat
  else some (quantScale o.dst o.m.u (act.map fun i => elemVal o.src false (s.sideElem o.va o.src.width wn g i)))

/-- One block of vqnt, as s reads: its padding, then its scale, then its codes (R87). -/
def State.quantBlock (s : State) (o : VQntOp) (lim g : Nat) (t : State) (b : Nat) : State :=
  let wn := min o.dst.width o.src.width
  let pad := ((List.range s.blk).map (s.blk * b + ·)).filter fun i => decide (s.vl ≤ i) && decide (i < lim)
  let t1 := t.putSide o.vd o.dst.width wn g (pad.map fun i => (i, 0))
  match s.blockScale o lim t.fresh g b with
  | none => t1
  | some sc => ({ t1 with fresh := t1.fresh + 1 }.putElems (regAt o.vc g) 8 [(b, sc)]).putSide o.vd o.dst.width wn g (s.blockCodes o lim g b sc)

/-- vqnt (R87): every block with an active element below lim gets its scale, and its codes below lim (R53); padding is +0 in every
block. -/
def execVqnt (o : VQntOp) (s : State) : Out :=
  let n := grpSize o.m.grp
  let wn := min o.dst.width o.src.width
  .next <| s.laneOp ((s.configTrap .vq wn s.vlg).or s.blockTrap) (s.sideReads o.va o.src.width wn n (s.actives wn o.pm))
    fun lim => (List.range n).foldl (fun t g => (List.range (s.vlg / s.blk)).foldl (s.quantBlock o lim g) t) s

/-! Bitplanes (R66, R89): G is 1; the plane operand is a group of 8. -/

def execVbpsplit (o : VCvtOp) (s : State) : Out :=
  let act := s.actives 1 o.pm
  .next <| s.laneOp (s.configTrap .vq 1 s.vlg) (s.sideReads o.va 8 1 1 act) fun lim =>
    s.putGroup o.vd 8 1 fun j => s.results 1 o.pm lim fun i => some ((s.sideElem o.va 8 1 0 i).testBit (7 - j)).toNat

/-- The INT8 whose bit 7 - j is bit i of plane j. -/
def State.joinElem (s : State) (va : VReg) (i : Nat) : Nat :=
  (List.range 8).foldl (fun v j => v + s.elemAt (regAt va j) 1 i * 2 ^ (7 - j)) 0

def execVbpjoin (o : VCvtOp) (s : State) : Out :=
  .next <| s.laneOp (s.configTrap .vq 1 s.vlg) (groupReads o.va 8 1 (s.actives 1 o.pm)) fun lim =>
    s.putSide o.vd 8 1 0 (s.results 1 o.pm lim fun i => some (s.joinElem o.va i))

end Sys2Proof.Machine
end

