-- ==== Sys2Proof/Machine/Masks.lean ====
section
/-! DEFINITION. Mask operations: VMSK (R90, R107, R124). -/

namespace Sys2Proof.Machine

/-- The mask bits an instruction acts on: bits below VLG, or inside a block the bits of the elements the lane holds,
counted in the region's format (R90, R124). -/
def State.maskReach (s : State) : List Nat :=
  match s.laneSel with
  | none => List.range s.vlg
  | some l => s.laneElems l s.c.regionWidth

/-- A mask instruction: bit i of the result for i below VL, 0 in padding bits; nothing with VL = 0 (R90). -/
def State.maskOp (s : State) (md : MReg) (bit : Nat → Bool) : Out :=
  .next <| s.laneOp (s.configTrap .vq 1 s.vlg) [] fun _ =>
    if s.vl = 0 then s else s.putMask md (s.maskReach.map fun i => (i, decide (i < s.vl) && bit i))

def execMand (md ma mb : MReg) (_ : VMods) (s : State) : Out := s.maskOp md fun i => s.maskBit ma i && s.maskBit mb i
def execMor (md ma mb : MReg) (_ : VMods) (s : State) : Out := s.maskOp md fun i => s.maskBit ma i || s.maskBit mb i
def execMxor (md ma mb : MReg) (_ : VMods) (s : State) : Out := s.maskOp md fun i => s.maskBit ma i ^^ s.maskBit mb i
def execMandn (md ma mb : MReg) (_ : VMods) (s : State) : Out := s.maskOp md fun i => s.maskBit ma i && !s.maskBit mb i
def execMnot (md ma : MReg) (_ : VMods) (s : State) : Out := s.maskOp md fun i => !s.maskBit ma i
def execMmv (md ma : MReg) (_ : VMods) (s : State) : Out := s.maskOp md fun i => s.maskBit ma i
def execMshl (md ma : MReg) (n : VCount) (_ : VMods) (s : State) : Out :=
  s.maskOp md fun i => decide (s.vcount n ≤ i) && s.maskBit ma (i - s.vcount n)
def execMshr (md ma : MReg) (n : VCount) (_ : VMods) (s : State) : Out :=
  s.maskOp md fun i => decide (i + s.vcount n < s.vl) && s.maskBit ma (i + s.vcount n)
def execMset (md : MReg) (n : VCount) (_ : VMods) (s : State) : Out := s.maskOp md fun i => decide (i < s.vcount n)

/-- A mask instruction that returns a scalar drains first (R107). -/
def State.maskScalar (s : State) (rd : XReg) (v : Word) : Out :=
  s.draining drainLanes <| .next <| match s.configTrap .vq 1 s.vlg with
  | some t => s.raise t
  | none => (s.wx rd v).adv

def execMpop (rd : XReg) (ma : MReg) (_ : VMods) (s : State) : Out :=
  s.maskScalar rd (BitVec.ofNat 64 ((List.range s.vl).filter (s.maskBit ma)).length)

def execMfirst (rd : XReg) (ma : MReg) (_ : VMods) (s : State) : Out :=
  s.maskScalar rd (match (List.range s.vl).find? (s.maskBit ma) with
  | some i => BitVec.ofNat 64 i
  | none => BitVec.allOnes 64)

end Sys2Proof.Machine
end

