-- ==== Sys2Proof/Machine/Permute.lean ====
section
/-! DEFINITION. Permutes and moves: VPERM (R91). -/

namespace Sys2Proof.Machine

/-- A slide: f names the source element of element i, or says what is written without one (none: unchanged). -/
def State.permute (s : State) (f : Fmt) (n : Nat) (vd va : VReg) (pm : MReg) (extra : List Read)
    (src : Nat → Nat → Option (Option Nat)) : Out :=
  let w := f.width
  let used := (List.range n).map fun g => ⟨g, regAt va g, w, (s.actives w pm).filterMap fun i => (src g i).join.map (·, i)⟩
  s.elementwise f n vd pm (used ++ extra) fun g i =>
    match src g i with
    | none => none
    | some none => some 0
    | some (some j) => some (s.elemAt (regAt va g) w j)

def execVslup (o : VSlideOp) (s : State) : Out :=
  let k := s.vcount o.n
  s.permute o.fmt (grpSize o.m.grp) o.vd o.va o.pm [] fun _ i => if k ≤ i then some (some (i - k)) else none

def execVsldn (o : VSlideOp) (s : State) : Out :=
  let k := s.vcount o.n
  s.permute o.fmt (grpSize o.m.grp) o.vd o.va o.pm [] fun _ i => some (if i + k < s.vl then some (i + k) else none)

/-- The index of a gather is the element's pattern read unsigned. -/
def execVgath (o : VPairOp) (s : State) : Out :=
  let n := grpSize o.m.grp
  let w := o.fmt.width
  s.permute o.fmt n o.vd o.va o.pm (groupReads o.vb n w (s.actives w o.pm)) fun g i =>
    let x := s.elemAt (regAt o.vb g) w i
    some (if x < s.vl then some x else none)

/-- vcomp and vexpd write every element below VL: MK selects instead of predicating. -/
def State.selectOp (s : State) (o : VUnOp) (src : Nat → Option Nat) : Out :=
  let n := grpSize o.m.grp
  let w := o.fmt.width
  let used := (List.range n).map fun g => ⟨g, regAt o.va g, w, (List.range s.vl).filterMap fun i => (src i).map (·, i)⟩
  s.elementwise o.fmt n o.vd 0 used fun g i =>
    some (match src i with
      | some j => s.elemAt (regAt o.va g) w j
      | none => 0)

def execVcomp (o : VUnOp) (s : State) : Out :=
  let sel := (List.range s.vl).filter (s.maskBit o.pm)
  s.selectOp o fun i => sel[i]?

def execVexpd (o : VUnOp) (s : State) : Out :=
  s.selectOp o fun i =>
    if s.maskBit o.pm i then some ((List.range i).filter (s.maskBit o.pm)).length else none

/-- FORM 00 spreads element 0 of VA + g; the others the value of R74. -/
def execVbcast (o : VBcastOp) (s : State) : Out :=
  let n := grpSize o.m.grp
  let w := o.fmt.width
  let first : List (Nat × Nat) := ((s.actives w o.pm).take 1).map (0, ·)
  let used : List Read := match o.b with
    | .vec r => (List.range n).map fun g => ⟨g, regAt r g, w, first⟩
    | _ => []
  s.elementwise o.fmt n o.vd o.pm used fun g _ => some (s.second o.fmt o.b g 0)

/-- vmvx reads element 0 whatever VL and the mask say, and is not held to VLMAX of its format (R91; log 11, DEDUCED). -/
def execVmvx (o : VMvxOp) (s : State) : Out :=
  s.draining drainLanes <| .next <|
    if s.badConfig then s.raise (formatTrap .vq 2)
    else
      let used : List Read := [⟨0, o.va, o.fmt.width, [(0, 0)]⟩]
      match s.sliceStop used with
      | some (g, i) => (s.readSlices used).raise (sliceTrap .vq g i)
      | none =>
        let v := s.elemAt o.va o.fmt.width 0
        ((s.readSlices used).wx o.rd (BitVec.ofNat 64 (if o.fmt.isInt && !o.m.u then sext64 o.fmt.width v else v))).adv

def execVmvv (o : VUnOp) (s : State) : Out := lane1 (fun _ _ a => a) o s

def execVid (o : VIdOp) (s : State) : Out :=
  s.elementwise o.fmt (grpSize o.m.grp) o.vd o.pm [] fun _ i => some (i % 2 ^ o.fmt.width)

end Sys2Proof.Machine
end

