-- ==== Sys2Proof/Machine/Reduce.lean ====
section
/-! DEFINITION. Reductions and scans, compare-and-swap with indices, random numbers: VRED, VTOP and VRNG (R92 to R98). -/

namespace Sys2Proof.Machine

/-! Trees (R92). -/

/-- One node from two: an absent operand leaves the other. -/
def joinNode (f : Nat → Nat → Nat) : Option Nat → Option Nat → Option Nat
  | none, b => b
  | a, none => a
  | some a, some b => some (f a b)

/-- One level of the tree. -/
def treeLevel (f : Nat → Nat → Nat) : List (Option Nat) → List (Option Nat)
  | a :: b :: t => joinNode f a b :: treeLevel f t
  | l => l

/-- A result as R62 writes it: a floating-point result that is NaN is the canonical NaN, also where a single element passes
through a reduction or a scan (log 45, DEDUCED). -/
def canonElem (f : Fmt) (a : Nat) : Nat := if f.isFp && (elemVal f false a).isNaN then canonicalNaN f else a

/-- The tree over 2^k nodes. -/
def treeReduce (f : Nat → Nat → Nat) : Nat → List (Option Nat) → Option Nat
  | 0, l => (l.head?).join
  | k + 1, l => treeReduce f k (treeLevel f l)

/-- The least k with n at most 2^k. -/
def log2Up (n : Nat) : Nat := if n ≤ 1 then 0 else Nat.log2 (n - 1) + 1

/-- Combine of R92 and R95, on patterns, brought to the format at each node. -/
def combineElem (op : Iop) (f : Fmt) (m : VMods) (a b : Nat) : Nat :=
  if f.isFp then
    let x := elemVal f false a
    let y := elemVal f false b
    Machine.encode f false m.rnd m.sat (match op with
      | .mul => x.mul y
      | .max => x.maxNum y
      | .min => x.minNum y
      | _ => x.add m.rnd y)
  else
    let x := intOf f.width m.u a
    let y := intOf f.width m.u b
    match op with
    | .mul => fitInt f.width m.u m.sat (x * y)
    | .max => wrapInt f.width (max x y)
    | .min => wrapInt f.width (min x y)
    | .and => a &&& b
    | .or => a ||| b
    | .xor => a ^^^ b
    | _ => fitInt f.width m.u m.sat (x + y)

/-- Ident of R92. -/
def identElem (op : Iop) (f : Fmt) (u : Bool) : Nat :=
  match op with
  | .max => if f.isFp then withSign f true (infPattern f) else wrapInt f.width (intMin f.width u)
  | .min => if f.isFp then infPattern f else wrapInt f.width (intMax f.width u)
  | .and => 2 ^ f.width - 1
  | _ => 0

/-- A result as element 0, then zeros up to byte ceil(VLG x w / 8) - 1 (R93), as bytes of the register. -/
def State.reduced (s : State) (w rw v : Nat) : List (Nat × Nat) :=
  (List.range (max (rw / 8) ((s.vlg * w + 7) / 8))).map fun j => (j, v / 2 ^ (8 * j) % 256)

/-- A reduction of each register of the group; it writes nothing with VLG = 0, and nothing when an entry it reads fails
(R53; log 12, DEDUCED). -/
def State.reduceOp (s : State) (o : Fmt) (n : Nat) (vd : VReg) (extra : Option Trap) (reads : List Read) (rw : Nat)
    (val : Nat → Nat) : Out :=
  .next <| s.laneOp ((s.configTrap .vq o.width s.vlg).or extra) reads fun lim =>
    if s.vlg = 0 ∨ lim < noLimit then s else s.putGroup vd n 8 fun g => s.reduced o.width rw (val g)

/-- TreeReduce over the present elements. -/
def tree (op : Iop) (o : VUnOp) (s : State) : Out :=
  let n := grpSize o.m.grp
  let w := o.fmt.width
  let act := s.actives w o.pm
  s.reduceOp o.fmt n o.vd none (groupReads o.va n w act) w fun g =>
    let nodes := (List.range (2 ^ log2Up s.vlg)).map fun i =>
      if s.active o.pm i then some (s.elemAt (regAt o.va g) w i) else none
    canonElem o.fmt ((treeReduce (combineElem op o.fmt o.m) (log2Up s.vlg) nodes).getD (identElem op o.fmt o.m.u))

def execVredsum (o : VUnOp) (s : State) : Out := tree .add o s
def execVredmax (o : VUnOp) (s : State) : Out := tree .max o s
def execVredmin (o : VUnOp) (s : State) : Out := tree .min o s
def execVredand (o : VUnOp) (s : State) : Out := tree .and o s
def execVredor (o : VUnOp) (s : State) : Out := tree .or o s

/-- The FP32 value of one block: its exact sum times its scale, rounded once (R94). A zero sum of elements of both signs is
+0, under rdn -0, as R63 has it of a sum, for the integer formats too (log 45, DEDUCED). -/
def blockSum (m : VMods) (sc : Nat) (xs : List FVal) : Nat :=
  match xs with
  | [] => 0
  | x :: t =>
    if sc = 0xFF then canonicalNaN .fp32
    else Machine.encode .fp32 false m.rnd m.sat ((t.foldl (fun a b => a.add m.rnd b) x).scale ((sc : Int) - 127))

/-- BlockScaledSum (R94): blocks in order, the sum rounded at each step. -/
def execVredbs (o : VPairOp) (s : State) : Out :=
  let n := grpSize o.m.grp
  let w := o.fmt.width
  let act := s.actives w o.pm
  s.reduceOp o.fmt n o.vd s.blockTrap (groupReads o.va n w act ++
      (List.range n).map fun g => ⟨g, regAt o.vb g, 8, act.map fun i => (i / s.blk, i)⟩) 32 fun g =>
    ((List.range (s.vlg / s.blk)).foldl (fun acc b =>
      let is := ((List.range s.blk).map (s.blk * b + ·)).filter (s.active o.pm)
      if is = [] then acc
      else
        let v := blockSum o.m (s.elemAt (regAt o.vb g) 8 b) (is.map fun i => elemVal o.fmt o.m.u (s.elemAt (regAt o.va g) w i))
        some (match acc with
          | none => v
          | some a => Machine.encode .fp32 false o.m.rnd o.m.sat ((elemVal .fp32 false a).add o.m.rnd (elemVal .fp32 false v)))) none
      ).getD 0

/-- The running results of a scan (R95). -/
def scanList (f : Nat → Nat → Nat) : Option Nat → List (Nat × Nat) → List (Nat × Nat)
  | _, [] => []
  | run, (i, a) :: t =>
    let r := match run with
      | none => a
      | some v => f v a
    (i, r) :: scanList f (some r) t

def execVscan (o : VScanOp) (s : State) : Out :=
  let n := grpSize o.m.grp
  let w := o.fmt.width
  let act := s.actives w o.pm
  .next <| s.laneOp (s.configTrap .vq w s.vlg) (groupReads o.va n w act) fun lim =>
    s.putGroup o.vd n w fun g =>
      (scanList (combineElem o.op o.fmt o.m) none (act.map fun i => (i, canonElem o.fmt (s.elemAt (regAt o.va g) w i))) ++
        ((List.range s.vlg).filter fun i => decide (s.vl ≤ i)).map fun i => (i, 0)).filter fun p => decide (p.1 < lim)

/-! Compare and swap with indices (R96). -/

/-- Does the candidate key beat the running key: a NaN lies below every number. -/
def keyAbove (f : Fmt) (u : Bool) (a b : Nat) : Bool :=
  if f.isFp then
    let x := elemVal f false a
    let y := elemVal f false b
    !x.isNaN && (y.isNaN || y.lt x)
  else decide (intOf f.width u b < intOf f.width u a)

/-- The candidate index of element i. -/
def State.candIndex (s : State) (f : Fmt) (b : VSrc) (g i : Nat) : Nat :=
  match b with
  | .vec r => s.elemAt (regAt r g) f.width i
  | .sca x => (s.rx x).toNat % 2 ^ f.width
  | .imm v => v.toNat

/-- Register g of every group: the writes in the order of R96. -/
def State.swapStep (s : State) (o : VBinOp) (lim g : Nat) : State :=
  let n := grpSize o.m.grp
  let w := o.fmt.width
  let rv := regAt o.vd g
  let ri := regAt o.vd (n + g)
  let ca := regAt o.va g
  let wins := (s.actives w o.pm).filter fun i =>
    decide (i < lim) && keyAbove o.fmt o.m.u (s.elemAt ca w i) (s.elemAt rv w i)
  let pad := ((s.reach w).filter fun i => decide (s.vl ≤ i) && decide (i < lim)).map fun i => (i, 0)
  let s1 := s.putElems rv w (wins.map (fun i => (i, s.elemAt ca w i)) ++ pad)
  let s2 := s1.putElems ri w (wins.map (fun i => (i, s.candIndex o.fmt o.b g i)) ++ pad)
  match o.b with
  | .vec vb =>
    (s2.putElems ca w (wins.map (fun i => (i, s.elemAt rv w i)) ++ pad)).putElems (regAt vb g) w
      (wins.map (fun i => (i, s.elemAt ri w i)) ++ pad)
  | _ => s2

def execVcswi (o : VBinOp) (s : State) : Out :=
  let n := grpSize o.m.grp
  let w := o.fmt.width
  let act := s.actives w o.pm
  .next <| s.laneOp (s.configTrap .vq w s.vlg)
    (groupReads o.va n w act ++ groupReads o.vd (2 * n) w act ++ secondReads o.b n w act) fun lim =>
      (List.range n).foldl (fun t g => t.swapStep o lim g) s

/-! Random numbers (R97, R98). -/

/-- One Philox round on (c0, c1, c2, c3) with key (k0, k1). -/
def philoxRound (c : Nat × Nat × Nat × Nat) (k0 k1 : Nat) : Nat × Nat × Nat × Nat :=
  let p0 := 0xD2511F53 * c.1
  let p1 := 0xCD9E8D57 * c.2.2.1
  ((p1 / 2 ^ 32) ^^^ c.2.1 ^^^ k0, p1 % 2 ^ 32, (p0 / 2 ^ 32) ^^^ c.2.2.2 ^^^ k1, p0 % 2 ^ 32)

/-- Philox-4x32 with n rounds to go (R97). -/
def philox : Nat → Nat × Nat × Nat × Nat → Nat → Nat → Nat × Nat × Nat × Nat
  | 0, c, _, _ => c
  | n + 1, c, k0, k1 => philox n (philoxRound c k0 k1) ((k0 + 0x9E3779B9) % 2 ^ 32) ((k1 + 0xBB67AE85) % 2 ^ 32)

def quadWord (c : Nat × Nat × Nat × Nat) (t : Nat) : Nat :=
  match t with
  | 0 => c.1
  | 1 => c.2.1
  | 2 => c.2.2.1
  | _ => c.2.2.2

/-- vctr and vrng work on quads and need VL = VLG, a multiple of 4 (R98). -/
def State.quadOp (s : State) (o : VRngOp) (used : List (Nat × Nat)) (quad : Nat → Nat → Nat × Nat × Nat × Nat) : Out :=
  let n := grpSize o.m.grp
  let bad := if s.vl % 4 ≠ 0 ∨ s.vlg ≠ s.vl then some (formatTrap .vq 5) else none
  .next <| s.laneOp ((s.configTrap .vq 32 s.vlg).or bad) ((List.range n).map fun g => ⟨g, regAt o.va g, 32, used⟩) fun lim =>
    s.putGroup o.vd n 32 fun g => s.results 32 o.pm lim fun i => some (quadWord (quad g (i / 4)) (i % 4))

/-- The quads with an active element, each with the lowest. -/
def State.quads (s : State) (pm : MReg) : List (Nat × Nat) :=
  ((s.actives 32 pm).map (· / 4)).dedup.map fun j => (j, ((s.actives 32 pm).find? (· / 4 == j)).getD 0)

def execVrng (o : VRngOp) (s : State) : Out :=
  let key := (s.rx o.xb).toNat
  let used := (s.quads o.pm).flatMap fun q => (List.range 4).map fun t => (4 * q.1 + t, q.2)
  s.quadOp o used fun g j =>
    let e (t : Nat) := s.elemAt (regAt o.va g) 32 (4 * j + t)
    philox 10 (e 0, e 1, e 2, e 3) (key % 2 ^ 32) (key / 2 ^ 32)

def execVctr (o : VRngOp) (s : State) : Out :=
  let st := (s.rx o.xb).toNat
  s.quadOp o ((s.quads o.pm).map fun q => (4 * q.1, q.2)) fun g j =>
    (s.elemAt (regAt o.va g) 32 (4 * j), 0, st % 2 ^ 32, st / 2 ^ 32)

end Sys2Proof.Machine
end

