-- ==== Sys2Proof/Machine/VMem.lean ====
section
/-! DEFINITION. Vector memory: VLD, VST and VAMO (R202 to R211), scale moves (R206), hallmark and layout checks of HM loads
(R251 to R255). -/

namespace Sys2Proof.Machine

/-! Hallmarks (R250, R251). -/

/-- The physical offset of logical byte o of a granule under a layout code (R251). -/
def permuteOffset (lay o : Nat) : Nat :=
  match lay with
  | 1 => let r := o / 64; let c := o / 8 % 8; 64 * r + 8 * (c ^^^ (r % 8)) + o % 8
  | 2 => 64 * (o % 64) + o / 64
  | 3 => let a := o / 64; let b := o / 2 % 32; 2 * (64 * b + a) + o % 2
  | _ => o

/-- The hallmark of a scratchpad granule (R250). -/
def State.hallAt (s : State) (clu g : Nat) : BitVec 18 := tabGet 0 (s.clusterAt clu).hall g

def State.putHall (s : State) (clu g : Nat) (h : BitVec 18) : State :=
  s.onCluster clu fun c => { c with hall := tabSet 0 c.hall g h }

/-- How an error in the hallmark of a granule stands; a hallmark is read and written whole (R272, R340). -/
def State.hallError (s : State) (clu g : Nat) : Bad := tabGet Bad.clean (s.clusterAt clu).hallBad g

/-- One read of a hallmark, and whether it failed; its errors count for the row group of its granule (R340, R341; log 48, DESIGN
CHOICE). -/
def State.readHall (s : State) (clu g : Nat) : State × Bool :=
  if s.hallError clu g = Bad.clean then (s, false)
  else
    let r := (s.hallError clu g).read Lay.plain
    ((s.onCluster clu fun c => { c with hallBad := tabSet Bad.clean c.hallBad g r.1 }).classed
      (errUnitAt Lay.plain (spadBase clu + 4096 * g)) r.2.2, r.2.1)

/-! What an instruction accesses. -/

/-- A vector memory access: element width, registers of its group, address of each element in bits, what it needs, the
index group, and whether it is an HM load, a scale move or a vamo. -/
structure VAccess where
  w : Nat
  n : Nat
  vd : VReg
  pm : MReg
  need : Need
  addr : Nat → Nat → Int
  index : Option VReg
  hm : Bool
  scale : Bool
  amo : Bool

/-- Element (g, i) with its bit address (R203). -/
structure VElem where
  g : Nat
  i : Nat
  bits : Nat
  deriving DecidableEq, Repr

/-- Byte address and bit in the byte. -/
def VElem.byte (e : VElem) : Nat := e.bits / 8 % 2 ^ 64
def VElem.bit (e : VElem) : Nat := e.bits % 8

/-- Elements of one register that the instruction counts: granted elements, or blocks of a scale move (R206). -/
def State.vcountOf (s : State) (k : VAccess) : Nat := if k.scale then s.vlg / s.blk else s.vlg

/-- Active elements; block b of a scale move when it holds an active element (R206, R210). -/
def State.vactive (s : State) (k : VAccess) (i : Nat) : Bool :=
  if k.scale then (List.range s.blk).any fun j => s.active k.pm (s.blk * i + j) else s.active k.pm i

/-- q of R209, as its logarithm. -/
def unitLog (n vlmax : Nat) : Nat := firstBelow (fun j => decide (n * ((vlmax + 2 ^ j - 1) / 2 ^ j) ≤ 1024)) 13

/-- VLMAX as R209 counts it. -/
def State.unitMax (s : State) (k : VAccess) : Nat := if k.scale then s.vlg / s.blk else s.vlmax k.w

/-- The fault unit of an element (R209). -/
def State.unitOf (s : State) (k : VAccess) (g i : Nat) : Nat :=
  let m := s.unitMax k
  let q := if k.amo then 1 else 2 ^ unitLog k.n m
  g * ((m + q - 1) / q) + i / q

/-- The units of a set of elements. -/
def State.unitsOf (s : State) (k : VAccess) (es : List VElem) : BitVec 1024 :=
  BitVec.ofNat 1024 (es.foldl (fun v e => v ||| 2 ^ s.unitOf k e.g e.i) 0)

/-- act of R210, in increasing k. -/
def State.vact (s : State) (k : VAccess) : List VElem :=
  ((List.range (s.vcountOf k)).filter (s.vactive k)).flatMap fun i =>
    ((List.range k.n).filter fun g => s.c.fmsk == 0 || s.c.fmsk.getLsbD (s.unitOf k g i)).map fun g =>
      ⟨g, i, (k.addr g i % ((2 ^ 67 : Nat) : Int)).toNat⟩

/-- Index(i): where it lies in the image of the index group, registers of 8 x A bytes (R49, R204). -/
def State.indexAt (s : State) (vb : VReg) (i : Nat) : VReg × Nat :=
  let n := 2 * s.c.laneCount s.k
  (regAt vb (i / n), i % n)

def State.indexOf (s : State) (vb : VReg) (i : Nat) : Nat :=
  let p := s.indexAt vb i
  s.elemAt p.1 32 p.2

/-- Does an element's index lie in a failing register-slice entry (R53)? Its address cannot be formed. -/
def State.indexBad (s : State) (k : VAccess) (e : VElem) : Bool :=
  match k.index with
  | some vb => let p := s.indexAt vb e.i; s.isBad p.1 32 p.2
  | none => false

/-- Does an element read a failing register-slice entry: its data for a store or a vamo, its index (R53)? -/
def State.velemBad (s : State) (k : VAccess) (e : VElem) : Bool :=
  (k.need.wr && s.isBad (regAt k.vd e.g) k.w e.i) || s.indexBad k e

/-- What the elements read from registers: data, indices. -/
def State.velemReads (s : State) (k : VAccess) (es : List VElem) : List Read :=
  (if k.need.wr then es.map fun e => ⟨e.g, regAt k.vd e.g, k.w, [(e.i, e.i)]⟩ else []) ++
  (match k.index with
   | some vb => es.map fun e => let p := s.indexAt vb e.i; ⟨0, p.1, 32, [(p.2, e.i)]⟩
   | none => [])

/-- FORMAT before anything changes (R75, R206). -/
def State.vmemTrap (s : State) (k : VAccess) : Option Trap := s.configTrap .lq k.w (s.vcountOf k)

/-! Translation by page (R202). -/

/-- What a granule's translation gave. -/
abbrev Found := Except Miss Leaf

/-- Translate every 64 KiB granule of the elements once, in order. -/
def State.translateAll (s : State) (need : Need) (ap : Ap) : List Nat → State × Tab Found
  | [] => (s, [])
  | p :: t =>
    let r := s.translate s.view (p * 2 ^ 16) need ap
    let rest := State.translateAll r.1 need ap t
    (rest.1, (p, r.2) :: rest.2)

/-- The granule of an element. -/
def State.pageOf (s : State) (e : VElem) : Nat := s.va72 (BitVec.ofNat 64 e.byte) / 2 ^ 16

def foundAt (fs : Tab Found) (p : Nat) : Found :=
  match fs.find? fun f => f.1 == p with
  | some f => f.2
  | none => .error (.page 0 0)

/-- The leaf of an element: its granule's, at the element's offset. -/
def Leaf.offset (l : Leaf) (o : Nat) : Leaf := { l with pa := l.pa + o }

/-- Does an address lie in the HBM of a die that is out of service? An access through the winze finds the stack gone (R306). -/
def State.stackGone (s : State) (va : Nat) : Bool :=
  match s.walk s.pkg s.c.ptroot va with
  | .ok l => inHbm l.pa && (s.dieAt (4 * (l.pa / 2 ^ 46) + l.pa % 2 ^ 46 / Config.dieRegion)).down && s.listed s.pkg (l.pa / 2 ^ 46)
  | .error _ => false

/-- Why an element may not be accessed (R198, R199, R259, R344): alignment first; none where its page is absent, and for a
gather, a scatter or a vamo where its stack is gone, which stops the instruction at that element (R306). -/
def State.velemAccess (s : State) (k : VAccess) (fs : Tab Found) (e : VElem) : Option Nat :=
  if e.bits % k.w ≠ 0 then some 2
  else
    match foundAt fs (s.pageOf e) with
    | .error (.access r) => if r = 3 ∧ k.index.isSome ∧ s.stackGone (s.pageOf e * 2 ^ 16) then none else some r
    | .error (.page _ _) | .error (.broken _ _) => none
    | .ok l =>
      let pa := l.pa + e.byte % 2 ^ 16
      if k.hm && pa / 2 ^ 46 != s.pkg then some 3 else if s.pinOk s.pkg s.c.session pa then none else some 0

/-- EIDX of an element. -/
def VElem.idx (e : VElem) : BitVec 3 × BitVec 13 := (BitVec.ofNat 3 e.g, BitVec.ofNat 13 e.i)

/-- A trap at an element, with FMSK. -/
def velemTrap (t : Trap) (e : VElem) (units : BitVec 1024) : Trap :=
  { t with elem := some e.idx, fmsk := some units, point := .fmsk }

/-- ACCESS at an element; the bit address mod 8 for a misaligned nibble (R227). -/
def velemAccessTrap (k : VAccess) (r : Nat) (e : VElem) : Trap :=
  let t := accessTrap .lq r k.need (BitVec.ofNat 64 e.byte)
  if r = 2 ∧ k.w < 8 then { t with detail := t.detail ||| BitVec.ofNat 56 (e.bit * 2 ^ 45) } else t

/-! The hallmark check (R253, R255). -/

/-- The step of R253 an element with a resident page fails: 0 not scratchpad, 1 tag, 2 layout; 3 a hallmark that cannot be
read (R272). -/
def State.hallStep (s : State) (pa : Nat) : Option Nat :=
  match (s.place pa).granule with
  | none => some 0
  | some (clu, g) =>
    let h := s.hallAt clu g
    if (s.hallError clu g).failing then some 3
    else if h.extractLsb' 0 16 ≠ s.c.hmexp.extractLsb' 0 16 then some 1
    else if s.c.hmchk && h.extractLsb' 16 2 != s.c.hmexp.extractLsb' 16 2 then some 2
    else none

/-- TINFO of R255. -/
def State.hallDetail (s : State) (pa step : Nat) : BitVec 56 :=
  match (s.place pa).granule with
  | none => reason 1
  | some (clu, g) =>
    let h := s.hallAt clu g
    if step = 0 then reason 1
    else (0#4 ++ h.extractLsb' 16 2 ++ s.c.hmexp.extractLsb' 16 2 ++ h.extractLsb' 0 16 ++ s.c.hmexp.extractLsb' 0 16 ++
      0#5 ++ BitVec.ofNat 11 g : BitVec 56)

/-- The trap of the check: the first step that some element fails, at the lowest element that fails it; a hallmark that cannot
be read stops the steps that read hallmarks (R253, R272). -/
def State.hallTrap (s : State) (fails : List (VElem × Nat × Nat)) : Option (Trap × VElem) :=
  let pick (st : Nat) := fails.find? fun f => f.2.2 == st
  let hallmark (f : VElem × Nat × Nat) : Trap :=
    { cause := .hallmark, detail := s.hallDetail f.2.1 f.2.2, addr := BitVec.ofNat 64 f.1.byte, unit := .lq }
  match pick 0, pick 3, pick 1, pick 2 with
  | some f, _, _, _ => some (hallmark f, f.1)
  | none, some f, _, _ =>
    some ({ cause := .memue, detail := reason 2, addr := BitVec.ofNat 64 f.2.1, unit := .lq }, f.1)
  | none, none, some f, _ => some (hallmark f, f.1)
  | none, none, none, some f =>
    some ({ cause := .layout, detail := s.hallDetail f.2.1 2, addr := BitVec.ofNat 64 f.1.byte, unit := .lq }, f.1)
  | none, none, none, none => none

/-! Performing elements in order (R210). -/

/-- The pieces of physical memory an element reads: one, or under a nonzero layout in a scratchpad a byte each (R251). -/
def State.pieces (s : State) (k : VAccess) (l : Leaf) (n : Nat) : List (Leaf × Nat) :=
  let lay := (s.c.hmexp.extractLsb' 16 2).toNat
  if k.hm && lay != 0 && (s.place l.pa).granule.isSome then
    (List.range n).map fun j =>
      let o := l.pa % 4096 + j
      ({ l with pa := l.pa - l.pa % 4096 + permuteOffset lay o }, 1)
  else [(l, n)]

/-- Read pieces in order. -/
def readPieces : List (Leaf × Nat) → Act (List Byte)
  | [] => pure []
  | (l, n) :: t => do
    checkWatch .lq .ls Need.read l.pa n
    let bs ← readOwn .lq .ls l n
    let rest ← readPieces t
    pure (bs ++ rest)

/-- The bytes of an element, and the element in them. -/
def VAccess.bytes (k : VAccess) : Nat := max 1 (k.w / 8)

def inByte (w bit v : Nat) : Nat := if w < 8 then v / 2 ^ bit % 2 ^ w else v

/-- A byte with w bits at a position replaced. -/
def patchByte (w bit old v : Nat) : Nat := old - old / 2 ^ bit % 2 ^ w * 2 ^ bit + v % 2 ^ w * 2 ^ bit

/-- Perform a load element: its value. -/
def loadElem (k : VAccess) (l : Leaf) (e : VElem) : Act Nat := do
  let s ← get
  let bs ← readPieces (s.pieces k l k.bytes)
  pure (inByte k.w e.bit (leNat bs))

/-- Perform a store element; part of a byte is merged with what stands there. -/
def storeElem (k : VAccess) (l : Leaf) (e : VElem) (v : Nat) : Act Nat := do
  checkWatch .lq .ls Need.write l.pa k.bytes
  let s ← get
  let w := if k.w < 8 then patchByte k.w e.bit (leNat (s.ownBytes .ls l 1)) v else v
  writeOwn .ls l (leBytes k.bytes w)
  pure 0

/-- Perform a vamo element: an indivisible read-modify-write, never held (R207, R270). -/
def amoElem (op : Nat → Nat → Nat) (k : VAccess) (l : Leaf) (v : Nat) : Act Nat := do
  checkWatch .lq .ls Need.both l.pa k.bytes
  modify fun s => s.releaseBytes s.here l.pa k.bytes
  let bs ← readOwn .lq .ls l k.bytes
  modify fun s => s.write (s.self .ls) l.lay l.pa (leBytes k.bytes (op (leNat bs) v))
  pure 0

/-- How far the elements have come: how many others there are beside the last, the values loaded, elements left, those whose page is
absent, whether one of them lies below the stop, and the stop. -/
structure VProgress where
  s : State
  others : Nat
  got : List (VElem × Nat)
  left : List VElem
  absent : List (VElem × Nat × Nat)
  below : Bool
  stop : Option Trap

/-- An element that is not performed. -/
def VProgress.leave (p : VProgress) (e : VElem) : VProgress := { p with left := e :: p.left }

/-- The first stop stands. -/
def VProgress.halt (p : VProgress) (t : Option Trap) : VProgress := { p with stop := p.stop.or t }

/-- PROGRESS: the queue, the address and the element (R227). -/
def stallTrap (p : Stall) : Trap :=
  { cause := .progress, detail := reason p.queue.val, addr := p.va, unit := .lq,
    elem := some (BitVec.ofNat 3 p.reg.val, p.idx), async := true }

/-- PROGRESS at the element that a vector memory instruction comes to next, which is the stalled one (R227, R231). -/
def stallAt (p : Stall) (e : VElem) : Trap :=
  { stallTrap p with addr := BitVec.ofNat 64 e.byte, elem := some e.idx }

/-- The PROGRESS due that may be taken now (R109, R223). -/
def Ctx.stalls (c : Ctx) : Option Stall := if c.hnd || !c.settled then none else c.asked.progress

/-- The trap that stops the instruction before an element: the element-progress timer, once as many elements are performed as the
stalled instruction came to, which is not all of them (R231); a failing register-slice entry (R53). -/
def VProgress.stops (p : VProgress) (bad : Bool) (e : VElem) : Option Trap :=
  match p.s.c.stalls with
  | some st => if min st.performed p.others ≤ p.got.length then some (stallAt st e) else if bad then some (sliceTrap .lq e.g e.i) else none
  | none => if bad then some (sliceTrap .lq e.g e.i) else none

/-- The next element in increasing k: at and after the stop it is left; with an absent page it is left and reported; one whose
index cannot be read (hid) stops it. -/
def VProgress.next (k : VAccess) (fs : Tab Found) (hid bad : VElem → Bool) (act : Leaf → VElem → Act Nat) (p : VProgress)
    (e : VElem) : VProgress :=
  if hid e then (p.leave e).halt (p.stops true e)
  else match foundAt fs (p.s.pageOf e) with
  | .error (.page lev why) =>
    let q := (p.leave e).halt (p.stops (bad e) e)
    { q with absent := (e, lev, why) :: q.absent, below := q.below || q.stop.isNone }
  | .error (.broken pa m) => (p.leave e).halt (some { missTrap .lq e.byte k.need (.broken pa m) with elem := some e.idx })
  | .error (.access r) =>
    (p.leave e).halt (some { accessTrap .lq r k.need (BitVec.ofNat 64 e.byte) with elem := some e.idx })
  | .ok l =>
    let q := p.halt (p.stops (bad e) e)
    if q.stop.isSome then q.leave e
    else
      match (act (l.offset (e.byte % 2 ^ 16)) e).run q.s with
      | (.ok v, s1) => { q with s := s1, got := (e, v) :: q.got }
      | (.error t, s1) => ({ q with s := s1 }.leave e).halt (some { t with elem := some e.idx })

/-- Entries of the fault batch: the distinct absent pages in order of the lowest element that needs them (R211). -/
def batchOf (s : State) (need : Need) (absent : List (VElem × Nat × Nat)) : List (List Byte) :=
  let pages := (absent.map fun a => s.pageOf a.1).dedup
  let ordered := absent.filter fun a => pages.contains (s.pageOf a.1)
  let firsts := ordered.foldl (fun acc a => if acc.any fun b => s.pageOf b.1 == s.pageOf a.1 then acc else acc ++ [a]) []
  firsts.map fun a =>
    pageEntry (s.pageOf a.1 * 2 ^ 16) need a.2.1 a.2.2
      (min 0xFFFF (absent.filter fun b => s.pageOf b.1 == s.pageOf a.1).length)

/-- PAGE of a vector memory instruction (R211). -/
def vpageTrap (s : State) (k : VAccess) (absent : List (VElem × Nat × Nat)) (units : BitVec 1024) : Trap :=
  let es := batchOf s k.need absent
  let e := (absent.head?.map (·.1)).getD ⟨0, 0, 0⟩
  { cause := .page, detail := pageDetail es.length, addr := BitVec.ofNat 64 e.byte, unit := .lq, elem := some e.idx,
    point := .fmsk, fmsk := some units, record := pageBatch es }

/-- Write what was loaded; a store or an atomic writes no register. -/
def State.putLoaded (s : State) (k : VAccess) (got : List (VElem × Nat)) : State :=
  if k.need.wr then s else s.putGroup k.vd k.n k.w fun g => (got.filter fun p => p.1.g == g).map fun p => (p.1.i, p.2)

/-- Padding of a load: +0; none in a scale move or a store (R205, R206). -/
def State.putPadding (s : State) (k : VAccess) : State :=
  if k.need.wr || k.scale then s
  else s.putGroup k.vd k.n k.w fun _ => ((List.range s.vlg).filter fun i => decide (s.vl ≤ i)).map fun i => (i, 0)

/-- PROGRESS, if it is the stop, is no longer due, and the timer starts again; EPTPORT says what the element awaits (R231). -/
def State.stopped (s : State) : State :=
  match s.c.stalls with
  | none => s
  | some st => { s with c := { s.c with
      ept := 0
      asked := { s.c.asked with progress := none }
      eptport := BitVec.ofNat 16 (st.kind.val * 4096 + st.index.toNat) } }

/-- The end of R210: what is left, its trap, or completion. -/
def VProgress.finish (k : VAccess) (p : VProgress) : State :=
  let s := p.s.putLoaded k p.got
  let units := s.unitsOf k p.left
  let absent := p.absent.reverse
  if p.left = [] then
    let t := s.putPadding k
    { t with c := { t.c with fmsk := 0 } }.adv
  else
    match p.stop with
    | some t => if p.below then s.raise (vpageTrap s k absent units) else s.stopped.raise { t with fmsk := some units, point := .fmsk }
    | none => s.raise (vpageTrap s k absent units)

/-- VectorMemory (R210). -/
def State.vmem (s : State) (k : VAccess) (ap : Ap) (act : Leaf → VElem → Act Nat) : State :=
  match s.vmemTrap k with
  | some t => s.raise { t with point := .fmsk }
  | none =>
    let es := s.vact k
    let hid (e : VElem) : Bool := !s.c.vbad.isEmpty && s.indexBad k e
    let bad (e : VElem) : Bool := !s.c.vbad.isEmpty && s.velemBad k e
    -- an element whose address cannot be formed is not translated
    let good := es.filter fun e => !hid e
    let s := s.readSlices (s.velemReads k es)
    let pages := good.foldl (fun ps e =>
      if e.bits % k.w ≠ 0 || ps.contains (s.pageOf e) then ps else ps ++ [s.pageOf e]) []
    let r := s.translateAll k.need ap pages
    let s1 := r.1
    match good.find? fun e => (s1.velemAccess k r.2 e).isSome with
    | some e =>
      s1.raise (velemTrap (velemAccessTrap k ((s1.velemAccess k r.2 e).getD 0) e) e (s1.unitsOf k es))
    | none =>
      let found := if k.hm then good.filterMap fun e => match foundAt r.2 (s1.pageOf e) with
        | .ok l => some (e, l.pa + e.byte % 2 ^ 16)
        | .error _ => none
      else []
      let fails := found.filterMap fun p => (s1.hallStep p.2).map fun st => (p.1, p.2, st)
      let s2 := (found.filterMap fun p => (s1.place p.2).granule).dedup.foldl (fun t p => (t.readHall p.1 p.2).1) s1
      match s1.hallTrap fails with
      | some (t, e) => s2.raise (velemTrap t e (s2.unitsOf k es))
      | none => (es.foldl (VProgress.next k r.2 hid bad act) ⟨s2, es.length - 1, [], [], [], false, none⟩).finish k

/-! The instructions (R203). -/

/-- X[XA] + SignExtend(OFF16), as the bits of a byte address. -/
def State.vbase (s : State) (xa : XReg) (off : BitVec 16) : Int := 8 * ((s.rx xa + off.signExtend 64).toNat : Int)

/-- A scale move: E8 under a block grant (R206). -/
def State.isScale (s : State) (f : Fmt) : Bool := f == .e8 && s.blk != 0

/-- Bits of a stride: bytes for whole bytes, bits below (R203). -/
def State.strideBits (s : State) (f : Fmt) (xb : XReg) : Int := (s.rx xb).toInt * (if f.width < 8 then 1 else 8)

def State.unitAddr (s : State) (f : Fmt) (n : Nat) (xa : XReg) (off : BitVec 16) (g i : Nat) : Int :=
  s.vbase xa off + ((i * n + g) * f.width : Nat)

def State.stridedAddr (s : State) (f : Fmt) (xa xb : XReg) (off : BitVec 16) (g i : Nat) : Int :=
  s.vbase xa off + i * s.strideBits f xb + (g * f.width : Nat)

def State.indexedAddr (s : State) (f : Fmt) (n : Nat) (xa : XReg) (vb : VReg) (off : BitVec 16) (g i : Nat) : Int :=
  s.vbase xa off + ((s.indexOf vb i * n + g) * f.width : Nat)

/-- Bit i of plane j: bit i mod 8 of byte b + j x stride + i / 8 (R203). -/
def State.planeAddr (s : State) (xa xb : XReg) (off : BitVec 16) (j i : Nat) : Int :=
  s.vbase xa off + j * (8 * (s.rx xb).toInt) + (i : Nat)

def loadAccess (s : State) (w n : Nat) (vd : VReg) (pm : MReg) (hm scale : Bool) (index : Option VReg)
    (addr : Nat → Nat → Int) : Out :=
  let k : VAccess := ⟨w, n, vd, pm, Need.read, addr, index, hm, scale, false⟩
  .next (s.vmem k .plain (loadElem k))

def storeAccess (s : State) (w n : Nat) (vd : VReg) (pm : MReg) (scale : Bool) (index : Option VReg)
    (addr : Nat → Nat → Int) : Out :=
  let k : VAccess := ⟨w, n, vd, pm, Need.write, addr, index, false, scale, false⟩
  .next (s.vmem k .plain fun l e => storeElem k l e (s.elemAt (regAt vd e.g) w e.i))

def execVld (o : VmLdOp) (s : State) : Out :=
  let n := grpSize o.grp
  loadAccess s o.fmt.width n o.vd o.pm o.hm (s.isScale o.fmt) none (s.unitAddr o.fmt n o.xa o.off)

def execVlds (o : VmLdsOp) (s : State) : Out :=
  loadAccess s o.fmt.width (grpSize o.grp) o.vd o.pm o.hm (s.isScale o.fmt) none (s.stridedAddr o.fmt o.xa o.xb o.off)

def execVldx (o : VmLdxOp) (s : State) : Out :=
  let n := grpSize o.grp
  loadAccess s o.fmt.width n o.vd o.pm o.hm (s.isScale o.fmt) (some o.vb) (s.indexedAddr o.fmt n o.xa o.vb o.off)

def execVldbp (o : VmLdbpOp) (s : State) : Out :=
  loadAccess s 1 (o.pl.val + 1) o.vd o.pm o.hm false none (s.planeAddr o.xa o.xb o.off)

def execVst (o : VmStOp) (s : State) : Out :=
  let n := grpSize o.grp
  storeAccess s o.fmt.width n o.vd o.pm (s.isScale o.fmt) none (s.unitAddr o.fmt n o.xa o.off)

def execVsts (o : VmStsOp) (s : State) : Out :=
  storeAccess s o.fmt.width (grpSize o.grp) o.vd o.pm (s.isScale o.fmt) none (s.stridedAddr o.fmt o.xa o.xb o.off)

def execVstx (o : VmStxOp) (s : State) : Out :=
  let n := grpSize o.grp
  storeAccess s o.fmt.width n o.vd o.pm (s.isScale o.fmt) (some o.vb) (s.indexedAddr o.fmt n o.xa o.vb o.off)

def execVstbp (o : VmStbpOp) (s : State) : Out :=
  storeAccess s 1 (o.pl.val + 1) o.vd o.pm false none (s.planeAddr o.xa o.xb o.off)

/-- vamo (R207): every active element in increasing k. -/
def amoAccess (op : Fmt → Nat → Nat → Nat) (o : VmStxOp) (s : State) : Out :=
  let n := grpSize o.grp
  let w := o.fmt.width
  let k : VAccess := ⟨w, n, o.vd, o.pm, Need.both, s.indexedAddr o.fmt n o.xa o.vb o.off, some o.vb, false, false, true⟩
  .next (s.vmem k .atomic fun l e => amoElem (op o.fmt) k l (s.elemAt (regAt o.vd e.g) w e.i))

/-- Options of vamo: rounding to nearest even, no saturation, signed integers. -/
def amoMods : VMods := ⟨0, false, .rne, false⟩

def execVamoAdd (o : VmStxOp) (s : State) : Out := amoAccess (fun f => combineElem .add f amoMods) o s
def execVamoMin (o : VmStxOp) (s : State) : Out := amoAccess (fun f => combineElem .min f amoMods) o s
def execVamoMax (o : VmStxOp) (s : State) : Out := amoAccess (fun f => combineElem .max f amoMods) o s

end Sys2Proof.Machine
end

