-- ==== Sys2Proof/Machine/Cluster.lean ====
section
/-! DEFINITION. Clasps, hallmarks and pins by instruction: CLS (R254, R258 to R262), and assays: ASY (R324, R325). -/

namespace Sys2Proof.Machine

/-! Clasps (R258, R260, R261). -/

/-- A wait that sees the phase differ has ended; else it begins, of claspw in the SCU, of claspa, which has arrived, in LQ (R260). -/
def State.awaitPhase (s : State) (p : ClaspAt) (old arrived : Bool) : State :=
  if (s.claspAt p).phase ≠ old then s.adv else s.waitFor (.clasp p old arrived) (if arrived then .lq else .scu)

def execClasp (id : ClaspId) (s : State) : Out := .next (s.arrive (claspOf s.here id)).adv

def execClaspw (id : ClaspId) (xa : XReg) (s : State) : Out :=
  .next (s.awaitPhase (claspOf s.here id) ((s.rx xa).getLsbD 0) false)

def execClaspa (id : ClaspId) (xa : XReg) (s : State) : Out :=
  .next ((s.arrive (claspOf s.here id)).awaitPhase (claspOf s.here id) ((s.rx xa).getLsbD 0) true)

/-- A waiting claspw or claspa completes when the phase differs (R261). -/
def execClaspWaitRelease (s : State) : Out :=
  .next <| match s.c.wait with
  | .clasp p old _ => if (s.claspAt p).phase ≠ old then s.resume.adv else s
  | _ => s

/-! Granules (R254, R261, R262). -/

/-- A granule that an instruction names: cluster, index, and the address translated. -/
structure Granule where
  clu : Nat
  g : Nat
  pa : Nat
  deriving DecidableEq, Repr

/-- The address a walk gives, whatever stands there. -/
def State.whereIs (s : State) (va : Nat) : Option Nat :=
  match s.walk s.pkg s.c.ptroot va with
  | .ok l => some (resolve (some s.here) l.pa)
  | .error _ => none

/-- ACCESS of a granule operand at X[XA] = a (R261). -/
def granuleTrap (r : Nat) (n : Need) (a : Word) : Trap := accessTrap .lq r n a

/-- Translate the granule of VAH : a: another package reason 3, this package outside every scratchpad reason 1 (R199, R261,
R344). -/
def findGranule (n : Need) (a : Word) : Act Granule := do
  let s ← get
  match s.translate s.view (s.va72 a) n .plain with
  | (s1, .error e) =>
    set s1
    match e, s.whereIs (s.va72 a) with
    | .access 3, some pa => throw (granuleTrap (if pa / 2 ^ 46 = s.pkg then 1 else 3) n a)
    | _, _ => throw (missTrap .lq (s.va72 a) n e)
  | (s1, .ok l) =>
    set s1
    if l.pa / 2 ^ 46 ≠ s.pkg then throw (granuleTrap 3 n a)
    match (s1.place l.pa).granule with
    | none => throw (granuleTrap 1 n a)
    | some (clu, g) => pure ⟨clu, g, l.pa⟩

/-- The granule's pin admits this task (R259). -/
def checkPin (n : Need) (a : Word) (k : Granule) : Act Unit := do
  let s ← get
  if s.pinOk s.pkg s.c.session k.pa then pure () else throw (granuleTrap 0 n a)

/-- hmset: after the context's held stores to the granule (R254, R270). -/
def execHmset (xs xa : XReg) (s : State) : Out :=
  let a := s.rx xa
  .next <| s.carry do
    let k ← findGranule Need.write a
    checkPin Need.write a k
    modify fun t => t.releaseBytes t.here (k.pa - k.pa % 4096) 4096
    modify fun t => (t.putHall k.clu k.g ((s.rx xs).extractLsb' 0 18)).adv

def execHmchk (xd xa : XReg) (s : State) : Out :=
  let a := s.rx xa
  .next <| s.carry do
    let k ← findGranule Need.read a
    checkPin Need.read a k
    let t ← get
    set (t.readHall k.clu k.g).1
    if (t.readHall k.clu k.g).2 then
      throw { cause := .memue, detail := reason 2, addr := BitVec.ofNat 64 k.pa, unit := .lq }
    modify fun t => (t.wx xd ((t.hallAt k.clu k.g).zeroExtend 64)).adv

/-- The n granules from X[XA] (R262). -/
def findGranules (a : Word) : Nat → Act (List Granule)
  | 0 => pure []
  | n + 1 => do
    let k ← findGranule Need.write a
    let rest ← findGranules (a + 4096) n
    pure (k :: rest)

/-- The session a granule is pinned to. -/
def State.pinOf (s : State) (k : Granule) : BitVec 32 := tabGet 0 (s.clusterAt k.clu).pins k.g

def State.putPin (s : State) (v : BitVec 32) (k : Granule) : State :=
  s.onCluster k.clu fun c => { c with pins := tabSet 0 c.pins k.g v }

/-- Is a granule pinned to another session? -/
def State.pinnedAway (s : State) (k : Granule) : Bool := s.pinOf k != 0 && s.pinOf k != s.c.session

def execSpclaim (xd xa : XReg) (n : BitVec 14) (s : State) : Out :=
  let a := s.rx xa
  .next <| s.carry do
    if a.toNat % 4096 ≠ 0 then throw (granuleTrap 2 Need.write a)
    let ks ← findGranules a n.toNat
    modify fun t =>
      if t.c.session = 0 then (t.wx xd 2).adv
      else if ks.any t.pinnedAway then (t.wx xd 1).adv
      else ((ks.foldl (fun u k => u.putPin t.c.session k) t).wx xd 0).adv

/-- The address of the first granule pinned to another session. -/
def firstAway (s : State) (a : Word) : List Granule → Word
  | [] => a
  | k :: t => if s.pinnedAway k then a else firstAway s (a + 4096) t

def execSprel (xa : XReg) (n : BitVec 14) (s : State) : Out :=
  let a := s.rx xa
  .next <| s.carry do
    if a.toNat % 4096 ≠ 0 then throw (granuleTrap 2 Need.write a)
    let ks ← findGranules a n.toNat
    let t ← get
    if ks.any t.pinnedAway then throw (granuleTrap 0 Need.write (firstAway t a ks))
    modify fun t => (ks.foldl (fun u k => u.putPin 0 k) t).adv

/-! Assays (R325). -/

/-- Has every write that carries the id been counted: no command of the task that is still to complete, its status write included, and
no held line carries it? -/
def State.counted (s : State) (id : Fin 256) : Bool :=
  ((s.allCmds s.here).all fun c => c.assay != some id) && s.c.lines.all fun l => l.assay != some id

/-- Set the task's open assay once the open one, if another, is closed; until then wait. -/
def State.setAssay (s : State) (v : Option (Fin 256)) : State :=
  match s.c.assay with
  | some i => if some i = v ∨ s.counted i then { s with c := { s.c with assay := v } }.adv else s.waitFor .assay .lq
  | none => { s with c := { s.c with assay := v } }.adv

def execAsyopen (id : Fin 256) (s : State) : Out := .next (s.setAssay (some id))

def execAsyclose (id : Fin 256) (s : State) : Out := .next (if s.c.assay = some id then s.setAssay none else s.adv)

/-- The sum of an id's accumulators in the twelve stacks of the package. -/
def State.assaySum (s : State) (id : Fin 256) : Word :=
  (List.range 12).foldl (fun w k => w + tabGet 0 s.assay ((12 * s.pkg + k) * 256 + id.val)) 0

def execAsyrd (xd : XReg) (id : Fin 256) (s : State) : Out := s.put xd (s.assaySum id)

end Sys2Proof.Machine
end

