-- ==== Sys2Proof/Machine/Arrays.lean ====
section
/-! DEFINITION. Array descriptors and element-wise array instructions: ADSC and AELT (R133 to R147, R153). An AELT or ASTR
instruction carries out one strip in each step; between two strips it stands at its PC with SCNT at the boundary, which is
where R144 lets another cause interrupt it. -/

namespace Sys2Proof.Machine

/-! Descriptors (R133 to R135). -/

def Desc.dims (d : Desc) : List Nat := (d.shape.toList.map BitVec.toNat).take d.rank.val
def Desc.steps (d : Desc) : List Int := (d.stride.toList.map BitVec.toInt).take d.rank.val

/-- The product of a shape: 1 at rank 0 (R134). -/
def product : List Nat → Nat
  | [] => 1
  | n :: t => n * product t

def Desc.count (d : Desc) : Nat := product d.dims

def Desc.scaled (d : Desc) : Bool := d.blk != .none

/-- The conditions of R134 that the fields do not carry by their types. -/
def Desc.valid (d : Desc) : Bool :=
  (d.shape.toList.drop d.rank.val).all (· == 0) && (d.stride.toList.drop d.rank.val).all (· == 0) &&
  (d.blk == .none || d.fmt.isBlock) && (d.pstride == 0 || d.fmt == .bp)

/-- The image of a descriptor (R133). -/
def Desc.image (d : Desc) : List Byte :=
  leBytes 9 d.base.toNat ++ [BitVec.ofNat 8 (d.fmt.code.toNat + 16 * d.u.toNat), BitVec.ofNat 8 d.rank.val,
    BitVec.ofNat 8 d.blk.code.toNat] ++ leBytes 4 0 ++ leBytes 8 d.sbase.toNat ++ leBytes 8 d.pstride.toNat ++
    leBytes 8 d.cap.toNat ++ (d.shape.toList.map fun v => leBytes 4 v.toNat).flatten ++
    (d.stride.toList.map fun v => leBytes 6 v.toNat).flatten ++ leBytes 8 0

/-- n bytes of a list from offset o, as a number. -/
def fieldAt (bs : List Byte) (o n : Nat) : Nat := leNat ((bs.drop o).take n)

/-- The descriptor of an image, if it is valid (R134). -/
def Desc.ofImage (bs : List Byte) : Option Desc :=
  match Fmt.ofCode (BitVec.ofNat 4 (fieldAt bs 9 1)) with
  | none => none
  | some f =>
    if h : fieldAt bs 10 1 < 9 then
      let d : Desc := {
        base := BitVec.ofNat 72 (fieldAt bs 0 9)
        fmt := f
        u := (fieldAt bs 9 1).testBit 4
        rank := ⟨fieldAt bs 10 1, h⟩
        shape := Vector.ofFn fun i : Fin 8 => BitVec.ofNat 32 (fieldAt bs (40 + 4 * i.val) 4)
        stride := Vector.ofFn fun i : Fin 8 => BitVec.ofNat 48 (fieldAt bs (72 + 6 * i.val) 6)
        pstride := BitVec.ofNat 64 (fieldAt bs 24 8)
        sbase := BitVec.ofNat 64 (fieldAt bs 16 8)
        blk := Blk.ofCode (BitVec.ofNat 2 (fieldAt bs 11 1))
        cap := BitVec.ofNat 64 (fieldAt bs 32 8) }
      if fieldAt bs 9 1 < 32 && fieldAt bs 11 1 < 4 && fieldAt bs 12 4 == 0 && fieldAt bs 120 8 == 0 && d.valid then some d
      else none
    else none

/-- Faults of an array instruction: register in 55:52, reason in 51:48 (R153). -/
def arrayTrap (c : Cause) (reg : DReg) (why : Nat) (addr : Word) : Trap :=
  { cause := c, detail := reason reg.val ||| BitVec.ofNat 56 (why * 2 ^ 48), addr := addr, unit := .aq, point := .scnt }

/-- Faults of dld and dset, which have no progress point (R136, R153, R226). -/
def descTrap (c : Cause) (reg : DReg) (why : Nat) (addr : Word) : Trap := { arrayTrap c reg why addr with point := .none }

/-- FRAME (R153). -/
def frameTrap (level ax x y : Nat) (da db : DReg) : Trap :=
  { cause := .frame, unit := .aq, point := .scnt
    detail := reason level ||| BitVec.ofNat 56 (ax % 16 * 2 ^ 48 + da.val * 2 ^ 44 + db.val * 2 ^ 40)
    addr := BitVec.ofNat 64 (x % 2 ^ 32 * 2 ^ 32 + y % 2 ^ 32) }

/-! ADSC (R136, R137). -/

/-- Where the image at VAH : a lies: one part, or two pages with the bytes of each, both translated before any byte
moves; a fault is a batch of one (R211). -/
def descParts (n : Need) (a : Word) : Act (List (Leaf × Nat)) := do
  let s ← get
  if a.toNat % 64 ≠ 0 then throw (accessTrap .aq 2 n a)
  let m := min 128 (2 ^ 16 - a.toNat % 2 ^ 16)
  let l ← xlate .aq (s.va72 a) n .plain
  if m = 128 then pure [(l, 128)]
  else
    let k ← xlate .aq (s.va72 (a + BitVec.ofNat 64 m)) n .plain
    pure [(l, m), (k, 128 - m)]

/-- Read the parts in order. -/
def readParts (u : Where) : List (Leaf × Nat) → Act (List Byte)
  | [] => pure []
  | (l, n) :: t => do
    checkWatch u .ls Need.read l.pa n
    let bs ← readOwn u .ls l n
    let rest ← readParts u t
    pure (bs ++ rest)

/-- Every part is watched before any is written. -/
def watchParts (u : Where) : List (Leaf × Nat) → Act Unit
  | [] => pure ()
  | (l, n) :: t => do
    checkWatch u .ls Need.write l.pa n
    watchParts u t

def writeParts : List (Leaf × Nat) → List Byte → Act Unit
  | [], _ => pure ()
  | (l, n) :: t, bs => do
    writeOwn .ls l (bs.take n)
    writeParts t (bs.drop n)

def execDld (dd : DReg) (xa : XReg) (s : State) : Out :=
  .next <| s.carry do
    let ps ← descParts Need.read (s.rx xa)
    let bs ← readParts .aq ps
    match Desc.ofImage bs with
    | none => throw (descTrap .format dd 0 0)
    | some d => modify fun t => (t.wd dd d).adv

def execDst (da : DReg) (xa : XReg) (s : State) : Out :=
  .next <| s.carry do
    let ps ← descParts Need.write (s.rx xa)
    watchParts .aq ps
    writeParts ps (s.rd da).image
    modify State.adv

/-- The axis that AX names for dset and dget: 15 is RANK - 1 (R137). -/
def Desc.axis (d : Desc) (ax : Axis) : Option (Fin 8) :=
  match ax with
  | some i => if i.val < d.rank.val then some i else none
  | none => if h : 0 < d.rank.val then some ⟨d.rank.val - 1, by omega⟩ else none

/-- The AX field as encoded. -/
def axisCode (ax : Axis) : Nat :=
  match ax with
  | some i => i.val
  | none => 15

/-- Entries at axes below the rank kept, the others cleared. -/
def Desc.withRank (d : Desc) (r : Fin 9) : Desc :=
  { d with
    rank := r
    shape := Vector.ofFn fun i : Fin 8 => if i.val < r.val then d.shape[i] else 0
    stride := Vector.ofFn fun i : Fin 8 => if i.val < r.val then d.stride[i] else 0 }

/-- The descriptor with one field set; none where the value is outside its range (R137). -/
def Desc.set (d : Desc) (f : DField) (i : Fin 8) (vah : BitVec 8) (v : Word) : Option Desc :=
  match f with
  | .base => some { d with base := vah ++ v }
  | .fmt =>
    if v.toNat < 32 then (Fmt.ofCode (v.extractLsb' 0 4)).map fun g => { d with fmt := g, u := v.getLsbD 4 } else none
  | .rank => if h : v.toNat < 9 then some (d.withRank ⟨v.toNat, h⟩) else none
  | .shape => if v.toNat < 2 ^ 32 then some { d with shape := d.shape.set i (v.extractLsb' 0 32) } else none
  | .stride =>
    if (v.extractLsb' 0 48).signExtend 64 = v then some { d with stride := d.stride.set i (v.extractLsb' 0 48) } else none
  | .pstride => some { d with pstride := v }
  | .sbase => some { d with sbase := v }
  | .block =>
    match v.toNat with
    | 0 => some { d with blk := .none }
    | 16 => some { d with blk := .b16 }
    | 32 => some { d with blk := .b32 }
    | 64 => some { d with blk := .b64 }
    | _ => none
  | .cap => some { d with cap := v }

/-- The fields that name an axis. -/
def needsAxis (f : DField) : Bool := f == .shape || f == .stride

/-- dset: the axis is checked before the value (log 46, DESIGN CHOICE). -/
def execDset (dd : DReg) (xa : XReg) (f : DField) (ax : Axis) (s : State) : Out :=
  let d := s.rd dd
  .next <|
    match d.axis ax with
    | none => if needsAxis f then s.raise (descTrap .rank dd 1 (BitVec.ofNat 64 (axisCode ax))) else go s d 0
    | some i => go s d i
where
  go (s : State) (d : Desc) (i : Fin 8) : State :=
    match (d.set f i s.c.vah (s.rx xa)).filter Desc.valid with
    | some e => (s.wd dd e).adv
    | none => s.raise (descTrap .format dd 0 0)

/-- The value dget reads (R137). -/
def Desc.get (d : Desc) (f : DField) (ax : Axis) : Word :=
  match f with
  | .base => d.base.extractLsb' 0 64
  | .fmt => BitVec.ofNat 64 (d.fmt.code.toNat + 16 * d.u.toNat)
  | .rank => BitVec.ofNat 64 d.rank.val
  | .shape => match d.axis ax with
    | some i => d.shape[i].zeroExtend 64
    | none => 0
  | .stride => match d.axis ax with
    | some i => d.stride[i].signExtend 64
    | none => 0
  | .pstride => d.pstride
  | .sbase => d.sbase
  | .block => BitVec.ofNat 64 (Blk.len d.blk)
  | .cap => d.cap

def execDget (xd : XReg) (da : DReg) (f : DField) (ax : Axis) (s : State) : Out := s.put xd ((s.rd da).get f ax)

/-! Frames and cells (R138, R139). -/

/-- Split: frame and cell of a shape under a cell rank. -/
def splitShape (sh : List Nat) (k : CellRank) : List Nat × List Nat :=
  let c := match k with
    | none => sh.length
    | some n => min n.val sh.length
  (sh.take (sh.length - c), sh.drop (sh.length - c))

/-- The first axis on which two lists of lengths differ. -/
def clash : Nat → List Nat → List Nat → Option (Nat × Nat × Nat)
  | n, x :: xs, y :: ys => if x ≠ y then some (n, x, y) else clash (n + 1) xs ys
  | _, _, _ => none

/-- The longer list; the first when equal (R138). -/
def longer (x y : List Nat) : List Nat := if y.length ≤ x.length then x else y

/-- Agree (R138). -/
def agreeShape (level : Nat) (da db : DReg) (x y : List Nat) : Except Trap (List Nat) :=
  match clash 0 x y with
  | some (ax, a, b) => .error (frameTrap level ax a b da db)
  | none => .ok (longer x y)

/-- The index of a row-major position in a shape (R135). -/
def unravel (shape : List Nat) (lin : Nat) : List Nat :=
  match shape with
  | [] => []
  | _ :: t => (lin / product t) % (shape.headD 1) :: unravel t (lin % product t)

/-- The absolute axis that AX names in the cell (R139). -/
def cellAxis (sh : List Nat) (k : CellRank) (ax : Axis) (reg : DReg) : Except Trap Nat :=
  let p := splitShape sh k
  match ax with
  | none =>
    if p.2 = [] then .error (arrayTrap .rank reg 1 15) else .ok (p.1.length + p.2.length - 1)
  | some i =>
    if p.2.length ≤ i.val then .error (arrayTrap .rank reg 1 (BitVec.ofNat 64 i.val)) else .ok (p.1.length + i.val)

/-! The destination (R141, R143). -/

/-- Dense strides: row-major, in bytes, or in bits below a byte. -/
def denseSteps (unit : Nat) : List Nat → List Nat
  | [] => []
  | _ :: t => unit * product t :: denseSteps unit t

/-- A length and a dense stride as a descriptor holds them; one it cannot hold is free (log 13, DESIGN CHOICE). -/
def axisBits (n : Nat) : BitVec 32 := if n < 2 ^ 32 then BitVec.ofNat 32 n else Config.longAxis n
def strideBits (n : Nat) : BitVec 48 := if n < 2 ^ 47 then BitVec.ofNat 48 n else Config.longStride n

/-- The destination register as R141 leaves it. -/
def Desc.updated (d : Desc) (shape : List Nat) : Desc :=
  let e := d.withRank (Fin.ofNat 9 shape.length)
  let sh : Vector (BitVec 32) 8 := Vector.ofFn fun i : Fin 8 => axisBits (shape.getD i.val 0)
  if d.rank.val = shape.length ∧ d.shape = sh ∧ shape.all (fun n => decide (n < 2 ^ 32)) then d
  else
    let st := denseSteps (if d.fmt.width < 8 then d.fmt.width else d.fmt.width / 8) shape
    { e with shape := sh, stride := Vector.ofFn fun i : Fin 8 => strideBits (st.getD i.val 0) }

/-- The footprint: lowest and highest byte, none when empty (R143). The numbers are not reduced modulo 2^72; overlaps reads
them on the circle of addresses. -/
def Desc.span (d : Desc) : Option (Int × Int) :=
  if d.count = 0 then none
  else
    let unit : Int := if d.fmt.width < 8 then 1 else 8
    let r := (d.dims.zip d.steps).foldl (fun (p : Int × Int) q =>
      let z := q.2 * unit * ((q.1 : Int) - 1)
      if z < 0 then (p.1 + z, p.2) else (p.1, p.2 + z)) (8 * (d.base.toNat : Int), 8 * (d.base.toNat : Int))
    some (r.1 / 8, (r.2 + d.fmt.width - 1) / 8)

/-- Do two ranges of bytes meet, addresses taken modulo 2^72 (R135, R143; log 14, DEDUCED)? -/
def rangesMeet (a b : Int × Int) : Bool :=
  decide ((b.1 - a.1) % (2 ^ 72 : Nat) ≤ a.2 - a.1) || decide ((a.1 - b.1) % (2 ^ 72 : Nat) ≤ b.2 - b.1)

/-- Overlap of a destination with a source (R143); element-wise instructions admit equal descriptors. -/
def overlaps (inPlace : Bool) (dd src : Desc) : Bool :=
  match dd.span, src.span with
  | some a, some b =>
    rangesMeet a b &&
    !(inPlace && src.base == dd.base && src.fmt == dd.fmt && src.rank == dd.rank && src.shape == dd.shape &&
      src.stride == dd.stride)
  | _, _ => false

/-- Step 2 of R140. -/
def overlapTrap (inPlace : Bool) (dd : Desc) (reg : DReg) (srcs : List Desc) : Option Trap :=
  if srcs.any (overlaps inPlace dd) then some (arrayTrap .format reg 5 0) else none

/-! Reading and writing elements. -/

/-- A page that an element needs and that is absent: its address, the access, the stop of the walk, the element. -/
structure Absent where
  va : Nat
  n : Need
  level : Nat
  why : Nat
  lin : Nat
  deriving DecidableEq, Repr

/-- The machine while an element is carried out: its linear index, the pages found absent in this strip, the bits of source
elements consumed since the last completed element group (R144), and the codes of the block being quantized (R147). -/
structure Reader where
  s : State
  lin : Nat
  absent : List Absent
  used : Nat
  codes : Option (Nat × List Nat)
  deriving DecidableEq, Repr

/-- A computation over elements. A read of an absent page notes the page and answers 0; nothing is written after that. -/
abbrev Arr := ExceptT Trap (StateM Reader)

/-- A step on the machine alone. -/
def onState {α : Type} (a : Act α) : Arr α := fun r =>
  match a.run r.s with
  | (.ok v, t) => (.ok v, { r with s := t })
  | (.error e, t) => (.error e, { r with s := t })

/-- Where the element at an index lies: byte address, bit in the byte, bytes (R135). -/
def Desc.place (d : Desc) (u : Where) (n : Need) (idx : List Nat) : Except Trap (Nat × Nat × Nat) :=
  let off : Int := (idx.zip d.steps).foldl (fun z p => z + (p.1 : Int) * p.2) 0
  let w := d.fmt.width
  if w < 8 then
    let b := ((8 * (d.base.toNat : Int) + off) % ((2 ^ 75 : Nat) : Int)).toNat
    if b % 4 ≠ 0 then
      let t := accessTrap u 2 n (BitVec.ofNat 64 (b / 8))
      .error { t with detail := t.detail ||| BitVec.ofNat 56 (b % 8 * 2 ^ 45) }
    else .ok (b / 8, b % 8, 1)
  else
    let a := (((d.base.toNat : Int) + off) % ((2 ^ 72 : Nat) : Int)).toNat
    if a % (w / 8) ≠ 0 then .error (accessTrap u 2 n (BitVec.ofNat 64 a)) else .ok (a, 0, w / 8)

/-- Translate an address for an element; an absent page is noted. -/
def arrAt (u : Where) (va : Nat) (n : Need) : Arr (Option Leaf) := fun r =>
  match r.s.translate r.s.view va n .plain with
  | (t, .error (.page lev why)) => (.ok none, { r with s := t, absent := ⟨va, n, lev, why, r.lin⟩ :: r.absent })
  | (t, .error (.access w)) => (.error (missTrap u va n (.access w)), { r with s := t })
  | (t, .error (.broken pa m)) => (.error (missTrap u va n (.broken pa m)), { r with s := t })
  | (t, .ok l) =>
    if t.pinOk t.pkg t.c.session l.pa then (.ok (some l), { r with s := t })
    else (.error (accessTrap u 0 n (BitVec.ofNat 64 va)), { r with s := t })

/-- Read n bytes at an address on a class; once a page is absent nothing more is performed. -/
def arrRead (u : Where) (cls : Cls) (va n : Nat) : Arr (List Byte) := do
  match ← arrAt u va Need.read with
  | none => pure (List.replicate n 0)
  | some l =>
    let r ← get
    if r.absent ≠ [] then pure (r.s.ownBytes cls l n)
    else
      onState (checkWatch u cls Need.read l.pa n)
      onState (readOwn u cls l n)

/-- The element of a descriptor at an index. -/
def getEl (d : Desc) (idx : List Nat) : Arr Nat := do
  match d.place .aq Need.read idx with
  | .error t => throw t
  | .ok (va, sh, n) =>
    let bs ← arrRead .aq .ls va n
    modify fun r => { r with used := r.used + d.fmt.width }
    pure (leNat bs / 2 ^ sh % 2 ^ d.fmt.width)

/-- Write an element; nothing is written once a page is absent. -/
def putEl (d : Desc) (idx : List Nat) (v : Nat) : Arr Unit := do
  match d.place .aq Need.write idx with
  | .error t => throw t
  | .ok (va, sh, n) =>
    match ← arrAt .aq va Need.write with
    | none => pure ()
    | some l =>
      let r ← get
      if r.absent ≠ [] then pure ()
      else
        onState (checkWatch .aq .ls Need.write l.pa n)
        let w := d.fmt.width
        let x := if w < 8 then patchByte w sh (leNat (r.s.ownBytes .ls l 1)) v else v
        onState (writeOwn .ls l (leBytes n x))

/-! Fault batches of arrays, tiles and plans (R144, R167, R211). -/

/-- The distinct pages of a list of absences, in order, each with its first absence. -/
def firstAbsences : List Absent → List Nat → List Absent
  | [], _ => []
  | a :: t, seen =>
    if seen.contains (a.va / 2 ^ 16) then firstAbsences t seen else a :: firstAbsences t (a.va / 2 ^ 16 :: seen)

/-- One entry: the accesses of every element that needs the page, and how many elements do. -/
def absenceEntry (all : List Absent) (a : Absent) : List Byte :=
  let here := all.filter fun b => b.va / 2 ^ 16 == a.va / 2 ^ 16
  let n : Need := ⟨here.any fun b => b.n.rd, here.any fun b => b.n.wr, false, false⟩
  pageEntry a.va n a.level a.why (min 0xFFFF (here.map (·.lin)).dedup.length)

/-- PAGE over the absences of a strip or row, oldest first; EIDX holds the low 13 bits of the result element's index (log 56,
DESIGN CHOICE). -/
def absencePage (u : Where) (p : Point) (all : List Absent) : Trap :=
  let es := (firstAbsences all []).map (absenceEntry all)
  let a := all.headD ⟨0, Need.read, 0, 0, 0⟩
  { cause := .page, detail := pageDetail es.length, addr := BitVec.ofNat 64 a.va, unit := u,
    elem := some (0, BitVec.ofNat 13 a.lin), point := p, record := pageBatch es }

/-! Running an array instruction (R140 to R144). -/

/-- What an instruction whose checks have passed will do: the destination register and what it becomes, the result's
shape, and the value of each element. A partial result (arr.comp) stops at CAP with CAPACITY; any other faults before its
first element. -/
structure ArrPlan where
  dd : DReg
  nd : Desc
  shape : List Nat
  part : Bool
  value : Nat → Arr Nat

def ArrPlan.count (p : ArrPlan) : Nat := product p.shape
def ArrPlan.limit (p : ArrPlan) : Nat := min p.count p.nd.cap.toNat

def capacityTrap (p : ArrPlan) : Trap := arrayTrap .capacity p.dd 0 (BitVec.ofNat 64 p.count)

/-- One element: value, then write; SCNT counts it (R144). -/
def ArrPlan.element (p : ArrPlan) (lin : Nat) : Arr Unit := do
  modify fun r => { r with lin := lin }
  let v ← p.value lin
  putEl p.nd (unravel p.shape lin) v
  modify fun r =>
    if r.absent ≠ [] then r else { r with s := { r.s with c := { r.s.c with scnt := BitVec.ofNat 64 (lin + 1) } } }

/-- Elements in order. A trap stops the strip; after an absent page only further absent pages count (R144). A WATCH names the low
13 bits of the result element's index in EIDX (log 56, DESIGN CHOICE). -/
def ArrPlan.elements (p : ArrPlan) : List Nat → Reader → Option Trap × Reader
  | [], r => (none, r)
  | lin :: t, r =>
    match (p.element lin).run r with
    | (.ok _, r1) => ArrPlan.elements p t r1
    | (.error e, r1) =>
      if r1.absent ≠ [] then ArrPlan.elements p t r1
      else (some (if e.cause = .watch then { e with elem := some (0, BitVec.ofNat 13 lin) } else e), r1)

/-- The end of the strip that element k lies in (R142). -/
def ArrPlan.stripEnd (p : ArrPlan) (k : Nat) : Nat :=
  let l := 4096 / p.nd.fmt.width
  min ((k / l + 1) * l) p.limit

/-- The instruction is done: SCNT is 0 (R144). -/
def ArrPlan.finish (s : State) : State := { s with c := { s.c with scnt := 0, consumed := 0 } }.adv

/-- A partial result's destination register takes the result's shape once the elements are written, or a fault stops them (R152);
any other did before its first element (R141). -/
def ArrPlan.close (p : ArrPlan) (s : State) : State := if p.part then s.wd p.dd p.nd else s

/-- A partial result has reached CAP: CAPACITY, SCNT at CAP (R152). -/
def ArrPlan.full (p : ArrPlan) (s : State) : State :=
  { (p.close s) with c := { (p.close s).c with scnt := p.nd.cap } }.raise (capacityTrap p)

/-- The machine after a strip: each 64 bytes of source elements consumed restart the progress timer (R144, R231). -/
def Reader.done (r : Reader) : State :=
  { r.s with c := { r.s.c with ept := if 512 ≤ r.used then 0 else r.s.c.ept, consumed := r.used % 512 } }

/-- A strip from element k: at a strip boundary it begins with a grant point (R142, R235). -/
def ArrPlan.begin (p : ArrPlan) (s : State) (k : Nat) : State :=
  if k % (4096 / p.nd.fmt.width) = 0 then s.grantPoint else s

/-- One strip from SCNT, at a grant point if that is a strip boundary (R142, R144, R235). With SCNT at or above the element count the
instruction completes; with a partial result at CAP it stops there (R152). -/
def ArrPlan.strip (p : ArrPlan) (s : State) : State :=
  let k := s.c.scnt.toNat
  if p.count ≤ k then ArrPlan.finish (p.close s)
  else if p.limit ≤ k then p.full s
  else
    let e := p.stripEnd k
    match p.elements ((List.range (e - k)).map (k + ·)) ⟨p.begin s k, k, [], s.c.consumed, none⟩ with
    | (some t, r) => (p.close r.s).raise { t with point := .scnt }
    | (none, r) =>
      if r.absent ≠ [] then (p.close r.s).raise (absencePage .aq .scnt r.absent.reverse)
      else if e < p.limit then r.done.waitFor .going .aq
      else if p.limit < p.count then p.full r.s
      else ArrPlan.finish (p.close r.s)

/-- Run an instruction: its first fault, else its destination updated (R141; a partial result's at its end, R152), CAPACITY, lanes
bound (R126), a strip. -/
def State.runArray (s : State) (p : Except Trap ArrPlan) : Out :=
  .next <| match p with
  | .error t => s.raise t
  | .ok p =>
    let s1 := if p.part then s else s.wd p.dd p.nd
    if !p.part && decide (p.nd.cap.toNat < p.count) then s1.raise (capacityTrap p)
    else if !s.c.vlive then s1.waitFor .lanes .aq
    else p.strip s1

/-! Element-wise: AELT (R146, R147). -/

/-- Modifiers of array arithmetic (R146). -/
def arrMods (u : Bool) : VMods := ⟨0, u, .rne, false⟩

/-- The first register of a list whose descriptor breaks a condition. -/
def firstBad (p : Desc → Bool) (reg : DReg → Desc) : List DReg → Option DReg
  | [] => none
  | r :: t => if p (reg r) then some r else firstBad p reg t

def isNumber (f : Fmt) : Bool := f.isInt || f.isFp

/-- Formats of arr.cvt: those of vcvt (R86). -/
def isConvertible (f : Fmt) : Bool := f != .bp && f != .e8

/-- Step 1 of R140 for AELT: accepted formats of the destination and of the sources; whether DD must match DA. Of two block-scaled
descriptors of arr.cvt FMT and BLK are compared, U is not, and where they differ reason 3 names DD (log 56, DESIGN CHOICE). -/
def State.aeltFormats (s : State) (dd : DReg) (srcs : List DReg) (dst src : Fmt → Bool) (match_ blocks : Bool) : Option Trap :=
  let bad (r : DReg) (why : Nat) : Option Trap := some (arrayTrap .format r why 0)
  let a := s.rd (srcs.headD 0)
  let differs (d : Desc) : Bool := d.fmt != a.fmt || d.u != a.u
  if srcs.contains dd then bad dd 4
  else if !dst (s.rd dd).fmt then bad dd 1
  else
    match firstBad (fun d => !src d.fmt) s.rd srcs with
    | some r => bad r 1
    | none =>
      match firstBad differs s.rd (srcs.drop 1) with
      | some r => bad r 2
      | none =>
        if match_ && differs (s.rd dd) then bad dd 2
        else if blocks then
          if a.scaled && (s.rd dd).scaled && (a.fmt != (s.rd dd).fmt || a.blk != (s.rd dd).blk) then bad dd 3 else none
        else (firstBad Desc.scaled s.rd (dd :: srcs)).bind fun r => bad r 3

/-- A dyadic element-wise instruction: the checks of R140, then op on the elements that R138 pairs. Step 2 compares the
shape of the longer frame and the longer cell, and the destination as it stands where that has more than 8 axes (log 14,
DEDUCED). -/
def dyadic (dst src : Fmt → Bool) (match_ : Bool) (op : Fmt → Bool → Nat → Nat → Nat) (o : ArrPairOp) (s : State) : Out :=
  s.runArray <|
    match s.aeltFormats o.dd [o.da, o.db] dst src match_ false with
    | some t => .error t
    | none =>
      let a := s.rd o.da
      let b := s.rd o.db
      let fa := splitShape a.dims o.ka
      let fb := splitShape b.dims o.kb
      let guess := longer fa.1 fb.1 ++ longer fa.2 fb.2
      let nd := if 8 < guess.length then s.rd o.dd else (s.rd o.dd).updated guess
      match overlapTrap true nd o.dd [a, b] with
      | some t => .error t
      | none =>
        if 8 < guess.length then .error (arrayTrap .rank o.dd 0 (BitVec.ofNat 64 guess.length))
        else do
          let fr ← agreeShape 0 o.da o.db fa.1 fb.1
          let ce ← agreeShape 1 o.da o.db fa.2 fb.2
          pure {
            dd := o.dd
            nd := nd
            shape := fr ++ ce
            part := false
            value := fun lin => do
              let ix := unravel (fr ++ ce) lin
              let f := ix.take fr.length
              let c := ix.drop fr.length
              let x ← getEl a (f.take fa.1.length ++ c.take fa.2.length)
              let y ← getEl b (f.take fb.1.length ++ c.take fb.2.length)
              pure (op a.fmt a.u x y) }

/-- A monadic element-wise instruction whose result element depends on one element. -/
def monadic (src : Fmt → Bool) (op : Fmt → Bool → Nat → Nat) (dd da : DReg) (s : State) : Out :=
  s.runArray <|
    match s.aeltFormats dd [da] src src true false with
    | some t => .error t
    | none =>
      let a := s.rd da
      let nd := (s.rd dd).updated a.dims
      match overlapTrap true nd dd [a] with
      | some t => .error t
      | none => .ok {
          dd := dd
          nd := nd
          shape := a.dims
          part := false
          value := fun lin => do
            let x ← getEl a (unravel a.dims lin)
            pure (op a.fmt a.u x) }

/-- Truncating division (R59, R146). -/
def arrDivide (f : Fmt) (u : Bool) (a b : Nat) : Nat :=
  if f.isFp then fpOp (fun _ => FVal.div) f (arrMods u) a b
  else
    let y := intOf f.width u b
    if y = 0 then 2 ^ f.width - 1 else wrapInt f.width ((intOf f.width u a).tdiv y)

def arrSubtract (f : Fmt) (u : Bool) (a b : Nat) : Nat :=
  if f.isFp then fpOp FVal.sub f (arrMods u) a b else wrapInt f.width (intOf f.width u a - intOf f.width u b)

def arrCombine (op : Iop) (f : Fmt) (u : Bool) (a b : Nat) : Nat := combineElem op f (arrMods u) a b

def arrRelate (r : Rel) (f : Fmt) (u : Bool) (a b : Nat) : Nat := (r.holds (compareElem f u a b)).toNat

def arrNegate (f : Fmt) (u : Bool) (a : Nat) : Nat :=
  if f.isFp then signOp (fun a => withSign f (!signOf f a) (magOf f a)) f a else wrapInt f.width (-(intOf f.width u a))

def arrAbsolute (f : Fmt) (u : Bool) (a : Nat) : Nat :=
  if f.isFp then signOp (magOf f) f a else wrapInt f.width ((intOf f.width u a).natAbs : Int)

def isI8 (f : Fmt) : Bool := f == .i8

def execArrAdd (o : ArrPairOp) (s : State) : Out := dyadic isNumber isNumber true (arrCombine .add) o s
def execArrSub (o : ArrPairOp) (s : State) : Out := dyadic isNumber isNumber true arrSubtract o s
def execArrMul (o : ArrPairOp) (s : State) : Out := dyadic isNumber isNumber true (arrCombine .mul) o s
def execArrDiv (o : ArrPairOp) (s : State) : Out := dyadic isNumber isNumber true arrDivide o s
def execArrMax (o : ArrPairOp) (s : State) : Out := dyadic isNumber isNumber true (arrCombine .max) o s
def execArrMin (o : ArrPairOp) (s : State) : Out := dyadic isNumber isNumber true (arrCombine .min) o s
def execArrEq (o : ArrPairOp) (s : State) : Out := dyadic isI8 isNumber false (arrRelate .eq) o s
def execArrLt (o : ArrPairOp) (s : State) : Out := dyadic isI8 isNumber false (arrRelate .lt) o s
def execArrAnd (o : ArrPairOp) (s : State) : Out := dyadic Fmt.isInt Fmt.isInt true (arrCombine .and) o s
def execArrOr (o : ArrPairOp) (s : State) : Out := dyadic Fmt.isInt Fmt.isInt true (arrCombine .or) o s
def execArrNeg (dd da : DReg) (_k : CellRank) (s : State) : Out := monadic isNumber arrNegate dd da s
def execArrAbs (dd da : DReg) (_k : CellRank) (s : State) : Out := monadic isNumber arrAbsolute dd da s
def execArrExp (dd da : DReg) (_k : CellRank) (s : State) : Out :=
  monadic Fmt.isFp (fun f u => fpOp1 FVal.exp f (arrMods u)) dd da s
def execArrLog (dd da : DReg) (_k : CellRank) (s : State) : Out :=
  monadic Fmt.isFp (fun f u => fpOp1 FVal.ln f (arrMods u)) dd da s
def execArrCopy (dd da : DReg) (_k : CellRank) (s : State) : Out := monadic (fun f => f != .bp) (fun _ _ a => a) dd da s

/-! arr.cvt (R147). -/

/-- The address of scale b of a descriptor (R133). -/
def Desc.scaleAt (d : Desc) (b : Nat) : Nat :=
  (d.base.toNat / 2 ^ 64 * 2 ^ 64 + d.sbase.toNat + b) % 2 ^ 72

/-- The scale of a block, read. -/
def getScale (d : Desc) (b : Nat) : Arr Nat := do
  let bs ← arrRead .aq .ls (d.scaleAt b) 1
  pure (leNat bs)

/-- Write the scale of a block. -/
def putScale (d : Desc) (b v : Nat) : Arr Unit := do
  match ← arrAt .aq (d.scaleAt b) Need.write with
  | none => pure ()
  | some l =>
    let r ← get
    if r.absent ≠ [] then pure ()
    else
      onState (checkWatch .aq .ls Need.write l.pa 1)
      onState (writeOwn .ls l (leBytes 1 v))

/-- Elements in order, as patterns. -/
def getEls (d : Desc) : List (List Nat) → Arr (List Nat)
  | [] => pure []
  | ix :: t => do
    let a ← getEl d ix
    let rest ← getEls d t
    pure (a :: rest)

/-- One element converted to a plain destination, its source plain or block-scaled. -/
def arrConvert (dst src : Desc) (sc a : Nat) : Nat :=
  if src.scaled then
    encode dst.fmt dst.u .rne false
      (if sc = 0xFF then .nan else (elemVal src.fmt src.u a).scale ((sc : Int) - 127))
  else if isAnyInt dst.fmt && isAnyInt src.fmt then fitInt dst.fmt.width dst.u false (intOf src.fmt.width src.u a)
  else encode dst.fmt dst.u .rne false (elemVal src.fmt src.u a)

/-- Block b of a quantizing conversion: every source element of it is read, its scale is written, and its codes are kept
for the elements of the block that this step writes (R87, R147). -/
def quantizeBlock (dst src : Desc) (b : Nat) : Arr (List Nat) := do
  let n := Blk.len dst.blk
  let k := min n (product src.dims - n * b)
  let xs ← getEls src ((List.range k).map fun j => unravel src.dims (n * b + j))
  let vs := xs.map (elemVal src.fmt src.u)
  let sc := quantScale dst.fmt dst.u vs
  putScale dst b sc
  let cs := vs.map (quantElem dst.fmt (arrMods dst.u) sc)
  modify fun r => { r with codes := some (b, cs) }
  pure cs

/-- The value of element lin of a conversion; from is where this step began. A scale is written before the first element
of its block, or of the step, is; a step that begins inside a block quantizes it from its sources as they then stand (log
46, DESIGN CHOICE). -/
def convertAt (dst src : Desc) (from_ lin : Nat) : Arr Nat := do
  let sh := src.dims
  if dst.scaled then
    let n := Blk.len dst.blk
    let b := lin / n
    if src.scaled then
      if lin % n = 0 ∨ lin = from_ then
        let sc ← getScale src b
        putScale dst b sc
      getEl src (unravel sh lin)
    else
      let cs ← match (← get).codes with
        | some (b', cs) => if b' = b then pure cs else quantizeBlock dst src b
        | none => quantizeBlock dst src b
      pure (cs.getD (lin - n * b) 0)
  else
    let sc ← if src.scaled then getScale src (lin / Blk.len src.blk) else pure 0
    let a ← getEl src (unravel sh lin)
    pure (arrConvert dst src sc a)

def execArrCvt (dd da : DReg) (_k : CellRank) (s : State) : Out :=
  s.runArray <|
    match s.aeltFormats dd [da] isConvertible isConvertible false true with
    | some t => .error t
    | none =>
      let a := s.rd da
      let nd := (s.rd dd).updated a.dims
      match overlapTrap true nd dd [a] with
      | some t => .error t
      | none => .ok ⟨dd, nd, a.dims, false, convertAt nd a s.c.scnt.toNat⟩

end Sys2Proof.Machine
end

