-- ==== Sys2Proof/Machine/Struct.lean ====
section
/-! DEFINITION. Structural array instructions: ASTR (R148 to R152). -/

namespace Sys2Proof.Machine

/-- Step 1 of R140 for ASTR: the formats each operand is accepted in, and whose format and U the destination must have. -/
structure AstrRow where
  dst : Fmt → Bool
  a : Fmt → Bool
  b : Fmt → Bool
  bAsA : Bool
  dstAs : Option DReg

def notBp (f : Fmt) : Bool := f != .bp

/-- The sources are DA, and DB where the instruction has one; the vector read from DB is compared like any source. -/
def State.astrFormats (s : State) (dd : DReg) (da : DReg) (db : Option DReg) (r : AstrRow) : Option Trap :=
  let bad (g : DReg) (why : Nat) : Option Trap := some (arrayTrap .format g why 0)
  let differs (x y : DReg) : Bool := (s.rd x).fmt != (s.rd y).fmt || (s.rd x).u != (s.rd y).u
  let srcs := da :: db.toList
  if srcs.contains dd then bad dd 4
  else if !r.dst (s.rd dd).fmt then bad dd 1
  else if !r.a (s.rd da).fmt then bad da 1
  else if db.any fun g => !r.b (s.rd g).fmt then bad (db.getD 0) 1
  else if r.bAsA && db.any fun g => differs g da then bad (db.getD 0) 2
  else if r.dstAs.any fun g => differs dd g then bad dd 2
  else (firstBad Desc.scaled s.rd (dd :: srcs)).bind fun g => bad g 3

/-- A result's shape with the value of each element, or why there is none: a fault of step 3 or 4. -/
abbrev Built := Except Trap (List Nat × (Nat → Arr Nat))

/-- Steps 2 to 4: overlap is compared with the shape the destination will have; where a later step fails it has none, and
the destination is compared as it stands (log 14, DEDUCED). late is a fault of step 4 that leaves the result's shape known (R143). -/
def State.astrPlan (s : State) (dd : DReg) (srcs : List Desc) (part : Bool) (b : Built) (late : Option Trap := none) :
    Except Trap ArrPlan :=
  match b with
  | .error t => match overlapTrap false (s.rd dd) dd srcs with
    | some o => .error o
    | none => .error t
  | .ok (shape, value) =>
    if 8 < shape.length then
      match overlapTrap false (s.rd dd) dd srcs with
      | some o => .error o
      | none => .error (arrayTrap .rank dd 0 (BitVec.ofNat 64 shape.length))
    else
      let nd := (s.rd dd).updated shape
      match (overlapTrap false nd dd srcs).or late with
      | some o => .error o
      | none => .ok ⟨dd, nd, shape, part, value⟩

/-- An instruction of one argument along an axis. -/
def alongAxis (row : AstrRow) (dd da : DReg) (k : CellRank) (ax : Axis) (build : Desc → Nat → List Nat × (Nat → Arr Nat))
    (s : State) : Out :=
  s.runArray <|
    match s.astrFormats dd da none row with
    | some t => .error t
    | none =>
      let a := s.rd da
      s.astrPlan dd [a] false ((cellAxis a.dims k ax da).map (build a))

/-- An index with axis ax replaced, removed, or inserted. -/
def putAxis (ix : List Nat) (ax v : Nat) : List Nat := ix.take ax ++ v :: ix.drop (ax + 1)
def insertAxis (ix : List Nat) (ax v : Nat) : List Nat := ix.take ax ++ v :: ix.drop ax
def dropAxis (ix : List Nat) (ax : Nat) : List Nat := ix.take ax ++ ix.drop (ax + 1)

/-! arr.red, arr.scan, arr.grade (R148 to R150). -/

/-- Whether an operation needs integers (R148). -/
def isBitwise (op : Iop) : Bool := op == .and || op == .or || op == .xor

def foldFormats (op : Iop) (f : Fmt) : Bool := if isBitwise op then f.isInt else isNumber f

/-- The identity of an operation (R149). -/
def arrIdent (op : Iop) (f : Fmt) (u : Bool) : Nat :=
  match op with
  | .mul => if f.isFp then encode f false .rne false (FVal.ofInt 1) else 1
  | _ => identElem op f u

/-- TreeReduce over a list in which every element is present (R92, R149). -/
def reduceAll (op : Iop) (f : Fmt) (u : Bool) (xs : List Nat) : Nat :=
  let k := log2Up xs.length
  canonElem f ((treeReduce (arrCombine op f u) k ((List.range (2 ^ k)).map fun i => xs[i]?)).getD (arrIdent op f u))

def asA (da : DReg) (fmt : Fmt → Bool) : AstrRow := ⟨notBp, fmt, notBp, false, some da⟩

def execArrRed (o : ArrRedOp) (s : State) : Out :=
  alongAxis (asA o.da (foldFormats o.op)) o.dd o.da o.k o.ax (fun a ax =>
    let sh := dropAxis a.dims ax
    (sh, fun lin => do
      let ix := unravel sh lin
      let xs ← getEls a ((List.range (a.dims.getD ax 0)).map (insertAxis ix ax))
      pure (reduceAll o.op a.fmt a.u xs))) s

def execArrScan (o : ArrRedOp) (s : State) : Out :=
  alongAxis (asA o.da (foldFormats o.op)) o.dd o.da o.k o.ax (fun a ax =>
    (a.dims, fun lin => do
      let ix := unravel a.dims lin
      let xs ← getEls a ((List.range (ix.getD ax 0 + 1)).map (putAxis ix ax))
      pure (canonElem a.fmt ((xs.drop 1).foldl (arrCombine o.op a.fmt a.u) (xs.headD 0))))) s

/-- Does a come no later than b in ascending order: NaNs after every number, zeros equal (R150)? -/
def sortsBefore (f : Fmt) (u : Bool) (a b : Nat) : Bool :=
  if f.isFp then
    let x := elemVal f false a
    let y := elemVal f false b
    if x.isNaN then y.isNaN else y.isNaN || !(y.lt x)
  else decide (intOf f.width u a ≤ intOf f.width u b)

/-- Positions that sort a vector, equal elements in order of position (R150). -/
def gradeList (f : Fmt) (u : Bool) (xs : List Nat) : List Nat :=
  (sortBy (fun p q => sortsBefore f u p.1 q.1) (xs.zip (List.range xs.length))).map (·.2)

def isWide (f : Fmt) : Bool := f == .i32 || f == .i64

def execArrGrade (dd da : DReg) (k : CellRank) (ax : Axis) (s : State) : Out :=
  alongAxis ⟨isWide, isNumber, notBp, false, none⟩ dd da k ax (fun a x =>
    (a.dims, fun lin => do
      let ix := unravel a.dims lin
      let xs ← getEls a ((List.range (a.dims.getD x 0)).map (putAxis ix x))
      pure ((gradeList a.fmt a.u xs).getD (ix.getD x 0) 0 % 2 ^ (s.rd dd).fmt.width))) s

/-! arr.rot, arr.take, arr.drop (R148). -/

/-- An element moved along an axis: where position i of the result comes from, or fill. -/
def moveAxis (o : ArrCountOp) (len : Nat → Nat) (src : Nat → Nat → Option Nat) (s : State) : Out :=
  alongAxis (asA o.da notBp) o.dd o.da o.k o.ax (fun a ax =>
    let l := a.dims.getD ax 0
    let sh := putAxis a.dims ax (len l)
    (sh, fun lin =>
      let ix := unravel sh lin
      match src l (ix.getD ax 0) with
      | some j => getEl a (putAxis ix ax j)
      | none => pure 0)) s

def execArrRot (o : ArrCountOp) (s : State) : Out :=
  let n := s.acount o.n
  moveAxis o id (fun l i => some (((i : Int) + n) % (l : Int)).toNat) s

/-- take of a count whose magnitude is 2^32 or more: FORMAT, reason 6, after the formats (R148); it names DD (log 56, DESIGN
CHOICE). -/
def execArrTake (o : ArrCountOp) (s : State) : Out :=
  let n := s.acount o.n
  if (s.astrFormats o.dd o.da none (asA o.da notBp)).isNone && decide (2 ^ 32 ≤ n.natAbs) then
    .next (s.raise (arrayTrap .format o.dd 6 0))
  else
    moveAxis o (fun _ => n.natAbs) (fun l i =>
      let j : Int := if 0 ≤ n then i else (l : Int) + n + i
      if 0 ≤ j ∧ j < l then some j.toNat else none) s

def execArrDrop (o : ArrCountOp) (s : State) : Out :=
  let n := s.acount o.n
  moveAxis o (fun l => l - n.natAbs) (fun _ i => some (if 0 ≤ n then n.natAbs + i else i)) s

/-! arr.shape and arr.tpose: a vector of integers read from DB (R143, R148). -/

/-- Read a rank 1 vector of integers in order, its absent pages as one batch, in which every entry has ELEMS 1, and EIDX is 0: no
element of the result has been reached (log 56, DESIGN CHOICE). -/
def State.readVector (s : State) (d : Desc) : State × Except Trap (List Int) :=
  match (getEls d ((List.range (d.dims.headD 0)).map fun i => [i])).run ⟨s, 0, [], 0, none⟩ with
  | (.error t, r) => (r.s, .error (if r.absent ≠ [] then absencePage .aq .scnt r.absent.reverse else { t with point := .scnt }))
  | (.ok xs, r) =>
    if r.absent ≠ [] then (r.s, .error (absencePage .aq .scnt r.absent.reverse))
    else (r.s, .ok (xs.map (intOf d.fmt.width d.u)))

/-- An instruction that reads a vector of at most most entries from DB before its other checks. -/
def withVector (dd da db : DReg) (why most : Nat) (build : Desc → List Int → Built) (s : State) : Out :=
  match s.astrFormats dd da (some db) ⟨notBp, notBp, isWide, false, some da⟩ with
  | some t => .next (s.raise t)
  | none =>
    let a := s.rd da
    let b := s.rd db
    let n := b.dims.headD 0
    if b.rank ≠ 1 ∨ most < n then
      s.runArray (s.astrPlan dd [a, b] false
        (.error (arrayTrap .rank db why (BitVec.ofNat 64 (if b.rank ≠ 1 then b.rank.val else n)))))
    else
      match s.readVector b with
      | (s1, .error t) => .next (s1.raise t)
      | (s1, .ok xs) => s1.runArray (s1.astrPlan dd [a, b] false (build a xs))

/-- The first entry that is no axis length (R148). -/
def badLength (xs : List Int) : Option Int := xs.find? fun x => decide (x < 0) || decide ((2 ^ 32 : Int) ≤ x)

def execArrShape (dd da db : DReg) (s : State) : Out :=
  withVector dd da db 2 8 (fun a xs =>
    match badLength xs with
    | some x => .error (arrayTrap .rank db 2 (BitVec.ofInt 64 x))
    | none =>
      let sh := xs.map Int.toNat
      .ok (sh, fun lin => if a.count = 0 then pure 0 else getEl a (unravel a.dims (lin % a.count)))) s

/-- The first entry that is no axis of the argument, or repeats an earlier one. -/
def badAxis (r : Nat) : List Int → List Int → Option Int
  | _, [] => none
  | seen, x :: t => if x < 0 ∨ (r : Int) ≤ x ∨ x ∈ seen then some x else badAxis r (x :: seen) t

/-- arr.tpose: the permutation is read before its length is compared with the rank of A, and a bad entry goes before a wrong length
(log 56, DESIGN CHOICE). -/
def execArrTpose (dd da db : DReg) (s : State) : Out :=
  withVector dd da db 3 8 (fun a xs =>
    let r := a.rank.val
    match badAxis r [] xs with
    | some x => .error (arrayTrap .rank db 3 (BitVec.ofInt 64 x))
    | none =>
      if xs.length ≠ r then .error (arrayTrap .rank db 3 (BitVec.ofNat 64 xs.length))
      else
        let p := xs.map Int.toNat
        let sh := p.map fun q => a.dims.getD q 0
        .ok (sh, fun lin =>
          let ix := unravel sh lin
          getEl a ((List.range r).map fun q => ix.getD (p.idxOf q) 0))) s

/-! arr.outer, arr.from, arr.cat (R148, R151). -/

/-- An instruction of two arguments whose shapes alone decide its result. -/
def pairwise (row : AstrRow) (o : ArrPairOp) (part : Bool) (build : Desc → Desc → Built) (s : State) : Out :=
  s.runArray <|
    match s.astrFormats o.dd o.da (some o.db) row with
    | some t => .error t
    | none => s.astrPlan o.dd [s.rd o.da, s.rd o.db] part (build (s.rd o.da) (s.rd o.db))

/-- The result rank, checked before agreement (step 3 of R140). -/
def rankTrap (dd : DReg) (n : Nat) : Except Trap Unit :=
  if 8 < n then .error (arrayTrap .rank dd 0 (BitVec.ofNat 64 n)) else .ok ()

/-- arr.outer's operation on patterns: eq and lt give 0 or 1. -/
def outerOp (op : Iop) (f : Fmt) (u : Bool) (a b : Nat) : Nat :=
  match op with
  | .eq => arrRelate .eq f u a b
  | .lt => arrRelate .lt f u a b
  | _ => arrCombine op f u a b

def isTest (op : Iop) : Bool := op == .eq || op == .lt

def execArrOuter (o : ArrPairOp) (op : Iop) (s : State) : Out :=
  pairwise ⟨if isTest op then isI8 else foldFormats op, foldFormats op, foldFormats op, true,
      if isTest op then none else some o.da⟩ o false (fun a b => do
      let fa := splitShape a.dims o.ka
      let fb := splitShape b.dims o.kb
      rankTrap o.dd (fa.1.length + fb.1.length + max fa.2.length fb.2.length)
      let ce ← agreeShape 1 o.da o.db fa.2 fb.2
      let sh := fa.1 ++ fb.1 ++ ce
      pure (sh, fun lin => do
        let ix := unravel sh lin
        let i := ix.take fa.1.length
        let j := (ix.drop fa.1.length).take fb.1.length
        let c := ix.drop (fa.1.length + fb.1.length)
        let x ← getEl a (i ++ c.take fa.2.length)
        let y ← getEl b (j ++ c.take fb.2.length)
        pure (outerOp op a.fmt a.u x y))) s

/-- arr.from (R151): an index whose page is absent names no item yet; one out of range faults where its element is
reached. -/
def execArrFrom (o : ArrPairOp) (s : State) : Out :=
  pairwise ⟨notBp, Fmt.isInt, notBp, false, some o.db⟩ o false (fun a b => do
    let fa := splitShape a.dims o.ka
    let fb := splitShape b.dims o.kb
    if fb.2 = [] then .error (arrayTrap .rank o.db 4 0)
    rankTrap o.dd (max fa.1.length fb.1.length + fa.2.length + fb.2.length - 1)
    let fr ← agreeShape 0 o.da o.db fa.1 fb.1
    let sh := fr ++ fa.2 ++ fb.2.drop 1
    pure (sh, fun lin => do
      let ix := unravel sh lin
      let before := (← get).absent.length
      let p ← getEl a (ix.take fa.1.length ++ (ix.drop fr.length).take fa.2.length)
      if before < (← get).absent.length then pure 0
      else
        let x := intOf a.fmt.width a.u p
        if x < 0 ∨ (fb.2.headD 0 : Int) ≤ x then
          throw (frameTrap 2 0 (x % (2 ^ 32 : Int)).toNat (fb.2.headD 0) o.da o.db)
        else getEl b (ix.take fb.1.length ++ x.toNat :: ix.drop (fr.length + fa.2.length)))) s

/-- arr.cat: RANK with reason 4 names DB (log 56, DESIGN CHOICE). -/
def execArrCat (o : ArrPairOp) (ax : Axis) (s : State) : Out :=
  pairwise ⟨notBp, notBp, notBp, true, some o.da⟩ o false (fun a b => do
    let fa := splitShape a.dims o.ka
    let fb := splitShape b.dims o.kb
    if fa.2.length ≠ fb.2.length ∨ fa.2 = [] then
      .error (arrayTrap .rank o.db 4 (BitVec.ofNat 64 fb.2.length))
    let x := (← cellAxis a.dims o.ka ax o.da) - fa.1.length
    rankTrap o.dd (max fa.1.length fb.1.length + fa.2.length)
    let fr ← agreeShape 0 o.da o.db fa.1 fb.1
    let la := fa.2.getD x 0
    let _ ← agreeShape 1 o.da o.db (putAxis fa.2 x 0) (putAxis fb.2 x 0)
    let sh := fr ++ putAxis fa.2 x (la + fb.2.getD x 0)
    pure (sh, fun lin =>
      let ix := unravel sh lin
      let c := ix.drop fr.length
      let i := c.getD x 0
      if i < la then getEl a (ix.take fa.1.length ++ c)
      else getEl b (ix.take fb.1.length ++ putAxis c x (i - la)))) s

/-! arr.comp (R143, R152). -/

/-- Positions of the nonzero entries. -/
def keptOf (xs : List Int) : List Nat := ((xs.zip (List.range xs.length)).filter fun p => p.1 != 0).map (·.2)

def execArrComp (o : ArrPairOp) (ax : Axis) (s : State) : Out :=
  match s.astrFormats o.dd o.da (some o.db) ⟨notBp, Fmt.isInt, notBp, false, some o.db⟩ with
  | some t => .next (s.raise t)
  | none =>
    let a := s.rd o.da
    let b := s.rd o.db
    if a.rank ≠ 1 ∨ o.ka = some 0 then
      .next (s.raise (arrayTrap .rank o.da 4 (BitVec.ofNat 64 (if a.rank ≠ 1 then a.rank.val else 0))))
    else
      match s.readVector a with
      | (s1, .error t) => .next (s1.raise t)
      | (s1, .ok xs) =>
        let kept := keptOf xs
        let at_ := cellAxis b.dims o.kb ax o.db
        let frame : Option Trap := match at_ with
          | .error _ => none
          | .ok x =>
            if a.dims.headD 0 = b.dims.getD x 0 then none
            else some (frameTrap 1 (x - (splitShape b.dims o.kb).1.length) (a.dims.headD 0) (b.dims.getD x 0) o.da o.db)
        s1.runArray (s1.astrPlan o.dd [a, b] true (at_.map fun x =>
          let sh := putAxis b.dims x kept.length
          (sh, fun lin =>
            let ix := unravel sh lin
            getEl b (putAxis ix x (kept.getD (ix.getD x 0) 0)))) frame)

/-! arr.iota (R148). -/

def execArrIota (dd : DReg) (n : ACount) (s : State) : Out :=
  let d := s.rd dd
  let z := s.acount n
  s.runArray <|
    if !d.fmt.isInt then .error (arrayTrap .format dd 1 0)
    else if d.scaled then .error (arrayTrap .format dd 3 0)
    else if z < 0 then .error (arrayTrap .format dd 6 0)
    else .ok ⟨dd, d.updated [z.toNat], [z.toNat], false, fun lin => pure (lin % 2 ^ d.fmt.width)⟩

end Sys2Proof.Machine
end

