-- ==== Sys2Proof/Machine/Matrix.lean ====
section
/-! DEFINITION. The matrix unit: MX (R154 to R174, R241). mxa, mxld, mxst and the plan instructions that run in units
carry out one unit in each step of a task; between two units they stand at their PC with MXPROG.DONE at the boundary,
where R167 lets another cause interrupt them. In handler mode they run whole (R158). -/

namespace Sys2Proof.Machine

/-! Ownership (R156, R157). -/

/-- The task of context g: the one in the context now, else the one switched out of it last. Where the context holds another task than
the one whose tiles are resident, the save record that an owner record names is of the task in it now (log 58, DESIGN CHOICE). -/
def State.taskOf (s : State) (g : Nat) : Option Task :=
  match (s.ctxAt g).task with
  | some t => some t
  | none => ((s.dieAt (dieOf g)).out.filter (·.ctx == g)).getLast?.map (·.task)

/-- MXOFF (R173), with the owner's save record for a tile set that is taken (R241). -/
def State.mxoffTrap (s : State) (r : Nat) (p : Point) : Trap :=
  let own : Fin 4 := s.k.owner.getD 0
  let rec_ : Nat := match s.k.owner with
    | none => 0
    | some j => match s.taskOf (4 * coreOf s.here + j.val) with
      | some t => t.saveVa % 2 ^ 72
      | none => 0
  { cause := .mxoff, unit := .mq, point := p
    detail := reason r ||| BitVec.ofNat 56 (own.val * 2 ^ 50 + s.k.owner.isSome.toNat * 2 ^ 49)
    record := if r = 1 then leBytes 16 rec_ else [] }

/-- Step 1 of R173 and R188: skipped in handler mode. -/
def State.mxCheck (s : State) (p : Point) : Option Trap :=
  if s.c.hnd then none
  else if !s.c.mxen then some (s.mxoffTrap 0 p)
  else if !s.owns then some (s.mxoffTrap 1 p)
  else none

/-- Run act unless a check fails. -/
def State.checked (s : State) (t : Option Trap) (act : State) : Out :=
  .next <| match t with
  | some t => s.raise t
  | none => act

/-- mxon: in handler mode MXPROG stays as it is, since R158 has no instruction write it there (log 47, DEDUCED). -/
def execMxon (s : State) : Out :=
  let t := { s with c := { s.c with mxen := true } }
  .next <|
    if t.k.owner.isSome then t.adv
    else
      { t with
        c := { t.c with mxprog := if s.c.hnd then s.c.mxprog else 0 }
        k := { t.k with
          owner := some t.num
          tiles := Vector.replicate 8 (Vector.replicate 64 0)
          plan := Plan.clear } }.adv

def execMxoff (s : State) : Out := .next s.matrixOff.adv

/-! Tiles (R154). -/

/-- Element (i, j) of a tile, an FP32 pattern. -/
def Core.tile (k : Core) (t : TReg) (i j : Nat) : Nat := ((k.tiles[t]).toList.getD i 0).toNat >>> (32 * j) % 2 ^ 32

/-- Columns of one row of a tile written. -/
def Core.putTile (k : Core) (t : TReg) (i : Fin 64) (es : List (Nat × Nat)) : Core :=
  let row : BitVec 2048 := es.foldl (fun r e =>
    (r &&& ~~~BitVec.ofNat 2048 ((2 ^ 32 - 1) <<< (32 * e.1))) ||| BitVec.ofNat 2048 ((e.2 % 2 ^ 32) <<< (32 * e.1)))
    ((k.tiles[t])[i])
  { k with tiles := k.tiles.set t ((k.tiles[t]).set i row) }

/-- MEMUE of a tile element (R154, R227). -/
def tileTrap (p : Point) : Trap := { cause := .memue, detail := reason 5, unit := .mq, point := p }

/-- The tile elements that p picks are read: an error is retried, or classed transient or lasting, and counted for the core (R154,
R340, R341). Did a read fail? -/
def State.readTiles (s : State) (p : BadTile → Bool) : State × Bool :=
  if s.k.tbad = [] then (s, false)
  else
    let outcome (b : BadTile) := if p b then b.bad.read Lay.plain else (b.bad, false, none)
    let t := s.k.tbad.foldl (fun t b => t.classed (.core (coreOf s.here)) (outcome b).2.2) s
    ({ t with k := { t.k with
        tbad := (s.k.tbad.map fun b => { b with bad := (outcome b).1 }).filter fun b => b.bad != Bad.clean } },
     s.k.tbad.any fun b => (outcome b).2.1)

/-- Does the element lie in columns js of row i of tile t? -/
def BadTile.among (t : TReg) (i : Nat) (js : List Nat) (b : BadTile) : Bool :=
  b.tile == t && b.row.val == i && js.contains b.col.val

/-- Read elements of a tile row in the course of a unit, unless a page is absent. -/
def readTile (t : TReg) (i : Nat) (js : List Nat) : Arr Unit := fun r =>
  if r.absent ≠ [] then (.ok (), r)
  else
    match r.s.readTiles (BadTile.among t i js) with
    | (s1, true) => (.error (tileTrap .mxprog), { r with s := s1 })
    | (s1, false) => (.ok (), { r with s := s1 })

/-- The j-th tile from t. -/
def tileAt (t : TReg) (j : Nat) : TReg := Fin.ofNat 8 (t.val + j)

/-- Tiles t to t + r are no longer the plan tile (R171). -/
def Core.unbind (k : Core) (t : TReg) (rpt : Fin 8) : Core :=
  if k.plan.bnd && decide (t.val ≤ k.plan.pt.val) && decide (k.plan.pt.val ≤ t.val + rpt.val) then
    { k with plan := { k.plan with bnd := false } }
  else k

/-! mxz, mxpred (R159, R168). -/

def Core.zeroTiles (k : Core) (t : TReg) (rpt : Fin 8) : Core :=
  (List.range (rpt.val + 1)).foldl (fun k j =>
    { k with tiles := k.tiles.set (tileAt t j) (Vector.replicate 64 0) }) k

def execMxz (td : TReg) (rpt : Fin 8) (s : State) : Out :=
  s.checked (s.mxCheck .none) { s with k := (s.k.unbind td rpt).zeroTiles td rpt }.adv

def execMxpred (xn : XReg) (col : Bool) (s : State) : Out :=
  s.checked (s.mxCheck .none)
    { s with c := if col then { s.c with mxcolp := s.rx xn } else { s.c with mxrowp := s.rx xn } }.adv

/-! mxrd, mxwr (R170). -/

/-- FORMAT of a matrix instruction whose width is too small: register field zero (R173). -/
def narrowTrap : Trap := { formatTrap .mq 6 with unit := .mq }

/-- Bind lanes first; then the width; then the effect (R170, R185). -/
def State.withLanes (s : State) (act : State → State) : State :=
  if !s.c.vlive then s.waitFor .lanes .mq
  else if s.wid < 32 then s.raise narrowTrap
  else act s

/-- The index, or ACCESS with reason 5. -/
def State.tileIdx (s : State) : TileIdx → Except Trap (Fin 64)
  | .imm v => .ok v
  | .reg r =>
    let v := s.rx r
    if h : v.toNat < 64 then .ok ⟨v.toNat, h⟩
    else .error { cause := .access, detail := reason 5, addr := v, unit := .mq }

/-- The positions of a row or column, in order. -/
def tileLine (ix : Fin 64) (col : Bool) : List (Fin 64 × Fin 64) :=
  (List.finRange 64).map fun n => if col then (n, ix) else (ix, n)

def execMxrd (vs : VReg) (ts : TReg) (ix : TileIdx) (col : Bool) (s : State) : Out :=
  s.checked (s.mxCheck .none) <| s.withLanes fun s =>
    match s.tileIdx ix with
    | .error t => s.raise t
    | .ok n =>
      let ps := tileLine n col
      match s.readTiles fun b => b.tile == ts && ps.contains (b.row, b.col) with
      | (s, true) => s.raise (tileTrap .none)
      | (s, false) => (s.putElems vs 32 ((List.range 64).zip (ps.map fun p => s.k.tile ts p.1.val p.2.val))).adv

def execMxwr (td : TReg) (vs : VReg) (ix : TileIdx) (col : Bool) (s : State) : Out :=
  s.checked (s.mxCheck .none) <| s.withLanes fun s =>
    match s.tileIdx ix with
    | .error t => s.raise t
    | .ok n =>
      let used : List Read := [⟨0, vs, 32, same (List.range 64)⟩]
      let put (lim : Nat) : State := { s.readSlices used with
        k := (((List.range 64).zip (tileLine n col)).take lim).foldl (fun (k : Core) (p : Nat × Fin 64 × Fin 64) =>
          k.putTile td p.2.1 [(p.2.2.val, s.elemAt vs 32 p.1)]) s.k }
      match s.sliceStop used with
      | some (g, i) => (put i).raise (sliceTrap .mq g i)
      | none => (put 64).adv

/-! Units under MXPROG (R167). -/

/-- What one unit changes: elements of tile rows, and stores. -/
structure Effect where
  tiles : List (TReg × Fin 64 × List (Nat × Nat))
  stores : List (Leaf × List Byte)
  deriving DecidableEq, Repr

/-- An instruction that runs in units: how many, how many make a row, and what each does. -/
structure Units where
  n : Nat
  perRow : Nat
  unit : Nat → Arr Effect

/-- A unit's effect on the machine: tiles and memory (class MXL, R172). -/
def State.commit (s : State) (e : Effect) : State :=
  let t := { s with k := e.tiles.foldl (fun k r => k.putTile r.1 r.2.1 r.2.2) s.k }
  e.stores.foldl (fun t w => t.storeOwn .mxl w.1 w.2) t

/-- The pages that later units of the row need too. -/
def Units.rest (p : Units) : List Nat → Reader → Reader
  | [], r => r
  | u :: t, r =>
    match (p.unit u).run r with
    | (.ok _, r1) => Units.rest p t r1
    | (.error _, r1) => r1

/-- One unit: committed, or its trap with nothing of it done. -/
def Units.one (p : Units) (pt : Point) (s : State) (u : Nat) : Except State State :=
  match (p.unit u).run ⟨s, 0, [], 0, none⟩ with
  | (out, r) =>
    if r.absent ≠ [] then
      let later := (List.range ((u / p.perRow + 1) * p.perRow)).filter fun v => decide (u < v) && decide (v < p.n)
      let r1 := match out with
        | .ok _ => p.rest later r
        | .error _ => r
      .error (r1.s.raise (absencePage .mq pt r1.absent.reverse))
    else
      match out with
      | .error t =>
        .error (r.s.raise { t with
          unit := .mq, point := pt
          elem := if t.cause = .watch then some (0, BitVec.ofNat 13 r.lin) else t.elem })
      | .ok e => .ok (r.s.commit e)

/-- Every unit, as a handler runs them. -/
def Units.all (p : Units) (pt : Point) : List Nat → State → Except State State
  | [], s => .ok s
  | u :: t, s =>
    match p.one pt s u with
    | .error e => .error e
    | .ok s1 => Units.all p pt t s1

/-- Run from MXPROG.DONE: one unit, which restarts the progress timer, then the next step goes on; a handler runs whole,
from its first unit. -/
def Units.run (p : Units) (s : State) : State :=
  if s.c.hnd then
    match p.all .mxprog (List.range p.n) s with
    | .error e => e
    | .ok t => t.adv
  else
    let u := s.c.mxprog.toNat
    let done (t : State) : State := { t with c := { t.c with mxprog := 0 } }.adv
    if p.n ≤ u then done s
    else
      match p.one .mxprog s u with
      | .error e => e
      | .ok t =>
        if u + 1 < p.n then { t with c := { t.c with mxprog := BitVec.ofNat 10 (u + 1), ept := 0 } }.waitFor .going .mq
        else done t

/-! Enabled elements (R159, R160, R169). -/

/-- The enabled columns of unit u of r repeats, over extents m x n: none when its row is not enabled. -/
def Ctx.enabled (c : Ctx) (r m n u : Nat) : List Nat :=
  let i := u / r
  if i < m ∧ c.mxrowp.getLsbD i then
    (List.range 64).filter fun j => decide (64 * (u % r) + j < n) && c.mxcolp.getLsbD j
  else []

/-- Shape entries 0 and 1. -/
def Desc.len (d : Desc) (a : Nat) : Nat := (d.shape.toList.getD a 0).toNat

/-- A report naming a descriptor register (R173). -/
def mxTrap (c : Cause) (reg : DReg) (why : Nat) (addr : Nat) : Trap :=
  { arrayTrap c reg why (BitVec.ofNat 64 addr) with unit := .mq, point := .mxprog }

def firstTrap : List (Bool × Trap) → Option Trap
  | [] => none
  | (bad, t) :: rest => if bad then some t else firstTrap rest

/-! mxa (R160 to R166). -/

/-- The pairs of R163. -/
def mxaPair (a b : Fmt) : Bool :=
  match a, b with
  | .bf16, .bf16 | .fp16, .fp16 | .i8, .i8 | .fp4, .fp4 | .bp, .i8 | .i8, .bp => true
  | .fp8a, .fp8a | .fp8a, .fp8b | .fp8b, .fp8a | .fp8b, .fp8b => true
  | _, _ => false

/-- The matrix axes of an operand: its last two (R160, R161). -/
def Desc.axes (d : Desc) : Nat × Nat := if d.fmt = .bp then (d.len 1, d.len 2) else (d.len 0, d.len 1)

/-- Ranks and planes of an operand (R160, R161). -/
def operandChecks (d : Desc) (reg : DReg) : List (Bool × Trap) :=
  if d.fmt = .bp then
    [(d.rank.val != 3, mxTrap .rank reg 5 d.rank.val),
     (decide (d.len 0 < 2) || decide (8 < d.len 0), mxTrap .rank reg 6 (d.len 0)),
     (d.stride[0] != 0, mxTrap .rank reg 6 ((d.stride[0].signExtend 64).toNat))]
  else [(d.rank.val != 2, mxTrap .rank reg 5 d.rank.val)]

/-- The checks of mxa after step 1 of R173. Within a step of R173 the operand A goes before B, and the ranks and planes of both before
the extents (log 58, DESIGN CHOICE). -/
def mxaChecks (a b : Desc) (o : MxaOp) : Option Trap :=
  let r := o.rpt.val + 1
  let k := a.axes.2
  firstTrap <|
    [(o.fmt != a.fmt, mxTrap .format o.da 2 0),
     (!mxaPair a.fmt b.fmt, mxTrap .format o.db 1 0),
     (a.scaled && a.blk != .b32, mxTrap .format o.da 3 0),
     (b.scaled && b.blk != .b32, mxTrap .format o.db 3 0)] ++
    operandChecks a o.da ++ operandChecks b o.db ++
    [(decide (64 < a.axes.1), mxTrap .rank o.da 6 a.axes.1),
     (decide (64 * r < b.axes.2), mxTrap .rank o.db 6 b.axes.2),
     (k != b.axes.1, { frameTrap 1 0 k b.axes.1 o.da o.db with unit := .mq, point := .mxprog }),
     (a.scaled && k % 32 != 0, mxTrap .format o.da 3 0),
     (b.scaled && k % 32 != 0, mxTrap .format o.db 3 0)]

/-- The byte and bit of plane j of element (a, b) of a bitplane operand (R161). -/
def Desc.planeBit (d : Desc) (j a b : Nat) : Nat × Nat :=
  let bits : Int := 8 * ((d.base.toNat : Int) + j * d.pstride.toInt) + a * d.stride[1].toInt + b * d.stride[2].toInt
  let n := (bits % ((2 ^ 75 : Nat) : Int)).toNat
  (n / 8, n % 8)

/-- The reconstruction of R67 from the p top planes of an element, read as a p-bit value t: with fewer than eight planes
the midpoint of the values that share them. -/
def planeValue (p : Nat) (u : Bool) (planes : Nat) : FVal :=
  FVal.ofInt (intOf p u planes * (2 ^ (8 - p) : Nat) + if p < 8 then (2 ^ (7 - p) : Nat) else 0)

/-- The planes of an element, first plane highest. -/
def getPlanes (d : Desc) (a b : Nat) : List Nat → Arr Nat
  | [] => pure 0
  | j :: t => do
    let q := d.planeBit j a b
    let bs ← arrRead .mq .mxl q.1 1
    let rest ← getPlanes d a b t
    pure ((leNat bs / 2 ^ q.2 % 2) * 2 ^ t.length + rest)

/-- The value of element (a, b) of an operand, read on MXL. -/
def getOperand (d : Desc) (a b : Nat) : Arr FVal :=
  if d.fmt = .bp then do
    let v ← getPlanes d a b (List.range (d.len 0))
    pure (planeValue (d.len 0) d.u v)
  else
    match d.place .mq Need.read [a, b] with
    | .error t => throw t
    | .ok (va, sh, n) => do
      let bs ← arrRead .mq .mxl va n
      pure (elemVal d.fmt d.u (leNat bs / 2 ^ sh % 2 ^ d.fmt.width))

/-- The scale of block m of an operand (R162). -/
def getOperandScale (d : Desc) (m : Nat) : Arr Nat :=
  if d.scaled then do
    let bs ← arrRead .mq .mxl (d.scaleAt m) 1
    pure (leNat bs)
  else pure 127

/-- Collect an operand's values in order. -/
def collect {α : Type} (get : Nat → Arr α) : List Nat → Arr (List α)
  | [] => pure []
  | k :: t => do
    let v ← get k
    let rest ← collect get t
    pure (v :: rest)

/-- A value times a scale: 0xFF gives NaN (R164). -/
def FVal.scaled (v : FVal) (e : Nat) : FVal := if e = 0xFF then .nan else v.scale ((e : Int) - 127)

/-- RoundNE at the end of WindowSum (R165): s units of 2^lo, with sticky. A representable sum is kept; any other is moved
off the halfway points by an amount below a unit. -/
def roundSticky (s lo : Int) (sticky : Bool) : Nat :=
  let y : FVal := .fin (decide (s < 0)) s.natAbs lo
  let p := Machine.encode .fp32 false .rne false y
  if sticky && !(elemVal .fp32 false p).eq y then
    Machine.encode .fp32 false .rne false (inexact (decide (s < 0)) s.natAbs lo false)
  else p

/-- WindowSum (R165). -/
def windowSum (acc : Nat) (terms : List FVal) : Nat :=
  let all := elemVal .fp32 false acc :: terms
  let isInf (neg : Bool) (v : FVal) : Bool := v == .inf neg
  if all.any FVal.isNaN || (all.any (isInf true) && all.any (isInf false)) then canonicalNaN .fp32
  else if all.any (isInf true) then withSign .fp32 true (infPattern .fp32)
  else if all.any (isInf false) then infPattern .fp32
  else if terms.all FVal.isZero then acc
  else
    let nz := all.filter fun v => !v.isZero
    let e := nz.foldl (fun x v => max x v.ilog2) (nz.headD .nan).ilog2
    let lo := e - 95
    let r := nz.foldl (fun (p : Int × Bool) v =>
      match v with
      | .fin neg m x =>
        -- a value whose top bit lies below the window leaves 0 and a remainder
        let small := decide (x + (Nat.log2 m : Int) < lo)
        let q := if lo ≤ x then m * 2 ^ (x - lo).toNat else if small then 0 else m / 2 ^ (lo - x).toNat
        let lost := decide (x < lo) && (small || m % 2 ^ (lo - x).toNat != 0)
        (if neg then p.1 - q else p.1 + q, p.2 || lost)
      | _ => p) ((0 : Int), false)
    if r.1 = 0 then 0 else roundSticky r.1 lo r.2

/-- The accumulator after the K-blocks, 32 products each (R164). -/
def kSum : Nat → Nat → List FVal → Nat
  | 0, acc, _ => acc
  | f + 1, acc, ps => if ps = [] then acc else kSum f (windowSum acc (ps.take 32)) (ps.drop 32)

/-- The products of a row of A and a column of B, each with the scales of its block. -/
def products (xs ys : List FVal) (sx sy : List Nat) : List FVal :=
  ((xs.zip ys).zip (List.range xs.length)).map fun p =>
    ((p.1.1.mul p.1.2).scaled (sx.getD (p.2 / 32) 127)).scaled (sy.getD (p.2 / 32) 127)

/-- Columns of one unit: B's column and scales are read for each. -/
def mxaColumns (b : Desc) (k : Nat) (xs : List FVal) (sx : List Nat) (acc : Nat → Nat) (i n64 n : Nat) :
    List Nat → Arr (List (Nat × Nat))
  | [] => pure []
  | j :: t => do
    modify fun r => { r with lin := i * n + (n64 + j) }
    let ys ← collect (fun q => getOperand b q (n64 + j)) (List.range k)
    let sy ← collect (fun q => getOperandScale b (((n64 + j) * k) / 32 + q)) (List.range ((k + 31) / 32))
    let rest ← mxaColumns b k xs sx acc i n64 n t
    pure ((j, kSum (k / 32 + 1) (acc j) (products xs ys sx sy)) :: rest)

/-- Unit u of mxa (R164). An operand's fault goes before the MEMUE of a tile element, and with K = 0 no tile element is read (log 58,
DESIGN CHOICE). -/
def mxaUnit (c : Ctx) (core : Core) (a b : Desc) (o : MxaOp) (u : Nat) : Arr Effect := do
  let r := o.rpt.val + 1
  let i := u / r
  let n := b.axes.2
  let k := a.axes.2
  let cols := c.enabled r a.axes.1 n u
  let t := tileAt o.td (u % r)
  if cols = [] ∨ k = 0 then pure ⟨[], []⟩
  else
    modify fun q => { q with lin := i * n + (64 * (u % r) + cols.headD 0) }
    let xs ← collect (getOperand a i) (List.range k)
    let sx ← collect (fun q => getOperandScale a (i * k / 32 + q)) (List.range ((k + 31) / 32))
    let es ← mxaColumns b k xs sx (core.tile t i) i (64 * (u % r)) n cols
    readTile t i cols
    pure ⟨[(t, Fin.ofNat 64 i, es)], []⟩

def execMxa (o : MxaOp) (s : State) : Out :=
  let a := s.rd o.da
  let b := s.rd o.db
  let t := { s with k := s.k.unbind o.td o.rpt }
  s.checked ((s.mxCheck .mxprog).or (mxaChecks a b o))
    (Units.run ⟨64 * (o.rpt.val + 1), o.rpt.val + 1, fun u r => mxaUnit r.s.c r.s.k a b o u r⟩ t)

/-! mxld, mxst (R169). -/

/-- The checks of mxld and mxst after step 1 of R173. -/
def moveChecks (d : Desc) (reg : DReg) (f : Fmt) (rpt : Fin 8) : Option Trap :=
  firstTrap
    [(d.fmt != f, mxTrap .format reg 2 0), (d.scaled, mxTrap .format reg 3 0),
     (d.rank.val != 2, mxTrap .rank reg 5 d.rank.val),
     (decide (64 < d.len 0), mxTrap .rank reg 6 (d.len 0)),
     (decide (64 * (rpt.val + 1) < d.len 1), mxTrap .rank reg 6 (d.len 1))]

/-- Read elements (i, n64 + j) of a matrix on MXL, as patterns. -/
def readRow (d : Desc) (i n64 : Nat) : List Nat → Arr (List (Nat × Nat))
  | [] => pure []
  | j :: t => do
    modify fun r => { r with lin := i * d.len 1 + (n64 + j) }
    match d.place .mq Need.read [i, n64 + j] with
    | .error e => throw e
    | .ok (va, sh, n) =>
      let bs ← arrRead .mq .mxl va n
      let rest ← readRow d i n64 t
      pure ((j, leNat bs / 2 ^ sh % 2 ^ d.fmt.width) :: rest)

/-- Where whole-byte elements are to be written: translated and watched, nothing written yet. -/
def aimStores (d : Desc) (lin : Nat → Nat) : List (Nat × List Nat × Nat) → Arr (List (Leaf × List Byte))
  | [] => pure []
  | (k, ix, v) :: t => do
    modify fun r => { r with lin := lin k }
    match d.place .mq Need.write ix with
    | .error e => throw e
    | .ok (va, _, n) =>
      let l ← arrAt .mq va Need.write
      let r ← get
      match l with
      | none => aimStores d lin t
      | some l =>
        if r.absent = [] then onState (checkWatch .mq .mxl Need.write l.pa n)
        let rest ← aimStores d lin t
        pure ((l, leBytes n v) :: rest)

/-- An FP32 pattern as the destination format holds it: BF16 under R86, nearest even, SAT 0. -/
def narrowed (f : Fmt) (v : Nat) : Nat :=
  if f = .bf16 then Machine.encode .bf16 false .rne false (elemVal .fp32 false v) else v

def execMxld (td : TReg) (da : DReg) (rpt : Fin 8) (s : State) : Out :=
  let d := s.rd da
  let r := rpt.val + 1
  let t := { s with k := s.k.unbind td rpt }
  s.checked ((s.mxCheck .mxprog).or (moveChecks d da .fp32 rpt)) <|
    Units.run ⟨64 * r, r, fun u => do
      let q ← get
      let es ← readRow d (u / r) (64 * (u % r)) (q.s.c.enabled r (d.len 0) (d.len 1) u)
      pure ⟨[(tileAt td (u % r), Fin.ofNat 64 (u / r), es)], []⟩⟩ t

def execMxst (ts : TReg) (da : DReg) (bf : Bool) (rpt : Fin 8) (s : State) : Out :=
  let d := s.rd da
  let r := rpt.val + 1
  s.checked ((s.mxCheck .mxprog).or (moveChecks d da (if bf then .bf16 else .fp32) rpt)) <|
    Units.run ⟨64 * r, r, fun u => do
      let q ← get
      let i := u / r
      let cols := q.s.c.enabled r (d.len 0) (d.len 1) u
      let t := tileAt ts (u % r)
      let ws ← aimStores d (fun j => i * d.len 1 + (64 * (u % r) + j))
        (cols.map fun j => (j, [i, 64 * (u % r) + j], narrowed d.fmt (q.s.k.tile t i j)))
      readTile t i cols
      pure ⟨[], ws⟩⟩ s

end Sys2Proof.Machine
end

