-- ==== Sys2Proof/Machine/Plan.lean ====
section
/-! DEFINITION. Plan tiles: PL (R175 to R189). FP32 values are patterns. bal carries out one sweep in each step of a task;
between two sweeps it stands at its PC with PLSW at the boundary, where R181 lets another cause interrupt it. -/

namespace Sys2Proof.Machine

/-! Arithmetic (R177). -/

def f32 (x : Nat) : FVal := elemVal .fp32 false x

/-- Rnd: nearest even, an overflow to the largest finite value. -/
def rnd32 (v : FVal) : Nat := Machine.encode .fp32 false .rne true v

/-- Minus infinity. -/
def negInf : Nat := 0xFF800000

/-- Operands that R177 admits. -/
def planOk (x : Nat) : Bool :=
  match f32 x with
  | .fin _ _ _ => true
  | _ => x == negInf

def planOpen (op : Nat) (xs : List Nat) : Nat := (Config.planOpen op (xs.map (BitVec.ofNat 32))).toNat

def negate32 (x : Nat) : Nat := withSign .fp32 (!signOf .fp32 x) (magOf .fp32 x)

def planAdd (a b : Nat) : Nat :=
  if !planOk a || !planOk b then planOpen 0 [a, b]
  else if a = negInf ∨ b = negInf then negInf
  else rnd32 (FVal.add .rne (f32 a) (f32 b))

/-- A difference of values that are not minus infinity. -/
def planSub (a b : Nat) : Nat := planAdd a (negate32 b)

/-- t < -126 x ln 2, from ln 2 to fracBits bits; no FP32 value lies between. -/
def belowExp (v : FVal) : Bool := v.lt (.fin true (126 * ln2Fixed) (-(fracBits : Int)))

def planExp (t : Nat) : Nat :=
  if !planOk t then planOpen 1 [t]
  else if t = negInf ∨ belowExp (f32 t) then 0
  else rnd32 (f32 t).exp

def planLn (x : Nat) : Nat :=
  match f32 x with
  | .fin neg m _ => if m = 0 then negInf else if neg then planOpen 2 [x] else rnd32 (f32 x).ln
  | _ => planOpen 2 [x]

def max32 (a b : Nat) : Nat := if (f32 a).lt (f32 b) then b else a

/-- LSE, in index order. -/
def lse (xs : List Nat) : Nat :=
  if !xs.all planOk then planOpen 3 xs
  else
    let m := xs.foldl max32 negInf
    if m = negInf then negInf
    else planAdd m (planLn (xs.foldl (fun s x => planAdd s (planExp (if x = negInf then negInf else planSub x m))) 0))

def update (mass l : Nat) : Nat :=
  if l = negInf ∨ (f32 mass).isZero then negInf
  else if !planOk l || !planOk mass || signOf .fp32 mass then planOpen 4 [mass, l]
  else planSub (planLn mass) l

/-- A product, rounded; that of an infinity and a value other than zero and NaN is an infinity. -/
def planMul (a b : Nat) : Nat :=
  match f32 a, f32 b with
  | .fin _ _ _, .fin _ _ _ => rnd32 ((f32 a).mul (f32 b))
  | .inf x, .inf y => infSign (x != y)
  | .inf x, .fin y m _ | .fin y m _, .inf x => if m = 0 then planOpen 5 [a, b] else infSign (x != y)
  | .nan, _ | _, .nan => planOpen 5 [a, b]
where
  infSign (neg : Bool) : Nat := withSign .fp32 neg (infPattern .fp32)

/-- A quotient of finite values, rounded. -/

def planDiv (a b : Nat) : Nat :=
  match f32 a, f32 b with
  | .fin _ _ _, .fin _ m _ => if m = 0 then planOpen 6 [a, b] else rnd32 ((f32 a).div (f32 b))
  | _, _ => planOpen 6 [a, b]

/-- A positive normal FP32 value. -/
def posNormal (x : BitVec 32) : Bool := !x.getLsbD 31 && x.extractLsb' 23 8 != 0 && x.extractLsb' 23 8 != 0xFF

/-! Checks and reports (R188). -/

def Plan.trap (p : Plan) (why addr : Nat) (pt : Point) : Trap :=
  { cause := .plan, unit := .mq, point := pt, addr := BitVec.ofNat 64 addr
    detail := reason why ||| BitVec.ofNat 56 (p.pt.val * 2 ^ 49 + p.bnd.toNat * 2 ^ 48) }

/-- The tile is bound as the plan tile. -/
def Plan.isBound (p : Plan) (t : TReg) : Bool := p.bnd && p.pt == t

/-- The first axis on which a descriptor has another length: its length. -/
def wrongLength : List Nat → List Nat → Option Nat
  | x :: xs, y :: ys => if x ≠ y then some x else wrongLength xs ys
  | _, _ => none

def imageShape : List Nat := [1, 5, 64]

/-- FORMAT, then RANK, for a matrix (rank 2) or a plan image (rank 3) (R178, R183, R188). A descriptor of another rank has
no mode: its format fails where no mode accepts it, and the matrix accepts FP32 as the image does (log 32, DEDUCED). -/
def planShape (d : Desc) (reg : DReg) (ok : Fmt → Bool) : Option Trap :=
  let r := d.rank.val
  firstTrap
    [((r != 3 && !ok d.fmt) || (r == 3 && d.fmt != .fp32), mxTrap .format reg 1 0),
     (d.scaled, mxTrap .format reg 3 0),
     (r != 2 && r != 3, mxTrap .rank reg 5 r),
     (r == 3 && d.dims != imageShape, mxTrap .rank reg 6 ((wrongLength d.dims imageShape).getD 0))]

def vec64 (xs : List Nat) : Vector (BitVec 32) 64 := Vector.ofFn fun i : Fin 64 => BitVec.ofNat 32 (xs.getD i.val 0)

def State.onPlan (s : State) (f : Plan → Plan) : State := { s with k := { s.k with plan := f s.k.plan } }

/-- Read elements at indices in order, each under its own number. -/
def readAll (d : Desc) : List (Nat × List Nat) → Arr (List Nat)
  | [] => pure []
  | (k, ix) :: t => do
    modify fun r => { r with lin := k }
    match d.place .mq Need.read ix with
    | .error e => throw e
    | .ok (va, sh, n) =>
      let bs ← arrRead .mq .mxl va n
      let rest ← readAll d t
      pure (leNat bs / 2 ^ sh % 2 ^ d.fmt.width :: rest)

/-- One unit that is no part of MXPROG: read, checked, then act; a trap changes nothing. -/
def State.single {α : Type} (s : State) (a : Arr α) (act : State → α → State) : State :=
  match a.run ⟨s, 0, [], 0, none⟩ with
  | (out, r) =>
    if r.absent ≠ [] then r.s.raise (absencePage .mq .none r.absent.reverse)
    else
      match out with
      | .error t =>
        r.s.raise { t with unit := .mq, elem := if t.cause = .watch then some (0, BitVec.ofNat 13 r.lin) else t.elem }
      | .ok v => (act r.s v).adv

/-- Stop here when a page is absent: nothing that was read counts. -/
def settled (t : Option Trap) : Arr Unit := do
  let r ← get
  match t with
  | some t => if r.absent = [] then throw t else pure ()
  | none => pure ()

/-! plset (R178, R186). -/

def isCost (f : Fmt) : Bool := f == .fp32 || f == .bf16 || f == .fp16

/-- What setup leaves: the binding, the vectors cleared, rows from M on at minus infinity. -/
def Core.bindPlan (k : Core) (t : TReg) (m n : Nat) (eps : BitVec 32) : Core :=
  let rows := (List.finRange 64).filter fun i => decide (m ≤ i.val)
  let k1 := { k with plan := { Plan.clear with bnd := true, pt := t, m := BitVec.ofNat 32 m, n := BitVec.ofNat 32 n, eps := eps } }
  rows.foldl (fun k i => k.putTile t i ((List.range 64).map fun j => (j, negInf))) k1

/-- Costs of row i from column j on, as log-kernel values (R178): NaN and minus infinity fault with their index. -/
def costRow (d : Desc) (i n : Nat) : List Nat → Arr (List Nat)
  | [] => pure []
  | j :: t => do
    let c ← readAll d [(i * n + j, [i, j])]
    let r ← get
    let p := r.s.k.plan
    let v := elemVal d.fmt false (c.headD 0)
    settled (if v = .nan ∨ v = .inf true then some (p.trap 2 (i * n + j) .mxprog) else none)
    let rest ← costRow d i n t
    pure ((if v = .inf false then negInf else rnd32 (v.neg.div (f32 p.eps.toNat))) :: rest)

/-- Row i of the kernel, over the N that setup recorded. -/
def costUnit (d : Desc) (i : Nat) : Arr Effect := do
  let n := (← get).s.k.plan.n.toNat
  let ks ← costRow d i n (List.range n)
  let r ← get
  pure ⟨[(r.s.k.plan.pt, Fin.ofNat 64 i, (List.range 64).map fun j => (j, ks.getD j negInf))], []⟩

/-- The plan state of an image of 320 words, if it is valid (R186). -/
def Plan.ofImage (ws : List Nat) : Option Plan :=
  let w := ws.drop 256
  let h := w.getD 0 0
  let m := w.getD 1 0
  let n := w.getD 2 0
  let eps : BitVec 32 := BitVec.ofNat 32 (w.getD 3 0)
  let bnd := h % 2 == 1
  let pt := h / 2 % 8
  let ok := if bnd then decide (1 ≤ m) && decide (m ≤ 64) && decide (1 ≤ n) && decide (n ≤ 64) && posNormal eps
    else pt == 0 && m == 0 && n == 0 && eps == 0
  if decide (h < 16) && (w.drop 4).all (· == 0) && ok then
    some { bnd := bnd, pt := Fin.ofNat 8 pt, m := BitVec.ofNat 32 m, n := BitVec.ofNat 32 n, eps := eps,
           lrs := vec64 (ws.take 64), lcs := vec64 ((ws.drop 64).take 64), mrow := vec64 ((ws.drop 128).take 64),
           mcol := vec64 ((ws.drop 192).take 64) }
  else none

/-- The image of the plan state (R186). -/
def Plan.image (p : Plan) : List Nat :=
  let w (v : Vector (BitVec 32) 64) : List Nat := v.toList.map BitVec.toNat
  let row4 := if p.bnd then [1 + 2 * p.pt.val, p.m.toNat, p.n.toNat, p.eps.toNat] else [0, 0, 0, 0]
  w p.lrs ++ w p.lcs ++ w p.mrow ++ w p.mcol ++ row4 ++ List.replicate 60 0

/-- The indices of an image descriptor. -/
def imageIndices : List (Nat × List Nat) := (List.range 320).map fun k => (k, [0, k / 64, k % 64])

/-- Extents of cost mode. -/
def costExtents (d : Desc) (reg : DReg) : Option Trap :=
  firstTrap
    ([d.len 0, d.len 1].map fun e => (decide (e < 1) || decide (64 < e), mxTrap .rank reg 6 e))

def execPlset (td : TReg) (da : DReg) (s : State) : Out :=
  let d := s.rd da
  let t := (s.mxCheck .mxprog).or (planShape d da isCost)
  if d.rank.val = 3 then
    s.checked t <| s.single
      (do
        let ws ← readAll d imageIndices
        match Plan.ofImage ws with
        | some p => pure p
        | none =>
          settled (some (s.k.plan.trap 4 0 .none))
          pure s.k.plan)
      fun s p => s.onPlan fun _ => p
  else
    let low := if posNormal s.c.pleps then none else some (s.k.plan.trap 1 0 .mxprog)
    let fresh := s.c.hnd || s.c.mxprog == 0
    let s1 := if fresh then { s with k := s.k.bindPlan td (d.len 0) (d.len 1) s.c.pleps } else s
    s.checked ((t.or (costExtents d da)).or low) (Units.run ⟨s1.k.plan.m.toNat, 1, costUnit d⟩ s1)

/-! plmarg (R179). -/

/-- Marginals as they are kept, or the index of the first that is negative, NaN or infinite. -/
def marginals : Nat → List Nat → Except Nat (List Nat)
  | _, [] => .ok []
  | i, x :: t =>
    match f32 x with
    | .fin neg m _ => if neg ∧ m ≠ 0 then .error i else (marginals (i + 1) t).map fun r => magOf .fp32 x :: r
    | _ => .error i

def execPlmarg (da db : DReg) (s : State) : Out :=
  let a := s.rd da
  let b := s.rd db
  let p := s.k.plan
  let frame (d : Desc) (ext : BitVec 32) : Bool × Trap :=
    (d.len 0 != ext.toNat, { frameTrap 1 0 (d.len 0) ext.toNat da db with unit := .mq, point := .none })
  s.checked ((s.mxCheck .none).or <| firstTrap
    [(a.fmt != .fp32, mxTrap .format da 1 0), (b.fmt != .fp32, mxTrap .format db 1 0),
     (a.rank.val != 1, mxTrap .rank da 5 a.rank.val), (b.rank.val != 1, mxTrap .rank db 5 b.rank.val),
     (!p.bnd, p.trap 0 0 .none), frame a p.m, frame b p.n]) <|
    s.single
      (do
        let xs ← readAll a ((List.range p.m.toNat).map fun i => (i, [i]))
        let ys ← readAll b ((List.range p.n.toNat).map fun i => (64 + i, [i]))
        match marginals 0 xs, marginals 64 ys with
        | .ok xs, .ok ys => pure (xs, ys)
        | .error i, _ | .ok _, .error i =>
          settled (some (p.trap 3 i .none))
          pure ([], []))
      fun s v => s.onPlan fun p => { p with mrow := vec64 v.1, mcol := vec64 v.2 }

/-! bal (R180 to R182). -/

/-- The plan as bal computes on it: the kernel's rows and the vectors, as patterns. -/
structure Problem where
  k : List (List Nat)
  lrs : List Nat
  lcs : List Nat
  mrow : List Nat
  mcol : List Nat
  deriving DecidableEq, Repr

def firstOf (n : BitVec 32) (v : Vector (BitVec 32) 64) : List Nat := (v.toList.map BitVec.toNat).take n.toNat

def Core.problem (k : Core) : Problem where
  k := (List.range k.plan.m.toNat).map fun i => (List.range k.plan.n.toNat).map fun j => k.tile k.plan.pt i j
  lrs := firstOf k.plan.m k.plan.lrs
  lcs := firstOf k.plan.n k.plan.lcs
  mrow := firstOf k.plan.m k.plan.mrow
  mcol := firstOf k.plan.n k.plan.mcol

/-- Every element of the bound tile within the extents is read: did a read fail (R154, R340)? -/
def State.readPlan (s : State) : State × Bool :=
  let p := s.k.plan
  s.readTiles fun b => b.tile == p.pt && decide (b.row.val < p.m.toNat) && decide (b.col.val < p.n.toNat)

def sumInOrder (xs : List Nat) : Nat := xs.foldl planAdd 0

def abs32 (x : Nat) : Nat := magOf .fp32 x

/-- The marginals agree within PLTOL; with a NaN PLTOL they are not found to differ (R180). -/
def consistent (a b tol : Nat) : Bool :=
  !((f32 a).isZero || (f32 b).isZero ||
    (!(f32 tol).isNaN && (f32 (planMul tol (max32 a b))).lt (f32 (abs32 (planSub a b)))))

/-- A mass above zero, whose row or column counts as empty where its log sum is minus infinity (R180). -/
def hasMass (m : Nat) : Bool := (f32 0).lt (f32 m)

/-- L: the log sum of each row against the column scales. -/
def Problem.rowSums (p : Problem) : List Nat := p.k.map fun row => lse ((row.zip p.lcs).map fun q => planAdd q.1 q.2)

def Problem.colSum (p : Problem) (lrs : List Nat) (j : Nat) : Nat :=
  lse ((p.k.zip lrs).map fun q => planAdd (q.1.getD j negInf) q.2)

/-- The largest relative row error; an empty row, at scale minus infinity with a mass above zero, is left out. -/
def Problem.error (p : Problem) (ls : List Nat) (a : Nat) : Nat :=
  ((p.lrs.zip ls).zip p.mrow).foldl (fun e q =>
    if q.1.1 = negInf ∧ hasMass q.2 then e
    else max32 e (planDiv (abs32 (planSub (planExp (planAdd q.1.1 q.1.2)) q.2)) a)) 0

/-- The first position whose log sum is minus infinity under a mass above zero. -/
def firstEmpty : Nat → List (Nat × Nat) → Option Nat
  | _, [] => none
  | i, (l, m) :: t => if l = negInf ∧ hasMass m then some i else firstEmpty (i + 1) t

/-- Set ER and EROW, or EC and ECOL, unless they are set (R176, R180). -/
def markEmpty (flag lo : Nat) (e : Option Nat) (st : BitVec 32) : BitVec 32 :=
  match e with
  | some i => if st.getLsbD flag then st else st ||| BitVec.ofNat 32 (2 ^ flag + i * 2 ^ lo)
  | none => st

/-- The new scales: of a row or column that an earlier sweep of this bal found empty, minus infinity still (R180); it is known by that
scale under a mass above zero. -/
def rescale (swept : Bool) (old mass ls : List Nat) : List Nat :=
  ((old.zip mass).zip ls).map fun q =>
    if swept ∧ q.1.1 = negInf ∧ hasMass q.1.2 then negInf else update q.1.2 q.2

/-- One pass of the loop of R180: an outcome, or a sweep. -/
def State.sweep (s : State) (a : Nat) : State × Bool :=
  let p := s.k.problem
  let sw := s.c.plsw
  let ls := p.rowSums
  let finish (out : BitVec 32) : State × Bool :=
    ({ s with c := { s.c with plst := (s.c.plst &&& ~~~3#32) ||| out } }, true)
  if sw ≠ 0 ∧ !(f32 s.c.pltol.toNat).isNaN ∧ !(f32 s.c.pltol.toNat).lt (f32 (p.error ls a)) ∧ !(f32 (p.error ls a)).isNaN then
    finish 0
  else if sw = s.c.swlim then finish 1
  else
    let lrs := rescale (sw != 0) p.lrs p.mrow ls
    let cs := (List.range s.k.plan.n.toNat).map (p.colSum lrs)
    let lcs := rescale (sw != 0) p.lcs p.mcol cs
    let st := markEmpty 3 24 (firstEmpty 0 (cs.zip p.mcol)) (markEmpty 2 16 (firstEmpty 0 (ls.zip p.mrow)) s.c.plst)
    let keep (v : Vector (BitVec 32) 64) (xs : List Nat) : Vector (BitVec 32) 64 :=
      Vector.ofFn fun i : Fin 64 => if i.val < xs.length then BitVec.ofNat 32 (xs.getD i.val 0) else v[i]
    ({ s.onPlan fun q => { q with lrs := keep q.lrs lrs, lcs := keep q.lcs lcs } with
       c := { s.c with plst := st, plsw := sw + 1 } }, false)

/-- Sweeps to the end, for a handler: SWLIM bounds them. -/
def State.sweeps (a : Nat) : Nat → State → State
  | 0, s => s
  | f + 1, s =>
    match s.sweep a with
    | (t, true) => t
    | (t, false) => State.sweeps a f t

def balTrap (s : State) (ts : TReg) : Option Trap :=
  if s.k.plan.isBound ts then none else some (s.k.plan.trap 0 0 .plsw)

def execBal (ts : TReg) (s : State) : Out :=
  let p := s.k.problem
  let a := sumInOrder p.mrow
  let b := sumInOrder p.mcol
  let fresh := s.c.hnd || s.c.mxprog == 0
  let s1 := if fresh then { s with c := { s.c with plsw := 0, plst := 3 } } else s
  let done (t : State) : State := (if t.c.hnd then t else { t with c := { t.c with mxprog := 0 } }).adv
  s.checked ((s.mxCheck .plsw).or (balTrap s ts)) <|
    if fresh ∧ !consistent a b s.c.pltol.toNat then
      (if s.c.hnd then { s1 with c := { s1.c with plst := 2 } }
       else { s1 with c := { s1.c with plst := 2, mxprog := 0 } }).adv
    else
      match s1.readPlan with
      | (s2, true) => s2.raise (tileTrap .plsw)
      | (s2, false) =>
        if s.c.hnd then done (s2.sweeps a (s.c.swlim.toNat + 1))
        else
          match s2.sweep a with
          | (t, true) => done t
          | (t, false) => { t with c := { t.c with mxprog := 1, ept := 0 } }.waitFor .going .mq

/-! plout, plcost, plscl (R183 to R185). -/

/-- P at (i, j). -/
def Core.planEntry (k : Core) (i j : Nat) : Nat :=
  planExp (planAdd (planAdd (k.plan.lrs.toList.getD i 0).toNat (k.tile k.plan.pt i j)) (k.plan.lcs.toList.getD j 0).toNat)

/-- No binding of TS (R188, step 4). -/
def State.unbound (s : State) (ts : TReg) (pt : Point) : Bool × Trap := (!s.k.plan.isBound ts, s.k.plan.trap 0 0 pt)

/-- plout to a tile. -/
def State.planToTile (s : State) (td ts : TReg) : State :=
  let m := s.k.plan.m.toNat
  let n := s.k.plan.n.toNat
  match s.readPlan with
  | (s, true) => s.raise (tileTrap .none)
  | (s, false) =>
    let k := (List.finRange 64).foldl (fun (k : Core) i =>
      k.putTile td i ((List.range 64).map fun j => (j, if i.val < m ∧ j < n then s.k.planEntry i.val j else 0))) s.k
    { s with k := if td = ts then { k with plan := { k.plan with bnd := false } } else k }.adv

/-- P as the destination format holds it: Rnd to BF16, an overflow to the largest finite value (R177, R183). -/
def planNarrow (f : Fmt) (v : Nat) : Nat := if f = .bf16 then Machine.encode .bf16 false .rne true (f32 v) else v

/-- Row i of plout to memory. -/
def planRow (d : Desc) (i : Nat) : Arr Effect := do
  let r ← get
  let k := r.s.k
  let n := k.plan.n.toNat
  let js := List.range n
  let ws ← aimStores d (fun j => i * n + j) (js.map fun j => (j, [i, j], planNarrow d.fmt (k.planEntry i j)))
  readTile k.plan.pt i js
  pure ⟨[], ws⟩

def execPlout (dst : PlDst) (ts : TReg) (s : State) : Out :=
  match dst with
  | .tile td => s.checked ((s.mxCheck .none).or (firstTrap [s.unbound ts .none])) (s.planToTile td ts)
  | .mem da =>
    let d := s.rd da
    let p := s.k.plan
    let t := (s.mxCheck .mxprog).or (planShape d da fun f => f == .fp32 || f == .bf16)
    if d.rank.val = 3 then
      s.checked t <| s.single
        (aimStores d id ((imageIndices.zip p.image).map fun q => (q.1.1, q.1.2, q.2)))
        fun s ws => s.commit ⟨[], ws⟩
    else
      let frame (ax : Nat) (ext : BitVec 32) : Bool × Trap :=
        (d.len ax != ext.toNat, { frameTrap 1 ax (d.len ax) ext.toNat da 0 with unit := .mq, point := .mxprog })
      s.checked (t.or (firstTrap [s.unbound ts .mxprog, frame 0 p.m, frame 1 p.n]))
        (Units.run ⟨p.m.toNat, 1, planRow d⟩ s)

/-- PlanCost (R184). -/
def Core.planCost (k : Core) : Nat :=
  let m := k.plan.m.toNat
  let n := k.plan.n.toNat
  let sum := (List.range (m * n)).foldl (fun s q =>
    let p := k.planEntry (q / n) (q % n)
    if p = 0 then s else planAdd s (planMul p (k.tile k.plan.pt (q / n) (q % n)))) 0
  let r := planMul (negate32 k.plan.eps.toNat) sum
  if (f32 r).isZero then 0 else r

def execPlcost (xd : XReg) (ts : TReg) (s : State) : Out :=
  s.checked ((s.mxCheck .none).or (firstTrap [s.unbound ts .none])) <|
    match s.readPlan with
    | (s, true) => s.raise (tileTrap .none)
    | (s, false) => (s.wx xd (BitVec.ofNat 64 s.k.planCost)).adv

def execPlscl (vd : VReg) (ts : TReg) (s : State) : Out :=
  s.checked (s.mxCheck .none) <| s.withLanes fun s =>
    match firstTrap [s.unbound ts .none] with
    | some t => s.raise t
    | none =>
      let put (s : State) (r : VReg) (v : Vector (BitVec 32) 64) : State :=
        s.putElems r 32 ((List.range 64).zip (v.toList.map BitVec.toNat))
      (put (put s vd s.k.plan.lrs) (regAt vd 1) s.k.plan.lcs).adv

end Sys2Proof.Machine
end

