-- ==== Sys2Proof/Machine/Engine.lean ====
section
/-! DEFINITION. Engine commands: the record and its header (R128), ebatch (R129), the records each class accepts and how
many it holds (R268, R293, R296, R316, R355, R361), an engine's accesses under the issuing context's translation (R259,
R266), and the completion of a command (R130, R266). A command runs when the event row of its engine does; the row leaves
the machine as it is where the rule lets the command not start yet (log 2, DESIGN CHOICE). -/

namespace Sys2Proof.Machine

/-! Records. -/

/-- n bytes of a record from byte o, as a number. -/
def recN (r : BitVec 512) (o n : Nat) : Nat := r.toNat / 2 ^ (8 * o) % 2 ^ (8 * n)

def recZero (r : BitVec 512) (o n : Nat) : Bool := recN r o n == 0

/-- A signed field. -/
def recInt (r : BitVec 512) (o n : Nat) : Int := intOf (8 * n) false (recN r o n)

/-- CMD, FLAGS, CLASP and TAG (R128). -/
def recCmd (r : BitVec 512) : Nat := recN r 0 1
def recFlags (r : BitVec 512) : Nat := recN r 1 1
def recClasp (r : BitVec 512) : Nat := recN r 2 2
def recTag (r : BitVec 512) : Nat := recN r 4 4
def recFlag (r : BitVec 512) (n : Nat) : Bool := (recFlags r).testBit n

/-- The fault a well-formedness table finds first: pairs of a broken condition and its reason, reasons rising (R268). -/
def firstReason : List (Bool × Nat) → Option Nat
  | [] => none
  | (bad, r) :: t => if bad then some r else firstReason t

/-- A CLASP value outside R258. -/
def badClasp (r : BitVec 512) : Bool :=
  let c := recClasp r
  !(decide (c < 64) || (decide (256 ≤ c) && decide (c < 512)) || c == 0xFFFF)

/-- Copy records (R264, R265, R293): ORD is DCOPY's. -/
def copyReason (flags : Nat) (r : BitVec 512) : Option Nat :=
  let cmd := recCmd r
  firstReason
    [(decide (cmd < 1) || decide (3 < cmd), 1),
     (decide (flags < recFlags r) || decide (4 ≤ recN r 35 1) || !recZero r 38 2 || (cmd == 2 && !recZero r 16 1), 2),
     (badClasp r, 3),
     (cmd == 2 && !recZero r 48 8, 4),
     (cmd == 3 && (recN r 17 9 % 4096 != 0 || !recZero r 40 4 || !recZero r 48 8 || !recZero r 56 8 || recFlag r 0 ||
       decide (recN r 44 4 < 1) || decide (2048 < recN r 44 4)), 4)]

/-- ENC records (R295, R296). -/
def encReason (r : BitVec 512) : Option Nat :=
  let cmd := recCmd r
  let open_ := cmd == 1
  let spare := !recZero r 35 1 || !recZero r 49 3 || decide (2 ≤ recN r 60 1) || !recZero r 61 3
  let w := recN r 56 2
  let h := recN r 58 2
  firstReason
    [(cmd != 1 && cmd != 2, 1),
     (spare || recFlags r / 4 != 0 || (open_ && recFlag r 0) || (!open_ && recFlag r 1) ||
       (open_ && (!recZero r 16 1 || !recZero r 36 4 || !recZero r 40 9 || !recZero r 52 4)), 2),
     (badClasp r, 3),
     (recN r 17 9 % 4096 != 0 || decide (w < 16) || decide (4096 < w) || w % 2 != 0 || decide (h < 16) || decide (2304 < h) ||
       h % 2 != 0 || (open_ && (decide (recN r 13 1 < 1) || decide (120 < recN r 13 1))), 4)]

/-- The formats of seam and collective records: INT32, BF16, FP32. -/
def memFmt : Nat → Option Fmt
  | 2 => some .i32
  | 9 => some .bf16
  | 10 => some .fp32
  | _ => none

/-- What a seam command uses (R315): SA, SB, P0, P1, P2. -/
def seamUses : Nat → Bool × Bool × Bool × Bool × Bool
  | 1 | 7 => (true, false, false, false, false)
  | 2 => (true, false, true, false, false)
  | 3 | 6 => (false, false, true, false, false)
  | 4 => (true, false, true, true, false)
  | 5 => (true, true, true, true, true)
  | _ => (false, false, false, false, false)

/-- Operand bases in use: DST, SA, SB. -/
def seamBases (r : BitVec 512) : List Nat :=
  let u := seamUses (recCmd r)
  recN r 8 9 :: ((if u.1 then [recN r 17 9] else []) ++ (if u.2.1 then [recN r 26 9] else []))

/-- SEAM records (R314 to R316). -/
def seamReason (r : BitVec 512) : Option Nat :=
  let cmd := recCmd r
  let f := memFmt (recN r 35 1 % 16)
  let u := seamUses cmd
  let n := recN r 36 3
  let start := recN r 61 3
  let s := if f = some .bf16 then 2 else 4
  let b := seamBases r
  firstReason
    [(decide (cmd < 1) || decide (7 < cmd), 1),
     (recFlags r / 4 != 0 || decide (16 ≤ recN r 35 1) || !recZero r 39 1 || (!u.1 && !recZero r 17 9) ||
       (!u.2.1 && !recZero r 26 9) || (!u.2.2.1 && !recZero r 40 4) || (!u.2.2.2.1 && !recZero r 44 4) ||
       (!u.2.2.2.2 && !recZero r 48 4) || (cmd == 6 && f == some .bf16 && !recZero r 42 2), 2),
     (badClasp r, 3),
     (f == none || ((cmd == 4 || cmd == 5) && f == some .i32) || (n != 0 && decide (n ≤ start)) || (n == 0 && start != 0) ||
       b.any (· % s != 0) || b.any (fun x => x % 128 != recN r 8 9 % 128), 4)]

/-- COLL records (R350, R355); an N past 2^40 - 1 is a limit broken too. -/
def collReason (r : BitVec 512) : Option Nat :=
  let f := memFmt (recN r 44 1 % 16)
  let s := if f = some .bf16 then 2 else 4
  let op := recN r 45 1
  firstReason
    [(decide (recCmd r < 1) || decide (4 < recCmd r), 1),
     (recFlags r / 2 != 0 || decide (16 ≤ recN r 44 1) || decide (16 ≤ op) || !recZero r 62 2, 2),
     (badClasp r, 3),
     (f == none || !(op == 0 || op == 2 || op == 3) || decide (recN r 47 1 < recN r 46 1) || recN r 8 9 % s != 0 ||
       recN r 17 9 % s != 0 || decide (2 ^ 40 ≤ recN r 56 6), 4)]

/-- DISP records (R356, R361). -/
def dispReason (r : BitVec 512) : Option Nat :=
  let cmd := recCmd r
  let rowb := recN r 44 4
  let badRow := rowb % 64 != 0 || decide (rowb < 64) || decide (65536 < rowb)
  let zone := recN r 28 2
  let spare := match cmd with
    | 1 => recFlags r / 4 != 0 || decide (64 ≤ recN r 26 1) || decide (4 ≤ recN r 27 1) || !recZero r 30 2 || !recZero r 48 16
    | 2 => recFlags r != 0 || !recZero r 26 2 || !recZero r 30 6 || !recZero r 40 4 || !recZero r 48 16
    | 3 => recFlags r != 0 || !recZero r 8 9 || !recZero r 26 2 || !recZero r 30 34
    | _ => recFlags r != 0 || !recZero r 26 2 || !recZero r 32 32
  let limit := match cmd with
    | 1 => badRow || (!recFlag r 0 && decide (255 < zone))
    | 2 => badRow || decide (255 < zone)
    | 3 => decide (255 < zone) || recN r 17 9 % 16 != 0
    | _ => decide (zone < 1) || decide (4096 < zone) || decide (recN r 30 2 < 256) || decide (511 < recN r 30 2)
  firstReason [(decide (cmd < 1) || decide (4 < cmd), 1), (spare, 2), (badClasp r, 3), (limit, 4)]

/-- WellFormed (R129): the reason of ENGINE, if any. -/
def badRecord (cls : Cls) (r : BitVec 512) : Option Nat :=
  match cls with
  | .ccopy => copyReason 1 r
  | .dcopy => copyReason 3 r
  | .seam => seamReason r
  | .coll => collReason r
  | .disp => dispReason r
  | .enc => encReason r
  | .ls | .mxl | .host => some 1

/-! Acceptance (R129). -/

/-- Replace the commands of a class where context g issues them. -/
def State.putEngine (s : State) (g : Nat) (cls : Cls) (l : List Cmd) : State :=
  match cls with
  | .ccopy => s.onCluster (clusterOf g) fun x => { x with ccopy := l }
  | .dcopy => s.onDie (dieOf g) fun x => { x with dcopy := l }
  | .seam => s.onDie (dieOf g) fun x => { x with seam := l }
  | .coll => s.onDie (dieOf g) fun x => { x with coll := l }
  | .disp => s.onDie (dieOf g) fun x => { x with disp := l }
  | .enc => s.onDie (dieOf g) fun x => { x with enc := l }
  | .ls | .mxl | .host => s

/-- Commands a class holds, and those of one context at most. -/
def State.capacity (s : State) (g : Nat) : Cls → Nat × Nat
  | .ccopy => (64, 16)
  | .dcopy => (64 * ((List.range 4).filter fun i => !(s.dieAt (dieOf g)).copyLost.getLsbD i).length, 32)
  | .seam => (256, 32)
  | .coll => (64, 16)
  | .disp => (256, 64)
  | .enc => (64, 16)
  | .ls | .mxl | .host => (0, 0)

/-- The name of a stream: the translation it is opened under and its stream area. -/
def streamKey (asid : BitVec 16) (r : BitVec 512) : Nat := asid.toNat * 2 ^ 72 + recN r 17 9

/-- The encoder a command goes to (R296, R299): OPEN names one; FRAME goes to the stream's own, as the latest OPEN still
held for the stream or the binding has it. -/
def State.encoderFor (s : State) (d : Nat) (asid : BitVec 16) (r : BitVec 512) : Bool :=
  let x := s.dieAt d
  let key := streamKey asid r
  let want :=
    if recCmd r = 1 then recFlag r 1
    else match (x.enc.filter fun c => recCmd c.image == 1 && streamKey c.asid c.image == key).getLast? with
      | some c => recFlag c.image 1
      | none => tabGet false x.streams key
  if x.encDown.val.testBit want.toNat then !want else want

/-- Offer a record to the engine of a class: the engine keeps its own copy, with the context's translation, session and
open assay. -/
def State.offer (s : State) (cls : Cls) (r : BitVec 512) : Option State :=
  let l := s.engine s.here cls
  let cap := s.capacity s.here cls
  let enc := s.encoderFor s.die s.c.asid r
  let mine := if cls = .enc then l.filter (·.second == enc) else l
  if cap.1 ≤ mine.length ∨ cap.2 ≤ (mine.filter (·.ctx == s.here)).length then none
  else
    let c : Cmd := {
      serial := s.serial + 1
      ctx := s.here
      task := match s.c.task with
        | some t => t.id
        | none => 0
      image := r
      root := s.c.ptroot
      asid := s.c.asid
      session := s.c.session
      assay := s.c.assay
      started := false
      fails := []
      micro := 0
      second := enc
      table := []
      src := []
      dst := []
      flight := none
      result := none }
    some { s.putEngine s.here cls (l ++ [c]) with serial := s.serial + 1 }

/-! ebatch (R129). -/

/-- Slots of a register under the width in force. -/
def State.slots (s : State) : Nat := s.wid / 8

/-- The record in slot i of a group. -/
def State.slotRecord (s : State) (vc : VReg) (i : Nat) : BitVec 512 :=
  (s.rv (regAt vc (i / s.slots))).extractLsb' (512 * (i % s.slots)) 512

/-- A slot that lies in a register-slice entry with an uncorrectable error (R53). -/
def State.slotBad (s : State) (vc : VReg) (i : Nat) : Bool :=
  s.c.vbad != [] && (List.range 8).any fun j => s.isBad (regAt vc (i / s.slots)) 64 (8 * (i % s.slots) + j)

/-- The entries that hold slot i are read (R340). -/
def State.readSlot (s : State) (vc : VReg) (i : Nat) : State :=
  s.readSlices [⟨0, regAt vc (i / s.slots), 64, (List.range 8).map fun j => (8 * (i % s.slots) + j, i)⟩]

/-- ENGINE (R227). -/
def engineTrap (cls : Cls) (r i : Nat) : Trap :=
  { cause := .engine, unit := .lq, elem := some (0, BitVec.ofNat 13 i)
    detail := BitVec.ofNat 56 ((Cls.code cls).toNat * 2 ^ 52 + r * 2 ^ 40) }

/-- How far a batch has come: the machine, whether the engine still accepts, and the slots done with their bits. -/
structure Batch where
  s : State
  open_ : Bool
  acc : List (Nat × Bool)
  deriving DecidableEq, Repr

/-- Slots in order; the trap that stops them. -/
def Batch.run (o : BatchOp) : List Nat → Batch → Batch × Option Trap
  | [], b => (b, none)
  | i :: t, b =>
    if !b.s.maskBit o.pm i then Batch.run o t { b with acc := b.acc ++ [(i, false)] }
    else if b.s.slotBad o.vc i then ({ b with s := b.s.readSlot o.vc i }, some (sliceTrap .lq 0 i))
    else
      let b := { b with s := b.s.readSlot o.vc i }
      let r := b.s.slotRecord o.vc i
      match badRecord o.cls r with
      | some why => (b, some (engineTrap o.cls why i))
      | none =>
        match (if b.open_ then b.s.offer o.cls r else none) with
        | some s1 => Batch.run o t ⟨s1, true, b.acc ++ [(i, true)]⟩
        | none => Batch.run o t { b with open_ := false, acc := b.acc ++ [(i, false)] }

def execEbatch (o : BatchOp) (s : State) : Out :=
  .next <|
    match Batch.run o (List.range (s.slots * 2 ^ o.grp.val)) ⟨s, true, []⟩ with
    | (b, none) => (b.s.putMask o.mr b.acc).adv
    | (b, some t) => (b.s.putMask o.mr b.acc).raise t

/-! Accesses of an engine (R198, R259, R266). -/

/-- Status codes of an access: 1 page, 2 permission or aperture, 3 pinned, 4 uncorrectable error (R267). -/
abbrev Eng := ExceptT Nat (StateM State)

def Cmd.view (c : Cmd) : View := ⟨some c.ctx, pkgOf c.ctx, c.root⟩

/-- Kind and number of the engine of a class that serves context g (R233). -/
def engineKind (cls : Cls) (g : Nat) : Nat × Nat :=
  match cls with
  | .ccopy => (1, clusterOf g % 32)
  | .dcopy => (2, dieOf g % 4)
  | .seam => (3, dieOf g % 4)
  | .coll => (4, dieOf g % 4)
  | .disp => (5, dieOf g % 4)
  | .enc => (6, dieOf g % 4)
  | .ls | .mxl | .host => (0, coreOf g % 512)

def Cmd.agent (c : Cmd) (cls : Cls) : Agent :=
  { ctx := some c.ctx, cls := cls, session := c.session, assay := c.assay, kind := (engineKind cls c.ctx).1,
    number := (engineKind cls c.ctx).2 }

/-- Translate and check the pin; ap0 admits the plain aperture alone. -/
def engAt (c : Cmd) (ap0 : Bool) (va : Nat) (n : Need) : Eng Leaf := do
  let s ← get
  match s.translate c.view (va % 2 ^ 72) n (if ap0 then .atomic else .plain) with
  | (s1, .error (.page _ _)) =>
    set s1
    throw 1
  | (s1, .error (.access _)) =>
    set s1
    throw 2
  | (s1, .error (.broken _ _)) =>
    set s1
    throw 4
  | (s1, .ok l) =>
    set s1
    if s1.pinOk (pkgOf c.ctx) c.session l.pa then pure l else throw 3

/-- Bytes up to the next granule of 4 KiB. -/
def toGranule (va n : Nat) : Nat := min n (4096 - va % 4096)

/-- Every granule of n bytes from va, translated and checked in order. -/
def engCheck (c : Cmd) (ap0 : Bool) (need : Need) : Nat → Nat → Nat → Eng (List (Leaf × Nat))
  | 0, _, _ => pure []
  | f + 1, va, n =>
    if n = 0 then pure []
    else do
      let m := toGranule va n
      let l ← engAt c ap0 va need
      let rest ← engCheck c ap0 need f (va + m) (n - m)
      pure ((l, m) :: rest)

def pieceCount (n : Nat) : Nat := n / 4096 + 2

/-- Read the pieces in order. -/
def engFetch : List (Leaf × Nat) → Eng (List Byte)
  | [] => pure []
  | (l, n) :: t => do
    let s ← get
    match s.checkRead l.lay l.pa n with
    | (s1, some _) =>
      set s1
      throw 4
    | (s1, none) =>
      set s1
      let rest ← engFetch t
      pure (s1.bytesAt l.lay.raw l.pa n ++ rest)

/-- Read n bytes at va. -/
def engRead (c : Cmd) (ap0 : Bool) (va n : Nat) : Eng (List Byte) := do
  let ps ← engCheck c ap0 Need.read (pieceCount n) va n
  engFetch ps

/-- Write bytes over pieces. -/
def engStore (a : Agent) : List (Leaf × Nat) → List Byte → Eng Unit
  | [], _ => pure ()
  | (l, n) :: t, bs => do
    modify fun s => s.write a l.lay l.pa (bs.take n)
    engStore a t (bs.drop n)

/-- Write bytes at va, checked whole before the first is written. -/
def engWrite (c : Cmd) (cls : Cls) (ap0 : Bool) (va : Nat) (bs : List Byte) : Eng Unit := do
  let ps ← engCheck c ap0 Need.write (pieceCount bs.length) va bs.length
  engStore (c.agent cls) ps bs

/-! Pieces found earlier (R353, R357). -/

def toPieces (ps : List (Leaf × Nat)) : List Piece := ps.map fun p => (p.1.pa, p.1.lay, p.2)

/-- The bytes of pieces; none when one meets an uncorrectable error. -/
def State.readPieces (s : State) : List Piece → State × List Byte × Bool
  | [] => (s, [], false)
  | (pa, lay, n) :: t =>
    let r := s.checkRead lay pa n
    let rest := State.readPieces r.1 t
    (rest.1, r.1.bytesAt lay.raw pa n ++ rest.2.1, r.2.isSome || rest.2.2)

def State.writePieces (s : State) (a : Agent) : List Piece → List Byte → State
  | [], _ => s
  | (pa, lay, n) :: t, bs => State.writePieces (s.write a lay pa (bs.take n)) a t (bs.drop n)

/-! Commands by place. -/

/-- Replace a command, by its serial number. -/
def putCmd (l : List Cmd) (c : Cmd) : List Cmd := l.map fun d => if d.serial = c.serial then c else d

def State.setCmd (s : State) (cls : Cls) (c : Cmd) : State := s.putEngine c.ctx cls (putCmd (s.engine c.ctx cls) c)

/-- The command ends with a status word: what is left are the steps of its completion. -/
def State.finishCmd (s : State) (cls : Cls) (c : Cmd) (r : Result) : State :=
  s.setCmd cls { c with started := true, result := some r }

/-- Commands of the same context that were accepted before c and are not complete. -/
def State.earlier (s : State) (cls : Cls) (c : Cmd) : List Cmd :=
  (s.engine c.ctx cls).filter fun d => d.ctx == c.ctx && decide (d.serial < c.serial)

/-- A status word of code, with DONE or LEN above (R267, R296). -/
def statusWord (hi code : Nat) : Word := BitVec.ofNat 64 (hi * 2 ^ 32 + code)

/-! Completion (R130, R266). -/

/-- The clasp a command names, if any (R258). -/
def Cmd.clasp (c : Cmd) : Option ClaspAt :=
  let n := recClasp c.image
  if n < 64 then some (.cluster (clusterOf c.ctx) (Fin.ofNat 64 n))
  else if 256 ≤ n ∧ n < 512 then some (.die (dieOf c.ctx) (Fin.ofNat 256 (n - 256)))
  else none

def bump (v : Vector Word 6) (cls : Cls) : Vector Word 6 := v.set (countOf cls) (v[countOf cls] + 1)

/-- The completed count of the issuing task, wherever it stands: in its context, or switched out (R130, R239). For a bfence that
waits, a completed command is an element group (R320). -/
def State.countCmd (s : State) (cls : Cls) (c : Cmd) : State :=
  if s.ownCmd c.ctx c then s.onCtx c.ctx fun x =>
    { x with counts := bump x.counts cls, ept := if cls = .seam ∧ x.wait = .seam then 0 else x.ept }
  else s.onDie (dieOf c.ctx) fun x =>
    { x with out := x.out.map fun o => if o.task.id = c.task then { o with added := bump o.added cls } else o }

/-- The status word, written where STA is not 0; one that cannot be written is dropped and counted (R267). -/
def State.writeStatus (s : State) (cls : Cls) (c : Cmd) (sta : Nat) (w : Word) : State :=
  if sta = 0 then s
  else
    match (engWrite c cls false sta (leBytes 8 w.toNat)).run s with
    | (.ok _, s1) => s1
    | (.error _, s1) =>
      if cls = .ccopy then s1.onCluster (clusterOf c.ctx) fun x => { x with errors := x.errors + 1 }
      else s1.onDie (dieOf c.ctx) fun x => { x with errors := x.errors + 1 }

/-- Steps 2 to 5 of R266: hallmarks, status, clasp, count; the engine lets go of the command. -/
def State.complete (s : State) (cls : Cls) (c : Cmd) (sta : Nat) (r : Result) : State :=
  let s1 := r.marks.foldl (fun t m => t.putHall (m.1 / 2048) (m.1 % 2048) m.2) s
  let s2 := s1.writeStatus cls c sta r.word
  let s3 := match c.clasp with
    | some p => s2.arrive p
    | none => s2
  let s4 := s3.countCmd cls c
  s4.putEngine c.ctx cls ((s4.engine c.ctx cls).filter fun d => d.serial != c.serial)

/-- A completion row: the command at place i, once it has a result. -/
def State.completion (s : State) (cls : Cls) (l : List Cmd) (i sta n : Nat) : State :=
  match l[i]? with
  | none => s
  | some c =>
    match c.result with
    | none => s
    | some r => s.complete cls c (if n = 0 then 0 else recN c.image sta n) r

/-- A command row: the command at place i, if it is the one the row names and has not started. -/
def State.onCommand (s : State) (l : List Cmd) (i cmd : Nat) (act : Cmd → State) : State :=
  match l[i]? with
  | none => s
  | some c => if recCmd c.image = cmd ∧ !c.started ∧ c.result.isNone then act c else s

end Sys2Proof.Machine
end

