-- ==== Sys2Proof/Machine/Copy.lean ====
section
/-! DEFINITION. The copy engines: CCOPY (R264 to R268) and DCOPY (R293). A command runs whole in one step; row by row, each
row's source read before the row is written. -/

namespace Sys2Proof.Machine

/-- A byte of a destination piece is placed under a layout in a scratchpad of the engine's own package (R251, R265). -/
def State.localGranule (s : State) (c : Cmd) (pa : Nat) : Option (Nat × Nat) :=
  if pa / 2 ^ 46 = pkgOf c.ctx then (s.place pa).granule else none

/-- Write one piece under a layout; the granule that received it. -/
def storePiece (c : Cmd) (a : Agent) (lay : Nat) (l : Leaf) (bs : List Byte) : Eng (List Nat) := do
  let s ← get
  match s.localGranule c l.pa with
  | none =>
    set (s.write a l.lay l.pa bs)
    pure []
  | some (clu, g) =>
    if lay = 0 then set (s.write a l.lay l.pa bs)
    else
      set ((bs.zip (List.range bs.length)).foldl (fun t b =>
        t.write a l.lay (l.pa - l.pa % 4096 + permuteOffset lay (l.pa % 4096 + b.2)) [b.1]) s)
    pure [2048 * clu + g]

/-- Write a row piece by piece, each piece translated as the engine comes to it. -/
def storeRow (c : Cmd) (cls : Cls) (lay : Nat) : Nat → Nat → List Byte → Eng (List Nat)
  | 0, _, _ => pure []
  | f + 1, va, bs =>
    if bs = [] then pure []
    else do
      let m := toGranule va bs.length
      let l ← engAt c false va Need.write
      let gs ← storePiece c (c.agent cls) lay l (bs.take m)
      let rest ← storeRow c cls lay f (va + m) (bs.drop m)
      pure (gs ++ rest)

/-- Row r of an operand. -/
def rowVa (base : Nat) (stride : Int) (r : Nat) : Nat := (((base : Int) + r * stride) % ((2 ^ 72 : Nat) : Int)).toNat

/-- FILL: destination byte x receives pattern byte x mod 8. -/
def fillRow (pattern : List Byte) (va n : Nat) : List Byte :=
  (List.range n).map fun j => pattern.getD ((va + j) % 8) 0

/-- The bytes of a source row as they were before the command and as they are now: where they differ an earlier row has
written them, and either value may be received (R265; log 28, DESIGN CHOICE). -/
def overlapRow (serial r : Nat) (was now : List Byte) : List Byte :=
  if was = now then now
  else ((was.zip now).zip (List.range now.length)).map fun p => if Config.copyOld serial r p.2 then p.1.1 else p.1.2

/-- The bytes of row r, s0 the state before the command: a source row, or the pattern. -/
def rowBytes (s0 : State) (c : Cmd) (r : Nat) : Eng (List Byte) :=
  let w := c.image
  let n := recN w 40 4
  if recCmd w = 2 then pure (fillRow (leBytes 8 (recN w 8 8)) (rowVa (recN w 17 9) (recInt w 56 8) r) n)
  else do
    let ps ← engCheck c false Need.read (pieceCount n) (rowVa (recN w 8 9) (recInt w 48 8) r) n
    let now ← engFetch ps
    pure (overlapRow c.serial r (ps.flatMap fun p => s0.bytesAt p.1.lay.raw p.1.pa p.2) now)

/-- Rows from r on, of n left: the rows done, the granules that received bytes, and the code (R266). -/
def State.copyRows (s0 s : State) (c : Cmd) (cls : Cls) : Nat → Nat → List Nat → State × Nat × List Nat × Nat
  | 0, r, gs => (s, r, gs, 0)
  | n + 1, r, gs =>
    let act : Eng (List Nat) := do
      let bs ← rowBytes s0 c r
      let va := rowVa (recN c.image 17 9) (recInt c.image 56 8) r
      storeRow c cls (recN c.image 35 1 % 4) (pieceCount bs.length) va bs
    match act.run s with
    | (.error code, t) => (t, r, gs, code)
    | (.ok more, t) => State.copyRows s0 t c cls n (r + 1) (gs ++ more)

/-- HMV and LAY as a hallmark. -/
def recHall (w : BitVec 512) : BitVec 18 := BitVec.ofNat 18 (recN w 35 1 % 4 * 2 ^ 16 + recN w 36 2)

/-- COPY and FILL (R265). -/
def State.copyCmd (s : State) (cls : Cls) (c : Cmd) : State :=
  let w := c.image
  let rows := recN w 44 4
  let out := if recN w 40 4 = 0 then (s, rows, [], 0) else State.copyRows s s c cls rows 0 []
  let marks := if out.2.2.2 = 0 ∧ recFlag w 0 then out.2.2.1.dedup.map fun g => (g, recHall w) else []
  out.1.finishCmd cls c ⟨statusWord out.2.1 out.2.2.2, marks⟩

/-- The granules of HMSET, every one checked. -/
def hmsetGranules (c : Cmd) : Nat → Nat → Eng (List Nat)
  | 0, _ => pure []
  | n + 1, va => do
    let l ← engAt c false va Need.write
    let s ← get
    match s.localGranule c l.pa with
    | none => throw 2
    | some (clu, g) =>
      let rest ← hmsetGranules c n (va + 4096)
      pure ((2048 * clu + g) :: rest)

/-- HMSET (R265). -/
def State.hmsetCmd (s : State) (cls : Cls) (c : Cmd) : State :=
  let n := recN c.image 44 4
  match (hmsetGranules c n (recN c.image 17 9)).run s with
  | (.error code, t) => t.finishCmd cls c ⟨statusWord 0 code, []⟩
  | (.ok gs, t) => t.finishCmd cls c ⟨statusWord n 0, gs.dedup.map fun g => (g, recHall c.image)⟩

/-- May a copy command start: CCOPY one at a time of a context; DCOPY unless ORD waits for the earlier ones (R266, R293). -/
def State.copyReady (s : State) (cls : Cls) (c : Cmd) : Bool :=
  match cls with
  | .ccopy => (s.earlier cls c).isEmpty
  | _ => !recFlag c.image 1 || (s.earlier cls c).isEmpty

/-- Carry out a copy command at place i when it may start. -/
def State.copyRow (s : State) (cls : Cls) (l : List Cmd) (i cmd : Nat) (act : State → Cmd → State) : State :=
  s.onCommand l i cmd fun c => if s.copyReady cls c then act s c else s

def execCcopyCopy (clu i : Nat) (s : State) : Out :=
  .next (s.copyRow .ccopy (s.clusterAt clu).ccopy i 1 fun t c => t.copyCmd .ccopy c)
def execCcopyFill (clu i : Nat) (s : State) : Out :=
  .next (s.copyRow .ccopy (s.clusterAt clu).ccopy i 2 fun t c => t.copyCmd .ccopy c)
def execCcopyHmset (clu i : Nat) (s : State) : Out :=
  .next (s.copyRow .ccopy (s.clusterAt clu).ccopy i 3 fun t c => t.hmsetCmd .ccopy c)
def execCcopyCompletion (clu i : Nat) (s : State) : Out := .next (s.completion .ccopy (s.clusterAt clu).ccopy i 26 9)

def execDcopyCopy (die i : Nat) (s : State) : Out :=
  .next (s.copyRow .dcopy (s.dieAt die).dcopy i 1 fun t c => t.copyCmd .dcopy c)
def execDcopyFill (die i : Nat) (s : State) : Out :=
  .next (s.copyRow .dcopy (s.dieAt die).dcopy i 2 fun t c => t.copyCmd .dcopy c)
def execDcopyHmset (die i : Nat) (s : State) : Out :=
  .next (s.copyRow .dcopy (s.dieAt die).dcopy i 3 fun t c => t.hmsetCmd .dcopy c)
def execDcopyCompletion (die i : Nat) (s : State) : Out := .next (s.completion .dcopy (s.dieAt die).dcopy i 26 9)

end Sys2Proof.Machine
end

