-- ==== Sys2Proof/Machine/Encoder.lean ====
section
/-! DEFINITION. The encoders: ENC (R294 to R296, R299). What the headers leave open and the tile's data are fixed functions of Config; this file says
what a command reads and writes, how a temporal unit is built, when it codes a key frame, and how it ends. -/

namespace Sys2Proof.Machine

/-! Sizes (R295). -/

def encBytes (r : BitVec 512) : Nat := if recN r 60 1 % 2 = 1 then 2 else 1

/-- Bytes of a stream area: 4,096 + 2F, rounded up to a multiple of 4,096. -/
def areaBytes (r : BitVec 512) : Nat :=
  let f := recN r 56 2 * recN r 58 2 * 3 / 2 * encBytes r
  (4096 + 2 * f + 4095) / 4096 * 4096

/-- A list of exactly n bytes. -/
def fitBytes (n : Nat) (bs : List Byte) : List Byte := (List.range n).map fun i => bs.getD i 0

/-- Rows of a plane, in order. -/
def readRows (c : Cmd) (base stride n : Nat) : Nat → Nat → Eng (List Byte)
  | 0, _ => pure []
  | f + 1, r => do
    let bs ← engRead c false (base + r * stride) n
    let rest ← readRows c base stride n f (r + 1)
    pure (bs ++ rest)

/-- The frame's samples: luma rows, then the interleaved chroma rows. -/
def readFrame (c : Cmd) : Eng (List Byte) := do
  let r := c.image
  let n := recN r 56 2 * encBytes r
  let h := recN r 58 2
  let y := recN r 52 4
  let luma ← readRows c (recN r 8 9) y n h 0
  let chroma ← readRows c (recN r 8 9 + y * h) y n (h / 2) 0
  pure (luma ++ chroma)

/-- A pinned status granule ends a command too (R296, code 3). -/
def checkStatus (c : Cmd) : Eng Unit := do
  let sta := recN c.image 26 9
  if sta = 0 then pure ()
  else
    let s ← get
    match (engCheck c false Need.write (pieceCount 8) sta 8).run s with
    | (.error 3, _) => throw 3
    | _ => pure ()

/-- No encoder is in service (R299). -/
def State.noEncoder (s : State) (c : Cmd) : Bool := (s.dieAt (dieOf c.ctx)).encDown == 3

/-! The stream area (R295, R296). -/

/-- What a stream area records of its stream: the fields of its OPEN, and the frames coded from the last key frame on, that one
counted; 0 before the first frame. -/
structure Stream where
  target : Nat
  qp : Nat
  fps : Nat
  keyint : Nat
  width : Nat
  height : Nat
  d10 : Bool
  coded : Nat
  deriving DecidableEq, Repr

/-- What marks an area that OPEN has initialised: the letters of SISYPHUS. -/
def areaMark : List Byte := leBytes 8 0x5355485059534953

/-- The parameters of an OPEN record. -/
def Stream.opened (r : BitVec 512) : Stream where
  target := recN r 8 4
  qp := recN r 12 1
  fps := recN r 13 1
  keyint := recN r 14 2
  width := recN r 56 2
  height := recN r 58 2
  d10 := (recN r 60 1).testBit 0
  coded := 0

def Stream.bytes (p : Stream) : List Byte :=
  areaMark ++ leBytes 4 p.target ++ leBytes 1 p.qp ++ leBytes 1 p.fps ++ leBytes 2 p.keyint ++ leBytes 2 p.width ++
    leBytes 2 p.height ++ leBytes 2 p.d10.toNat ++ leBytes 4 p.coded

/-- Bytes of the parameters. -/
def streamBytes : Nat := 26

/-- Bytes combined with those of the area's mask. -/
def maskBytes (bs : List Byte) : List Byte := (bs.zip (List.range bs.length)).map fun p => p.1 ^^^ Config.areaMask p.2

/-- The parameters that an area holds, if it was initialised. -/
def Stream.read (area : List Byte) : Option Stream :=
  let bs := maskBytes (area.take streamBytes)
  let n (o k : Nat) : Nat := leNat ((bs.drop o).take k)
  if bs.take 8 ≠ areaMark then none
  else some {
    target := n 8 4
    qp := n 12 1
    fps := n 13 1
    keyint := n 14 2
    width := n 16 2
    height := n 18 2
    d10 := n 20 2 != 0
    coded := n 22 4 }

/-- An area of n bytes: the parameters, then the rest. -/
def Stream.area (p : Stream) (n : Nat) (rest : List Byte) : List Byte :=
  maskBytes p.bytes ++ fitBytes (n - streamBytes) rest

/-- OPEN: the stream area written, the stream bound to the encoder named. -/
def openStream (c : Cmd) : Eng Nat := do
  let s ← get
  if s.noEncoder c then throw 7
  checkStatus c
  engWrite c .enc false (recN c.image 17 9) ((Stream.opened c.image).area (areaBytes c.image) (Config.openState c.image))
  modify fun s => s.onDie (dieOf c.ctx) fun x =>
    { x with streams := tabSet false x.streams (streamKey c.asid c.image) (recFlag c.image 1) }
  pure 0

/-- When a FRAME command codes a key frame (R296): the first after OPEN, one asked for, and one that KEYINT frames separate from the
last key frame (log 55, DEDUCED). -/
def Stream.keyFrame (p : Stream) (r : BitVec 512) : Bool :=
  p.coded == 0 || recFlag r 0 || (p.keyint != 0 && decide (p.keyint ≤ p.coded))

/-- Do the fields of a FRAME command agree with its OPEN (R295)? -/
def Stream.agrees (p : Stream) (r : BitVec 512) : Bool :=
  p.width == recN r 56 2 && p.height == recN r 58 2 && p.d10 == (recN r 60 1).testBit 0

/-- The samples of a frame: bytes, or with D10 the low ten bits of each two (R295). -/
def samplesOf (wide : Bool) : List Byte → List Nat
  | [] => []
  | [b] => [b.toNat]
  | a :: b :: t => if wide then leNat [a, b] % 1024 :: samplesOf wide t else a.toNat :: b.toNat :: samplesOf wide t

/-- A number in the leb128 form of the specification that R294 names, of at most n bytes. -/
def leb128 : Nat → Nat → List Byte
  | 0, _ => []
  | f + 1, n => if n < 128 then [BitVec.ofNat 8 n] else BitVec.ofNat 8 (n % 128 + 128) :: leb128 f (n / 128)

/-- An OBU with obu_has_size_field = 1: its header, the size of its payload, the payload (R294; log 54, PRESUMED). -/
def obu (kind : Nat) (payload : List Byte) : List Byte := BitVec.ofNat 8 (kind * 8 + 2) :: (leb128 8 payload.length ++ payload)

/-- A number as n bits, the most significant first. -/
def bitsOf (n v : Nat) : List Bool := (List.range n).map fun i => v.testBit (n - 1 - i)

/-- Bits as bytes, the first bit the most significant, with zeros after the last. -/
def packBits (bs : List Bool) : List Byte :=
  (List.range ((bs.length + 7) / 8)).map fun j =>
    BitVec.ofNat 8 ((List.range 8).foldl (fun v i => 2 * v + (bs.getD (8 * j + i) false).toNat) 0)

/-- x below n in the ns(n) form of the specification that R294 names. -/
def nsBits (n x : Nat) : List Bool :=
  let w := Nat.log2 n + 1
  let m := 2 ^ w - n
  if x < m then bitsOf (w - 1) x else bitsOf w (x + m)

/-- One tile over a frame: evenly spaced with no increment, or a tile as wide and as high as the frame in superblocks (R294). -/
def oneTile (width height : Nat) : List Bool :=
  let size := if Config.largeBlocks then 128 else 64
  let sides := [(width + size - 1) / size, (height + size - 1) / size]
  Config.evenTiles :: sides.flatMap fun n => if Config.evenTiles then (if 1 < n then [false] else []) else nsBits n (n - 1)

/-- Bits that a frame side takes. -/
def sizeBits (n : Nat) : Nat := min 16 (max 1 (log2Up n) + Config.sizeSpare)

/-- The sequence header: Main profile, not a still picture; one operating point, 0; the frame's size; no superres; bit depth 8 or 10 in
4:2:0; no film grain (R294; log 54, PRESUMED). -/
def sequenceHeader (p : Stream) (free : Nat → List Bool) : List Byte :=
  let w := sizeBits p.width
  let h := sizeBits p.height
  packBits (bitsOf 3 0 ++ [false, false] ++ free 0 ++ bitsOf 5 0 ++ bitsOf 12 0 ++ free 1 ++ bitsOf 4 (w - 1) ++ bitsOf 4 (h - 1) ++
    bitsOf w (p.width - 1) ++ bitsOf h (p.height - 1) ++ free 2 ++ [Config.largeBlocks] ++ free 3 ++ [false] ++ free 4 ++
    [p.d10, false] ++ free 5 ++ [false] ++ [true])

/-- The frame: its header, KEY_FRAME or INTER_FRAME, shown, in one tile, under CQP with base_q_idx = QP; then the tile (R294; log 54,
PRESUMED). -/
def codedFrame (p : Stream) (key : Bool) (free : Nat → List Bool) (tile : List Byte) : List Byte :=
  packBits (false :: bitsOf 2 (if key then 0 else 1) ++ [true] ++ free 6 ++ oneTile p.width p.height ++
    (if p.target = 0 then bitsOf 8 p.qp else bitsOf 8 (leNat (packBits (free 7)))) ++ free 8) ++ tile

/-- A temporal unit: a temporal delimiter; on a key frame a sequence header; one frame (R294). -/
def temporalUnit (p : Stream) (samples : List Nat) (area : List Byte) (r : BitVec 512) (key : Bool) : List Byte :=
  let free (part : Nat) : List Bool := Config.headerBits part samples area r key
  obu 2 [] ++ (if key then obu 1 (sequenceHeader p free) else []) ++ obu 6 (codedFrame p key free (Config.tileData samples area r key))

/-- FRAME: bitstream and stream area written; the length. -/
def codeFrame (c : Cmd) : Eng Nat := do
  let s ← get
  if s.noEncoder c then throw 7
  let r := c.image
  let n := areaBytes r
  let spots ← engCheck c false Need.both (pieceCount n) (recN r 17 9) n
  let frame ← readFrame c
  let area ← engFetch spots
  match Stream.read area with
  | none => throw 6
  | some p =>
    if !p.agrees r then throw 6
    let key := p.keyFrame r
    let samples := samplesOf ((recN r 60 1).testBit 0) frame
    let out := temporalUnit p samples area r key
    if recN r 36 4 < out.length then throw 5
    checkStatus c
    engWrite c .enc false (recN r 40 9) out
    engStore (c.agent .enc) spots ({ p with coded := if key then 1 else min 65536 (p.coded + 1) }.area n (Config.nextState samples area r key))
    pure out.length

/-- n free bytes written at va, granule by granule, where they can be: the undefined output of a command that failed. -/
def State.scatterFree (s : State) (c : Cmd) (cls : Cls) : Nat → Nat → Nat → State
  | 0, _, _ => s
  | f + 1, va, n =>
    if n = 0 then s
    else
      let m := toGranule va n
      let t := match (engAt c false va Need.write).run s with
        | (.ok l, s1) =>
          let bs := (List.range m).map fun j => Config.freeByte (s1.fresh + j)
          { s1.write (c.agent cls) l.lay l.pa bs with fresh := s1.fresh + m }
        | (.error _, s1) => s1
      State.scatterFree t c cls f (va + m) (n - m)

/-- The end of an ENC command: a failure other than a pin leaves the output undefined (R259, R296). -/
def State.encEnd (s : State) (c : Cmd) (act : Eng Nat) : State :=
  match act.run s with
  | (.ok n, t) => t.finishCmd .enc c ⟨statusWord n 0, []⟩
  | (.error code, t) =>
    let cap := recN c.image 36 4
    let u := if code = 3 then t else t.scatterFree c .enc (pieceCount cap) (recN c.image 40 9) cap
    u.finishCmd .enc c ⟨statusWord 0 code, []⟩

/-- An encoder runs its commands one at a time, in acceptance order; on the other encoder the earlier commands of the same context have
begun (R129), and those of the same stream, which may have been rebound (R299). -/
def State.encReady (s : State) (c : Cmd) : Bool :=
  (s.engine c.ctx .enc).all fun d => decide (c.serial ≤ d.serial) ||
    (d.second != c.second && (d.started || (d.ctx != c.ctx && streamKey d.asid d.image != streamKey c.asid c.image)))

def execEncOpen (die i : Nat) (s : State) : Out :=
  .next (s.onCommand (s.dieAt die).enc i 1 fun c => if s.encReady c then s.encEnd c (openStream c) else s)

def execEncFrame (die i : Nat) (s : State) : Out :=
  .next (s.onCommand (s.dieAt die).enc i 2 fun c => if s.encReady c then s.encEnd c (codeFrame c) else s)

def execEncCompletion (die i : Nat) (s : State) : Out := .next (s.completion .enc (s.dieAt die).enc i 26 9)

end Sys2Proof.Machine
end

