-- ==== Sys2Proof/Machine/Seam.lean ====
section
/-! DEFINITION. The seam units: SEAM (R314 to R323). A command row checks every element and sends the micro-commands to
their banks; SEAM_MICRO_COMMAND runs the first one of a bank, burst by burst. -/

namespace Sys2Proof.Machine

def seamFmt (r : BitVec 512) : Fmt := (memFmt (recN r 35 1 % 16)).getD .fp32
def seamSize (r : BitVec 512) : Nat := (seamFmt r).width / 8

/-! The dispatcher's check (R317). -/

/-- What each operand needs: DST and SB are read and written, SA is read; every one is a seam access (R198). -/
def seamNeeds (r : BitVec 512) : List Need :=
  let u := seamUses (recCmd r)
  ⟨true, true, false, true⟩ :: ((if u.1 then [⟨true, false, false, true⟩] else []) ++
    (if u.2.1 then [⟨true, true, false, true⟩] else []))

/-- An operand's element: its leaf, or the code that ends the command; code 6 leaves the leaf to be placed. -/
def seamLine (c : Cmd) (va : Nat) (n : Need) : Eng (Leaf × Nat) := do
  let s ← get
  match s.translate c.view (va % 2 ^ 72) n .atomic with
  | (s1, .error (.page _ _)) =>
    set s1
    throw 1
  | (s1, .error (.access _)) =>
    set s1
    throw 2
  | (s1, .error (.broken _ _)) =>
    set s1
    throw 4
  | (s1, .ok l) =>
    set s1
    if !inHbm l.pa || l.pa / 2 ^ 46 != pkgOf c.ctx then throw 2
    else pure (l, if l.lay.cz || s1.tagOf (l.pa / 128) != 0 then 6 else 0)

/-- The bank of a line: its die and die bank. -/
def Leaf.bank (l : Leaf) : Nat × Nat := bankAt l.lay (l.pa / 128)

/-- Operand lines of one element, with every code met. -/
def seamLines (c : Cmd) : List (Nat × Need) → State → State × List Leaf × List Nat
  | [], s => (s, [], [])
  | (va, n) :: t, s =>
    match (seamLine c va n).run s with
    | (.error code, s1) =>
      let r := seamLines c t s1
      (r.1, r.2.1, code :: r.2.2)
    | (.ok (l, code), s1) =>
      let r := seamLines c t s1
      (r.1, l :: r.2.1, if code = 0 then r.2.2 else code :: r.2.2)

/-- An element that may run, with its bank and its operands; or the first code of the table it meets. -/
structure SeamElem where
  i : Nat
  bank : Option (Nat × Nat)
  code : Nat
  ops : List (Nat × Lay)
  deriving DecidableEq, Repr

def State.seamElem (s : State) (c : Cmd) (i : Nat) : State × SeamElem :=
  let r := c.image
  let sz := seamSize r
  match seamLines c ((seamBases r).map (· + i * sz) |>.zip (seamNeeds r)) s with
  | (s1, ls, codes) =>
    let all := decide (ls.length = (seamBases r).length)
    let apart := all && ls.any fun l => l.bank != (ls.headD l).bank
    let codes := if apart then 3 :: codes else codes
    (s1, ⟨i, if all then ls.head?.map Leaf.bank else none, codes.foldl (fun a b => if a = 0 then b else min a b) 0,
      ls.map fun l => (l.pa, l.lay)⟩)

/-- The bank of an element's DST line, if it can be translated. -/
def State.dstBank (s : State) (c : Cmd) (i : Nat) : State × Option (Nat × Nat) :=
  match (seamLine c (recN c.image 8 9 + i * seamSize c.image) ⟨true, true, false, true⟩).run s with
  | (.ok (l, _), s1) => (s1, some l.bank)
  | (.error _, s1) => (s1, none)

/-- The elements selected (R317): with ONE, those in the bank of element START's DST line; START alone where that line has
no bank; none, and nothing translated, where N = 0 (log 44, DEDUCED). -/
def State.selected (s : State) (c : Cmd) : State × List Nat :=
  let n := recN c.image 36 3
  let start := recN c.image 61 3
  let is := (List.range (n - start)).map (start + ·)
  if !recFlag c.image 1 || is == [] then (s, is)
  else
    match s.dstBank c start with
    | (s1, none) => (s1, is.take 1)
    | (s1, some b) =>
      is.foldl (fun p i =>
        match p.1.dstBank c i with
        | (t, some b') => (t, if b' = b then p.2 ++ [i] else p.2)
        | (t, none) => (t, p.2)) (s1, [])

/-- Check elements in order. -/
def State.seamElems (s : State) (c : Cmd) : List Nat → State × List SeamElem
  | [] => (s, [])
  | i :: t =>
    let a := s.seamElem c i
    let b := State.seamElems a.1 c t
    (b.1, a.2 :: b.2)

/-- The banks of a list of elements, in order, each once. -/
def seamBanks (es : List SeamElem) : List (Nat × Nat) := (es.filterMap (·.bank)).dedup

/-- Queue one micro-command at its bank, whose pseudo-channel wakes (R307). -/
def State.sendMicro (s : State) (c : Cmd) (es : List SeamElem) (b : Nat × Nat) : State :=
  let m : Micro := ⟨c.serial, (es.filter fun e => e.bank == some b).map fun e => (e.i, e.ops)⟩
  (s.onDie b.1 fun x => { x with micro := tabSet [] x.micro b.2 (tabGet [] x.micro b.2 ++ [m]) }).wakeChan
    ((3 * b.1 + b.2 % 192 / 64) * 64 + b.2 % 64)

/-- A command row: nothing is sent when an element meets a condition of R317. -/
def State.seamCmd (s : State) (c : Cmd) : State :=
  match s.selected c with
  | (s1, is) =>
    match s1.seamElems c is with
    | (s2, es) =>
      match es.find? fun e => e.code != 0 with
      | some e => s2.finishCmd .seam c ⟨BitVec.ofNat 64 (e.i * 2 ^ 40 + e.code), []⟩
      | none =>
        let bs := seamBanks es
        if bs = [] then s2.finishCmd .seam c ⟨0, []⟩
        else bs.foldl (fun t b => t.sendMicro c es b) (s2.setCmd .seam { c with started := true, micro := bs.length })

/-- Micro-commands of one context arrive in acceptance order (R318), so commands are dispatched in it. -/
def State.seamRow (s : State) (die i cmd : Nat) : State :=
  s.onCommand (s.dieAt die).seam i cmd fun c => if (s.earlier .seam c).all (·.started) then s.seamCmd c else s

def execSadd (die i : Nat) (s : State) : Out := .next (s.seamRow die i 1)
def execSaxpy (die i : Nat) (s : State) : Out := .next (s.seamRow die i 2)
def execSscal (die i : Nat) (s : State) : Out := .next (s.seamRow die i 3)
def execSupd (die i : Nat) (s : State) : Out := .next (s.seamRow die i 4)
def execSmom (die i : Nat) (s : State) : Out := .next (s.seamRow die i 5)
def execSfill (die i : Nat) (s : State) : Out := .next (s.seamRow die i 6)
def execScpy (die i : Nat) (s : State) : Out := .next (s.seamRow die i 7)

/-! The arithmetic (R315). -/

/-- One rounding to the element format; INT32 wraps, or saturates under SAT. -/
def seamRound (f : Fmt) (sat : Bool) (v : FVal) : Nat := Machine.encode f false .rne sat v

def seamInt (sat : Bool) (z : Int) : Nat := fitInt 32 false sat z

/-- f = RoundNE(1 - lambda). -/
def decay (p0 : Nat) : FVal := elemVal .fp32 false (Machine.encode .fp32 false .rne false ((FVal.fin false 1 0).sub .rne (f32 p0)))

/-- The new y, and the new m of SMOM, from y, x and m. -/
def seamCalc (r : BitVec 512) (y x m : Nat) : Nat × Nat :=
  let f := seamFmt r
  let sat := recFlag r 0
  let p0 := recN r 40 4
  let val (v : Nat) : FVal := elemVal f false v
  let int (v : Nat) : Int := intOf 32 false v
  let isInt := f == .i32
  match recCmd r with
  | 1 => (if isInt then seamInt sat (int y + int x) else seamRound f sat ((val y).add .rne (val x)), m)
  | 2 => (if isInt then seamInt sat (int y + int p0 * int x) else seamRound f sat ((val y).add .rne ((f32 p0).mul (val x))), m)
  | 3 => (if isInt then seamInt sat (int p0 * int y) else seamRound f sat ((f32 p0).mul (val y)), m)
  | 4 => (seamRound f sat (((val y).mul (decay p0)).sub .rne ((f32 (recN r 44 4)).mul (val x))), m)
  | 5 =>
    let n := seamRound f sat (((f32 (recN r 48 4)).mul (val m)).add .rne (val x))
    (seamRound f sat (((val y).mul (decay p0)).sub .rne ((f32 (recN r 44 4)).mul (val n))), n)
  | 6 => (p0 % 2 ^ f.width, m)
  | _ => (if isInt then x else seamRound f sat (val x), m)

/-! Micro-commands (R318, R321). -/

/-- Elements of one DST burst. -/
abbrev Burst := List (Nat × List (Nat × Lay))

/-- The DST address of an element. -/
def elemDst (e : Nat × List (Nat × Lay)) : Nat := (e.2.headD (0, Lay.plain)).1

/-- Elements in bursts of 32 bytes of DST. -/
def burstsOf : Burst → List Burst
  | [] => []
  | e :: t =>
    match burstsOf t with
    | [] => [[e]]
    | [] :: bs => [e] :: bs
    | (x :: b) :: bs => if elemDst e / 32 = elemDst x / 32 then (e :: x :: b) :: bs else [e] :: (x :: b) :: bs

/-- Read the operand bursts of a burst: does one meet an uncorrectable error? -/
def State.burstFails (s : State) : List (Nat × Lay) → State × Bool
  | [] => (s, false)
  | (pa, lay) :: t =>
    match s.checkRead { lay with raw := false } (pa - pa % 32) 32 with
    | (s1, some _) => (s1, true)
    | (s1, none) => State.burstFails s1 t

/-- Element operand k as it stands. -/
def State.opValue (s : State) (sz : Nat) (ops : List (Nat × Lay)) (k : Nat) : Nat :=
  match ops[k]? with
  | some (pa, _) => leNat (s.bytesAt false pa sz)
  | none => 0

/-- Write one operand of a burst: the bytes of its elements. -/
def State.putOperand (s : State) (a : Agent) (sz k : Nat) (vs : List (List (Nat × Lay) × Nat)) : State :=
  match vs with
  | [] => s
  | (ops, _) :: _ =>
    match ops[k]? with
    | none => s
    | some (pa, lay) => s.write a lay pa (vs.map fun v => leBytes sz v.2).flatten

/-- One burst: operands latched, computed, and written; for SMOM m as well as w. -/
def State.runBurst (s : State) (c : Cmd) (b : Burst) : State :=
  let r := c.image
  let sz := seamSize r
  let new := b.map fun e => (e.2, seamCalc r (s.opValue sz e.2 0) (s.opValue sz e.2 1) (s.opValue sz e.2 2))
  let a := c.agent .seam
  let s1 := if recCmd r = 5 then s.putOperand a sz 2 (new.map fun v => (v.1, v.2.2)) else s
  s1.putOperand a sz 0 (new.map fun v => (v.1, v.2.1))

/-- Bursts in order; the first element of the burst that fails. -/
def State.runBursts (s : State) (c : Cmd) : List Burst → State × Option Nat
  | [] => (s, none)
  | b :: t =>
    match s.burstFails ((b.headD (0, [])).2) with
    | (s1, true) => (s1, some (b.headD (0, [])).1)
    | (s1, false) => State.runBursts (s1.runBurst c b) c t

/-- The seam log of the task that issued a command, wherever the task stands (R239, R321). -/
def State.seamLog (s : State) (c : Cmd) : SeamLog :=
  if s.ownCmd c.ctx c then (s.ctxAt c.ctx).seam
  else match (s.dieAt (dieOf c.ctx)).out.find? fun o => o.task.id == c.task with
    | some o => o.seam
    | none => SeamLog.clear

def State.onSeamLog (s : State) (c : Cmd) (f : SeamLog → SeamLog) : State :=
  if s.ownCmd c.ctx c then s.onCtx c.ctx fun x => { x with seam := f x.seam }
  else s.onDie (dieOf c.ctx) fun x => { x with out := x.out.map fun o => if o.task.id = c.task then { o with seam := f o.seam } else o }

/-- BANK of R322. -/
def bankCode (die b : Nat) : Nat := (3 * (die % 4) + b % 192 / 64) * 4096 + b % 192 % 64 * 64 + b / 192

/-- The status word over the banks that failed (R322). -/
def seamStatus (fails : List (Nat × Nat × Nat)) : Word :=
  match fails with
  | [] => 0
  | f :: t =>
    let m := t.foldl (fun a b => if b.2.2 < a.2.2 then b else a) f
    BitVec.ofNat 64 (m.2.2 * 2 ^ 40 + m.1 * 2 ^ 24 + (if t = [] then 0 else 2 ^ 23) + m.2.1)

/-- A micro-command has finished or been cancelled; the last one gives the command its status. -/
def State.microDone (s : State) (c : Cmd) (fail : Option (Nat × Nat × Nat)) : State :=
  let d : Cmd := { c with micro := c.micro - 1, fails := c.fails ++ fail.toList }
  if d.micro = 0 then s.finishCmd .seam d ⟨seamStatus d.fails, []⟩ else s.setCmd .seam d

/-- The command of a package that a serial number names. -/
def State.seamBySerial (s : State) (die n : Nat) : Option Cmd :=
  ((List.range 4).flatMap fun j => (s.dieAt (die / 4 * 4 + j)).seam).find? fun c => c.serial == n

def execSeamMicroCommand (die bank : Nat) (s : State) : Out :=
  .next <|
    match tabGet [] (s.dieAt die).micro bank with
    | [] => s
    | m :: t =>
      let s1 := s.onDie die fun x => { x with micro := tabSet [] x.micro bank t }
      match s1.seamBySerial die m.serial with
      | none => s1
      | some c =>
        let code := bankCode die bank
        if (s1.seamLog c).banks.contains code then s1.microDone c (some (code, 5, (m.elems.headD (0, [])).1))
        else
          match s1.runBursts c (burstsOf m.elems) with
          | (s2, none) => s2.microDone c none
          | (s2, some i) => (s2.onSeamLog c fun l => { l with banks := code :: l.banks }).microDone c (some (code, 4, i))

/-- A command of nonzero code enters the aggregate of bfence (R323). -/
def SeamLog.add (l : SeamLog) (c : Cmd) (code : Nat) : SeamLog :=
  if code = 0 then l
  else if l.fails = 0 ∨ c.serial < l.first then
    { l with tag := BitVec.ofNat 32 (recTag c.image), code := BitVec.ofNat 8 code, first := c.serial, fails := l.fails + 1 }
  else { l with fails := l.fails + 1 }

def execSeamCompletion (die i : Nat) (s : State) : Out :=
  .next <|
    match (s.dieAt die).seam[i]? with
    | none => s
    | some c =>
      match c.result with
      | none => s
      | some r => (s.onSeamLog c fun l => l.add c (r.word.toNat % 256)).complete .seam c (recN c.image 52 9) r

end Sys2Proof.Machine
end

