-- ==== Sys2Proof/Machine/Coll.lean ====
section
/-! DEFINITION. Collectives: COLL (R350 to R355). A command row starts its rank; the row that starts the last rank moves the
data of the whole collective. -/

namespace Sys2Proof.Machine

/-! Fields (R350). -/

def collFmt (r : BitVec 512) : Fmt := (memFmt (recN r 44 1 % 16)).getD .fp32
def collSize (r : BitVec 512) : Nat := (collFmt r).width / 8
def collRank (r : BitVec 512) : Nat := recN r 46 1
def collRanks (r : BitVec 512) : Nat := recN r 47 1 + 1
def collGroup (r : BitVec 512) : BitVec 32 := BitVec.ofNat 32 (recN r 48 4)
def collSeq (r : BitVec 512) : BitVec 32 := BitVec.ofNat 32 (recN r 52 4)

/-- Bytes a rank reads and writes (R351). -/
def collSrcBytes (r : BitVec 512) : Nat :=
  let n := recN r 56 6 * collSize r
  match recCmd r with
  | 2 => n * collRanks r
  | 4 => if collRank r = 0 then n else 0
  | _ => n

def collDstBytes (r : BitVec 512) : Nat :=
  let n := recN r 56 6 * collSize r
  if recCmd r = 3 then n * collRanks r else n

/-- The die a table byte names: package in bits 7:2, die in bits 1:0. -/
def tableDie (b : Nat) : Nat := 4 * (b / 4) + b % 4

/-! Cancels (R353). -/

/-- The ports of a package in service that carry the frames of its die d: the die's own, or, where it has none, those of the first
die that has one (R342, R363). -/
def State.portsFor (s : State) (d : Nat) : List Nat :=
  let of (e : Nat) : List Nat := ((List.range 4).filter fun p => tabGet 0 (s.dieAt e).ports p != 2).map fun p => 4 * (e % 4) + p
  (([d, 4 * (d / 4), 4 * (d / 4) + 1, 4 * (d / 4) + 2, 4 * (d / 4) + 3].map of).find? (· != [])).getD []

/-- The port that the next frame of die d takes: of those that may carry it, the first that has numbered fewest (log 31, DESIGN
CHOICE). -/
def State.portFor (s : State) (d : Nat) : Nat :=
  let n (p : Nat) : Nat := tabGet 0 (s.pkgAt (d / 4)).numbered p
  (s.portsFor d).foldl (fun b p => if n p < n b then p else b) ((s.portsFor d).headD (4 * (d % 4)))

/-- A rail frame leaves die d for peer, numbered by the port it takes (R342). -/
def State.sendFrame (s : State) (d peer : Nat) (m : RailMsg) : State :=
  let p := s.portFor d
  let n := tabGet 0 (s.pkgAt (d / 4)).numbered p
  (s.onPkg (d / 4) fun x => { x with numbered := tabSet 0 x.numbered p (n + 1) }).onDie d fun x =>
    let k := tabGet 0 x.ordered peer
    { x with
      sent := x.sent ++ [⟨peer, p, n, k, m, 1, false⟩]
      ordered := tabSet 0 x.ordered peer (k + 1) }

/-- A cancel goes to a die: over UCIe within the package, by the rail of its index to another one. -/
def State.sendCancel (s : State) (me peer : Nat) (g q : BitVec 32) : State :=
  if peer / 4 = me / 4 then s.onDie peer fun x => { x with cancelBox := x.cancelBox ++ [(g, q)] }
  else s.sendFrame (4 * (me / 4) + peer % 4) peer (.cancel g q)

/-- Keep a cancel for a command not yet issued, once for each GROUP and SEQ: up to 256, the oldest dropped and counted. -/
def Die.keepCancel (x : Die) (g q : BitVec 32) : Die :=
  if x.cancels.contains (g, q) then x
  else if 256 ≤ x.cancels.length then { x with cancels := x.cancels.drop 1 ++ [(g, q)], errors := x.errors + 1 }
  else { x with cancels := x.cancels ++ [(g, q)] }

/-- The end of a rank before data moves: CODE, and a cancel to every other die its table names and can reach. -/
def State.collFail (s : State) (c : Cmd) (table : List Nat) (code : Nat) : State :=
  let me := dieOf c.ctx
  let s1 := s.finishCmd .coll { c with table := table } ⟨statusWord 0 code, []⟩
  ((table.map tableDie).dedup.filter fun d => d != me && s.listed (me / 4) (d / 4) && !(s.pkgAt (d / 4)).silent).foldl
    (fun t d => t.sendCancel me d (collGroup c.image) (collSeq c.image)) s1

/-! Starting a rank (R353). -/

/-- The granules of the table, each translated, and the codes of those that cannot be. -/
def tableParts (c : Cmd) : Nat → Nat → Nat → Eng (List (Leaf × Nat) × List Nat)
  | 0, _, _ => pure ([], [])
  | f + 1, va, n =>
    if n = 0 then pure ([], [])
    else do
      let m := toGranule va n
      let r := (engAt c false va Need.read).run (← get)
      set r.2
      let rest ← tableParts c f (va + m) (n - m)
      match r.1 with
      | .ok l => pure ((l, m) :: rest.1, rest.2)
      | .error code => pure (rest.1, code :: rest.2)

/-- The table's read, whose lowest code is reported (R353). -/
def collTable (c : Cmd) : Eng (List Byte) := do
  let n := collRanks c.image
  match ← tableParts c (pieceCount n) (recN c.image 26 9) n with
  | (ps, []) => engFetch ps
  | (_, e :: es) => throw (es.foldl min e)

/-- The checks of a rank: its table, then its operands. The table as far as it was read, with the code. -/
def collCheck (c : Cmd) : Eng (List Nat × List Piece × List Piece × Nat) := do
  let r := c.image
  let bs ← collTable c
  let table := bs.map BitVec.toNat
  let dies := table.map tableDie
  let s ← get
  if dies.dedup.length ≠ dies.length ∨ dies.getD (collRank r) 0 ≠ dieOf c.ctx then pure (table, [], [], 6)
  else if dies.any fun d => !s.listed (pkgOf c.ctx) (d / 4) then pure (table, [], [], 7)
  else
    let ops : Eng (List Piece × List Piece) := do
      let a ← engCheck c true Need.read (pieceCount (collSrcBytes r)) (recN r 8 9) (collSrcBytes r)
      let b ← engCheck c true Need.write (pieceCount (collDstBytes r)) (recN r 17 9) (collDstBytes r)
      pure (toPieces a, toPieces b)
    match ops.run s with
    | (.ok p, t) =>
      set t
      pure (table, p.1, p.2, if dies.any fun d => (t.pkgAt (d / 4)).silent || (t.dieAt d).down then 7 else 0)
    | (.error code, t) =>
      set t
      pure (table, [], [], code)

/-- Commands of a collective in progress at a die. -/
def State.collAt (s : State) (d : Nat) (g q : BitVec 32) : List Cmd :=
  (s.dieAt d).coll.filter fun c => c.started && c.result.isNone && collGroup c.image == g && collSeq c.image == q

/-- What the ranks compare (R352). -/
def sameCollective (a b : Cmd) : Bool :=
  let f (c : Cmd) := (recCmd c.image, recN c.image 45 1, recN c.image 44 1, recN c.image 47 1, recN c.image 56 6, c.table)
  f a == f b

/-! The data (R351). -/

def elemsOf (sz : Nat) : Nat → List Byte → List Nat
  | 0, _ => []
  | n + 1, bs => leNat (bs.take sz) :: elemsOf sz n (bs.drop sz)

def collOp (r : BitVec 512) : Iop :=
  match recN r 45 1 with
  | 2 => .max
  | 3 => .min
  | _ => .add

/-- Combine, on values widened to FP32 or INT32. -/
def collCombine (r : BitVec 512) (a b : Nat) : Nat :=
  combineElem (collOp r) (if collFmt r = .i32 then .i32 else .fp32) ⟨0, false, .rne, recFlag r 0⟩ a b

def collWiden (f : Fmt) (v : Nat) : Nat := if f = .bf16 then v * 2 ^ 16 else v

def collNarrow (r : BitVec 512) (v : Nat) : Nat :=
  if collFmt r = .bf16 then Machine.encode .bf16 false .rne (recFlag r 0) (f32 v) else v

/-- Reduce: rank order, never another. -/
def collReduce (r : BitVec 512) (xs : List Nat) : Nat :=
  match xs.map (collWiden (collFmt r)) with
  | [] => 0
  | x :: t => collNarrow r (t.foldl (collCombine r) x)

/-- What rank k's destination receives, from every rank's source elements. -/
def collResult (r : BitVec 512) (xs : List (List Nat)) : List Nat :=
  let n := recN r 56 6
  let column (i : Nat) : List Nat := xs.map fun x => x.getD i 0
  match recCmd r with
  | 1 => (List.range n).map fun i => collReduce r (column i)
  | 2 => (List.range n).map fun i => collReduce r (column (collRank r * n + i))
  | 3 => xs.flatten
  | _ => xs.headD []

/-- Every rank's source: the elements, and whether a read met an uncorrectable error. -/
def State.collSources (s : State) : List Cmd → State × List (List Nat) × Bool
  | [] => (s, [], false)
  | c :: t =>
    let r := s.readPieces c.src
    let rest := State.collSources r.1 t
    let sz := collSize c.image
    (rest.1, elemsOf sz (collSrcBytes c.image / sz) r.2.1 :: rest.2.1, r.2.2 || rest.2.2)

/-- A destination byte that is undefined: its old value, or what the command would write (R353). -/
def mixBytes (fresh : Nat) (old new : List Byte) : List Byte :=
  ((old.zip new).zip (List.range new.length)).map fun p => if Config.freeChoice (fresh + p.2) then p.1.2 else p.1.1

/-- Move the data of a collective whose ranks have all started: cs in rank order. -/
def State.collMove (s : State) (cs : List Cmd) : State :=
  let src := s.collSources cs
  cs.foldl (fun t c =>
    let sz := collSize c.image
    let new := (collResult c.image src.2.1).flatMap (leBytes sz)
    if src.2.2 then
      let old := (t.readPieces c.dst).2.1
      { t.writePieces (c.agent .coll) c.dst (mixBytes t.fresh old new) with fresh := t.fresh + new.length }.finishCmd .coll c
        ⟨statusWord 0 4, []⟩
    else (t.writePieces (c.agent .coll) c.dst new).finishCmd .coll c ⟨statusWord 0 0, []⟩) src.1

/-- The commands in progress that a rank 0 exchanges signatures with: of the dies its table names, and those whose table names its
die as rank 0's; itself among them. -/
def State.collPeers (s : State) (zero : Cmd) : List Cmd :=
  let me := dieOf zero.ctx
  (s.dies.map (·.1)).flatMap fun d =>
    (s.collAt d (collGroup zero.image) (collSeq zero.image)).filter fun c =>
      (zero.table.map tableDie).contains d || tableDie (c.table.headD 0) == me

/-- On a difference every rank ends with CODE 6, one not yet issued when it is (R352). -/
def State.collDiffer (s : State) (zero : Cmd) (cs : List Cmd) : State :=
  let g := collGroup zero.image
  let q := collSeq zero.image
  ((zero.table.map tableDie).filter fun d => s.collAt d g q == []).foldl (fun t d => t.onDie d fun x => x.keepCancel g q)
    (cs.foldl (fun t d => t.finishCmd .coll d ⟨statusWord 0 6, []⟩) s)

/-- What a newly started rank brings about: a mismatch with a rank 0 that it exchanges signatures with, the move, or nothing yet
(R352, R354). The command of a die that another rank's table names as rank 0's is compared as rank 0's, whatever rank it has. -/
def State.collMeet (s : State) (c : Cmd) : State :=
  let all := (s.dies.map (·.1)).flatMap fun d => s.collAt d (collGroup c.image) (collSeq c.image)
  let zeros := all.filter fun z =>
    (collRank z.image == 0 || all.any fun d => tableDie (d.table.headD 0) == dieOf z.ctx) && (s.collPeers z).contains c
  match zeros.find? fun z => (s.collPeers z).any fun d => !sameCollective d z with
  | some z => s.collDiffer z (s.collPeers z)
  | none =>
    match zeros.find? fun z => (s.collPeers z).length == collRanks z.image with
    | some z => s.collMove (sortBy (fun a b => decide (collRank a.image ≤ collRank b.image)) (s.collPeers z))
    | none => s

/-- Start the rank of a command. -/
def State.collStart (s : State) (c : Cmd) : State :=
  let g := collGroup c.image
  let q := collSeq c.image
  let d := dieOf c.ctx
  if (s.dieAt d).cancels.contains (g, q) then
    (s.onDie d fun x => { x with cancels := x.cancels.erase (g, q) }).finishCmd .coll c ⟨statusWord 0 6, []⟩
  else match (collCheck c).run s with
  | (.error code, t) => t.collFail c [] code
  | (.ok (table, src, dst, code), t) =>
    if code ≠ 0 then t.collFail c table code
    else
      let twins := t.collAt d g q
      let c1 := { c with started := true, table := table, src := src, dst := dst }
      if twins ≠ [] then (c1 :: twins).foldl (fun u e => u.finishCmd .coll e ⟨statusWord 0 6, []⟩) t
      else (t.setCmd .coll c1).collMeet c1

/-- Commands of one context begin in acceptance order (R129). -/
def State.collRow (s : State) (die i cmd : Nat) : State :=
  s.onCommand (s.dieAt die).coll i cmd fun c => if (s.earlier .coll c).all (·.started) then s.collStart c else s

def execAllred (die i : Nat) (s : State) : Out := .next (s.collRow die i 1)
def execRedscat (die i : Nat) (s : State) : Out := .next (s.collRow die i 2)
def execAllgath (die i : Nat) (s : State) : Out := .next (s.collRow die i 3)
def execBcast (die i : Nat) (s : State) : Out := .next (s.collRow die i 4)

/-- A cancel that has reached a die (R353). -/
def execCollCancel (die : Nat) (group seq : BitVec 32) (s : State) : Out :=
  .next <|
    if (s.dieAt die).cancelBox.contains (group, seq) then
      let t := s.onDie die fun x => { x with cancelBox := x.cancelBox.erase (group, seq) }
      match (t.dieAt die).coll.find? fun c => c.result.isNone && collGroup c.image == group && collSeq c.image == seq with
      | some c => t.finishCmd .coll c ⟨statusWord 0 6, []⟩
      | none => t.onDie die fun x => x.keepCancel group seq
    else s

/-- Commands of one context with one GROUP complete in SEQ order (R354). -/
def State.collReady (s : State) (c : Cmd) : Bool :=
  (s.engine c.ctx .coll).all fun d =>
    d.ctx != c.ctx || collGroup d.image != collGroup c.image || decide ((collSeq c.image).toNat ≤ (collSeq d.image).toNat)

def execCollCompletion (die i : Nat) (s : State) : Out :=
  .next <|
    match (s.dieAt die).coll[i]? with
    | none => s
    | some c => if s.collReady c then s.completion .coll (s.dieAt die).coll i 35 9 else s

end Sys2Proof.Machine
end

