-- ==== Sys2Proof/Machine/Disp.lean ====
section
/-! DEFINITION. Expert dispatch: DISP (R356 to R362). SEND reads its row and sends it; LAND lands it at its zone;
DISP_COMPLETION completes the command. -/

namespace Sys2Proof.Machine

/-! Status (R361). -/

def State.dispEnd (s : State) (c : Cmd) (w : Nat) : State := s.finishCmd .disp c ⟨BitVec.ofNat 64 w, []⟩

def dropBit : Nat := 2 ^ 8
def dupBit : Nat := 2 ^ 9

def State.zoneAt (s : State) (d z : Nat) : Zone := tabGet Zone.reset (s.dieAt d).zones z

def State.putZone (s : State) (d z : Nat) (v : Zone) : State :=
  s.onDie d fun x => { x with zones := tabSet Zone.reset x.zones z v }

/-- Commands of one context start in acceptance order. -/
def State.dispRow (s : State) (die i cmd : Nat) (act : Cmd → State) : State :=
  s.onCommand (s.dieAt die).disp i cmd fun c => if (s.earlier .disp c).all (·.started) then act c else s

/-! SEND (R358, R360). -/

/-- Where a row goes: die and zone, or the code that ends the command. -/
def State.sendTarget (s : State) (c : Cmd) : State × Except Nat (Nat × Nat) :=
  let r := c.image
  if !recFlag r 0 then (s, .ok (4 * recN r 26 1 + recN r 27 1, recN r 28 2))
  else
    let p := (s.dieAt (dieOf c.ctx)).replica
    match p.cmd with
    | none => (s, .error 10)
    | some b =>
      if p.nent ≤ recN r 28 2 then (s, .error 9)
      else
        match (engRead b false ((if p.active then p.t1 else p.t0).toNat + 4 * recN r 28 2) 4).run s with
        | (.error code, t) => (t, .error code)
        | (.ok bs, t) =>
          let e := leNat bs
          if e / 2 ^ 16 ≠ 0 then (t, .error 11) else (t, .ok (tableDie (e % 256), e / 256 % 256))

/-- A SEND with XP waits for ActiveIndex to equal PAR, where tables are bound. -/
def State.sendWaits (s : State) (c : Cmd) : Bool :=
  let p := (s.dieAt (dieOf c.ctx)).replica
  recFlag c.image 0 && p.bound && p.active != recFlag c.image 1

def State.sendCmd (s : State) (c : Cmd) : State :=
  let r := c.image
  if recN r 36 4 ≤ recN r 32 4 then s.dispEnd c dropBit
  else if s.sendWaits c then s
  else
    match s.sendTarget c with
    | (t, .error code) => t.dispEnd c code
    | (t, .ok (d, z)) =>
      if !t.listed (pkgOf c.ctx) (d / 4) || (d / 4 != pkgOf c.ctx && (t.pkgAt (d / 4)).silent) then t.dispEnd c 7
      else
        match (engRead c false (recN r 8 9) (recN r 44 4)).run t with
        | (.error code, u) => u.dispEnd c code
        | (.ok row, u) =>
          let me := dieOf c.ctx
          let f : Flight := ⟨d, z, recN r 32 4, BitVec.ofNat 32 (recN r 40 4), recN r 44 4, row, d / 4 == me / 4⟩
          let v := u.setCmd .disp { c with started := true, flight := some f }
          if d / 4 = me / 4 then v else v.sendFrame (4 * (me / 4) + d % 4) d (.row c.serial)

def execSend (die i : Nat) (s : State) : Out := .next (s.dispRow die i 1 s.sendCmd)

/-! Landing (R358, R359). -/

/-- The window of a source: highest number and marks; none before its first row. -/
def noWindow : Nat × List Nat := (2 ^ 32, [])

/-- Signed difference of two sequence numbers. -/
def seqDiff (a b : Nat) : Int := intOf 32 false ((a + 2 ^ 32 - b % 2 ^ 32) % 2 ^ 32)

/-- Window (R359): whether seq is a duplicate, and the window after it. -/
def windowStep (w : Nat × List Nat) (seq : Nat) : Bool × (Nat × List Nat) :=
  if w = noWindow then (false, (seq, [seq]))
  else
    let d := seqDiff seq w.1
    if 0 < d then (false, (seq, seq :: w.2.filter fun m => decide ((seq + 2 ^ 32 - m % 2 ^ 32) % 2 ^ 32 < 4096)))
    else if d ≤ -4096 ∨ w.2.contains seq then (true, w)
    else (false, (w.1, seq :: w.2))

/-- n bytes of a zone from offset o, as pieces. -/
def slicePieces : Nat → Nat → List Piece → List Piece
  | _, _, [] => []
  | o, n, (pa, lay, k) :: t =>
    if n = 0 then []
    else if k ≤ o then slicePieces (o - k) n t
    else let m := min n (k - o); (pa + o, lay, m) :: slicePieces 0 (n - m) t

/-- The reads a write of n bytes at pa merges with: whole lines that are encoded, else parts of protected units. -/
def State.mergeReads (s : State) (lay : Lay) (pa n : Nat) : List (Nat × Nat) :=
  if inHbm pa && (lay.cz || s.tagOf (pa / 128) != 0) then
    if pa % 128 = 0 ∧ n = 128 then [] else [(pa / 128 * 128, 128)]
  else
    let u := unitLen pa
    let head := if pa % u ≠ 0 ∨ n < u then [(Machine.unitOf pa, u)] else []
    head ++ (if (pa + n) % u ≠ 0 ∧ Machine.unitOf (pa + n) ≠ Machine.unitOf pa then [(Machine.unitOf (pa + n), u)] else [])

/-- Cut pieces at 128-byte lines. -/
def linePieces : Nat → List Piece → List Piece
  | 0, _ => []
  | _, [] => []
  | f + 1, (pa, lay, n) :: t =>
    let m := min n (128 - pa % 128)
    if m = n then (pa, lay, n) :: linePieces f t else (pa, lay, m) :: linePieces f ((pa + m, lay, n - m) :: t)

/-- Does the write of a piece meet an error in what it merges with? -/
def State.mergeFails (s : State) : List (Nat × Nat) → State × Bool
  | [] => (s, false)
  | (pa, n) :: t =>
    match s.checkRead Lay.plain pa n with
    | (s1, some _) => (s1, true)
    | (s1, none) => State.mergeFails s1 t

/-- Write the pieces of a row; the code of a failure. -/
def State.landPieces (s : State) (a : Agent) : List Piece → List Byte → State × Nat
  | [], _ => (s, 0)
  | (pa, lay, n) :: t, bs =>
    if !(s.place pa).isMem then (s, 7)
    else
      match s.mergeFails (if s.bad = [] then [] else s.mergeReads lay pa n) with
      | (s1, true) => (s1, 4)
      | (s1, false) => State.landPieces (s1.write a lay pa (bs.take n)) a t (bs.drop n)

/-- Free values over what is left of a slot (R358). -/
def State.freePieces (s : State) (a : Agent) : List Piece → State
  | [] => s
  | (pa, lay, n) :: t =>
    if (s.place pa).isMem then
      State.freePieces { s.write a lay pa ((List.range n).map fun j => Config.freeByte (s.fresh + j)) with fresh := s.fresh + n } a t
    else State.freePieces s a t

/-- Who writes a landing row: the dispatch engine of the destination die, or the remote package. -/
def Cmd.landAgent (c : Cmd) (d : Nat) : Agent :=
  { c.agent .disp with
    kind := if d / 4 = pkgOf c.ctx then 5 else 8
    number := if d / 4 = pkgOf c.ctx then d % 4 else pkgOf c.ctx }

/-- Land (R358): the state and the SEND's status. -/
def State.landRow (s : State) (c : Cmd) (f : Flight) : State × Nat :=
  let z := s.zoneAt f.die f.zone
  if !z.armed || decide (z.cap ≤ f.slot) || f.rowb != z.rowb then
    (s.putZone f.die f.zone { z with refused := z.refused + 1 }, 9)
  else
    let src := dieOf c.ctx
    let w := tabGet noWindow z.windows src
    match windowStep w f.seq.toNat with
    | (true, _) => (s.putZone f.die f.zone { z with dups := z.dups + 1 }, dupBit)
    | (false, w1) =>
      let ps := linePieces (f.rowb + 1) (slicePieces (f.slot * z.rowb) f.rowb z.frames)
      match s.landPieces (c.landAgent f.die) ps f.bytes with
      | (t, 0) => (t.putZone f.die f.zone { z with landed := z.landed + 1, windows := tabSet noWindow z.windows src w1 }, 0)
      | (t, code) =>
        ((t.freePieces (c.landAgent f.die) ps).putZone f.die f.zone
          { z with windows := tabSet noWindow z.windows src (w1.1, w1.2.filter (· != f.seq.toNat)) }, code)

/-- LAND: the row of the command at place i of its sending die, once it has arrived. Behind the commands stand those that ended with
CODE 7: their rows may still land, and no status comes of it (R363, R365). -/
def execLand (die i : Nat) (s : State) : Out :=
  .next <|
    let x := s.dieAt die
    match (x.disp ++ x.strays)[i]? with
    | none => s
    | some c =>
      match c.flight, c.result with
      | some f, none =>
        if !f.arrived then s
        else if i < x.disp.length then
          match s.landRow c f with
          | (t, w) => t.dispEnd { c with flight := none } w
        else (s.landRow c f).1.onDie die fun y => { y with strays := y.strays.filter (·.serial != c.serial) }
      | _, _ => s

/-! LZSET, ZSTAT, RTSET (R357, R360). -/

/-- LZSET: every byte of the zone translated and checked before anything changes. -/
def State.armZone (s : State) (c : Cmd) : State :=
  let r := c.image
  let n := recN r 36 4 * recN r 44 4
  match (engCheck c false Need.write (pieceCount n) (recN r 8 9) n).run s with
  | (.error code, t) => t.dispEnd c code
  | (.ok ps, t) =>
    (t.putZone (dieOf c.ctx) (recN r 28 2)
      { cap := recN r 36 4, rowb := recN r 44 4, base := recN r 8 9, frames := toPieces ps, landed := 0, dups := 0, refused := 0,
        windows := [], armed := true }).dispEnd c 0

/-- ZSTAT: the counts, as 16 bytes; a report that cannot be written is dropped and counted. -/
def State.reportZone (s : State) (c : Cmd) : State :=
  let z := s.zoneAt (dieOf c.ctx) (recN c.image 28 2)
  let bs := leBytes 4 z.landed ++ leBytes 4 z.dups ++ leBytes 4 z.refused ++ leBytes 4 0
  match (engWrite c .disp false (recN c.image 17 9) bs).run s with
  | (.ok _, t) => t.dispEnd c 0
  | (.error _, t) => (t.onDie (dieOf c.ctx) fun x => { x with errors := x.errors + 1 }).dispEnd c 0

/-- The binding that RTSET makes as it completes. -/
def State.bindReplica (s : State) (c : Cmd) : State :=
  let r := c.image
  s.onDie (dieOf c.ctx) fun x => { x with replica :=
    ⟨true, BitVec.ofNat 72 (recN r 8 9), BitVec.ofNat 72 (recN r 17 9), recN r 28 2, recN r 30 2, false,
      some { c with flight := none, result := none, started := true }⟩ }

def execLzset (die i : Nat) (s : State) : Out := .next (s.dispRow die i 2 s.armZone)
def execZstat (die i : Nat) (s : State) : Out := .next (s.dispRow die i 3 s.reportZone)
def execRtset (die i : Nat) (s : State) : Out := .next (s.dispRow die i 4 fun c => s.dispEnd c 0)

/-- A DISP command completes: SEND and LZSET write a status word; RTSET binds its tables (R356, R360). -/
def execDispCompletion (die i : Nat) (s : State) : Out :=
  .next <|
    match (s.dieAt die).disp[i]? with
    | none => s
    | some c =>
      let sta := if recCmd c.image = 1 ∨ recCmd c.image = 2 then 9 else 0
      let t := if recCmd c.image = 4 ∧ c.result.isSome then s.bindReplica c else s
      t.completion .disp (t.dieAt die).disp i 17 sta

end Sys2Proof.Machine
end

