-- ==== Sys2Proof/Machine/Switch.lean ====
section
/-! DEFINITION. Context switch (R239, R240): the save record, SWITCH_OUT and SWITCH_IN. What a task keeps that its save
record has no place for stands in the die's task table (log 15, DESIGN CHOICE). The device's own accesses to the record are physical. -/

namespace Sys2Proof.Machine

/-! The save record (R240). -/

/-- Every CSR (R101). -/
def allCsrs : List Csr :=
  [.ctl, .stat, .vl, .vlg, .vcfg, .scnt, .eidx, .vah, .detw, .tcause, .taddr, .tpc, .tvec, .tsp, .tinfo, .dfcause, .dfaddr,
    .lmap, .vlmax, .lgrant, .eptlim, .eptport, .mxctl, .mxrowp, .mxcolp, .mxprog, .plst, .swlim, .pltol, .plsw, .pleps, .tick,
    .deadln, .prio, .dlwin, .hmexp, .session, .watchctl, .ptroot, .asid] ++
  (List.range 16).map (fun n => .fmsk (Fin.ofNat 16 n)) ++ (List.range 4).map fun n => .watch (Fin.ofNat 4 n)

/-- Offset of a CSR in the record. -/
def csrOffset (r : Csr) : Nat := 0x100 + 8 * (Csr.code r).toNat

/-- One entry of the held-line table. -/
def HeldLine.entry (l : HeldLine) : List Byte := leBytes 8 (l.pa + 1) ++ leBytes 8 l.sel.toNat

/-- The bytes of a held line, zero where none is held. -/
def HeldLine.data (l : HeldLine) : List Byte :=
  (List.range 64).map fun j => if l.sel.getLsbD j then l.bytes.extractLsb' (8 * j) 8 else 0

/-- LPC and RUN of a lane (R52). -/
def LaneState.word (l : LaneState) : Word := (l.lpc &&& ~~~7#64) ||| (BitVec.ofBool l.run).zeroExtend 64

/-- What the record of the context in hand holds, by offset. -/
def State.saveParts (s : State) (frozen : Bool) : List (Nat × List Byte) :=
  [(0, (s.c.x.toList.set 0 0).flatMap fun v => leBytes 8 v.toNat)] ++
  (allCsrs.map fun r => (csrOffset r, leBytes 8 (s.csr r).toNat)) ++
  [(0x800, (s.c.m.toList.set 0 0).flatMap fun v => leBytes 512 v.toNat),
   (0x1800, s.c.d.toList.flatMap Desc.image),
   (0x2000, (List.range 64).flatMap fun l => leBytes 8 (tabGet LaneState.idle s.c.lanes l).word.toNat),
   (0x2200, leBytes 8 s.c.pc.toNat),
   (0x2208, leBytes 8 (s.c.thr.toNat + 2 * s.c.held.toNat + 4 * frozen.toNat)),
   (0x2210, s.c.counts.toList.flatMap fun v => leBytes 8 v.toNat),
   (0x4000, s.c.v.toList.flatMap fun v => leBytes 512 v.toNat),
   (0x28600, s.c.lines.flatMap HeldLine.entry),
   (0x30000, s.c.lines.flatMap HeldLine.data)]

/-- Zero n bytes from pa, whole lines, by a device write. -/
def State.clearBytes (s0 : State) (pa n : Nat) : State :=
  let s := s0.wake Lay.plain pa n
  let t := if s.bad = [] then s else s.writeUnits Lay.plain (n / 8 + 2) pa n
  { t with mem := tabClear t.mem pa n, tags := if inHbm pa then tabClear t.tags (pa / 128) (n / 128) else t.tags }

/-- Write the save record at pa; the matrix area and the plan image are software's. -/
def State.save (s : State) (pa : Nat) (frozen : Bool) : State :=
  (s.saveParts frozen).foldl (fun t p => t.putBytes none Lay.plain (pa + p.1) p.2)
    ((s.clearBytes pa 0x8000).clearBytes (pa + 0x28500) 0x17B00)

/-- The context in hand holds no task: FREE, or OUT while its task is switched out; its generation and its charge stay with it (R212,
R242). -/
def State.vacate (s : State) (st : Status) (gen : BitVec 16) : State :=
  { s with c := { Ctx.reset with status := st, gen := gen, charge := s.c.charge } }

/-! SWITCH_OUT (R239). -/

/-- What the task table keeps of the task in hand. -/
def State.keepTask (s : State) (t : Task) : OutTask where
  ctx := s.here
  task := t
  assay := s.c.assay
  seam := s.c.seam
  added := Vector.replicate 6 0
  thrX := s.c.thrX
  thrFmt := s.c.thrFmt
  thrFault := s.c.thrFault
  lanesHeld := s.c.lanesHeld
  taker := s.c.taker
  progress := s.c.asked.progress
  epoch := s.c.epoch
  event := s.c.event
  lost := s.c.lost
  ept := s.c.ept
  asking := s.c.asking
  request := s.c.request
  answer := s.c.answer
  gen := s.c.gen
  pgreq := s.c.pgreq
  paged := s.c.paged
  vbad := s.c.vbad
  lineTags := s.c.lines.map fun l => (l.lay, l.assay)

/-- The context stops at its PC, its record is written, its lanes go, and it is OUT. -/
def State.switchOut (s : State) : State :=
  match s.c.task with
  | none => s
  | some t =>
    let s1 := s.flush.reload s.c.cap.toNat 64
    let s2 := (s1.save t.save false).returnLanes s.here
    let s3 := s2.onDie s.die fun x => { x with out := x.out ++ [s1.keepTask t] }
    s3.vacate .out s1.c.gen

/-- May an asynchronous cause be taken here: task mode, at a slot boundary with no fixed-latency result pending, and the
oldest instruction not begun, or interruptible (R109, R144, R167, R181, R223)? -/
def Ctx.interruptible (c : Ctx) : Bool :=
  c.status == .bound && !c.hnd && c.settled &&
  match c.wait with
  | .none => c.ahead.isNone
  | .engine _ _ | .clasp _ _ false | .wfe | .vjoin | .lanes | .drain _ | .going => true
  | .clasp _ _ true | .vfence | .seam | .assay | .fence _ | .port | .queued _ _ | .begun => false

/-- A PROGRESS that is due is kept: in handler mode, while a result is pending, while held, and while the oldest instruction is one that
is not interrupted: it has had a part of its effect, or is a vector memory instruction that stops for PROGRESS itself, once it has done
what it came to (R109, R212, R223, R231, R261, R320; log 22, DEDUCED). -/
def State.keepsProgress (s : State) : Bool :=
  s.c.status != .bound || s.c.hnd || !s.c.settled || s.c.held ||
  match s.c.wait with
  | .clasp _ _ true | .vfence | .seam | .assay | .fence _ | .port => true
  | .begun => s.pointAt.2 == .fmsk
  | .none | .engine _ _ | .clasp _ _ false | .wfe | .vjoin | .lanes | .drain _ | .going | .queued _ _ => false

/-- A lane reclaim that waits goes before a pre-emption: between two strips of an array instruction it is taken first (R223, R235). -/
def State.atStrip (s : State) : State := if s.c.wait = .going ∧ s.pointAt.2 = .scnt then s.grantPoint else s

/-- A pre-emption asked of the context in hand is taken, a PROGRESS or a watch event that is due first; a held context keeps those, and
is switched out with them (R223, R239). -/
def execSwitchOut (s : State) : Out :=
  .next (if s.c.asked.preempt && s.c.interruptible && (s.c.held || (s.c.asked.progress.isNone && s.c.event.isNone)) then
      s.atStrip.switchOut
    else s)

/-! SWITCH_IN (R239). -/

/-- Read n bytes of the record at pa, from offset o, as a number. -/
def State.saved (s : State) (pa o n : Nat) : Nat := leNat (s.bytesAt false (pa + o) n)

/-- The held lines of a record: its valid entries, each with the layout and assay id the task table keeps. -/
def State.savedLines (s : State) (pa : Nat) : Nat → List (Lay × Option (Fin 256)) → List HeldLine
  | _, [] => []
  | i, (lay, id) :: t =>
    let w := s.saved pa (0x28600 + 16 * i) 8
    if w % 2 = 0 then []
    else ⟨w % 2 ^ 52 / 64 * 64, BitVec.ofNat 512 (s.saved pa (0x30000 + 64 * i) 64),
      BitVec.ofNat 64 (s.saved pa (0x28608 + 16 * i) 8), lay, id⟩ :: State.savedLines s pa (i + 1) t

/-- The held lines of a record of the task o as the device reads them, and the machine after its reads (R307, R340). -/
def State.readLines (s : State) (o : OutTask) : State × List HeldLine :=
  let k := o.lineTags.length
  if k = 0 then (s, [])
  else
    let a := s.deviceView (o.task.save + 0x28600) (0x7A00 + 64 * k)
    (a.1, a.2.savedLines o.task.save 0 o.lineTags)

/-- The CSRs of a record that v shows; TICK, LMAP and VLMAX are not restored, nor is matrix ownership (R239, R240). A cap whose lanes are
back, and nothing pending, is to lift (R236; log 25, DEDUCED). -/
def State.restoreCsrs (s v : State) (pa : Nat) (taker : Option (Fin 4)) : State :=
  let w (r : Csr) : Word := BitVec.ofNat 64 (v.saved pa (csrOffset r) 8)
  let t := (allCsrs.filter (· != .mxctl)).foldl (fun u r => u.putCsr r (w r)) s
  let cap : BitVec 7 := (w .lgrant).extractLsb' 0 7
  let lift := cap != 64 && !(w .lgrant).getLsbD 23 && taker.isNone
  { t with c := { t.c with
      det := (w .ctl).getLsbD 0
      hnd := (w .stat).getLsbD 2
      vlive := (w .stat).getLsbD 5
      mxen := (w .mxctl).getLsbD 0
      detw := (w .detw).extractLsb' 0 7
      deadln := w .deadln
      prio := (w .prio).extractLsb' 0 2
      session := (w .session).extractLsb' 0 32
      cap := cap
      next := if lift then 64 else (w .lgrant).extractLsb' 16 7
      pend := lift || (w .lgrant).getLsbD 23 } }

/-- The registers of a record that v shows. -/
def State.restore (s v : State) (pa : Nat) (taker : Option (Fin 4)) : State :=
  let t := s.restoreCsrs v pa taker
  let flags := v.saved pa 0x2208 8
  { t with c := { t.c with
      x := Vector.ofFn fun i : Fin 32 => BitVec.ofNat 64 (v.saved pa (8 * i.val) 8)
      m := Vector.ofFn fun i : Fin 8 => BitVec.ofNat 4096 (v.saved pa (0x800 + 512 * i.val) 512)
      d := Vector.ofFn fun i : Fin 16 => (Desc.ofImage (v.bytesAt false (pa + 0x1800 + 128 * i.val) 128)).getD Desc.zero
      lanes := (List.range 64).foldl (fun ls l =>
        let w : Word := BitVec.ofNat 64 (v.saved pa (0x2000 + 8 * l) 8)
        tabSet LaneState.idle ls l ⟨w &&& ~~~7#64, w.getLsbD 0, []⟩) []
      pc := BitVec.ofNat 64 (v.saved pa 0x2200 8)
      thr := flags % 2 == 1
      held := flags / 2 % 2 == 1
      counts := Vector.ofFn fun i : Fin 6 => BitVec.ofNat 64 (v.saved pa (0x2210 + 8 * i.val) 8)
      v := Vector.ofFn fun i : Fin 32 => BitVec.ofNat 4096 (v.saved pa (0x4000 + 512 * i.val) 512) } }

/-- The task o comes back to the context in hand: its record as the device reads it, then what the task table kept. Lanes reclaimed for
it have returned to their victim, and it counts them until its first grant point (R237). -/
def State.switchIn (s : State) (o : OutTask) : State :=
  let a := s.deviceView o.task.save 0x8000
  let b := a.1.readLines o
  let s1 := (b.1.vacate .bound s.c.gen).restore a.2 o.task.save o.taker
  { s1 with
    c := { s1.c with
      task := some o.task
      counts := Vector.zipWith (· + ·) s1.c.counts o.added
      assay := o.assay
      seam := o.seam
      thrX := o.thrX
      thrFmt := o.thrFmt
      thrFault := o.thrFault
      lanesHeld := o.lanesHeld
      lanesBack := o.lanesHeld != 0
      taker := o.taker
      asked := ⟨o.progress, false⟩
      epoch := o.epoch
      event := o.event
      lost := o.lost
      ept := o.ept
      asking := o.asking
      request := o.request
      answer := o.answer
      pgreq := o.pgreq
      paged := o.paged
      vbad := o.vbad
      lines := b.2 } }

/-- Is context g reserved for the crews of a record that waits for its START (R290)? -/
def State.reserved (s : State) (g : Nat) : Bool :=
  (s.dieAt (dieOf g)).waiting.any fun w => w.reserved.any fun p => p.contains g

/-- Take the first item that p picks out of a list. -/
def takeFirst {α : Type} (p : α → Bool) : List α → Option (α × List α)
  | [] => none
  | a :: t => if p a then some (a, t) else (takeFirst p t).map fun r => (r.1, a :: r.2)

/-- A task returns to its own context once that is free (R239, R288). -/
def execSwitchIn (s : State) : Out :=
  .next <|
    if (s.c.status != .out && s.c.status != .free) || s.reserved s.here then s
    else
      match takeFirst (fun o => o.ctx == s.here) (s.dieAt s.die).out with
      | none => s
      | some (o, rest) => ((s.switchIn o).onDie s.die fun x => { x with out := rest }).takeAnswer

end Sys2Proof.Machine
end

