-- ==== Sys2Proof/Machine/Launch.lean ====
section
/-! DEFINITION. Launching (R132, R278 to R291, R298): reading and firing records, placing crews, reserving for a start tick,
the end of tasks and records, and what the die supervisor does to them. A placement names its contexts; a row whose rule
the named contexts break leaves the machine as it is (log 2, DESIGN CHOICE). -/

namespace Sys2Proof.Machine

/-! Records and queue contexts (R278, R281). -/

def lrEntry (r : BitVec 512) : Nat := recN r 0 9
def lrCrews (r : BitVec 512) : Nat := recN r 18 2 + 1
def lrCrew0 (r : BitVec 512) : Nat := recN r 20 2
def lrStages (r : BitVec 512) : Nat := recN r 22 1 / 16 + 1
def lrMembers (r : BitVec 512) : Nat := recN r 22 1 % 16 + 1
def lrTasks (r : BitVec 512) : Nat := lrMembers r * lrStages r
def lrDet (r : BitVec 512) : Bool := (recN r 23 1).testBit 2
def lrClass (r : BitVec 512) : Nat := recN r 23 1 % 4
def lrDetw (r : BitVec 512) : Nat := recN r 24 1
def lrSession (r : BitVec 512) : BitVec 32 := BitVec.ofNat 32 (recN r 28 4)
def lrDeadline (r : BitVec 512) : Nat := recN r 32 8
def lrStart (r : BitVec 512) : Nat := recN r 40 8
def lrImgt (r : BitVec 512) : Word := BitVec.ofNat 64 (recN r 56 8)

def qcRoot (q : BitVec 512) : Word := BitVec.ofNat 64 (recN q 0 8) &&& 0x000FFFFFFFFF0000
def qcAsid (q : BitVec 512) : BitVec 16 := BitVec.ofNat 16 (recN q 0 2)
def qcClass (q : BitVec 512) : Nat := recN q 40 8 % 4
def qcRing (q : BitVec 512) : Nat := recN q 48 8 % 2 ^ 52 / 64 * 64
def qcCring (q : BitVec 512) : Nat := recN q 56 8 % 2 ^ 52 / 32 * 32

/-- x3: DIGID, or the number the device assigns (R282). -/
def digOf (die q : Nat) (n : BitVec 32) (r : BitVec 512) : Word :=
  if recN r 48 8 = 0 then BitVec.ofNat 64 (die % 4 * 2 ^ 62 + q * 2 ^ 48 + n.toNat) else BitVec.ofNat 64 (recN r 48 8)

/-! Image tables (R283). -/

/-- What the supervisor reads at a virtual address; it serves no context. -/
def State.supBytes (s : State) (v : View) (va n : Nat) : State × Option (List Byte) :=
  s.readPages v (n / 2 ^ 16 + 2) va n

/-- Bytes of each window: TCM, scratchpad, die SRAM. -/
def windowSizes : List Nat := [0x100000, 0x800000, 0x4000000]

def supView (die : Nat) (qctx : BitVec 512) : View := ⟨none, die / 4, qcRoot qctx⟩

/-- The image table of a record: address and length of each image; no table is three empty images. None where it cannot
be read. -/
def State.readTable (s : State) (v : View) (imgt : Word) : State × Option (BitVec 512) :=
  if imgt = 0 then (s, some 0)
  else match s.supBytes v imgt.toNat 64 with
    | (s1, none) => (s1, none)
    | (s1, some bs) => (s1, some (BitVec.ofNat 512 (leNat bs)))

def tableVa (t : BitVec 512) (k : Nat) : Nat := recN t (16 * k) 9
def tableLen (t : BitVec 512) (k : Nat) : Nat := recN t (16 * k + 12) 4

/-- A table whose zero fields are not zero, or with an image above its window. -/
def badTable (t : BitVec 512) : Bool :=
  !recZero t 9 3 || !recZero t 25 3 || !recZero t 41 3 || !recZero t 48 16 ||
  ([0, 1, 2].any fun k => decide (windowSizes.getD k 0 < tableLen t k))

/-- Which windows have an image. -/
def tableImages (t : BitVec 512) : BitVec 3 :=
  BitVec.ofNat 3 (([0, 1, 2].map fun k => if tableLen t k = 0 then 0 else 2 ^ k).sum)

/-- Every image of a table can be read. -/
def State.imagesRead (s : State) (v : View) (t : BitVec 512) : List Nat → State × Bool
  | [] => (s, true)
  | k :: ks =>
    match s.supBytes v (tableVa t k) (tableLen t k) with
    | (s1, none) => (s1, false)
    | (s1, some _) => State.imagesRead s1 v t ks

/-! Completion records (R289, R291). -/

/-- Device write of physical bytes; where nothing is, nothing is written. -/
def State.devPut (s : State) (pa : Nat) (bs : List Byte) : State :=
  if (s.place pa).isMem then s.putBytes none Lay.plain pa bs else s

/-- Write a completion record, and count a missed deadline. -/
def State.completionRecord (s : State) (die : Nat) (n : BitVec 32) (image qctx : BitVec 512) (dig fire : Word)
    (status : BitVec 8) (late : Bool) (frozen : Nat) : State :=
  let done := (s.dieAt die).tick
  let miss := lrDeadline image != 0 && decide (lrDeadline image < done.toNat)
  let phase := n.toNat / qcSize qctx % 2 == 0
  let t := if miss then s.count (die / 4) .deadlineMiss die 1 else s
  t.devPut (qcCring qctx + 32 * (n.toNat % qcSize qctx))
    (leBytes 8 dig.toNat ++ leBytes 8 fire.toNat ++ leBytes 8 done.toNat ++
      [status, BitVec.ofNat 8 (miss.toNat + 2 * late.toNat + 128 * phase.toNat)] ++ leBytes 2 (min frozen 65535) ++ leBytes 4 0)

/-- The completion record of a record with which no task ran (R284, R289). -/
def State.refuseRecord (s : State) (die : Nat) (w : Waiting) (status : BitVec 8) : State :=
  s.completionRecord die w.n w.image w.qctx (digOf die w.queue w.n w.image) (s.dieAt die).tick status w.late 0

/-! Reading a record (R279, R284). -/

/-- Does a die take records: firmware up, the die in service, the queue's context set. -/
def State.queueOpen (s : State) (die q : Nat) : Bool :=
  (s.pkgAt (die / 4)).boot == .running && !(s.dieAt die).down && (s.queueAt die q).set

def State.waitingOf (s : State) (die q : Nat) : Option Waiting := (s.dieAt die).waiting.find? (·.queue == q)

def State.dropWaiting (s : State) (die q : Nat) : State :=
  s.onDie die fun x => { x with waiting := x.waiting.filter (·.queue != q) }

/-- HEAD moves past the record at it. -/
def State.advanceHead (s : State) (die q : Nat) : State :=
  let h := s.queueAt die q
  s.putQueue die q { h with head := h.head + 1 }

/-- The conditions of status 0xFD on the record's own bytes. -/
def badLaunch (r qctx : BitVec 512) : Bool :=
  recN r 23 1 / 8 != 0 || !recZero r 25 3 || lrClass r == 3 || decide (lrClass r < qcClass qctx) || decide (64 < lrDetw r) ||
  decide (65536 < lrCrew0 r + lrCrews r) || lrEntry r % 8 != 0

/-- The clusters of a die that are in service. -/
def State.clustersOf (s : State) (die : Nat) : List Nat :=
  ((List.range 8).map fun c => 8 * die + c).filter fun c => !(s.clusterAt c).down

/-- Contexts of the logical cores a cluster has. -/
def State.coresOf (s : State) (clu : Nat) : List Nat :=
  ((List.range 16).map fun k => 16 * clu + k).filter fun k => !(s.coreAt k).absent

/-- Has the cluster the logical cores that one crew needs (R284, R287)? -/
def State.hasCores (s : State) (clu : Nat) (r : BitVec 512) : Bool :=
  if lrDet r then (List.range (lrMembers r)).all fun m => !(s.coreAt (16 * clu + m)).absent
  else decide (lrTasks r ≤ 4 * (s.coresOf clu).length)

/-- Has every core that a deterministic crew uses lanes for DETW? -/
def State.wideEnough (s : State) (clu : Nat) (r : BitVec 512) : Bool :=
  (List.range (lrMembers r)).all fun m => decide (lrDetw r ≤ (s.coreAt (16 * clu + m)).active)

/-- The status a record is refused with, in the order of the table of R284, if any. -/
def State.launchStatus (s : State) (die : Nat) (r qctx : BitVec 512) : State × Option (BitVec 8) :=
  if badLaunch r qctx then (s, some 0xFD)
  else
    let v := supView die qctx
    match s.readTable v (lrImgt r) with
    | (s1, none) => (s1, some 0xFD)
    | (s1, some t) =>
      if badTable t then (s1, some 0xFD)
      else
        match s1.imagesRead v t [0, 1, 2] with
        | (s2, false) => (s2, some 0xFD)
        | (s2, true) =>
          let clus := s2.clustersOf die
          (s2,
            if 64 < lrTasks r ∨ (lrDet r ∧ 4 < lrStages r) ∨ clus.all (fun c => !s2.hasCores c r) then some 0xFC
            else if lrDet r ∧ clus.all (fun c => !(s2.hasCores c r && s2.wideEnough c r)) then some 0x15
            else none)

/-- The record at the head of a queue is read, once, and refused or kept until it fires. -/
def State.readRecord (s : State) (die q : Nat) : State :=
  let h := s.queueAt die q
  let pa := qcRing h.image + 64 * (h.head.toNat % qcSize h.image)
  let e := s.checkRead Lay.plain pa 64
  let r := BitVec.ofNat 512 (leNat (e.1.bytesAt false pa 64))
  let tick := (s.dieAt die).tick.toNat
  let x := s.dieAt die
  let w : Waiting := ⟨q, h.head, r, h.image, x.prep, x.era, [], 0, lrStart r != 0 && decide (lrStart r < tick), false⟩
  let chk := if e.2.isSome || !(s.place pa).isMem then (e.1, some 0xFD) else e.1.launchStatus die r h.image
  match chk with
  | (t, some st) => (t.refuseRecord die { w with late := false } st).advanceHead die q
  | (t, none) => t.onDie die fun x => { x with waiting := x.waiting ++ [w] }

def execLaunchRecordRead (die q : Nat) (s : State) : Out :=
  .next <|
    let h := s.queueAt die q
    if s.queueOpen die q && (s.waitingOf die q).isNone && h.head != h.tail then s.readRecord die q else s

/-! The end of a record (R289). -/

/-- A record of which every crew is placed and no task lives: its save records are free, its completion record is
written. -/
def State.settleLaunch (s : State) (die : Nat) (l : Launch) : State :=
  if l.placed < lrCrews l.image ∨ l.live ≠ 0 then s
  else
    let status : BitVec 8 := if l.status ≠ 0 then l.status else if l.frozen ≠ 0 then 0xFF else 0
    (s.onDie die fun x => { x with
      launches := x.launches.filter fun m => !(m.queue == l.queue && m.n == l.n)
      pool := x.pool.map fun r => if l.saves.contains r.pa then { r with used := false } else r }).completionRecord die l.n l.image
      l.qctx l.dig l.fire status l.late l.frozen

/-- Change the fired record of a task, and settle it. -/
def State.onLaunch (s : State) (die q : Nat) (n : BitVec 32) (f : Launch → Launch) : State :=
  match (s.dieAt die).launches.find? fun l => l.queue == q && l.n == n with
  | none => s
  | some l =>
    let l1 := f l
    (s.onDie die fun x => { x with launches := x.launches.map fun m => if m.queue = q ∧ m.n = n then l1 else m }).settleLaunch die l1

/-- A record ends with a status: no further crew of it is placed. -/
def Launch.stop (l : Launch) (status : BitVec 8) : Launch := { l with status := status, placed := lrCrews l.image }

/-! Placement (R286 to R288). -/

/-- Contexts that a crew may take although a task has them: none; those of tasks switched out; and those of tasks that are to be. -/
def takesNone (_ : Ctx) : Bool := false
def takesOut (c : Ctx) : Bool := c.status == .out
def takesLeaving (c : Ctx) : Bool := c.status == .out || (c.status == .bound && c.asked.preempt)

/-- Is context g free for a crew: FREE with no task to return, or one that it takes; not reserved. -/
def State.openFor (s : State) (takes : Ctx → Bool) (g : Nat) : Bool :=
  let c := s.ctxAt g
  !s.reserved g && ((c.status == .free && (s.dieAt (dieOf g)).out.all (·.ctx != g)) || takes c)

/-- Tasks that hold contexts of a range, in them or switched out. -/
def State.tasksIn (s : State) (lo n : Nat) : List Task :=
  ((List.range n).filterMap fun j => (s.ctxAt (lo + j)).task) ++
  ((s.dieAt (dieOf lo)).out.filter fun o => decide (lo ≤ o.ctx) && decide (o.ctx < lo + n)).map (·.task)

/-- Has the record contexts reserved among lo .. lo + n - 1? -/
def Waiting.reserves (w : Waiting) (lo n : Nat) : Bool :=
  w.reserved.any fun gs => gs.any fun g => decide (lo ≤ g) && decide (g < lo + n)

/-- Exclusivity of a window (R283): no task there, nor a record that contexts there are reserved for (R290), holds an image of it from
another table. -/
def State.shares (s : State) (lo n k : Nat) (table : BitVec 16 × Word) : Bool :=
  ((s.tasksIn lo n).all fun t => !t.images.getLsbD k || t.table == table) &&
  (s.dieAt (dieOf lo)).waiting.all fun w =>
    !w.images.getLsbD k || !w.reserves lo n || (qcAsid w.qctx, lrImgt w.image) == table

/-- May a task of this table be placed in context g? -/
def State.exclusive (s : State) (g : Nat) (table : BitVec 16 × Word) : Bool :=
  s.shares (4 * coreOf g) 4 0 table && s.shares (64 * clusterOf g) 64 1 table && s.shares (512 * dieOf g) 512 2 table

/-- May context g hold a task of the record? -/
def State.fitsCtx (s : State) (r qctx : BitVec 512) (takes : Ctx → Bool) (g : Nat) : Bool :=
  let k := s.coreAt (coreOf g)
  s.openFor takes g && !k.absent && !k.closed && (!lrDet r || decide (lrDetw r ≤ k.active)) &&
    s.exclusive g (qcAsid qctx, lrImgt r)

/-- Member and stage of the j-th task of a crew. -/
def memberOf (r : BitVec 512) (j : Nat) : Nat := j / lrStages r
def stageOf (r : BitVec 512) (j : Nat) : Nat := j % lrStages r

/-- Contexts of a cluster for one crew, if it can take it: those a deterministic crew must have, or the first that fit. -/
def State.roomIn (s : State) (r qctx : BitVec 512) (takes : Ctx → Bool) (clu : Nat) : Option (List Nat) :=
  if (s.clusterAt clu).down then none
  else if lrDet r then
    let gs := (List.range (lrTasks r)).map fun j => 64 * clu + 4 * memberOf r j + stageOf r j
    if gs.all (s.fitsCtx r qctx takes) then some gs else none
  else
    let gs := ((List.range 64).map fun j => 64 * clu + j).filter (s.fitsCtx r qctx takes)
    if lrTasks r ≤ gs.length then some (gs.take (lrTasks r)) else none

/-- Does the cluster hold a granule pinned to the session? -/
def State.holdsPin (s : State) (clu : Nat) (session : BitVec 32) : Bool := (s.clusterAt clu).pins.any fun e => e.2 == session

/-- Clusters that a crew of this session may use: while one that holds a pin of it can take the crew, only such; others
only when none holds a pin (R287). -/
def State.clustersFor (s : State) (die : Nat) (r : BitVec 512) : List Nat :=
  let all := (List.range 8).map fun c => 8 * die + c
  let pinned := all.filter fun c => s.holdsPin c (lrSession r)
  if lrSession r = 0 ∨ pinned = [] then all else pinned

/-- Can the die place a crew of the record now? -/
def State.canPlace (s : State) (die : Nat) (r qctx : BitVec 512) (takes : Ctx → Bool) : Bool :=
  (s.clustersFor die r).any fun c => (s.roomIn r qctx takes c).isSome

/-- Are these contexts a placement that the rules allow? -/
def State.placesOk (s : State) (die : Nat) (r qctx : BitVec 512) (takes : Ctx → Bool) (gs : List Nat) : Bool :=
  let clu := clusterOf (gs.headD 0)
  gs.length == lrTasks r && gs.dedup.length == gs.length && (s.clustersFor die r).contains clu && !(s.clusterAt clu).down &&
  gs.all (fun g => clusterOf g == clu && s.fitsCtx r qctx takes g) &&
  (!lrDet r || (List.range (lrTasks r)).all fun j => gs.getD j 0 == 64 * clu + 4 * memberOf r j + stageOf r j)

/-! Images (R283). -/

/-- Was the window last loaded from this table? -/
def State.loadImage (s : State) (v : View) (t : BitVec 512) (k : Nat) (put : State → List Byte → State)
    (last : Option (BitVec 16 × Word)) (table : BitVec 16 × Word) : State × Bool :=
  if tableLen t k = 0 || last == some table then (s, true)
  else match s.supBytes v (tableVa t k) (tableLen t k) with
    | (s1, none) => (s1, false)
    | (s1, some bs) => (put s1 bs, true)

/-- Write a scratchpad image granule by granule: granules pinned to another session are left as they are. -/
def State.putSpad (s : State) (clu : Nat) (session : BitVec 32) : Nat → Nat → List Byte → State
  | 0, _, _ => s
  | f + 1, g, bs =>
    if bs = [] then s
    else
      let pin := tabGet 0 (s.clusterAt clu).pins g
      let s1 := if pin = 0 ∨ pin = session then s.putBytes none Lay.plain (spadBase clu + 4096 * g) (bs.take 4096) else s
      State.putSpad s1 clu session f (g + 1) (bs.drop 4096)

/-- Copy the images that a task in context g needs: false where one cannot be read. -/
def State.loadImages (s : State) (r qctx : BitVec 512) (g : Nat) : State × Bool :=
  let v := supView (dieOf g) qctx
  let table := (qcAsid qctx, lrImgt r)
  match s.readTable v (lrImgt r) with
  | (s0, none) => (s0, false)
  | (s0, some t) =>
    let k := coreOf g
    let c := clusterOf g
    let d := dieOf g
    let tcm (u : State) (bs : List Byte) : State :=
      (u.putBytes none Lay.plain (tcmBase k) bs).onCore k fun x => { x with image := some table }
    let spad (u : State) (bs : List Byte) : State :=
      (u.putSpad c (lrSession r) (bs.length / 4096 + 1) 0 bs).onCluster c fun x => { x with image := some table }
    let sram (u : State) (bs : List Byte) : State :=
      (u.putBytes none Lay.plain (dsramBase d) bs).onDie d fun x => { x with image := some table }
    let a := s0.loadImage v t 0 tcm (s0.coreAt k).image table
    let b := a.1.loadImage v t 1 spad (a.1.clusterAt c).image table
    let e := b.1.loadImage v t 2 sram (b.1.dieAt d).image table
    (e.1, a.2 && b.2 && e.2)

/-- The windows that a record has an image for. -/
def State.recordImages (s : State) (die : Nat) (r qctx : BitVec 512) : BitVec 3 :=
  match (s.readTable (supView die qctx) (lrImgt r)).2 with
  | some t => tableImages t
  | none => 0

/-- The images of every context of a crew. -/
def State.loadCrew (s : State) (r qctx : BitVec 512) : List Nat → State × Bool
  | [] => (s, true)
  | g :: t =>
    match s.loadImages r qctx g with
    | (s1, true) => State.loadCrew s1 r qctx t
    | (s1, false) => (s1, false)

/-! Binding a task (R4, R286). -/

/-- The context of a task that starts. -/
def startCtx (g : Nat) (gen : BitVec 16) (l : Launch) (t : Task) : Ctx :=
  let r := l.image
  let n := g % 4
  let x2 := t.crew + t.member * 2 ^ 16 + t.stage * 2 ^ 20 + dieOf g % 4 * 2 ^ 24 + pkgOf g * 2 ^ 26
  { Ctx.reset with
    status := .bound
    gen := gen
    pc := BitVec.ofNat 64 (lrEntry r)
    vah := BitVec.ofNat 8 (lrEntry r / 2 ^ 64)
    x := ((((((Vector.replicate 32 0#64).set 1 (BitVec.ofNat 64 (recN r 9 9))).set 2 (BitVec.ofNat 64 x2)).set 3 l.dig).set 4
      0x100000000).set 5 0x200000000).set 6 0x300000000
    det := lrDet r
    detw := BitVec.ofNat 7 (lrDetw r)
    session := lrSession r
    deadln := BitVec.ofNat 64 (lrDeadline r)
    prio := BitVec.ofNat 2 (lrClass r)
    ptroot := qcRoot l.qctx
    asid := qcAsid l.qctx
    tvec := BitVec.ofNat 64 (recN l.qctx 8 8) &&& ~~~7#64
    tsp := (BitVec.ofNat 64 (recN l.qctx 16 8) + BitVec.ofNat 64 (recN l.qctx 24 4 * n)) &&& ~~~15#64
    dlwin := BitVec.ofNat 64 (recN l.qctx 32 8)
    task := some t }

/-- Take a free save record of a die's pool of an era. -/
def Die.takeSave (x : Die) (era : Nat) : Option (SaveRec × Die) :=
  (x.pool.find? fun r => r.era == era && !r.used).map fun r =>
    (r, { x with pool := x.pool.map fun q => if q.pa = r.pa then { q with used := true } else q })

/-- Bind the j-th task of the crew in hand to context g. -/
def State.bindTask (s : State) (die : Nat) (l : Launch) (images : BitVec 3) (j g : Nat) : State :=
  match (s.dieAt die).takeSave l.era with
  | none => s
  | some (rec', x) =>
    let t : Task := {
      id := s.tasks + 1
      queue := l.queue
      n := l.n
      dig := l.dig
      crew := lrCrew0 l.image + l.placed
      member := memberOf l.image j
      stage := stageOf l.image j
      save := rec'.pa
      saveVa := rec'.va
      table := (qcAsid l.qctx, lrImgt l.image)
      images := images
      began := false }
    let s1 := { s.onDie die fun _ => x with tasks := s.tasks + 1 }
    (s1.putCtx g { startCtx g (s1.ctxAt g).gen l t with charge := (s1.ctxAt g).charge }).onDie die fun y =>
      { y with launches := y.launches.map fun m =>
          if m.queue = l.queue ∧ m.n = l.n then { m with live := m.live + 1, saves := m.saves ++ [rec'.pa] } else m }

/-- Bind the tasks of a crew to their contexts, from the j-th on. -/
def State.bindTasks (s : State) (die : Nat) (l : Launch) (images : BitVec 3) : Nat → List Nat → State
  | _, [] => s
  | j, g :: t => State.bindTasks (s.bindTask die l images j g) die l images (j + 1) t

/-- Save records free in a die's pool of an era. -/
def Die.freeSaves (x : Die) (era : Nat) : Nat := (x.pool.filter fun r => r.era == era && !r.used).length

/-- Place the next crew of a fired record in the named contexts: whole, or, where an image cannot be read, not at all and
the record ends with status 0xFD. -/
def State.placeCrew (s : State) (die : Nat) (l : Launch) (gs : List Nat) : State :=
  match s.loadCrew l.image l.qctx gs with
  | (s1, false) => s1.onLaunch die l.queue l.n fun m => m.stop 0xFD
  | (s1, true) =>
    let s2 := s1.bindTasks die l (s1.recordImages die l.image l.qctx) 0 gs
    (s2.onDie die fun x => { x with
      placements := (lrClass l.image :: x.placements).take 16
      turns := if lrClass l.image = 1 then (l.queue, x.turns.2) else if lrClass l.image = 2 then (x.turns.1, l.queue)
        else x.turns }).onLaunch die l.queue l.n fun m => { m with placed := m.placed + 1 }

/-! Which crew is next (R288). -/

/-- The contexts that a crew may take: those of switched-out tasks, for a crew of class 0, or one reserved for a START, that the free
ones cannot hold (R288, R290). -/
def State.takesFor (s : State) (die : Nat) (r qctx : BitVec 512) (first : Bool) : Ctx → Bool :=
  if first && !s.canPlace die r qctx takesNone then takesOut else takesNone

def State.takesOf (s : State) (die : Nat) (l : Launch) : Ctx → Bool := s.takesFor die l.image l.qctx (lrClass l.image == 0)

/-- Queues in turn after the one served last. -/
def turnKey (last q : Nat) : Nat := (q + 16384 - last % 16384 - 1) % 16384

/-- The fired records of a class that have a crew to place, in the order the class is served. -/
def Die.candidates (x : Die) (cls : Nat) : List Launch :=
  let ls := x.launches.filter fun l => lrClass l.image == cls && decide (l.placed < lrCrews l.image)
  let key (l : Launch) : Nat :=
    if cls = 0 then
      (if lrDeadline l.image = 0 then 2 ^ 64 else lrDeadline l.image) * 16384 + l.queue
    else turnKey (if cls = 1 then x.turns.1 else x.turns.2) l.queue
  sortBy (fun a b => decide (key a ≤ key b)) ls

/-- Is the context of a task that is switched out free again? The task returns ahead of every crew (R288). -/
def State.returning (s : State) (die : Nat) : Bool :=
  (s.dieAt die).out.any fun o => (s.ctxAt o.ctx).status == .free && !s.reserved o.ctx

/-- The record whose crew the sequencer places next: the first in order that can be placed, class 2 first when none of the
last fifteen placements was of it; none while a task is to return. -/
def State.nextLaunch (s : State) (die : Nat) : Option Launch :=
  let x := s.dieAt die
  let ok (l : Launch) : Bool :=
    s.canPlace die l.image l.qctx (s.takesOf die l) && decide (lrTasks l.image ≤ x.freeSaves l.era)
  let floor := decide (15 ≤ x.placements.length) && !(x.placements.take 15).contains 2
  if s.returning die then none
  else ((if floor then x.candidates 2 else []) ++ x.candidates 0 ++ x.candidates 1 ++ x.candidates 2).find? ok

/-- A crew is placed in the named contexts, if it is the next one and may stand there. -/
def execCrewPlacement (die q crew : Nat) (places : List Nat) (s : State) : Out :=
  .next <|
    match s.nextLaunch die with
    | none => s
    | some l =>
      if l.queue == q && lrCrew0 l.image + l.placed == crew && s.placesOk die l.image l.qctx (s.takesOf die l) places
      then s.placeCrew die l places
      else s

/-! Firing (R285, R290). -/

/-- The crews reserved for a record are bound, first crew first, while save records last. -/
def State.placeReserved (s : State) (die q : Nat) (n : BitVec 32) : List (List Nat) → State
  | [] => s
  | gs :: t =>
    match (s.dieAt die).launches.find? fun l => l.queue == q && l.n == n with
    | none => s
    | some l =>
      if s.placesOk die l.image l.qctx takesOut gs && decide (gs.length ≤ (s.dieAt die).freeSaves l.era) then
        State.placeReserved (s.placeCrew die l gs) die q n t
      else s

/-- The record at the head of a queue fires: HEAD advances, its reserved crews are bound. -/
def State.fire (s : State) (die : Nat) (w : Waiting) : State :=
  let s1 := (s.dropWaiting die w.queue).advanceHead die w.queue
  if w.ended then s1.refuseRecord die w 0xFE
  else
    let l : Launch := {
      queue := w.queue
      n := w.n
      image := w.image
      qctx := w.qctx
      era := w.era
      dig := digOf die w.queue w.n w.image
      fire := (s.dieAt die).tick
      placed := 0
      live := 0
      frozen := 0
      status := 0
      saves := []
      late := w.late }
    (s1.onDie die fun x => { x with launches := x.launches ++ [l] }).placeReserved die w.queue w.n w.reserved

def execRecordFire (die q : Nat) (s : State) : Out :=
  .next <|
    match s.waitingOf die q with
    | none => s
    | some w =>
      if s.queueOpen die q && (lrStart w.image == 0 || decide (lrStart w.image ≤ (s.dieAt die).tick.toNat)) then s.fire die w
      else s

/-- Is it the time to reserve contexts for a record (R290), under the PREP it was read under? -/
def Waiting.preparing (w : Waiting) (x : Die) : Bool :=
  !w.ended && decide (x.tick.toNat < lrStart w.image) && decide (lrStart w.image ≤ x.tick.toNat + w.prep) &&
    decide (w.reserved.length < lrCrews w.image)

/-- At START - PREP contexts are reserved for the next crew of a record, and the images are copied into them. -/
def execPrepReservation (die q : Nat) (places : List Nat) (s : State) : Out :=
  .next <|
    match s.waitingOf die q with
    | none => s
    | some w =>
      let x := s.dieAt die
      if !w.preparing x || !s.queueOpen die q ||
          !s.placesOk die w.image w.qctx (s.takesFor die w.image w.qctx true) places then s
      else
        match s.loadCrew w.image w.qctx places with
        | (s1, false) => (((s1.dropWaiting die q).advanceHead die q).refuseRecord die w 0xFD)
        | (s1, true) =>
          s1.onDie die fun y => { y with waiting := y.waiting.map fun v =>
            if v.queue = q then
              { v with reserved := v.reserved ++ [places], images := s1.recordImages die w.image w.qctx }
            else v }

/-! Which task makes room (R288, R290). -/

/-- Would context g serve a crew of the record if its task were switched out? -/
def State.servesCtx (s : State) (die : Nat) (r qctx : BitVec 512) (g : Nat) : Bool :=
  let k := s.coreAt (coreOf g)
  (s.clustersFor die r).contains (clusterOf g) && !(s.clusterAt (clusterOf g)).down && !s.reserved g && !k.absent && !k.closed &&
    (!lrDet r || (decide (lrDetw r ≤ k.active) && decide (coreOf g % 16 < lrMembers r) && decide (g % 4 < lrStages r))) &&
    s.exclusive g (qcAsid qctx, lrImgt r)

/-- The task that makes room for a crew of the record: of class 2 first, then of class 1, the most recently placed first; never of
class 0. -/
def State.victimFor (s : State) (die : Nat) (r qctx : BitVec 512) : Option Nat :=
  let of (cls : BitVec 2) : List Nat := ((List.range 512).map (512 * die + ·)).filter fun g =>
    let c := s.ctxAt g
    c.status == .bound && c.prio == cls && !c.asked.preempt && s.servesCtx die r qctx g
  (s.newest (of 2)).or (s.newest (of 1))

/-- The records of crews that may take contexts, and wait for one that the die cannot hold even when those asked to leave have left:
fired ones of class 0, then one that is to be reserved for. -/
def State.cramped (s : State) (die : Nat) : Option (BitVec 512 × BitVec 512) :=
  let x := s.dieAt die
  ((((x.candidates 0).map fun l => (l.image, l.qctx)) ++
    ((x.waiting.filter fun w => w.preparing x && s.queueOpen die w.queue).map fun w => (w.image, w.qctx))).find? fun p =>
      !s.canPlace die p.1 p.2 takesLeaving)

/-- The sequencer asks for the context of a task, if it is the one to make room (R288). -/
def State.askPreempt (s : State) (g : Nat) : State :=
  match s.cramped (dieOf g) with
  | none => s
  | some p =>
    if s.victimFor (dieOf g) p.1 p.2 = some g then s.onCtx g fun c => { c with asked := { c.asked with preempt := true } } else s

/-- A victim reached no grant point within RCWIN: it is to be switched out whole, and its reclaim is over; a task of class 0 is never
displaced (R288). -/
def execRcwinExpiry (g : Nat) (s : State) : Out :=
  .next <| s.onCtx g fun c =>
    if c.status = .bound ∧ c.pend ∧ c.next.toNat < c.cap.toNat ∧ c.prio ≠ 0 then
      { c with asked := { c.asked with preempt := true }, next := c.cap, pend := false, taker := none }
    else c

/-! The end of a task (R132, R230, R289, R298). -/

/-- Does any context of a core hold a task, in it or switched out? -/
def State.coreBusy (s : State) (k : Nat) : Bool := s.tasksIn (4 * k) 4 != []

/-- The key under which the count of a core marked absent is kept, beside those of substitutions (log 48, DESIGN CHOICE). -/
def absentKey (k : Nat) : Nat := 2 ^ 40 + k

/-- A core that no task holds takes its retired lanes out of LMAP, is replaced by the spare, whose TCM starts zeroed and with no error,
or marked absent, and returns to service (R54, R271). -/
def State.settleCore (s : State) (k : Nat) : State :=
  let c := s.coreAt k
  if !c.closed || s.coreBusy k then s
  else
    let clu := k / 16
    let map := c.retiring.foldl (fun m l => m &&& ~~~(1#64 <<< l.val)) c.lmap
    let s1 := c.retiring.foldl (fun t l => t.count (k / 512) .laneRetired (laneKey k c.phys l.val) 1) s
    let c1 := { c with lmap := map, retiring := [], closed := false }
    if !c.replacing then s1.putCore k c1
    else if (s.clusterAt clu).spareUsed then
      (s1.putCore k { c1 with absent := true, replacing := false }).count (k / 512) .coreSwapped (absentKey k) 1
    else
      let s2 := (s1.putCore k { Core.reset with phys := 16 }).onCluster clu fun x => { x with spareUsed := true }
      ({ s2 with bad := tabClear s2.bad (tcmBase k) 0x100000 }.clearBytes (tcmBase k) 0x100000).count (k / 512) .coreSwapped k 1

/-- A core's errors are lasting: counted, and it takes no new task and is replaced once it holds none (R271, R340, R341). -/
def State.coreFails (s : State) (k : Nat) : State :=
  let c := s.coreAt k
  let s1 := if c.replacing || c.absent then s else s.countError .lasting (.core k)
  if c.absent then s1 else (s1.putCore k { c with closed := true, replacing := true }).settleCore k

/-- Context g, whose task has ended, becomes FREE: lanes return, its generation advances, its record counts the end. -/
def State.freeCtx (s : State) (g : Nat) (frozen : Bool) (f : Launch → Launch) : State :=
  let c := s.ctxAt g
  let s1 := s.returnLanes g
  let s2 := s1.putCtx g { Ctx.reset with gen := c.gen + 1, charge := c.charge }
  let s3 := match c.task with
    | none => s2
    | some t => s2.onLaunch (dieOf g) t.queue t.n fun l =>
        { f l with live := l.live - 1, frozen := l.frozen + frozen.toNat }
  s3.settleCore (coreOf g)

/-- A task of a drained context ends once its engine commands have completed: held stores are performed, the open assay
closes, the context is FREE (R132, R325). -/
def execTaskEnd (s : State) : Out :=
  .next <| if s.c.status = .drain ∧ s.allCmds s.here = [] then (s.releaseAll s.here).freeCtx s.here false id else s

/-- Matrix state of context g is let go, the tiles left as they are (R230). -/
def State.freeMatrix (s : State) (g : Nat) : State :=
  s.onCore (coreOf g) fun k => if k.owner = some (Fin.ofNat 4 g) then { k with owner := none } else k

/-- Write the save record of context g. -/
def State.saveCtx (s : State) (g : Nat) (frozen : Bool) : State :=
  match (s.ctxAt g).task with
  | none => s
  | some t =>
    let h := s.here
    ((s.focus g).save t.save frozen).focus h

/-- The supervisor ends the task of context g: switched out, its held stores performed, the context freed. -/
def State.killCtx (s : State) (g : Nat) (frozen : Bool) (f : Launch → Launch) : State :=
  (((s.saveCtx g frozen).releaseAll g).freeMatrix g).freeCtx g frozen f

/-- A frozen task ends (R230). -/
def execEndFrozenTask (g : Nat) (s : State) : Out :=
  .next <| if (s.ctxAt g).status = .frozen then s.killCtx g true id else s

/-- A task that is switched out ends: the stores its record holds are performed. -/
def State.killOut (s : State) (die : Nat) (o : OutTask) (f : Launch → Launch) : State :=
  let r := s.readLines o
  let s1 := r.2.foldl (fun t l => t.release o.ctx l) r.1
  let s2 := s1.onDie die fun x => { x with out := x.out.filter (·.task.id != o.task.id) }
  let s3 := if (s2.ctxAt o.ctx).status = .out then s2.onCtx o.ctx fun c => { Ctx.reset with gen := c.gen + 1, charge := c.charge } else s2
  let s4 := if (s3.ctxAt o.ctx).task.isNone then s3.freeMatrix o.ctx else s3
  (s4.onLaunch die o.task.queue o.task.n fun l => { f l with live := l.live - 1 }).settleCore (coreOf o.ctx)

/-- Contexts of a range whose task p picks, and which the supervisor may free. -/
def State.victims (s : State) (lo n : Nat) (p : Task → Bool) : List Nat :=
  ((List.range n).map (lo + ·)).filter fun g =>
    ((s.ctxAt g).status == .bound || (s.ctxAt g).status == .frozen) && (s.ctxAt g).task.any p

/-- End every task of a range that p picks, bound, frozen or switched out. -/
def State.killTasks (s : State) (lo n : Nat) (p : Task → Bool) (f : Launch → Launch) : State :=
  let die := dieOf lo
  let s1 := (s.victims lo n p).foldl (fun t g => t.killCtx g ((t.ctxAt g).status == .frozen) f) s
  ((s1.dieAt die).out.filter fun o => p o.task && decide (lo ≤ o.ctx) && decide (o.ctx < lo + n)).foldl
    (fun t o => t.killOut die o f) s1

end Sys2Proof.Machine
end

