-- ==== Sys2Proof/Machine/Supervisor.lean ====
section
/-! DEFINITION. The die supervisor and the management channel (R54, R259, R271, R272, R298, R299, R333), the errors that
arrive from outside (R340), the element-progress timer (R231) and the delivery of watch events (R233). -/

namespace Sys2Proof.Machine

/-! Management messages (R333). -/

/-- A management message: it takes effect where the package has come up and its link is up, and is acknowledged. -/
def State.managed (s : State) (pkg : Nat) (act : State) : State :=
  if (s.pkgAt pkg).boot = .running ∧ (s.pkgAt pkg).linkUp then act.tell .ack else s

/-- A queue context whose ROOT, RING or CRING names another package (R278). -/
def badQueueContext (pkg : Nat) (q : BitVec 512) : Bool :=
  recN q 0 8 % 2 ^ 52 / 2 ^ 46 != pkg || recN q 48 8 % 2 ^ 52 / 2 ^ 46 != pkg || recN q 56 8 % 2 ^ 52 / 2 ^ 46 != pkg

/-- The die a setting is for. -/
def settingDie : Setting → Nat
  | .queue d _ _ | .prep d _ | .rcwin d _ | .savePool d _ => d

/-- A new save pool: records read before keep the old one, a save record in use stays in use (R298). -/
def Die.setPool (x : Die) (recs : List (Nat × Nat)) : Die :=
  let eras := x.waiting.map (·.era) ++ x.launches.map (·.era)
  { x with
    era := x.era + 1
    pool := (x.pool.filter fun r => eras.contains r.era) ++
      recs.map fun r => ⟨r.1, r.2, x.launches.any fun l => l.saves.contains r.1, x.era + 1⟩ }

/-- What a setting changes. -/
def State.configure (s : State) (m : Setting) : State :=
  match m with
  | .queue d q image => s.setQueue d q { s.queueAt d q with set := true, image := image }
  | .prep d ns => s.onDie d fun x => { x with prep := ns }
  | .rcwin d n => s.onDie d fun x => { x with rcwin := n }
  | .savePool d recs => s.onDie d fun x => x.setPool recs

def execConfigure (m : Setting) (s : State) : Out :=
  .next <|
    let pkg := settingDie m / 4
    let refused := match m with
      | .queue _ _ image => badQueueContext pkg image
      | _ => false
    if refused then (if (s.pkgAt pkg).boot = .running ∧ (s.pkgAt pkg).linkUp then s.tell .refused else s)
    else s.managed pkg (s.configure m)

/-! Services (R298). -/

/-- This machine caches no translation, so there is none to discard (R201). -/
def execInvalidateTranslations (die : Nat) (_asid : Option (BitVec 16)) (_lo _hi : Nat) (s : State) : Out :=
  .next (s.managed (die / 4) s)

/-- Every granule of the die pinned to the session is unpinned. -/
def State.unpin (s : State) (die : Nat) (session : BitVec 32) : State :=
  (List.range 8).foldl (fun t c =>
    t.onCluster (8 * die + c) fun x => { x with pins := x.pins.filter fun e => e.2 != session }) s

def execReleaseSession (die : Nat) (session : BitVec 32) (s : State) : Out :=
  .next (s.managed (die / 4) (s.unpin die session))

/-- COLL commands of a die whose task p picks, and which wait, end with a code (R352). -/
def State.endColl (s : State) (die : Nat) (p : Cmd → Bool) (code : Nat) : State :=
  ((s.dieAt die).coll.filter fun c => c.result.isNone && p c).foldl
    (fun t c => t.finishCmd .coll c ⟨statusWord 0 code, []⟩) s

/-- Every task of a dig on a die is ended; its records complete with status 0xFE. -/
def State.endDig (s : State) (die : Nat) (dig : Word) : State :=
  let ids := ((s.tasksIn (512 * die) 512).filter (·.dig == dig)).map (·.id)
  let s1 := s.endColl die (fun c => ids.contains c.task) 8
  let s2 := s1.onDie die fun x => { x with waiting := x.waiting.map fun w =>
    if (digOf die w.queue w.n w.image) = dig then { w with ended := true, reserved := [] } else w }
  let s3 := ((s2.dieAt die).launches.filter (·.dig == dig)).foldl
    (fun t l => t.onLaunch die l.queue l.n fun m => m.stop 0xFE) s2
  s3.killTasks (512 * die) 512 (fun t => t.dig == dig) fun l => l.stop 0xFE

def execEndDig (die : Nat) (dig : Word) (s : State) : Out := .next (s.managed (die / 4) (s.endDig die dig))

/-- A lane's errors are lasting: the core takes no new task, and loses the lane once it holds none (R54). -/
def execLaneRetirement (core : Nat) (lane : Fin 64) (s : State) : Out :=
  .next <|
    let k := s.coreAt core
    if k.lmap.getLsbD lane.val && !k.retiring.contains lane then
      (s.putCore core { k with closed := true, retiring := k.retiring ++ [lane] }).settleCore core
    else s.settleCore core

/-- A core's errors are lasting: it takes no new task, and is replaced once it holds none (R271). -/
def execCoreSubstitution (core : Nat) (s : State) : Out := .next (s.coreFails core)

/-! Failures of a cluster and of a die (R272, R299). -/

/-- A record whose tasks a failure ended has status 0xFF. -/
def Launch.hurt (l : Launch) : Launch := { l with status := if l.status = 0 then 0xFF else l.status }

/-- The records of tasks that have halted and not yet ended in contexts lo .. lo + n - 1 take status 0xFF. -/
def State.hurtDraining (s : State) (lo n : Nat) : State :=
  (List.range n).foldl (fun t j =>
    let c := t.ctxAt (lo + j)
    match c.status, c.task with
    | .drain, some k => t.onLaunch (dieOf lo) k.queue k.n Launch.hurt
    | _, _ => t) s

/-- A cluster leaves service: its tasks end with status 0xFF, its pins and hallmarks are lost. -/
def State.clusterFails (s : State) (clu : Nat) : State :=
  let s1 := s.onCluster clu fun x => { x with down := true, pins := [], hall := [], hallBad := [] }
  ((s1.count (clu / 32) .clusterDown clu 1).hurtDraining (64 * clu) 64).killTasks (64 * clu) 64 (fun _ => true) Launch.hurt

/-- Context g of a die that has failed holds nothing any more. -/
def State.dropCtx (s : State) (g : Nat) : State :=
  if (s.ctxAt g).status = .free then s
  else (s.freeMatrix g).onCtx g fun c => { Ctx.reset with gen := c.gen + 1, charge := c.charge }

/-- A die leaves service: it and its HBM region are gone, every task ends, its fired records complete with 0xFF, its
engines hold nothing, and collectives that name it end with CODE 7 elsewhere (R299, R302, R353). -/
def State.dieFails (s : State) (die : Nat) : State :=
  if (s.dieAt die).down then s
  else
    let ls := (s.dieAt die).launches
    let s1 := s.onDie die fun x =>
      { x with down := true, waiting := [], launches := [], out := [], dcopy := [], enc := [], seam := [], micro := [], coll := [],
               disp := [], strays := [], requests := [], pool := x.pool.map fun r => { r with used := false } }
    let s2 := (List.range 512).foldl (fun t j => t.dropCtx (512 * die + j)) s1
    let s3 := (List.range 8).foldl (fun t c => t.onCluster (8 * die + c) fun x => { x with ccopy := [] }) s2
    let s4 := ls.foldl (fun t l =>
      t.completionRecord die l.n l.image l.qctx l.dig l.fire (if l.status = 0 then 0xFF else l.status) l.late l.frozen) s3
    let s5 := (s4.dies.map (·.1)).foldl (fun t d =>
      t.endColl d (fun c => c.started && (c.table.map tableDie).contains die) 7) s4
    (s5.count (die / 4) .dieDown die 1).tell (.dieDown die)

def execDieLeavesService (die : Nat) (s : State) : Out := .next (s.dieFails die)

/-! Errors from outside (R53, R154, R256, R272, R299, R340). -/

/-- A copy engine or an encoder leaves service: what it had begun ends as the others take it over (R299). -/
def State.engineFails (s : State) : Cls → Nat → State
  | .dcopy, n => s.onDie (n / 4) fun x => { x with copyLost := x.copyLost ||| (1#4 <<< (n % 4)) }
  | .enc, n => s.onDie (n / 2) fun x => { x with encDown := x.encDown ||| (if n % 2 = 0 then 1 else 2) }
  | _, _ => s

/-- Does an error stand at this tile element? -/
def BadTile.isAt (t : TReg) (row col : Fin 64) (b : BadTile) : Bool := b.tile == t && b.row == row && b.col == col

/-- Does an error stand at this register-slice entry? -/
def BadSlice.isAt (r : VReg) (lane : Fin 64) (b : BadSlice) : Bool := b.reg == r && b.lane == lane

/-- An error arrives. -/
def State.upset (s : State) : Upset → State
  | .corrected u => s.countError .corrected u
  | .memory pa reads =>
    let u := Machine.unitOf pa
    if (s.place pa).isMem then s.setBad u { s.badAt u with left := reads } else s
  | .slice g r lane reads => s.onCtx g fun c =>
      if c.vbad.any (BadSlice.isAt r lane) then
        { c with vbad := c.vbad.map fun b => if b.isAt r lane then { b with bad := { b.bad with left := reads } } else b }
      else { c with vbad := ⟨r, lane, { Bad.clean with left := reads }⟩ :: c.vbad }
  | .tile k t row col reads => s.onCore k fun x =>
      if x.tbad.any (BadTile.isAt t row col) then
        { x with tbad := x.tbad.map fun b => if b.isAt t row col then { b with bad := { b.bad with left := reads } } else b }
      else { x with tbad := ⟨t, row, col, { Bad.clean with left := reads }⟩ :: x.tbad }
  | .hallmark clu g reads => s.onCluster clu fun x =>
      { x with hallBad := tabSet Bad.clean x.hallBad g { tabGet Bad.clean x.hallBad g with left := reads } }
  | .claspState clu => s.clusterFails clu
  | .core n fails => if fails then s.coreFails n else s.countError .transient (.core n)
  | .engine cls n fails =>
    if fails then (s.engineFails cls n).countError .lasting (.engine cls n) else s.countError .transient (.engine cls n)

/-- The supervisor reads again, 1 ms after an error, what no read has reached since (R340). -/
def State.reread (s : State) : Location → State
  | .memory pa =>
    let u := Machine.unitOf pa
    match (s.badAt u).erred with
    | some lay => ((s.wake lay u 1).readUnit lay u).1
    | none => s
  | .slice g r lane => ((s.focus g).readEntriesIf fun b => b.isAt r lane && b.bad.erred.isSome).focus s.here
  | .tile k t row col => ((s.focus (4 * k)).readTiles fun b => b.isAt t row col && b.bad.erred.isSome).1.focus s.here
  | .hallmark clu g => if (s.hallError clu g).erred.isSome then (s.readHall clu g).1 else s

def execSupervisorReread (a : Location) (s : State) : Out := .next (s.reread a)

/-! The element-progress timer (R231). -/

/-- The code of a queue in TINFO (R226). -/
def queueUnit : Fin 8 → Option (Queue × Where)
  | 1 => some (.vq, .vq)
  | 2 => some (.lq, .lq)
  | 3 => some (.mq, .mq)
  | 4 => some (.aq, .aq)
  | _ => none

/-- The wait of a clasp, which the timer does not watch (R261). -/
def Ctx.awaitsClasp (c : Ctx) : Bool :=
  match c.wait with
  | .clasp _ _ _ => true
  | _ => false

/-- Has the timer of a context reached its limit? -/
def Ctx.overdue (c : Ctx) : Bool :=
  c.status == .bound && !c.held && !c.awaitsClasp && c.eptlim != 0 && decide (c.eptlim.toNat * 1024 ≤ c.ept)

/-- Has the timer of the context in hand reached its limit over an instruction in this queue? -/
def State.stalled (s : State) (q : Queue) : Bool := s.c.overdue && !s.c.queues.isEmpty q

/-- The address and the element that an instruction stalls at, where its operands give them: one whose only access is at an address of
its registers, and one that makes no access; of every other the row has them (R227, R231). -/
def State.stallOf (s : State) (p : Stall) : Instr → Word × Option (BitVec 3 × BitVec 13)
  | .ld8 _ ra b | .ld16 _ ra b | .ld32 _ ra b | .ld64 _ ra b | .ldz8 _ ra b | .ldz16 _ ra b | .ldz32 _ ra b
  | .st8 _ ra b | .st16 _ ra b | .st32 _ ra b | .st64 _ ra b => (s.rx ra + s.xsrc b, some (0, 0))
  | .amoAdd o | .amoAnd o | .amoOr o | .amoXor o | .amoMin o | .amoMax o | .amoSwap o | .amoCas o => (s.rx o.ra, some (0, 0))
  | .dld _ xa | .dst _ xa | .hmset _ xa | .hmchk _ xa | .spclaim _ xa _ | .sprel xa _ => (s.rx xa, some (0, 0))
  | .fence _ | .lsync | .xfence _ _ _ | .vfence | .bfence _ _ | .clasp _ | .claspa _ _ | .asyopen _ | .asyclose _
  | .mxon | .mxoff | .mxz _ _ | .mxpred _ _ | .mxrd _ _ _ _ | .mxwr _ _ _ _ | .plmarg _ _ | .bal _ | .plcost _ _ | .plscl _ _
  | .dset _ _ _ _ | .dget _ _ _ _ => (0, some (BitVec.ofNat 3 p.reg.val, p.idx))
  | i => (if queueOf i = .vq then 0 else p.va, some (BitVec.ofNat 3 p.reg.val, p.idx))

/-- PROGRESS at I, the instruction at the PC (R227, R231). -/
def State.raiseProgress (s : State) (u : Where) (p : Stall) : State :=
  let t := State.stopped { s with c := { s.c with asked := { s.c.asked with progress := some p } } }
  let at_ := (t.atPc.2.map (t.stallOf p)).getD (p.va, none)
  t.pointAt.1.raise { stallTrap p with unit := u, point := t.pointAt.2, addr := at_.1, elem := at_.2 }

/-- The timer reaches its limit: PROGRESS is due. It is taken at once, or as soon as the context is in task mode with no
fixed-latency result pending, whatever instruction I then is (R109, R223); a vector memory instruction that is stalled first
records what it has not performed, as its next step (R231). -/
def execProgress (p : Stall) (s : State) : Out :=
  .next <|
    let due := s.c.asked.progress.getD p
    match queueUnit due.queue with
    | none => s
    | some (q, u) =>
      if s.c.asked.progress = none ∧ s.stalled q = false then s
      else if s.keepsProgress then { s with c := { s.c with asked := { s.c.asked with progress := some due } } }
      else s.raiseProgress u due

/-! Watch events (R233). -/

/-- The watch record of an event. -/
def WatchEvent.record (e : WatchEvent) (lost : BitVec 32) : List Byte :=
  leBytes 8 e.pa ++ [e.cls] ++ leBytes 2 e.agent.toNat ++ [e.kind] ++ leBytes 4 lost.toNat ++ leBytes 48 0

/-- The pending event of the context in hand is delivered, a PROGRESS that is due first (R223). -/
def execWatchEventDelivery (s : State) : Out :=
  .next <|
    match s.c.event with
    | none => s
    | some e =>
      if !s.c.interruptible || s.c.held || s.c.asked.progress.isSome then s
      else
        let t := { s with c := { s.c with event := none, lost := 0 } }
        t.pointAt.1.raise
          { cause := .watch, detail := e.detail.zeroExtend 56 <<< 52, addr := BitVec.ofNat 64 e.start, unit := .agent,
            async := true, point := t.pointAt.2, record := e.record s.c.lost }

/-! Page answers (R212, R332). -/

/-- The host's answer for context g: matched, it ends the hold or raises HPAGE, at once or when the task next stands in
its context; any other is dropped and counted. -/
def State.pageAnswer (s : State) (g : Nat) (gen : BitVec 16) (fail : Bool) (refused : BitVec 16) : State :=
  let die := dieOf g
  let open_ := s.dies.any fun d => d.2.requests.any fun r => r.ctx == g && r.gen == gen
  let s1 := { s with dies := tabMap Die.reset (fun x =>
    { x with requests := x.requests.filter fun r => !(r.ctx == g && r.gen == gen) }) s.dies }
  let a := some (fail || refused != 0, refused)
  let c := s1.ctxAt g
  if open_ && c.gen == gen && (c.asking || c.held) && (c.status == .bound || c.status == .frozen || c.status == .drain) then
    let h := s1.here
    let t := s1.onCtx g fun c => { c with answer := a }
    if c.status = .bound ∧ c.held then ((t.focus g).takeAnswer).focus h else t
  else if open_ && c.gen == gen && c.status == .out then
    s1.onDie die fun x => { x with out := x.out.map fun o => if o.ctx = g ∧ o.gen = gen then { o with answer := a } else o }
  else
    (s1.onDie die fun x => { x with lateans := if x.lateans = BitVec.allOnes 32 then x.lateans else x.lateans + 1 }).count
      (die / 4) .lateAnswer die 1

def execPageAnswer (g : Nat) (gen : BitVec 16) (fail : Bool) (refused : BitVec 16) (s : State) : Out :=
  .next (if (s.pkgAt (pkgOf g)).linkUp then s.pageAnswer g gen fail refused else s)

/-! Writes of registers by an agent, as steps of their own (R257, R279, R303, R324, R330). -/

def execDoorbell (die q : Nat) (v : Word) (s : State) : Out := .next (if q < 16384 then s.ring die q v else s)

/-- The context in hand writes its die's page-request port. -/
def execPgreq (v : Word) (s : State) : Out := .next ((s.requestPage s.die v).getD s)

def execAsyclr (die : Nat) (v : Word) (s : State) : Out := .next (s.asyclr die v)

def execClaspTargetWrite (p : ClaspAt) (v : Word) (s : State) : Out := .next (s.putClasp p ((s.claspAt p).setTarget v))

def execRegisterWrite (pa : Nat) (v : Word) (s : State) : Out := .next (s.registerWrite (s.place pa) v)

end Sys2Proof.Machine
end

