-- ==== Sys2Proof/Machine/Package.lean ====
section
/-! DEFINITION. The package (R307, R308, R329 to R341): the host link, firmware and bring-up, power and cooling, links that
retrain, the lifetime histograms, and the HBM controllers. -/

namespace Sys2Proof.Machine

/-! The host link (R329, R332). -/

/-- The host's link works and the package has come up. -/
def State.hostOpen (s : State) (pkg : Nat) : Bool := (s.pkgAt pkg).boot == .running && (s.pkgAt pkg).linkUp

def hostAgent : Agent := ⟨none, .host, 0, none, 7, 0⟩

/-- Bytes from outside reach memory at physical addresses, 4 KiB at a time; where nothing is, nothing is written. -/
def State.outerWrite (s : State) (a : Agent) (lay : Lay) : Nat → Nat → List Byte → State
  | 0, _, _ => s
  | f + 1, pa, bs =>
    if bs = [] then s
    else
      let m := 4096 - pa % 4096
      let s1 := if (s.place pa).isMem then s.write a lay pa (bs.take m) else s
      State.outerWrite s1 a lay f (pa + m) (bs.drop m)

/-- Does every granule of n bytes from pa hold memory? -/
def State.allMem (s : State) : Nat → Nat → Nat → Bool
  | 0, _, _ => true
  | f + 1, pa, n => n == 0 || ((s.place pa).isMem && State.allMem s f (pa + (4096 - pa % 4096)) (n - (4096 - pa % 4096)))

/-- A host write: memory, or a doorbell. -/
def execHostWrite (pa : Nat) (bs : List Byte) (s : State) : Out :=
  .next <|
    if !s.hostOpen (pa / 2 ^ 46) then s
    else match s.place pa with
      | .doorbell d q => if bs.length = 8 ∧ pa % 8 = 0 then s.ring d q (BitVec.ofNat 64 (leNat bs)) else s
      | _ => s.outerWrite hostAgent Lay.plain (bs.length / 4096 + 2) pa bs

/-- Bytes that a read from outside returns: none where nothing is, or an uncorrectable error stands. -/
def State.outerRead (s : State) (lay : Lay) (pa n : Nat) : State × Except Nat (List Byte) :=
  if !s.allMem (n / 4096 + 2) pa n then (s, .error 3)
  else match s.checkRead lay pa n with
    | (t, some _) => (t, .error 4)
    | (t, none) => (t, .ok (t.bytesAt lay.raw pa n))

def execHostRead (pa n : Nat) (s : State) : Out :=
  .next <|
    if !s.hostOpen (pa / 2 ^ 46) then s
    else match s.outerRead Lay.plain pa n with
      | (t, .ok bs) => t.tell (.readData bs)
      | (t, .error _) => t.tell .readFailed

def execHostLinkDown (pkg : Nat) (s : State) : Out := .next (s.onPkg pkg fun p => { p with linkUp := false })

/-- The requests that waited for the link are sent. -/
def State.sendRequests (s : State) (die : Nat) : State :=
  ((s.dieAt die).requests.filter (·.waiting)).foldl
    (fun t r => t.tell (.pageRequest r.ctx r.gen r.asid r.root r.entries))
    (s.onDie die fun x => { x with requests := x.requests.map fun r => { r with waiting := false } })

def execHostLinkUp (pkg : Nat) (s : State) : Out :=
  .next ((List.range 4).foldl (fun t d => t.sendRequests (4 * pkg + d)) (s.onPkg pkg fun p => { p with linkUp := true }))

/-! Bring-up and trust (R336 to R338). -/

/-- An image is accepted (R337). -/
def imageOk (pkg : Nat) (i : Firmware) : Bool :=
  Config.ecdsaOk i && Config.lmsOk i && decide (Config.fusedVersion pkg ≤ i.version)

/-- Root of trust, four dies, HBM, time and Ethernet. -/
def firmwareTargets : List Nat := [0, 1, 2, 3, 4, 5, 6]

/-- Drop the entries of a table that belong to a package, n keys to a package. -/
def dropPkg {α : Type} (n pkg : Nat) (t : Tab α) : Tab α := t.filter fun e => e.1 / n != pkg

/-- The core as the histograms say: replaced by the spare, absent, without its retired lanes (R54, R271, R336). -/
def coreFromHist (hist : Tab Nat) (core : Nat) : Core :=
  let phys := if tabGet 0 hist (countKey .coreSwapped core) = 0 then 0 else 16
  let lost := (List.range 64).filter fun l => tabGet 0 hist (countKey .laneRetired (laneKey core phys l)) != 0
  { Core.reset with
    phys := phys
    absent := tabGet 0 hist (countKey .coreSwapped (absentKey core)) != 0
    lmap := lost.foldl (fun m l => m &&& ~~~(1#64 <<< l)) (BitVec.allOnes 64) }

/-- Cores of package pkg that its histograms name. -/
def histCores (pkg : Nat) (hist : Tab Nat) : List Nat :=
  ((hist.filterMap fun e =>
    let u := e.1 % 2 ^ 60
    if e.1 / 2 ^ 60 = Count.code .laneRetired then some (u / 2048)
    else if e.1 / 2 ^ 60 = Count.code .coreSwapped then some (u % absentKey 0)
    else if e.1 / 2 ^ 60 = Count.code .lasting ∧ u / 2 ^ 52 = 1 then some (u - 2 ^ 52) else none).filter (· / 512 == pkg)).dedup

/-- Cores of package pkg whose lasting errors are recorded, and neither a substitution nor an absence for them yet (R271, R341). -/
def unreplaced (pkg : Nat) (hist : Tab Nat) : List Nat :=
  (histCores pkg hist).filter fun n =>
    tabGet 0 hist (countKey .coreSwapped n) + tabGet 0 hist (countKey .coreSwapped (absentKey n)) <
      tabGet 0 hist (countKey .lasting (ErrUnit.core n).key)

/-- The row of a protected unit whose error was found under lay: a row of a bank of HBM (R304), or a row group of SRAM or TCM
(log 48, DESIGN CHOICE). -/
def rowOf (lay : Lay) (u : Nat) : Nat × Nat × Nat :=
  if inHbm u then
    let b := bankAt lay (u / 128)
    (b.1, b.2, u % 2 ^ 46 % Config.dieRegion / 128 / 12288 / 8)
  else (u / 2 ^ 46, u % 2 ^ 46 / 2 ^ 16, 0)

/-- The rows that bring-up repairs: those with a unit whose error is lasting and counted as such in the flash (R336, step 3). -/
def State.lastingRows (s : State) (pkg : Nat) : List (Nat × Nat × Nat) :=
  (s.bad.filter fun e => e.1 / 2 ^ 46 == pkg && e.2.lasting).filterMap fun e =>
    let lay := e.2.erred.getD Lay.plain
    if tabGet 0 (s.pkgAt pkg).hist (countKey .lasting (errUnitAt lay e.1).key) = 0 then none else some (rowOf lay e.1)

/-- The errors of a package after its rows are repaired and its memory is cleared, which writes every unit whole. -/
def State.repair (s : State) (pkg : Nat) : Tab Bad :=
  let rows := s.lastingRows pkg
  (s.bad.map fun e => if e.1 / 2 ^ 46 = pkg then (e.1, { e.2 with poison := false }) else e).filter fun e =>
    e.2 != Bad.clean && !(e.1 / 2 ^ 46 == pkg && rows.contains (rowOf (e.2.erred.getD Lay.plain) e.1))

/-- Everything of a package but its flash is cleared (R336, steps 3 to 5): its memory reads zero under tags 0, and rows that
the histograms record as lasting are repaired. -/
def State.clearPkg (s : State) (pkg : Nat) : State :=
  let hist := (s.pkgAt pkg).hist
  let mine := pkgOf s.here == pkg
  let here := coreOf s.here
  { s with
    c := if mine then Ctx.reset else s.c
    k := if mine then coreFromHist hist here else s.k
    ctxs := dropPkg 2048 pkg s.ctxs
    cores := ((histCores pkg hist).filter (· != here)).foldl (fun t n => tabSet Core.reset t n (coreFromHist hist n))
      (dropPkg 512 pkg s.cores)
    clusters := ((histCores pkg hist).filter fun n => tabGet 0 hist (countKey .coreSwapped n) != 0).foldl
      (fun t n => tabSet Cluster.reset t (n / 16) { tabGet Cluster.reset t (n / 16) with spareUsed := true })
      (dropPkg 32 pkg s.clusters)
    dies := dropPkg 4 pkg s.dies
    mem := dropPkg (2 ^ 46) pkg s.mem
    tags := dropPkg (2 ^ 39) pkg s.tags
    unencoded := dropPkg (2 ^ 41) pkg s.unencoded
    bad := s.repair pkg
    assay := dropPkg (12 * 256) pkg s.assay
    chans := dropPkg (12 * 64) pkg s.chans }

/-- What the verified time and Ethernet firmware configures: the domain map, of at most 64 packages, and the IEEE 1588 domain
number (R343, R346). -/
def Pkg.configured (p : Pkg) (i : Firmware) : Pkg :=
  if i.target = 6 then { p with map := i.map.take Config.maxPackages, ptpDomain := i.ptpDomain } else p

/-- The package comes up with the verified images it has, and its domain map; the spare cores are mapped, and the dies that fail steps
2 to 5 are out of service (R336, R343, R349; log 17, DEDUCED). -/
def State.bringUp (s : State) (pkg : Nat) (images : List (Nat × BitVec 384)) (failed : BitVec 4) : State :=
  let t := (s.clearPkg pkg).onPkg pkg fun p =>
    { Pkg.reset with boot := .running, images := images, hist := p.hist, since := p.since, modules := p.modules,
                     linkUp := p.linkUp, map := p.map, ptpDomain := p.ptpDomain }
  let t1 := (unreplaced pkg (t.pkgAt pkg).hist).foldl
    (fun u n => (u.onCore n fun k => { k with closed := true, replacing := true }).settleCore n) t
  ((List.range 4).filter fun d => failed.getLsbD d).foldl (fun u d => u.onDie (4 * pkg + d) fun x => { x with down := true }) t1

/-- The images that verify, by target. -/
def verified (pkg : Nat) (imgs : List Firmware) : List (Nat × BitVec 384) :=
  (imgs.filter (imageOk pkg)).map fun i => (i.target, i.digest)

def allTargets (images : List (Nat × BitVec 384)) : Bool := firmwareTargets.all fun t => images.any (·.1 == t)

/-- Bring-up verifies every image; with any rejected the package stays in recovery mode (R336, R337). -/
def execBoot (pkg : Nat) (b : BringUp (List Firmware)) (s : State) : Out :=
  .next <|
    let imgs := b.images
    if (s.pkgAt pkg).boot = .running then s
    else
      let v := verified pkg imgs
      let t := s.onPkg pkg fun p => (imgs.filter (imageOk pkg)).foldl Pkg.configured p
      if imgs.all (imageOk pkg) && allTargets v then t.bringUp pkg v b.failed
      else t.onPkg pkg fun p => { p with boot := .recovery, images := v }

/-- New firmware is loaded: verified or refused. In recovery mode it takes its target's place, and with the last one in
place the package comes up (R337, log 17, DEDUCED). -/
def execLoadFirmware (pkg : Nat) (b : BringUp Firmware) (s : State) : Out :=
  .next <|
    let img := b.images
    let p := s.pkgAt pkg
    if p.boot = .off ∨ !p.linkUp then s
    else if !imageOk pkg img then s.tell .refused
    else if p.boot = .running then s.tell .ack
    else
      let v := p.images.filter (·.1 != img.target) ++ [(img.target, img.digest)]
      let t := s.onPkg pkg fun p => p.configured img
      (if allTargets v then t.bringUp pkg v b.failed else t.onPkg pkg fun p => { p with images := v }).tell .ack

/-- An SPDM request is answered by a package whose root of trust runs, in recovery mode too. -/
def State.spdm (s : State) (pkg : Nat) (m : HostMsg) : State :=
  if (s.pkgAt pkg).boot ≠ .off ∧ (s.pkgAt pkg).linkUp then s.tell m else s

def execGetVersion (pkg : Nat) (s : State) : Out := .next (s.spdm pkg (.version 1 3))
def execGetCapabilities (pkg : Nat) (s : State) : Out := .next (s.spdm pkg .capabilities)
def execNegotiateAlgorithms (pkg : Nat) (s : State) : Out := .next (s.spdm pkg (.algorithms [.ecdsaP384, .sha384]))

/-- One block for each verified image and one for the fused configuration, signed (R338). -/
def execGetMeasurements (pkg : Nat) (s : State) : Out :=
  let blocks := (s.pkgAt pkg).images.map (·.2) ++ [Config.fusedDigest pkg]
  .next (s.spdm pkg (.measurements pkg blocks (Config.signMeasurements pkg blocks)))

/-- Power fails: everything but the flash is gone (R341). -/
def execPowerFailure (pkg : Nat) (s : State) : Out :=
  .next ((s.clearPkg pkg).onPkg pkg fun p => { Pkg.reset with hist := p.hist, modules := p.modules, linkUp := p.linkUp })

/-! Power and cooling (R339). -/

def execSetPlimit (pkg watts : Nat) (s : State) : Out :=
  .next <|
    if 1500 ≤ watts ∧ watts ≤ 3200 then s.managed pkg (s.onPkg pkg fun p => { p with plimit := watts })
    else if s.hostOpen pkg then s.tell .refused else s

/-- Change the throttle level of every die of a package. -/
def State.throttle (s : State) (pkg : Nat) (f : Fin 8 → Fin 8) : State :=
  (List.range 4).foldl (fun t d => t.onDie (4 * pkg + d) fun x => { x with throttle := f x.throttle }) s

/-- Every die of a package leaves service. -/
def State.shutDown (s : State) (pkg : Nat) : State := (List.range 4).foldl (fun t d => t.dieFails (4 * pkg + d)) s

/-- The 5-degree bin of a junction temperature, from 20 to 125 (R341). -/
def junctionBin (temp : Nat) : Nat := (min (max temp 20) 124 - 20) / 5

/-- Another 10 us of a count kept in seconds. -/
def State.tickSecond (s : State) (pkg : Nat) (c : Count) (u : Nat) : State :=
  let n := tabGet 0 (s.pkgAt pkg).ticks (countKey c u) + 1
  let t := s.onPkg pkg fun p => { p with ticks := tabSet 0 p.ticks (countKey c u) (n % 100000) }
  if n = 100000 then t.count pkg c u 1 else t

/-- The counts of a die's junction temperature and throttle level. -/
def State.gauge (s : State) (pkg d temp : Nat) : State :=
  let die := 4 * pkg + d
  (s.tickSecond pkg .junction (32 * die + junctionBin temp)).tickSecond pkg .throttleTime (8 * die + (s.dieAt die).throttle.val)

/-- One comparison of the power controller: power in W averaged over 1 ms, and the hottest junction of each die. -/
def State.powerTick (s : State) (pkg watts : Nat) (temps : List Nat) : State :=
  let s := (List.range 4).foldl (fun t d => t.gauge pkg d (temps.getD d 0)) s
  let p := s.pkgAt pkg
  let high := decide (p.plimit < watts) || temps.any fun t => decide (100 < t)
  let under := decide (watts * 100 < 95 * p.plimit) && temps.all fun t => decide (t < 95)
  let hot := decide (3200 < watts) && (s.dieAt (4 * pkg)).throttle == 7
  let o := if high then p.overTime + 10 else 0
  let u := if under then p.underTime + 10 else 0
  let h := if hot then p.hotTime + 10 else 0
  let s1 := s.onPkg pkg fun q => { q with
    overTime := if o = 100 then 0 else o
    underTime := if u = 1000 then 0 else u
    hotTime := h }
  let s2 := if o = 100 then s1.throttle pkg fun l => if l = 7 then 7 else l + 1 else s1
  let s3 := if u = 1000 then s2.throttle pkg fun l => if l = 0 then 0 else l - 1 else s2
  if temps.any (fun t => decide (115 ≤ t)) || decide (10000 ≤ h) then s3.shutDown pkg else s3

def execPowerControlTick (pkg watts : Nat) (temps : List Nat) (s : State) : Out :=
  .next (if (s.pkgAt pkg).boot = .running then s.powerTick pkg watts temps else s)

/-! Lifetime histograms (R341). -/

/-- The flash's counts with those gathered since. -/
def mergeCounts (hist since : Tab Nat) : Tab Nat :=
  since.foldl (fun t e => tabSet 0 t e.1 (min (2 ^ 32 - 1) (tabGet 0 t e.1 + e.2))) hist

def execHistogramFlashWrite (pkg : Nat) (s : State) : Out :=
  .next (s.onPkg pkg fun p => { p with hist := mergeCounts p.hist p.since, since := [] })

def execReadHistograms (pkg : Nat) (s : State) : Out :=
  .next (if s.hostOpen pkg then s.tell (.histograms pkg (mergeCounts (s.pkgAt pkg).hist (s.pkgAt pkg).since)) else s)

/-! Links that retrain (R335, R340, R363). -/

/-- The key of a UCIe module: the pair of dies, lower first, and the module. -/
def moduleKey (d0 d1 m : Nat) : Nat := (min d0 d1 * 4 + max d0 d1) * 16 + m

/-- A link retrains: done, the failure was transient; else it is lasting, and a spare lane is applied or the unit leaves
service. -/
def execLinkRetraining (l : Link) (ok : Bool) (s : State) : Out :=
  .next <|
    match l with
    | .ucie pkg d0 d1 m =>
      let key := moduleKey d0 d1 m
      if ok then s.countError .transient (.module pkg key)
      else (s.onPkg pkg fun p => { p with modules := tabSet 0 p.modules key (min 3 (tabGet 0 p.modules key + 1)) }).countError
        .lasting (.module pkg key)
    | .port die p =>
      if ok then s.countError .transient (.port die p)
      else
        let n := min 2 (tabGet 0 (s.dieAt die).ports p + 1)
        let t := (s.onDie die fun x => { x with ports := tabSet 0 x.ports p n }).countError .lasting (.port die p)
        if n = 2 then t.count (die / 4) .portDown (4 * die + p) 1 else t

/-! HBM controllers (R307, R308). -/

def State.chanAt (s : State) (n : Nat) : Chan := tabGet Chan.reset s.chans n
def State.onChan (s : State) (n : Nat) (f : Chan → Chan) : State := { s with chans := tabSet Chan.reset s.chans n (f (s.chanAt n)) }

/-- Die and stack within the die of a pseudo-channel. -/
def chanDie (n : Nat) : Nat := n / 64 / 3
def chanStack (n : Nat) : Nat := n / 64 % 3

/-- A pseudo-channel has a seam micro-command queued in one of its banks. -/
def State.chanBusy (s : State) (n : Nat) : Bool :=
  (s.dieAt (chanDie n)).micro.any fun e => e.1 % 192 == n % 192 && e.2 != []

def State.pwrctl (s : State) (n : Nat) : Word := (s.dieAt (chanDie n)).pwrctl[Fin.ofNat 3 (chanStack n)]

/-- Idle for PDIDLE, the pseudo-channel enters power-down; 0 disables it. -/
def execPowerDownEntry (chan : Nat) (s : State) : Out :=
  .next <|
    if (s.pwrctl chan).extractLsb' 16 16 = 0 ∨ s.chanBusy chan ∨ (s.chanAt chan).power ≠ .active then s
    else s.onChan chan fun c => { c with power := .powerDown }

/-- Idle for SRIDLE, the pseudo-channel enters self-refresh; 0 disables it. -/
def execSelfRefreshEntry (chan : Nat) (s : State) : Out :=
  .next <|
    if (s.pwrctl chan).extractLsb' 32 16 = 0 ∨ s.chanBusy chan then s
    else s.onChan chan fun c => { c with power := .selfRefresh }

/-- A bank's refresh falls due and is postponed; before a ninth would be owed the bank is refreshed. -/
def State.refreshDue (s : State) (chan : Nat) (bank : Fin 64) : State :=
  s.onChan chan fun c => { c with owed := tabSet 0 c.owed bank.val (min 8 (tabGet 0 c.owed bank.val + 1)) }

def execPerBankRefresh (chan : Nat) (bank : Fin 64) (s : State) : Out :=
  .next (s.onChan chan fun c => { c with owed := tabSet 0 c.owed bank.val (tabGet 0 c.owed bank.val - 1) })

/-- Add one to a saturating 32-bit half of REFCNT: ABO high, DEBT low. -/
def bumpRef (v : Word) (hi : Bool) : Word :=
  let abo : BitVec 32 := v.extractLsb' 32 32
  let debt : BitVec 32 := v.extractLsb' 0 32
  let inc (x : BitVec 32) : BitVec 32 := if x = BitVec.allOnes 32 then x else x + 1
  if hi then inc abo ++ debt else abo ++ inc debt

def State.onRefcnt (s : State) (chan : Nat) (hi : Bool) : State :=
  let j : Fin 3 := Fin.ofNat 3 (chanStack chan)
  s.onDie (chanDie chan) fun x => { x with refcnt := x.refcnt.set j (bumpRef x.refcnt[j] hi) }

/-- An alert back-off for a bank, with the refresh work already committed in the pseudo-channel, in ns: the bank's postponed
refreshes, or all-bank refreshes and a refresh-debt event where the window of 1,800 ns cannot be met. -/
def execAlertBackOff (chan : Nat) (bank : Fin 64) (committed : Nat) (s : State) : Out :=
  .next <|
    let t := s.onRefcnt chan true
    let owed := (s.chanAt chan).owed
    if committed + 40 + (tabGet 0 owed bank.val + 1) * 190 ≤ 1800 then
      t.onChan chan fun c => { c with owed := tabSet 0 c.owed bank.val 0 }
    else
      let n := min 9 (owed.foldl (fun m e => max m e.2) 0 + 1)
      ((t.onChan chan fun c => { c with owed := tabMap 0 (fun p => p - n) c.owed }).onRefcnt chan false).count (chan / 768)
        .refreshDebt (chan / 64) 1

end Sys2Proof.Machine
end

