-- ==== Sys2Proof/Machine/Fabric.lean ====
section
/-! DEFINITION. The fabric (R342 to R349, R363): rail frames, accesses that arrive from another package, a package that stops
answering, and the 1588 clock. -/

namespace Sys2Proof.Machine

/-! Rail transport (R342). -/

/-- The EtherTypes of rail transport and of IEEE 1588. -/
def railType : BitVec 16 := 0x88B5
def ptpType : BitVec 16 := 0x88F7

/-- What a delivered message brings about: the row of a dispatch command has reached its die, or a cancel is on its way to the
collective engine. -/
def State.deliver (s : State) (die src : Nat) : RailMsg → State
  | .row serial =>
    let reach (c : Cmd) : Cmd :=
      if c.serial = serial ∧ pkgOf c.ctx = src / 4 then { c with flight := c.flight.map fun f => { f with arrived := true } } else c
    { s with dies := tabMap Die.reset (fun x => { x with disp := x.disp.map reach, strays := x.strays.map reach }) s.dies }
  | .cancel g q => s.onDie die fun x => { x with cancelBox := x.cancelBox ++ [(g, q)] }

/-- A frame reaches die, and carries message m of die src: delivered if it is the next of its pair of dies; one delivered before, or
ahead of its turn, changes nothing, and is sent again until it is acknowledged (log 31, DESIGN CHOICE). -/
def State.receive (s : State) (die src : Nat) (m : Sent) : State :=
  if tabGet 0 (s.dieAt die).received src ≠ m.order then s
  else
    let t := s.onDie src fun x =>
      { x with sent := x.sent.map fun n => if n.port = m.port ∧ n.seq = m.seq then { n with got := true } else n }
    (t.onDie die fun x => { x with received := tabSet 0 x.received src (m.order + 1) }).deliver die src m.msg

/-- Package pkg, which had stopped answering, answers again (R363, R365). -/
def State.answers (s : State) (pkg : Nat) : State :=
  if (s.pkgAt pkg).silent then s.onPkg pkg fun p => { p with silent := false } else s

/-- A frame reaches a port of a die: a message; the acknowledgement of one that has reached its die, which leaves the sender's buffer;
or a frame of another kind, which is discarded and counted. A package that a frame of rail transport comes from answers. -/
def execRailFrameReceive (die : Nat) (f : Frame) (s : State) : Out :=
  .next <|
    if f.etherType = ptpType then s
    else if f.etherType ≠ railType then s.onDie die fun x => { x with discarded := x.discarded + 1 }
    else if f.ack then
      (s.answers (f.src / 4)).onDie die fun x =>
        { x with sent := x.sent.filter fun m => !(m.peer == f.src && m.port == f.port && m.seq == f.seq && m.got) }
    else
      match (s.dieAt f.src).sent.find? fun m => m.peer == die && m.port == f.port && m.seq == f.seq with
      | none => s
      | some m => (s.answers (f.src / 4)).receive die f.src m

/-- A frame of a die that is not acknowledged is sent again, by its port, or, where that has left service, by another of the package with
that port's next number (R342, R363). -/
def execFrameResend (die port seq : Nat) (s : State) : Out :=
  .next <|
    let up := (s.portsFor die).contains port
    let p := s.portFor die
    let n := tabGet 0 (s.pkgAt (die / 4)).numbered p
    let t := if up then s else s.onPkg (die / 4) fun x => { x with numbered := tabSet 0 x.numbered p (n + 1) }
    if (s.dieAt die).sent.all fun m => !(m.port == port && m.seq == seq) then s
    else t.onDie die fun x => { x with
      sent := x.sent.map fun m =>
        if m.port = port ∧ m.seq = seq then
          { m with tries := m.tries + 1, port := if up then m.port else p, seq := if up then m.seq else n }
        else m }

/-! Accesses from another package (R344). -/

def remoteAgent (src : Nat) : Agent := ⟨none, .ls, 0, none, 8, src⟩

/-- The word an atomic of R114 leaves; cas where the old value matches. -/
def remoteAmo (fn : Fin 8) (old b cmp : Word) : Option Word :=
  match fn with
  | 0 => some (old + b)
  | 1 => some (old &&& b)
  | 2 => some (old ||| b)
  | 3 => some (old ^^^ b)
  | 4 => some (minS old b)
  | 5 => some (maxS old b)
  | 6 => some b
  | 7 => if old = cmp then some b else none

/-- An atomic at home: the new bytes written, the old ones returned if it returns a value. -/
def State.remoteAtomic (s : State) (lay : Lay) (src pa n : Nat) (value : Bool) (f : List Byte → Option (List Byte)) : State :=
  match s.outerRead lay pa n with
  | (t, .error code) => t.tell (.remoteFailed code)
  | (t, .ok bs) =>
    let u := match f bs with
      | some v => t.write (remoteAgent src) lay pa v
      | none => t
    if value then u.tell (.remoteData bs) else u

/-- The home die performs a remote access of context g as it comes, under the layout of the leaf that translated it at the source, with
no translation and no permission check (R311, R312); PGREQ is that context's (R330). -/
def State.remote (s : State) (a : RemoteReq) : State :=
  match a with
  | .load lay g pa n =>
    if inMmio pa then
      if n = 8 ∧ pa % 8 = 0 ∧ s.place pa ≠ .nothing then
        s.tell (.remoteData (leBytes 8 ((s.focus g).mmioRead (s.place pa)).toNat))
      else s.tell (.remoteFailed (if s.place pa = .nothing then 3 else 1))
    else match s.outerRead lay pa n with
      | (t, .ok bs) => t.tell (.remoteData bs)
      | (t, .error code) => t.tell (.remoteFailed code)
  | .store lay g pa bs =>
    if inMmio pa then
      if s.place pa = .nothing then s.tell (.remoteFailed 3)
      else if bs.length = 8 ∧ pa % 8 = 0 then
        (((s.focus g).mmioWrite (s.place pa) (BitVec.ofNat 64 (leNat bs))).map (·.focus s.here)).getD s
      else s.tell (.remoteFailed 1)
    else if s.allMem (bs.length / 4096 + 2) pa bs.length then
      s.outerWrite (remoteAgent (pkgOf g)) lay (bs.length / 4096 + 2) pa bs
    else s.tell (.remoteFailed 3)
  | .atomic lay g pa fn b cmp =>
    if inMmio pa || lay.raw then s.tell (.remoteFailed 1)
    else s.remoteAtomic lay (pkgOf g) pa 8 true fun bs =>
      (remoteAmo fn (BitVec.ofNat 64 (leNat bs)) b cmp).map fun v => leBytes 8 v.toNat
  | .vamo lay g pa op fmt b =>
    if inMmio pa || lay.raw then s.tell (.remoteFailed 1)
    else s.remoteAtomic lay (pkgOf g) pa (fmt.width / 8) false fun bs =>
      some (leBytes (fmt.width / 8) (combineElem op fmt amoMods (leNat bs) b))

/-- The context an access comes from, and the address it goes to. -/
def remoteEnds : RemoteReq → Nat × Nat
  | .load _ g pa _ | .store _ g pa _ | .atomic _ g pa _ _ _ | .vamo _ g pa _ _ _ => (g, pa)

/-- An access reaches its home package from another in whose domain that lies, and which answers with it. -/
def execRemoteAccess (a : RemoteReq) (s : State) : Out :=
  .next <|
    let e := remoteEnds a
    let home := e.2 / 2 ^ 46
    if pkgOf e.1 ≠ home ∧ s.listed (pkgOf e.1) home ∧ (s.pkgAt home).boot = .running ∧ !(s.pkgAt home).silent then
      (s.answers (pkgOf e.1)).remote a
    else s

/-! A package that stops answering (R363). -/

/-- Has a DISP command with no status yet a row on its way between the package and another? -/
def Cmd.sendsAcross (c : Cmd) (pkg : Nat) : Bool :=
  c.result.isNone && match c.flight with
    | some f => f.die / 4 != pkgOf c.ctx && (f.die / 4 == pkg || pkgOf c.ctx == pkg)
    | none => false

/-- Does the table of a COLL command in progress name the package and another? -/
def Cmd.spans (c : Cmd) (pkg : Nat) : Bool :=
  let pkgs := c.table.map fun b => tableDie b / 4
  c.started && pkgs.contains pkg && pkgs.any (· != pkg)

/-- A DISP command whose row is on its way to or from a silent package ends with CODE 7; its row may still land (R363, R365). -/
def State.dispLost (s : State) (c : Cmd) : State :=
  (s.onDie (dieOf c.ctx) fun x => { x with strays := x.strays ++ [c] }).dispEnd { c with flight := none } 7

/-- For 100 us the package has not answered: others find nothing there, and collectives and rows between it and others end with CODE 7,
those of its own dies too. -/
def execPackageTimeout (pkg : Nat) (s : State) : Out :=
  .next <|
    let s1 := (s.onPkg pkg fun p => { p with silent := true }).count pkg .fabric pkg 1
    (s1.dies.map (·.1)).foldl (fun t d =>
      let u := t.endColl d (·.spans pkg) 7
      ((u.dieAt d).disp.filter (·.sendsAcross pkg)).foldl State.dispLost u) s1

/-! Time (R346 to R349). -/

/-- A boundary clock, with several ports of rail 0 in use; else an ordinary one. -/
def State.boundaryClock (s : State) (pkg : Nat) : Bool :=
  decide (1 < ((List.range 4).filter fun p => tabGet 0 (s.dieAt (4 * pkg)).ports p != 2).length)

/-- The ports of rail 0 that the clock listens at: all in service of a boundary clock, the first of an ordinary one. -/
def State.clockPorts (s : State) (pkg : Nat) : List Nat :=
  let up := (List.range 4).filter fun p => tabGet 0 (s.dieAt (4 * pkg)).ports p != 2
  if s.boundaryClock pkg then up else up.take 1

/-- The better of two masters: by data set, then by the sender's identity, then by port (log 51, PRESUMED). -/
def Master.better (a b : Master) : Bool :=
  decide ((a.data.toNat * 2 ^ 80 + a.sender.toNat) * 256 + a.port < (b.data.toNat * 2 ^ 80 + b.sender.toNat) * 256 + b.port)

/-- The best of some masters. -/
def bestMaster : List Master → Option Master
  | [] => none
  | m :: t =>
    match bestMaster t with
    | none => some m
    | some b => some (if b.better m then b else m)

/-- The master that the clock follows: the best of those heard where it listens, if better than the clock itself (R346; log 51,
PRESUMED). -/
def State.master (s : State) (pkg : Nat) : Option Master :=
  (bestMaster ((s.pkgAt pkg).heard.filter fun m => (s.clockPorts pkg).contains m.port)).filter fun m =>
    decide (m.data.toNat < (Config.clockData pkg).toNat)

/-- Does the clock follow the master that sends from this port identity, and is heard at this port? -/
def State.follows (s : State) (pkg port : Nat) (sender : BitVec 80) : Bool :=
  (s.master pkg).any fun m => m.port == port && m.sender == sender

/-- No time of an exchange is known. -/
def Pkg.noStamps (p : Pkg) : Pkg := { p with origin := none, arrival := none, request := none }

/-- Is a message of the clock's IEEE 1588 domain at a port it listens at? -/
def State.ptpHeard (s : State) (pkg port : Nat) (domain : BitVec 8) : Bool :=
  domain == (s.pkgAt pkg).ptpDomain && (s.clockPorts pkg).contains port

/-- An event message is timestamped at a port of rail 0, with TICK there: the arrival of a Sync, the departure of a Delay_Req. -/
def execPtpEventMessage (die : Nat) (m : PtpAt PtpEvent) (s : State) : Out :=
  .next <|
    let pkg := die / 4
    let stamp : Int := (s.dieAt die).tick.toNat
    if die % 4 ≠ 0 ∨ !s.ptpHeard pkg m.port m.domain then s
    else match m.message with
      | .sync => if s.follows pkg m.port m.sender then s.onPkg pkg fun p => { p.noStamps with arrival := some stamp } else s
      | .delayReq => if (s.master pkg).any (·.port == m.port) then s.onPkg pkg fun p => { p with request := some stamp } else s

/-- Add to TICK on every die of a package. -/
def State.addTick (s : State) (pkg n : Nat) : State :=
  (List.range 4).foldl (fun t d => t.onDie (4 * pkg + d) fun x => { x with tick := x.tick + BitVec.ofNat 64 n }) s

/-- The clock takes a state, and reports a change of it. -/
def State.setClock (s : State) (pkg : Nat) (c : Clock) (offset : Int) : State :=
  let t := s.onPkg pkg fun p => { p with clock := c, offset := offset }
  if (s.pkgAt pkg).clock = c then t else t.tell (.clock pkg c offset)

/-- A record whose START a step of TICK from old has passed fires at once, late (R348, R349). -/
def State.firePassed (s : State) (die old : Nat) : State :=
  ((s.dieAt die).waiting.filter fun w => decide (old < lrStart w.image) && decide (lrStart w.image ≤ (s.dieAt die).tick.toNat)).foldl
    (fun t w =>
      let l := { w with late := true }
      if t.queueOpen die w.queue then
        (t.onDie die fun x => { x with waiting := x.waiting.map fun v => if v.queue = w.queue then l else v }).fire die l
      else t) s

/-- TICK steps forward, counted in die 0's error log. -/
def State.stepTick (s : State) (pkg n : Nat) : State :=
  let t := (s.addTick pkg n).onDie (4 * pkg) fun x => { x with errors := x.errors + 1 }
  (List.range 4).foldl (fun u d => u.firePassed (4 * pkg + d) (s.dieAt (4 * pkg + d)).tick.toNat) t

/-- The offset from the master, in ns, is master minus TICK: behind by more than 1 ms, TICK steps forward; else it is slewed
(R347). -/
def State.discipline (s : State) (pkg : Nat) (offset : Int) : State :=
  let t := s.setClock pkg .locked offset
  if 1000000 < offset then (t.stepTick pkg offset.toNat).onPkg pkg fun p => { p with slew := 0 }
  else t.onPkg pkg fun p => { p with slew := offset }

/-- The offset that an exchange shows, half the sum of what its two messages show each way; none while a time is missing. -/
def Pkg.measured (p : Pkg) (receipt : Int) : Option Int :=
  match p.origin, p.arrival, p.request with
  | some t1, some t2, some t3 => some (((t1 - t2) + (receipt - t3)) / 2)
  | _, _, _ => none

/-- No port hears a master any more: TICK keeps its last rate; counted in die 0's error log and the histogram (R348, R363). A clock that
never heard one stays unlocked. -/
def State.holdover (s : State) (pkg : Nat) : State :=
  if (s.pkgAt pkg).clock ≠ .locked then s
  else
    (((s.setClock pkg .holdover (s.pkgAt pkg).offset).onDie (4 * pkg) fun x => { x with errors := x.errors + 1 }).onPkg pkg
      fun p => { p with slew := 0 }).count pkg .fabric Config.maxPackages 1

/-- The masters heard have changed: with another to follow, an exchange begins anew; with none, holdover (R346, R348). -/
def State.hear (s : State) (pkg : Nat) (masters : List Master) : State :=
  let t := s.onPkg pkg fun p => { p with heard := masters }
  let who (m : Master) : Nat × BitVec 80 := (m.port, m.sender)
  if (t.master pkg).map who = (s.master pkg).map who then t
  else
    let u := t.onPkg pkg Pkg.noStamps
    if (t.master pkg).isNone then u.holdover pkg else u

/-- A general message: a master's data set, which may change the master; the precise time a Sync left; and, last of the exchange, the
time the Delay_Req arrived, which gives the offset (R346, R347). -/
def execPtpGeneralMessage (pkg : Nat) (m : PtpAt PtpGeneral) (s : State) : Out :=
  .next <|
    if !s.ptpHeard pkg m.port m.domain then s
    else match m.message with
    | .announce data =>
      s.hear pkg (⟨m.port, m.sender, data, 0⟩ :: (s.pkgAt pkg).heard.filter fun e => !(e.port == m.port && e.sender == m.sender))
    | .followUp time =>
      if !s.follows pkg m.port m.sender then s
      else s.onPkg pkg fun p => if p.arrival.isSome then { p with origin := some time } else p
    | .delayResp time =>
      if !s.follows pkg m.port m.sender then s
      else match (s.pkgAt pkg).measured time with
        | none => s
        | some offset => (s.onPkg pkg Pkg.noStamps).discipline pkg offset

/-- No port hears a master. -/
def execHoldoverEntry (pkg : Nat) (s : State) : Out :=
  .next ((s.onPkg pkg fun p => { p.noStamps with heard := [] }).holdover pkg)

/-- ns nanoseconds pass over the masters heard: one whose Announce stays away is heard no longer (R346). -/
def State.ageMasters (s : State) (pkg ns : Nat) : State :=
  if (s.pkgAt pkg).heard = [] then s
  else s.hear pkg (((s.pkgAt pkg).heard.map fun m => { m with age := m.age + ns }).filter fun m =>
    decide (m.age < Config.announceTimeout))

/-- ns nanoseconds pass on package pkg: TICK advances, slewed by at most 200 parts in a million. -/
def State.passTime (s : State) (pkg ns : Nat) : State :=
  let slew := (s.pkgAt pkg).slew
  let most : Int := (ns * 200 / 1000000 : Nat)
  let by_ := max (-most) (min most slew)
  ((s.addTick pkg (ns + by_).toNat).onPkg pkg fun p => { p with slew := slew - by_ }).ageMasters pkg ns

end Sys2Proof.Machine
end

