-- ==== Sys2Proof/Machine/Dispatch.lean ====
section
/-! DEFINITION. One arm per instruction and step: each calls its meaning. -/

namespace Sys2Proof.Machine

def exec (i : Instr) (s : State) : Host.Outcome State Fault Refusal :=
  match i with
  | .add rd ra b => Sys2Proof.Machine.execAdd rd ra b s
  | .sub rd ra b => Sys2Proof.Machine.execSub rd ra b s
  | .and rd ra b => Sys2Proof.Machine.execAnd rd ra b s
  | .or rd ra b => Sys2Proof.Machine.execOr rd ra b s
  | .xor rd ra b => Sys2Proof.Machine.execXor rd ra b s
  | .sll rd ra b => Sys2Proof.Machine.execSll rd ra b s
  | .srl rd ra b => Sys2Proof.Machine.execSrl rd ra b s
  | .sra rd ra b => Sys2Proof.Machine.execSra rd ra b s
  | .slt rd ra b => Sys2Proof.Machine.execSlt rd ra b s
  | .sltu rd ra b => Sys2Proof.Machine.execSltu rd ra b s
  | .min rd ra b => Sys2Proof.Machine.execMin rd ra b s
  | .max rd ra b => Sys2Proof.Machine.execMax rd ra b s
  | .minu rd ra b => Sys2Proof.Machine.execMinu rd ra b s
  | .maxu rd ra b => Sys2Proof.Machine.execMaxu rd ra b s
  | .mul rd ra b => Sys2Proof.Machine.execMul rd ra b s
  | .mulh rd ra b => Sys2Proof.Machine.execMulh rd ra b s
  | .mulhu rd ra b => Sys2Proof.Machine.execMulhu rd ra b s
  | .div rd ra b => Sys2Proof.Machine.execDiv rd ra b s
  | .divu rd ra b => Sys2Proof.Machine.execDivu rd ra b s
  | .rem rd ra b => Sys2Proof.Machine.execRem rd ra b s
  | .remu rd ra b => Sys2Proof.Machine.execRemu rd ra b s
  | .clz rd ra => Sys2Proof.Machine.execClz rd ra s
  | .ctz rd ra => Sys2Proof.Machine.execCtz rd ra s
  | .popc rd ra => Sys2Proof.Machine.execPopc rd ra s
  | .fixedLatencyWriteback => Sys2Proof.Machine.execFixedLatencyWriteback s
  | .li rd imm => Sys2Proof.Machine.execLi rd imm s
  | .lui rd ra imm => Sys2Proof.Machine.execLui rd ra imm s
  | .mv rd ra => Sys2Proof.Machine.execMv rd ra s
  | .sel rd ra rb => Sys2Proof.Machine.execSel rd ra rb s
  | .ld8 rd ra b => Sys2Proof.Machine.execLd8 rd ra b s
  | .ld16 rd ra b => Sys2Proof.Machine.execLd16 rd ra b s
  | .ld32 rd ra b => Sys2Proof.Machine.execLd32 rd ra b s
  | .ld64 rd ra b => Sys2Proof.Machine.execLd64 rd ra b s
  | .ldz8 rd ra b => Sys2Proof.Machine.execLdz8 rd ra b s
  | .ldz16 rd ra b => Sys2Proof.Machine.execLdz16 rd ra b s
  | .ldz32 rd ra b => Sys2Proof.Machine.execLdz32 rd ra b s
  | .st8 rs ra b => Sys2Proof.Machine.execSt8 rs ra b s
  | .st16 rs ra b => Sys2Proof.Machine.execSt16 rs ra b s
  | .st32 rs ra b => Sys2Proof.Machine.execSt32 rs ra b s
  | .st64 rs ra b => Sys2Proof.Machine.execSt64 rs ra b s
  | .amoAdd o => Sys2Proof.Machine.execAmoAdd o s
  | .amoAnd o => Sys2Proof.Machine.execAmoAnd o s
  | .amoOr o => Sys2Proof.Machine.execAmoOr o s
  | .amoXor o => Sys2Proof.Machine.execAmoXor o s
  | .amoMin o => Sys2Proof.Machine.execAmoMin o s
  | .amoMax o => Sys2Proof.Machine.execAmoMax o s
  | .amoSwap o => Sys2Proof.Machine.execAmoSwap o s
  | .amoCas o => Sys2Proof.Machine.execAmoCas o s
  | .beq ra rb off => Sys2Proof.Machine.execBeq ra rb off s
  | .bne ra rb off => Sys2Proof.Machine.execBne ra rb off s
  | .blt ra rb off => Sys2Proof.Machine.execBlt ra rb off s
  | .bge ra rb off => Sys2Proof.Machine.execBge ra rb off s
  | .bltu ra rb off => Sys2Proof.Machine.execBltu ra rb off s
  | .bgeu ra rb off => Sys2Proof.Machine.execBgeu ra rb off s
  | .jal rd off => Sys2Proof.Machine.execJal rd off s
  | .jalr rd rb off => Sys2Proof.Machine.execJalr rd rb off s
  | .smb o => Sys2Proof.Machine.execSmb o s
  | .vbany pm off => Sys2Proof.Machine.execVbany pm off s
  | .vbnone pm off => Sys2Proof.Machine.execVbnone pm off s
  | .ltc pm off => Sys2Proof.Machine.execLtc pm off s
  | .vfetch off => Sys2Proof.Machine.execVfetch off s
  | .tfetch pm off => Sys2Proof.Machine.execTfetch pm off s
  | .tstop => Sys2Proof.Machine.execTstop s
  | .vjoin => Sys2Proof.Machine.execVjoin s
  | .vjoinCompletion => Sys2Proof.Machine.execVjoinCompletion s
  | .svl rd ra fmt blk => Sys2Proof.Machine.execSvl rd ra fmt blk s
  | .laneBinding => Sys2Proof.Machine.execLaneBinding s
  | .vrel => Sys2Proof.Machine.execVrel s
  | .ebatch o => Sys2Proof.Machine.execEbatch o s
  | .ewait cls xq => Sys2Proof.Machine.execEwait cls xq s
  | .epoll cls xq => Sys2Proof.Machine.execEpoll cls xq s
  | .engineCountWaitRelease => Sys2Proof.Machine.execEngineCountWaitRelease s
  | .csrr rd r => Sys2Proof.Machine.execCsrr rd r s
  | .csrw r ra => Sys2Proof.Machine.execCsrw r ra s
  | .csrs r ra => Sys2Proof.Machine.execCsrs r ra s
  | .csrc r ra => Sys2Proof.Machine.execCsrc r ra s
  | .trap imm => Sys2Proof.Machine.execTrap imm s
  | .tret => Sys2Proof.Machine.execTret s
  | .wfe => Sys2Proof.Machine.execWfe s
  | .wfeWake => Sys2Proof.Machine.execWfeWake s
  | .nop => Sys2Proof.Machine.execNop s
  | .halt => Sys2Proof.Machine.execHalt s
  | .brk imm => Sys2Proof.Machine.execBrk imm s
  | .taskEnd => Sys2Proof.Machine.execTaskEnd s
  | .drainCompletion => Sys2Proof.Machine.execDrainCompletion s
  | .illegalInstruction w => Sys2Proof.Machine.execIllegalInstruction w s
  | .fence sc => Sys2Proof.Machine.execFence sc s
  | .lsync => Sys2Proof.Machine.execLsync s
  | .xfence sc ca cb => Sys2Proof.Machine.execXfence sc ca cb s
  | .vfence => Sys2Proof.Machine.execVfence s
  | .drainGroupRelease => Sys2Proof.Machine.execDrainGroupRelease s
  | .bfence sc rd => Sys2Proof.Machine.execBfence sc rd s
  | .vadd o => Sys2Proof.Machine.execVadd o s
  | .vsub o => Sys2Proof.Machine.execVsub o s
  | .vaddc o => Sys2Proof.Machine.execVaddc o s
  | .vsubb o => Sys2Proof.Machine.execVsubb o s
  | .vmul o => Sys2Proof.Machine.execVmul o s
  | .vmulh o => Sys2Proof.Machine.execVmulh o s
  | .vmin o => Sys2Proof.Machine.execVmin o s
  | .vmax o => Sys2Proof.Machine.execVmax o s
  | .vand o => Sys2Proof.Machine.execVand o s
  | .vor o => Sys2Proof.Machine.execVor o s
  | .vxor o => Sys2Proof.Machine.execVxor o s
  | .vsll o => Sys2Proof.Machine.execVsll o s
  | .vsrl o => Sys2Proof.Machine.execVsrl o s
  | .vsra o => Sys2Proof.Machine.execVsra o s
  | .vabsd o => Sys2Proof.Machine.execVabsd o s
  | .vmac o => Sys2Proof.Machine.execVmac o s
  | .vceq o => Sys2Proof.Machine.execVceq o s
  | .vcne o => Sys2Proof.Machine.execVcne o s
  | .vclt o => Sys2Proof.Machine.execVclt o s
  | .vcle o => Sys2Proof.Machine.execVcle o s
  | .vcgt o => Sys2Proof.Machine.execVcgt o s
  | .vcge o => Sys2Proof.Machine.execVcge o s
  | .vfadd o => Sys2Proof.Machine.execVfadd o s
  | .vfsub o => Sys2Proof.Machine.execVfsub o s
  | .vfmul o => Sys2Proof.Machine.execVfmul o s
  | .vffma o => Sys2Proof.Machine.execVffma o s
  | .vffnma o => Sys2Proof.Machine.execVffnma o s
  | .vfmin o => Sys2Proof.Machine.execVfmin o s
  | .vfmax o => Sys2Proof.Machine.execVfmax o s
  | .vfabs o => Sys2Proof.Machine.execVfabs o s
  | .vfneg o => Sys2Proof.Machine.execVfneg o s
  | .vfsgn o => Sys2Proof.Machine.execVfsgn o s
  | .vfexp2 o => Sys2Proof.Machine.execVfexp2 o s
  | .vflog2 o => Sys2Proof.Machine.execVflog2 o s
  | .vfrcp o => Sys2Proof.Machine.execVfrcp o s
  | .vfrsq o => Sys2Proof.Machine.execVfrsq o s
  | .vfdiv o => Sys2Proof.Machine.execVfdiv o s
  | .vfsqrt o => Sys2Proof.Machine.execVfsqrt o s
  | .vcvt o => Sys2Proof.Machine.execVcvt o s
  | .vqnt o => Sys2Proof.Machine.execVqnt o s
  | .vdqnt o => Sys2Proof.Machine.execVdqnt o s
  | .vbpsplit o => Sys2Proof.Machine.execVbpsplit o s
  | .vbpjoin o => Sys2Proof.Machine.execVbpjoin o s
  | .mand md ma mb m => Sys2Proof.Machine.execMand md ma mb m s
  | .mor md ma mb m => Sys2Proof.Machine.execMor md ma mb m s
  | .mxor md ma mb m => Sys2Proof.Machine.execMxor md ma mb m s
  | .mandn md ma mb m => Sys2Proof.Machine.execMandn md ma mb m s
  | .mnot md ma m => Sys2Proof.Machine.execMnot md ma m s
  | .mshl md ma n m => Sys2Proof.Machine.execMshl md ma n m s
  | .mshr md ma n m => Sys2Proof.Machine.execMshr md ma n m s
  | .mpop rd ma m => Sys2Proof.Machine.execMpop rd ma m s
  | .mfirst rd ma m => Sys2Proof.Machine.execMfirst rd ma m s
  | .mset md n m => Sys2Proof.Machine.execMset md n m s
  | .mmv md ma m => Sys2Proof.Machine.execMmv md ma m s
  | .vslup o => Sys2Proof.Machine.execVslup o s
  | .vsldn o => Sys2Proof.Machine.execVsldn o s
  | .vgath o => Sys2Proof.Machine.execVgath o s
  | .vcomp o => Sys2Proof.Machine.execVcomp o s
  | .vexpd o => Sys2Proof.Machine.execVexpd o s
  | .vbcast o => Sys2Proof.Machine.execVbcast o s
  | .vmvx o => Sys2Proof.Machine.execVmvx o s
  | .vmvv o => Sys2Proof.Machine.execVmvv o s
  | .vid o => Sys2Proof.Machine.execVid o s
  | .vredsum o => Sys2Proof.Machine.execVredsum o s
  | .vredmax o => Sys2Proof.Machine.execVredmax o s
  | .vredmin o => Sys2Proof.Machine.execVredmin o s
  | .vredand o => Sys2Proof.Machine.execVredand o s
  | .vredor o => Sys2Proof.Machine.execVredor o s
  | .vredbs o => Sys2Proof.Machine.execVredbs o s
  | .vscan o => Sys2Proof.Machine.execVscan o s
  | .vcswi o => Sys2Proof.Machine.execVcswi o s
  | .vrng o => Sys2Proof.Machine.execVrng o s
  | .vctr o => Sys2Proof.Machine.execVctr o s
  | .vld o => Sys2Proof.Machine.execVld o s
  | .vlds o => Sys2Proof.Machine.execVlds o s
  | .vldx o => Sys2Proof.Machine.execVldx o s
  | .vldbp o => Sys2Proof.Machine.execVldbp o s
  | .vst o => Sys2Proof.Machine.execVst o s
  | .vsts o => Sys2Proof.Machine.execVsts o s
  | .vstx o => Sys2Proof.Machine.execVstx o s
  | .vstbp o => Sys2Proof.Machine.execVstbp o s
  | .vamoAdd o => Sys2Proof.Machine.execVamoAdd o s
  | .vamoMin o => Sys2Proof.Machine.execVamoMin o s
  | .vamoMax o => Sys2Proof.Machine.execVamoMax o s
  | .arrAdd o => Sys2Proof.Machine.execArrAdd o s
  | .arrSub o => Sys2Proof.Machine.execArrSub o s
  | .arrMul o => Sys2Proof.Machine.execArrMul o s
  | .arrDiv o => Sys2Proof.Machine.execArrDiv o s
  | .arrMax o => Sys2Proof.Machine.execArrMax o s
  | .arrMin o => Sys2Proof.Machine.execArrMin o s
  | .arrEq o => Sys2Proof.Machine.execArrEq o s
  | .arrLt o => Sys2Proof.Machine.execArrLt o s
  | .arrAnd o => Sys2Proof.Machine.execArrAnd o s
  | .arrOr o => Sys2Proof.Machine.execArrOr o s
  | .arrNeg dd da k => Sys2Proof.Machine.execArrNeg dd da k s
  | .arrAbs dd da k => Sys2Proof.Machine.execArrAbs dd da k s
  | .arrExp dd da k => Sys2Proof.Machine.execArrExp dd da k s
  | .arrLog dd da k => Sys2Proof.Machine.execArrLog dd da k s
  | .arrCvt dd da k => Sys2Proof.Machine.execArrCvt dd da k s
  | .arrCopy dd da k => Sys2Proof.Machine.execArrCopy dd da k s
  | .arrRed o => Sys2Proof.Machine.execArrRed o s
  | .arrScan o => Sys2Proof.Machine.execArrScan o s
  | .arrGrade dd da k ax => Sys2Proof.Machine.execArrGrade dd da k ax s
  | .arrRot o => Sys2Proof.Machine.execArrRot o s
  | .arrTake o => Sys2Proof.Machine.execArrTake o s
  | .arrDrop o => Sys2Proof.Machine.execArrDrop o s
  | .arrShape dd da db => Sys2Proof.Machine.execArrShape dd da db s
  | .arrTpose dd da db => Sys2Proof.Machine.execArrTpose dd da db s
  | .arrOuter o iop => Sys2Proof.Machine.execArrOuter o iop s
  | .arrFrom o => Sys2Proof.Machine.execArrFrom o s
  | .arrComp o ax => Sys2Proof.Machine.execArrComp o ax s
  | .arrCat o ax => Sys2Proof.Machine.execArrCat o ax s
  | .arrIota dd n => Sys2Proof.Machine.execArrIota dd n s
  | .dld dd xa => Sys2Proof.Machine.execDld dd xa s
  | .dst da xa => Sys2Proof.Machine.execDst da xa s
  | .dset dd xa f ax => Sys2Proof.Machine.execDset dd xa f ax s
  | .dget xd da f ax => Sys2Proof.Machine.execDget xd da f ax s
  | .mxon => Sys2Proof.Machine.execMxon s
  | .mxoff => Sys2Proof.Machine.execMxoff s
  | .mxz td rpt => Sys2Proof.Machine.execMxz td rpt s
  | .mxa o => Sys2Proof.Machine.execMxa o s
  | .mxpred xn col => Sys2Proof.Machine.execMxpred xn col s
  | .mxrd vs ts ix col => Sys2Proof.Machine.execMxrd vs ts ix col s
  | .mxwr td vs ix col => Sys2Proof.Machine.execMxwr td vs ix col s
  | .mxld td da rpt => Sys2Proof.Machine.execMxld td da rpt s
  | .mxst ts da bf rpt => Sys2Proof.Machine.execMxst ts da bf rpt s
  | .plset td da => Sys2Proof.Machine.execPlset td da s
  | .plmarg da db => Sys2Proof.Machine.execPlmarg da db s
  | .bal ts => Sys2Proof.Machine.execBal ts s
  | .plout dst ts => Sys2Proof.Machine.execPlout dst ts s
  | .plcost xd ts => Sys2Proof.Machine.execPlcost xd ts s
  | .plscl vd ts => Sys2Proof.Machine.execPlscl vd ts s
  | .clasp cid => Sys2Proof.Machine.execClasp cid s
  | .claspw cid xa => Sys2Proof.Machine.execClaspw cid xa s
  | .claspa cid xa => Sys2Proof.Machine.execClaspa cid xa s
  | .claspWaitRelease => Sys2Proof.Machine.execClaspWaitRelease s
  | .hmset xs xa => Sys2Proof.Machine.execHmset xs xa s
  | .hmchk xd xa => Sys2Proof.Machine.execHmchk xd xa s
  | .spclaim xd xa n => Sys2Proof.Machine.execSpclaim xd xa n s
  | .sprel xa n => Sys2Proof.Machine.execSprel xa n s
  | .asyopen aid => Sys2Proof.Machine.execAsyopen aid s
  | .asyclose aid => Sys2Proof.Machine.execAsyclose aid s
  | .asyrd xd aid => Sys2Proof.Machine.execAsyrd xd aid s
  | .progress p => Sys2Proof.Machine.execProgress p s
  | .watchEventDelivery => Sys2Proof.Machine.execWatchEventDelivery s
  | .switchOut => Sys2Proof.Machine.execSwitchOut s
  | .switchIn => Sys2Proof.Machine.execSwitchIn s
  | .mxctlResWrite res => Sys2Proof.Machine.execMxctlResWrite res s
  | .ptrootAsidWrite asid v => Sys2Proof.Machine.execPtrootAsidWrite asid v s
  | .doorbell die q v => Sys2Proof.Machine.execDoorbell die q v s
  | .pgreq v => Sys2Proof.Machine.execPgreq v s
  | .asyclr die v => Sys2Proof.Machine.execAsyclr die v s
  | .claspTargetWrite at_ v => Sys2Proof.Machine.execClaspTargetWrite at_ v s
  | .registerWrite pa v => Sys2Proof.Machine.execRegisterWrite pa v s
  | .pageAnswer g gen fail refused => Sys2Proof.Machine.execPageAnswer g gen fail refused s
  | .launchRecordRead die q => Sys2Proof.Machine.execLaunchRecordRead die q s
  | .recordFire die q => Sys2Proof.Machine.execRecordFire die q s
  | .prepReservation die q places => Sys2Proof.Machine.execPrepReservation die q places s
  | .crewPlacement die q crew places => Sys2Proof.Machine.execCrewPlacement die q crew places s
  | .rcwinExpiry g => Sys2Proof.Machine.execRcwinExpiry g s
  | .invalidateTranslations die asid lo hi => Sys2Proof.Machine.execInvalidateTranslations die asid lo hi s
  | .releaseSession die session => Sys2Proof.Machine.execReleaseSession die session s
  | .endDig die dig => Sys2Proof.Machine.execEndDig die dig s
  | .configure m => Sys2Proof.Machine.execConfigure m s
  | .endFrozenTask g => Sys2Proof.Machine.execEndFrozenTask g s
  | .laneRetirement core lane => Sys2Proof.Machine.execLaneRetirement core lane s
  | .coreSubstitution core => Sys2Proof.Machine.execCoreSubstitution core s
  | .setPlimit pkg watts => Sys2Proof.Machine.execSetPlimit pkg watts s
  | .readHistograms pkg => Sys2Proof.Machine.execReadHistograms pkg s
  | .loadFirmware pkg img => Sys2Proof.Machine.execLoadFirmware pkg img s
  | .getVersion pkg => Sys2Proof.Machine.execGetVersion pkg s
  | .getCapabilities pkg => Sys2Proof.Machine.execGetCapabilities pkg s
  | .negotiateAlgorithms pkg => Sys2Proof.Machine.execNegotiateAlgorithms pkg s
  | .getMeasurements pkg => Sys2Proof.Machine.execGetMeasurements pkg s
  | .hostWrite pa bs => Sys2Proof.Machine.execHostWrite pa bs s
  | .hostRead pa n => Sys2Proof.Machine.execHostRead pa n s
  | .boot pkg imgs => Sys2Proof.Machine.execBoot pkg imgs s
  | .powerControlTick pkg watts temps => Sys2Proof.Machine.execPowerControlTick pkg watts temps s
  | .histogramFlashWrite pkg => Sys2Proof.Machine.execHistogramFlashWrite pkg s
  | .supervisorReread a => Sys2Proof.Machine.execSupervisorReread a s
  | .linkRetraining l ok => Sys2Proof.Machine.execLinkRetraining l ok s
  | .perBankRefresh chan bank => Sys2Proof.Machine.execPerBankRefresh chan bank s
  | .alertBackOff chan bank committed => Sys2Proof.Machine.execAlertBackOff chan bank committed s
  | .powerDownEntry chan => Sys2Proof.Machine.execPowerDownEntry chan s
  | .selfRefreshEntry chan => Sys2Proof.Machine.execSelfRefreshEntry chan s
  | .railFrameReceive die f => Sys2Proof.Machine.execRailFrameReceive die f s
  | .frameResend die port seq => Sys2Proof.Machine.execFrameResend die port seq s
  | .remoteAccess a => Sys2Proof.Machine.execRemoteAccess a s
  | .packageTimeout pkg => Sys2Proof.Machine.execPackageTimeout pkg s
  | .ptpEventMessage die m => Sys2Proof.Machine.execPtpEventMessage die m s
  | .ptpGeneralMessage pkg m => Sys2Proof.Machine.execPtpGeneralMessage pkg m s
  | .holdoverEntry pkg => Sys2Proof.Machine.execHoldoverEntry pkg s
  | .ccopyCopy clu idx => Sys2Proof.Machine.execCcopyCopy clu idx s
  | .ccopyFill clu idx => Sys2Proof.Machine.execCcopyFill clu idx s
  | .ccopyHmset clu idx => Sys2Proof.Machine.execCcopyHmset clu idx s
  | .ccopyCompletion clu idx => Sys2Proof.Machine.execCcopyCompletion clu idx s
  | .dcopyCopy die idx => Sys2Proof.Machine.execDcopyCopy die idx s
  | .dcopyFill die idx => Sys2Proof.Machine.execDcopyFill die idx s
  | .dcopyHmset die idx => Sys2Proof.Machine.execDcopyHmset die idx s
  | .dcopyCompletion die idx => Sys2Proof.Machine.execDcopyCompletion die idx s
  | .encOpen die idx => Sys2Proof.Machine.execEncOpen die idx s
  | .encFrame die idx => Sys2Proof.Machine.execEncFrame die idx s
  | .encCompletion die idx => Sys2Proof.Machine.execEncCompletion die idx s
  | .sadd die idx => Sys2Proof.Machine.execSadd die idx s
  | .saxpy die idx => Sys2Proof.Machine.execSaxpy die idx s
  | .sscal die idx => Sys2Proof.Machine.execSscal die idx s
  | .supd die idx => Sys2Proof.Machine.execSupd die idx s
  | .smom die idx => Sys2Proof.Machine.execSmom die idx s
  | .sfill die idx => Sys2Proof.Machine.execSfill die idx s
  | .scpy die idx => Sys2Proof.Machine.execScpy die idx s
  | .seamMicroCommand die bank => Sys2Proof.Machine.execSeamMicroCommand die bank s
  | .seamCompletion die idx => Sys2Proof.Machine.execSeamCompletion die idx s
  | .allred die idx => Sys2Proof.Machine.execAllred die idx s
  | .redscat die idx => Sys2Proof.Machine.execRedscat die idx s
  | .allgath die idx => Sys2Proof.Machine.execAllgath die idx s
  | .bcast die idx => Sys2Proof.Machine.execBcast die idx s
  | .collCancel die group seq => Sys2Proof.Machine.execCollCancel die group seq s
  | .collCompletion die idx => Sys2Proof.Machine.execCollCompletion die idx s
  | .send die idx => Sys2Proof.Machine.execSend die idx s
  | .land die idx => Sys2Proof.Machine.execLand die idx s
  | .lzset die idx => Sys2Proof.Machine.execLzset die idx s
  | .zstat die idx => Sys2Proof.Machine.execZstat die idx s
  | .rtset die idx => Sys2Proof.Machine.execRtset die idx s
  | .dispCompletion die idx => Sys2Proof.Machine.execDispCompletion die idx s
  | .hostLinkDown pkg => Sys2Proof.Machine.execHostLinkDown pkg s
  | .hostLinkUp pkg => Sys2Proof.Machine.execHostLinkUp pkg s
  | .dieLeavesService die => Sys2Proof.Machine.execDieLeavesService die s
  | .powerFailure pkg => Sys2Proof.Machine.execPowerFailure pkg s

end Sys2Proof.Machine
end

