-- ==== Sys2Proof/Machine/Issue.lean ====
section
/-! DEFINITION. Issue (R104 to R110, R121 to R125, R222, R223, R231): fetching the next instruction of the context in hand, the
scoreboard of CTL.SBC, asynchronous causes, arbitration, the SCU ahead of the queues, waits and lanes; and the agenda, which says what moves next (log 1, DESIGN CHOICE). -/

namespace Sys2Proof.Machine

/-- The pending fixed-latency result that an instruction would read too early, with CTL.SBC (R110): of the first register it reads,
in the order of its operands, that has one, the earliest (log 49, DESIGN CHOICE). -/
def State.tooEarly (s : State) (i : Instr) : Option Pending :=
  if s.c.sbc then (xreads i).findSome? fun r => if r = 0 then none else s.c.pending.find? (·.reg == r) else none

/-! Fetch (R99, R198, R224). -/

/-- The address an instruction is fetched at: bits 71:64 are VAH, and zero in handler mode. -/
def State.fetchVa (s : State) : Nat := (if s.c.hnd then 0 else s.c.vah.toNat * 2 ^ 64) + s.c.pc.toNat

/-- The word at the PC, or the trap of the fetch. -/
def State.fetchWord (s : State) : State × Except Trap Word :=
  if s.c.pc.extractLsb' 0 3 ≠ 0#3 then (s, .error { cause := .pcalign, addr := s.c.pc })
  else match s.translate s.view s.fetchVa Need.fetch .plain with
    | (s1, .error e) => (s1, .error (missTrap .scu s.fetchVa Need.fetch e))
    | (s1, .ok l) =>
      match s1.checkRead l.lay l.pa 8 with
      | (s2, some pa) => (s2, .error (memueTrap s2 .scu pa))
      | (s2, none) => (s2, .ok (BitVec.ofNat 64 (leNat (s2.bytesAt l.lay.raw l.pa 8))))

/-! Issue. -/

/-- The first instruction of a task issues: after START + 20 its record is late (R290). -/
def State.begin (s : State) : State :=
  match s.c.task with
  | none => s
  | some t =>
    if t.began then s
    else
      let tick := (s.dieAt s.die).tick.toNat
      let s1 := { s with c := { s.c with task := some { t with began := true } } }
      s1.onDie s.die fun x => { x with launches := x.launches.map fun l =>
        if l.queue = t.queue ∧ l.n = t.n ∧ lrStart l.image ≠ 0 ∧ lrStart l.image + 20 < tick then { l with late := true } else l }

/-- Change the state a step answers. -/
def onNext (o : Out) (f : State → State) : Out :=
  match o with
  | .next s => .next (f s)
  | .fault e => .fault e
  | .refused r => .refused r

/-- An instruction that issued has taken its slot and STL more; one that waits to be issued again has not (R108). -/
def State.settle (s : State) (stl : Nat) : State :=
  let again := match s.c.wait with
    | .drain _ | .lanes => true
    | _ => false
  { s with c := { s.c with slot := if again then s.c.slot else s.c.slot + 1 + stl, ept := 0 } }

/-! Asynchronous causes, in the order of R223. -/

/-- The asynchronous cause that the context in hand takes now, as its step. -/
def State.async (s : State) : Option Instr :=
  match (if s.keepsProgress then none else s.c.asked.progress) with
  | some p => some (.progress p)
  | none =>
    if !s.c.interruptible then none
    else if s.c.event.isSome && !s.c.held then some .watchEventDelivery
    else if s.c.asked.preempt then some .switchOut
    else none

/-! Arbitration between the contexts of a core (R242, R243). -/

/-- The instruction at the head of the context in hand, where it may run now. -/
def State.head (s : State) : Option Instr :=
  if s.async.isSome then none
  else match s.c.wait, s.c.queued with
    | .none, [] => s.atPc.2.filter s.accepts
    | .none, e :: _ => (decode e.word).toOption
    | .queued w _, _ => (decode w).toOption
    | .going, _ | .begun, _ => s.atPc.2
    | _, _ => none

/-- The element-beats of the strip that the context in hand can dispatch now: one instruction of every running block, or its head. -/
def State.strip (s : State) : Option Nat :=
  if s.c.status ≠ .bound ∨ s.c.held then none
  else match s.c.running with
    | [] => s.head.bind s.beats
    | ls => some ((ls.map (· / 8)).dedup).length

/-- The first element of a list with the least measure. -/
def leastBy (f : Nat → Nat) : List Nat → Option Nat
  | [] => none
  | a :: t =>
    match leastBy f t with
    | none => some a
    | some b => some (if f a ≤ f b then a else b)

/-- The contexts of the core in hand that are ready when the context in hand is, lowest first. -/
def State.readyHere (s : State) : List Nat :=
  ((List.range 4).map (4 * coreOf s.here + ·)).filter fun g =>
    g == s.here || ((s.ctxAt g).status == .bound && (s.focus g).strip.isSome)

/-- Who is ready, and the charges of those that were not before, raised to the least among those that were (R242). -/
def State.refreshReady (s : State) (ready : List Nat) : State :=
  let least := leastBy (fun g => (s.ctxAt g).charge) (ready.filter fun g => (s.ctxAt g).ready)
  (List.range 4).foldl (fun t j =>
    let g := 4 * coreOf s.here + j
    t.onCtx g fun c =>
      let floor := match least with
        | some b => (s.ctxAt b).charge
        | none => 0
      { c with
        ready := ready.contains g
        charge := if ready.contains g && !c.ready then max c.charge floor else c.charge }) s

/-- The context that the sequencer chooses among the ready ones: the background floor, a deadline, the share, the background (R243). -/
def State.choose (s : State) (ready : List Nat) : Option Nat :=
  let charge (g : Nat) : Nat := (s.ctxAt g).charge
  let bg := ready.filter fun g => (s.ctxAt g).prio == 2
  let tick := (s.dieAt s.die).tick
  let due := ready.filter fun g =>
    let c := s.ctxAt g
    c.prio == 0 && c.deadln != 0 && (c.deadln - tick).sle c.dlwin
  if bg ≠ [] ∧ 15 ≤ s.k.since then leastBy charge bg
  else ((leastBy (fun g => (s.ctxAt g).deadln.toNat) due).or (leastBy charge (ready.filter fun g => (s.ctxAt g).prio != 2))).or
    (leastBy charge bg)

/-- The context in hand dispatches a strip of b beats: its charge, and how long a ready background context has waited. -/
def State.charged (s : State) (ready : List Nat) (b : Nat) : State :=
  { s with
    c := { s.c with charge := s.c.charge + b }
    k := { s.k with since :=
      if s.c.prio = 2 then 0 else if ready.any fun g => (s.ctxAt g).prio == 2 then s.k.since + 1 else s.k.since } }

/-- A strip of the context in hand is dispatched if the sequencer chooses it; else the context chosen has its turn next. -/
def State.dispatch (s : State) (b : Nat) (run : State → Out) : Out :=
  let ready := s.readyHere
  let t := s.refreshReady ready
  match t.choose ready with
  | some g => if g = s.here then run (t.charged ready b) else .next (t.focus g)
  | none => run (t.charged ready b)

/-- An instruction runs: at once, or as a strip. -/
def State.running (s : State) (i : Instr) (run : State → Out) : Out :=
  match s.beats i with
  | none => run s
  | some b => s.dispatch b run

/-! Issue of the next instruction. -/

/-- With nothing in the queues the timer stands at zero (R231). -/
def State.restTimer (s : State) : State := if s.c.queues == Queues.empty then { s with c := { s.c with ept := 0 } } else s

/-- A word is issued: it traps as illegal, as a reader that is too early, or runs. -/
def State.runWord (s : State) (w : Word) : Out :=
  match decode w with
  | .error _ => exec (.illegalInstruction w) s.begin
  | .ok i =>
    if !s.accepts i then exec (.illegalInstruction w) s.begin
    else match s.tooEarly i with
      | some p => .next (s.begin.raise { cause := .stall, addr := p.pc })
      | none => s.running i fun t => onNext (exec i t.begin) fun u => u.settle (stlOf w)

/-- Fetch and issue at the PC. -/
def State.fetchIssue (s : State) : Out :=
  match s.fetchWord with
  | (s1, .error t) => .next (s1.raise t)
  | (s1, .ok w) => s1.runWord w

/-- A begun instruction goes on, in the slot it has: one more step of it. -/
def State.rerun (s : State) : Out :=
  match s.fetchWord with
  | (s1, .error t) => .next (s1.resume.raise t)
  | (s1, .ok w) =>
    match decode w with
    | .error _ => exec (.illegalInstruction w) s1.resume
    | .ok i => s1.running i fun t => onNext (exec i t.resume) State.restTimer

/-- An instruction that has come to the head of its queue runs, in the slot it has. -/
def State.runQueued (s : State) (w : Word) : Out :=
  match decode w with
  | .error _ => exec (.illegalInstruction w) s.resume
  | .ok i => s.running i fun t => onNext (exec i t.resume) State.restTimer

/-! The SCU ahead of the queues (R104 to R108). -/

/-- What the SCU holds where the context in hand stands, with registers still owed. -/
def State.scu (s : State) (owed : List XReg) : Scu :=
  ⟨s.c.x, s.c.pc, s.c.slot, s.c.pending, s.c.vl, s.c.vlg, s.c.vfmt, s.c.vblk, owed⟩

/-- The context with the SCU's part as u has it. -/
def Ctx.withScu (c : Ctx) (u : Scu) : Ctx :=
  { c with x := u.x, pc := u.pc, slot := u.slot, pending := u.pending, vl := u.vl, vlg := u.vlg, vfmt := u.vfmt, vblk := u.vblk }

/-- The same, where the queues have meanwhile written the registers it was owed. -/
def Ctx.take (c : Ctx) (u : Scu) : Ctx :=
  c.withScu { u with x := Vector.ofFn fun r => if u.owed.contains r then c.x[r] else u.x[r] }

/-- The oldest instruction has completed: the next one queued comes to the head, or the SCU stands there itself. -/
def State.promote (s : State) (a : Scu) : State :=
  match s.c.queued with
  | e :: rest => { s with c := { s.c.take e.scu with wait := .queued e.word e.queue, queued := rest } }
  | [] => { s with c := { s.c.take a with ahead := none } }

/-- The SCU's part after an instruction that has a place in a queue: the next PC and slot, its registers owed. -/
def Scu.past (u : Scu) (i : Instr) (stl : Nat) : Scu :=
  { u with
    pc := u.pc + 8
    slot := u.slot + 1 + stl
    pending := u.pending.filter fun p => !(xwrites i).contains p.reg
    owed := u.owed ++ xwrites i }

/-- Does the oldest instruction stand in a queue: begun, or a vjoin that waits for lanes (R104)? -/
def Ctx.queuesOldest (c : Ctx) : Bool := !(c.queues == Queues.empty) || c.wait == .vjoin

/-- Where the SCU stands: ahead already, or past the oldest instruction, which stands in a queue. -/
def State.frontier (s : State) : Option Scu :=
  match s.c.ahead, !s.c.queuesOldest with
  | some a, _ => some a
  | none, true => none
  | none, false => s.atPc.2.map fun i =>
    { s.scu (xwrites i) with pc := s.c.pc + 8, pending := s.c.pending.filter fun p => !(xwrites i).contains p.reg }

/-- Instructions in a queue. -/
def Ctx.inQueue (c : Ctx) (q : Queue) : Nat :=
  (match q with
    | .scu => 0
    | .vq => c.queues.vq.length
    | .lq => c.queues.lq.length
    | .mq => c.queues.mq.length
    | .aq => c.queues.aq.length) +
  (match c.wait with
    | .queued _ k => if k = q then 1 else 0
    | .vjoin => if q = .vq then 1 else 0
    | _ => 0) +
  (c.queued.filter fun e => e.queue == q).length

/-- The queues as a drain of the SCU sees them. -/
def Ctx.inQueues (c : Ctx) : Queues where
  vq := List.replicate (c.inQueue .vq) c.pc
  mq := List.replicate (c.inQueue .mq) c.pc
  lq := List.replicate (c.inQueue .lq) c.pc
  aq := List.replicate (c.inQueue .aq) c.pc

/-- The instructions that stand in the queues of the context in hand: the oldest, and those behind it. -/
def State.standing (s : State) : List Instr :=
  (match s.c.wait with
    | .queued w _ => (decode w).toOption.toList
    | _ => if s.c.queuesOldest then s.atPc.2.toList else []) ++ s.c.queued.filterMap fun e => (decode e.word).toOption

/-- Must the SCU, in state v, wait for an instruction of the queues before it carries out or places this one: a drain of VQ and LQ, an
asyrd for an earlier asyopen or asyclose, a register that is owed (R107, R325)? -/
def State.mustWait (s v : State) (owed : List XReg) (i : Instr) : Bool :=
  (drainsAhead i && !drainLanes.all v.c.queues.isEmpty) ||
  ((match i with
    | .asyrd _ _ => true
    | _ => false) && s.standing.any movesAssay) ||
  (xreads i ++ xwrites i).any fun r => r != 0 && owed.contains r

/-- The SCU carries out an instruction of its own, or places one in its queue, ahead of the oldest instruction; behind a vfetch it
accepts what a region does (R125). It stalls (the state stands) at what it may not do yet: a fetch or an instruction with an effect
beyond the SCU's part, a trap, a drain, a register owed, a full queue (log 50, DESIGN CHOICE). -/
def State.runAhead (s : State) : State :=
  match (if s.c.status = .bound ∧ !s.c.held ∧ s.async.isNone then s.frontier else none) with
  | none => s
  | some a =>
    let v := State.writeback { s with c := { s.c.withScu a with
      wait := .none, queues := s.c.inQueues, queued := [], ahead := none, thr := s.c.thr || s.standing.any opensRegion } }
    match v.fetchWord with
    | (_, .error _) => s
    | (v1, .ok w) =>
      match decode w with
      | .error _ => s
      | .ok i =>
        if v1 ≠ v ∨ !v.accepts i ∨ (v.tooEarly i).isSome ∨ s.mustWait v a.owed i then s
        else match queueOf i with
          | .scu =>
            match exec i v with
            | .next t =>
              if t = { v with c := v.c.withScu (t.scu []) } then
                { s with c := { s.c with ahead := some { t.scu a.owed with slot := t.c.slot + 1 + stlOf w } } }
              else s
            | _ => s
          | q =>
            if s.c.inQueue q < q.depth then
              { s with c := { s.c with
                queued := s.c.queued ++ [⟨v.scu a.owed, w, q⟩]
                ahead := some ((v.scu a.owed).past i (stlOf w)) } }
            else s

/-- May an instruction begin and stand in its queue with nothing done? A vjoin's wait is none that the timer watches (R231). -/
def mayStand (i : Instr) : Bool :=
  queueOf i != .scu && match i with
    | .vjoin => false
    | _ => true

/-- The next instruction of the context in hand, one of a queue, begins: it stands there until it goes on or the timer stops it (R231). -/
def State.beginHead (s : State) : State :=
  if s.c.status ≠ .bound ∨ s.c.held ∨ s.async.isSome then s
  else match s.c.wait, s.c.ahead with
    | .queued w q, _ => if (decode w).toOption.any mayStand then s.waitFor .begun q else s
    | .none, none =>
      match s.writeback.fetchWord with
      | (_, .error _) => s
      | (t, .ok w) =>
        match decode w with
        | .error _ => s
        | .ok i =>
          if t.accepts i && (t.tooEarly i).isNone && mayStand i then (t.begin.waitFor .begun (queueOf i)).settle (stlOf w) else s
    | _, _ => s

/-! Lanes (R123, R124, R242). -/

/-- Lane l carries out one word of its block, which it fetches and checks first when it has none. -/
def State.laneStep (s : State) (l : Nat) : Out :=
  let t := if (tabGet LaneState.idle s.c.lanes l).block = [] then s.laneFetch l else s
  let st := tabGet LaneState.idle t.c.lanes l
  match st.run, st.block with
  | true, w :: _ =>
    match decode w with
    | .error _ => .next (t.laneFault l (Machine.blockTrap 1 st.lpc))
    | .ok i => onNext (exec i { t with laneSel := some l }) fun u => { u with laneSel := none }
  | _, _ => .next t

/-- The lanes of a list move in turn. -/
def State.laneSteps (s : State) : List Nat → Out
  | [] => .next s
  | l :: rest =>
    match s.laneStep l with
    | .next t => State.laneSteps t rest
    | o => o

/-- A vector-thread step of the context in hand: one instruction of every running block. -/
def State.threadStep (s : State) : Out :=
  match (if s.c.thr && s.c.status == .bound then s.strip else none), s.c.running with
  | some b, l :: ls => s.dispatch b fun t => t.laneSteps (l :: ls)
  | _, _ => .next s

/-! The turn of a context. -/

/-- The context in hand, BOUND and not held, goes on: a new instruction, or the one that waits. -/
def State.goOn (s : State) : Out :=
  match s.c.wait with
  | .none => s.fetchIssue
  | .queued w _ => s.runQueued w
  | .engine _ _ => exec .engineCountWaitRelease s
  | .clasp _ _ _ => exec .claspWaitRelease s
  | .wfe => exec .wfeWake s
  | .vfence => exec .drainGroupRelease s
  | .vjoin => if s.c.running = [] then exec .vjoinCompletion s else s.threadStep
  | .lanes => exec .laneBinding s
  | .drain _ => exec .drainCompletion s
  | .seam | .assay | .fence _ | .port | .going | .begun => s.rerun

/-- A context that is BOUND has its turn: the next instruction queued comes to the head, an asynchronous cause is taken, or it goes
on. A context held for an answer stands. -/
def State.boundTurn (s : State) : Out :=
  match s.c.wait, s.c.ahead with
  | .none, some a => .next (s.promote a)
  | _, _ =>
    let t := if s.c.wait = .none then s.writeback else s
    match t.async with
    | some i => exec i t
    | none => if t.c.held then .next t else t.goOn

/-- The context in hand has its turn. A context with no task stands. -/
def State.issue (s : State) : Out :=
  match s.c.status with
  | .free | .out | .frozen => .next s
  | .drain => exec .taskEnd s
  | .bound => s.boundTurn

/-! The agenda (log 1, DESIGN CHOICE). -/

/-- May a row stand on the agenda: one that no instruction word names, and that is not an instruction's own effect? -/
def mayHappen (i : Instr) : Bool :=
  (Sys2Proof.encode i 0).isNone && match i with
  | .illegalInstruction _ | .mxctlResWrite _ | .ptrootAsidWrite _ _ | .pgreq _ => false
  | _ => true

/-- Cycles of the timer that a context counts in ns nanoseconds at 850 MHz, under a throttle level (R231, R292). -/
def cyclesIn (ns : Nat) (throttle : Fin 8) : Nat := ns * 85 * (8 - throttle.val) / 800

/-- The element-progress timer of a context after n cycles. -/
def Ctx.tick (c : Ctx) (n : Nat) : Ctx :=
  if c.status = .bound ∧ !c.held ∧ !(c.queues == Queues.empty) ∧ !c.awaitsClasp then { c with ept := c.ept + n } else c

/-- The queue, by its code, of the instruction over which the timer of a context has reached its limit (R226, R231). -/
def Ctx.expired (c : Ctx) : Option (Fin 8) :=
  if !c.overdue then none
  else if c.queues.vq ≠ [] then some 1
  else if c.queues.lq ≠ [] then some 2
  else if c.queues.mq ≠ [] then some 3
  else if c.queues.aq ≠ [] then some 4
  else none

/-- Where the timer of context g has reached its limit PROGRESS falls due, once; what it finds stalled is free (log 5, DESIGN CHOICE). -/
def State.expire (s : State) (g : Nat) : State :=
  match (s.ctxAt g).asked.progress, (s.ctxAt g).expired with
  | none, some q =>
    let f := Config.freeStall s.fresh
    let st : Stall := ⟨q, f.1, f.2.1, f.2.2.1, f.2.2.2.1, f.2.2.2.2.1, f.2.2.2.2.2⟩
    { s.onCtx g fun c => { c with asked := { c.asked with progress := some st } } with fresh := s.fresh + 1 }
  | _, _ => s

/-- ns nanoseconds pass on every package that has come up. -/
def State.clock (s : State) (ns : Nat) : State :=
  let cycles (g : Nat) : Nat := cyclesIn ns (s.dieAt (dieOf g)).throttle
  let s1 := { s with
    c := s.c.tick (cycles s.here)
    ctxs := (s.ctxs.map fun e => (e.1, e.2.tick (cycles e.1))).filter fun e => decide (e.2 ≠ Ctx.reset) }
  let s2 := (s.here :: s.ctxs.map (·.1)).foldl State.expire s1
  (s.pkgs.map (·.1)).foldl (fun t p => if (t.pkgAt p).boot = .running then t.passTime p ns else t) s2

/-- One entry of the agenda happens. -/
def State.turn (s : State) : Turn → Out
  | .event i => if mayHappen i then exec i s else .next s
  | .issue g => (s.focus g).issue
  | .ahead g => .next (s.focus g).runAhead
  | .begin g => .next (s.focus g).beginHead
  | .threads g => (s.focus g).threadStep
  | .clock ns => .next (s.clock ns)
  | .preempt g => .next (s.askPreempt g)
  | .reclaim g cap taker => .next (s.askCap g cap taker)
  | .upset u => .next (s.upset u)
  | .refreshDue chan bank => .next (s.refreshDue chan bank)
  | .encode k => .next { s with unencoded := tabSet Unencoded.none s.unencoded k Unencoded.none }

/-- What moves next: the head of the agenda, or with none the context in hand. -/
def State.advance (s : State) : Out :=
  match s.agenda with
  | [] => s.issue
  | t :: rest => { s with agenda := rest }.turn t

/-! A word placed where the next step fetches (log 18, DESIGN CHOICE). -/

/-- A table entry for the frame at pa: the low bits say what it is (R196). -/
def tableEntry (pa low : Nat) : List Byte := leBytes 8 (pa / 2 ^ 16 * 2 ^ 24 + low) ++ leBytes 8 0

/-- Tables in the HBM of the context's package map the 4 GiB around va to the HBM from 4 GiB upward, readable, writable and
executable; the word stands at va. -/
def State.mapWord (s : State) (va w : Nat) : State :=
  let base := s.pkg * 2 ^ 46
  let put (t : State) (pa : Nat) (bs : List Byte) : State := t.putBytes none Lay.plain pa bs
  let s1 := put s (base + 0x10000 + 16 * field va 64 8) (tableEntry (base + 0x20000) 1)
  let s2 := put s1 (base + 0x20000 + 16 * field va 52 12) (tableEntry (base + 0x30000) 1)
  let s3 := put s2 (base + 0x30000 + 16 * field va 40 12) (tableEntry (base + 0x40000) 1)
  let s4 := put s3 (base + 0x40000 + 16 * field va 32 8) (tableEntry (base + 2 ^ 32) 0x19F)
  put s4 (base + 2 ^ 32 + va % 2 ^ 32) (leBytes 8 w)

/-- The other contexts of the core in hand stand, so that none competes for the lanes. -/
def State.aloneHere (s : State) : State :=
  (List.range 4).foldl (fun t j =>
    let g := 4 * coreOf s.here + j
    if g ≠ s.here ∧ (t.ctxAt g).status = .bound then t.onCtx g fun c => { c with held := true } else t) s

/-- s with a word placed where the context in hand, BOUND and free to issue, fetches next. -/
def State.placeWord (s : State) (nbits w : Nat) : State :=
  let root : Word := BitVec.ofNat 64 (s.pkg * 2 ^ 46 + 0x10000)
  let s1 := { s with
    c := { s.c with
      status := .bound
      pc := s.c.pc &&& ~~~7#64
      thr := false
      held := false
      wait := .none
      queues := Queues.empty
      queued := []
      ahead := none
      asked := ⟨none, false⟩
      event := none
      pending := []
      ptroot := root }
    agenda := []
    laneSel := none
    bad := [] }
  let s2 := ((s1.onDie s1.die fun x => { x with down := false }).onDie (4 * s1.pkg) fun x => { x with down := false }).onPkg s.pkg
    fun x => if x.lists s.pkg s.pkg then x else { x with map := ⟨s.pkg, Vector.replicate 4 0⟩ :: x.map }
  s2.aloneHere.mapWord s2.fetchVa (w % 2 ^ nbits)

end Sys2Proof.Machine
end

