-- ==== Sys2Proof/Safety.lean ====
section
/-! DEFINITION. What claims call a safe run. Every trap of this machine is a next state, so a run goes wrong only by a fault or a
refusal, which no step of it answers; and its memory keeps the canonical form. -/

namespace Sys2Proof.Machine

/-- A step that goes on. -/
def Out.goesOn (o : Out) : Prop := ∃ s, o = .next s

/-- Memory in canonical form: addresses strictly rising, no entry that reads as an unlisted one does. -/
def Memory.wf (m : Tab Byte) : Bool := tabWf 0 m

/-- A state whose memory is in canonical form. -/
def State.MemOk (s : State) : Prop := Memory.wf s.mem = true

/-- n steps that all go on. -/
def SafeRun : Nat → State → Prop
  | 0, _ => True
  | n + 1, s => ∃ t, step s = .next t ∧ SafeRun n t

end Sys2Proof.Machine
end

