-- ==== Sys2Proof/Certificates/Slice0/Obligations.lean ====
section
/-! DEFINITION. What the provers are to prove of this model. Each statement names the rules of spec/ it formalises. A step of
the machine never faults and never refuses, so every statement about an instruction says that exec answers a next state, and
which. -/

namespace Sys2Proof.Machine

/-! Vocabulary. A next state is written as the old one with the fields that change; a field not named is unchanged, and with
it every register, flag, special register and byte of memory that the field holds. -/

/-- The context's own stream issues: no lane is carrying out a block (R104, R124). -/
def InScu (s : State) : Prop := s.laneSel = none

/-- A scalar register: x0 reads zero (R99). -/
def xOf (s : State) (r : XReg) : Word := if r = 0 then 0 else s.c.x[r]

/-- b of format S: the register, or the immediate sign-extended (R111). -/
def bOf (s : State) : XSrc → Word
  | .reg r => xOf s r
  | .imm v => BitVec.ofInt 64 v.toInt

/-- What writing v to x[rd] leaves: x0 is discarded (R99); a result still on its way to rd is discarded too (R108). -/
def Wrote (c : Ctx) (rd : XReg) (v : Word) (x : Vector Word 32) (p : List Pending) : Prop :=
  (rd = 0 → x = c.x ∧ p = c.pending) ∧
  (rd ≠ 0 → x[rd] = v ∧ p = c.pending.filter fun q => q.reg != rd) ∧
  ∀ r : XReg, r ≠ rd → x[r] = c.x[r]

/-- exec answers s with v in x[rd] and the PC at the next instruction, and nothing else changed. -/
def Gives (o : Out) (s : State) (rd : XReg) (v : Word) : Prop :=
  ∃ x p, Wrote s.c rd v x p ∧ o = .next { s with c := { s.c with x := x, pending := p, pc := s.c.pc + 8 } }

/-- exec answers s at another PC, and nothing else changed. -/
def Goes (o : Out) (s : State) (pc : Word) : Prop := o = .next { s with c := { s.c with pc := pc } }

/-- The instruction waits: its PC stands, nothing is changed but the wait and the queue it stands in (R104, R107). -/
def Waits (o : Out) (s : State) (w : Wait) (q : Queue) : Prop :=
  o = .next { s with c := { s.c with wait := w, queues := s.c.queues.push q s.c.pc } }

/-- The queues a draining instruction names are empty (R107). -/
def Drained (s : State) (qs : List Queue) : Prop := ∀ q ∈ qs, s.c.queues.isEmpty q = true

/-- Two's complement of an integer in 64 bits. -/
def word (z : Int) : Word := BitVec.ofInt 64 z

/-- The interlocked instructions of XALU with the result R111 gives, over the integers. -/
def aluRows : List ((XReg → XReg → XSrc → Instr) × (Word → Word → Word)) :=
  [(.add, fun a b => word (a.toInt + b.toInt)),
   (.sub, fun a b => word (a.toInt - b.toInt)),
   (.and, fun a b => a &&& b),
   (.or, fun a b => a ||| b),
   (.xor, fun a b => a ^^^ b),
   (.sll, fun a b => word (a.toNat * 2 ^ (b.toNat % 64))),
   (.srl, fun a b => word (a.toNat / 2 ^ (b.toNat % 64))),
   (.sra, fun a b => word (a.toInt / 2 ^ (b.toNat % 64))),
   (.slt, fun a b => if a.toInt < b.toInt then 1 else 0),
   (.sltu, fun a b => if a.toNat < b.toNat then 1 else 0),
   (.min, fun a b => word (min a.toInt b.toInt)),
   (.max, fun a b => word (max a.toInt b.toInt)),
   (.minu, fun a b => word (min a.toNat b.toNat)),
   (.maxu, fun a b => word (max a.toNat b.toNat)),
   (.div, fun a b => if b = 0 then 0xFFFFFFFFFFFFFFFF else word (a.toInt.tdiv b.toInt)),
   (.divu, fun a b => if b = 0 then 0xFFFFFFFFFFFFFFFF else word ((a.toNat / b.toNat : Nat) : Int)),
   (.rem, fun a b => if b = 0 then a else word (a.toInt.tmod b.toInt)),
   (.remu, fun a b => if b = 0 then a else word ((a.toNat % b.toNat : Nat) : Int))]

/-- The multiplications, over the integers. -/
def mulRows : List ((XReg → XReg → XSrc → Instr) × (Word → Word → Word)) :=
  [(.mul, fun a b => word (a.toInt * b.toInt)),
   (.mulh, fun a b => word (a.toInt * b.toInt / 2 ^ 64)),
   (.mulhu, fun a b => word (a.toNat * b.toNat / 2 ^ 64))]

/-- v is the number of leading zeros of a. -/
def LeadingZeros (a v : Word) : Prop := v.toNat ≤ 64 ∧ a.toNat < 2 ^ (64 - v.toNat) ∧ (v.toNat < 64 → 2 ^ (63 - v.toNat) ≤ a.toNat)

/-- v is the number of trailing zeros of a. -/
def TrailingZeros (a v : Word) : Prop :=
  v.toNat ≤ 64 ∧ 2 ^ v.toNat ∣ a.toNat ∧ (a ≠ 0 → ¬ 2 ^ (v.toNat + 1) ∣ a.toNat) ∧ (a = 0 → v = 64)

/-- v is the number of set bits of a. -/
def SetBits (a v : Word) : Prop := v.toNat = (Finset.univ.filter fun i : Fin 64 => a.getLsbD i.val = true).card

/-- exec sends v to x[rd], to arrive lat slots after the next one; x0 discards it (R108). -/
def Sends (o : Out) (s : State) (rd : XReg) (v : Word) (lat : Nat) : Prop :=
  o = .next { s with c := { s.c with
    pending := if rd = 0 then s.c.pending else s.c.pending ++ [⟨rd, v, s.c.slot + lat + 1, s.c.pc⟩]
    pc := s.c.pc + 8 } }

/-- The relations of BR, over the integers (R115). -/
def branchRows : List ((XReg → XReg → BitVec 32 → Instr) × (Word → Word → Bool)) :=
  [(.beq, fun a b => decide (a.toNat = b.toNat)),
   (.bne, fun a b => decide (a.toNat ≠ b.toNat)),
   (.blt, fun a b => decide (a.toInt < b.toInt)),
   (.bge, fun a b => decide (b.toInt ≤ a.toInt)),
   (.bltu, fun a b => decide (a.toNat < b.toNat)),
   (.bgeu, fun a b => decide (b.toNat ≤ a.toNat))]

end Sys2Proof.Machine

open Sys2Proof Sys2Proof.Machine

/-- R111, R112 (add, sub, and, or, xor, sll, srl, sra, slt, sltu, min, max, minu, maxu, div, divu, rem, remu; li, lui, mv, sel):
the result, both forms, every operand; x0; the frame. -/
def Obligations.ScalarArithmeticResults : Prop :=
  (∀ p ∈ aluRows, ∀ (s : State) (rd ra : XReg) (b : XSrc), InScu s →
     Gives (exec (p.1 rd ra b) s) s rd (p.2 (xOf s ra) (bOf s b))) ∧
  (∀ (s : State) (rd ra rb : XReg) (imm : BitVec 32), InScu s →
     Gives (exec (.li rd imm) s) s rd (word imm.toInt) ∧
     Gives (exec (.lui rd ra imm) s) s rd (word (imm.toNat * 2 ^ 32 + (xOf s ra).toNat % 2 ^ 32)) ∧
     Gives (exec (.mv rd ra) s) s rd (xOf s ra) ∧
     Gives (exec (.sel rd ra rb) s) s rd (if xOf s rd ≠ 0 then xOf s ra else xOf s rb))

/-- R108, R111 (mul, mulh, mulhu, clz, ctz, popc, FIXED_LATENCY_WRITEBACK): a fixed-latency result, its value and the slot that
first reads it; it is in its register from that slot on, the later of two standing, and waits before; x0 takes none. -/
def Obligations.FixedLatencyResults : Prop :=
  ((∀ p ∈ mulRows, ∀ (s : State) (rd ra : XReg) (b : XSrc), InScu s →
     Sends (exec (p.1 rd ra b) s) s rd (p.2 (xOf s ra) (bOf s b)) 3) ∧
   ∀ (s : State) (rd ra : XReg), InScu s →
     (∃ v, LeadingZeros (xOf s ra) v ∧ Sends (exec (.clz rd ra) s) s rd v 2) ∧
     (∃ v, TrailingZeros (xOf s ra) v ∧ Sends (exec (.ctz rd ra) s) s rd v 2) ∧
     (∃ v, SetBits (xOf s ra) v ∧ Sends (exec (.popc rd ra) s) s rd v 2)) ∧
  (∀ s : State, ∃ x, (∀ r : XReg, x[r] =
       if r = 0 then s.c.x[r]
       else (((s.c.pending.filter fun p => p.reg == r && decide (p.due ≤ s.c.slot)).getLast?).map (·.val)).getD s.c.x[r]) ∧
     exec .fixedLatencyWriteback s = .next { s with c := { s.c with
       x := x, pending := s.c.pending.filter fun p => decide (s.c.slot < p.due) } })

/-- R115, R116 (beq, bne, blt, bge, bltu, bgeu; jal, jalr): where a branch goes; the link and the target of a jump, XB read before
the link is written; a target that is no multiple of 8 raises PCALIGN and changes no register; nothing else changes. -/
def Obligations.BranchesAndJumps : Prop :=
  (∀ p ∈ branchRows, ∀ (s : State) (ra rb : XReg) (off : BitVec 32), InScu s →
     Goes (exec (p.1 ra rb off) s) s (if p.2 (xOf s ra) (xOf s rb) then s.c.pc + word off.toInt else s.c.pc + 8)) ∧
  (∀ (s : State) (rd rb : XReg) (off : BitVec 32), InScu s →
     (∃ x p, Wrote s.c rd (s.c.pc + 8) x p ∧
       exec (.jal rd off) s = .next { s with c := { s.c with x := x, pending := p, pc := s.c.pc + word off.toInt } }) ∧
     ((xOf s rb + word off.toInt).toNat % 8 = 0 → ∃ x p, Wrote s.c rd (s.c.pc + 8) x p ∧
       exec (.jalr rd rb off) s = .next { s with c := { s.c with x := x, pending := p, pc := xOf s rb + word off.toInt } }) ∧
     ((xOf s rb + word off.toInt).toNat % 8 ≠ 0 →
       exec (.jalr rd rb off) s = .next (s.raise { cause := .pcalign, addr := xOf s rb + word off.toInt })))

namespace Sys2Proof.Machine

/-! Memory. -/

/-- The byte that a read through the normal aperture finds at a physical address (R310). -/
def byteAt (s : State) (pa : Nat) : Byte := (s.bytesAt false pa 1).headD 0

/-- The byte that a read of HBM through the raw aperture gives (R312). -/
def rawAt (s : State) (pa : Nat) : Byte := (s.bytesAt true pa 1).headD 0

/-- Raw reads find the writes of context g of the classes cs (R313). -/
def rawFinds (s : State) (g : Nat) (cs : List Cls) : State :=
  { s with unencoded := s.unencoded.filter fun e => decide (∀ w ∈ e.2.writers, w.1 ≠ g ∨ w.2 ∉ cs) }

/-- Scopes that contain the agents of a package (R216), and those that act as one for a fence or an atomic (R114, R217). -/
def wholePackage : List Scope := [.package, .memory, .host, .domain, .system]
def actsWhole : List Scope := wholePackage ++ [.bank, .stack]

/-- The writes of the context in hand of the classes cs, performed for raw reads too under one of the scopes scs (R313). -/
def performedAt (s : State) (scs : List Scope) (sc : Scope) (cs : List Cls) : State := if sc ∈ scs then rawFinds s s.here cs else s

/-- The first n of a list of bytes stand at pa .. pa + n - 1 in t; every other byte reads as it does in s. A store through the
raw aperture is seen through it (R312). -/
def Stored (s t : State) (raw : Bool) (pa : Nat) (bs : List Byte) : Prop :=
  (raw = false → ∀ a, byteAt t a = if pa ≤ a ∧ a < pa + bs.length then bs.getD (a - pa) 0 else byteAt s a) ∧
  (raw = true → ∀ a, rawAt t a = if pa ≤ a ∧ a < pa + bs.length then bs.getD (a - pa) 0 else rawAt s a)

/-- t is s but for memory and what goes with it: line tags, line buffers, errors in protected units and their counts, the power states of
pseudo-channels, the assay accumulators, and the watch events of other contexts. -/
def MemoryOnly (s t : State) : Prop :=
  t = { s with
    ctxs := t.ctxs, mem := t.mem, tags := t.tags, unencoded := t.unencoded, bad := t.bad, chans := t.chans, assay := t.assay
    pkgs := t.pkgs } ∧
  ∀ g, ∃ e n, tabGet Ctx.reset t.ctxs g = { tabGet Ctx.reset s.ctxs g with event := e, lost := n }

/-- An HBM range does not run out of the HBM, nor another range into it. -/
def InOne (pa n : Nat) : Prop := ∀ k, k < n → inHbm (pa + k) = inHbm pa

/-- Bytes and line tags stand as writes leave them: canonical tables, a tag of the six (R310). -/
def BytesOk (s : State) : Prop :=
  s.MemOk ∧ tabWf 0 s.tags = true ∧ (∀ line, s.tagOf line ≤ 5) ∧ tabWf Unencoded.none s.unencoded = true

/-- A save record lies in memory of one kind, at whole lines. -/
def RecordAt (pa : Nat) : Prop := pa % 4096 = 0 ∧ InOne pa 0x40000

/-- Every held line stands at a multiple of 64 (R270). -/
def LinesOk (c : Ctx) : Prop := ∀ l ∈ c.lines, l.pa % 64 = 0

/-- The byte at a, b before, once the held lines ls have been performed, oldest first (R270). -/
def heldOver (ls : List HeldLine) (a : Nat) (b : Byte) : Byte :=
  ls.foldl (fun b l => if l.pa ≤ a ∧ a < l.pa + 64 ∧ l.sel.getLsbD (a - l.pa) = true then l.bytes.extractLsb' (8 * (a - l.pa)) 8 else b) b

/-- The lines that context c holds stand at line addresses, and none is of the raw aperture. -/
def PlainLines (c : Ctx) : Prop := LinesOk c ∧ ∀ l ∈ c.lines, l.lay.raw = false

/-- t is s with the lines that p picks of those the context in hand holds performed, oldest first, and held no longer; no other byte
changes (R270). -/
def Performed (s t : State) (p : HeldLine → Bool) : Prop :=
  t.c = { s.c with lines := s.c.lines.filter fun l => !p l } ∧ MemoryOnly s { t with c := s.c } ∧
  ∀ a, byteAt t a = heldOver (s.c.lines.filter p) a (byteAt s a)

/-- A held line of one of the bytes pa .. pa + n - 1. -/
def touches (pa n : Nat) (l : HeldLine) : Bool := decide (l.pa < pa + n ∧ pa < l.pa + 64)

/-- The held lines that an atomic at pa releases first (R270; log 24). -/
def letsGo (o : Order) (pa : Nat) : HeldLine → Bool := match o with
  | .rel | .acqrel => fun _ => true
  | .rlx | .acq => touches pa 8

/-- An access of n bytes at VAH : a translates to leaf l, leaving s1; the pin admits it and no watchpoint sees it. -/
def Reaches (s s1 : State) (a : Word) (n : Nat) (k : Need) (ap : Ap) (l : Leaf) : Prop :=
  a.toNat % n = 0 ∧ s.translate s.view (s.c.vah.toNat * 2 ^ 64 + a.toNat) k ap = (s1, .ok l) ∧
  s1.pinOk s1.pkg s1.c.session l.pa = true ∧ s1.watched .ls k l.pa n = []

/-- The apertures an XMEM access of n bytes admits (R199). -/
def apOf (n : Nat) : Ap := if n = 8 then .device else .narrow

/-- A value of n bytes as a load leaves it in a register (R113). -/
def loaded (n : Nat) (signed : Bool) (v : Nat) : Word :=
  if signed then word ((BitVec.ofNat (8 * n) v).toInt) else BitVec.ofNat 64 v

def loadRows : List ((XReg → XReg → XSrc → Instr) × Nat × Bool) :=
  [(.ld8, 1, true), (.ld16, 2, true), (.ld32, 4, true), (.ld64, 8, true), (.ldz8, 1, false), (.ldz16, 2, false), (.ldz32, 4, false)]

def storeRows : List ((XReg → XReg → XSrc → Instr) × Nat) := [(.st8, 1), (.st16, 2), (.st32, 4), (.st64, 8)]

/-- What an atomic writes: the old value, X[XB], and X[XD] (R114). -/
def amoRows : List ((AmoOp → Instr) × (Word → Word → Word → Option Word)) :=
  [(.amoAdd, fun old b _ => some (word (old.toInt + b.toInt))),
   (.amoAnd, fun old b _ => some (old &&& b)),
   (.amoOr, fun old b _ => some (old ||| b)),
   (.amoXor, fun old b _ => some (old ^^^ b)),
   (.amoMin, fun old b _ => some (word (min old.toInt b.toInt))),
   (.amoMax, fun old b _ => some (word (max old.toInt b.toInt))),
   (.amoSwap, fun _ b _ => some b),
   (.amoCas, fun old b d => if old = d then some b else none)]

/-- A clasp as its register reads (R257). -/
def claspValue (c : Clasp) : Nat := c.target.toNat + 2 ^ 16 * c.arrived.toNat + 2 ^ 32 * c.phase.toNat

/-- A clasp after a write of TARGET, 0 standing for 1 (R257). -/
def retargeted (c : Clasp) (v : Word) : Clasp := ⟨if v.toNat % 2 ^ 16 = 0 then 1 else BitVec.ofNat 16 v.toNat, 0, c.phase⟩

/-- What a doubleword load of an MMIO register reads (R257, R279, R303, R324, R330, R331). -/
def registerValue (s : State) : Place → Nat
  | .doorbell d q => (s.queueAt d q).tail.toNat
  | .dieClasp d i => claspValue (tabGet Clasp.reset (s.dieAt d).clasps i)
  | .clasp c i => claspValue (tabGet Clasp.reset (s.clusterAt c).clasps i)
  | .asyclr d => (s.dieAt d).asyclr.toNat
  | .pgreq _ => s.c.pgreq.toNat
  | .lateans d => (s.dieAt d).lateans.toNat
  | .pwrctl d j => ((s.dieAt d).pwrctl.toList.getD j 0).toNat
  | .refcnt d j => ((s.dieAt d).refcnt.toList.getD j 0).toNat
  | .hbm _ | .dsram _ _ | .spad _ _ | .tcm _ _ | .nothing => 0

/-- s after a doorbell: TAIL is the value's low word; once the queue has a ring, a TAIL more than the ring ahead of HEAD is cut to it
and the excess counted (R279). -/
def rung (s : State) (die q : Nat) (v : Word) : State :=
  let h := s.queueAt die q
  let size := 2 ^ (h.image.toNat / 2 ^ 384 % 32)
  let tail : BitVec 32 := BitVec.ofNat 32 v.toNat
  if h.set = true ∧ size < (tail - h.head).toNat then
    (s.putQueue die q { h with tail := h.head + BitVec.ofNat 32 size }).onDie die fun x => { x with errors := x.errors + 1 }
  else s.putQueue die q { h with tail := tail }

/-- s after ASYCLR of a die: the id's accumulators in the package's twelve stacks are zero (R303, R324). -/
def assayCleared (s : State) (die : Nat) (v : Word) : State :=
  { s with
    assay := (List.range 12).foldl (fun a k => tabSet 0 a ((12 * (die / 4) + k) * 256 + v.toNat % 256) 0) s.assay }.onDie die
      fun x => { x with asyclr := BitVec.ofNat 8 v.toNat }

/-- s after a write of a register other than PGREQ; REFCNT and LATEANS ignore it (R257, R279, R303, R324, R331). -/
def registerStored (s : State) (p : Place) (v : Word) : State := match p with
  | .doorbell d q => rung s d q v
  | .dieClasp d i => s.putClasp (.die d (Fin.ofNat 256 i)) (retargeted (tabGet Clasp.reset (s.dieAt d).clasps i) v)
  | .clasp c i => s.putClasp (.cluster c (Fin.ofNat 64 i)) (retargeted (tabGet Clasp.reset (s.clusterAt c).clasps i) v)
  | .asyclr d => assayCleared s d v
  | .pwrctl d j => s.onDie d fun x => { x with pwrctl := x.pwrctl.set (Fin.ofNat 3 j) (v &&& 0x0000FFFFFFFF0000#64) }
  | .pgreq _ | .lateans _ | .refcnt _ _ | .hbm _ | .dsram _ _ | .spad _ _ | .tcm _ _ | .nothing => s

/-- The machine after PGREQ has taken a request that the port has room for (R330, R331; log 10). -/
def afterRequest (s1 : State) (v : Word) (r : Option (List Byte)) (die : Nat) : State :=
  let rec_ : BitVec 2048 := BitVec.ofNat 2048 (leNat (r.getD []))
  let c : Ctx := { s1.c with gen := s1.c.gen + 1, pgreq := v &&& ~~~63#64, asking := true, request := rec_,
                             answer := if rec_ = 0 then some (true, 0xFFFF) else none }
  let t := { s1 with c := c }
  if rec_ = 0 then t
  else
    let up := (s1.pkgAt (die / 4)).linkUp
    let u := t.onDie die fun x => { x with requests := x.requests ++ [⟨s1.here, c.gen, c.asid, c.ptroot, rec_, !up⟩] }
    if up then { u with host := .pageRequest s1.here c.gen c.asid c.ptroot rec_ :: u.host } else u

/-- s at the next instruction. -/
def next (s : State) : State := { s with c := { s.c with pc := s.c.pc + 8 } }

end Sys2Proof.Machine

/-- A byte written is the byte read, and no other byte changes, whatever the encoding of the line before and after (R310, R311),
through either aperture (R312), for every agent. What an instruction or an engine command writes waits in a line buffer: a raw read
finds what it found before, until the controller has encoded the sector of 32 bytes (R313).
Model's choices it rests on: log 53 (DEDUCED: whose writes wait). -/
def Obligations.WriteThenReadEveryByte : Prop :=
  (∀ (s : State) (a : Agent) (lay : Lay) (pa : Nat) (bs : List Byte), BytesOk s → InOne pa bs.length →
    (lay.raw = true → inHbm pa = true) → let t := s.write a lay pa bs
    Stored s t lay.raw pa bs ∧
    (lay.raw = false → inHbm pa = true → a.ctx ≠ none → a.cls ≠ .seam → ∀ b, rawAt t b = rawAt s b)) ∧
  ∀ (s : State) (k : Nat) (rest : List Turn), BytesOk s → s.agenda = .encode k :: rest → ∃ t, step s = .next t ∧
    t = { s with agenda := rest, unencoded := t.unencoded } ∧
    ∀ b, rawAt t b = if b / 32 = k ∨ inHbm b = false then tabGet 0 s.mem b else rawAt s b

/-- A line decodes to what was encoded (R310, R311), and a compressed image is whole bursts, at most 96 bytes. -/
def Obligations.LineCompressionRoundTrip : Prop :=
  ∀ (cz : Bool) (bs tail : List Byte), bs.length = 128 →
    let e := encodeLine cz bs
    e.1 ≤ 5 ∧ (cz = false → e = (0, bs)) ∧ (e.1 ≠ 0 → e.2.length % 32 = 0 ∧ e.2.length ≤ 96) ∧
    decodeLine e.1 ((e.2 ++ tail).take 128) = some bs

/-- R200, R198: a translation that succeeds sets AC in the leaf's entry, and DT for a write, keeps the entry's other bits and changes
nothing else; one that fails changes nothing. Its reads may wake pseudo-channels (R307), and are retries of errors that stand in what
they read (R340). The leaf grants what the access needs.
Model's choices it rests on: log 7 (DESIGN CHOICE). -/
def Obligations.TranslationMarksItsLeaf : Prop :=
  ∀ (s s1 : State) (v : View) (va : Nat) (n : Need) (ap : Ap), BytesOk s →
    (∀ e, s.translate v va n ap = (s1, .error e) →
      s1 = { s with chans := s1.chans, bad := s1.bad, pkgs := s1.pkgs } ∧ (s.bad = [] → s1 = { s with chans := s1.chans })) ∧
    ∀ l, s.translate v va n ap = (s1, .ok l) →
      MemoryOnly s s1 ∧ s1.ctxs = s.ctxs ∧
      (n.rd → l.w0.testBit 2 = true) ∧ (n.wr → l.w0.testBit 3 = true) ∧ (n.ex → l.w0.testBit 4 = true) ∧
      (n.sm → l.w0.testBit 5 = true) ∧
      l.w0 = leNat (s.bytesAt false l.entry 8) ∧
      leNat (s1.bytesAt false l.entry 8) = l.w0 ||| 2 ^ 7 ||| (if n.wr then 2 ^ 8 else 0) ∧
      ∀ a, ¬ (l.entry ≤ a ∧ a < l.entry + 8) → byteAt s1 a = byteAt s a

/-- R113 (ld8, ld16, ld32, ld64, ldz8, ldz16, ldz32): the value read, extended; the context's own held stores are seen (R213);
a doubleword load of a register of the MMIO range reads its value (R199, R257, R279, R303, R330, R331). -/
def Obligations.ScalarLoads : Prop :=
  ∀ p ∈ loadRows, ∀ (s s1 s2 : State) (rd ra : XReg) (b : XSrc) (l : Leaf), InScu s →
    Reaches s s1 (xOf s ra + bOf s b) p.2.1 Need.read (apOf p.2.1) l →
    ((s1.place l.pa).isMem = true → s1.checkRead l.lay l.pa p.2.1 = (s2, none) →
      s2.c = s.c ∧ Gives (exec (p.1 rd ra b) s) s2 rd (loaded p.2.1 p.2.2 (leNat (s2.ownBytes .ls l p.2.1)))) ∧
    ((s1.place l.pa).isMem = false → p.2.1 = 8 →
      s1.c = s.c ∧ Gives (exec (p.1 rd ra b) s) s1 rd (BitVec.ofNat 64 (registerValue s1 (s1.place l.pa))))

/-- R113, R270 (st8, st16, st32, st64): with CTL.DET 0 the bytes reach memory and no others change; with it they are held:
memory is unchanged, and the context's own loads see them (R213). A store through the device aperture is not held: it follows the
held stores to its bytes (R270).
Model's choices it rests on: log 24 (DEDUCED). -/
def Obligations.ScalarStores : Prop :=
  ∀ p ∈ storeRows, ∀ (s s1 : State) (rs ra : XReg) (b : XSrc) (l : Leaf), InScu s → BytesOk s →
    Reaches s s1 (xOf s ra + bOf s b) p.2 Need.write (apOf p.2) l → (s1.place l.pa).isMem = true →
    (s.c.det = false → l.ap ≠ 2 → (l.lay.raw = true → inHbm l.pa = true) → ∃ u, MemoryOnly s1 u ∧
      Stored s1 u l.lay.raw l.pa (leBytes p.2 (xOf s rs).toNat) ∧ exec (p.1 rs ra b) s = .next (next u)) ∧
    (s.c.det = true → l.ap ≠ 2 → LinesOk s.c → s.c.lines.length < 1024 → ∃ ls,
      exec (p.1 rs ra b) s = .next (next { s1 with c := { s1.c with lines := ls } }) ∧
      ({ s1 with c := { s1.c with lines := ls } }).ownBytes .ls l p.2 = leBytes p.2 (xOf s rs).toNat) ∧
    (l.ap = 2 → PlainLines s.c →
      let r := s1.releaseBytes s1.here l.pa p.2
      Performed s1 r (touches l.pa p.2) ∧ ∃ u, MemoryOnly r u ∧ Stored r u false l.pa (leBytes p.2 (xOf s rs).toNat) ∧
        exec (p.1 rs ra b) s = .next (next u))

/-- R199, R257, R279, R303, R324, R331: what a doubleword store to each register of the MMIO range leaves; at PGREQ it sends a page
request, its record read from the TCM window, and waits while 1,024 requests of the die are unanswered.
Model's choices it rests on: log 10 (DEDUCED). -/
def Obligations.RegisterStores : Prop :=
  ∀ (s s1 : State) (rs ra : XReg) (b : XSrc) (l : Leaf), InScu s →
    Reaches s s1 (xOf s ra + bOf s b) 8 Need.write .device l → (s1.place l.pa).isMem = false →
    let v := xOf s rs
    let at_ := v.toNat - v.toNat % 64
    ((∀ d, s1.place l.pa ≠ .pgreq d) → exec (.st64 rs ra b) s = .next (next (registerStored s1 (s1.place l.pa) v))) ∧
    ∀ d, s1.place l.pa = .pgreq d →
      (1024 ≤ (s1.dieAt d).requests.length → Waits (exec (.st64 rs ra b) s) s1 .port .lq) ∧
      ((s1.dieAt d).requests.length < 1024 →
        (at_ < 2 ^ 32 ∨ 2 ^ 32 + 2 ^ 20 < at_ + 256 → exec (.st64 rs ra b) s = .next (next (afterRequest s1 v none d))) ∧
        ∀ (t u : State) (m : Leaf), 2 ^ 32 ≤ at_ → at_ + 256 ≤ 2 ^ 32 + 2 ^ 20 → at_ % 2 ^ 16 + 256 ≤ 2 ^ 16 →
          s1.translate s1.view at_ Need.read .plain = (t, .ok m) → t.checkRead m.lay m.pa 256 = (u, none) →
          exec (.st64 rs ra b) s = .next (next (afterRequest u v (some (u.bytesAt m.lay.raw m.pa 256)) d)))

/-- R113, R114 (amo.add, and, or, xor, min, max, swap, cas): the held stores that the atomic releases are performed: all of them
under release order, else those of its bytes (R270); a release at a scope that holds the package has raw reads find the context's stores
(R219, R313); then the old value goes to XD, and the new one, where there is one, to memory. A misaligned address of a load, a store or
an atomic raises ACCESS, reason 2, with nothing accessed.
Model's choices it rests on: log 24 (DEDUCED). -/
def Obligations.Atomics : Prop :=
  (∀ p ∈ amoRows, ∀ (s s1 s2 : State) (o : AmoOp) (l : Leaf), InScu s → BytesOk s → PlainLines s.c →
     Reaches s s1 (xOf s o.ra) 8 Need.both .atomic l →
     let r := s1.releaseFor o.order l.pa
     let q := if o.order = .rel ∨ o.order = .acqrel then performedAt r actsWhole o.scope [.ls] else r
     Performed s1 r (letsGo o.order l.pa) ∧
     (q.checkRead l.lay l.pa 8 = (s2, none) →
       let old : Word := BitVec.ofNat 64 (leNat (s2.bytesAt false l.pa 8))
       match p.2 old (xOf s o.rb) (xOf s o.rd) with
       | some v => ∃ u, MemoryOnly s2 u ∧ Stored s2 u false l.pa (leBytes 8 v.toNat) ∧ Gives (exec (p.1 o) s) u o.rd old
       | none => Gives (exec (p.1 o) s) s2 o.rd old)) ∧
  (∀ (s : State) (rd ra : XReg) (b : XSrc) (o : AmoOp), InScu s →
     (∀ p ∈ loadRows, (xOf s ra + bOf s b).toNat % p.2.1 ≠ 0 →
       exec (p.1 rd ra b) s = .next (s.raise (accessTrap .lq 2 Need.read (xOf s ra + bOf s b)))) ∧
     (∀ p ∈ storeRows, (xOf s ra + bOf s b).toNat % p.2 ≠ 0 →
       exec (p.1 rd ra b) s = .next (s.raise (accessTrap .lq 2 Need.write (xOf s ra + bOf s b)))) ∧
     (∀ p ∈ amoRows, (xOf s o.ra).toNat % 8 ≠ 0 →
       exec (p.1 o) s = .next (s.raise (accessTrap .lq 2 Need.both (xOf s o.ra)))))

namespace Sys2Proof.Machine

/-! Control. -/

/-- Register p after an advance by vl elements of 2^sh bits (R117). -/
def bumped (vl : Nat) (x : Vector Word 32) (p : XReg) (sh : Fin 8) : Vector Word 32 :=
  if p = 0 then x else x.set p (x[p] + BitVec.ofNat 64 (vl * 2 ^ sh.val / 8))

/-- The scalar registers that smb leaves (R117). -/
def smbRegs (s : State) (o : SmbOp) : Vector Word 32 :=
  let x := s.c.x.set o.xc (s.c.x[o.xc] - BitVec.ofNat 64 s.c.vl.toNat)
  bumped s.c.vl.toNat (bumped s.c.vl.toNat (bumped s.c.vl.toNat (bumped s.c.vl.toNat x o.xp0 o.sh0) o.xp1 o.sh1) o.xp2 o.sh2)
    o.xp3 o.sh3

/-- The elements below VL whose mask bit is set. -/
def setBelow (s : State) (m : MReg) : List Nat := (List.range s.c.vl.toNat).filter fun i => (s.rm m).getLsbD i

/-- The context after its lanes were let go (R127). -/
def released (c : Ctx) : Ctx :=
  { c with vl := 0, vlg := 0, vfmt := 0, vblk := .none, vlive := false, v := Vector.replicate 32 0, m := Vector.replicate 8 0,
           vbad := [], spilled := false }

/-- VL and VLG that svl grants (R70), of a request over a width in force. -/
def granted (wid request : Nat) (f : Fmt) (b : Blk) : Nat × Nat :=
  let most := wid * 64 / f.width
  if b = .none then (min request most, min request most)
  else
    let n := Blk.len b
    let g := min ((request + n - 1) / n * n) (most / n * n)
    (min request g, g)

/-- svl can grant: it is no block grant, or one of a format that takes blocks with room for one (R70). -/
def Grantable (wid : Nat) (f : Fmt) (b : Blk) : Prop := b = .none ∨ (f.isBlock = true ∧ Blk.len b ≤ wid * 64 / f.width)

/-- The width in force once the cap is that of NEXT (R235). -/
def nextWid (s : State) : Nat := min (s.c.laneWidth s.k) (min s.c.next.toNat (s.c.laneCount s.k))

/-- A fixed-latency result of the context is on its way, where its oldest instruction stands or its SCU (R109). -/
def Pends (c : Ctx) : Prop := c.pending ≠ [] ∨ ∃ a, c.ahead = some a ∧ a.pending ≠ []

/-- A grant point finds no cap to take effect: none waits, the region is open, or a lower one may not come yet (R109, R223, R235). -/
def CapStands (c : Ctx) : Prop :=
  c.pend = false ∨ c.thr = true ∨ (c.next.toNat < c.cap.toNat ∧ (c.lpin = true ∨ Pends c ∨ c.hnd = true))

/-- The cap of the context in hand falls to NEXT here (R109, R223, R235). -/
def CapFalls (c : Ctx) : Prop :=
  c.pend = true ∧ c.thr = false ∧ c.next.toNat < c.cap.toNat ∧ c.lpin = false ∧ ¬ Pends c ∧ c.hnd = false

/-- The context runs on lanes reclaimed from another, which have not returned (R237). -/
def Borrows (c : Ctx) : Prop := c.lanesHeld ≠ 0 ∧ c.lanesBack = false

/-- At a grant point a context whose reclaimed lanes have returned shares the core's lanes again (R237). -/
def regained (s : State) : State :=
  if s.c.lanesBack = true then { s with c := { s.c with lanesHeld := 0, lanesBack := false } } else s

/-- A task switched out, once the lanes of context g of its core have returned: its victim's cap is to lift when it comes back (R236). -/
def loosed (g : Nat) (o : OutTask) : OutTask :=
  if o.ctx ≠ g ∧ coreOf o.ctx = coreOf g ∧ o.taker = some (Fin.ofNat 4 g) then { o with taker := none } else o

/-- The byte at a of memory once the entries of the lanes cap to A - 1 stand in the record at pa (R236, R240). -/
def spilledByte (s : State) (pa cap a : Nat) : Byte :=
  let o := a - (pa + 0x4000)
  if pa + 0x4000 ≤ a ∧ o < 0x4000 ∧ 8 * cap ≤ o % 512 ∧ o % 512 < 8 * s.k.active then
    (s.c.v[Fin.ofNat 32 (o / 512)]).extractLsb' (8 * (o % 512)) 8
  else byteAt s a

/-- Context h of a core once the lanes of context g of that core have returned: the cap of their victim is to lift (R236). -/
def lifted (g h : Nat) (c : Ctx) : Ctx :=
  if coreOf h = coreOf g ∧ h ≠ g ∧ c.taker = some (Fin.ofNat 4 g) then { c with next := 64, pend := c.cap != 64, taker := none } else c

/-- Lane l's micro-thread. -/
def laneOf (s : State) (l : Nat) : LaneState := tabGet LaneState.idle s.c.lanes l

/-- The lane that moves has st, and nothing else changed. -/
def LaneGoes (o : Out) (s : State) (l : Nat) (st : LaneState) : Prop :=
  o = .next { s with c := { s.c with lanes := tabSet LaneState.idle s.c.lanes l st } }

/-- Elements below VL that lane l holds, counted in VCFG.FMT as the vfetch found it (R124). -/
def laneHas (s : State) (l i : Nat) : Prop :=
  i < s.c.vl.toNat ∧ 64 * l ≤ s.c.regionWidth * i ∧ s.c.regionWidth * i < 64 * (l + 1)

/-- Nothing of the context runs, and its region is closed; it stands at pc (R125). -/
def Closed (s : State) (pc : Word) (c : Ctx) : Prop :=
  c = { s.c with thr := false, thrFault := none, wait := .none, queues := Queues.empty, lanes := c.lanes, pc := pc } ∧
  ∀ l, (tabGet LaneState.idle c.lanes l).run = false ∧ (tabGet LaneState.idle c.lanes l).lpc = (laneOf s l).lpc

/-- A word of a block cannot be fetched at a, leaving t: no leaf, no EX, an aperture other than 0, an error in its unit (R123; log 49). -/
def NoWord (s t : State) (a : Word) : Prop :=
  let va := (if s.c.hnd then 0 else s.c.vah.toNat * 2 ^ 64) + a.toNat
  (∃ e, s.translate s.view va Need.fetch .plain = (t, .error e)) ∨
  ∃ (s1 : State) (l : Leaf), s.translate s.view va Need.fetch .plain = (s1, .ok l) ∧
    ((l.ap ≠ 0 ∧ t = s1) ∨ (l.ap = 0 ∧ ∃ pa, s1.checkRead l.lay l.pa 8 = (t, some pa)))

/-- The word w of a block is fetched at a, leaving t. -/
def WordAt (s t : State) (a w : Word) : Prop :=
  let va := (if s.c.hnd then 0 else s.c.vah.toNat * 2 ^ 64) + a.toNat
  ∃ (s1 : State) (l : Leaf), s.translate s.view va Need.fetch .plain = (s1, .ok l) ∧ l.ap = 0 ∧
    s1.checkRead l.lay l.pa 8 = (t, none) ∧ w = BitVec.ofNat 64 (leNat (t.bytesAt l.lay.raw l.pa 8))

/-- The words ws at a are a block that passes the check: of at most n words, all of the kinds R123 lists, the last its terminator. -/
def GoodBlock : Nat → State → Word → List Word → State → Prop
  | n + 1, s, a, w :: ws, u => ∃ t i, WordAt s t a w ∧ decode w = .ok i ∧ blockAllows i = true ∧
      if endsBlock i then ws = [] ∧ u = t else GoodBlock n t (a + 8) ws u
  | _, _, _, _, _ => False

/-- The check of a block at a fails with a sub-reason: no terminator within n words, or a word of no kind listed (0), one that does
not decode (1), one that cannot be fetched (2); that of the first word that fails (R123; log 49). -/
def BadBlock : Nat → State → Word → Nat → State → Prop
  | 0, s, _, sub, u => sub = 0 ∧ u = s
  | n + 1, s, a, sub, u =>
    (NoWord s u a ∧ sub = 2) ∨
    ∃ t w, WordAt s t a w ∧
      (((∃ e, decode w = .error e) ∧ sub = 1 ∧ u = t) ∨
       ∃ i, decode w = .ok i ∧
        ((blockAllows i = false ∧ sub = 0 ∧ u = t) ∨
         (blockAllows i = true ∧ endsBlock i = false ∧ BadBlock n t (a + 8) sub u)))

/-- Lane l stops at its word, and the region keeps the fault of the lowest element (R124). -/
def LaneStops (s t : State) (l : Nat) (f : LaneFault) : Prop :=
  t = { s with c := { s.c with
    lanes := tabSet LaneState.idle s.c.lanes l { laneOf s l with run := false }
    thrFault := some (match s.c.thrFault with
      | some g => if g.elem.toNat ≤ f.elem.toNat then g else f
      | none => f) } }

/-- What a region's fault is raised as at its vjoin: ILLEGAL of the vjoin for a failed check, else the lane's own, UNIT 5 (R123, R124). -/
def joinTrap (f : LaneFault) (c : Cause) : Trap :=
  { cause := c, detail := f.detail, addr := f.addr, unit := if c = .illegal then .vq else .lane, elem := some (f.reg, f.elem) }

end Sys2Proof.Machine

/-- R107, R117, R119, R120 (smb, vbany, vbnone, ltc): smb updates the count, then each pointer in use, each reading what the one
before left, and tests the count as its update left it. The others wait until VQ and LQ are empty; then bits below VL decide; ltc
clears the lowest of them and branches when another is left; m0 is never cleared. -/
def Obligations.StripMineAndVectorBranches : Prop :=
  (∀ (s : State) (o : SmbOp), InScu s → o.ok = true →
     let n := (s.c.x[o.xc] - BitVec.ofNat 64 s.c.vl.toNat)
     exec (.smb o) s = .next { s with c := { s.c with
       x := smbRegs s o
       pending := s.c.pending.filter fun p => p.reg == 0 || !([o.xc, o.xp0, o.xp1, o.xp2, o.xp3].contains p.reg)
       pc := if 0 < n.toInt then s.c.pc + word (8 * o.off.toInt) else s.c.pc + 8 } }) ∧
  (∀ (s : State) (pm : MReg) (off : BitVec 32), InScu s →
     (Drained s [.vq, .lq] →
       Goes (exec (.vbany pm off) s) s (if setBelow s pm ≠ [] then s.c.pc + word off.toInt else s.c.pc + 8) ∧
       Goes (exec (.vbnone pm off) s) s (if setBelow s pm = [] then s.c.pc + word off.toInt else s.c.pc + 8) ∧
       (pm = 0 ∨ setBelow s pm = [] → Goes (exec (.ltc pm off) s) s (s.c.pc + 8)) ∧
       (pm ≠ 0 → ∀ i rest, setBelow s pm = i :: rest → ∃ m : Vector (BitVec 4096) 8,
         (∀ r : MReg, r ≠ pm → m[r] = s.c.m[r]) ∧ (∀ j, (m[pm]).getLsbD j = ((s.c.m[pm]).getLsbD j && j != i)) ∧
         exec (.ltc pm off) s = .next { s with c := { s.c with
           m := m, pc := if rest = [] then s.c.pc + 8 else s.c.pc + word off.toInt } })) ∧
     (¬ Drained s [.vq, .lq] →
       Waits (exec (.vbany pm off) s) s (.drain [.vq, .lq]) .scu ∧ Waits (exec (.vbnone pm off) s) s (.drain [.vq, .lq]) .scu ∧
       Waits (exec (.ltc pm off) s) s (.drain [.vq, .lq]) .scu))

/-- R70, R109, R126, R127, R107, R235 to R238 (svl, LANE_BINDING, vrel, DRAIN_COMPLETION): the grant and X[XD], or FORMAT or DETW with
nothing changed; the grant point, where a cap falls, its entries going to the save record and its lanes to the taker, or lifts, the
entries coming back; waiting for lanes and the binding, which reads zero; letting lanes go, and with reclaimed ones the victim's cap. -/
def Obligations.GrantingAndReleasingLanes : Prop :=
  ∀ (s : State) (rd ra : XReg) (f : Fmt) (b : Blk), InScu s →
    let r := regained s
    let grants (t : State) (wid : Nat) : Prop :=
      let g := granted wid (xOf s ra).toNat f b
      g.1 ≤ g.2 ∧ g.2 ≤ wid * 64 / f.width ∧ Gives (exec (.svl rd ra f b) s)
        { t with c := { t.c with vl := BitVec.ofNat 13 g.1, vlg := BitVec.ofNat 13 g.2, vfmt := f.code, vblk := b } } rd (BitVec.ofNat 64 g.1)
    (s.c.det = true → s.k.active < s.c.detw.toNat → exec (.svl rd ra f b) s = .next (s.raise
      { cause := .detw, detail := BitVec.ofNat 56 (s.c.detw.toNat * 2 ^ 49), addr := BitVec.ofNat 64 s.k.active })) ∧
    (¬ (s.c.det = true ∧ s.k.active < s.c.detw.toNat) →
      (s.c.vlive = false → Waits (exec (.svl rd ra f b) s) s .lanes .scu) ∧
      (s.c.vlive = true →
        (CapStands s.c →
          (Grantable r.wid f b → grants r r.wid) ∧
          (b ≠ .none → f.isBlock = false → exec (.svl rd ra f b) s = .next (s.raise { cause := .format })) ∧
          (f.isBlock = true → r.wid * 64 / f.width < Blk.len b → exec (.svl rd ra f b) s =
            .next (s.raise { cause := .format, detail := BitVec.ofNat 56 (2 ^ 48) }))) ∧
        (CapFalls s.c → Grantable (nextWid r) f b → BytesOk s → ∀ (t : Task) (j : Fin 4), s.c.task = some t → RecordAt t.save →
          s.c.next.toNat < s.k.active → s.c.taker = some j →
          let g := 4 * coreOf s.here + j.val
          let n := s.k.active - s.c.next.toNat
          g ≠ s.here → (s.ctxAt g).status = .bound → (s.ctxAt g).vlive = false → ¬ Borrows (s.ctxAt g) →
          ((s.ctxAt g).det = true → (s.ctxAt g).laneWidth s.k ≤ n) →
          ∃ u, MemoryOnly r u ∧ u.ctxs = s.ctxs ∧ (∀ a, byteAt u a = spilledByte s t.save s.c.next.toNat a) ∧
            grants ({ u with c := { r.c with cap := s.c.next, pend := false, spilled := true } }.onCtx g fun c =>
              { c with lanesHeld := BitVec.ofNat 8 n, lanesBack := false }) (nextWid r)) ∧
        (s.c.pend = true → s.c.thr = false → s.c.cap.toNat < min s.c.next.toNat s.k.active → Grantable (nextWid r) f b →
          ∀ t : Task, s.c.task = some t → RecordAt t.save → s.c.spilled = true →
          let d := r.deviceView (t.save + 0x4000) 0x4000
          (s.bad = [] → ∃ cs, d = ({ r with chans := cs }, { r with chans := cs })) ∧
          ∃ v : Vector (BitVec 4096) 32, (∀ (q : VReg) j, j < 512 → (v[q]).extractLsb' (8 * j) 8 =
              if 8 * s.c.cap.toNat ≤ j ∧ j < 8 * min s.c.next.toNat s.k.active then byteAt d.2 (t.save + 0x4000 + 512 * q.val + j)
              else (s.c.v[q]).extractLsb' (8 * j) 8) ∧
            grants { d.1 with c := { r.c with cap := s.c.next, pend := false, v := v, spilled := decide (s.c.next.toNat < s.k.active) } }
              (nextWid r)))) ∧
    (s.c.wait = .lanes → exec .laneBinding s = .next { s with c := { s.c with
      wait := .none, queues := Queues.empty, vlive := true, v := Vector.replicate 32 0, m := Vector.replicate 8 0, vbad := [] } }) ∧
    (¬ Borrows s.c → Drained s [.vq, .lq, .mq, .aq] → exec .vrel s = .next (next { s with c := released s.c })) ∧
    (Borrows s.c → tabWf Ctx.reset s.ctxs = true → Drained s [.vq, .lq, .mq, .aq] → ∃ t, exec .vrel s = .next t ∧
      t = next { s.onDie s.die (fun x => { x with out := x.out.map (loosed s.here) }) with
        c := { released s.c with lanesBack := true }, ctxs := t.ctxs } ∧
      ∀ h, h ≠ s.here → t.ctxAt h = lifted s.here h (s.ctxAt h)) ∧
    (∀ qs, s.c.wait = .drain qs → Drained s qs →
      exec .drainCompletion s = .next { s with c := { s.c with wait := .none, queues := Queues.empty } })

/-- R121 to R125 (vfetch, tfetch, tstop, vjoin, VJOIN_COMPLETION): which lanes start and where; where a lane goes; the check of a block,
and what a lane that fails it or faults leaves; when the region closes, and the fault it raises.
Model's choices it rests on: logs 9 (DESIGN CHOICE), 49 (DESIGN CHOICE). -/
def Obligations.ThreadRegions : Prop :=
  ∀ (s : State) (pm : MReg) (off : BitVec 32),
    (InScu s → ∃ ls : Tab LaneState,
      (∀ l, tabGet LaneState.idle ls l = if l < s.wid ∧ 64 * l / codeWidth s.c.vfmt < s.c.vl.toNat
        then ⟨s.c.pc + word off.toInt, true, []⟩ else laneOf s l) ∧
      exec (.vfetch off) s = .next (next { s with c := { s.c with
        thr := true, thrX := s.c.x, thrFmt := s.c.vfmt, thrFault := none, lanes := ls } })) ∧
    (∀ l, s.laneSel = some l →
      ((∀ i, laneHas s l i → (s.rm pm).getLsbD i = true) →
        LaneGoes (exec (.tfetch pm off) s) s l { laneOf s l with lpc := (laneOf s l).lpc + word off.toInt, block := [] }) ∧
      ((∃ i, laneHas s l i ∧ (s.rm pm).getLsbD i = false) →
        LaneGoes (exec (.tfetch pm off) s) s l
          { laneOf s l with lpc := (laneOf s l).lpc + 8, block := (laneOf s l).block.tail }) ∧
      LaneGoes (exec .tstop s) s l { laneOf s l with run := false, block := [] } ∧
      ∀ (t : Trap) (r : BitVec 3) (e : BitVec 13), t.elem = some (r, e) →
        LaneStops s (s.raise t) l ⟨r, e, t.cause.code, t.detail, t.addr⟩) ∧
    (∀ l ws u, GoodBlock 16 s (laneOf s l).lpc ws u → s.laneFetch l = { u with c := { s.c with
      lanes := tabSet LaneState.idle s.c.lanes l { laneOf s l with block := ws } } }) ∧
    (∀ l why u, BadBlock 16 s (laneOf s l).lpc why u → LaneStops { u with c := s.c } (s.laneFetch l) l
      ⟨0, BitVec.ofNat 13 (s.c.laneFirst l), 0x01, BitVec.ofNat 56 (2 * 2 ^ 52 + why * 2 ^ 48), (laneOf s l).lpc⟩) ∧
    (InScu s →
      (s.c.thr = false → Goes (exec .vjoin s) s (s.c.pc + 8)) ∧
      (s.c.thr = true → s.c.running ≠ [] → Waits (exec .vjoin s) s .vjoin .scu) ∧
      (s.c.thr = true → s.c.running = [] → s.c.thrFault = none → tabWf LaneState.idle s.c.lanes = true →
        ∃ c, Closed s (s.c.pc + 8) c ∧ exec .vjoin s = .next { s with c := c }) ∧
      (s.c.wait = .vjoin → s.c.running = [] → s.c.thrFault = none → tabWf LaneState.idle s.c.lanes = true →
        ∃ c, Closed s (s.c.pc + 8) c ∧ exec .vjoinCompletion s = .next { s with c := c }) ∧
      ∀ (f : LaneFault) (e : Cause), s.c.thrFault = some f → e ∈ [Cause.illegal, .format, .memue] → f.cause = e.code →
        s.c.running = [] → tabWf LaneState.idle s.c.lanes = true → ∃ c, Closed s s.c.pc c ∧
          (s.c.thr = true → exec .vjoin s = .next (({ s with c := c }).raise (joinTrap f e))) ∧
          (s.c.wait = .vjoin → exec .vjoinCompletion s = .next (({ s with c := c }).raise (joinTrap f e))))

namespace Sys2Proof.Machine

/-! Traps and CSRs. -/

/-- The scalar registers once every result still on its way has arrived (R109, R224 step 1). -/
def settledRegs (c : Ctx) : Vector Word 32 :=
  Vector.ofFn fun r : Fin 32 =>
    if r = 0 then c.x[r] else (((c.pending.filter fun p => p.reg == r).getLast?).map (·.val)).getD c.x[r]

/-- TSP without its zero bits, as an address. -/
def stackTop (s : State) : Word := s.c.tsp &&& ~~~15#64

/-- Steps 4 to 6 of R224 succeed: x31 is stored below TSP, leaving s2, the cause's record at TSP, leaving s4, and the handler is
fetched at TVEC through the leaf l, leaving u. -/
def Handler (s : State) (t : Trap) (s2 s4 u : State) (l : Leaf) : Prop :=
  s.c.tinfo.getLsbD 63 = false ∧
  (s.latch t).devWrite 2 (stackTop s - 8) (leBytes 8 ((settledRegs s.c)[31]).toNat) = (s2, none) ∧
  (s2.wx 31 (stackTop s - 8)).devWrite 2 (stackTop s) t.record = (s4, none) ∧
  ∃ s6, (s4.goto (s.c.tvec &&& ~~~7#64)).translate s.view (s.c.tvec &&& ~~~7#64).toNat Need.fetch .plain = (s6, .ok l) ∧
    s6.checkRead l.lay l.pa 8 = (u, none)

/-- The progress point of a trapped instruction is nonzero (R226). -/
def atProgress (s : State) (t : Trap) : Bool :=
  match t.point with
  | .none => false
  | .scnt => s.c.scnt != 0
  | .mxprog => s.c.mxprog != 0
  | .plsw => s.c.plsw != 0
  | .fmsk => t.fmsk.getD s.c.fmsk != 0

/-- What the context keeps of the PAGE and HPAGE it has taken since task mode, for an HPAGE that answers a request of it (R212). -/
def pagesTaken (s : State) (t : Trap) : List Paged :=
  if t.cause = .page ∨ t.cause = .hpage then
    ⟨BitVec.ofNat 2048 (leNat t.record), t.addr, t.detail.getLsbD 50, t.unit.code, (t.elem.getD (0, 0)).1, (t.elem.getD (0, 0)).2⟩ ::
      (if s.c.hnd = true then s.c.paged else [])
  else s.c.paged

/-- The context right after it has taken a trap (R224, R226). -/
def trapped (s : State) (t : Trap) : Ctx :=
  { s.c with
    x := (settledRegs s.c).set 31 (stackTop s - 8)
    pending := []
    tcause := t.cause.code
    taddr := t.addr
    tpc := s.c.pc &&& ~~~7#64
    tinfo := BitVec.ofNat 64 (2 ^ 63 + t.async.toNat * 2 ^ 62 + t.unit.code.toNat * 2 ^ 59 + (atProgress s t).toNat * 2 ^ 58 +
      s.c.hnd.toNat * 2 ^ 57 + t.detail.toNat)
    eidxReg := (t.elem.getD (s.c.eidxReg, s.c.eidx)).1
    eidx := (t.elem.getD (s.c.eidxReg, s.c.eidx)).2
    fmsk := t.fmsk.getD s.c.fmsk
    hnd := true
    paged := pagesTaken s t
    pc := s.c.tvec &&& ~~~7#64
    consumed := 0
    wait := .none
    queues := Queues.empty
    queued := []
    ahead := none }

/-- u is s but for the context in hand, to c, and what a device write of memory changes. -/
def MemoryAnd (s u : State) (c : Ctx) : Prop := u.c = c ∧ MemoryOnly s { u with c := s.c }

/-- t is s with bytes stored at the address of leaf l, and no other byte changed. -/
def StoredAt (s t : State) (l : Leaf) (bs : List Byte) : Prop := MemoryOnly s t ∧ Stored s t l.lay.raw l.pa bs

/-- t is s with bs at the virtual address va, page by page; besides, each translation marks its leaf (TranslationMarksItsLeaf). -/
def DeviceStored (s t : State) (va : Word) (bs : List Byte) : Prop :=
  let m := 2 ^ 16 - va.toNat % 2 ^ 16
  bs = [] ∧ t = s ∨
  ∃ (s1 t1 : State) (l : Leaf), s.translate s.view va.toNat Need.write .plain = (s1, .ok l) ∧ StoredAt s1 t1 l (bs.take m) ∧
    (bs.length ≤ m ∧ t = t1 ∨
     m < bs.length ∧ ∃ (s2 : State) (k : Leaf),
       t1.translate t1.view (va + BitVec.ofNat 64 m).toNat Need.write .plain = (s2, .ok k) ∧ StoredAt s2 t k (bs.drop m))

/-- The context frozen by a double fault (R229). -/
def frozen (c : Ctx) (phase : BitVec 4) (t : Trap) : Ctx :=
  { c with status := .frozen, x := settledRegs c, pending := [], dfcause := phase ++ t.cause.code, dfaddr := t.addr, wait := .none,
           queues := Queues.empty, queued := [], ahead := none }

/-- u is frozen by fault e of phase p during entry for t: the second fault stands in DFCAUSE and DFADDR, the first in the trap
registers (R229). -/
def Latched (s u : State) (t : Trap) (p : BitVec 4) (e : Trap) : Prop :=
  u.c.status = .frozen ∧ u.c.dfcause = p ++ e.cause.code ∧ u.c.dfaddr = e.addr ∧ u.c.tcause = t.cause.code ∧
  u.c.taddr = t.addr ∧ u.c.tpc = s.c.pc &&& ~~~7#64 ∧ u.host = .frozen s.here :: s.host

/-- The bits of a CSR that a write reaches (R101 and the register tables). -/
def csrBits : Csr → Word
  | .ctl => 0xE
  | .vl | .vlg => 0x1FFF
  | .vcfg => 0x3F
  | .eidx => 0x71FFF
  | .vah | .tcause => 0xFF
  | .tpc | .tvec => 0xFFFFFFFFFFFFFFF8
  | .tsp => 0xFFFFFFFFFFFFFFF0
  | .tinfo => 0xFEFFFFFFFFFFFFFF
  | .dfcause => 0xFFF
  | .eptlim | .pltol | .pleps => 0xFFFFFFFF
  | .eptport | .swlim | .plsw | .asid => 0xFFFF
  | .mxprog => 0x3FF
  | .plst => 0xFFFF000F
  | .hmexp => 0x3FFFF
  | .watch _ => 0xFC0FFFFFFFFFFFC0
  | .watchctl => 0x1FF71FF71FF71FF7
  | .ptroot => 0x000FFFFFFFFF0000
  | .scnt | .fmsk _ | .taddr | .dfaddr | .mxrowp | .mxcolp | .dlwin => 0xFFFFFFFFFFFFFFFF
  | .stat | .detw | .lmap | .vlmax | .lgrant | .mxctl | .tick | .deadln | .prio | .session => 0

/-- A CSR that any mode writes. -/
def taskWritable (r : Csr) : Bool := match r with
  | .ctl | .vah | .mxrowp | .mxcolp | .swlim | .pltol | .pleps | .hmexp | .watch _ | .watchctl => true
  | _ => false

/-- A CSR that no instruction writes in task mode and whose write is then ignored (R101). -/
def taskReadOnly (r : Csr) : Bool := match r with
  | .stat | .detw | .lmap | .vlmax | .lgrant | .tick | .deadln | .prio | .session | .vl | .vlg | .vcfg | .plst | .plsw => true
  | _ => false

/-- MXCTL written in handler mode: MXE, and RES, which takes or ends ownership (R155). -/
def mxctlSet (s : State) (v : Word) : State :=
  let me : Option (Fin 4) := some (Fin.ofNat 4 s.here)
  let owner := if v.getLsbD 1 then me else if s.k.owner = me then none else s.k.owner
  { s with c := { s.c with mxen := v.getLsbD 0 }, k := { s.k with owner := owner } }

/-- The three writes of a CSR, with the value each leaves (R131). -/
def csrRows : List ((Csr → XReg → Instr) × (Word → Word → Word)) :=
  [(.csrw, fun _ x => x), (.csrs, fun old x => old ||| x), (.csrc, fun old x => old &&& ~~~x)]

/-- Why a word is illegal where it stands: 1 tfetch or tstop in the SCU's stream, 4 tret in task mode, 3 any other instruction, in an
open region; 0 it does not decode (R31, R121, R125, R131). -/
def whyIllegal (w : Word) : Nat := match decode w with
  | .ok (.tfetch _ _) | .ok .tstop => 1
  | .ok .tret => 4
  | .ok _ => 3
  | .error _ => 0

/-- The member number of the task that context g holds. -/
def memberNo (s : State) (g : Nat) : Nat := match (s.ctxAt g).task with
  | some t => t.member
  | none => 0

end Sys2Proof.Machine

/-- R224, R226, R109, R103: what taking a trap leaves, for every cause: the trap registers, handler mode and the handler's pc; x31 in
the 8 bytes below TSP and the cause's record at TSP; no other byte changes but the marks of the leaves used. -/
def Obligations.TrapEntryState : Prop :=
  ∀ (s s2 s4 u : State) (t : Trap) (l : Leaf), InScu s → BytesOk s → t.record.length ≤ 256 → Handler s t s2 s4 u l →
    s.raise t = u ∧ MemoryAnd s u (trapped s t) ∧
    DeviceStored (s.latch t) s2 (stackTop s - 8) (leBytes 8 ((settledRegs s.c)[31]).toNat) ∧
    DeviceStored (s2.wx 31 (stackTop s - 8)) s4 (stackTop s) t.record ∧
    ∀ a, ¬ (l.entry ≤ a ∧ a < l.entry + 8) → byteAt u a = byteAt s4 a

/-- R31, R121, R125, R131, R227 (trap, brk, ILLEGAL_INSTRUCTION; tfetch, tstop and tret where they are illegal): the trap each takes in
every state, whose entry TrapEntryState and DoubleFaultFreezes describe. -/
def Obligations.TrapInstructions : Prop :=
  ∀ (s : State) (imm : BitVec 14) (w : Word), InScu s →
    let ill (why : Nat) (w : Word) : Trap := { cause := .illegal, detail := BitVec.ofNat 56 (why * 2 ^ 52), addr := w }
    exec (.trap imm) s = .next (s.raise { cause := .swtrap, detail := BitVec.ofNat 56 imm.toNat }) ∧
    exec (.brk imm) s = .next (s.raise { cause := .brk, detail := BitVec.ofNat 56 imm.toNat }) ∧
    exec (.illegalInstruction w) s = .next (s.raise (ill (whyIllegal w) w)) ∧
    exec .tstop s = .next (s.raise (ill 1 0x1A00004000000000)) ∧
    (∀ pm off v, Sys2Proof.encode (.tfetch pm off) 0 = some v → exec (.tfetch pm off) s = .next (s.raise (ill 1 v))) ∧
    (s.c.hnd = false → exec .tret s = .next (s.raise (ill 4 0x2000000014000000)))

/-- R225, R212 (tret in handler mode): it waits for every queue; then x31 comes from TSP - 8, the PC from TPC, the mode from
PHND, and BUSY is clear; a request made by the handler holds the context. -/
def Obligations.ReturnFromHandler : Prop :=
  ∀ (s s1 : State) (bs : List Byte), InScu s → s.c.hnd = true →
    (¬ Drained s [.vq, .lq, .mq, .aq] → Waits (exec .tret s) s (.drain [.vq, .lq, .mq, .aq]) .scu) ∧
    (Drained s [.vq, .lq, .mq, .aq] → s.devRead (stackTop s - 8) 8 = (s1, .ok bs) → s.c.answer = none →
      MemoryOnly s s1 ∧ exec .tret s = .next { s1 with c := { s.c with
        x := s.c.x.set 31 (BitVec.ofNat 64 (leNat bs))
        pending := s.c.pending.filter fun p => p.reg != 31
        pc := s.c.tpc
        hnd := s.c.tinfo.getLsbD 57
        tinfo := s.c.tinfo &&& ~~~0x8000000000000000#64
        held := s.c.asking || s.c.held
        asking := false } })

/-- R229: a trap while BUSY freezes the context and keeps the first fault's registers; a failing store at TSP - 8, record, or
fetch at TVEC is one too, with its phase; so is a failing read of x31 by tret. -/
def Obligations.DoubleFaultFreezes : Prop :=
  (∀ (s : State) (t : Trap), InScu s → s.c.tinfo.getLsbD 63 = true →
    s.raise t = { s with c := frozen s.c 3 t, host := .frozen s.here :: s.host }) ∧
  (∀ (s s2 : State) (t e : Trap), InScu s → s.c.tinfo.getLsbD 63 = false →
    (s.latch t).devWrite 2 (stackTop s - 8) (leBytes 8 ((settledRegs s.c)[31]).toNat) = (s2, some e) →
    Latched s (s.raise t) t 0 e ∧ (s.raise t).c.pc = s.c.pc) ∧
  (∀ (s s2 s4 : State) (t e : Trap), InScu s → s.c.tinfo.getLsbD 63 = false →
    (s.latch t).devWrite 2 (stackTop s - 8) (leBytes 8 ((settledRegs s.c)[31]).toNat) = (s2, none) →
    (s2.wx 31 (stackTop s - 8)).devWrite 2 (stackTop s) t.record = (s4, some e) →
    Latched s (s.raise t) t 1 e ∧ (s.raise t).c.pc = s.c.pc) ∧
  (∀ (s s2 s4 s6 : State) (t : Trap) (e : Miss), InScu s → s.c.tinfo.getLsbD 63 = false →
    (s.latch t).devWrite 2 (stackTop s - 8) (leBytes 8 ((settledRegs s.c)[31]).toNat) = (s2, none) →
    (s2.wx 31 (stackTop s - 8)).devWrite 2 (stackTop s) t.record = (s4, none) →
    (s4.goto (s.c.tvec &&& ~~~7#64)).translate s.view (s.c.tvec &&& ~~~7#64).toNat Need.fetch .plain = (s6, .error e) →
    Latched s (s.raise t) t 2 (missTrap .scu (s.c.tvec &&& ~~~7#64).toNat Need.fetch e)) ∧
  ∀ (s s1 : State) (e : Trap), InScu s → s.c.hnd = true → Drained s [.vq, .lq, .mq, .aq] →
    s.devRead (stackTop s - 8) 8 = (s1, .error e) →
    exec .tret s = .next { s1 with c := frozen s.c 4 e, host := .frozen s.here :: s.host }

/-- R101, R131, R107, R155, R197, R201 (csrr, csrw, csrs, csrc, MXCTL_RES_WRITE, PTROOT_ASID_WRITE): a read gives the value; a
write keeps to the register's own bits and the mode it admits; in task mode an H register raises ACCESS, reason 4, with the CSR
number; each waits for the queues, but a read of TICK. In handler mode RES takes or ends ownership of the matrix state, tiles
kept; PTROOT keeps its ROOT bits and ASID its 16. -/
def Obligations.CsrInstructions : Prop :=
  (∀ (s : State) (rd ra : XReg) (r : Csr), InScu s →
     (r = .tick ∨ Drained s [.vq, .lq, .mq, .aq] → Gives (exec (.csrr rd r) s) s rd (s.csr r)) ∧
     (r ≠ .tick → ¬ Drained s [.vq, .lq, .mq, .aq] → Waits (exec (.csrr rd r) s) s (.drain [.vq, .lq, .mq, .aq]) .scu) ∧
     ∀ p ∈ csrRows,
       (¬ Drained s [.vq, .lq, .mq, .aq] → Waits (exec (p.1 r ra) s) s (.drain [.vq, .lq, .mq, .aq]) .scu) ∧
       (Drained s [.vq, .lq, .mq, .aq] →
         (taskWritable r = true ∨ (s.c.hnd = true ∧ csrBits r ≠ 0) → ∃ t, exec (p.1 r ra) s = .next t ∧ t.c.pc = s.c.pc + 8 ∧
           t.csr r = (p.2 (s.csr r) (xOf s ra) &&& csrBits r) ||| (if r = .ctl then s.csr r &&& 1 else 0) ∧
           (∀ q, q ≠ r → t.csr q = s.csr q) ∧
           (∀ i : XReg, t.c.x[i] = s.c.x[i]) ∧ t.c.v = s.c.v ∧ t.c.m = s.c.m ∧ t.c.d = s.c.d ∧ t.c.counts = s.c.counts ∧
           t.mem = s.mem ∧ t.ctxs = s.ctxs ∧ t.k = s.k) ∧
         (s.c.hnd = true → r = .mxctl → exec (p.1 r ra) s = .next (next (mxctlSet s (p.2 (s.csr r) (xOf s ra))))) ∧
         (s.c.hnd = false → taskReadOnly r = true → Goes (exec (p.1 r ra) s) s (s.c.pc + 8)) ∧
         (s.c.hnd = false → taskWritable r = false → taskReadOnly r = false → exec (p.1 r ra) s =
           .next (s.raise { cause := .access, detail := BitVec.ofNat 56 (4 * 2 ^ 52 + 2 ^ 50), addr := (Csr.code r).zeroExtend 64 })))) ∧
  (∀ (s : State) (v : Word),
     (s.c.hnd = true →
       exec (.mxctlResWrite true) s = .next { s with k := { s.k with owner := some (Fin.ofNat 4 s.here) } } ∧
       exec (.mxctlResWrite false) s = .next { s with k := { s.k with
         owner := if s.k.owner = some (Fin.ofNat 4 s.here) then none else s.k.owner } } ∧
       exec (.ptrootAsidWrite false v) s = .next { s with c := { s.c with ptroot := v &&& 0x000FFFFFFFFF0000#64 } } ∧
       exec (.ptrootAsidWrite true v) s = .next { s with c := { s.c with asid := BitVec.ofNat 16 v.toNat } }) ∧
     (s.c.hnd = false → ∀ b, exec (.mxctlResWrite b) s = .next s ∧ exec (.ptrootAsidWrite b v) s = .next s))

/-- R131, R132, R107 (nop, wfe, WFE_WAKE, halt, TASK_END): what each leaves; halt performs the held stores and returns reclaimed lanes;
a context whose task has ended is FREE, with the next generation number (R100, R212).
Model's choices it rests on: logs 4 (DESIGN CHOICE: every other register of a context with no task is at its reset value), 41 (DESIGN
CHOICE), 47 (DEDUCED). -/
def Obligations.WaitingAndEnding : Prop :=
  ∀ s : State, InScu s →
    Goes (exec .nop s) s (s.c.pc + 8) ∧
    Waits (exec .wfe s) s .wfe .scu ∧
    (s.c.wait = .wfe → exec .wfeWake s = .next (next { s with c := { s.c with wait := .none, queues := Queues.empty } })) ∧
    (¬ Drained s [.vq, .lq, .mq, .aq] → Waits (exec .halt s) s (.drain [.vq, .lq, .mq, .aq]) .scu) ∧
    (Drained s [.vq, .lq, .mq, .aq] → ¬ Borrows s.c → s.c.lines = [] → exec .halt s = .next (next { s with
      c := { released s.c with status := .drain, mxen := false, mxprog := if s.c.mxen ∧ s.c.hnd = false then 0 else s.c.mxprog }
      k := if s.c.mxen = true ∧ s.k.owner = some (Fin.ofNat 4 s.here) then { s.k with owner := none } else s.k })) ∧
    (Drained s [.vq, .lq, .mq, .aq] → BytesOk s → PlainLines s.c → tabWf Ctx.reset s.ctxs = true → ∃ t, exec .halt s = .next t ∧
      let d := if s.c.lanesHeld ≠ 0 ∧ s.c.lanesBack = false then s.onDie s.die fun x => { x with out := x.out.map (loosed s.here) } else s
      t = { d with ctxs := t.ctxs, mem := t.mem, tags := t.tags, unencoded := t.unencoded, bad := t.bad, chans := t.chans
                   assay := t.assay, pkgs := t.pkgs
                   c := { released s.c with status := .drain, lanesBack := s.c.lanesBack || s.c.lanesHeld != 0, lines := [], mxen := false, pc := s.c.pc + 8
                                            mxprog := if s.c.mxen ∧ s.c.hnd = false then 0 else s.c.mxprog }
                   k := if s.c.mxen = true ∧ s.k.owner = some (Fin.ofNat 4 s.here) then { s.k with owner := none } else s.k } ∧
      (∀ a, byteAt t a = heldOver s.c.lines a (byteAt s a)) ∧
      ∀ h, h ≠ s.here → ∃ e n, t.ctxAt h =
        { (if s.c.lanesHeld ≠ 0 ∧ s.c.lanesBack = false then lifted s.here h (s.ctxAt h) else s.ctxAt h) with event := e, lost := n }) ∧
    (s.c.status = .drain → s.allCmds s.here = [] → s.c.lines = [] → ¬ Borrows s.c → ∃ t, exec .taskEnd s = .next t ∧
      t.c = { Ctx.reset with gen := s.c.gen + 1, charge := s.c.charge } ∧ t.ctxs = s.ctxs)

namespace Sys2Proof.Machine
/-- What a bfence performs: every class (R313, R320). -/
def everyClass : List Cls := [.ls, .mxl, .ccopy, .dcopy, .seam, .coll, .disp, .enc, .host]
end Sys2Proof.Machine

/-- R217, R218, R270, R320 to R323 (fence, lsync, xfence, vfence, DRAIN_GROUP_RELEASE, bfence): a fence goes on when what it
orders is performed; it performs the context's held stores, in order, and no other byte changes; the release of a drain group performs
those of its tasks, member by member; bfence gives the aggregate and clears it, or raises it when XD is x0. At a scope that holds the
package raw reads find what the fence orders (R313).
Model's choices it rests on: log 2 (DESIGN CHOICE). -/
def Obligations.Fences : Prop :=
  ∀ (s : State) (sc : Scope) (ca cb : Cls) (rd : XReg), InScu s →
    (s.c.lines = [] →
      Goes (exec (.fence sc) s) (performedAt s actsWhole sc [.ls]) (s.c.pc + 8) ∧ Goes (exec .lsync s) s (s.c.pc + 8) ∧
      (s.cmdsOf s.here ca = [] → Goes (exec (.xfence sc ca cb) s) (performedAt s wholePackage sc [ca]) (s.c.pc + 8)) ∧
      (s.cmdsOf s.here ca ≠ [] → Waits (exec (.xfence sc ca cb) s) s (.fence ca) .lq) ∧
      (s.cmdsOf s.here .seam ≠ [] → Waits (exec (.bfence sc rd) s) s .seam .lq) ∧
      (s.cmdsOf s.here .seam = [] →
        let log := performedAt { s with c := { s.c with seam := SeamLog.clear } } wholePackage sc everyClass
        (rd ≠ 0 ∨ s.c.seam.word = 0 → Gives (exec (.bfence sc rd) s) log rd s.c.seam.word) ∧
        (rd = 0 → s.c.seam.word ≠ 0 → exec (.bfence sc rd) s = .next (log.raise s.c.seam.trap)))) ∧
    (let r := s.releaseAll s.here
     exec (.fence sc) s = .next (next (performedAt r actsWhole sc [.ls])) ∧ exec .lsync s = .next (next r) ∧
      exec (.xfence sc .ls cb) s = .next (next (performedAt r wholePackage sc [.ls])) ∧
      (s.cmdsOf s.here .seam ≠ [] → Waits (exec (.bfence sc rd) s) r .seam .lq) ∧
      (s.cmdsOf s.here .seam = [] → rd ≠ 0 → Gives (exec (.bfence sc rd) s)
        (performedAt { r with c := { r.c with seam := SeamLog.clear } } wholePackage sc everyClass) rd s.c.seam.word) ∧
      (BytesOk s → PlainLines s.c → Performed s r fun _ => true)) ∧
    (s.c.det = false → Goes (exec .vfence s) s (s.c.pc + 8)) ∧
    (s.c.det = true → Waits (exec .vfence s) s .vfence .lq) ∧
    (s.c.wait = .vfence → s.c.status = .bound → s.groupClosed = true → ∃ t, exec .drainGroupRelease s = .next t ∧
      t.c.wait = .none ∧ t.c.epoch = s.c.epoch + 1 ∧ t.c.pc = s.c.pc + 8 ∧ t.c.lines = [] ∧ (∀ r : XReg, t.c.x[r] = s.c.x[r])) ∧
    (s.c.wait = .vfence → s.c.status = .bound → s.groupClosed = true → BytesOk s → tabWf Ctx.reset s.ctxs = true →
      (∀ g, PlainLines (s.ctxAt g)) → ∀ q : Task, s.c.task = some q → ∃ (t : State) (gs : List Nat), exec .drainGroupRelease s = .next t ∧
      (∀ g, g ∈ gs ↔ g ∈ s.groupCtxs q ∧ (s.ctxAt g).wait = .vfence ∧ (s.ctxAt g).epoch = s.c.epoch) ∧ gs.Nodup ∧
      gs.Pairwise (fun g h => memberNo s g ≤ memberNo s h) ∧
      (∀ a, byteAt t a = gs.foldl (fun b g => heldOver (s.ctxAt g).lines a b) (byteAt s a)) ∧
      ∀ g ∈ gs, ∃ e n, t.ctxAt g = { s.ctxAt g with
        wait := .none, queues := Queues.empty, epoch := (s.ctxAt g).epoch + 1, pc := (s.ctxAt g).pc + 8, ept := 0, lines := []
        event := e, lost := n }) ∧
    (s.c.wait = .vfence → s.groupClosed = false → exec .drainGroupRelease s = .next s)


namespace Sys2Proof.Machine

/-! Lane instructions. Each holds on the context's own stream and inside a block, where a lane acts on its own elements. -/

/-- VL, VLG and VCFG are such as svl leaves, VLG fits elements of width w, and no register-slice entry is in error (R53, R71,
R75). -/
def LanesReady (s : State) (w : Nat) : Prop := s.badConfig = false ∧ s.vlg ≤ s.vlmax w ∧ s.c.vbad = []

/-- Elements of width w the instruction acts on: the granted ones; inside a block those below VL that the lane holds (R76,
R124). -/
def inReach (s : State) (w i : Nat) : Bool :=
  match s.laneSel with
  | none => decide (i < s.c.vlg.toNat)
  | some l => decide (64 * l ≤ w * i ∧ w * i < 64 * (l + 1) ∧ i < s.c.vl.toNat)

/-- What an element is after an instruction that gives active elements new (none: unchanged), padding +0, and leaves inactive
elements and the tail (R72, R76). -/
def classed (s : State) (w : Nat) (pm : MReg) (i old : Nat) (new : Option Nat) : Nat :=
  if !inReach s w i then old
  else if s.c.vl.toNat ≤ i then 0
  else if (s.rm pm).getLsbD i then new.getD old else old

/-- s with other vector registers, at its next instruction. -/
def withV (s : State) (v : Vector (BitVec 4096) 32) : State := ({ s with c := { s.c with v := v } }).adv

/-- exec answers s with op of register g and element i in the group of n registers at vd, by class; every other register, mask,
scalar and byte of memory is as it was. -/
def Lanewise (o : Out) (s : State) (w n : Nat) (vd : VReg) (pm : MReg) (op : Nat → Nat → Option Nat) : Prop :=
  ∃ v, o = .next (withV s v) ∧
    (∀ r : VReg, (∀ g, g < n → r ≠ regAt vd g) → v[r] = s.c.v[r]) ∧
    ∀ g i, g < n → w * i < 4096 →
      elem w v[regAt vd g] i = classed s w pm i (elem w s.c.v[regAt vd g] i) (op g i)

/-- A pattern of w bits as an integer, signed or unsigned (R58). -/
def num (w : Nat) (u : Bool) (p : Nat) : Int := if u then (p : Int) else (BitVec.ofNat w p).toInt

/-- The pattern of an integer in w bits, wrapping (R59). -/
def pat (w : Nat) (z : Int) : Nat := (z % 2 ^ w).toNat

/-- The pattern of an integer under SAT (R59). -/
def fit (w : Nat) (m : VMods) (z : Int) : Nat :=
  if m.sat then
    let lo : Int := if m.u then 0 else -2 ^ (w - 1)
    let hi : Int := if m.u then 2 ^ w - 1 else 2 ^ (w - 1) - 1
    pat w (max lo (min hi z))
  else pat w z

/-- Element i of register g of the second source (R74). -/
def sourceB (s : State) (f : Fmt) (b : VSrc) (g i : Nat) : Nat :=
  match b with
  | .vec r => elem f.width s.c.v[regAt r g] i
  | .sca x => (s.rx x).toNat % 2 ^ f.width
  | .imm v => if f.isInt then pat f.width v.toInt else immElem f v

/-- VIA with two sources, over width, modifiers and the patterns a and b (R79). -/
def viaRows : List ((VBinOp → Instr) × (Nat → VMods → Nat → Nat → Nat)) :=
  [(.vadd, fun w m a b => fit w m (num w m.u a + num w m.u b)),
   (.vsub, fun w m a b => fit w m (num w m.u a - num w m.u b)),
   (.vmul, fun w m a b => fit w m (num w m.u a * num w m.u b)),
   (.vmulh, fun w m a b => pat w (num w m.u a * num w m.u b / 2 ^ w)),
   (.vmin, fun w m a b => pat w (min (num w m.u a) (num w m.u b))),
   (.vmax, fun w m a b => pat w (max (num w m.u a) (num w m.u b))),
   (.vand, fun _ _ a b => a &&& b),
   (.vor, fun _ _ a b => a ||| b),
   (.vxor, fun _ _ a b => a ^^^ b),
   (.vsll, fun w _ a b => a * 2 ^ (b % w) % 2 ^ w),
   (.vsrl, fun w _ a b => a / 2 ^ (b % w)),
   (.vsra, fun w _ a b => pat w (num w false a / 2 ^ (b % w))),
   (.vabsd, fun w m a b => fit w m |num w m.u a - num w m.u b|)]

/-- The limbs of element i in n registers, least first, as one number (R80). -/
def limbs (w n : Nat) (v : Vector (BitVec 4096) 32) (r : VReg) (i : Nat) : Nat :=
  ((List.range n).map fun g => elem w v[regAt r g] i * 2 ^ (w * g)).sum

/-- A comparison by its outcome; none is unordered (R81). -/
def cmpRows : List ((VCmpOp → Instr) × (Option Ordering → Bool)) :=
  [(.vceq, fun c => c == some .eq),
   (.vcne, fun c => c != some .eq),
   (.vclt, fun c => c == some .lt),
   (.vcle, fun c => c == some .lt || c == some .eq),
   (.vcgt, fun c => c == some .gt),
   (.vcge, fun c => c == some .gt || c == some .eq)]

/-- How two patterns compare (R81). -/
def outcome (f : Fmt) (u : Bool) (a b : Nat) : Option Ordering :=
  if f.isFp then (elemVal f false a).cmp (elemVal f false b) else some (compare (num f.width u a) (num f.width u b))

/-- s with other masks, at its next instruction. -/
def withM (s : State) (m : Vector (BitVec 4096) 8) : State := ({ s with c := { s.c with m := m } }).adv

/-- An exact result brought to the format (R62 to R64). -/
def rounded (f : Fmt) (m : VMods) (x : FVal) : Nat := Machine.encode f false m.rnd m.sat x

def fval (f : Fmt) (p : Nat) : FVal := elemVal f false p

/-- VFA with two sources (R82, R84). -/
def vfaRows : List ((VBinOp → Instr) × (Fmt → VMods → Nat → Nat → Nat)) :=
  [(.vfadd, fun f m a b => rounded f m ((fval f a).add m.rnd (fval f b))),
   (.vfsub, fun f m a b => rounded f m ((fval f a).add m.rnd (fval f b).neg)),
   (.vfmul, fun f m a b => rounded f m ((fval f a).mul (fval f b))),
   (.vfdiv, fun f m a b => rounded f m ((fval f a).div (fval f b))),
   (.vfmin, fun f _ a b =>
     if (fval f a).isNaN then if (fval f b).isNaN then canonicalNaN f else b
     else if (fval f b).isNaN then a else if (fval f b).ltTotal (fval f a) then b else a),
   (.vfmax, fun f _ a b =>
     if (fval f a).isNaN then if (fval f b).isNaN then canonicalNaN f else b
     else if (fval f b).isNaN then a else if (fval f a).ltTotal (fval f b) then b else a),
   (.vfsgn, fun f _ a b =>
     if (fval f a).isNaN then canonicalNaN f else a % 2 ^ (f.width - 1) + b / 2 ^ (f.width - 1) * 2 ^ (f.width - 1))]

/-- VFA with one source (R82, R83). -/
def vfaRows1 : List ((VUnOp → Instr) × (Fmt → VMods → Nat → Nat)) :=
  [(.vfabs, fun f _ a => if (fval f a).isNaN then canonicalNaN f else a % 2 ^ (f.width - 1)),
   (.vfneg, fun f _ a => if (fval f a).isNaN then canonicalNaN f else (a + 2 ^ (f.width - 1)) % 2 ^ f.width),
   (.vfexp2, fun f m a => rounded f m (fval f a).exp2),
   (.vflog2, fun f m a => rounded f m (fval f a).log2),
   (.vfrcp, fun f m a => rounded f m ((FVal.fin false 1 0).div (fval f a))),
   (.vfrsq, fun f m a => rounded f m (fval f a).rsq),
   (.vfsqrt, fun f m a => rounded f m (fval f a).sqrt)]

/-- The value of a finite number. -/
def ratOf : FVal → Rat
  | .fin neg m e => (if neg then -1 else 1) * m * (2 : Rat) ^ e
  | _ => 0

/-- p is a finite number of format f. -/
def FinitePat (f : Fmt) (p : Nat) : Prop := p < 2 ^ f.width ∧ ∃ neg m e, fval f p = .fin neg m e

/-- A finite p is the real number x rounded to format f: no number of the format is nearer, or lies between (R63). -/
def RoundsTo (f : Fmt) (rnd : Rnd) (x : ℝ) (p : Nat) : Prop :=
  let r (q : Nat) : ℝ := (ratOf (fval f q) : ℝ)
  FinitePat f p → ∀ q, FinitePat f q → match rnd with
    | .rne | .rna => |x - r p| ≤ |x - r q|
    | .rdn => r p ≤ x ∧ (r q ≤ x → r q ≤ r p)
    | .rup => x ≤ r p ∧ (x ≤ r q → r p ≤ r q)
    | .rtz => |r p| ≤ |x| ∧ (|r q| ≤ |x| → |r q| ≤ |r p|)

end Sys2Proof.Machine

/-- R59, R74, R76, R79 (vadd, vsub, vmul, vmulh, vmin, vmax, vand, vor, vxor, vsll, vsrl, vsra, vabsd, vmac): every element by
its class, every source form; nothing else changes.
Model's choices it rests on: log 45 (DEDUCED: vabsd reads both sources as U says). -/
def Obligations.LaneIntegerResults : Prop :=
  (∀ p ∈ viaRows, ∀ (s : State) (o : VBinOp), (p.1 o).wf = true → LanesReady s o.fmt.width →
    Lanewise (exec (p.1 o) s) s o.fmt.width (grpSize o.m.grp) o.vd o.pm fun g i =>
      some (p.2 o.fmt.width o.m (elem o.fmt.width s.c.v[regAt o.va g] i) (sourceB s o.fmt o.b g i))) ∧
  ∀ (s : State) (o : VTernOp), (Instr.vmac o).wf = true → LanesReady s o.fmt.width →
    Lanewise (exec (.vmac o) s) s o.fmt.width (grpSize o.m.grp) o.vd o.pm fun g i =>
      some (fit o.fmt.width o.m (num o.fmt.width o.m.u (elem o.fmt.width s.c.v[regAt o.va g] i) *
        num o.fmt.width o.m.u (elem o.fmt.width s.c.v[regAt o.vb g] i) +
        num o.fmt.width o.m.u (elem o.fmt.width s.c.v[regAt o.vc g] i)))

/-- R80 (vaddc, vsubb): the limbs and the carry out make the sum or difference of the limbs and the carry in; padding reads 0,
the tail stands, and every bit of the carry mask out of reach; m0 discards carries. -/
def Obligations.CarryChains : Prop :=
  ∀ (sub : Bool) (s : State) (o : VCarryOp), (Instr.vaddc o).wf = true → LanesReady s o.fmt.width →
    let w := o.fmt.width
    let n := grpSize o.m.grp
    ∃ v m, exec (if sub then .vsubb o else .vaddc o) s = .next (({ s with c := { s.c with v := v, m := m } }).adv) ∧
      (∀ r : VReg, (∀ g, g < n → r ≠ regAt o.vd g) → v[r] = s.c.v[r]) ∧
      (∀ r : MReg, r ≠ o.md ∨ r = 0 → m[r] = s.c.m[r]) ∧
      (∀ i, i < 4096 → inReach s w i = false → (m[o.md]).getLsbD i = (s.c.m[o.md]).getLsbD i) ∧
      ∀ i, w * i < 4096 →
        if !inReach s w i then (∀ g, g < n → elem w v[regAt o.vd g] i = elem w s.c.v[regAt o.vd g] i) ∧
          (o.md ≠ 0 → (m[o.md]).getLsbD i = (s.c.m[o.md]).getLsbD i)
        else if s.c.vl.toNat ≤ i then (∀ g, g < n → elem w v[regAt o.vd g] i = 0) ∧ (o.md ≠ 0 → (m[o.md]).getLsbD i = false)
        else ∃ carry : Bool, (o.md ≠ 0 → (m[o.md]).getLsbD i = carry) ∧
          if sub then
            (limbs w n v o.vd i : Int) - 2 ^ (w * n) * carry.toNat =
              limbs w n s.c.v o.va i - limbs w n s.c.v o.vb i - ((s.rm o.pm).getLsbD i).toNat
          else limbs w n v o.vd i + 2 ^ (w * n) * carry.toNat =
              limbs w n s.c.v o.va i + limbs w n s.c.v o.vb i + ((s.rm o.pm).getLsbD i).toNat

/-- R81, R78 (vceq, vcne, vclt, vcle, vcgt, vcge): a bit is set when the relation holds in every register of the group;
inactive and tail bits stand, padding bits are 0, m0 discards. -/
def Obligations.LaneComparisons : Prop :=
  ∀ p ∈ cmpRows, ∀ (s : State) (o : VCmpOp), (p.1 o).wf = true → LanesReady s o.fmt.width →
    ∃ m, exec (p.1 o) s = .next (withM s m) ∧ (∀ r : MReg, r ≠ o.md ∨ r = 0 → m[r] = s.c.m[r]) ∧
      (o.md ≠ 0 → ∀ i, i < 4096 → (m[o.md]).getLsbD i =
        if !inReach s o.fmt.width i then (s.c.m[o.md]).getLsbD i
        else if s.c.vl.toNat ≤ i then false
        else if (s.rm o.pm).getLsbD i then
          (List.range (grpSize o.m.grp)).all fun g =>
            p.2 (outcome o.fmt o.m.u (elem o.fmt.width s.c.v[regAt o.va g] i) (sourceB s o.fmt o.b g i))
        else (s.c.m[o.md]).getLsbD i)

/-- R82 to R84 (vfadd, vfsub, vfmul, vffma, vffnma, vfmin, vfmax, vfabs, vfneg, vfsgn, vfexp2, vflog2, vfrcp, vfrsq, vfdiv,
vfsqrt): every element by its class. The exact results that RoundingIsCorrect does not give: the special functions at R83's special
inputs; 2^a of an integer and log2 of a power of two, exactly.
Model's choices it rests on: log 6 (DESIGN CHOICE). -/
def Obligations.LaneFloatResults : Prop :=
  (∀ p ∈ vfaRows, ∀ (s : State) (o : VBinOp), (p.1 o).wf = true → LanesReady s o.fmt.width →
    Lanewise (exec (p.1 o) s) s o.fmt.width (grpSize o.m.grp) o.vd o.pm fun g i =>
      some (p.2 o.fmt o.m (elem o.fmt.width s.c.v[regAt o.va g] i) (sourceB s o.fmt o.b g i))) ∧
  (∀ p ∈ vfaRows1, ∀ (s : State) (o : VUnOp), (p.1 o).wf = true → LanesReady s o.fmt.width →
    Lanewise (exec (p.1 o) s) s o.fmt.width (grpSize o.m.grp) o.vd o.pm fun g i =>
      some (p.2 o.fmt o.m (elem o.fmt.width s.c.v[regAt o.va g] i))) ∧
  ∀ (neg : Bool) (s : State) (o : VTernOp), (Instr.vffma o).wf = true → LanesReady s o.fmt.width →
    (Lanewise (exec (if neg then .vffnma o else .vffma o) s) s o.fmt.width (grpSize o.m.grp) o.vd o.pm fun g i =>
      let x := (fval o.fmt (elem o.fmt.width s.c.v[regAt o.va g] i)).mul (fval o.fmt (elem o.fmt.width s.c.v[regAt o.vb g] i))
      some (rounded o.fmt o.m ((if neg then x.neg else x).add o.m.rnd (fval o.fmt (elem o.fmt.width s.c.v[regAt o.vc g] i))))) ∧
  ∀ (a : FVal), let one : FVal := .fin false 1 0
    (a = .inf true → a.exp2 = .fin false 0 0 ∧ a.log2 = .nan ∧ one.div a = .fin true 0 0 ∧ a.rsq = .nan ∧ a.sqrt = .nan) ∧
    (a = .inf false → a.exp2 = a ∧ a.log2 = a ∧ one.div a = .fin false 0 0 ∧ a.rsq = .fin false 0 0 ∧ a.sqrt = a) ∧
    (a = .nan → a.exp2 = .nan ∧ a.log2 = .nan ∧ one.div a = .nan ∧ a.rsq = .nan ∧ a.sqrt = .nan) ∧
    ∀ (neg : Bool) (m : Nat) (e : Int), a = .fin neg m e →
      (m = 0 → a.exp2 = one ∧ a.log2 = .inf true ∧ one.div a = .inf neg ∧ a.rsq = .inf neg ∧ a.sqrt = .fin neg 0 0) ∧
      (m ≠ 0 → neg = true → a.log2 = .nan ∧ a.rsq = .nan ∧ a.sqrt = .nan) ∧
      ∀ k : Int,
        (|k| < 512 → -320 ≤ e → ratOf a = k → ∃ n d, a.exp2 = .fin false n d ∧ ratOf a.exp2 = (2 : Rat) ^ k) ∧
        (ratOf a = (2 : Rat) ^ k → a.log2 = FVal.ofInt k)

/-- R60, R63, R64, R82: sums and products are exact, a zero sum with the sign R63 gives it; quotients, square roots and their
reciprocals are rounded from the exact value; a number of a format is its own pattern; rounding to nearest gives a number of the format than which none is
nearer, toward zero, down and up the last one that does not pass the exact value. -/
def Obligations.RoundingIsCorrect : Prop :=
  (∀ (f : Fmt), f.isFp = true →
    (∀ rnd sat p, p < 2 ^ f.width → (fval f p).isNaN = false → Machine.encode f false rnd sat (fval f p) = p) ∧
    ∀ (neg : Bool) (m : Nat) (e : Int) (q : Nat), FinitePat f q →
      let x := ratOf (.fin neg m e)
      let y (rnd : Rnd) := Machine.encode f false rnd false (.fin neg m e)
      let v (rnd : Rnd) := ratOf (fval f (y rnd))
      (∀ rnd, rnd = .rne ∨ rnd = .rna → FinitePat f (y rnd) → |x - v rnd| ≤ |x - ratOf (fval f q)|) ∧
      (FinitePat f (y .rdn) → v .rdn ≤ x ∧ (ratOf (fval f q) ≤ x → ratOf (fval f q) ≤ v .rdn)) ∧
      (FinitePat f (y .rup) → x ≤ v .rup ∧ (x ≤ ratOf (fval f q) → v .rup ≤ ratOf (fval f q))) ∧
      FinitePat f (y .rtz) ∧ |v .rtz| ≤ |x| ∧ (|ratOf (fval f q)| ≤ |x| → |ratOf (fval f q)| ≤ |v .rtz|)) ∧
  ∀ (a b : FVal) (sa sb : Bool) (m n : Nat) (e d : Int), a = .fin sa m e → b = .fin sb n d →
    (∀ rnd, (∃ t k i, a.add rnd b = .fin t k i) ∧ ratOf (a.add rnd b) = ratOf a + ratOf b ∧
      (ratOf a + ratOf b = 0 → (a.add rnd b).sign = if sa = sb then sa else decide (rnd = .rdn))) ∧
    a.mul b = .fin (sa != sb) (m * n) (e + d) ∧ ratOf (a.mul b) = ratOf a * ratOf b ∧
    ∀ (f : Fmt) (rnd : Rnd), f.isFp = true → let y (v : FVal) := Machine.encode f false rnd false v
      (n ≠ 0 → RoundsTo f rnd ((ratOf a / ratOf b : Rat) : ℝ) (y (a.div b))) ∧
      (m ≠ 0 → sa = false → RoundsTo f rnd (Real.sqrt (ratOf a : ℝ)) (y a.sqrt) ∧
        RoundsTo f rnd (1 / Real.sqrt (ratOf a : ℝ)) (y a.rsq))

namespace Sys2Proof.Machine

/-! Conversions (R85). -/

/-- Is element i of a conversion side at position j acted on: on the context's own stream, or below VL in the lane (R124)? -/
def sideOn (s : State) (w i j : Nat) : Bool :=
  match s.laneSel with
  | none => decide (i < s.c.vlg.toNat)
  | some l => decide (i < s.c.vl.toNat ∧ w * j / 64 = l)

/-- As Lanewise, for the side of a conversion whose width is w and whose other side has the narrower width wn, or is narrower:
element i of vector g lies where sideAt puts it. -/
def Sidewise (o : Out) (s : State) (w wn n : Nat) (vd : VReg) (pm : MReg) (op : Nat → Nat → Nat) : Prop :=
  ∃ v, o = .next (withV s v) ∧
    (∀ g i, g < n → i < s.c.vlg.toNat → let p := s.sideAt vd w wn g i
      w * p.2 < 4096 → elem w v[p.1] p.2 =
        if !sideOn s w i p.2 then elem w s.c.v[p.1] p.2
        else if s.c.vl.toNat ≤ i then 0
        else if (s.rm pm).getLsbD i then op g i else elem w s.c.v[p.1] p.2) ∧
    ∀ (r : VReg) j, w * j < 4096 → (∀ g i, g < n → i < s.c.vlg.toNat → s.sideAt vd w wn g i ≠ (r, j)) →
      elem w v[r] j = elem w s.c.v[r] j

/-- Element i of vector g of a conversion's source (R85). -/
def sideFrom (s : State) (va : VReg) (w wn g i : Nat) : Nat :=
  let p := s.sideAt va w wn g i
  elem w s.c.v[p.1] p.2

/-- The active elements of block b (R87). -/
def blockOn (s : State) (pm : MReg) (b i : Nat) : Prop :=
  s.blk * b ≤ i ∧ i < s.blk * (b + 1) ∧ i < s.c.vl.toNat ∧ (s.rm pm).getLsbD i = true

/-- sc is the scale of block b of vector g under vqnt (R87). -/
def IsScale (s : State) (o : VQntOp) (g b sc : Nat) : Prop :=
  let x (i : Nat) := fval o.src (sideFrom s o.va o.src.width (min o.dst.width o.src.width) g i)
  ((∃ i, blockOn s o.pm b i ∧ ∀ neg m e, x i ≠ .fin neg m e) → sc = 0xFF) ∧
  ((∀ i, blockOn s o.pm b i → ∃ neg m e, x i = .fin neg m e) →
    ((∀ i, blockOn s o.pm b i → (x i).isZero = true) → sc = 127) ∧
    ∀ k : Int, (∃ i, blockOn s o.pm b i ∧ (x i).isZero = false ∧ (x i).ilog2 = k) →
      (∀ i, blockOn s o.pm b i → (x i).isZero = false → (x i).ilog2 ≤ k) →
      (sc : Int) = max 0 (min 254 (k - quantEmax o.dst o.m.u + 127)))

/-- The code of an element under its block's scale (R87). -/
def codeOf (o : VQntOp) (sc : Nat) (x : FVal) : Nat :=
  if sc = 0xFF then 0 else Machine.encode o.dst o.m.u o.m.rnd true (x.scale (127 - (sc : Int)))

/-- VMSK into a mask: bit i of the result, for i below VL, over VL, the count, ma and mb (R90). -/
def maskRows : List ((MReg → MReg → MReg → VCount → VMods → Instr) × (Nat → Nat → (Nat → Bool) → (Nat → Bool) → Nat → Bool)) :=
  [(fun md ma mb _ m => .mand md ma mb m, fun _ _ a b i => a i && b i),
   (fun md ma mb _ m => .mor md ma mb m, fun _ _ a b i => a i || b i),
   (fun md ma mb _ m => .mxor md ma mb m, fun _ _ a b i => a i != b i),
   (fun md ma mb _ m => .mandn md ma mb m, fun _ _ a b i => a i && !b i),
   (fun md ma _ _ m => .mnot md ma m, fun _ _ a _ i => !a i),
   (fun md ma _ n m => .mshl md ma n m, fun _ n a _ i => decide (n ≤ i) && a (i - n)),
   (fun md ma _ n m => .mshr md ma n m, fun vl n a _ i => decide (i + n < vl) && a (i + n)),
   (fun md _ _ n m => .mset md n m, fun _ n _ _ i => decide (i < n)),
   (fun md ma _ _ m => .mmv md ma m, fun _ _ a _ i => a i)]

/-- A count of format V (R74). -/
def vecCount (s : State) : VCount → Nat
  | .sca r => (s.rx r).toNat
  | .imm v => v.toNat

/-- The mask bits a mask instruction acts on: those below VLG, or of the elements the lane holds, counted in VCFG.FMT. -/
def maskOn (s : State) (i : Nat) : Bool := inReach s s.c.regionWidth i

/-- Reduction of registers va + g into byte 0 up of registers vd + g, the result rw bits wide (R93). -/
def Reduces (o : Out) (s : State) (w rw n : Nat) (vd : VReg) (val : Nat → Nat) : Prop :=
  (s.c.vlg = 0 → o = .next s.adv) ∧
  (s.c.vlg ≠ 0 → ∃ v, o = .next (withV s v) ∧ (∀ r : VReg, (∀ g, g < n → r ≠ regAt vd g) → v[r] = s.c.v[r]) ∧
    ∀ g j, g < n → j < 512 → elem 8 v[regAt vd g] j =
      if j < rw / 8 then val g / 256 ^ j % 256
      else if j < (s.c.vlg.toNat * w + 7) / 8 then 0 else elem 8 s.c.v[regAt vd g] j)

/-- The node of element i before the first level: absent unless present (R92). -/
def present (s : State) (pm : MReg) (w : Nat) (r : VReg) (i : Nat) : Option Nat :=
  if i < s.c.vl.toNat ∧ (s.rm pm).getLsbD i then some (elem w s.c.v[r] i) else none

/-- The tree over 2^k nodes from node a, its halves combined (R92). -/
def treeOver (f : Nat → Nat → Nat) (node : Nat → Option Nat) : Nat → Nat → Option Nat
  | 0, a => node a
  | k + 1, a =>
    match treeOver f node k a, treeOver f node k (a + 2 ^ k) with
    | none, y => y
    | x, none => x
    | some x, some y => some (f x y)

/-- The reductions of R92, with the code their combination has in R95. -/
def redRows : List ((VUnOp → Instr) × Iop) :=
  [(.vredsum, .add), (.vredmax, .max), (.vredmin, .min), (.vredand, .and), (.vredor, .or)]

/-- The identity of a reduction (R92). -/
def redIdent (op : Iop) (f : Fmt) (u : Bool) : Nat :=
  match op with
  | .max => if f.isFp then infPattern f + 2 ^ (f.width - 1) else if u then 0 else 2 ^ (f.width - 1)
  | .min => if f.isFp then infPattern f else if u then 2 ^ f.width - 1 else 2 ^ (f.width - 1) - 1
  | .and => 2 ^ f.width - 1
  | _ => 0

/-- Two elements combined and brought to the format (R92, R95). -/
def combined (op : Iop) (f : Fmt) (m : VMods) (a b : Nat) : Nat :=
  if f.isFp then
    match op with
    | .mul => rounded f m ((fval f a).mul (fval f b))
    | .max => rounded f m ((fval f a).maxNum (fval f b))
    | .min => rounded f m ((fval f a).minNum (fval f b))
    | _ => rounded f m ((fval f a).add m.rnd (fval f b))
  else
    match op with
    | .mul => fit f.width m (num f.width m.u a * num f.width m.u b)
    | .max => pat f.width (max (num f.width m.u a) (num f.width m.u b))
    | .min => pat f.width (min (num f.width m.u a) (num f.width m.u b))
    | .and => a &&& b
    | .or => a ||| b
    | .xor => a ^^^ b
    | _ => fit f.width m (num f.width m.u a + num f.width m.u b)

/-- The exact sum of a block's values times its scale, rounded once to FP32 (R94). -/
def scaledSum (m : VMods) (sc : Nat) (xs : List FVal) : Nat :=
  if sc = 0xFF then canonicalNaN .fp32
  else rounded .fp32 m ((xs.tail.foldl (fun a b => a.add m.rnd b) (xs.headD .nan)).scale ((sc : Int) - 127))

/-- BlockScaledSum of register va + g over the blocks from b on (R94). -/
def blockSums (s : State) (o : VPairOp) (g : Nat) : Nat → Nat → Option Nat → Nat
  | 0, _, acc => acc.getD 0
  | k + 1, b, acc =>
    let is := ((List.range s.blk).map (s.blk * b + ·)).filter fun i => decide (i < s.c.vl.toNat) && (s.rm o.pm).getLsbD i
    let v := scaledSum o.m (elem 8 s.c.v[regAt o.vb g] b)
      (is.map fun i => elemVal o.fmt o.m.u (elem o.fmt.width s.c.v[regAt o.va g] i))
    blockSums s o g k (b + 1) (if is = [] then acc else match acc with
      | none => some v
      | some a => some (rounded .fp32 o.m ((fval .fp32 a).add o.m.rnd (fval .fp32 v))))

/-- A result as R62 writes it: a NaN is the canonical one (log 45). -/
def canonical (f : Fmt) (a : Nat) : Nat := if f.isFp ∧ (fval f a).isNaN then canonicalNaN f else a

/-- The registers of two groups differ. -/
def Apart (a : VReg) (n : Nat) (b : VReg) (k : Nat) : Prop := ∀ i j, i < n → j < k → regAt a i ≠ regAt b j

/-- The candidate of element i beats the running value (R96). -/
def beats (s : State) (o : VBinOp) (g i : Nat) : Bool :=
  let w := o.fmt.width
  let cv := elem w s.c.v[regAt o.va g] i
  let rv := elem w s.c.v[regAt o.vd g] i
  inReach s w i && decide (i < s.c.vl.toNat) && (s.rm o.pm).getLsbD i &&
    if o.fmt.isFp then !(fval o.fmt cv).isNaN && ((fval o.fmt rv).isNaN || (fval o.fmt rv).lt (fval o.fmt cv))
    else decide (num w o.m.u rv < num w o.m.u cv)

/-- What vcswi leaves of an element: zero in padding, new where the candidate wins, else old (R96). -/
def swapped (s : State) (o : VBinOp) (g i old new : Nat) : Nat :=
  if inReach s o.fmt.width i && decide (s.c.vl.toNat ≤ i) then 0 else if beats s o g i then new else old

end Sys2Proof.Machine

/-- R85 to R89 (vcvt, vdqnt, vqnt, vbpsplit, vbpjoin): where each element lies on either side, its value, and that nothing else
changes; vqnt with its codes and scales in different registers.
Model's choices it rests on: log 40 (DEDUCED). -/
def Obligations.Conversions : Prop :=
  (∀ (s : State) (o : VCvtOp), (Instr.vcvt o).wf = true → let wn := min o.dst.width o.src.width
    LanesReady s wn → Sidewise (exec (.vcvt o) s) s o.dst.width wn (grpSize o.m.grp) o.vd o.pm fun g i =>
      let a := sideFrom s o.va o.src.width wn g i
      if (o.dst.isInt ∨ o.dst = .i4) ∧ (o.src.isInt ∨ o.src = .i4) then fit o.dst.width o.m (num o.src.width o.m.u a)
      else Machine.encode o.dst o.m.u o.m.rnd o.m.sat (elemVal o.src o.m.u a)) ∧
  (∀ (s : State) (o : VQntOp), (Instr.vdqnt o).wf = true → let wn := min o.dst.width o.src.width
    LanesReady s wn → s.blk ≠ 0 → Sidewise (exec (.vdqnt o) s) s o.dst.width wn (grpSize o.m.grp) o.vd o.pm fun g i =>
      let sc := elem 8 s.c.v[regAt o.vc g] (i / s.blk)
      if sc = 0xFF then canonicalNaN o.dst
      else rounded o.dst o.m ((elemVal o.src o.m.u (sideFrom s o.va o.src.width wn g i)).scale ((sc : Int) - 127))) ∧
  (∀ (s : State) (o : VQntOp), (Instr.vqnt o).wf = true → let wn := min o.dst.width o.src.width
    LanesReady s wn → s.blk ≠ 0 → InScu s → s.wid ≤ 64 →
    Apart o.vd (grpSize o.m.grp * (o.dst.width / wn)) o.vc (grpSize o.m.grp) →
    ∃ v, exec (.vqnt o) s = .next (withV s v) ∧
      (∀ (r : VReg) j, o.dst.width * j < 4096 → (∀ g, g < grpSize o.m.grp → r ≠ regAt o.vc g) →
        (∀ g i, g < grpSize o.m.grp → i < s.c.vlg.toNat → s.sideAt o.vd o.dst.width wn g i ≠ (r, j)) →
        elem o.dst.width v[r] j = elem o.dst.width s.c.v[r] j) ∧
      (∀ g j, g < grpSize o.m.grp → j < 512 → s.c.vlg.toNat ≤ s.blk * j →
        elem 8 v[regAt o.vc g] j = elem 8 s.c.v[regAt o.vc g] j) ∧
      ∀ g b, g < grpSize o.m.grp → s.blk * b < s.c.vlg.toNat →
        ((∀ i, ¬ blockOn s o.pm b i) → elem 8 v[regAt o.vc g] b = elem 8 s.c.v[regAt o.vc g] b) ∧
        ((∃ i, blockOn s o.pm b i) → IsScale s o g b (elem 8 v[regAt o.vc g] b)) ∧
        ∀ i, s.blk * b ≤ i → i < s.blk * (b + 1) → let p := s.sideAt o.vd o.dst.width wn g i
          elem o.dst.width v[p.1] p.2 =
            if s.c.vl.toNat ≤ i then 0
            else if (s.rm o.pm).getLsbD i then
              codeOf o (elem 8 v[regAt o.vc g] b) (fval o.src (sideFrom s o.va o.src.width wn g i))
            else elem o.dst.width s.c.v[p.1] p.2) ∧
  (∀ (s : State) (o : VCvtOp), (Instr.vbpsplit o).wf = true → LanesReady s 1 →
    Lanewise (exec (.vbpsplit o) s) s 1 8 o.vd o.pm fun j i => some (sideFrom s o.va 8 1 0 i / 2 ^ (7 - j) % 2)) ∧
  ∀ (s : State) (o : VCvtOp), (Instr.vbpjoin o).wf = true → LanesReady s 1 → InScu s →
    Sidewise (exec (.vbpjoin o) s) s 8 1 1 o.vd o.pm fun _ i =>
      ((List.range 8).map fun j => elem 1 s.c.v[regAt o.va j] i * 2 ^ (7 - j)).sum

/-- R90, R107 (mand, mor, mxor, mandn, mnot, mshl, mshr, mset, mmv, mpop, mfirst): bits below VL, padding bits 0, higher bits and
other masks as they were, nothing with VL = 0; the counts go to a scalar register once VQ and LQ are empty. -/
def Obligations.MaskInstructions : Prop :=
  (∀ p ∈ maskRows, ∀ (s : State) (md ma mb : MReg) (n : VCount) (k : VMods), LanesReady s 1 →
    ∃ m, exec (p.1 md ma mb n k) s = .next (withM s m) ∧ (∀ r : MReg, r ≠ md ∨ r = 0 → m[r] = s.c.m[r]) ∧
      (md ≠ 0 → ∀ i, i < 4096 → (m[md]).getLsbD i =
        if s.c.vl = 0 ∨ maskOn s i = false then (s.c.m[md]).getLsbD i
        else decide (i < s.c.vl.toNat) && p.2 s.c.vl.toNat (vecCount s n) ((s.rm ma).getLsbD ·) ((s.rm mb).getLsbD ·) i)) ∧
  ∀ (s : State) (rd : XReg) (ma : MReg) (k : VMods), InScu s →
    (Drained s [.vq, .lq] → LanesReady s 1 →
      Gives (exec (.mpop rd ma k) s) s rd (BitVec.ofNat 64 (setBelow s ma).length) ∧
      Gives (exec (.mfirst rd ma k) s) s rd (match setBelow s ma with
        | i :: _ => BitVec.ofNat 64 i
        | [] => 0xFFFFFFFFFFFFFFFF)) ∧
    (¬ Drained s [.vq, .lq] → Waits (exec (.mpop rd ma k) s) s (.drain [.vq, .lq]) .scu ∧
      Waits (exec (.mfirst rd ma k) s) s (.drain [.vq, .lq]) .scu)

/-- R91, R107 (vslup, vsldn, vgath, vcomp, vexpd, vbcast, vmvv, vid, vmvx): the source of each element.
Model's choices it rests on: log 11 (DEDUCED). -/
def Obligations.Permutes : Prop :=
  (∀ (s : State) (o : VSlideOp), (Instr.vslup o).wf = true → LanesReady s o.fmt.width →
    let va (g i : Nat) := elem o.fmt.width s.c.v[regAt o.va g] i
    let k := vecCount s o.n
    Lanewise (exec (.vslup o) s) s o.fmt.width (grpSize o.m.grp) o.vd o.pm
      (fun g i => if k ≤ i then some (va g (i - k)) else none) ∧
    Lanewise (exec (.vsldn o) s) s o.fmt.width (grpSize o.m.grp) o.vd o.pm
      fun g i => some (if i + k < s.c.vl.toNat then va g (i + k) else 0)) ∧
  (∀ (s : State) (o : VPairOp), (Instr.vgath o).wf = true → LanesReady s o.fmt.width →
    Lanewise (exec (.vgath o) s) s o.fmt.width (grpSize o.m.grp) o.vd o.pm fun g i =>
      let x := elem o.fmt.width s.c.v[regAt o.vb g] i
      some (if x < s.c.vl.toNat then elem o.fmt.width s.c.v[regAt o.va g] x else 0)) ∧
  (∀ (s : State) (o : VUnOp), (Instr.vmvv o).wf = true → LanesReady s o.fmt.width →
    let va (g i : Nat) := elem o.fmt.width s.c.v[regAt o.va g] i
    Lanewise (exec (.vmvv o) s) s o.fmt.width (grpSize o.m.grp) o.vd o.pm (fun g i => some (va g i)) ∧
    Lanewise (exec (.vcomp o) s) s o.fmt.width (grpSize o.m.grp) o.vd 0
      (fun g i => some (match (setBelow s o.pm)[i]? with
        | some j => va g j
        | none => 0)) ∧
    Lanewise (exec (.vexpd o) s) s o.fmt.width (grpSize o.m.grp) o.vd 0
      fun g i => some (if (s.rm o.pm).getLsbD i then va g ((List.range i).filter fun j => (s.rm o.pm).getLsbD j).length else 0)) ∧
  (∀ (s : State) (o : VBcastOp), (Instr.vbcast o).wf = true → LanesReady s o.fmt.width →
    Lanewise (exec (.vbcast o) s) s o.fmt.width (grpSize o.m.grp) o.vd o.pm fun g _ => some (sourceB s o.fmt o.b g 0)) ∧
  (∀ (s : State) (o : VIdOp), (Instr.vid o).wf = true → LanesReady s o.fmt.width →
    Lanewise (exec (.vid o) s) s o.fmt.width (grpSize o.m.grp) o.vd o.pm fun _ i => some (i % 2 ^ o.fmt.width)) ∧
  ∀ (s : State) (o : VMvxOp), InScu s →
    (Drained s [.vq, .lq] → s.badConfig = false → s.c.vbad = [] → Gives (exec (.vmvx o) s) s o.rd
      (let e := elem o.fmt.width s.c.v[o.va] 0
       if o.fmt.isInt ∧ o.m.u = false then word (BitVec.ofNat o.fmt.width e).toInt else BitVec.ofNat 64 e)) ∧
    (¬ Drained s [.vq, .lq] → Waits (exec (.vmvx o) s) s (.drain [.vq, .lq]) .scu)

/-- R92 to R95, R62 (vredsum, vredmax, vredmin, vredand, vredor, vredbs, vscan): the tree over the present elements, the blocks' sums
in order, the running results; where the result lies and what is zeroed.
Model's choices it rests on: logs 12 (DEDUCED), 45 (DEDUCED: a NaN that passes through is canonical, the sign of a zero block sum). -/
def Obligations.Reductions : Prop :=
  (∀ p ∈ redRows, ∀ (s : State) (o : VUnOp), (p.1 o).wf = true → LanesReady s o.fmt.width →
    Reduces (exec (p.1 o) s) s o.fmt.width o.fmt.width (grpSize o.m.grp) o.vd fun g =>
      canonical o.fmt ((treeOver (combined p.2 o.fmt o.m) (present s o.pm o.fmt.width (regAt o.va g)) (Nat.clog 2 s.c.vlg.toNat) 0).getD
        (redIdent p.2 o.fmt o.m.u))) ∧
  (∀ (s : State) (o : VPairOp), (Instr.vredbs o).wf = true → LanesReady s o.fmt.width → s.blk ≠ 0 →
    Reduces (exec (.vredbs o) s) s o.fmt.width 32 (grpSize o.m.grp) o.vd fun g =>
      blockSums s o g (s.c.vlg.toNat / s.blk) 0 none) ∧
  ∀ (s : State) (o : VScanOp), (Instr.vscan o).wf = true → LanesReady s o.fmt.width → InScu s →
    Lanewise (exec (.vscan o) s) s o.fmt.width (grpSize o.m.grp) o.vd o.pm fun g i =>
      match ((List.range (i + 1)).filter fun j => (s.rm o.pm).getLsbD j).map fun j => elem o.fmt.width s.c.v[regAt o.va g] j with
      | [] => none
      | a :: t => some (t.foldl (combined o.op o.fmt o.m) (canonical o.fmt a))

/-- R96, R97, R98 (vcswi, vctr, vrng). vcswi, the groups apart: where the candidate's key is above the running key, the pairs
change places (FORM 00) or the candidate is kept; elsewhere nothing changes, padding is +0. vctr and vrng: the counter words of
each quad, and Philox over them; FORMAT reason 5 unless VL is VLG, a multiple of 4. -/
def Obligations.SwapsAndRandomNumbers : Prop :=
  (∀ (s : State) (o : VBinOp), (Instr.vcswi o).wf = true → LanesReady s o.fmt.width →
     let w := o.fmt.width
     let n := grpSize o.m.grp
     Apart o.va n o.vd (2 * n) → (∀ r, o.b = .vec r → Apart r n o.vd (2 * n) ∧ Apart r n o.va n) →
     ∃ v, exec (.vcswi o) s = .next (withV s v) ∧
       (∀ r : VReg, (∀ g, g < 2 * n → r ≠ regAt o.vd g) →
         (∀ b, o.b = .vec b → ∀ g, g < n → r ≠ regAt o.va g ∧ r ≠ regAt b g) → v[r] = s.c.v[r]) ∧
       ∀ g i, g < n → w * i < 4096 →
         let cv := elem w s.c.v[regAt o.va g] i
         let rv := elem w s.c.v[regAt o.vd g] i
         let ri := elem w s.c.v[regAt o.vd (n + g)] i
         let ci := match o.b with
           | .vec b => elem w s.c.v[regAt b g] i
           | .sca x => (s.rx x).toNat % 2 ^ w
           | .imm k => k.toNat
         elem w v[regAt o.vd g] i = swapped s o g i rv cv ∧ elem w v[regAt o.vd (n + g)] i = swapped s o g i ri ci ∧
         ∀ b, o.b = .vec b →
           elem w v[regAt o.va g] i = swapped s o g i cv rv ∧ elem w v[regAt b g] i = swapped s o g i ci ri) ∧
  (∀ (s : State) (o : VRngOp), (Instr.vrng o).wf = true → LanesReady s 32 →
     let va (g i : Nat) := elem 32 s.c.v[regAt o.va g] i
     let key := (s.rx o.xb).toNat
     (s.c.vl = s.c.vlg → s.c.vl.toNat % 4 = 0 →
       Lanewise (exec (.vctr o) s) s 32 (grpSize o.m.grp) o.vd o.pm (fun g i =>
         [va g (i - i % 4), 0, key % 2 ^ 32, key / 2 ^ 32][i % 4]?) ∧
       Lanewise (exec (.vrng o) s) s 32 (grpSize o.m.grp) o.vd o.pm fun g i =>
         let j := i - i % 4
         let q := philox 10 (va g j, va g (j + 1), va g (j + 2), va g (j + 3)) (key % 2 ^ 32) (key / 2 ^ 32)
         [q.1, q.2.1, q.2.2.1, q.2.2.2][i % 4]?) ∧
     (s.c.vl ≠ s.c.vlg ∨ s.c.vl.toNat % 4 ≠ 0 →
       exec (.vctr o) s = .next (s.raise { cause := .format, detail := BitVec.ofNat 56 (5 * 2 ^ 48), unit := .vq }) ∧
       exec (.vrng o) s = .next (s.raise { cause := .format, detail := BitVec.ofNat 56 (5 * 2 ^ 48), unit := .vq })))


namespace Sys2Proof.Machine

/-! Vector memory (R202 to R210). -/

/-- A vector memory access: element width, registers of its group, mask, whether it is an HM load, whether it moves scales, and the
address of element i of register g in bits. -/
structure VmShape where
  w : Nat
  n : Nat
  vd : VReg
  pm : MReg
  hm : Bool
  scale : Bool
  addr : Nat → Nat → Int

/-- X[XA] + OFF16, in bits (R203). -/
def vmBase (s : State) (xa : XReg) (off : BitVec 16) : Int := 8 * ((xOf s xa + word off.toInt).toNat : Int)

/-- Index(i) (R204). -/
def vmIndex (s : State) (vb : VReg) (i : Nat) : Nat :=
  elem 32 s.c.v[regAt vb (i / (2 * s.c.laneCount s.k))] (i % (2 * s.c.laneCount s.k))

/-- A stride in bits: of bytes, or of bits for nibbles (R203). -/
def vmStride (s : State) (f : Fmt) (xb : XReg) : Int := (xOf s xb).toInt * (if f.width < 8 then 1 else 8)

/-- E8 under a block grant moves scales (R206). -/
def vmScale (s : State) (f : Fmt) : Bool := f == .e8 && s.blk != 0

def unitShape (s : State) (f : Fmt) (n : Nat) (vd : VReg) (pm : MReg) (hm : Bool) (xa : XReg) (off : BitVec 16) : VmShape :=
  ⟨f.width, n, vd, pm, hm, vmScale s f, fun g i => vmBase s xa off + (i * n + g) * f.width⟩

def stridedShape (s : State) (f : Fmt) (n : Nat) (vd : VReg) (pm : MReg) (hm : Bool) (xa xb : XReg) (off : BitVec 16) : VmShape :=
  ⟨f.width, n, vd, pm, hm, vmScale s f, fun g i => vmBase s xa off + i * vmStride s f xb + g * f.width⟩

def indexedShape (s : State) (f : Fmt) (n : Nat) (vd : VReg) (pm : MReg) (hm : Bool) (xa : XReg) (vb : VReg) (off : BitVec 16) :
    VmShape :=
  ⟨f.width, n, vd, pm, hm, vmScale s f, fun g i => vmBase s xa off + (vmIndex s vb i * n + g) * f.width⟩

def planeShape (s : State) (n : Nat) (vd : VReg) (pm : MReg) (hm : Bool) (xa xb : XReg) (off : BitVec 16) : VmShape :=
  ⟨1, n, vd, pm, hm, false, fun g i => vmBase s xa off + g * (8 * (xOf s xb).toInt) + i⟩

namespace VmShape

/-- Elements of one register: granted ones, or blocks (R206). -/
def count (k : VmShape) (s : State) : Nat := if k.scale then s.c.vlg.toNat / s.blk else s.c.vlg.toNat

/-- Is element i active; block i of a scale move when an element of it is (R206, R210)? -/
def on (k : VmShape) (s : State) (i : Nat) : Bool :=
  if k.scale then (List.range s.blk).any fun j => decide (s.blk * i + j < s.c.vl.toNat) && (s.rm k.pm).getLsbD (s.blk * i + j)
  else decide (i < s.c.vl.toNat) && (s.rm k.pm).getLsbD i

/-- The active elements (register, element) in increasing k (R203). -/
def elems (k : VmShape) (s : State) : List (Nat × Nat) :=
  ((List.range (k.count s)).filter (k.on s)).flatMap fun i => (List.range k.n).map fun g => (g, i)

def byteOf (k : VmShape) (e : Nat × Nat) : Nat := (k.addr e.1 e.2 / 8 % 2 ^ 64).toNat
def bitOf (k : VmShape) (e : Nat × Nat) : Nat := (k.addr e.1 e.2 % 8).toNat

/-- Bytes of an element. -/
def bytes (k : VmShape) : Nat := max 1 (k.w / 8)

/-- The 64 KiB granule of an element (R202). -/
def page (k : VmShape) (s : State) (e : Nat × Nat) : Nat := (s.c.vah.toNat * 2 ^ 64 + k.byteOf e) / 2 ^ 16

/-- The granules of the active elements, each once, in the order first needed. -/
def pages (k : VmShape) (s : State) : List Nat :=
  (k.elems s).foldl (fun ps e => if ps.contains (k.page s e) then ps else ps ++ [k.page s e]) []

/-- Where element e lies: its granule's leaf at its offset. -/
def leaf (k : VmShape) (s : State) (fs : Tab Found) (e : Nat × Nat) : Leaf :=
  match foundAt fs (k.page s e) with
  | .ok l => l.offset (k.byteOf e % 2 ^ 16)
  | .error _ => ⟨0, 0, Lay.plain, 0, 0, 0, 0⟩

/-- The access completes: the configuration fits, no PROGRESS is due, no watch is armed, no memory or register error stands, and every active element
is aligned, has a page that grants what it needs, and may be touched; for an HM load its granule holds the expected hallmark, which no
error spoils. -/
def Completes (k : VmShape) (s s1 : State) (fs : Tab Found) (need : Need) (ap : Ap) : Prop :=
  InScu s ∧ s.badConfig = false ∧ s.c.asked.progress = none ∧ k.count s ≤ s.vlmax k.w ∧ s.c.vbad = [] ∧ s.c.fmsk = 0 ∧ s.c.watchctl = 0 ∧ s.bad = [] ∧ BytesOk s ∧
  s.translateAll need ap (k.pages s) = (s1, fs) ∧
  ∀ e ∈ k.elems s, k.addr e.1 e.2 % k.w = 0 ∧ (∃ l, foundAt fs (k.page s e) = .ok l) ∧
    let l := k.leaf s fs e
    l.pa % k.bytes = 0 ∧ s1.pinOk s1.pkg s.c.session l.pa = true ∧
    (k.hm = true → l.pa / 2 ^ 46 = s.pkg ∧ s1.hallStep l.pa = none ∧
      ∀ clu g, (s1.place l.pa).granule = some (clu, g) → s1.hallError clu g = Bad.clean)

/-- The bytes an element is read from: its own, or under a nonzero expected layout each where R251 puts it. -/
def read (k : VmShape) (s : State) (l : Leaf) : List Byte :=
  let lay := (s.c.hmexp.extractLsb' 16 2).toNat
  if k.hm && lay != 0 then
    (List.range k.bytes).flatMap fun j =>
      s.ownBytes .ls { l with pa := l.pa - l.pa % 4096 + permuteOffset lay (l.pa % 4096 + j) } 1
  else s.ownBytes .ls l k.bytes

/-- The element in its bytes. -/
def value (k : VmShape) (s : State) (fs : Tab Found) (e : Nat × Nat) : Nat :=
  leNat (k.read s (k.leaf s fs e)) / 2 ^ k.bitOf e % 2 ^ k.w

/-- A load: active elements hold what memory holds, padding +0; inactive elements, the tail, every other register, and every byte
of memory stand. -/
def Loads (k : VmShape) (o : Out) (s : State) : Prop :=
  ∀ s1 fs, k.Completes s s1 fs Need.read .plain → ∃ v cs, o = .next (withV { s1 with chans := cs } v) ∧ s1.c = s.c ∧
    (∀ r : VReg, (∀ g, g < k.n → r ≠ regAt k.vd g) → v[r] = s.c.v[r]) ∧
    ∀ g i, g < k.n → k.w * i < 4096 → elem k.w v[regAt k.vd g] i =
      if k.count s ≤ i then elem k.w s.c.v[regAt k.vd g] i
      else if k.on s i then k.value s1 fs (g, i)
      else if k.scale = false ∧ s.c.vl.toNat ≤ i then 0
      else elem k.w s.c.v[regAt k.vd g] i

/-- Memory, read byte by byte, after the elements are performed in order: each replaces its bytes by upd of what it finds and its
register element. -/
def performed (k : VmShape) (s : State) (fs : Tab Found) (upd : Nat × Nat → Nat → Nat → Nat) (f : Nat → Byte) : Nat → Byte :=
  (k.elems s).foldl (fun f e =>
    let pa := (k.leaf s fs e).pa
    let old := leNat ((List.range k.bytes).map fun j => f (pa + j))
    let bs := leBytes k.bytes (upd e old (elem k.w s.c.v[regAt k.vd e.1] e.2))
    fun a => if pa ≤ a ∧ a < pa + k.bytes then bs.getD (a - pa) 0 else f a) f

/-- A store element: a nibble or a bit replaces its part of a byte. -/
def stored (k : VmShape) (e : Nat × Nat) (old v : Nat) : Nat :=
  if k.w < 8 then old - old / 2 ^ k.bitOf e % 2 ^ k.w * 2 ^ k.bitOf e + v * 2 ^ k.bitOf e else v

/-- A store: with CTL.DET 0 its elements reach memory in order and no other byte changes; with it they are held, memory stands,
and the context's own loads see them. -/
def Stores (k : VmShape) (o : Out) (s : State) : Prop :=
  ∀ s1 fs, k.Completes s s1 fs Need.write .plain → (∀ e ∈ k.elems s, (k.leaf s fs e).lay.raw = false) →
    (s.c.det = false → s.c.lines = [] → ∃ u, MemoryOnly s1 u ∧ o = .next (next u) ∧
      ∀ a, byteAt u a = k.performed s fs k.stored (byteAt s1) a) ∧
    (s.c.det = true → LinesOk s.c → s.c.lines.length + (k.elems s).length ≤ 1024 → ∃ ls,
      o = .next (next { s1 with c := { s1.c with lines := ls } }) ∧
      ∀ a, overlay ls a [byteAt s1 a] =
        [k.performed s fs k.stored (fun b => (overlay s.c.lines b [byteAt s1 b]).headD 0) a])

end VmShape

/-- vamo with the operation each combines by (R207). -/
def vamoRows : List ((VmStxOp → Instr) × Iop) := [(.vamoAdd, .add), (.vamoMin, .min), (.vamoMax, .max)]

end Sys2Proof.Machine

/-- R203 to R206, R210, R251, R253 (vld, vlds, vldx, vldbp). -/
def Obligations.VectorLoads : Prop :=
  (∀ (s : State) (o : VmLdOp), (Instr.vld o).wf = true →
    (unitShape s o.fmt (grpSize o.grp) o.vd o.pm o.hm o.xa o.off).Loads (exec (.vld o) s) s) ∧
  (∀ (s : State) (o : VmLdsOp), (Instr.vlds o).wf = true →
    (stridedShape s o.fmt (grpSize o.grp) o.vd o.pm o.hm o.xa o.xb o.off).Loads (exec (.vlds o) s) s) ∧
  (∀ (s : State) (o : VmLdxOp), (Instr.vldx o).wf = true →
    (indexedShape s o.fmt (grpSize o.grp) o.vd o.pm o.hm o.xa o.vb o.off).Loads (exec (.vldx o) s) s) ∧
  ∀ (s : State) (o : VmLdbpOp), (Instr.vldbp o).wf = true →
    (planeShape s (o.pl.val + 1) o.vd o.pm o.hm o.xa o.xb o.off).Loads (exec (.vldbp o) s) s

/-- R203 to R207, R210, R270 (vst, vsts, vstx, vstbp, vamo.add, vamo.min, vamo.max). -/
def Obligations.VectorStores : Prop :=
  (∀ (s : State) (o : VmStOp), (Instr.vst o).wf = true →
    (unitShape s o.fmt (grpSize o.grp) o.vd o.pm false o.xa o.off).Stores (exec (.vst o) s) s) ∧
  (∀ (s : State) (o : VmStsOp), (Instr.vsts o).wf = true →
    (stridedShape s o.fmt (grpSize o.grp) o.vd o.pm false o.xa o.xb o.off).Stores (exec (.vsts o) s) s) ∧
  (∀ (s : State) (o : VmStxOp), (Instr.vstx o).wf = true →
    (indexedShape s o.fmt (grpSize o.grp) o.vd o.pm false o.xa o.vb o.off).Stores (exec (.vstx o) s) s) ∧
  (∀ (s : State) (o : VmStbpOp), (Instr.vstbp o).wf = true →
    (planeShape s (o.pl.val + 1) o.vd o.pm false o.xa o.xb o.off).Stores (exec (.vstbp o) s) s) ∧
  ∀ p ∈ vamoRows, ∀ (s s1 : State) (o : VmStxOp) (fs : Tab Found), (p.1 o).wf = true →
    let k := indexedShape s o.fmt (grpSize o.grp) o.vd o.pm false o.xa o.vb o.off
    k.Completes s s1 fs Need.both .atomic → s.c.lines = [] →
    ∃ u, MemoryOnly s1 u ∧ exec (p.1 o) s = .next (next u) ∧
      ∀ a, byteAt u a = k.performed s fs (fun _ old v => combined p.2 o.fmt ⟨0, false, .rne, false⟩ old v) (byteAt s1) a

namespace Sys2Proof.Machine

/-! Arrays (R133 to R152). A slot is a place in virtual memory; what it holds is read from memory byte by byte. -/

/-- Byte address, first bit in the byte, width in bits. -/
structure Slot where
  va : Nat
  bit : Nat
  w : Nat
  deriving DecidableEq, Repr

namespace Slot

def bytes (x : Slot) : Nat := max 1 (x.w / 8)

end Slot

/-- The physical address of a virtual one under the tables of the context in hand (R195, R367). -/
def phys (s : State) (va : Nat) : Nat :=
  match s.walk s.pkg s.c.ptroot va with
  | .ok l => resolve (some s.here) l.pa
  | .error _ => 0

/-- What a slot holds when memory reads as f. -/
def slotGet (s : State) (f : Nat → Byte) (x : Slot) : Nat :=
  leNat ((List.range x.bytes).map fun j => f (phys s x.va + j)) / 2 ^ x.bit % 2 ^ x.w

/-- How memory reads after v is written to a slot. -/
def slotPut (s : State) (x : Slot) (v : Nat) (f : Nat → Byte) : Nat → Byte :=
  let pa := phys s x.va
  let old := leNat ((List.range x.bytes).map fun j => f (pa + j))
  let bs := leBytes x.bytes (if x.w < 8 then old - old / 2 ^ x.bit % 2 ^ x.w * 2 ^ x.bit + v * 2 ^ x.bit else v)
  fun a => if pa ≤ a ∧ a < pa + x.bytes then bs.getD (a - pa) 0 else f a

/-- t may differ from s in the bytes of W, in what goes with a write of memory, in descriptors and progress registers, in the lanes
held, and in the core. -/
def SameBut (s t : State) (W : Nat → Prop) : Prop :=
  t = { s with
    ctxs := t.ctxs, mem := t.mem, tags := t.tags, unencoded := t.unencoded, chans := t.chans, assay := t.assay, k := t.k
    c := { s.c with
      scnt := t.c.scnt, mxprog := t.c.mxprog, plsw := t.c.plsw, d := t.c.d, lanesHeld := t.c.lanesHeld, lanesBack := t.c.lanesBack } } ∧
  BytesOk t ∧ ∀ a, ¬ W a → byteAt t a = byteAt s a

/-- A slot is aligned, and its page grants what is needed and is marked used already, whatever the instruction writes to W: its
translation at most wakes pseudo-channels (R307). -/
def Mapped (s : State) (W : Nat → Prop) (n : Need) (x : Slot) : Prop :=
  x.va % x.bytes = 0 ∧ x.bit % x.w = 0 ∧ phys s x.va % x.bytes = 0 ∧
  ∀ t, SameBut s t W → ∃ l cs, t.translate t.view x.va n .plain = ({ t with chans := cs }, .ok l) ∧ l.pa = phys s x.va ∧ l.lay.raw = false ∧
    t.pinOk t.pkg t.c.session l.pa = true

/-- Nothing is held or watched, and no error stands in memory. -/
def Quiet (s : State) : Prop := InScu s ∧ s.c.det = false ∧ s.c.lines = [] ∧ s.c.watchctl = 0 ∧ s.bad = [] ∧ BytesOk s

/-- The product of a list of lengths. -/
def prodOf (sh : List Nat) : Nat := sh.foldr (· * ·) 1

/-- The slot of an element (R135). -/
def slotOf (d : Desc) (ix : List Nat) : Slot :=
  let off : Int := ((ix.zip (d.stride.toList.map BitVec.toInt)).map fun p => (p.1 : Int) * p.2).sum
  if d.fmt.width < 8 then
    let b := ((8 * d.base.toNat + off) % 2 ^ 75).toNat
    ⟨b / 8, b % 8, d.fmt.width⟩
  else ⟨((d.base.toNat + off) % 2 ^ 72).toNat, 0, d.fmt.width⟩

/-- The slot of scale b (R133, R135). -/
def scaleSlot (d : Desc) (b : Nat) : Slot := ⟨(d.base.toNat / 2 ^ 64 * 2 ^ 64 + d.sbase.toNat + b) % 2 ^ 72, 0, 8⟩

/-- The index of row-major position lin (R135). -/
def indexAt (sh : List Nat) (lin : Nat) : List Nat := (List.range sh.length).map fun i => lin / prodOf (sh.drop (i + 1)) % sh.getD i 1

/-- A length and a dense stride in a descriptor; one it cannot hold is open (log 13). -/
def held32 (n : Nat) : BitVec 32 := if n < 2 ^ 32 then BitVec.ofNat 32 n else Config.longAxis n
def held48 (n : Nat) : BitVec 48 := if n < 2 ^ 47 then BitVec.ofNat 48 n else Config.longStride n

/-- The destination register once its result has a shape (R141). -/
def becomes (d : Desc) (sh : List Nat) : Desc :=
  let v : Vector (BitVec 32) 8 := Vector.ofFn fun i : Fin 8 => held32 (sh.getD i.val 0)
  if d.rank.val = sh.length ∧ d.shape = v ∧ ∀ n ∈ sh, n < 2 ^ 32 then d
  else
    let unit := if d.fmt.width < 8 then d.fmt.width else d.fmt.width / 8
    { d with
      rank := Fin.ofNat 9 sh.length
      shape := v
      stride := Vector.ofFn fun i : Fin 8 => if i.val < sh.length then held48 (unit * prodOf (sh.drop (i.val + 1))) else 0 }

/-- What an array instruction does to each element of its result, of this shape: the slots it reads, then what it writes, by the
values the slots hold; what those values must meet; and whether the destination register takes the result's shape only once all of it
is written (R152). -/
structure ArrWork where
  shape : List Nat
  reads : (Slot → Nat) → Nat → List Slot
  writes : (Slot → Nat) → Nat → List (Slot × Nat)
  ok : (Slot → Nat) → Nat → Prop := fun _ _ => True
  late : Bool := false

namespace ArrWork

/-- How memory reads after the listed elements, in order (R142). -/
def after (w : ArrWork) (s : State) (f : Nat → Byte) (lins : List Nat) : Nat → Byte :=
  lins.foldl (fun f lin => (w.writes (slotGet s f) lin).foldl (fun g p => slotPut s p.1 p.2 g) f) f

/-- One strip from SCNT (R142, R144): at a strip boundary it begins with a grant point; its elements and no other byte change, the
destination register takes the result's shape, at once or with the last element, and the instruction is done with SCNT 0 or stands at
the strip's end, its progress timer as it was or started again. -/
def Does (w : ArrWork) (o : Out) (s : State) (dd : DReg) : Prop :=
  let d := becomes s.c.d[dd] w.shape
  let n := prodOf w.shape
  let k := s.c.scnt.toNat
  let strip := 4096 / d.fmt.width
  let e := min ((k / strip + 1) * strip) n
  let lins := (List.range (e - k)).map (k + ·)
  let W (a : Nat) : Prop := ∃ rd, ∃ lin ∈ lins, ∃ p ∈ w.writes rd lin, phys s p.1.va ≤ a ∧ a < phys s p.1.va + p.1.bytes
  Quiet s → s.c.vlive = true → s.c.pend = false → n ≤ d.cap.toNat →
  (∀ lin ∈ lins, let rd := slotGet s (w.after s (byteAt s) ((List.range (lin - k)).map (k + ·)))
    w.ok rd lin ∧ (∀ x ∈ w.reads rd lin, Mapped s W Need.read x) ∧ ∀ p ∈ w.writes rd lin, Mapped s W Need.write p.1) →
  let r := if k % strip = 0 ∧ k < n then regained s else s
  ∃ u, MemoryOnly { r with c := { r.c with d := if w.late ∧ e < n then r.c.d else r.c.d.set dd d } } u ∧ (∀ a, byteAt u a = w.after s (byteAt s) lins a) ∧
    ∃ used ept, used < 512 ∧ (ept = u.c.ept ∨ ept = 0) ∧
    o = .next (if e < n
      then { u with c := { u.c with
        scnt := BitVec.ofNat 64 e, wait := .going, queues := u.c.queues.push .aq u.c.pc, ept := ept, consumed := used } }
      else next { u with c := { u.c with scnt := 0, consumed := 0 } })

end ArrWork

/-- Step 1 of R140: DD names no source, and nothing is block-scaled. -/
def Plainly (s : State) (dd : DReg) (srcs : List DReg) : Prop := dd ∉ srcs ∧ ∀ r ∈ dd :: srcs, (s.c.d[r]).blk = .none

/-- Formats are equal, U included (R146). -/
def SameFmt (s : State) (x y : DReg) : Prop := (s.c.d[x]).fmt = (s.c.d[y]).fmt ∧ (s.c.d[x]).u = (s.c.d[y]).u

def isNum (f : Fmt) : Bool := f.isInt || f.isFp

/-- Step 2 of R140: the destination, with the result's shape, overlaps no source. -/
def Clear (s : State) (inPlace : Bool) (dd : DReg) (sh : List Nat) (srcs : List DReg) : Prop :=
  ∀ r ∈ srcs, overlaps inPlace (becomes s.c.d[dd] sh) s.c.d[r] = false

/-- Lengths agree on every axis both have (R138). -/
def Agrees (x y : List Nat) : Prop := ∀ i, i < x.length → i < y.length → x[i]? = y[i]?

def longest (x y : List Nat) : List Nat := if y.length ≤ x.length then x else y

/-- Frame and cell of a shape (R138). -/
def frameOf (sh : List Nat) (k : CellRank) : List Nat := sh.take (sh.length - (k.map (·.val)).getD sh.length)
def cellOf (sh : List Nat) (k : CellRank) : List Nat := sh.drop (sh.length - (k.map (·.val)).getD sh.length)

def numMods (u : Bool) : VMods := ⟨0, u, .rne, false⟩

/-- AELT with two arguments: accepted formats, whether the destination has the arguments' (else INT8), and the result (R146). -/
def dyadicRows : List ((ArrPairOp → Instr) × (Fmt → Bool) × Bool × (Fmt → Bool → Nat → Nat → Nat)) :=
  [(.arrAdd, isNum, true, fun f u => combined .add f (numMods u)),
   (.arrSub, isNum, true, fun f u a b =>
     if f.isFp then rounded f (numMods u) ((fval f a).add .rne (fval f b).neg) else pat f.width (num f.width u a - num f.width u b)),
   (.arrMul, isNum, true, fun f u => combined .mul f (numMods u)),
   (.arrDiv, isNum, true, fun f u a b =>
     if f.isFp then rounded f (numMods u) ((fval f a).div (fval f b))
     else if b = 0 then 2 ^ f.width - 1 else pat f.width ((num f.width u a).tdiv (num f.width u b))),
   (.arrMax, isNum, true, fun f u => combined .max f (numMods u)),
   (.arrMin, isNum, true, fun f u => combined .min f (numMods u)),
   (.arrEq, isNum, false, fun f u a b => if outcome f u a b = some .eq then 1 else 0),
   (.arrLt, isNum, false, fun f u a b => if outcome f u a b = some .lt then 1 else 0),
   (.arrAnd, Fmt.isInt, true, fun _ _ a b => a &&& b),
   (.arrOr, Fmt.isInt, true, fun _ _ a b => a ||| b)]

/-- The result of a two-argument operation, element by element (R138). -/
def pairWork (s : State) (o : ArrPairOp) (op : Fmt → Bool → Nat → Nat → Nat) : ArrWork :=
  let a := s.c.d[o.da]
  let b := s.c.d[o.db]
  let fr := longest (frameOf a.dims o.ka) (frameOf b.dims o.kb)
  let sh := fr ++ longest (cellOf a.dims o.ka) (cellOf b.dims o.kb)
  let at_ (d : Desc) (k : CellRank) (lin : Nat) : Slot :=
    slotOf d (((indexAt sh lin).take (frameOf d.dims k).length) ++
      (((indexAt sh lin).drop fr.length).take (cellOf d.dims k).length))
  { shape := sh
    reads := fun _ lin => [at_ a o.ka lin, at_ b o.kb lin]
    writes := fun rd lin => [(slotOf (becomes s.c.d[o.dd] sh) (indexAt sh lin),
      op a.fmt a.u (rd (at_ a o.ka lin)) (rd (at_ b o.kb lin)))] }

/-- AELT with one argument: accepted formats and the result (R146). -/
def monadicRows : List ((DReg → DReg → CellRank → Instr) × (Fmt → Bool) × (Fmt → Bool → Nat → Nat)) :=
  [(.arrNeg, isNum, fun f u a =>
     if f.isFp then if (fval f a).isNaN then canonicalNaN f else (a + 2 ^ (f.width - 1)) % 2 ^ f.width
     else pat f.width (-(num f.width u a))),
   (.arrAbs, isNum, fun f u a =>
     if f.isFp then if (fval f a).isNaN then canonicalNaN f else a % 2 ^ (f.width - 1) else pat f.width |num f.width u a|),
   (.arrExp, Fmt.isFp, fun f u a => rounded f (numMods u) (fval f a).exp),
   (.arrLog, Fmt.isFp, fun f u a => rounded f (numMods u) (fval f a).ln),
   (.arrCopy, fun f => f != .bp, fun _ _ a => a)]

/-- The work of an instruction whose element lin depends on the elements of one argument at the listed indices. -/
def fromOne (s : State) (dd da : DReg) (sh : List Nat) (ixs : Nat → List (List Nat)) (val : Nat → List Nat → Nat) : ArrWork where
  shape := sh
  reads := fun _ lin => (ixs lin).map (slotOf s.c.d[da])
  writes := fun rd lin =>
    [(slotOf (becomes s.c.d[dd] sh) (indexAt sh lin), val lin ((ixs lin).map fun ix => rd (slotOf s.c.d[da] ix)))]

/-- arr.cvt (R147): from_ is the element this step began with. A block is quantized at once, from its sources as they stand when the
step reaches it (log 46). -/
def cvtWork (s : State) (dd da : DReg) (from_ : Nat) : ArrWork :=
  let a := s.c.d[da]
  let sh := a.dims
  let d := becomes s.c.d[dd] sh
  let n := Blk.len d.blk
  let el (lin : Nat) : Slot := slotOf a (indexAt sh lin)
  let block (lin : Nat) : List Slot := (List.range (min n (prodOf sh - n * (lin / n)))).map fun j => el (n * (lin / n) + j)
  let starts (lin : Nat) : Bool := decide (lin % n = 0 ∨ lin = from_)
  let src (lin : Nat) : List Slot := if a.blk = .none then [] else [scaleSlot a (lin / Blk.len a.blk)]
  { shape := sh
    reads := fun _ lin => if d.blk ≠ .none ∧ a.blk = .none then if starts lin then block lin else [] else src lin ++ [el lin]
    writes := fun rd lin =>
      let out := slotOf d (indexAt sh lin)
      if d.blk = .none then
        let sc := if a.blk = .none then 0 else rd (scaleSlot a (lin / Blk.len a.blk))
        [(out,
          if a.blk ≠ .none then
            Machine.encode d.fmt d.u .rne false
              (if sc = 0xFF then .nan else (elemVal a.fmt a.u (rd (el lin))).scale ((sc : Int) - 127))
          else if (d.fmt.isInt ∨ d.fmt = .i4) ∧ (a.fmt.isInt ∨ a.fmt = .i4) then pat d.fmt.width (num a.fmt.width a.u (rd (el lin)))
          else Machine.encode d.fmt d.u .rne false (elemVal a.fmt a.u (rd (el lin))))]
      else if a.blk ≠ .none then
        (if starts lin then [(scaleSlot d (lin / n), rd (scaleSlot a (lin / n)))] else []) ++ [(out, rd (el lin))]
      else if starts lin then
        let vs := (block lin).map fun x => elemVal a.fmt a.u (rd x)
        let sc := quantScale d.fmt d.u vs
        (scaleSlot d (lin / n), sc) :: (List.range (vs.length - lin % n)).map fun j =>
          (slotOf d (indexAt sh (lin + j)), quantElem d.fmt (numMods d.u) sc (vs.getD (lin % n + j) .nan))
      else []
    ok := fun _ lin => d.blk ≠ .none → a.blk ≠ .none →
      ∀ j, j < (el lin).bytes → phys s (scaleSlot d (lin / n)).va ≠ phys s (el lin).va + j }

/-- The absolute axis AX names in a cell (R139). -/
def axisOf (sh : List Nat) (k : CellRank) (ax : Axis) : Option Nat :=
  let f := (frameOf sh k).length
  match ax with
  | some i => if f + i.val < sh.length then some (f + i.val) else none
  | none => if f < sh.length then some (sh.length - 1) else none

/-- A list with entry x replaced. -/
def withAt (ix : List Nat) (x v : Nat) : List Nat := ix.take x ++ v :: ix.drop (x + 1)

/-- TreeReduce over a list, every element present; a NaN is the canonical one (R62, R149; log 45). -/
def treeAll (op : Iop) (f : Fmt) (u : Bool) (xs : List Nat) : Nat :=
  canonical f ((treeOver (combined op f (numMods u)) (xs[·]?) (Nat.clog 2 xs.length) 0).getD
    (if op = .mul then if f.isFp then rounded f (numMods u) (.fin false 1 0) else 1 else redIdent op f u))

/-- a stands before b in ascending order, positions p and q breaking ties (R150). -/
def ranksBefore (f : Fmt) (u : Bool) (a p b q : Nat) : Bool :=
  if f.isFp then
    if (fval f a).isNaN then (fval f b).isNaN && decide (p < q)
    else (fval f b).isNaN || (fval f a).lt (fval f b) || (!(fval f b).lt (fval f a) && decide (p < q))
  else decide (num f.width u a < num f.width u b) || (decide (num f.width u a = num f.width u b) && decide (p < q))

/-- The position of the i-th smallest element (R150). -/
def rankAt (f : Fmt) (u : Bool) (xs : List Nat) (i : Nat) : Nat :=
  ((List.range xs.length).find? fun q =>
    ((List.range xs.length).filter fun p => ranksBefore f u (xs.getD p 0) p (xs.getD q 0) q).length == i).getD 0

/-- The integers a rank 1 descriptor holds. -/
def vectorOf (s : State) (r : DReg) : List Int :=
  let d := s.c.d[r]
  (List.range (d.dims.headD 0)).map fun i => num d.fmt.width d.u (slotGet s (byteAt s) (slotOf d [i]))

/-- A rank 1 argument of integers that the instruction reads first is mapped, apart from what it writes. -/
def VectorRead (s : State) (r : DReg) : Prop :=
  (s.c.d[r]).rank.val = 1 ∧ ∀ i, i < (s.c.d[r]).dims.headD 0 → Mapped s (fun _ => False) Need.read (slotOf s.c.d[r] [i])

def acountOf (s : State) : ACount → Int
  | .sca r => (xOf s r).toInt
  | .imm v => v.toInt

/-- The operation of arr.outer on patterns (R148). -/
def outerOf (op : Iop) (f : Fmt) (u : Bool) (a b : Nat) : Nat :=
  match op with
  | .eq => if outcome f u a b = some .eq then 1 else 0
  | .lt => if outcome f u a b = some .lt then 1 else 0
  | _ => combined op f (numMods u) a b

/-- Formats an operation combines (R148). -/
def foldable (op : Iop) (f : Fmt) : Bool := if op = .and ∨ op = .or ∨ op = .xor then f.isInt else isNum f

/-- Byte i of a 128-byte image at VAH : a. -/
def imageVa (s : State) (a : Word) (i : Nat) : Nat := s.c.vah.toNat * 2 ^ 64 + (a + BitVec.ofNat 64 i).toNat

/-- e is d with a field set to v (R137). -/
def IsSet (d : Desc) (f : DField) (ax : Axis) (vah : BitVec 8) (v : Word) (e : Desc) : Prop :=
  let axis : Option Nat := match ax with
    | some i => if i.val < d.rank.val then some i.val else none
    | none => if 0 < d.rank.val then some (d.rank.val - 1) else none
  match f with
  | .base => e = { d with base := vah ++ v }
  | .fmt => v.toNat = e.fmt.code.toNat + 16 * e.u.toNat ∧ e = { d with fmt := e.fmt, u := e.u }
  | .rank => v.toNat = e.rank.val ∧ e = { d with rank := e.rank, shape := e.shape, stride := e.stride } ∧
    ∀ i : Fin 8, e.shape[i] = (if i.val < e.rank.val then d.shape[i] else 0) ∧
      e.stride[i] = if i.val < e.rank.val then d.stride[i] else 0
  | .shape => v.toNat < 2 ^ 32 ∧ ∃ i : Fin 8, axis = some i.val ∧ e = { d with shape := d.shape.set i (BitVec.ofNat 32 v.toNat) }
  | .stride => -2 ^ 47 ≤ v.toInt ∧ v.toInt < 2 ^ 47 ∧
    ∃ i : Fin 8, axis = some i.val ∧ e = { d with stride := d.stride.set i (BitVec.ofInt 48 v.toInt) }
  | .pstride => e = { d with pstride := v }
  | .sbase => e = { d with sbase := v }
  | .block => e = { d with blk := e.blk } ∧ v.toNat = Blk.len e.blk
  | .cap => e = { d with cap := v }

end Sys2Proof.Machine

/-- R133 to R137 (dld, dst, dset, dget): a valid image is loaded and is the image stored; fields set and read; a dset that names no
axis raises RANK, whatever its value (log 46), and one whose value or result is not valid FORMAT, with no progress point. -/
def Obligations.Descriptors : Prop :=
  (∀ d : Desc, d.valid = true → d.image.length = 128 ∧ Desc.ofImage d.image = some d) ∧
  ∀ (s : State) (r : DReg) (x : XReg),
    (∀ d, Quiet s → (xOf s x).toNat % 64 = 0 →
      (∀ i, i < 128 → Mapped s (fun _ => False) Need.read ⟨imageVa s (xOf s x) i, 0, 8⟩) →
      Desc.ofImage ((List.range 128).map fun i => byteAt s (phys s (imageVa s (xOf s x) i))) = some d →
      ∃ cs, exec (.dld r x) s = .next (next { s with chans := cs, c := { s.c with d := s.c.d.set r d } })) ∧
    (let W (a : Nat) : Prop := ∃ i, i < 128 ∧ a = phys s (imageVa s (xOf s x) i)
     Quiet s → (xOf s x).toNat % 64 = 0 → (∀ i, i < 128 → Mapped s W Need.write ⟨imageVa s (xOf s x) i, 0, 8⟩) →
      ∃ u, MemoryOnly s u ∧ exec (.dst r x) s = .next (next u) ∧ ∀ a, byteAt u a =
        (List.range 128).foldl (fun f i => slotPut s ⟨imageVa s (xOf s x) i, 0, 8⟩ ((s.c.d[r]).image.getD i 0).toNat f)
          (byteAt s) a) ∧
    ∀ (f : DField) (ax : Axis), InScu s →
      (∀ e, (Instr.dset r x f ax).wf = true → IsSet s.c.d[r] f ax s.c.vah (xOf s x) e → e.valid = true →
        exec (.dset r x f ax) s = .next (next { s with c := { s.c with d := s.c.d.set r e } })) ∧
      (f = .shape ∨ f = .stride → (s.c.d[r]).axis ax = none → exec (.dset r x f ax) s = .next (s.raise
        { cause := .rank, unit := .aq, detail := BitVec.ofNat 56 (r.val * 2 ^ 52 + 2 ^ 48),
          addr := BitVec.ofNat 64 ((ax.map (·.val)).getD 15) })) ∧
      ((f = .shape ∨ f = .stride → (s.c.d[r]).axis ax ≠ none) → (∀ e, IsSet s.c.d[r] f ax s.c.vah (xOf s x) e → e.valid = false) →
        exec (.dset r x f ax) s = .next (s.raise
          { cause := .format, unit := .aq, detail := BitVec.ofNat 56 (r.val * 2 ^ 52) })) ∧
      Gives (exec (.dget x r f ax) s) s x (match f with
        | .base => (s.c.d[r]).base.extractLsb' 0 64
        | .fmt => BitVec.ofNat 64 ((s.c.d[r]).fmt.code.toNat + 16 * (s.c.d[r]).u.toNat)
        | .rank => BitVec.ofNat 64 (s.c.d[r]).rank.val
        | .shape => (((s.c.d[r]).axis ax).map fun i => BitVec.ofNat 64 (s.c.d[r]).shape[i].toNat).getD 0
        | .stride => (((s.c.d[r]).axis ax).map fun i => word (s.c.d[r]).stride[i].toInt).getD 0
        | .pstride => (s.c.d[r]).pstride
        | .sbase => (s.c.d[r]).sbase
        | .block => BitVec.ofNat 64 (Blk.len (s.c.d[r]).blk)
        | .cap => (s.c.d[r]).cap)

/-- R138, R140 to R147 (arr.add, sub, mul, div, max, min, eq, lt, and, or, neg, abs, exp, log, copy, cvt).
Model's choices it rests on: logs 13 (DESIGN CHOICE: the descriptor the destination becomes), 46 (DESIGN CHOICE: a step of arr.cvt that
begins inside a block quantizes the rest of it anew); these two clauses are the model's choice and no rule's. -/
def Obligations.ArrayElementwise : Prop :=
  (∀ p ∈ dyadicRows, ∀ (s : State) (o : ArrPairOp), let a := s.c.d[o.da]
    let b := s.c.d[o.db]
    Plainly s o.dd [o.da, o.db] → p.2.1 a.fmt = true → SameFmt s o.db o.da →
    (if p.2.2.1 then SameFmt s o.dd o.da else (s.c.d[o.dd]).fmt = .i8) →
    Agrees (frameOf a.dims o.ka) (frameOf b.dims o.kb) → Agrees (cellOf a.dims o.ka) (cellOf b.dims o.kb) →
    (pairWork s o p.2.2.2).shape.length ≤ 8 → Clear s true o.dd (pairWork s o p.2.2.2).shape [o.da, o.db] →
    (pairWork s o p.2.2.2).Does (exec (p.1 o) s) s o.dd) ∧
  (∀ p ∈ monadicRows, ∀ (s : State) (dd da : DReg) (k : CellRank), let a := s.c.d[da]
    Plainly s dd [da] → p.2.1 a.fmt = true → SameFmt s dd da → Clear s true dd a.dims [da] →
    (fromOne s dd da a.dims (fun lin => [indexAt a.dims lin]) fun _ xs => p.2.2 a.fmt a.u (xs.headD 0)).Does
      (exec (p.1 dd da k) s) s dd) ∧
  ∀ (s : State) (dd da : DReg) (k : CellRank), let a := s.c.d[da]
    let d := s.c.d[dd]
    dd ≠ da → a.fmt ≠ .bp → a.fmt ≠ .e8 → d.fmt ≠ .bp → d.fmt ≠ .e8 →
    (a.blk ≠ .none → d.blk ≠ .none → a.fmt = d.fmt ∧ a.blk = d.blk) → Clear s true dd a.dims [da] →
    (cvtWork s dd da s.c.scnt.toNat).Does (exec (.arrCvt dd da k) s) s dd

/-- R148 to R152 (arr.red, scan, grade, rot, take, drop, shape, tpose, outer, from, comp, cat, iota).
Model's choices it rests on: logs 13 (DESIGN CHOICE), 14 (DEDUCED), 45 (DEDUCED). -/
def Obligations.ArrayStructure : Prop :=
  (∀ (s : State) (o : ArrRedOp) (x : Nat), let a := s.c.d[o.da]
    Plainly s o.dd [o.da] → foldable o.op a.fmt = true → SameFmt s o.dd o.da → axisOf a.dims o.k o.ax = some x →
    (let sh := a.dims.take x ++ a.dims.drop (x + 1)
     Clear s false o.dd sh [o.da] →
      (fromOne s o.dd o.da sh (fun lin => let ix := indexAt sh lin
        (List.range (a.dims.getD x 0)).map fun i => ix.take x ++ i :: ix.drop x) fun _ xs => treeAll o.op a.fmt a.u xs).Does
        (exec (.arrRed o) s) s o.dd) ∧
    (Clear s false o.dd a.dims [o.da] →
      (fromOne s o.dd o.da a.dims (fun lin => let ix := indexAt a.dims lin
        (List.range (ix.getD x 0 + 1)).map (withAt ix x)) fun _ xs =>
          (xs.drop 1).foldl (combined o.op a.fmt (numMods a.u)) (canonical a.fmt (xs.headD 0))).Does (exec (.arrScan o) s) s
        o.dd)) ∧
  (∀ (s : State) (dd da : DReg) (k : CellRank) (ax : Axis) (x : Nat), let a := s.c.d[da]
    Plainly s dd [da] → isNum a.fmt = true → (s.c.d[dd]).fmt = .i32 ∨ (s.c.d[dd]).fmt = .i64 → axisOf a.dims k ax = some x →
    Clear s false dd a.dims [da] →
    (fromOne s dd da a.dims (fun lin => (List.range (a.dims.getD x 0)).map (withAt (indexAt a.dims lin) x)) fun lin xs =>
      rankAt a.fmt a.u xs ((indexAt a.dims lin).getD x 0)).Does (exec (.arrGrade dd da k ax) s) s dd) ∧
  (∀ (s : State) (o : ArrCountOp) (x : Nat), let a := s.c.d[o.da]
    let n := acountOf s o.n
    let l := a.dims.getD x 0
    let moved (len : Nat) (src : Nat → Option Nat) : ArrWork :=
      let sh := withAt a.dims x len
      fromOne s o.dd o.da sh (fun lin => let ix := indexAt sh lin
        ((src (ix.getD x 0)).map (withAt ix x)).toList) fun _ xs => xs.headD 0
    Plainly s o.dd [o.da] → a.fmt ≠ .bp → SameFmt s o.dd o.da → axisOf a.dims o.k o.ax = some x →
    (Clear s false o.dd a.dims [o.da] → (moved l fun i => some ((i + n) % l).toNat).Does (exec (.arrRot o) s) s o.dd) ∧
    (n.natAbs < 2 ^ 32 → Clear s false o.dd (withAt a.dims x n.natAbs) [o.da] →
      (moved n.natAbs fun i =>
        if 0 ≤ n then if i < l then some i else none else if n.natAbs ≤ l + i then some (l + i - n.natAbs) else none).Does
        (exec (.arrTake o) s) s o.dd) ∧
    (Clear s false o.dd (withAt a.dims x (l - n.natAbs)) [o.da] →
      (moved (l - n.natAbs) fun i => some (if 0 ≤ n then n.natAbs + i else i)).Does (exec (.arrDrop o) s) s o.dd)) ∧
  (∀ (s : State) (dd da db : DReg), let a := s.c.d[da]
    let b := s.c.d[db]
    let xs := vectorOf s db
    let sh := xs.map Int.toNat
    Plainly s dd [da, db] → a.fmt ≠ .bp → SameFmt s dd da → (b.fmt = .i32 ∨ b.fmt = .i64) → VectorRead s db →
    ((∀ x ∈ xs, 0 ≤ x ∧ x < 2 ^ 32) → xs.length ≤ 8 → Clear s false dd sh [da, db] →
      (fromOne s dd da sh (fun lin => if prodOf a.dims = 0 then [] else [indexAt a.dims (lin % prodOf a.dims)]) fun _ ys =>
        ys.headD 0).Does (exec (.arrShape dd da db) s) s dd) ∧
    (let r := a.rank.val
     let tsh := sh.map fun q => a.dims.getD q 0
     xs.length = r → (∀ x ∈ xs, 0 ≤ x ∧ x < r) → xs.Nodup → Clear s false dd tsh [da, db] →
      (fromOne s dd da tsh (fun lin => [(List.range r).map fun q => (indexAt tsh lin).getD (sh.idxOf q) 0]) fun _ ys =>
        ys.headD 0).Does (exec (.arrTpose dd da db) s) s dd)) ∧
  (∀ (s : State) (o : ArrPairOp) (op : Iop), let a := s.c.d[o.da]
    let b := s.c.d[o.db]
    let ca := cellOf a.dims o.ka
    let cb := cellOf b.dims o.kb
    let na := (frameOf a.dims o.ka).length
    let nb := (frameOf b.dims o.kb).length
    let sh := frameOf a.dims o.ka ++ frameOf b.dims o.kb ++ longest ca cb
    let x (lin : Nat) : Slot := slotOf a ((indexAt sh lin).take na ++ ((indexAt sh lin).drop (na + nb)).take ca.length)
    let y (lin : Nat) : Slot := slotOf b (((indexAt sh lin).drop na).take nb ++ ((indexAt sh lin).drop (na + nb)).take cb.length)
    Plainly s o.dd [o.da, o.db] → foldable op a.fmt = true → SameFmt s o.db o.da →
    (if op = .eq ∨ op = .lt then (s.c.d[o.dd]).fmt = .i8 else SameFmt s o.dd o.da) → sh.length ≤ 8 → Agrees ca cb →
    Clear s false o.dd sh [o.da, o.db] →
    ArrWork.Does ⟨sh, fun _ lin => [x lin, y lin],
      fun rd lin => [(slotOf (becomes s.c.d[o.dd] sh) (indexAt sh lin), outerOf op a.fmt a.u (rd (x lin)) (rd (y lin)))],
      fun _ _ => True, false⟩ (exec (.arrOuter o op) s) s o.dd) ∧
  (∀ (s : State) (o : ArrPairOp), let a := s.c.d[o.da]
    let b := s.c.d[o.db]
    let fa := frameOf a.dims o.ka
    let fb := frameOf b.dims o.kb
    let ca := cellOf a.dims o.ka
    let cb := cellOf b.dims o.kb
    let fr := longest fa fb
    let sh := fr ++ ca ++ cb.drop 1
    let x (lin : Nat) : Slot := slotOf a ((indexAt sh lin).take fa.length ++ ((indexAt sh lin).drop fr.length).take ca.length)
    let pick (rd : Slot → Nat) (lin : Nat) : Int := num a.fmt.width a.u (rd (x lin))
    let y (rd : Slot → Nat) (lin : Nat) : Slot :=
      slotOf b ((indexAt sh lin).take fb.length ++ (pick rd lin).toNat :: (indexAt sh lin).drop (fr.length + ca.length))
    Plainly s o.dd [o.da, o.db] → a.fmt.isInt = true → b.fmt ≠ .bp → SameFmt s o.dd o.db → cb ≠ [] → sh.length ≤ 8 →
    Agrees fa fb → Clear s false o.dd sh [o.da, o.db] →
    ArrWork.Does ⟨sh, fun rd lin => [x lin, y rd lin],
      fun rd lin => [(slotOf (becomes s.c.d[o.dd] sh) (indexAt sh lin), rd (y rd lin))],
      fun rd lin => 0 ≤ pick rd lin ∧ pick rd lin < cb.headD 0, false⟩ (exec (.arrFrom o) s) s o.dd) ∧
  (∀ (s : State) (o : ArrPairOp) (ax : Axis) (x : Nat), let a := s.c.d[o.da]
    let b := s.c.d[o.db]
    let kept := (List.range (a.dims.headD 0)).filter fun i => (vectorOf s o.da).getD i 0 != 0
    let sh := withAt b.dims x kept.length
    Plainly s o.dd [o.da, o.db] → a.fmt.isInt = true → b.fmt ≠ .bp → SameFmt s o.dd o.db → VectorRead s o.da → o.ka ≠ some 0 →
    axisOf b.dims o.kb ax = some x → a.dims.headD 0 = b.dims.getD x 0 → Clear s false o.dd sh [o.da, o.db] →
    ArrWork.Does { fromOne s o.dd o.db sh (fun lin => [withAt (indexAt sh lin) x (kept.getD ((indexAt sh lin).getD x 0) 0)])
      (fun _ ys => ys.headD 0) with late := true } (exec (.arrComp o ax) s) s o.dd) ∧
  (∀ (s : State) (o : ArrPairOp) (ax : Axis) (x : Nat), let a := s.c.d[o.da]
    let b := s.c.d[o.db]
    let fa := frameOf a.dims o.ka
    let fb := frameOf b.dims o.kb
    let ca := cellOf a.dims o.ka
    let cb := cellOf b.dims o.kb
    let fr := longest fa fb
    let la := ca.getD x 0
    let sh := fr ++ withAt ca x (la + cb.getD x 0)
    let from_ (lin : Nat) : Slot :=
      let ix := indexAt sh lin
      let c := ix.drop fr.length
      if c.getD x 0 < la then slotOf a (ix.take fa.length ++ c) else slotOf b (ix.take fb.length ++ withAt c x (c.getD x 0 - la))
    Plainly s o.dd [o.da, o.db] → a.fmt ≠ .bp → SameFmt s o.db o.da → SameFmt s o.dd o.da → ca.length = cb.length →
    axisOf a.dims o.ka ax = some (fa.length + x) → sh.length ≤ 8 → Agrees fa fb → Agrees (withAt ca x 0) (withAt cb x 0) →
    Clear s false o.dd sh [o.da, o.db] →
    ArrWork.Does ⟨sh, fun _ lin => [from_ lin],
      fun rd lin => [(slotOf (becomes s.c.d[o.dd] sh) (indexAt sh lin), rd (from_ lin))], fun _ _ => True, false⟩
      (exec (.arrCat o ax) s) s o.dd) ∧
  ∀ (s : State) (dd : DReg) (n : ACount), let z := acountOf s n
    (s.c.d[dd]).blk = .none → (s.c.d[dd]).fmt.isInt = true → 0 ≤ z →
    ArrWork.Does ⟨[z.toNat], fun _ _ => [],
      fun _ lin => [(slotOf (becomes s.c.d[dd] [z.toNat]) [lin], lin % 2 ^ (s.c.d[dd]).fmt.width)], fun _ _ => True, false⟩
      (exec (.arrIota dd n) s) s dd

namespace Sys2Proof.Machine

/-! The matrix unit (R154 to R172) and plans (R175 to R186). -/

/-- The matrix check passes: handler mode, or enabled and resident (R156). -/
def MxOwn (s : State) : Prop := s.c.hnd = true ∨ (s.c.mxen = true ∧ s.k.owner = some (Fin.ofNat 4 s.here))

/-- Element (i, j) of a tile. -/
def tileEl (ts : Vector (Vector (BitVec 2048) 64) 8) (t : TReg) (i : Fin 64) (j : Nat) : Nat :=
  ((ts[t])[i]).toNat / 2 ^ (32 * j) % 2 ^ 32

/-- The binding after an instruction that acts on tiles t to t + r (R171). -/
def unbound (p : Plan) (t : TReg) (rpt : Fin 8) : Plan :=
  { p with bnd := p.bnd && !decide (t.val ≤ p.pt.val ∧ p.pt.val ≤ t.val + rpt.val) }

/-- The units an instruction of n units carries out now: the next one; a handler all of them (R158, R167). -/
def unitsOf (s : State) (n : Nat) : List Nat :=
  if s.c.hnd then List.range n else if s.c.mxprog.toNat < n then [s.c.mxprog.toNat] else []

/-- t once those units are committed: done, or between two units (R167). -/
def unitsEnd (s : State) (n : Nat) (t : State) : State :=
  if s.c.hnd then next t
  else if s.c.mxprog.toNat + 1 < n then
    { t with c := { t.c with mxprog := s.c.mxprog + 1, ept := 0, wait := .going, queues := t.c.queues.push .mq t.c.pc } }
  else next { t with c := { t.c with mxprog := 0 } }

/-- Column j of row i is enabled, within m rows and n columns; R tiles are repeated (R159). -/
def Enabled (s : State) (m n r i q j : Nat) : Bool :=
  decide (i < m) && s.c.mxrowp.getLsbD i && decide (j < 64) && decide (64 * q + j < n) && s.c.mxcolp.getLsbD j && decide (q < r)

/-- Lengths of the matrix axes of an operand (R160, R161). -/
def rowsOf (d : Desc) : Nat := (d.shape[(if d.fmt = .bp then 1 else 0 : Fin 8)]).toNat
def colsOf (d : Desc) : Nat := (d.shape[(if d.fmt = .bp then 2 else 1 : Fin 8)]).toNat

/-- What R160 to R163 ask of an operand of mxa. -/
def Operand (d : Desc) : Prop :=
  (d.blk = .none ∨ d.blk = .b32) ∧
  if d.fmt = .bp then d.rank.val = 3 ∧ 2 ≤ (d.shape[(0 : Fin 8)]).toNat ∧ (d.shape[(0 : Fin 8)]).toNat ≤ 8 ∧ d.stride[(0 : Fin 8)] = 0
  else d.rank.val = 2

/-- The pairs of formats of R163. -/
def Paired (a b : Fmt) : Prop :=
  (a = b ∧ (a = .bf16 ∨ a = .fp16 ∨ a = .i8 ∨ a = .fp4)) ∨ (a = .bp ∧ b = .i8) ∨ (a = .i8 ∧ b = .bp) ∨
  ((a = .fp8a ∨ a = .fp8b) ∧ (b = .fp8a ∨ b = .fp8b))

/-- The slot of the bit of plane j of element (a, b) (R161). -/
def planeSlot (d : Desc) (j a b : Nat) : Slot :=
  let bits := ((8 * (d.base.toNat + j * d.pstride.toInt) + a * (d.stride[(1 : Fin 8)]).toInt + b * (d.stride[(2 : Fin 8)]).toInt) %
    2 ^ 75).toNat
  ⟨bits / 8, bits % 8, 1⟩

def operandSlots (d : Desc) (a b : Nat) : List Slot :=
  if d.fmt = .bp then (List.range (d.shape[(0 : Fin 8)]).toNat).map fun j => planeSlot d j a b else [slotOf d [a, b]]

/-- The value of element (a, b): of a bitplane operand of p planes, the integer whose bit 7 - j is plane j's, with 2^(7 - p) added below
eight planes (R67). -/
def operandValue (d : Desc) (rd : Slot → Nat) (a b : Nat) : FVal :=
  let xs := (operandSlots d a b).map rd
  if d.fmt = .bp then FVal.ofInt (num 8 d.u (((List.range xs.length).map fun j => xs.getD j 0 * 2 ^ (7 - j)).sum) +
    if xs.length < 8 then 2 ^ (7 - xs.length) else 0)
  else elemVal d.fmt d.u (xs.headD 0)

/-- Prod of R164: element (i, k) of A and (k, n) of B, each with its block's scale, a scale of 0xFF giving NaN. -/
def prodAt (a b : Desc) (rd : Slot → Nat) (i k n : Nat) : FVal :=
  let len := colsOf a
  let scale (d : Desc) (blk : Nat) (v : FVal) : FVal :=
    if d.blk = .none then v
    else if rd (scaleSlot d blk) = 0xFF then .nan else v.scale ((rd (scaleSlot d blk) : Int) - 127)
  scale b ((n * len + k) / 32) (scale a ((i * len + k) / 32) ((operandValue a rd i k).mul (operandValue b rd k n)))

/-- The accumulator after the K-blocks from block b on (R164, R165). -/
def blocksFrom (prods : Nat → FVal) (len : Nat) : Nat → Nat → Nat → Nat
  | 0, _, acc => acc
  | n + 1, b, acc =>
    blocksFrom prods len n (b + 1) (windowSum acc ((List.range (min 32 (len - 32 * b))).map fun k => prods (32 * b + k)))

/-- An instruction on R tiles from td: in each unit it carries out, the enabled elements become val of row, column and old element;
nothing else changes. -/
def Accumulates (o : Out) (s : State) (td : TReg) (rpt : Fin 8) (m n : Nat) (val : Fin 64 → Nat → Nat → Nat) : Prop :=
  let r := rpt.val + 1
  ∃ cs ts, o = .next (unitsEnd s (64 * r)
      { s with chans := cs, k := { s.k with tiles := ts, plan := unbound s.k.plan td rpt } }) ∧
    ∀ (t : TReg) (i : Fin 64) (j : Nat), j < 64 → tileEl ts t i j =
      let q := t.val - td.val
      if td.val ≤ t.val ∧ Enabled s m n r i.val q j = true ∧ i.val * r + q ∈ unitsOf s (64 * r)
      then val i (64 * q + j) (tileEl s.k.tiles t i j) else tileEl s.k.tiles t i j

/-- Every enabled element of the units carried out, as (row, column). -/
def enabledOf (s : State) (m n r : Nat) : List (Nat × Nat) :=
  (unitsOf s (64 * r)).flatMap fun u =>
    ((List.range 64).filter fun j => Enabled s m n r (u / r) (u % r) j).map fun j => (u / r, 64 * (u % r) + j)

/-- An FP32 pattern as a descriptor's format holds it: BF16 to nearest even (R86, R169). -/
def asBf (f : Fmt) (v : Nat) : Nat := if f = .bf16 then Machine.encode .bf16 false .rne false (fval .fp32 v) else v

/-- An FP32 entry of a plan as a descriptor's format holds it: BF16 to nearest even, an overflow to the largest finite value (R177,
R183). -/
def asPlan (f : Fmt) (v : Nat) : Nat := if f = .bf16 then Machine.encode .bf16 false .rne true (fval .fp32 v) else v

/-- A quotient truncated toward zero. -/
def toZero (q : Rat) : Int := if q < 0 then ⌈q⌉ else ⌊q⌋

/-- r is WindowSum of an accumulator and up to 32 exact values (R165): NaNs and infinities; the accumulator where every term is zero;
else the terms truncated to multiples of 2^(E - 95) and summed. The sum is rounded to nearest even; where something was cut off and
the sum is not itself an FP32 value, any amount below one unit is added first, away from zero. -/
def Window (acc : Nat) (terms : List FVal) (r : Nat) : Prop :=
  let all := fval .fp32 acc :: terms
  let Nan : Prop := .nan ∈ all ∨ (.inf true ∈ all ∧ .inf false ∈ all)
  let Zero : Prop := ∀ t ∈ terms, t.isZero = true
  (Nan → r = canonicalNaN .fp32) ∧
  (¬ Nan → .inf true ∈ all → r = 0xFF800000) ∧
  (¬ Nan → .inf false ∈ all → r = 0x7F800000) ∧
  ((∀ t ∈ all, ∃ neg m e, t = .fin neg m e) → (Zero → r = acc) ∧
    (¬ Zero → ∀ top : Int, (∃ t ∈ all, ratOf t ≠ 0 ∧ Int.log 2 |ratOf t| = top) →
      (∀ t ∈ all, ratOf t ≠ 0 → Int.log 2 |ratOf t| ≤ top) →
      let unit : Rat := 2 ^ (top - 95)
      let sum : Int := (all.map fun t => toZero (ratOf t / unit)).sum
      let Cut : Prop := ∃ t ∈ all, (toZero (ratOf t / unit) : Rat) * unit ≠ ratOf t
      let Exact : Prop := ∃ p, FinitePat .fp32 p ∧ ratOf (fval .fp32 p) = sum * unit
      let near (k m : Nat) : Nat :=
        Machine.encode .fp32 false .rne false (.fin (decide (sum < 0)) (sum.natAbs * 2 ^ k + m) (top - 95 - k))
      (sum = 0 → r = 0) ∧ (sum ≠ 0 → Exact ∨ ¬ Cut → r = near 0 0) ∧
      (sum ≠ 0 → ¬ Exact → Cut → ∀ k m, 0 < m → m < 2 ^ k → r = near k m)))

/-- MXOFF as a task gets it: 0 for a matrix state it has not enabled, 1 for one it does not own, with where the owner's save record
lies (R156, R173, R241). -/
def mxoffOf (s : State) (pt : Point) : Trap :=
  let own : Nat := match s.k.owner with
    | some j => ((s.taskOf (4 * coreOf s.here + j.val)).map fun t => t.saveVa % 2 ^ 72).getD 0
    | none => 0
  { cause := .mxoff, unit := .mq, point := pt
    detail := BitVec.ofNat 56 (s.c.mxen.toNat * 2 ^ 52 + (s.k.owner.getD 0).val * 2 ^ 50 + s.k.owner.isSome.toNat * 2 ^ 49)
    record := if s.c.mxen then leBytes 16 own else [] }

/-- The instructions of MX and PL that need the matrix state, with the progress point of each (R156, R226). -/
def matrixPoint : Instr → Option Point
  | .mxz _ _ | .mxpred _ _ | .mxrd _ _ _ _ | .mxwr _ _ _ _ | .plmarg _ _ | .plout (.tile _) _ | .plcost _ _ | .plscl _ _ => some .none
  | .mxa _ | .mxld _ _ _ | .mxst _ _ _ _ | .plset _ _ | .plout (.mem _) _ => some .mxprog
  | .bal _ => some .plsw
  | _ => none

/-- A line of a tile: element n of row or column ix. -/
def lineEl (s : State) (t : TReg) (ix : Fin 64) (col : Bool) (n : Fin 64) : Nat :=
  if col then tileEl s.k.tiles t n ix.val else tileEl s.k.tiles t ix n.val

/-- The index of mxrd and mxwr (R170). -/
def indexOf (s : State) : TileIdx → Nat
  | .imm v => v.val
  | .reg r => (xOf s r).toNat

/-! Plans. -/

/-- P at (i, j) (R183). -/
def planAt (s : State) (i j : Fin 64) : Nat :=
  planExp (planAdd (planAdd (s.k.plan.lrs[i]).toNat (tileEl s.k.tiles s.k.plan.pt i j.val)) (s.k.plan.lcs[j]).toNat)

def planNat (s : State) (i j : Nat) : Nat := planAt s (Fin.ofNat 64 i) (Fin.ofNat 64 j)

/-- The tile is bound as the plan tile, with extents that a plan has (R175). -/
def Bound (s : State) (t : TReg) : Prop :=
  s.k.plan.bnd = true ∧ s.k.plan.pt = t ∧ s.k.plan.m.toNat ≤ 64 ∧ s.k.plan.n.toNat ≤ 64

/-- A vector of 64 entries, zero past the list. -/
def vec64Of (xs : List Nat) : Vector (BitVec 32) 64 := Vector.ofFn fun i : Fin 64 => BitVec.ofNat 32 (xs.getD i.val 0)

/-- A log-kernel value from a cost (R178). -/
def kernelOf (c : FVal) (eps : Nat) : Nat := if c = .inf false then negInf else rnd32 (c.neg.div (fval .fp32 eps))

/-- Where a sweep of bal stands: the scales, PLST and PLSW. -/
structure Sweep where
  lrs : List Nat
  lcs : List Nat
  st : BitVec 32
  sw : BitVec 16

/-- Kernel entry (i, j) of the bound tile. -/
def kernelAt (s : State) (i j : Nat) : Nat := tileEl s.k.tiles s.k.plan.pt (Fin.ofNat 64 i) j

def firstN (n : BitVec 32) (v : Vector (BitVec 32) 64) : List Nat := (v.toList.map BitVec.toNat).take n.toNat

/-- Flag and index of the lowest empty line, unless set already (R176, R180). -/
def flagged (flag lo : Nat) (e : Option Nat) (st : BitVec 32) : BitVec 32 :=
  match e with
  | some i => if st.getLsbD flag then st else st ||| BitVec.ofNat 32 (2 ^ flag + i * 2 ^ lo)
  | none => st

/-- A mass above zero (R180). -/
def positive (mass : Nat) : Bool := (fval .fp32 0).lt (fval .fp32 mass)

/-- An FP32 pattern is a real number rounded to nearest, past the largest finite value to it (R177). -/
def Nearest (x : ℝ) (p : Nat) : Prop := FinitePat .fp32 p ∧ RoundsTo .fp32 .rne x p

/-- The operations of R177 on finite values and minus infinity: sums, products and quotients rounded; the cases of an exponential, a
logarithm, LSE and Update that give an exact value; an infinite factor gives an infinity. -/
def PlanArith : Prop :=
  let v (p : Nat) : ℝ := (ratOf (fval .fp32 p) : ℝ)
  planExp negInf = 0 ∧ planExp 0 = 0x3F800000 ∧ planLn 0 = negInf ∧ planLn 0x80000000 = negInf ∧ planLn 0x3F800000 = 0 ∧
  planAdd negInf negInf = negInf ∧
  (∀ n, lse (List.replicate n negInf) = negInf) ∧
  (∀ b, FinitePat .fp32 b → 0 < v b → planMul negInf b = negInf) ∧
  (∀ a b, FinitePat .fp32 a → FinitePat .fp32 b →
    planAdd a negInf = negInf ∧ planAdd negInf b = negInf ∧ Nearest (v a + v b) (planAdd a b) ∧
    (v a + v b = 0 → planAdd a b = if a = 0x80000000 ∧ b = 0x80000000 then 0x80000000 else 0) ∧
    Nearest (v a - v b) (planSub a b) ∧ Nearest (v a * v b) (planMul a b) ∧ (v b ≠ 0 → Nearest (v a / v b) (planDiv a b))) ∧
  (∀ a, FinitePat .fp32 a → (v a < -126 * Real.log 2 → planExp a = 0) ∧ update a negInf = negInf ∧
    (v a = 0 → ∀ l, update a l = negInf))

/-- L of R180: the log sums of the rows against the column scales. -/
def rowLogs (s : State) (lcs : List Nat) : List Nat :=
  (List.range s.k.plan.m.toNat).map fun i => lse ((List.range s.k.plan.n.toNat).map fun j => planAdd (kernelAt s i j) (lcs.getD j 0))

/-- The error of R180: the largest relative row error over rows that are not empty. -/
def errorOf (s : State) (b : Sweep) (total : Nat) : Nat :=
  let ls := rowLogs s b.lcs
  let mrow := firstN s.k.plan.m s.k.plan.mrow
  (List.range s.k.plan.m.toNat).foldl (fun e i =>
    if b.lrs.getD i 0 = negInf ∧ positive (mrow.getD i 0) = true then e
    else max32 e (planDiv (planSub (planExp (planAdd (b.lrs.getD i 0) (ls.getD i 0))) (mrow.getD i 0) % 2 ^ 31) total)) 0

/-- One pass of the loop of R180: an outcome, or the next sweep. -/
def passOf (s : State) (total : Nat) (b : Sweep) : Sum (BitVec 32) Sweep :=
  let m := s.k.plan.m.toNat
  let n := s.k.plan.n.toNat
  let mrow := firstN s.k.plan.m s.k.plan.mrow
  let mcol := firstN s.k.plan.n s.k.plan.mcol
  let tol := fval .fp32 s.c.pltol.toNat
  let err := fval .fp32 (errorOf s b total)
  let ls := rowLogs s b.lcs
  -- a row or column that an earlier sweep found empty stays so
  let scaled (old mass l : Nat) : Nat := if b.sw ≠ 0 ∧ old = negInf ∧ positive mass = true then negInf else update mass l
  if b.sw ≠ 0 ∧ tol.isNaN = false ∧ err.isNaN = false ∧ tol.lt err = false then .inl 0
  else if b.sw = s.c.swlim then .inl 1
  else
    let lrs := (List.range m).map fun i => scaled (b.lrs.getD i 0) (mrow.getD i 0) (ls.getD i 0)
    let cs := (List.range n).map fun j => lse ((List.range m).map fun i => planAdd (kernelAt s i j) (lrs.getD i 0))
    let lcs := (List.range n).map fun j => scaled (b.lcs.getD j 0) (mcol.getD j 0) (cs.getD j 0)
    let empty (k : Nat) (logs mass : List Nat) : Option Nat :=
      (List.range k).find? fun i => logs.getD i 0 == negInf && positive (mass.getD i 0)
    .inr ⟨lrs, lcs, flagged 3 24 (empty n cs mcol) (flagged 2 16 (empty m ls mrow) b.st), b.sw + 1⟩

/-- bal ends with an outcome or, in a task, stops after one sweep; a handler goes on to the end (R181). -/
inductive Balanced (s : State) (total : Nat) : Sweep → Sweep → Option (BitVec 32) → Prop where
  | ends (b : Sweep) (out : BitVec 32) : passOf s total b = .inl out → Balanced s total b b (some out)
  | stops (b c : Sweep) : s.c.hnd = false → passOf s total b = .inr c → Balanced s total b c none
  | goes (b c d : Sweep) (out : Option (BitVec 32)) : s.c.hnd = true → passOf s total b = .inr c →
    Balanced s total c d out → Balanced s total b d out

/-- The 64 entries with the first ones replaced. -/
def replaced (v : Vector (BitVec 32) 64) (xs : List Nat) : Vector (BitVec 32) 64 :=
  Vector.ofFn fun i : Fin 64 => if i.val < xs.length then BitVec.ofNat 32 (xs.getD i.val 0) else v[i]

/-- The words of a plan image (R186). -/
def imageWords (p : Plan) : List Nat :=
  p.lrs.toList.map BitVec.toNat ++ p.lcs.toList.map BitVec.toNat ++ p.mrow.toList.map BitVec.toNat ++ p.mcol.toList.map BitVec.toNat ++
  (if p.bnd then [1 + 2 * p.pt.val, p.m.toNat, p.n.toNat, p.eps.toNat] else [0, 0, 0, 0]) ++ List.replicate 60 0

/-- Word k of an image (R178, R186). -/
def imageSlot (d : Desc) (k : Nat) : Slot := slotOf d [0, k / 64, k % 64]

/-- A plan that an image can hold (R186). -/
def PlanOk (p : Plan) : Prop :=
  if p.bnd then 1 ≤ p.m.toNat ∧ p.m.toNat ≤ 64 ∧ 1 ≤ p.n.toNat ∧ p.n.toNat ≤ 64 ∧ posNormal p.eps = true
  else p.pt = 0 ∧ p.m = 0 ∧ p.n = 0 ∧ p.eps = 0

end Sys2Proof.Machine

/-- R156 to R159, R168, R170, R171, R241 (mxon, mxoff, mxz, mxpred, mxrd, mxwr): ownership, enabling, clearing, predicates, and one line
of a tile to or from a register; MXOFF for a task that has not enabled or does not own the matrix state, of every instruction of MX and
PL but mxon and mxoff.
Model's choice it rests on: log 47 (DEDUCED: a handler's mxon and mxoff leave MXPROG as it is). -/
def Obligations.MatrixState : Prop :=
  ∀ s : State, InScu s →
    (s.k.owner = none → exec .mxon s = .next (next { s with
      c := { s.c with mxen := true, mxprog := if s.c.hnd then s.c.mxprog else 0 }
      k := { s.k with owner := some (Fin.ofNat 4 s.here), tiles := Vector.replicate 8 (Vector.replicate 64 0), plan := Plan.clear } })) ∧
    (s.k.owner ≠ none → exec .mxon s = .next (next { s with c := { s.c with mxen := true } })) ∧
    exec .mxoff s = .next (next { s with
      c := { s.c with mxen := false, mxprog := if s.c.hnd then s.c.mxprog else 0 }
      k := { s.k with owner := if s.k.owner = some (Fin.ofNat 4 s.here) then none else s.k.owner } }) ∧
    (MxOwn s → ∀ (t : TReg) (rpt : Fin 8), t.val + rpt.val ≤ 7 → ∃ ts,
      exec (.mxz t rpt) s = .next (next { s with k := { s.k with tiles := ts, plan := unbound s.k.plan t rpt } }) ∧
      ∀ u : TReg, ts[u] = if t.val ≤ u.val ∧ u.val ≤ t.val + rpt.val then Vector.replicate 64 0 else s.k.tiles[u]) ∧
    (MxOwn s → ∀ xn, exec (.mxpred xn false) s = .next (next { s with c := { s.c with mxrowp := xOf s xn } }) ∧
      exec (.mxpred xn true) s = .next (next { s with c := { s.c with mxcolp := xOf s xn } })) ∧
    (MxOwn s → s.c.vlive = true → 32 ≤ s.wid → s.k.tbad = [] → s.c.vbad = [] → ∀ (v : VReg) (t : TReg) (ix : TileIdx) (col : Bool),
      indexOf s ix < 64 → let n : Fin 64 := Fin.ofNat 64 (indexOf s ix)
      (∃ vs, exec (.mxrd v t ix col) s = .next (withV s vs) ∧ (∀ r, r ≠ v → vs[r] = s.c.v[r]) ∧
        ∀ i, i < 128 → elem 32 vs[v] i = if i < 64 then lineEl s t n col (Fin.ofNat 64 i) else elem 32 s.c.v[v] i) ∧
      ∃ ts, exec (.mxwr t v ix col) s = .next (next { s with k := { s.k with tiles := ts } }) ∧
        ∀ (u : TReg) (i j : Fin 64), tileEl ts u i j.val =
          if u = t ∧ (if col then j else i) = n then elem 32 s.c.v[v] (if col then i.val else j.val)
          else tileEl s.k.tiles u i j.val) ∧
    (¬ MxOwn s → ∀ (i : Instr) (pt : Point), matrixPoint i = some pt → exec i s = .next (s.raise (mxoffOf s pt)))

/-- R160 to R167, R169 (mxa, mxld, mxst): the units carried out, what each leaves, where the instruction stands after. -/
def Obligations.MatrixRuns : Prop :=
  (∀ (s : State) (o : MxaOp), let a := s.c.d[o.da]
    let b := s.c.d[o.db]
    let len := colsOf a
    let rd := slotGet s (byteAt s)
    Quiet s → MxOwn s → s.k.tbad = [] → (Instr.mxa o).wf = true →
    o.fmt = a.fmt → Paired a.fmt b.fmt → Operand a → Operand b → rowsOf a ≤ 64 → colsOf b ≤ 64 * (o.rpt.val + 1) → rowsOf b = len →
    (a.blk ≠ .none ∨ b.blk ≠ .none → len % 32 = 0) →
    (∀ e ∈ enabledOf s (rowsOf a) (colsOf b) (o.rpt.val + 1), ∀ k, k < len →
      (∀ x ∈ operandSlots a e.1 k ++ operandSlots b k e.2, Mapped s (fun _ => False) Need.read x) ∧
      (a.blk ≠ .none → Mapped s (fun _ => False) Need.read (scaleSlot a ((e.1 * len + k) / 32))) ∧
      (b.blk ≠ .none → Mapped s (fun _ => False) Need.read (scaleSlot b ((e.2 * len + k) / 32)))) →
    Accumulates (exec (.mxa o) s) s o.td o.rpt (rowsOf a) (colsOf b) fun i n acc =>
      blocksFrom (fun k => prodAt a b rd i.val k n) len ((len + 31) / 32) 0 acc) ∧
  (∀ (s : State) (t : TReg) (r : DReg) (rpt : Fin 8), let d := s.c.d[r]
    Quiet s → MxOwn s → s.k.tbad = [] → t.val + rpt.val ≤ 7 → d.fmt = .fp32 → d.blk = .none → d.rank.val = 2 → rowsOf d ≤ 64 →
    colsOf d ≤ 64 * (rpt.val + 1) →
    (∀ e ∈ enabledOf s (rowsOf d) (colsOf d) (rpt.val + 1), Mapped s (fun _ => False) Need.read (slotOf d [e.1, e.2])) →
    Accumulates (exec (.mxld t r rpt) s) s t rpt (rowsOf d) (colsOf d) fun i n _ =>
      slotGet s (byteAt s) (slotOf d [i.val, n])) ∧
  ∀ (s : State) (t : TReg) (r : DReg) (bf : Bool) (rpt : Fin 8), let d := s.c.d[r]
    let es := enabledOf s (rowsOf d) (colsOf d) (rpt.val + 1)
    let W (a : Nat) : Prop := ∃ e ∈ es, phys s (slotOf d [e.1, e.2]).va ≤ a ∧ a < phys s (slotOf d [e.1, e.2]).va + 4
    Quiet s → MxOwn s → s.k.tbad = [] → t.val + rpt.val ≤ 7 → d.fmt = (if bf then .bf16 else .fp32) → d.blk = .none →
    d.rank.val = 2 → rowsOf d ≤ 64 → colsOf d ≤ 64 * (rpt.val + 1) → (∀ e ∈ es, Mapped s W Need.write (slotOf d [e.1, e.2])) →
    ∃ u, MemoryOnly s u ∧ exec (.mxst t r bf rpt) s = .next (unitsEnd s (64 * (rpt.val + 1)) u) ∧ ∀ a, byteAt u a =
      es.foldl (fun f e => slotPut s (slotOf d [e.1, e.2])
        (asBf d.fmt (tileEl s.k.tiles (Fin.ofNat 8 (t.val + e.2 / 64)) (Fin.ofNat 64 e.1) (e.2 % 64))) f) (byteAt s) a

/-- R165: a block's sum with the accumulator, in its window; R166: a K-sum is the same split at any multiple of 32. -/
def Obligations.KSumSplits : Prop :=
  (∀ (acc : Nat) (terms : List FVal), Window acc terms (windowSum acc terms)) ∧
  ∀ (acc : Nat) (xs ys : List FVal), xs.length % 32 = 0 →
    kSum ((xs ++ ys).length / 32 + 1) acc (xs ++ ys) = kSum (ys.length / 32 + 1) (kSum (xs.length / 32 + 1) acc xs) ys

/-- R178, R179, R183 to R186 (plset, plmarg, plout, plcost, plscl): the binding, the kernel and the marginals; the plan as tile, matrix
and image; its cost and its scales.
Model's choices it rests on: logs 6 (DESIGN CHOICE), 32 (DEDUCED). -/
def Obligations.PlanInstructions : Prop :=
  ∀ s : State, MxOwn s → s.k.tbad = [] →
    (∀ (t : TReg) (r : DReg), let d := s.c.d[r]
      let fresh := s.c.hnd = true ∨ s.c.mxprog = 0
      let p : Plan := if fresh then
        { Plan.clear with
          bnd := true, pt := t, m := BitVec.ofNat 32 (rowsOf d), n := BitVec.ofNat 32 (colsOf d), eps := s.c.pleps } else s.k.plan
      let m := p.m.toNat
      let n := p.n.toNat
      let cost (i j : Nat) : FVal := elemVal d.fmt false (slotGet s (byteAt s) (slotOf d [i, j]))
      Quiet s → d.rank.val = 2 → d.fmt = .fp32 ∨ d.fmt = .bf16 ∨ d.fmt = .fp16 → d.blk = .none → 1 ≤ rowsOf d →
      rowsOf d ≤ 64 → 1 ≤ colsOf d → colsOf d ≤ 64 → m ≤ 64 → n ≤ 64 → posNormal s.c.pleps = true →
      (∀ i ∈ unitsOf s m, ∀ j, j < n → Mapped s (fun _ => False) Need.read (slotOf d [i, j]) ∧
        cost i j ≠ .nan ∧ cost i j ≠ .inf true) →
      ∃ cs ts, exec (.plset t r) s = .next (unitsEnd s m { s with chans := cs, k := { s.k with tiles := ts, plan := p } }) ∧
        ∀ (u : TReg) (i : Fin 64) (j : Nat), j < 64 → tileEl ts u i j =
          if u = p.pt ∧ i.val ∈ unitsOf s m then if j < n then kernelOf (cost i.val j) p.eps.toNat else negInf
          else if fresh ∧ u = t ∧ m ≤ i.val then negInf
          else tileEl s.k.tiles u i j) ∧
    (∀ (t : TReg) (r : DReg) (p : Plan), let d := s.c.d[r]
      Quiet s → d.dims = [1, 5, 64] → d.fmt = .fp32 → d.blk = .none → PlanOk p →
      (∀ k, k < 320 → Mapped s (fun _ => False) Need.read (imageSlot d k)) →
      ((List.range 320).map fun k => slotGet s (byteAt s) (imageSlot d k)) = imageWords p →
      ∃ cs, exec (.plset t r) s = .next (next { s with chans := cs, k := { s.k with plan := p } })) ∧
    (∀ (ra rb : DReg), let a := s.c.d[ra]
      let b := s.c.d[rb]
      let xs := (List.range s.k.plan.m.toNat).map fun i => slotGet s (byteAt s) (slotOf a [i])
      let ys := (List.range s.k.plan.n.toNat).map fun i => slotGet s (byteAt s) (slotOf b [i])
      Quiet s → a.fmt = .fp32 → b.fmt = .fp32 → a.dims = [s.k.plan.m.toNat] → b.dims = [s.k.plan.n.toNat] → Bound s s.k.plan.pt →
      (∀ i, i < s.k.plan.m.toNat → Mapped s (fun _ => False) Need.read (slotOf a [i])) →
      (∀ i, i < s.k.plan.n.toNat → Mapped s (fun _ => False) Need.read (slotOf b [i])) →
      (∀ x ∈ xs ++ ys, ∃ neg m e, fval .fp32 x = .fin neg m e ∧ (neg = true → m = 0)) →
      ∃ cs, exec (.plmarg ra rb) s = .next (next { s with chans := cs, k := { s.k with plan := { s.k.plan with
        mrow := vec64Of (xs.map (· % 2 ^ 31)), mcol := vec64Of (ys.map (· % 2 ^ 31)) } } })) ∧
    (∀ (td ts : TReg), InScu s → Bound s ts → ∃ us,
      exec (.plout (.tile td) ts) s = .next (next { s with k := { s.k with
        tiles := us, plan := { s.k.plan with bnd := decide (td ≠ ts) } } }) ∧
      ∀ (u : TReg) (i j : Fin 64), tileEl us u i j.val =
        if u ≠ td then tileEl s.k.tiles u i j.val
        else if i.val < s.k.plan.m.toNat ∧ j.val < s.k.plan.n.toNat then planAt s i j else 0) ∧
    (∀ (r : DReg) (ts : TReg), let d := s.c.d[r]
      let n := s.k.plan.n.toNat
      let es := (unitsOf s s.k.plan.m.toNat).flatMap fun i => (List.range n).map fun j => (i, j)
      let W (a : Nat) : Prop := ∃ e ∈ es, phys s (slotOf d [e.1, e.2]).va ≤ a ∧ a < phys s (slotOf d [e.1, e.2]).va + 4
      Quiet s → Bound s ts → (d.fmt = .fp32 ∨ d.fmt = .bf16) → d.blk = .none → d.dims = [s.k.plan.m.toNat, n] →
      (∀ e ∈ es, Mapped s W Need.write (slotOf d [e.1, e.2])) →
      ∃ u, MemoryOnly s u ∧ exec (.plout (.mem r) ts) s = .next (unitsEnd s s.k.plan.m.toNat u) ∧ ∀ a, byteAt u a =
        es.foldl (fun f e => slotPut s (slotOf d [e.1, e.2]) (asPlan d.fmt (planNat s e.1 e.2)) f) (byteAt s) a) ∧
    (∀ (r : DReg) (ts : TReg), let d := s.c.d[r]
      let W (a : Nat) : Prop := ∃ k, k < 320 ∧ phys s (imageSlot d k).va ≤ a ∧ a < phys s (imageSlot d k).va + 4
      Quiet s → d.fmt = .fp32 → d.blk = .none → d.dims = [1, 5, 64] → (∀ k, k < 320 → Mapped s W Need.write (imageSlot d k)) →
      ∃ u, MemoryOnly s u ∧ exec (.plout (.mem r) ts) s = .next (next u) ∧ ∀ a, byteAt u a =
        (List.range 320).foldl (fun f k => slotPut s (imageSlot d k) ((imageWords s.k.plan).getD k 0) f) (byteAt s) a) ∧
    (∀ (xd : XReg) (ts : TReg), InScu s → Bound s ts →
      let sum := ((List.range s.k.plan.m.toNat).flatMap fun i => (List.range s.k.plan.n.toNat).map fun j => (i, j)).foldl
        (fun acc e => if planNat s e.1 e.2 = 0 then acc else planAdd acc (planMul (planNat s e.1 e.2) (kernelAt s e.1 e.2))) 0
      let cost := planMul (negate32 s.k.plan.eps.toNat) sum
      Gives (exec (.plcost xd ts) s) s xd (if (fval .fp32 cost).isZero then 0 else BitVec.ofNat 64 cost)) ∧
    ∀ (v : VReg) (ts : TReg), InScu s → Bound s ts → s.c.vlive = true → 32 ≤ s.wid → s.c.vbad = [] →
      ∃ vs, exec (.plscl v ts) s = .next (withV s vs) ∧ (∀ r, r ≠ v → r ≠ v + 1 → vs[r] = s.c.v[r]) ∧
        ∀ i, i < 128 →
          elem 32 vs[v] i = (if h : i < 64 then (s.k.plan.lrs[i]).toNat else elem 32 s.c.v[v] i) ∧
          elem 32 vs[v + 1] i = if h : i < 64 then (s.k.plan.lcs[i]).toNat else elem 32 s.c.v[v + 1] i

/-- R177: the arithmetic of the plan. R180, R181 (bal): inconsistent marginals end it at once; else it ends with the outcome of a pass, or stands between two sweeps with
the scales, flags and count of the sweep; a handler's bal runs to its end.
Model's choices it rests on: logs 6 (DESIGN CHOICE), 32 (DEDUCED). -/
def Obligations.PlanBalance : Prop :=
  PlanArith ∧
  ∀ (s : State) (ts : TReg), InScu s → MxOwn s → s.k.tbad = [] → Bound s ts →
    let fresh := s.c.hnd = true ∨ s.c.mxprog = 0
    let total := (firstN s.k.plan.m s.k.plan.mrow).foldl planAdd 0
    let other := (firstN s.k.plan.n s.k.plan.mcol).foldl planAdd 0
    let prog := if s.c.hnd then s.c.mxprog else 0
    let uneven := (fval .fp32 total).isZero = true ∨ (fval .fp32 other).isZero = true ∨
      ((fval .fp32 s.c.pltol.toNat).isNaN = false ∧
        (fval .fp32 (planMul s.c.pltol.toNat (max32 total other))).lt (fval .fp32 (planSub total other % 2 ^ 31)) = true)
    let b : Sweep := ⟨firstN s.k.plan.m s.k.plan.lrs, firstN s.k.plan.n s.k.plan.lcs, if fresh then 3 else s.c.plst,
      if fresh then 0 else s.c.plsw⟩
    (fresh → uneven → exec (.bal ts) s = .next (next { s with c := { s.c with plsw := 0, plst := 2, mxprog := prog } })) ∧
    (¬ (fresh ∧ uneven) → ∃ e out, Balanced s total b e out ∧
      let t : State := { s with
        c := { s.c with plsw := e.sw, plst := (out.map fun v => (e.st &&& ~~~3#32) ||| v).getD e.st }
        k := { s.k with plan := { s.k.plan with lrs := replaced s.k.plan.lrs e.lrs, lcs := replaced s.k.plan.lcs e.lcs } } }
      exec (.bal ts) s = .next (match out with
        | some _ => next { t with c := { t.c with mxprog := prog } }
        | none => { t with c := { t.c with mxprog := 1, ept := 0, wait := .going, queues := t.c.queues.push .mq t.c.pc } }))

namespace Sys2Proof.Machine

/-! The cluster: clasps, granules, assays, and the issue of engine commands. -/

/-- A clasp after one more arrival: at its target the phase flips and the count is zero (R256). -/
def oneMore (c : Clasp) : Clasp :=
  if c.target.toNat ≤ c.arrived.toNat + 1 then { c with arrived := 0, phase := !c.phase } else { c with arrived := c.arrived + 1 }

/-- s after an arrival at p; a flip of the die clasp that the replica tables are bound to inverts ActiveIndex (R256, R360). -/
def afterArrival (s : State) (p : ClaspAt) : State :=
  let c := s.claspAt p
  let t := s.putClasp p (oneMore c)
  match p with
  | .cluster _ _ => t
  | .die d i =>
    if c.target.toNat ≤ c.arrived.toNat + 1 then t.onDie d fun x =>
      if x.replica.bound ∧ x.replica.clasp = 256 + i.val then { x with replica := { x.replica with active := !x.replica.active } }
      else x
    else t

/-- s with no wait. -/
def awake (s : State) : State := { s with c := { s.c with wait := .none, queues := Queues.empty } }

/-- The granule operand a translates, leaving s1, to granule g of a scratchpad of this package, and the pin admits the task
(R254, R259, R261). -/
def AtGranule (s s1 : State) (a : Word) (n : Need) (l : Leaf) (clu g : Nat) : Prop :=
  s.translate s.view (s.c.vah.toNat * 2 ^ 64 + a.toNat) n .plain = (s1, .ok l) ∧ l.pa / 2 ^ 46 = s1.pkg ∧
  ∃ off, s1.place l.pa = .spad clu off ∧ g = off / 4096

/-- Consecutive granules from a, every one found, leaving t. -/
def Granules : State → Word → List (Nat × Nat) → State → Prop
  | s, _, [], t => t = s
  | s, a, (clu, g) :: ks, t => ∃ u l, AtGranule s u a Need.write l clu g ∧ Granules u (a + 4096) ks t

/-- The session a granule is pinned to; 0: none. -/
def pinned (s : State) (k : Nat × Nat) : BitVec 32 := tabGet 0 (s.clusterAt k.1).pins k.2

/-- Granules pinned to a session; 0 unpins. -/
def pinAll (s : State) (v : BitVec 32) (ks : List (Nat × Nat)) : State :=
  ks.foldl (fun u k => u.onCluster k.1 fun c => { c with pins := tabSet 0 c.pins k.2 v }) s

/-- The error of a hallmark stands so (R340). -/
def withHall (s : State) (clu g : Nat) (b : Bad) : State :=
  s.onCluster clu fun c => { c with hallBad := tabSet Bad.clean c.hallBad g b }

/-- Every write that carries the open assay's id is counted: no command with the id is still to complete, its status write included
(R325). -/
def AssayDone (s : State) : Prop :=
  ∀ i, s.c.assay = some i →
    (∀ c ∈ s.allCmds s.here, c.assay ≠ some i) ∧ ∀ l ∈ s.c.lines, l.assay ≠ some i

/-- The command that an engine takes from a record (R129, R259, R266). -/
def freshCmd (s : State) (r : BitVec 512) : Cmd :=
  { serial := s.serial + 1, ctx := s.here, task := (s.c.task.map (·.id)).getD 0, image := r, root := s.c.ptroot, asid := s.c.asid,
    session := s.c.session, assay := s.c.assay, started := false, fails := [], micro := 0,
    second := s.encoderFor s.die s.c.asid r, table := [], src := [], dst := [], flight := none, result := none }

/-- The engine of a class has room for one more command of this context (R129); an encoder holds its own. -/
def hasRoom (s : State) (cls : Cls) (r : BitVec 512) : Bool :=
  let mine := (s.engine s.here cls).filter fun c => cls != .enc || c.second == s.encoderFor s.die s.c.asid r
  decide (mine.length < (s.capacity s.here cls).1) && decide ((mine.filter fun c => c.ctx == s.here).length < (s.capacity s.here cls).2)

/-- Slots offered in order until the engine has no room: the machine after it, and the slots accepted (R129). -/
def offered (cls : Cls) (rec_ : Nat → BitVec 512) : List Nat → State → State × List Nat
  | [], s => (s, [])
  | i :: t, s =>
    if hasRoom s cls (rec_ i) then
      let p := offered cls rec_ t
        { s.putEngine s.here cls (s.engine s.here cls ++ [freshCmd s (rec_ i)]) with serial := s.serial + 1 }
      (p.1, i :: p.2)
    else (s, [])

/-- Slot i of a group of registers: 64 bytes, as many to a register as the width in force holds (R129). -/
def slotRec (s : State) (o : BatchOp) (i : Nat) : BitVec 512 :=
  (s.c.v[regAt o.vc (i / (s.wid / 8))]).extractLsb' (512 * (i % (s.wid / 8))) 512

/-- t is s after the first n slots of a batch: the selected ones offered, the bits of MR below n saying which were accepted. -/
def BatchUpTo (s t : State) (o : BatchOp) (n : Nat) : Prop :=
  let sel := (List.range n).filter fun i => (s.rm o.pm).getLsbD i
  let p := offered o.cls (slotRec s o) sel s
  ∃ m : Vector (BitVec 4096) 8, t = { p.1 with c := { s.c with m := m } } ∧ (∀ r : MReg, r ≠ o.mr ∨ r = 0 → m[r] = s.c.m[r]) ∧
    (o.mr ≠ 0 → ∀ i, i < 4096 → (m[o.mr]).getLsbD i = if i < n then p.2.contains i else (s.c.m[o.mr]).getLsbD i)

end Sys2Proof.Machine

/-- R256, R257, R258, R260, R261 (clasp, claspw, claspa, CLASP_WAIT_RELEASE, CLASP_TARGET_WRITE): an arrival; a wait that ends when
the phase differs from the one named; a write of TARGET, 0 standing for 1, which clears ARRIVED. A claspa that waits stands in LQ (R260). -/
def Obligations.ClaspInstructions : Prop :=
  ∀ (s : State) (id : ClaspId) (xa : XReg), InScu s →
    let p := claspOf s.here id
    let old := (xOf s xa).getLsbD 0
    let t := afterArrival s p
    exec (.clasp id) s = .next (next t) ∧
    ((s.claspAt p).phase ≠ old → Goes (exec (.claspw id xa) s) s (s.c.pc + 8)) ∧
    ((s.claspAt p).phase = old → Waits (exec (.claspw id xa) s) s (.clasp p old false) .scu) ∧
    ((t.claspAt p).phase ≠ old → exec (.claspa id xa) s = .next (next t)) ∧
    ((t.claspAt p).phase = old → Waits (exec (.claspa id xa) s) t (.clasp p old true) .lq) ∧
    (∀ q o b, s.c.wait = .clasp q o b →
      ((s.claspAt q).phase ≠ o → exec .claspWaitRelease s = .next (next (awake s))) ∧
      ((s.claspAt q).phase = o → exec .claspWaitRelease s = .next s)) ∧
    ∀ (q : ClaspAt) (v : Word), exec (.claspTargetWrite q v) s = .next (s.putClasp q (retargeted (s.claspAt q) v))

/-- R254, R259, R261, R262 (hmset, hmchk, spclaim, sprel): the hallmark of the granule, set after the held stores to it; granules
pinned to the session whole or not at all, and let go; ACCESS, reason 2, at an address that is no granule's. R272: MEMUE from a hallmark
that cannot be read. -/
def Obligations.HallmarksAndPins : Prop :=
  ∀ (s s1 : State) (xs xa xd : XReg), InScu s → let a := xOf s xa
    (∀ l clu g, AtGranule s s1 a Need.write l clu g → s1.pinOk s1.pkg s1.c.session l.pa = true →
      let u := s1.releaseBytes s1.here (l.pa - l.pa % 4096) 4096
      exec (.hmset xs xa) s = .next (next (u.onCluster clu fun c => { c with
        hall := tabSet 0 c.hall g (BitVec.ofNat 18 (xOf s xs).toNat) }))) ∧
    (∀ l clu g, AtGranule s s1 a Need.read l clu g → s1.pinOk s1.pkg s1.c.session l.pa = true →
      let b := tabGet Bad.clean (s1.clusterAt clu).hallBad g
      let Fails (t : State) : Prop := exec (.hmchk xd xa) s = .next (t.raise
        { cause := .memue, detail := BitVec.ofNat 56 (2 * 2 ^ 52), addr := BitVec.ofNat 64 l.pa, unit := .lq })
      (b = Bad.clean → Gives (exec (.hmchk xd xa) s) s1 xd (BitVec.ofNat 64 (tabGet 0 (s1.clusterAt clu).hall g).toNat)) ∧
      (b.lasting = true → Fails (withHall s1 clu g b)) ∧
      (b.lasting = false → b.erred = none → b.poison = true ∨ b.left ≠ some 0 →
        Fails (withHall s1 clu g { b with left := b.left.map (· - 1), erred := some Lay.plain }))) ∧
    ∀ (n : BitVec 14) (ks : List (Nat × Nat)), ks.length = n.toNat →
      (a.toNat % 4096 = 0 → Granules s a ks s1 →
        let other (k : Nat × Nat) : Prop := pinned s1 k ≠ 0 ∧ pinned s1 k ≠ s.c.session
        (s.c.session = 0 → Gives (exec (.spclaim xd xa n) s) s1 xd 2) ∧
        (s.c.session ≠ 0 → (∃ k ∈ ks, other k) → Gives (exec (.spclaim xd xa n) s) s1 xd 1) ∧
        (s.c.session ≠ 0 → (∀ k ∈ ks, ¬ other k) →
          Gives (exec (.spclaim xd xa n) s) (pinAll s1 s.c.session ks) xd 0) ∧
        ((∀ k ∈ ks, ¬ other k) → exec (.sprel xa n) s = .next (next (pinAll s1 0 ks)))) ∧
      (a.toNat % 4096 ≠ 0 →
        exec (.spclaim xd xa n) s = .next (s.raise (accessTrap .lq 2 Need.write a)) ∧
        exec (.sprel xa n) s = .next (s.raise (accessTrap .lq 2 Need.write a)))

/-- R129, R130 (ebatch, ewait, epoll, ENGINE_COUNT_WAIT_RELEASE): the selected records are accepted in order until the engine has no
room, and MR says which; a bad record raises ENGINE with the earlier ones accepted; the counts of commands completed.
Model's choices it rests on: logs 2 (DESIGN CHOICE), 37 (DEDUCED). -/
def Obligations.EngineIssue : Prop :=
  ∀ s : State, InScu s →
    (∀ o : BatchOp, s.c.vbad = [] → let n := s.wid / 8 * 2 ^ o.grp.val
      let good (i : Nat) : Prop := (s.rm o.pm).getLsbD i = true → badRecord o.cls (slotRec s o i) = none
      ((∀ i, i < n → good i) → ∃ t, BatchUpTo s t o n ∧ exec (.ebatch o) s = .next (next t)) ∧
      ∀ i why, i < n → (∀ j, j < i → good j) → (s.rm o.pm).getLsbD i = true → badRecord o.cls (slotRec s o i) = some why →
        ∃ t, BatchUpTo s t o i ∧ exec (.ebatch o) s = .next (t.raise
          { cause := .engine, unit := .lq, elem := some (0, BitVec.ofNat 13 i),
            detail := BitVec.ofNat 56 ((Cls.code o.cls).toNat * 2 ^ 52 + why * 2 ^ 40) })) ∧
    ∀ (cls : Cls) (xq : XReg),
      let reached (q : Word) : Prop := 0 ≤ (s.c.counts[countOf cls] - q).toInt
      (¬ Drained s [.lq] → Waits (exec (.ewait cls xq) s) s (.drain [.lq]) .scu ∧ Waits (exec (.epoll cls xq) s) s (.drain [.lq]) .scu) ∧
      (Drained s [.lq] →
        (reached (xOf s xq) → Goes (exec (.ewait cls xq) s) s (s.c.pc + 8)) ∧
        (¬ reached (xOf s xq) → Waits (exec (.ewait cls xq) s) s (.engine cls (xOf s xq)) .scu) ∧
        Gives (exec (.epoll cls xq) s) s xq s.c.counts[countOf cls]) ∧
      ∀ q, s.c.wait = .engine cls q →
        (reached q → exec .engineCountWaitRelease s = .next (next (awake s))) ∧
        (¬ reached q → exec .engineCountWaitRelease s = .next s)

/-- R279, R303, R324, R325, R330, R331 (asyopen, asyclose, asyrd, ASYCLR, DOORBELL, PGREQ, REGISTER_WRITE): an assay opens and closes
once the writes of the open one are counted; the sum of twelve stacks; the registers that an agent writes.
Model's choices it rests on: log 10 (DEDUCED). -/
def Obligations.AssaysAndRegisters : Prop :=
  ∀ s : State, InScu s →
    (∀ (xd : XReg) (id : Fin 256),
      (s.c.assay = some id ∨ AssayDone s → exec (.asyopen id) s = .next (next { s with c := { s.c with assay := some id } })) ∧
      (¬ (s.c.assay = some id ∨ AssayDone s) → Waits (exec (.asyopen id) s) s .assay .lq) ∧
      (s.c.assay ≠ some id → Goes (exec (.asyclose id) s) s (s.c.pc + 8)) ∧
      (s.c.assay = some id → AssayDone s → exec (.asyclose id) s = .next (next { s with c := { s.c with assay := none } })) ∧
      (s.c.assay = some id → ¬ AssayDone s → Waits (exec (.asyclose id) s) s .assay .lq) ∧
      Gives (exec (.asyrd xd id) s) s xd (BitVec.ofNat 64
        (((List.range 12).map fun k => (tabGet 0 s.assay ((12 * s.pkg + k) * 256 + id.val)).toNat).sum))) ∧
    ∀ (die q : Nat) (v : Word),
      exec (.asyclr die v) s = .next (assayCleared s die v) ∧
      (q < 16384 → exec (.doorbell die q v) s = .next (rung s die q v)) ∧
      (1024 ≤ (s.dieAt s.die).requests.length → exec (.pgreq v) s = .next s) ∧
      ((s.dieAt s.die).requests.length < 1024 → ∀ s1 r, s.requestRecord v = (s1, r) →
        exec (.pgreq v) s = .next (afterRequest s1 v r s.die)) ∧
      ∀ pa, exec (.registerWrite pa v) s = .next (match s.place pa with
        | .pwrctl d j => s.onDie d fun x => { x with pwrctl := x.pwrctl.set (Fin.ofNat 3 j) (v &&& 0x0000FFFFFFFF0000#64) }
        | _ => s)

namespace Sys2Proof.Machine

/-! Engine commands (R128 to R130, R264 to R268, R293 to R296). Bytes of memory are read and written as an engine finds them under
the translation of the context that issued the command. -/

/-- No context watches and no error stands in memory. -/
def EngQuiet (s : State) : Prop :=
  s.bad = [] ∧ BytesOk s ∧ s.c.watchctl = 0 ∧ ∀ g, (tabGet Ctx.reset s.ctxs g).watchctl = 0

/-- The physical address of a virtual one, for a command (R195, R266, R367). -/
def cphys (s : State) (c : Cmd) (va : Nat) : Nat :=
  match s.walk (pkgOf c.ctx) c.root (va % 2 ^ 72) with
  | .ok l => resolve (some c.ctx) l.pa
  | .error _ => 0

/-- t is s but for the bytes of W and what goes with a write of memory. -/
def EngSame (s t : State) (W : Nat → Prop) : Prop :=
  t = { s with ctxs := t.ctxs, mem := t.mem, tags := t.tags, unencoded := t.unencoded, chans := t.chans, assay := t.assay, fresh := t.fresh } ∧
  (∀ g, (tabGet Ctx.reset t.ctxs g).watchctl = 0) ∧ BytesOk t ∧ ∀ a, ¬ W a → byteAt t a = byteAt s a

/-- The engine reaches a byte, whatever the command writes to W; its page is marked used already: it at most wakes pseudo-channels. -/
def EngMapped (s : State) (W : Nat → Prop) (c : Cmd) (n : Need) (va : Nat) : Prop :=
  ∀ t, EngSame s t W → ∃ l cs, (engAt c false va n).run t = (.ok l, { t with chans := cs }) ∧ l.pa = cphys s c va ∧ l.lay.raw = false

/-- The engine fails at a byte with a code (R267). -/
def EngFails (s : State) (W : Nat → Prop) (c : Cmd) (n : Need) (va code : Nat) : Prop :=
  ∀ t, EngSame s t W → ∃ cs, (engAt c false va n).run t = (.error code, { t with chans := cs })

/-- Bytes bs put at physical places, in order. -/
def putAt (places : List Nat) (bs : List Byte) (f : Nat → Byte) : Nat → Byte :=
  (places.zip bs).foldl (fun g p => fun a => if a = p.1 then p.2 else g a) f

/-- The physical places of n bytes from va. -/
def spanOf (s : State) (c : Cmd) (va n : Nat) : List Nat := (List.range n).map fun j => cphys s c (va + j)

/-- s with the command ended: its status word, and the hallmarks its completion sets. -/
def endsWith (s : State) (cls : Cls) (c : Cmd) (w : Word) (marks : List (Nat × BitVec 18)) : State :=
  s.setCmd cls { c with started := true, result := some ⟨w, marks⟩ }

/-- A word of two halves. -/
def halves (hi lo : Nat) : Word := BitVec.ofNat 64 (hi * 2 ^ 32 + lo)

/-- A row of an engine: its command stands at place i of a list, and has not started. -/
def Stands (l : List Cmd) (i : Nat) (c : Cmd) (cmd : Nat) : Prop :=
  l[i]? = some c ∧ c.started = false ∧ c.result = none ∧ recCmd c.image = cmd

/-- The command is the oldest of its context in its class. -/
def Oldest (s : State) (cls : Cls) (c : Cmd) : Prop := ∀ d ∈ s.engine c.ctx cls, d.ctx = c.ctx → c.serial ≤ d.serial

/-! Copies. -/

/-- The copy rows: constructor, class, commands held, number of the command. -/
noncomputable def copyTable : List ((Nat → Nat → Instr) × Cls × (State → Nat → List Cmd) × Nat) :=
  [(.ccopyCopy, .ccopy, fun s u => (s.clusterAt u).ccopy, 1), (.ccopyFill, .ccopy, fun s u => (s.clusterAt u).ccopy, 2),
   (.dcopyCopy, .dcopy, fun s u => (s.dieAt u).dcopy, 1), (.dcopyFill, .dcopy, fun s u => (s.dieAt u).dcopy, 2)]

noncomputable def hmsetTable : List ((Nat → Nat → Instr) × Cls × (State → Nat → List Cmd)) :=
  [(.ccopyHmset, .ccopy, fun s u => (s.clusterAt u).ccopy), (.dcopyHmset, .dcopy, fun s u => (s.dieAt u).dcopy)]

/-- A command may start: of DCOPY one without ORD always, else the oldest of its context (R266, R293). -/
def CopyMay (s : State) (cls : Cls) (c : Cmd) : Prop := (cls = .dcopy ∧ recFlag c.image 1 = false) ∨ Oldest s cls c

/-- First byte of row r of the source and of the destination (R265). -/
def srcRow (c : Cmd) (r : Nat) : Nat := (((recN c.image 8 9 : Int) + r * recInt c.image 48 8) % 2 ^ 72).toNat
def dstRow (c : Cmd) (r : Nat) : Nat := (((recN c.image 17 9 : Int) + r * recInt c.image 56 8) % 2 ^ 72).toNat

/-- The granule of a scratchpad of the command's own package that holds a byte. -/
def ownGranule (s : State) (c : Cmd) (pa : Nat) : Option Nat :=
  if pa / 2 ^ 46 = pkgOf c.ctx then (s.place pa).granule.map fun g => 2048 * g.1 + g.2 else none

/-- Where destination byte j of row r is placed: in such a scratchpad, under LAY (R251, R265). -/
def rowPlace (s : State) (c : Cmd) (r j : Nat) : Nat :=
  let pa := cphys s c (dstRow c r + j)
  if (ownGranule s c pa).isSome then pa - pa % 4096 + permuteOffset (recN c.image 35 1 % 4) (pa % 4096) else pa

/-- The value of byte j of row r, memory reading as f: the pattern's, or the source's, before the command or as f has it
(R265; which of the two, where they differ, is open: log 28). -/
def rowByte (s : State) (c : Cmd) (f : Nat → Byte) (r j : Nat) : Byte :=
  if recCmd c.image = 2 then BitVec.ofNat 8 (recN c.image (8 + (dstRow c r + j) % 8) 1)
  else if Config.copyOld c.serial r j then byteAt s (cphys s c (srcRow c r + j)) else f (cphys s c (srcRow c r + j))

/-- How memory reads after the first k rows of n bytes, row by row, each row read before it is written. -/
def rowsAfter (s : State) (c : Cmd) (n k : Nat) : Nat → Byte :=
  (List.range k).foldl (fun f r => putAt ((List.range n).map (rowPlace s c r)) ((List.range n).map (rowByte s c f r)) f) (byteAt s)

/-- HMV and LAY (R264). -/
def markOf (c : Cmd) : BitVec 18 := BitVec.ofNat 18 (recN c.image 35 1 % 4 * 2 ^ 16 + recN c.image 36 2)

/-- The granules of a list, each once, with the command's hallmark. -/
def Marks (c : Cmd) (marks : List (Nat × BitVec 18)) (P : Nat → Prop) : Prop :=
  (marks.map (·.1)).Nodup ∧ (∀ m ∈ marks, m.2 = markOf c) ∧ ∀ g, g ∈ marks.map (·.1) ↔ P g

/-! The encoders. -/

/-- The bytes of rows from base, of n bytes each, at a stride. -/
def gather (s : State) (c : Cmd) (base stride n rows : Nat) : List Byte :=
  (List.range rows).flatMap fun r => (spanOf s c (base + r * stride) n).map (byteAt s)

def AllMapped (s : State) (W : Nat → Prop) (c : Cmd) (n : Need) (va len : Nat) : Prop := ∀ j, j < len → EngMapped s W c n (va + j)

/-- Bytes of a stream area: 4,096 + 2F rounded up to a granule, F the samples' bytes (R295). -/
def areaLen (r : BitVec 512) : Nat :=
  (4096 + 2 * (recN r 56 2 * recN r 58 2 * 3 / 2 * (if recN r 60 1 % 2 = 1 then 2 else 1)) + 4095) / 4096 * 4096

/-- The samples of a frame's bytes: each byte, or with D10 the low ten bits of each two (R295). -/
def samplesIn (wide : Bool) (bs : List Byte) : List Nat :=
  if wide then (List.range (bs.length / 2)).map fun i => leNat ((bs.drop (2 * i)).take 2) % 1024 else bs.map BitVec.toNat

/-- A number in groups of seven bits, the least significant first. -/
def sevens (bs : List Byte) : Nat := bs.foldr (fun b t => b.toNat % 128 + 128 * t) 0

/-- A key frame: the first frame, one asked for, and one that KEYINT frames separate from the last (R296; log 55). -/
def IsKey (p : Stream) (r : BitVec 512) : Prop := p.coded = 0 ∨ recFlag r 0 = true ∨ (p.keyint ≠ 0 ∧ p.keyint ≤ p.coded)

/-- A frame's width, height and depth are those of its stream (R295). -/
def Fits (p : Stream) (r : BitVec 512) : Prop :=
  p.width = recN r 56 2 ∧ p.height = recN r 58 2 ∧ p.d10 = decide (recN r 60 1 % 2 = 1)

/-- The stream after a frame: frames coded from the last key frame on, counted to 65,536. -/
def coded (p : Stream) (key : Bool) : Stream := { p with coded := if key then 1 else min 65536 (p.coded + 1) }

/-- The parameters are such as an area's fields hold. -/
def StreamOk (p : Stream) : Prop :=
  p.target < 2 ^ 32 ∧ p.qp < 2 ^ 8 ∧ p.fps < 2 ^ 8 ∧ p.keyint < 2 ^ 16 ∧ p.width < 2 ^ 16 ∧ p.height < 2 ^ 16 ∧ p.coded < 2 ^ 32

/-- An OBU with obu_has_size_field = 1: a header of one byte, the size in groups of seven bits, the payload (R294; log 54). -/
def IsObu (kind : Nat) (payload bs : List Byte) : Prop :=
  ∃ size : List Byte, bs = BitVec.ofNat 8 (8 * kind + 2) :: size ++ payload ∧ size ≠ [] ∧ sevens size = payload.length ∧
    ∀ i, i < size.length → ((size.getD i 0).toNat < 128 ↔ i + 1 = size.length)

/-- An encoder runs its commands in acceptance order; of the other encoder's earlier ones, those of the same context or stream have
begun (R129, R299). -/
def EncMay (s : State) (c : Cmd) : Prop :=
  let area (d : Cmd) : Nat := d.asid.toNat * 2 ^ 72 + recN d.image 17 9
  ∀ d ∈ s.engine c.ctx .enc, d.serial < c.serial → d.second ≠ c.second ∧ (d.ctx = c.ctx ∨ area d = area c → d.started = true)

/-- A failed command: nothing but its output range, undefined, changes (R296). -/
def EncEnds (o : Out) (s : State) (c : Cmd) (code : Nat) : Prop :=
  ∃ u f, MemoryOnly s u ∧ o = .next (endsWith { u with fresh := f } .enc c (halves 0 code) []) ∧
    ∀ a, a ∉ spanOf s c (recN c.image 40 9) (recN c.image 36 4) → byteAt u a = byteAt s a

/-! Completion. -/

/-- The completion rows: constructor, class, commands held, first byte of STA, where the command has one. -/
noncomputable def completionTable : List ((Nat → Nat → Instr) × Cls × (State → Nat → List Cmd) × (BitVec 512 → Nat)) :=
  [(.ccopyCompletion, .ccopy, fun s u => (s.clusterAt u).ccopy, fun r => recN r 26 9),
   (.dcopyCompletion, .dcopy, fun s u => (s.dieAt u).dcopy, fun r => recN r 26 9),
   (.encCompletion, .enc, fun s u => (s.dieAt u).enc, fun r => recN r 26 9),
   (.seamCompletion, .seam, fun s u => (s.dieAt u).seam, fun r => recN r 52 9),
   (.collCompletion, .coll, fun s u => (s.dieAt u).coll, fun r => recN r 35 9),
   (.dispCompletion, .disp, fun s u => (s.dieAt u).disp, fun r => if recCmd r = 1 ∨ recCmd r = 2 then recN r 17 9 else 0)]

/-- What a class does before the common steps: SEAM keeps the aggregate of bfence (R323); RTSET binds its tables (R360). -/
def beforeSteps (s : State) (cls : Cls) (c : Cmd) (r : Result) : State :=
  if cls = .seam then s.onSeamLog c fun l => l.add c (r.word.toNat % 256)
  else if cls = .disp ∧ recCmd c.image = 4 then s.onDie (dieOf c.ctx) fun x => { x with replica := {
    bound := true
    t0 := BitVec.ofNat 72 (recN c.image 8 9)
    t1 := BitVec.ofNat 72 (recN c.image 17 9)
    nent := recN c.image 28 2
    clasp := recN c.image 30 2
    active := false
    cmd := some { c with flight := none, result := none, started := true } } }
  else s

/-- Whether the status word can be written is known: there is none, or its bytes are reached, or the first is not. -/
def StaKnown (s : State) (c : Cmd) (sta : Nat) : Prop :=
  sta = 0 ∨ AllMapped s (· ∈ spanOf s c sta 8) c Need.write sta 8 ∨ ∃ code, EngFails s (fun _ => False) c Need.write sta code

/-- Step 3 of R266: the status word, where STA is not 0; one that cannot be written is counted (R267). -/
def StatusWritten (s t : State) (cls : Cls) (c : Cmd) (sta : Nat) (w : Word) : Prop :=
  (sta = 0 → t = s) ∧
  (sta ≠ 0 → AllMapped s (· ∈ spanOf s c sta 8) c Need.write sta 8 → MemoryOnly s t ∧
    ∀ a, byteAt t a = putAt (spanOf s c sta 8) (leBytes 8 w.toNat) (byteAt s) a) ∧
  (sta ≠ 0 → (∃ code, EngFails s (fun _ => False) c Need.write sta code) →
    ∃ cs, let u := { s with chans := cs }
      t = if cls = .ccopy then u.onCluster (clusterOf c.ctx) fun x => { x with errors := x.errors + 1 }
        else u.onDie (dieOf c.ctx) fun x => { x with errors := x.errors + 1 })

/-- Step 4: an arrival at the clasp named; 0xFFFF names none (R128, R258). -/
def claspStep (s : State) (c : Cmd) : State :=
  let n := recClasp c.image
  if n < 64 then afterArrival s (.cluster (clusterOf c.ctx) (Fin.ofNat 64 n))
  else if 256 ≤ n ∧ n < 512 then afterArrival s (.die (dieOf c.ctx) (Fin.ofNat 256 (n - 256)))
  else s

/-- Step 5: one more command of the task complete, wherever the task stands (R130, R239); for a bfence that waits it is an element
group (R320). -/
def countStep (s : State) (cls : Cls) (c : Cmd) : State :=
  let more (v : Vector Word 6) : Vector Word 6 := v.set (countOf cls) (v[countOf cls] + 1)
  if s.ownCmd c.ctx c then s.onCtx c.ctx fun x =>
    { x with counts := more x.counts, ept := if cls = .seam ∧ x.wait = .seam then 0 else x.ept }
  else s.onDie (dieOf c.ctx) fun x =>
    { x with out := x.out.map fun o => if o.task.id = c.task then { o with added := more o.added } else o }

/-- The engine lets go of the command. -/
def letGo (s : State) (cls : Cls) (c : Cmd) : State :=
  s.putEngine c.ctx cls ((s.engine c.ctx cls).filter fun d => d.serial != c.serial)

end Sys2Proof.Machine

/-- R264 to R267, R293, R251, R254 (COPY, FILL, HMSET of CCOPY and DCOPY): every destination byte, its place, the hallmarks and the
status; a row that fails ends the command after the rows before it; HMSET sets nothing unless every granule can be.
Model's choices it rests on: logs 28 (DESIGN CHOICE: the order of the rows where source and destination overlap), 34 (DEDUCED: HMSET reports
ROWS in DONE). -/
def Obligations.CopyEngines : Prop :=
  (∀ p ∈ copyTable, ∀ (s : State) (unit i : Nat) (c : Cmd), Stands (p.2.2.1 s unit) i c p.2.2.2 → EngQuiet s →
    let cls := p.2.1
    let n := recN c.image 40 4
    let rows := recN c.image 44 4
    let W (a : Nat) : Prop := ∃ r j, r < rows ∧ j < n ∧ a = rowPlace s c r j
    let Reach (r : Nat) : Prop := ∀ j, j < n → EngMapped s W c Need.write (dstRow c r + j) ∧
      (recCmd c.image = 1 → EngMapped s W c Need.read (srcRow c r + j))
    (¬ CopyMay s cls c → exec (p.1 unit i) s = .next s) ∧
    (CopyMay s cls c → (∀ r, r < rows → Reach r) → ∃ u marks, MemoryOnly s u ∧
      exec (p.1 unit i) s = .next (endsWith u cls c (halves rows 0) marks) ∧ (∀ a, byteAt u a = rowsAfter s c n rows a) ∧
      Marks c marks fun g => recFlag c.image 0 = true ∧ ∃ r j, r < rows ∧ j < n ∧
        ownGranule s c (cphys s c (dstRow c r + j)) = some g) ∧
    ∀ r code, CopyMay s cls c → r < rows → n ≠ 0 → (∀ q, q < r → Reach q) →
      (if recCmd c.image = 1 then EngFails s W c Need.read (srcRow c r) code else EngFails s W c Need.write (dstRow c r) code) →
      ∃ u, MemoryOnly s u ∧ exec (p.1 unit i) s = .next (endsWith u cls c (halves r code) []) ∧
        ∀ a, byteAt u a = rowsAfter s c n r a) ∧
  ∀ p ∈ hmsetTable, ∀ (s : State) (unit i : Nat) (c : Cmd), Stands (p.2.2 s unit) i c 3 → CopyMay s p.2.1 c →
    let n := recN c.image 44 4
    let va (k : Nat) : Nat := recN c.image 17 9 + 4096 * k
    let gran (k : Nat) : Option Nat := ownGranule s c (cphys s c (va k))
    let Found (k : Nat) : Prop := EngMapped s (fun _ => False) c Need.write (va k)
    BytesOk s → (∀ g, (tabGet Ctx.reset s.ctxs g).watchctl = 0) →
    ((∀ k, k < n → Found k ∧ gran k ≠ none) → ∃ cs marks,
      exec (p.1 unit i) s = .next (endsWith { s with chans := cs } p.2.1 c (halves n 0) marks) ∧ Marks c marks fun g => ∃ k, k < n ∧ gran k = some g) ∧
    ∀ k code, k < n → (∀ q, q < k → Found q ∧ gran q ≠ none) →
      (Found k ∧ gran k = none ∧ code = 2) ∨ EngFails s (fun _ => False) c Need.write (va k) code →
      ∃ cs, exec (p.1 unit i) s = .next (endsWith { s with chans := cs } p.2.1 c (halves 0 code) [])

/-- R294 to R296, R299 (ENC OPEN and FRAME): the stream area, which holds the parameters, and the binding; the bitstream, a temporal unit
in its OBUs with the first bits of its headers, when it is a key frame, its length, and the area after it; CODE 5 where the bitstream is longer than CAP, 6 for an area that
is no stream or one of other sizes, 7 with no encoder in service.
Model's choices it rests on: logs 33 (DEDUCED), 52 (DESIGN CHOICE: the layout of the area), 54 (PRESUMED: the OBU, its headers), 55 (DEDUCED:
KEYINT). -/
def Obligations.Encoders : Prop :=
  (∀ (p : Stream) (n : Nat) (rest : List Byte), StreamOk p → 26 ≤ n → (p.area n rest).length = n ∧
    Stream.read (p.area n rest) = some p) ∧
  (∀ (kind : Nat) (payload : List Byte), payload.length < 2 ^ 56 → IsObu kind payload (obu kind payload)) ∧
  (∀ (p : Stream) (samples : List Nat) (area : List Byte) (r : BitVec 512) (key : Bool),
    ∃ header frame : List Byte, temporalUnit p samples area r key =
      obu 2 [] ++ (if key then obu 1 header else []) ++ obu 6 frame ∧
      -- Main profile, no still picture; KEY_FRAME or INTER_FRAME, shown
      (header.headD 0).toNat / 8 = 0 ∧ header ≠ [] ∧ (frame.headD 0).toNat / 16 = (if key then 1 else 3)) ∧
  ∀ (s : State) (die i : Nat) (c : Cmd), EngQuiet s → dieOf c.ctx = die →
    (¬ EncMay s c → (Stands (s.dieAt die).enc i c 1 → exec (.encOpen die i) s = .next s) ∧
      (Stands (s.dieAt die).enc i c 2 → exec (.encFrame die i) s = .next s)) ∧
    (EncMay s c →
    let r := c.image
    let area := areaLen r
    let areaAt := spanOf s c (recN r 17 9) area
    let n := recN r 56 2 * (if recN r 60 1 % 2 = 1 then 2 else 1)
    let h := recN r 58 2
    let stride := recN r 52 4
    let chroma := recN r 8 9 + stride * h
    let frame := gather s c (recN r 8 9) stride n h ++ gather s c chroma stride n (h / 2)
    let old := areaAt.map (byteAt s)
    let samples := samplesIn (decide (recN r 60 1 % 2 = 1)) frame
    let unit (p : Stream) (key : Bool) : List Byte := temporalUnit p samples old r key
    let opened : Stream := ⟨recN r 8 4, recN r 12 1, recN r 13 1, recN r 14 2, recN r 56 2, h, decide (recN r 60 1 % 2 = 1), 0⟩
    let W (a : Nat) : Prop := a ∈ areaAt ∨ a ∈ spanOf s c (recN r 40 9) (recN r 36 4)
    let Seen : Prop := AllMapped s W c Need.both (recN r 17 9) area ∧
      (∀ k, k < h → AllMapped s W c Need.read (recN r 8 9 + k * stride) n) ∧
      (∀ k, k < h / 2 → AllMapped s W c Need.read (chroma + k * stride) n)
    let Output : Prop := AllMapped s W c Need.write (recN r 40 9) (recN r 36 4)
    (recN r 26 9 = 0 ∨ AllMapped s W c Need.write (recN r 26 9) 8) →
    (Stands (s.dieAt die).enc i c 1 → (s.dieAt die).encDown ≠ 3 → AllMapped s W c Need.write (recN r 17 9) area →
      ∃ u, MemoryOnly s u ∧ (∀ a, byteAt u a = putAt areaAt (opened.area area (Config.openState r)) (byteAt s) a) ∧
        exec (.encOpen die i) s = .next (endsWith (u.onDie die fun x => { x with
          streams := tabSet false x.streams (c.asid.toNat * 2 ^ 72 + recN r 17 9) (recFlag r 1) }) .enc c (halves 0 0) [])) ∧
    (Stands (s.dieAt die).enc i c 1 → (s.dieAt die).encDown = 3 → Output → EncEnds (exec (.encOpen die i) s) s c 7) ∧
    (Stands (s.dieAt die).enc i c 2 → (s.dieAt die).encDown = 3 → Output → EncEnds (exec (.encFrame die i) s) s c 7) ∧
    (Stands (s.dieAt die).enc i c 2 → (s.dieAt die).encDown ≠ 3 → Seen → Output →
      ((∀ p, Stream.read old = some p → ¬ Fits p r) → EncEnds (exec (.encFrame die i) s) s c 6) ∧
      ∀ p key, Stream.read old = some p → Fits p r → (key = true ↔ IsKey p r) →
        (recN r 36 4 < (unit p key).length → EncEnds (exec (.encFrame die i) s) s c 5) ∧
        ((unit p key).length ≤ recN r 36 4 → ∃ u, MemoryOnly s u ∧
          (∀ a, byteAt u a = putAt areaAt ((coded p key).area area (Config.nextState samples old r key))
            (putAt (spanOf s c (recN r 40 9) (unit p key).length) (unit p key) (byteAt s)) a) ∧
          exec (.encFrame die i) s = .next (endsWith u .enc c (halves (unit p key).length 0) []))))

/-- R130, R266, R267, R323, R360 (the completion of a command of each engine): its hallmarks, its status word, its clasp, its count,
in this order; a status word that cannot be written is dropped and counted; a command with no status yet does not complete.
Model's choices it rests on: logs 2 (DESIGN CHOICE), 36 (DEDUCED: the replica tables are bound as RTSET completes). -/
def Obligations.EngineCompletions : Prop :=
  ∀ p ∈ completionTable, ∀ (s : State) (unit i : Nat) (c : Cmd), (p.2.2.1 s unit)[i]? = some c →
    (c.result = none → exec (p.1 unit i) s = .next s) ∧
    ∀ r : Result, c.result = some r →
      let s1 := r.marks.foldl (fun u m => u.onCluster (m.1 / 2048) fun x => { x with
        hall := tabSet 0 x.hall (m.1 % 2048) m.2 }) (beforeSteps s p.2.1 c r)
      (p.2.1 = .coll → ∀ d ∈ s.engine c.ctx .coll, d.ctx = c.ctx → recN d.image 48 4 = recN c.image 48 4 →
        recN c.image 52 4 ≤ recN d.image 52 4) →
      EngQuiet s1 → StaKnown s1 c (p.2.2.2 c.image) →
      ∃ t, StatusWritten s1 t p.2.1 c (p.2.2.2 c.image) r.word ∧
        exec (p.1 unit i) s = .next (letGo (countStep (claspStep t c) p.2.1 c) p.2.1 c)

namespace Sys2Proof.Machine

/-! Seam commands (R314 to R323). -/

noncomputable def seamRows : List ((Nat → Nat → Instr) × Nat) :=
  [(.sadd, 1), (.saxpy, 2), (.sscal, 3), (.supd, 4), (.smom, 5), (.sfill, 6), (.scpy, 7)]

/-- The operands a command uses, DST first: base address, and what each needs (R315, R317). -/
def seamOperands (r : BitVec 512) : List (Nat × Need) :=
  [(recN r 8 9, ⟨true, true, false, true⟩)] ++
  (if recCmd r ∈ [1, 2, 4, 5, 7] then [(recN r 17 9, ⟨true, false, false, true⟩)] else []) ++
  if recCmd r = 5 then [(recN r 26 9, ⟨true, true, false, true⟩)] else []

def elemBytes (r : BitVec 512) : Nat := if recN r 35 1 % 16 = 9 then 2 else 4

/-- What a check of operand line k of element i finds: its leaf, with code 6 for an encoded line, or the code it ends with. -/
abbrev SeamCheck := Nat → Nat → Except Nat (Leaf × Nat)

/-- The check of each line that the command looks at leaves the machine as it is. -/
def SeamChecked (s : State) (c : Cmd) (chk : SeamCheck) : Prop :=
  let r := c.image
  ∀ i, recN r 61 3 ≤ i → i < recN r 36 3 → ∀ k p, (seamOperands r)[k]? = some p →
    (seamLine c (p.1 + i * elemBytes r) p.2).run s = (chk i k, s)

/-- The leaves of an element, and the bank of its DST line. -/
def leavesOf (r : BitVec 512) (chk : SeamCheck) (i : Nat) : List Leaf :=
  (List.range (seamOperands r).length).filterMap fun k => match chk i k with
    | .ok p => some p.1
    | .error _ => none

def dstBankOf (chk : SeamCheck) (i : Nat) : Option (Nat × Nat) :=
  match chk i 0 with
  | .ok p => some (bankAt p.1.lay (p.1.pa / 128))
  | .error _ => none

/-- Every code an element meets; 3 where its lines lie in different banks (R317). -/
def codesOf (r : BitVec 512) (chk : SeamCheck) (i : Nat) : List Nat :=
  let banks := (leavesOf r chk i).map fun l => bankAt l.lay (l.pa / 128)
  (if banks.length = (seamOperands r).length ∧ banks.any (fun b => some b != dstBankOf chk i) then [3] else []) ++
  (List.range (seamOperands r).length).filterMap fun k => match chk i k with
    | .ok p => if p.2 = 0 then none else some p.2
    | .error code => some code

/-- The elements selected (R317). -/
def selectedOf (r : BitVec 512) (chk : SeamCheck) : List Nat :=
  let start := recN r 61 3
  let all := (List.range (recN r 36 3 - start)).map (start + ·)
  if recFlag r 1 then
    match dstBankOf chk start with
    | none => all.take 1
    | some b => all.filter fun i => dstBankOf chk i == some b
  else all

/-- The new y and m of an element, from y, x and m (R315, R62 to R64). -/
def seamNew (r : BitVec 512) (y x m : Nat) : Nat × Nat :=
  let code := recN r 35 1 % 16
  let f : Fmt := if code = 9 then .bf16 else .fp32
  let k : VMods := ⟨0, false, .rne, recFlag r 0⟩
  let p0 := recN r 40 4
  let eta := fval .fp32 (recN r 44 4)
  let keep := fval .fp32 (rounded .fp32 ⟨0, false, .rne, false⟩ ((FVal.fin false 1 0).add .rne (fval .fp32 p0).neg))
  let v (p : Nat) : FVal := fval f p
  let int (p : Nat) : Int := num 32 false p
  if code = 2 then
    (match recCmd r with
     | 1 => fit 32 k (int y + int x)
     | 2 => fit 32 k (int y + int p0 * int x)
     | 3 => fit 32 k (int p0 * int y)
     | 6 => p0
     | _ => x, m)
  else
    match recCmd r with
    | 1 => (rounded f k ((v y).add .rne (v x)), m)
    | 2 => (rounded f k ((v y).add .rne ((fval .fp32 p0).mul (v x))), m)
    | 3 => (rounded f k ((fval .fp32 p0).mul (v y)), m)
    | 4 => (rounded f k (((v y).mul keep).add .rne (eta.mul (v x)).neg), m)
    | 5 =>
      let n := rounded f k (((fval .fp32 (recN r 48 4)).mul (v m)).add .rne (v x))
      (rounded f k (((v y).mul keep).add .rne (eta.mul (v n)).neg), n)
    | 6 => (p0 % 2 ^ f.width, m)
    | _ => (rounded f k (v x), m)

/-- s with a pseudo-channel active, where any has left that state (R307). -/
def wakes (s : State) (n : Nat) : State :=
  if s.chans = [] then s else { s with chans := tabSet Chan.reset s.chans n { tabGet Chan.reset s.chans n with power := .active } }

/-- The value of n bytes at a physical address. -/
def valueAt (s : State) (pa n : Nat) : Nat := leNat ((List.range n).map fun j => byteAt s (pa + j))

/-- Operand k of an element of a micro-command: its address. -/
def opAt (e : Nat × List (Nat × Lay)) (k : Nat) : Nat := ((e.2)[k]?.map (·.1)).getD 0

/-- The elements of a micro-command as the dispatcher makes them: plain lines; elements of one burst of DST side by side in every
operand; no element writes where another one reads or writes. -/
def MicroOk (s : State) (r : BitVec 512) (es : List (Nat × List (Nat × Lay))) : Prop :=
  let sz := elemBytes r
  let near (a b : Nat) : Prop := a < b + sz ∧ b < a + sz
  (∀ e ∈ es, e.2.length = (seamOperands r).length ∧
    (∀ o ∈ e.2, inHbm o.1 = true ∧ o.1 % sz = 0 ∧ o.2.raw = false ∧ o.2.cz = false ∧ s.tagOf (o.1 / 128) = 0) ∧
    (recCmd r = 5 → ¬ near (opAt e 0) (opAt e 2))) ∧
  (∀ (i : Nat) e f, es[i]? = some e → es[i + 1]? = some f → opAt e 0 / 32 = opAt f 0 / 32 →
    ∀ k, k < e.2.length → opAt f k = opAt e k + sz) ∧
  ∀ (i j : Nat) e f, es[i]? = some e → es[j]? = some f → i ≠ j → ∀ k, k < e.2.length →
    ¬ near (opAt e k) (opAt f 0) ∧ (recCmd r = 5 → ¬ near (opAt e k) (opAt f 2))

/-- The 32-byte burst of an address. -/
def burstAt (pa : Nat) : Nat := pa / 32 * 32

/-- Element j is the first one of its burst. -/
def Leads (es : List (Nat × List (Nat × Lay))) (j : Nat) : Prop :=
  ∀ i e f, j = i + 1 → es[i]? = some e → es[j]? = some f → burstAt (opAt e 0) ≠ burstAt (opAt f 0)

/-- Operand k of the first element of a burst, element n, meets an uncorrectable error; the bursts before read none, and write
nothing where it stands (R321). -/
def ErrorAt (s : State) (r : BitVec 512) (es : List (Nat × List (Nat × Lay))) (n : Nat) (e : Nat × List (Nat × Lay)) (k : Nat) : Prop :=
  es[n]? = some e ∧ k < e.2.length ∧ Leads es n ∧ (s.badAt (burstAt (opAt e k))).failing = true ∧
  ∀ j f, j < n → es[j]? = some f →
    burstAt (opAt f 0) ≠ burstAt (opAt e k) ∧ (recCmd r = 5 → burstAt (opAt f 2) ≠ burstAt (opAt e k)) ∧
    (Leads es j → ∀ q, q < f.2.length → s.badAt (burstAt (opAt f q)) = Bad.clean)

/-- One micro-command fewer: the last one ends the command with its status word (R319, R322). -/
def microEnds (s : State) (c : Cmd) (fail : Option (Nat × Nat × Nat)) : State :=
  let d := { c with micro := c.micro - 1, fails := c.fails ++ fail.toList }
  if d.micro = 0 then endsWith s .seam d (seamStatus d.fails) [] else s.setCmd .seam d

/-! Collectives (R350 to R355). -/

noncomputable def collRows : List ((Nat → Nat → Instr) × Nat) := [(.allred, 1), (.redscat, 2), (.allgath, 3), (.bcast, 4)]

/-- The bytes of pieces of physical memory, and where they lie. -/
def placesOf (ps : List Piece) : List Nat := ps.flatMap fun p => (List.range p.2.2).map (p.1 + ·)

/-- A commands' source as elements. -/
def sourceOf (s : State) (c : Cmd) : List Nat :=
  let sz := if recN c.image 44 1 % 16 = 9 then 2 else 4
  let bs := (placesOf c.src).map (byteAt s)
  (List.range (bs.length / sz)).map fun i => leNat ((bs.drop (sz * i)).take sz)

/-- Elements combined in rank order, each step rounded to FP32, a BF16 result once more (R351). -/
def reduced (r : BitVec 512) (xs : List Nat) : Nat :=
  let bf := recN r 44 1 % 16 = 9
  let f : Fmt := if recN r 44 1 % 16 = 2 then .i32 else .fp32
  let op : Iop := match recN r 45 1 with
    | 2 => .max
    | 3 => .min
    | _ => .add
  match xs.map fun x => if bf then x * 2 ^ 16 else x with
  | [] => 0
  | x :: t =>
    let v := t.foldl (combined op f ⟨0, false, .rne, recFlag r 0⟩) x
    if bf then rounded .bf16 ⟨0, false, .rne, recFlag r 0⟩ (fval .fp32 v) else v

/-- What the destination of the rank of image r receives, from every rank's source in rank order (R351). -/
def received (r : BitVec 512) (xs : List (List Nat)) : List Byte :=
  let n := recN r 56 6
  let sz := if recN r 44 1 % 16 = 9 then 2 else 4
  let col (i : Nat) : Nat := reduced r (xs.map fun x => x.getD i 0)
  (match recCmd r with
   | 1 => (List.range n).map col
   | 2 => (List.range n).map fun i => col (recN r 46 1 * n + i)
   | 3 => xs.flatten
   | _ => xs.headD []).flatMap (leBytes sz)

/-- GROUP and SEQ. -/
def tagsOfColl (c : Cmd) : BitVec 32 × BitVec 32 := (BitVec.ofNat 32 (recN c.image 48 4), BitVec.ofNat 32 (recN c.image 52 4))

/-- A die that keeps a cancel for a command to come, once for each GROUP and SEQ: 256, the oldest dropped and counted (R353). -/
def withCancel (x : Die) (t : BitVec 32 × BitVec 32) : Die :=
  if t ∈ x.cancels then x
  else if 256 ≤ x.cancels.length then { x with cancels := x.cancels.tail ++ [t], errors := x.errors + 1 }
  else { x with cancels := x.cancels ++ [t] }

/-- The commands in progress with the tags of a rank 0 that exchange signatures with it: those of the dies its table names, and those
whose table names its die as rank 0's (R352). -/
def peersOf (s : State) (z : Cmd) : List Cmd :=
  (s.dies.map (·.1)).flatMap fun d => (s.collAt d (tagsOfColl z).1 (tagsOfColl z).2).filter fun c =>
    (z.table.map tableDie).contains d || tableDie (c.table.headD 0) == dieOf z.ctx

/-- The ranks 0 that a command in progress exchanges signatures with: the commands of RANK 0, and those of a die that the table of a
command in progress names as rank 0's. -/
def zerosOf (s : State) (c : Cmd) : List Cmd :=
  let all := (s.dies.map (·.1)).flatMap fun d => s.collAt d (tagsOfColl c).1 (tagsOfColl c).2
  all.filter fun z =>
    (recN z.image 46 1 == 0 || all.any fun d => tableDie (d.table.headD 0) == dieOf z.ctx) && (peersOf s z).contains c

/-- Die of rank j (R350). -/
def dieOfRank (table : List Nat) (j : Nat) : Nat := 4 * (table.getD j 0 / 4) + table.getD j 0 % 4

/-- Every earlier command of the context has begun (R129). -/
def CollMay (s : State) (c : Cmd) : Prop :=
  ∀ d ∈ s.engine c.ctx .coll, d.ctx = c.ctx → d.serial < c.serial → d.started = true

/-- What an address meets in the tables of a command's context, with its code (R267, R353, R355): 1, no valid leaf; 2, a leaf without
the right that is needed, or with an aperture that the access does not admit; 3, a granule pinned to another session. -/
def fateOf (s : State) (c : Cmd) (n : Need) (ap0 : Bool) (va : Nat) : Nat :=
  match s.walk (pkgOf c.ctx) c.root (va % 2 ^ 72) with
  | .error _ => 1
  | .ok l =>
    let pa := resolve (some c.ctx) l.pa
    if (n.rd = true ∧ l.w0.testBit 2 = false) ∨ (n.wr = true ∧ l.w0.testBit 3 = false) ∨ (ap0 = true ∧ l.ap ≠ 0) then 2
    else if (s.leafMiss (pkgOf c.ctx) c.root l pa n (if ap0 then .atomic else .plain)).isSome then 2
    else if pa / 2 ^ 46 = pkgOf c.ctx ∧ s.pinAt pa ≠ 0 ∧ s.pinAt pa ≠ c.session then 3
    else 0

/-- An address meets that code, 0 for none, and its translation at most wakes pseudo-channels. -/
def Meets (s : State) (c : Cmd) (n : Need) (ap0 : Bool) (va : Nat) (code : Nat) : Prop :=
  ∀ cs, ∃ cs' o, (engAt c ap0 va n).run { s with chans := cs } = (o, { s with chans := cs' }) ∧
    (code = 0 → ∃ l, o = .ok l) ∧ (code ≠ 0 → o = .error code)

/-- The first byte of each granule of n bytes from va. -/
def heads (va n : Nat) : List Nat := ((List.range n).filter fun j => decide (j = 0 ∨ (va + j) % 4096 = 0)).map (va + ·)

/-- The operands of a rank, granule by granule, source before destination (R353). -/
def spotsOf (r : BitVec 512) : List (Nat × Need) :=
  (heads (recN r 8 9) (collSrcBytes r)).map (·, Need.read) ++ (heads (recN r 17 9) (collDstBytes r)).map (·, Need.write)

/-- A rank ends with a code before data moves, and cancels go to every other die its table names and can reach (R353). -/
def rankFails (s : State) (c : Cmd) (table : List Nat) (code : Nat) : State :=
  let me := dieOf c.ctx
  ((table.map tableDie).dedup.filter fun d => d != me && s.listed (me / 4) (d / 4) && !(s.pkgAt (d / 4)).silent).foldl
    (fun t d => t.sendCancel me d (tagsOfColl c).1 (tagsOfColl c).2) (endsWith s .coll { c with table := table } (halves 0 code) [])

/-! Expert dispatch (R356 to R362). -/

/-- Every earlier command of the context has started. -/
def DispMay (s : State) (c : Cmd) : Prop :=
  ∀ d ∈ s.engine c.ctx .disp, d.ctx = c.ctx → d.serial < c.serial → d.started = true

/-- SEND: the row leaves for a zone of a die (R358), to another package in a frame of a port (log 31: which port). -/
def rowLeaves (s : State) (c : Cmd) (d z : Nat) : State :=
  let r := c.image
  let me := dieOf c.ctx
  let row := (spanOf s c (recN r 8 9) (recN r 44 4)).map (byteAt s)
  let f : Flight := ⟨d, z, recN r 32 4, BitVec.ofNat 32 (recN r 40 4), recN r 44 4, row, decide (d / 4 = me / 4)⟩
  let t := s.setCmd .disp { c with started := true, flight := some f }
  if d / 4 = me / 4 then t
  else
    let from_ := 4 * (me / 4) + d % 4
    let p := t.portFor from_
    let n := tabGet 0 (t.pkgAt (me / 4)).numbered p
    (t.onPkg (me / 4) fun x => { x with numbered := tabSet 0 x.numbered p (n + 1) }).onDie from_ fun x =>
      { x with sent := x.sent ++ [⟨d, p, n, tabGet 0 x.ordered d, .row c.serial, 1, false⟩],
               ordered := tabSet 0 x.ordered d (tabGet 0 x.ordered d + 1) }

/-- A zone, and a zone replaced. -/
def zoneOf (s : State) (d z : Nat) : Zone := tabGet Zone.reset (s.dieAt d).zones z
def withZone (s : State) (d z : Nat) (v : Zone) : State :=
  s.onDie d fun x => { x with zones := tabSet Zone.reset x.zones z v }

/-- The difference of two 32-bit numbers, signed. -/
def ahead (a b : Nat) : Int := (BitVec.ofNat 32 a - BitVec.ofNat 32 b).toInt

/-- A row is a duplicate of one that has landed, or lies 4,096 or more behind (R359). -/
def Seen (w : Nat × List Nat) (seq : Nat) : Prop :=
  w ≠ (2 ^ 32, []) ∧ ¬ 0 < ahead seq w.1 ∧ (ahead seq w.1 ≤ -4096 ∨ seq ∈ w.2)

/-- The window after a row that is none (R359). -/
def windowAfter (w : Nat × List Nat) (seq : Nat) : Nat × List Nat :=
  if w = (2 ^ 32, []) then (seq, [seq])
  else if 0 < ahead seq w.1 then (seq, seq :: w.2.filter fun m => decide ((BitVec.ofNat 32 seq - BitVec.ofNat 32 m).toNat < 4096))
  else (w.1, seq :: w.2)

end Sys2Proof.Machine

/-- R314 to R319, R321, R322 (SADD, SAXPY, SSCAL, SUPD, SMOM, SFILL, SCPY, SEAM_MICRO_COMMAND): the first element that meets a condition
ends the command, with nothing sent; else each bank gets its elements; the bank computes every element from the values before,
writes them and nothing else; at the first burst that meets an uncorrectable error it stops with CODE 4, the bursts before it written,
and its bank is cancelled for the task; or, cancelled for an earlier error of the task, it does nothing.
Model's choices it rests on: logs 2 (DESIGN CHOICE), 44 (DEDUCED: a command with N = 0 ends with CODE 0). -/
def Obligations.SeamCommands : Prop :=
  (∀ p ∈ seamRows, ∀ (s : State) (die i : Nat) (c : Cmd) (chk : SeamCheck), Stands (s.dieAt die).seam i c p.2 →
    (∀ d ∈ s.engine c.ctx .seam, d.ctx = c.ctx → d.serial < c.serial → d.started = true) → SeamChecked s c chk →
    let is := selectedOf c.image chk
    let banks := (is.filterMap (dstBankOf chk)).dedup
    exec (p.1 die i) s = .next (match is.find? fun i => decide (codesOf c.image chk i ≠ []) with
      | some i => endsWith s .seam c (BitVec.ofNat 64 (i * 2 ^ 40 + ((codesOf c.image chk i).min?).getD 0)) []
      | none =>
        if banks = [] then endsWith s .seam c 0 []
        else banks.foldl (fun t b => wakes (t.onDie b.1 fun x =>
            let m : Micro := ⟨c.serial, (is.filter fun i => dstBankOf chk i == some b).map fun i =>
              (i, (leavesOf c.image chk i).map fun l => (l.pa, l.lay))⟩
            { x with micro := tabSet [] x.micro b.2 (tabGet [] x.micro b.2 ++ [m]) }) ((3 * b.1 + b.2 % 192 / 64) * 64 + b.2 % 64))
          (s.setCmd .seam { c with started := true, micro := banks.length }))) ∧
  ∀ (s : State) (die bank : Nat) (m : Micro) (rest : List Micro) (c : Cmd), tabGet [] (s.dieAt die).micro bank = m :: rest →
    let s1 := s.onDie die fun x => { x with micro := tabSet [] x.micro bank rest }
    s1.seamBySerial die m.serial = some c →
    let code := (3 * (die % 4) + bank % 192 / 64) * 4096 + bank % 192 % 64 * 64 + bank / 192
    (code ∈ (s1.seamLog c).banks → exec (.seamMicroCommand die bank) s =
      .next (microEnds s1 c (some (code, 5, (m.elems.headD (0, [])).1)))) ∧
    let sz := elemBytes c.image
    let new (e : Nat × List (Nat × Lay)) : Nat × Nat :=
      seamNew c.image (valueAt s (opAt e 0) sz) (valueAt s (opAt e 1) sz) (valueAt s (opAt e 2) sz)
    let In (a pa : Nat) : Prop := pa ≤ a ∧ a < pa + sz
    -- these elements are performed in u, and no other byte is written
    let Performed (u : State) (es : List (Nat × List (Nat × Lay))) : Prop := MemoryOnly s1 u ∧
      (∀ e ∈ es, valueAt u (opAt e 0) sz = (new e).1 ∧ (recCmd c.image = 5 → valueAt u (opAt e 2) sz = (new e).2)) ∧
      ∀ a, (∀ e ∈ es, ¬ In a (opAt e 0) ∧ (recCmd c.image = 5 → ¬ In a (opAt e 2))) → byteAt u a = byteAt s a
    (code ∉ (s1.seamLog c).banks → badRecord .seam c.image = none → MicroOk s c.image m.elems →
      (EngQuiet s → ∃ u, Performed u m.elems ∧ exec (.seamMicroCommand die bank) s = .next (microEnds u c none)) ∧
      ∀ n e k, EngQuiet { s with bad := [] } → ErrorAt s c.image m.elems n e k → ∃ u, Performed u (m.elems.take n) ∧
        exec (.seamMicroCommand die bank) s =
          .next (microEnds (u.onSeamLog c fun l => { l with banks := code :: l.banks }) c (some (code, 4, e.1))))

/-- R350 to R354 (ALLRED, REDSCAT, ALLGATH, BCAST, COLL_CANCEL): a rank starts after the earlier ones of its context, and checks its
table's read, what the table says, and its operands, each condition with its CODE; it waits for the others; the last one moves the
data of all, reductions in rank order; a rank that was cancelled, fails, or finds its GROUP and SEQ in use ends; ranks that differ all
end, one not yet issued by a cancel that is kept; a cancel that comes before its command is kept.
Model's choices it rests on: log 35 (DEDUCED). -/
def Obligations.Collectives : Prop :=
  (∀ (s : State) (c : Cmd) (n : Need) (ap0 : Bool) (va : Nat), s.bad = [] →
    let o := ((engAt c ap0 va n).run s).1
    (fateOf s c n ap0 va = 0 → ∃ l, o = .ok l) ∧ (fateOf s c n ap0 va ≠ 0 → o = .error (fateOf s c n ap0 va))) ∧
  (∀ p ∈ collRows, ∀ (s : State) (die i : Nat) (c : Cmd), Stands (s.dieAt die).coll i c p.2 → dieOf c.ctx = die →
    (¬ CollMay s c → exec (p.1 die i) s = .next s) ∧
    (CollMay s c →
    let tags := tagsOfColl c
    let ta := recN c.image 26 9
    let nr := recN c.image 47 1 + 1
    (tags ∉ (s.dieAt die).cancels → EngQuiet s →
      (∀ a0 code, a0 ∈ heads ta nr → code ≠ 0 → Meets s c Need.read false a0 code →
        (∀ a ∈ heads ta nr, ∃ k, Meets s c Need.read false a k ∧ (k = 0 ∨ code ≤ k)) →
        ∃ cs, exec (p.1 die i) s = .next (rankFails { s with chans := cs } c [] code)) ∧
      (AllMapped s (fun _ => False) c Need.read ta nr →
        let table := (spanOf s c ta nr).map fun a => (byteAt s a).toNat
        let dies := table.map tableDie
        let Fails (code : Nat) : Prop := ∃ cs, exec (p.1 die i) s = .next (rankFails { s with chans := cs } c table code)
        let Odd : Prop := ¬ dies.Nodup ∨ dies.getD (recN c.image 46 1) 0 ≠ die
        let Foreign : Prop := ∃ d ∈ dies, s.listed (die / 4) (d / 4) = false
        (Odd → Fails 6) ∧ (¬ Odd → Foreign → Fails 7) ∧
        (¬ Odd → ¬ Foreign →
          (∀ pre a n post code, spotsOf c.image = pre ++ (a, n) :: post → code ≠ 0 → Meets s c n true a code →
            (∀ q ∈ pre, Meets s c q.2 true q.1 0) → Fails code) ∧
          ((∀ q ∈ spotsOf c.image, Meets s c q.2 true q.1 0) → ∃ src dst cs, (collCheck c).run s =
            (.ok (table, src, dst, if ∃ d ∈ dies, (s.pkgAt (d / 4)).silent = true ∨ (s.dieAt d).down = true then 7 else 0),
              { s with chans := cs }))))) ∧
    (tags ∈ (s.dieAt die).cancels → exec (p.1 die i) s = .next (endsWith
      (s.onDie die fun x => { x with cancels := x.cancels.erase tags }) .coll c (halves 0 6) [])) ∧
    ∀ (table : List Nat) (src dst : List Piece) (code : Nat) (s0 : State), tags ∉ (s.dieAt die).cancels →
    (collCheck c).run s = (.ok (table, src, dst, code), s0) →
    let n := recN c.image 47 1 + 1
    let c1 := { c with started := true, table := table, src := src, dst := dst }
    let s1 := s0.setCmd .coll c1
    let twins := s0.collAt die tags.1 tags.2
    (code ≠ 0 → exec (p.1 die i) s = .next (rankFails s0 c table code)) ∧
    (code = 0 → twins ≠ [] → exec (p.1 die i) s = .next
      ((c1 :: twins).foldl (fun u e => endsWith u .coll e (halves 0 6) []) s0)) ∧
    (code = 0 → twins = [] → zerosOf s1 c1 = [] → exec (p.1 die i) s = .next s1) ∧
    (∀ z pre post, code = 0 → twins = [] → zerosOf s1 c1 = pre ++ z :: post →
      (∀ y ∈ pre, ∀ e ∈ peersOf s1 y, sameCollective e y = true) → (∃ e ∈ peersOf s1 z, sameCollective e z = false) →
      exec (p.1 die i) s = .next
        (((z.table.map tableDie).filter fun d => s1.collAt d tags.1 tags.2 == []).foldl (fun t d => t.onDie d (withCancel · tags))
          ((peersOf s1 z).foldl (fun t e => endsWith t .coll e (halves 0 6) []) s1))) ∧
    ∀ R : Nat → Cmd, code = 0 → twins = [] → table.length = n → (s1.dies.map (·.1)).Nodup →
      (∀ d, (∀ k, k < n → d ≠ dieOfRank table k) → s1.collAt d tags.1 tags.2 = []) →
      ((List.range n).map (dieOfRank table)).Nodup → (∃ k, k < n ∧ dieOfRank table k = die) →
      (∀ k, k < n → recN (R k).image 46 1 = k ∧ sameCollective (R k) (R 0) = true ∧ (R k).table = table) →
      (∀ k, k < n → k ≠ 0 → s1.collAt (dieOfRank table k) tags.1 tags.2 = [] ∨ s1.collAt (dieOfRank table k) tags.1 tags.2 = [R k]) →
      s1.collAt (dieOfRank table 0) tags.1 tags.2 = [R 0] →
      ((∃ k, k < n ∧ s1.collAt (dieOfRank table k) tags.1 tags.2 = []) → exec (p.1 die i) s = .next s1) ∧
      (EngQuiet s0 → (∀ k, k < n → s1.collAt (dieOfRank table k) tags.1 tags.2 = [R k] ∧
          (∀ q ∈ (R k).src ++ (R k).dst, q.2.1.raw = false ∧ InOne q.1 q.2.2) ∧
          ((R k).src.map (·.2.2)).sum = collSrcBytes (R k).image ∧ ((R k).dst.map (·.2.2)).sum = collDstBytes (R k).image) →
        ∃ u, MemoryOnly s1 u ∧
          exec (p.1 die i) s = .next ((List.range n).foldl (fun t k => endsWith t .coll (R k) (halves 0 0) []) u) ∧
          ∀ a, byteAt u a = (List.range n).foldl (fun f k =>
            putAt (placesOf (R k).dst) (received (R k).image ((List.range n).map fun j => sourceOf s0 (R j))) f) (byteAt s0) a))) ∧
  ∀ (s : State) (die : Nat) (g q : BitVec 32),
    let box := s.onDie die fun x => { x with cancelBox := x.cancelBox.erase (g, q) }
    let open_ := (box.dieAt die).coll.find? fun c => decide (c.result = none ∧ tagsOfColl c = (g, q))
    ((g, q) ∉ (s.dieAt die).cancelBox → exec (.collCancel die g q) s = .next s) ∧
    ((g, q) ∈ (s.dieAt die).cancelBox → exec (.collCancel die g q) s = .next (match open_ with
      | some c => endsWith box .coll c (halves 0 6) []
      | none => box.onDie die (withCancel · (g, q))))

/-- R356 to R361 (SEND, LAND, LZSET, ZSTAT, RTSET): a row past the capacity is dropped; another leaves for its zone, a replica's by
ActiveIndex; a zone takes a row once, in its slot, and counts it, a duplicate or a refusal; a zone is armed whole; its counts are
reported.
Model's choices it rests on: logs 5 (DESIGN CHOICE), 31 (DESIGN CHOICE), 36 (DEDUCED). -/
def Obligations.ExpertDispatch : Prop :=
  (∀ (s : State) (die i : Nat) (c : Cmd), dieOf c.ctx = die → DispMay s c →
    let r := c.image
    let No (_ : Nat) : Prop := False
    let ends (t : State) (w : Nat) : State := endsWith t .disp c (BitVec.ofNat 64 w) []
    (Stands (s.dieAt die).disp i c 1 →
      let x := (s.dieAt die).replica
      let Away (d : Nat) : Prop := s.listed (pkgOf c.ctx) (d / 4) = true ∧ (d / 4 = pkgOf c.ctx ∨ (s.pkgAt (d / 4)).silent = false)
      let RowSeen : Prop := EngQuiet s ∧ AllMapped s No c Need.read (recN r 8 9) (recN r 44 4)
      let direct := 4 * recN r 26 1 + recN r 27 1
      let entry (b : Cmd) : Nat :=
        leNat ((spanOf s b ((if x.active then x.t1 else x.t0).toNat + 4 * recN r 28 2) 4).map (byteAt s))
      (recN r 36 4 ≤ recN r 32 4 → exec (.send die i) s = .next (ends s (2 ^ 8))) ∧
      (recN r 32 4 < recN r 36 4 → recFlag r 0 = false →
        (Away direct → RowSeen → ∃ cs, exec (.send die i) s = .next (rowLeaves { s with chans := cs } c direct (recN r 28 2))) ∧
        (¬ Away direct → exec (.send die i) s = .next (ends s 7))) ∧
      (recN r 32 4 < recN r 36 4 → recFlag r 0 = true →
        (x.bound = true → x.active ≠ recFlag r 1 → exec (.send die i) s = .next s) ∧
        (x.bound = false → x.cmd = none → exec (.send die i) s = .next (ends s 10)) ∧
        ∀ b, x.cmd = some b → x.active = recFlag r 1 →
          (x.nent ≤ recN r 28 2 → exec (.send die i) s = .next (ends s 9)) ∧
          (recN r 28 2 < x.nent → EngQuiet s →
            AllMapped s No b Need.read ((if x.active then x.t1 else x.t0).toNat + 4 * recN r 28 2) 4 →
            (2 ^ 16 ≤ entry b → ∃ cs, exec (.send die i) s = .next (ends { s with chans := cs } 11)) ∧
            (entry b < 2 ^ 16 → let d := 4 * (entry b % 256 / 4) + entry b % 256 % 4
              Away d → RowSeen → ∃ cs, exec (.send die i) s = .next (rowLeaves { s with chans := cs } c d (entry b / 256)))))) ∧
    (Stands (s.dieAt die).disp i c 2 → let n := recN r 36 4 * recN r 44 4
      AllMapped s No c Need.write (recN r 8 9) n → BytesOk s → (∀ g, (tabGet Ctx.reset s.ctxs g).watchctl = 0) →
      ∃ ps cs, placesOf ps = spanOf s c (recN r 8 9) n ∧ exec (.lzset die i) s = .next (ends (withZone { s with chans := cs } die (recN r 28 2)
        { cap := recN r 36 4, rowb := recN r 44 4, base := recN r 8 9, frames := ps, landed := 0, dups := 0, refused := 0,
          windows := [], armed := true }) 0)) ∧
    (Stands (s.dieAt die).disp i c 3 → EngQuiet s → let z := zoneOf s die (recN r 28 2)
      let bs := leBytes 4 z.landed ++ leBytes 4 z.dups ++ leBytes 4 z.refused ++ List.replicate 4 0
      AllMapped s (· ∈ spanOf s c (recN r 17 9) 16) c Need.write (recN r 17 9) 16 → ∃ u, MemoryOnly s u ∧
        exec (.zstat die i) s = .next (ends u 0) ∧ ∀ a, byteAt u a = putAt (spanOf s c (recN r 17 9) 16) bs (byteAt s) a) ∧
    (Stands (s.dieAt die).disp i c 4 → exec (.rtset die i) s = .next (ends s 0))) ∧
  ∀ (s : State) (die i : Nat) (c : Cmd) (f : Flight), (s.dieAt die).disp[i]? = some c → c.flight = some f → c.result = none →
    let z := zoneOf s f.die f.zone
    let ends (t : State) (w : Nat) : State := endsWith t .disp { c with flight := none } (BitVec.ofNat 64 w) []
    let w := tabGet (2 ^ 32, []) z.windows (dieOf c.ctx)
    let slot := ((placesOf z.frames).drop (f.slot * z.rowb)).take f.rowb
    let Takes : Prop := z.armed = true ∧ f.slot < z.cap ∧ f.rowb = z.rowb
    (f.arrived = false → exec (.land die i) s = .next s) ∧
    (f.arrived = true →
      (¬ Takes → exec (.land die i) s = .next (ends (withZone s f.die f.zone { z with refused := z.refused + 1 }) 9)) ∧
      (Takes → Seen w f.seq.toNat →
        exec (.land die i) s = .next (ends (withZone s f.die f.zone { z with dups := z.dups + 1 }) (2 ^ 9))) ∧
      (Takes → ¬ Seen w f.seq.toNat → EngQuiet s → f.bytes.length = f.rowb → slot.length = f.rowb →
        (∀ q ∈ z.frames, q.2.1.raw = false ∧ InOne q.1 q.2.2 ∧ ∀ j, j < q.2.2 → (s.place (q.1 + j)).isMem = true) →
        ∃ u, MemoryOnly s u ∧ exec (.land die i) s = .next (ends (withZone u f.die f.zone { z with
            landed := z.landed + 1, windows := tabSet (2 ^ 32, []) z.windows (dieOf c.ctx) (windowAfter w f.seq.toNat) }) 0) ∧
          ∀ a, byteAt u a = putAt slot f.bytes (byteAt s) a))

namespace Sys2Proof.Machine

/-! Context switch (R239, R240). -/

/-- The tables of memory, contexts, dies and packages are in canonical form: an invariant (StepKeepsInvariant). -/
def TablesOk (s : State) : Prop :=
  s.MemOk ∧ tabWf 0 s.tags = true ∧ tabWf Ctx.reset s.ctxs = true ∧ tabWf Die.reset s.dies = true ∧ tabWf Pkg.reset s.pkgs = true

/-- n bytes of vector type as one number. -/
def bigAt (s : State) (pa n : Nat) : Nat := leNat ((List.range n).map fun j => byteAt s (pa + j))

/-- A CSR's doubleword of a record (R240). -/
def savedCsr (s : State) (pa : Nat) (r : Csr) : Word := BitVec.ofNat 64 (bigAt s (pa + 0x100 + 8 * (Csr.code r).toNat) 8)

/-- The bits of a CSR that a record restores; none of those that the machine keeps itself, nor of STAT, MXCTL and LGRANT, whose
fields are restored one by one (R239). -/
def restoredBits : Csr → Word
  | .ctl => 0xF
  | .detw => 0x7F
  | .deadln => 0xFFFFFFFFFFFFFFFF
  | .prio => 3
  | .session => 0xFFFFFFFF
  | r => csrBits r

/-- No fixed-latency result is pending at the slot of the oldest instruction, nor at the SCU's next one ahead of it (R109). -/
def Settled (c : Ctx) : Prop := c.pending = [] ∧ ∀ a, c.ahead = some a → a.pending = []

/-- May the task in hand be interrupted for an asynchronous cause (R109, R144, R167, R181, R223)? -/
def Interruptible (c : Ctx) : Prop :=
  c.status = .bound ∧ c.hnd = false ∧ Settled c ∧
  ((c.wait = .none ∧ c.ahead = none) ∨ c.wait = .wfe ∨ c.wait = .vjoin ∨ c.wait = .lanes ∨ c.wait = .going ∨
    (∃ e q, c.wait = .engine e q) ∨ (∃ p o, c.wait = .clasp p o false) ∨ ∃ qs, c.wait = .drain qs)

/-- A PROGRESS that is due is kept: in handler mode, over a pending result, in a hold, and where the oldest instruction is one that an
asynchronous cause waits for: a claspa that has arrived (R261), a bfence that waits (R320), another that has had a part of its effect,
and a vector memory instruction, which stops for it itself (R210; log 22). -/
def Kept (s : State) : Prop :=
  let w := s.c.wait
  s.c.status ≠ .bound ∨ s.c.hnd = true ∨ ¬ Settled s.c ∨ s.c.held = true ∨ (∃ p o, w = .clasp p o true) ∨ w = .vfence ∨ w = .seam ∨
  w = .assay ∨ (∃ q, w = .fence q) ∨ w = .port ∨ (w = .begun ∧ s.pointAt.2 = .fmsk)

/-- The machine as an array instruction between two strips leaves it to a switch-out: lanes that have returned are shared again (R235,
R237). -/
def atStripEnd (s : State) : State := if s.c.wait = .going ∧ s.pointAt.2 = .scnt then regained s else s

/-- u holds the record of the context in hand of s at pa (R240): every part of it, x0 and m0 as zeros. -/
def Recorded (s u : State) (pa : Nat) : Prop :=
  (∀ r : XReg, bigAt u (pa + 8 * r.val) 8 = if r = 0 then 0 else (s.c.x[r]).toNat) ∧
  (∀ r : Csr, savedCsr u pa r = s.csr r) ∧
  (∀ r : MReg, bigAt u (pa + 0x800 + 512 * r.val) 512 = if r = 0 then 0 else (s.c.m[r]).toNat) ∧
  (∀ r : DReg, (List.range 128).map (fun j => byteAt u (pa + 0x1800 + 128 * r.val + j)) = Desc.image s.c.d[r]) ∧
  (∀ l, l < 64 → let t := tabGet LaneState.idle s.c.lanes l
    bigAt u (pa + 0x2000 + 8 * l) 8 = t.lpc.toNat / 8 * 8 + t.run.toNat) ∧
  bigAt u (pa + 0x2200) 8 = s.c.pc.toNat ∧
  bigAt u (pa + 0x2208) 8 = s.c.thr.toNat + 2 * s.c.held.toNat ∧
  (∀ k : Fin 6, bigAt u (pa + 0x2210 + 8 * k.val) 8 = (s.c.counts[k]).toNat) ∧
  (∀ r : VReg, bigAt u (pa + 0x4000 + 512 * r.val) 512 = (s.c.v[r]).toNat) ∧
  ∀ i l, s.c.lines[i]? = some l → bigAt u (pa + 0x28600 + 16 * i) 8 = (l.pa + 1) % 2 ^ 64 ∧
    bigAt u (pa + 0x28608 + 16 * i) 8 = l.sel.toNat ∧
    ∀ j, j < 64 → byteAt u (pa + 0x30000 + 64 * i + j) = if l.sel.getLsbD j then l.bytes.extractLsb' (8 * j) 8 else 0

/-- The context c holds what the record at pa of s says, and what the task table kept (R239, R240; logs 15, 25). -/
def Restored (s t : State) (o : OutTask) : Prop :=
  let pa := o.task.save
  let added := o.added
  let grant := savedCsr s pa .lgrant
  let lifts : Prop := grant.toNat % 128 ≠ 64 ∧ grant.getLsbD 23 = false ∧ o.taker = none
  let n := o.lineTags.length
  t.c.cap.toNat = grant.toNat % 128 ∧ (lifts → t.c.next = 64 ∧ t.c.pend = true) ∧
  (¬ lifts → t.c.next.toNat = grant.toNat / 2 ^ 16 % 128 ∧ t.c.pend = grant.getLsbD 23) ∧
  t.c.lanesHeld = o.lanesHeld ∧ t.c.lanesBack = decide (o.lanesHeld ≠ 0) ∧ t.c.taker = o.taker ∧
  t.c.asked.progress = o.progress ∧ t.c.asked.preempt = false ∧ t.c.ept = o.ept ∧ t.c.event = o.event ∧ t.c.lost = o.lost ∧ t.c.epoch = o.epoch ∧
  t.c.paged = o.paged ∧ t.c.vbad = o.vbad ∧
  ((∀ i, i < n → bigAt s (pa + 0x28600 + 16 * i) 8 % 2 = 1) → t.c.lines.length = n ∧
    ∀ i lay id, o.lineTags[i]? = some (lay, id) → t.c.lines[i]? = some (HeldLine.mk (bigAt s (pa + 0x28600 + 16 * i) 8 % 2 ^ 52 / 64 * 64)
      (BitVec.ofNat 512 (bigAt s (pa + 0x30000 + 64 * i) 64)) (BitVec.ofNat 64 (bigAt s (pa + 0x28608 + 16 * i) 8)) lay id)) ∧
  (∀ r : XReg, t.c.x[r] = BitVec.ofNat 64 (bigAt s (pa + 8 * r.val) 8)) ∧
  (∀ r : Csr, restoredBits r ≠ 0 → t.csr r = savedCsr s pa r &&& restoredBits r) ∧
  t.c.hnd = (savedCsr s pa .stat).getLsbD 2 ∧ t.c.vlive = (savedCsr s pa .stat).getLsbD 5 ∧
  t.c.mxen = (savedCsr s pa .mxctl).getLsbD 0 ∧
  (∀ r : MReg, t.c.m[r] = BitVec.ofNat 4096 (bigAt s (pa + 0x800 + 512 * r.val) 512)) ∧
  (∀ r : DReg, ∀ d, Desc.ofImage ((List.range 128).map fun j => byteAt s (pa + 0x1800 + 128 * r.val + j)) = some d → t.c.d[r] = d) ∧
  t.c.pc = BitVec.ofNat 64 (bigAt s (pa + 0x2200) 8) ∧
  t.c.thr = (BitVec.ofNat 64 (bigAt s (pa + 0x2208) 8)).getLsbD 0 ∧
  t.c.held = (BitVec.ofNat 64 (bigAt s (pa + 0x2208) 8)).getLsbD 1 ∧
  (∀ k : Fin 6, t.c.counts[k] = BitVec.ofNat 64 (bigAt s (pa + 0x2210 + 8 * k.val) 8) + added[k]) ∧
  ∀ r : VReg, t.c.v[r] = BitVec.ofNat 4096 (bigAt s (pa + 0x4000 + 512 * r.val) 512)

/-- An answer matches a request not yet answered of context g (R212). -/
def Matches (s : State) (g : Nat) (gen : BitVec 16) : Prop :=
  (∃ d ∈ s.dies, ∃ r ∈ d.2.requests, r.ctx = g ∧ r.gen = gen) ∧ (s.ctxAt g).gen = gen

/-- A task of this context waits for the answer to its request, in the context. -/
def Awaits (c : Ctx) : Prop :=
  (c.asking = true ∨ c.held = true) ∧ (c.status = .bound ∨ c.status = .frozen ∨ c.status = .drain)

/-- s once the context in hand, held, has its answer: it goes on, or takes HPAGE (R212). -/
def answered (s : State) (fail : Bool) (no : BitVec 16) : State :=
  let free := { s with c := { s.c with held := false, answer := none } }
  if fail = true then free.pointAt.1.raise (free.hpage no) else free

/-! Launching (R278 to R291). -/

/-- The completion record of R289: 32 bytes. -/
def completionBytes (n : BitVec 32) (q : BitVec 512) (dig fire done : Word) (status : BitVec 8) (miss late : Bool)
    (frozen : Nat) : List Byte :=
  let phase := n.toNat / 2 ^ (q.toNat / 2 ^ 384 % 32) % 2 = 0
  leBytes 8 dig.toNat ++ leBytes 8 fire.toNat ++ leBytes 8 done.toNat ++
    [status, BitVec.ofNat 8 ((if miss then 1 else 0) + (if late then 2 else 0) + if phase then 128 else 0)] ++
    leBytes 2 (min frozen 65535) ++ leBytes 4 0

/-- A record refused with 0xFD for its own bytes (R284). -/
def RecordBad (r q : BitVec 512) : Prop :=
  recN r 23 1 / 8 ≠ 0 ∨ recN r 25 3 ≠ 0 ∨ recN r 23 1 % 4 = 3 ∨ recN r 23 1 % 4 < recN q 40 8 % 4 ∨ 64 < recN r 24 1 ∨
  65536 < recN r 20 2 + recN r 18 2 + 1 ∨ recN r 0 9 % 8 ≠ 0

/-- The record at the head of a queue, as the device reads it (R279). -/
def headRecord (s : State) (die q : Nat) : BitVec 512 :=
  let h := s.queueAt die q
  BitVec.ofNat 512 (bigAt s (recN h.image 48 8 % 2 ^ 52 / 64 * 64 + 64 * (h.head.toNat % 2 ^ (h.image.toNat / 2 ^ 384 % 32))) 64)

/-- HEAD past its record. -/
def pastHead (s : State) (die q : Nat) : State :=
  s.putQueue die q { s.queueAt die q with head := (s.queueAt die q).head + 1 }

/-- x3 of a task: DIGID, or the number the device assigns (R282). -/
def digNumber (die q : Nat) (n : BitVec 32) (r : BitVec 512) : Word :=
  if recN r 48 8 = 0 then BitVec.ofNat 64 (die % 4 * 2 ^ 62 + q * 2 ^ 48 + n.toNat) else BitVec.ofNat 64 (recN r 48 8)

/-- Members and stages of a crew (R281). -/
def stagesOf (r : BitVec 512) : Nat := recN r 22 1 / 16 + 1
def tasksOf (r : BitVec 512) : Nat := (recN r 22 1 % 16 + 1) * stagesOf r

/-- The context of task j of the next crew of a record as it starts in context g (R4, R286): every register not named at its reset
value; the generation and the charge are the context's (R212, R242). -/
def Starts (c old : Ctx) (l : Launch) (g j : Nat) : Prop :=
  let r := l.image
  let q := l.qctx
  let w (n : Nat) : Word := BitVec.ofNat 64 n
  let crew := recN r 20 2 + l.placed
  ∃ t : Task, t.dig = l.dig ∧ t.queue = l.queue ∧ t.n = l.n ∧ t.crew = crew ∧ t.member = j / stagesOf r ∧ t.stage = j % stagesOf r ∧
    t.began = false ∧ ∃ x : Vector Word 32,
    x[1] = w (recN r 9 9) ∧ x[2] = w (crew + j / stagesOf r * 2 ^ 16 + j % stagesOf r * 2 ^ 20 + g / 512 % 4 * 2 ^ 24 + g / 2048 * 2 ^ 26) ∧
    x[3] = l.dig ∧ x[4] = 0x100000000 ∧ x[5] = 0x200000000 ∧ x[6] = 0x300000000 ∧
    (∀ i : XReg, i = 0 ∨ 6 < i → x[i] = 0) ∧
    c = { Ctx.reset with
      status := .bound
      gen := old.gen
      charge := old.charge
      x := x
      pc := w (recN r 0 9)
      vah := BitVec.ofNat 8 (recN r 0 9 / 2 ^ 64)
      det := (recN r 23 1).testBit 2
      detw := BitVec.ofNat 7 (recN r 24 1)
      session := BitVec.ofNat 32 (recN r 28 4)
      deadln := w (recN r 32 8)
      prio := BitVec.ofNat 2 (recN r 23 1)
      ptroot := w (recN q 0 8) &&& 0x000FFFFFFFFF0000#64
      asid := BitVec.ofNat 16 (recN q 0 2)
      tvec := w (recN q 8 8) &&& ~~~7#64
      tsp := w (recN q 16 8 + recN q 24 4 * (g % 4)) &&& ~~~15#64
      dlwin := w (recN q 32 8)
      task := some t }

end Sys2Proof.Machine

/-- R239, R240, R223, R231, R212, R233 (SWITCH_OUT, SWITCH_IN, PAGE_ANSWER, PROGRESS, WATCH_EVENT_DELIVERY): the save record of a task
switched out, its results pending and its spilled entries in it, and the context OUT, with the lanes it had reclaimed to be given
back; the registers of a task switched in; a matched answer ends a hold or raises HPAGE, another is counted; the timer and a watch
event raise their traps where the task may be interrupted, and PROGRESS stays due until it may.
Model's choices it rests on: logs 4 (DESIGN CHOICE: the registers of a context that is OUT), 15 (DESIGN CHOICE), 16 (DEDUCED), 22
(DEDUCED), 25 (DEDUCED), 38 (DEDUCED: a record's writes raise no watch event). -/
def Obligations.ContextSwitching : Prop :=
  (∀ (s : State) (t : Task), s.c.task = some t → Interruptible s.c → s.c.asked.preempt = true →
    (s.c.held = true ∨ (s.c.asked.progress = none ∧ s.c.event = none)) → (s.c.wait = .going → s.c.pend = false) →
    s.c.lines.length ≤ 1024 → RecordAt t.save → s.bad = [] → TablesOk s → BytesOk s →
    let r := atStripEnd s
    let kept := r.flush.reload r.c.cap.toNat 64
    ∃ u, exec .switchOut s = .next u ∧ u.c = { Ctx.reset with status := .out, gen := s.c.gen, charge := s.c.charge } ∧
      Recorded kept u t.save ∧ u.k = s.k ∧
      (u.dieAt s.die).out = (s.dieAt s.die).out.map (open Classical in if Borrows r.c then loosed s.here else id) ++ [kept.keepTask t] ∧
      (∀ g, g ≠ s.here → u.ctxAt g = open Classical in if Borrows r.c then lifted s.here g (s.ctxAt g) else s.ctxAt g) ∧
      ∀ a, ¬ (t.save ≤ a ∧ a < t.save + 0x8000) → ¬ (t.save + 0x28500 ≤ a ∧ a < t.save + 0x40000) → byteAt u a = byteAt s a) ∧
  (∀ s : State, s.c.asked.preempt = false ∨ ¬ Interruptible s.c ∨
    (s.c.held = false ∧ (s.c.asked.progress ≠ none ∨ s.c.event ≠ none)) → exec .switchOut s = .next s) ∧
  (∀ (s : State) (o : OutTask) (l r : List OutTask), (s.dieAt s.die).out = l ++ o :: r → o.ctx = s.here → (∀ p ∈ l, p.ctx ≠ s.here) →
    s.c.status = .out ∨ s.c.status = .free → s.reserved s.here = false → RecordAt o.task.save → s.bad = [] → BytesOk s →
    ∃ d c cs, let t := ({ s with c := c, chans := cs }).onDie s.die fun x => { x with out := d }
      (o.answer = none ∨ c.held = false → exec .switchIn s = .next t) ∧
      (∀ fail no, o.answer = some (fail, no) → c.held = true → exec .switchIn s = .next (answered t fail no)) ∧ d = l ++ r ∧
      c.status = .bound ∧ c.task = some o.task ∧ c.gen = s.c.gen ∧ c.charge = s.c.charge ∧ c.assay = o.assay ∧ c.seam = o.seam ∧ c.answer = o.answer ∧
      Restored s { s with c := c } o) ∧
  (∀ (s : State) (gen : BitVec 16) (fail : Bool) (no : BitVec 16), (s.pkgAt s.pkg).linkUp = true →
    let s1 := { s with dies := tabMap Die.reset (fun x =>
      { x with requests := x.requests.filter fun r => !(r.ctx == s.here && r.gen == gen) }) s.dies }
    let a := (fail || no != 0, no)
    (Matches s s.here gen → s.c.status = .bound → s.c.held = true → exec (.pageAnswer s.here gen fail no) s = .next
      (answered s1 a.1 no)) ∧
    (Matches s s.here gen → Awaits s.c → ¬ (s.c.status = .bound ∧ s.c.held = true) → exec (.pageAnswer s.here gen fail no) s = .next
      { s1 with c := { s1.c with answer := some a } }) ∧
    (Matches s s.here gen → s.c.status = .out → exec (.pageAnswer s.here gen fail no) s = .next (s1.onDie s.die fun x => { x with
      out := x.out.map fun o => if o.ctx = s.here ∧ o.gen = gen then { o with answer := some a } else o })) ∧
    (¬ (Matches s s.here gen ∧ (Awaits s.c ∨ s.c.status = .out)) → exec (.pageAnswer s.here gen fail no) s =
      .next ((s1.onDie s.die fun x => { x with lateans := if x.lateans = 0xFFFFFFFF then x.lateans else x.lateans + 1 }).count
        s.pkg .lateAnswer s.die 1))) ∧
  ∀ (s : State) (p : Stall) (q : Queue) (u : Where), let d := s.c.asked.progress.getD p
    queueUnit d.queue = some (q, u) →
    let at_ := s.c.status = .bound ∧ s.c.held = false ∧ (∀ c o b, s.c.wait ≠ .clasp c o b) ∧ s.c.queues.isEmpty q = false ∧
      s.c.eptlim ≠ 0 ∧ s.c.eptlim.toNat * 1024 ≤ s.c.ept
    let due := s.c.asked.progress ≠ none ∨ at_
    (¬ due → exec (.progress p) s = .next s) ∧
    (due → Kept s → exec (.progress p) s = .next { s with c := { s.c with asked := { s.c.asked with progress := some d } } }) ∧
    (due → ¬ Kept s →
      let t := { s with c := { s.c with
        ept := 0, asked := { s.c.asked with progress := none }, eptport := BitVec.ofNat 16 (d.kind.val * 4096 + d.index.toNat) } }
      ∃ a e, exec (.progress p) s = .next (t.pointAt.1.raise
          { cause := .progress, detail := BitVec.ofNat 56 (d.queue.val * 2 ^ 52), addr := a, unit := u, elem := e, async := true,
            point := t.pointAt.2 }) ∧
        -- an access of the SCU's has its own address; of an instruction with more the row has it
        (∀ rd ra b, (∃ w ∈ loadRows, t.atPc.2 = some (w.1 rd ra b)) ∨ (∃ w ∈ storeRows, t.atPc.2 = some (w.1 rd ra b)) →
          a = xOf t ra + bOf t b ∧ e = some (0, 0)) ∧
        (∀ o, (∃ w ∈ amoRows, t.atPc.2 = some (w.1 o)) → a = xOf t o.ra ∧ e = some (0, 0)) ∧
        ∀ o w, t.atPc.2 = some (.vld o) ∨ t.atPc.2 = some (.vst w) → a = d.va ∧ e = some (BitVec.ofNat 3 d.reg.val, d.idx)) ∧
    ∀ e, s.c.event = some e →
      (¬ Interruptible s.c ∨ s.c.held = true ∨ s.c.asked.progress ≠ none → exec .watchEventDelivery s = .next s) ∧
      (Interruptible s.c → s.c.held = false → s.c.asked.progress = none → let t := { s with c := { s.c with event := none, lost := 0 } }
        exec .watchEventDelivery s = .next
        (t.pointAt.1.raise
          { cause := .watch, detail := BitVec.ofNat 56 (e.detail.toNat * 2 ^ 52), addr := BitVec.ofNat 64 e.start, unit := .agent,
            async := true, point := t.pointAt.2, record := leBytes 8 e.pa ++ [e.cls] ++ leBytes 2 e.agent.toNat ++ [e.kind] ++
              leBytes 4 s.c.lost.toNat ++ List.replicate 48 0 }))

/-- R279, R284 to R291, R4 (LAUNCH_RECORD_READ, RECORD_FIRE, PREP_RESERVATION, CREW_PLACEMENT, RCWIN_EXPIRY): a record is read, refused
with its status or kept; it fires at its START; a crew is bound whole, each task with the registers R286 gives; the completion
record; a victim that reaches no grant point is to be switched out,
but none of class 0. A record keeps the PREP and the save pool it was read under.
Model's choices it rests on: logs 4 (DESIGN CHOICE: a task's other registers), 19 (DEDUCED), 21 (DEDUCED), 42 (DEDUCED). -/
def Obligations.Launching : Prop :=
  (∀ (s : State) (die q : Nat), let h := s.queueAt die q
    let r := headRecord s die q
    let tick := (s.dieAt die).tick
    let pa := recN h.image 48 8 % 2 ^ 52 / 64 * 64 + 64 * (h.head.toNat % 2 ^ (h.image.toNat / 2 ^ 384 % 32))
    let x := s.dieAt die
    let w (late : Bool) : Waiting := ⟨q, h.head, r, h.image, x.prep, x.era, [], 0, late, false⟩
    let open_ := (s.pkgAt (die / 4)).boot = .running ∧ (s.dieAt die).down = false ∧ h.set = true
    let free := ∀ v ∈ (s.dieAt die).waiting, v.queue ≠ q
    (¬ (open_ ∧ free ∧ h.head ≠ h.tail) → exec (.launchRecordRead die q) s = .next s) ∧
    (open_ → free → h.head ≠ h.tail → s.bad = [] → s.chans = [] → BytesOk s → (s.place pa).isMem = true → InOne pa 64 →
      (RecordBad r h.image → exec (.launchRecordRead die q) s =
        .next (pastHead (s.completionRecord die h.head r h.image (digNumber die q h.head r) tick 0xFD false 0) die q)) ∧
      ∀ t, (∀ st, s.launchStatus die r h.image = (t, some st) → exec (.launchRecordRead die q) s =
          .next (pastHead (t.completionRecord die h.head r h.image (digNumber die q h.head r) (t.dieAt die).tick st false 0) die q)) ∧
        (s.launchStatus die r h.image = (t, none) → exec (.launchRecordRead die q) s = .next (t.onDie die fun x => { x with
          waiting := x.waiting ++ [w (decide (recN r 40 8 ≠ 0 ∧ recN r 40 8 < tick.toNat))] })))) ∧
  (∀ (s : State) (die q : Nat) (w : Waiting), s.waitingOf die q = some w → w.queue = q → w.reserved = [] →
    let h := s.queueAt die q
    let open_ := (s.pkgAt (die / 4)).boot = .running ∧ (s.dieAt die).down = false ∧ h.set = true
    let due := recN w.image 40 8 = 0 ∨ recN w.image 40 8 ≤ (s.dieAt die).tick.toNat
    let s1 := pastHead (s.onDie die fun x => { x with waiting := x.waiting.filter (·.queue != q) }) die q
    (¬ (open_ ∧ due) → exec (.recordFire die q) s = .next s) ∧
    (open_ → due → w.ended = true → exec (.recordFire die q) s = .next (s1.completionRecord die w.n w.image w.qctx
      (digNumber die q w.n w.image) (s1.dieAt die).tick 0xFE w.late 0)) ∧
    (open_ → due → w.ended = false → exec (.recordFire die q) s = .next (s1.onDie die fun x => { x with launches := x.launches ++
      [⟨q, w.n, w.image, w.qctx, w.era, digNumber die q w.n w.image, (s.dieAt die).tick, 0, 0, 0, 0, [], w.late⟩] }))) ∧
  (∀ (s : State) (die q : Nat) (places : List Nat) (w : Waiting), s.waitingOf die q = some w →
    let x := s.dieAt die
    let start := recN w.image 40 8
    let may := w.ended = false ∧ s.queueOpen die q = true ∧ x.tick.toNat < start ∧ start ≤ x.tick.toNat + w.prep ∧
      w.reserved.length ≤ recN w.image 18 2 ∧
      s.placesOk die w.image w.qctx (s.takesFor die w.image w.qctx true) places = true
    (¬ may → exec (.prepReservation die q places) s = .next s) ∧
    (may → recN w.image 56 8 = 0 → exec (.prepReservation die q places) s = .next (s.onDie die fun y => { y with
      waiting := y.waiting.map fun v => if v.queue = q then { v with reserved := v.reserved ++ [places], images := 0 } else v }))) ∧
  (∀ (s : State) (die q crew : Nat) (places : List Nat) (l : Launch), s.nextLaunch die = some l →
    let ok := l.queue = q ∧ recN l.image 20 2 + l.placed = crew ∧
      s.placesOk die l.image l.qctx (s.takesFor die l.image l.qctx (decide (recN l.image 23 1 % 4 = 0))) places = true
    (¬ ok → exec (.crewPlacement die q crew places) s = .next s) ∧
    (ok → recN l.image 56 8 = 0 → (∀ m ∈ (s.dieAt die).launches, m.queue = l.queue → m.n = l.n → m = l) →
      (((s.dieAt die).pool.filter (·.era == l.era)).map (·.pa)).Nodup → ∃ t,
      exec (.crewPlacement die q crew places) s = .next t ∧ t.mem = s.mem ∧ t.here = s.here ∧ t.k = s.k ∧
      (∀ j g, places[j]? = some g → Starts (t.ctxAt g) (s.ctxAt g) l g j) ∧
      (∀ g, g ∉ places → t.ctxAt g = s.ctxAt g) ∧
      ∃ m ∈ (t.dieAt die).launches, m.queue = l.queue ∧ m.n = l.n ∧ m.placed = l.placed + 1 ∧
        m.live = l.live + tasksOf l.image ∧ m.saves.length = l.saves.length + tasksOf l.image)) ∧
  (∀ (s : State) (die : Nat) (n : BitVec 32) (image q : BitVec 512) (dig fire : Word) (st : BitVec 8) (late : Bool) (frozen : Nat),
    let at_ := recN q 56 8 % 2 ^ 52 / 32 * 32 + 32 * (n.toNat % 2 ^ (q.toNat / 2 ^ 384 % 32))
    let done := (s.dieAt die).tick
    let miss := decide (recN image 32 8 ≠ 0 ∧ recN image 32 8 < done.toNat)
    s.bad = [] → BytesOk s → (s.place at_).isMem = true → InOne at_ 32 → ∃ u,
      MemoryOnly (if miss then s.count (die / 4) .deadlineMiss die 1 else s) u ∧
      s.completionRecord die n image q dig fire st late frozen = u ∧
      ∀ a, byteAt u a = if at_ ≤ a ∧ a < at_ + 32 then (completionBytes n q dig fire done st miss late frozen).getD (a - at_) 0
        else byteAt s a) ∧
  ∀ (s : State) (g : Nat), let c := s.ctxAt g
    (¬ (c.status = .bound ∧ c.pend = true ∧ c.next.toNat < c.cap.toNat ∧ c.prio ≠ 0) →
      exec (.rcwinExpiry g) s = .next (s.onCtx g id)) ∧
    (c.status = .bound → c.pend = true → c.next.toNat < c.cap.toNat → c.prio ≠ 0 → exec (.rcwinExpiry g) s = .next (s.onCtx g fun c =>
      { c with asked := { c.asked with preempt := true }, next := c.cap, pend := false, taker := none }))

namespace Sys2Proof.Machine

/-! The die supervisor, the package and the fabric. -/

/-- The package has come up and its host link works (R329, R333). -/
def Up (s : State) (pkg : Nat) : Prop := (s.pkgAt pkg).boot = .running ∧ (s.pkgAt pkg).linkUp = true

/-- s with a message sent to the host. -/
def told (s : State) (m : HostMsg) : State := { s with host := m :: s.host }

/-- exec answers t where the package is up, and s unchanged where it is not. -/
def WhenUp (o : Out) (s : State) (pkg : Nat) (t : State) : Prop := (Up s pkg → o = .next t) ∧ (¬ Up s pkg → o = .next s)

/-- A queue context that names another package (R278). -/
def ForeignQueue (pkg : Nat) (q : BitVec 512) : Prop :=
  recN q 0 8 % 2 ^ 52 / 2 ^ 46 ≠ pkg ∨ recN q 48 8 % 2 ^ 52 / 2 ^ 46 ≠ pkg ∨ recN q 56 8 % 2 ^ 52 / 2 ^ 46 ≠ pkg

/-- Every byte of a range stands in memory of one kind; no error and no watch anywhere. -/
def PlainRange (s : State) (pa n : Nat) : Prop :=
  EngQuiet s ∧ InOne pa n ∧ ∀ j, j < n → (s.place (pa + j)).isMem = true

/-- The bytes of a range. -/
def rangeOf (s : State) (pa n : Nat) : List Byte := (List.range n).map fun j => byteAt s (pa + j)

/-- t is s with these bytes at pa. -/
def Holds (s t : State) (pa : Nat) (bs : List Byte) : Prop :=
  MemoryOnly s t ∧ ∀ a, byteAt t a = if pa ≤ a ∧ a < pa + bs.length then bs.getD (a - pa) 0 else byteAt s a

/-- Nothing of a package but its flash holds anything: memory reads zero, every context is at reset, the dies that fail are out of
service (R336, R341). -/
def Cleared (s t : State) (pkg : Nat) (failed : BitVec 4) : Prop :=
  (∀ a, byteAt t a = if a / 2 ^ 46 = pkg then 0 else byteAt s a) ∧
  (∀ g, t.ctxAt g = if g / 2048 = pkg then Ctx.reset else s.ctxAt g) ∧
  (∀ d, d / 4 = pkg → t.dieAt d = { Die.reset with down := failed.getLsbD (d % 4) }) ∧ t.here = s.here ∧ t.host = s.host

/-- What the image of time and Ethernet firmware configures: at most 64 packages of the domain (R343, R346). -/
def configuredBy (p : Pkg) (i : Firmware) : Pkg := if i.target = 6 then { p with map := i.map.take 64, ptpDomain := i.ptpDomain } else p

/-- The row of a supervisor leaves a context alone: but for a watch event of its writes, and a lift of a cap whose lanes return. -/
def LeftAlone (c d : Ctx) : Prop := ∃ e n nx p tk, d = { c with event := e, lost := n, next := nx, pend := p, taker := tk }

/-- The most refreshes that a bank of a pseudo-channel owes (R308). -/
def mostOwed (s : State) (chan : Nat) : Nat := ((tabGet Chan.reset s.chans chan).owed.map (·.2)).foldr max 0

/-- s after a CONFIGURE of a queue context: a TAIL more than the new ring ahead of HEAD is cut to it, and counted (R278, R279). -/
def queueGiven (s : State) (die q : Nat) (image : BitVec 512) : State :=
  let h := { s.queueAt die q with set := true, image := image }
  let size := 2 ^ (image.toNat / 2 ^ 384 % 32)
  if size < (h.tail - h.head).toNat then
    (s.putQueue die q { h with tail := h.head + BitVec.ofNat 32 size }).onDie die fun x => { x with errors := x.errors + 1 }
  else s.putQueue die q h

/-- A count of the lifetime histograms one higher, not past 32 bits (R341). -/
def counted (s : State) (pkg : Nat) (c : Count) (u : Nat) : State :=
  let key := c.code * 2 ^ 60 + u
  s.onPkg pkg fun p => { p with since := tabSet 0 p.since key (min (2 ^ 32 - 1) (tabGet 0 p.since key + 1)) }

/-- Bank refreshes owed (R308). -/
def owedOf (s : State) (chan : Nat) (bank : Fin 64) : Nat := tabGet 0 (tabGet Chan.reset s.chans chan).owed bank.val

def withChan (s : State) (chan : Nat) (f : Chan → Chan) : State :=
  { s with chans := tabSet Chan.reset s.chans chan (f (tabGet Chan.reset s.chans chan)) }

/-- What an error b leaves once the supervisor has read its location again: nothing where the retry succeeds, else a lasting error; an
error that no read has met stands (R340). -/
def Retried (b : Bad) (l : List Bad) : Prop :=
  let fails : Prop := b.lasting = true ∨ b.poison = true ∨ b.left ≠ some 0
  (b.erred = none → l = [b]) ∧ (b.erred ≠ none → fails → l = [{ b with lasting := true }]) ∧ (b.erred ≠ none → ¬ fails → l = [])

/-- Software's idle fields of PWRCTL for a pseudo-channel: PDIDLE and SRIDLE (R303, R307). -/
def idleOf (s : State) (chan lo : Nat) : Nat :=
  (((s.dieAt (chan / 64 / 3)).pwrctl)[(Fin.ofNat 3 (chan / 64 % 3) : Fin 3)]).toNat / 2 ^ lo % 2 ^ 16

/-- A micro-command waits in a bank of the pseudo-channel. -/
def Waiting4 (s : State) (chan : Nat) : Prop :=
  ∃ e ∈ (s.dieAt (chan / 64 / 3)).micro, e.1 % 192 = chan % 192 ∧ e.2 ≠ []

end Sys2Proof.Machine

/-- R54, R230, R259, R271, R272, R278, R298, R299, R333, R340 (INVALIDATE_TRANSLATIONS, RELEASE_SESSION, CONFIGURE, END_DIG,
END_FROZEN_TASK, LANE_RETIREMENT, CORE_SUBSTITUTION, DIE_LEAVES_SERVICE, SUPERVISOR_REREAD): what each service leaves; what END_DIG
and END_FROZEN_TASK leave alone; the retry of a read that failed, and how it classes the error.
Model's choices it rests on: logs 4 (DESIGN CHOICE: the registers of a freed context), 7 (DESIGN CHOICE), 20 (DEDUCED), 26 (DEDUCED),
42 (DEDUCED: CONFIGURE takes effect in its own row), 48 (DESIGN CHOICE: row groups). -/
def Obligations.SupervisorServices : Prop :=
  (∀ (s : State) (die lo hi : Nat) (asid : Option (BitVec 16)) (session : BitVec 32), let pkg := die / 4
    WhenUp (exec (.invalidateTranslations die asid lo hi) s) s pkg (told s .ack) ∧
    WhenUp (exec (.releaseSession die session) s) s pkg (told ((List.range 8).foldl (fun t c => t.onCluster (8 * die + c) fun x =>
      { x with pins := x.pins.filter fun e => e.2 != session }) s) .ack) ∧
    (∀ q image, ¬ ForeignQueue pkg image → WhenUp (exec (.configure (.queue die q image)) s) s pkg
      (told (queueGiven s die q image) .ack)) ∧
    (∀ q image, ForeignQueue pkg image → WhenUp (exec (.configure (.queue die q image)) s) s pkg (told s .refused)) ∧
    (∀ n, WhenUp (exec (.configure (.prep die n)) s) s pkg (told (s.onDie die fun x => { x with prep := n }) .ack) ∧
      WhenUp (exec (.configure (.rcwin die n)) s) s pkg (told (s.onDie die fun x => { x with rcwin := n }) .ack)) ∧
    ∀ recs, WhenUp (exec (.configure (.savePool die recs)) s) s pkg (told (s.onDie die fun x =>
      let eras := x.waiting.map (·.era) ++ x.launches.map (·.era)
      { x with
        era := x.era + 1
        pool := x.pool.filter (fun r => eras.contains r.era) ++
          recs.map fun r => ⟨r.1, r.2, x.launches.any fun l => l.saves.contains r.1, x.era + 1⟩ }) .ack)) ∧
  (∀ (s : State) (die : Nat) (dig : Word), TablesOk s → (∀ c ∈ (s.dieAt die).coll, c.ctx / 512 = die) →
    (¬ Up s (die / 4) → exec (.endDig die dig) s = .next s) ∧
    (Up s (die / 4) → ∃ t, exec (.endDig die dig) s = .next (told t .ack) ∧
      (∀ j, j < 512 → ∀ k, (t.ctxAt (512 * die + j)).task = some k → k.dig = dig →
        (t.ctxAt (512 * die + j)).status ≠ .bound ∧ (t.ctxAt (512 * die + j)).status ≠ .frozen) ∧
      (∀ o ∈ (t.dieAt die).out, 512 * die ≤ o.ctx → o.ctx < 512 * die + 512 → o.task.dig ≠ dig) ∧
      (∀ w ∈ (t.dieAt die).waiting, digNumber die w.queue w.n w.image = dig → w.ended = true ∧ w.reserved = []) ∧
      (let x := t.dieAt die
       x = { s.dieAt die with waiting := x.waiting, launches := x.launches, out := x.out, pool := x.pool, coll := x.coll }) ∧
      (∀ d, d ≠ die → t.dieAt d = s.dieAt d) ∧ t.here = s.here ∧ t.host = s.host ∧
      ∀ g, g / 512 ≠ die ∨ ((∀ k, (s.ctxAt g).task = some k → k.dig ≠ dig) ∧
        ∀ o ∈ (s.dieAt die).out, o.ctx = g → o.task.dig ≠ dig) → LeftAlone (s.ctxAt g) (t.ctxAt g))) ∧
  (∀ (s : State) (g : Nat), TablesOk s →
    ((s.ctxAt g).status ≠ .frozen → exec (.endFrozenTask g) s = .next s) ∧
    ((s.ctxAt g).status = .frozen → ∃ t, exec (.endFrozenTask g) s = .next t ∧
      t.ctxAt g = { Ctx.reset with gen := (s.ctxAt g).gen + 1, charge := (s.ctxAt g).charge } ∧
      (let x := t.dieAt (g / 512)
       x = { s.dieAt (g / 512) with
        launches := x.launches, pool := x.pool
        out := (s.dieAt (g / 512)).out.map (open Classical in if Borrows (s.ctxAt g) then loosed g else id) }) ∧
      (∀ d, d ≠ g / 512 → t.dieAt d = s.dieAt d) ∧ t.here = s.here ∧ t.host = s.host ∧
      ∀ h, h ≠ g → LeftAlone (s.ctxAt h) (t.ctxAt h))) ∧
  (∀ (s : State) (core : Nat) (lane : Fin 64), let k := s.coreAt core
    let held := s.tasksIn (4 * core) 4 ≠ []
    (held → k.lmap.getLsbD lane.val = true → lane ∉ k.retiring → exec (.laneRetirement core lane) s = .next (s.putCore core
      { k with closed := true, retiring := k.retiring ++ [lane] })) ∧
    (¬ held → k.lmap.getLsbD lane.val = true → k.retiring = [] → k.replacing = false →
      let u := s.putCore core { k with closed := true, retiring := [lane] }
      exec (.laneRetirement core lane) s = .next
        ((counted u (core / 512) .laneRetired (2048 * core + 64 * (k.phys / 16) + lane.val)).putCore core
          { k with lmap := k.lmap &&& ~~~(1#64 <<< lane.val), closed := false })) ∧
    (k.absent = true → exec (.coreSubstitution core) s = .next s) ∧
    (k.absent = false →
      let s1 := if k.replacing = true then s else counted s (core / 512) .lasting (2 ^ 52 + core)
      let u := s1.putCore core { k with closed := true, replacing := true }
      (held → exec (.coreSubstitution core) s = .next u) ∧
      (¬ held → k.retiring = [] →
        ((s.clusterAt (core / 16)).spareUsed = true → exec (.coreSubstitution core) s = .next (counted
          (u.putCore core { k with closed := false, replacing := false, absent := true }) (core / 512) .coreSwapped (2 ^ 40 + core))) ∧
        ((s.clusterAt (core / 16)).spareUsed = false →
          let v := (u.putCore core { Core.reset with phys := 16 }).onCluster (core / 16) fun x => { x with spareUsed := true }
          exec (.coreSubstitution core) s = .next (counted
            (({ v with bad := tabClear v.bad (tcmBase core) 0x100000 } : State).clearBytes (tcmBase core) 0x100000) (core / 512)
            .coreSwapped core))))) ∧
  (∀ (s : State) (die : Nat), TablesOk s →
    ((s.dieAt die).down = true → exec (.dieLeavesService die) s = .next s) ∧
    ((s.dieAt die).down = false → ∃ t, exec (.dieLeavesService die) s = .next (told t (.dieDown die)) ∧
      (let x := t.dieAt die
       x.down = true ∧ x.waiting = [] ∧ x.launches = [] ∧ x.out = [] ∧ x.dcopy = [] ∧ x.enc = [] ∧ x.seam = [] ∧ x.coll = [] ∧
       x.disp = [] ∧ x.requests = []) ∧
      (∀ j, j < 512 → (t.ctxAt (512 * die + j)).status = .free) ∧
      ∀ g, g / 512 ≠ die → t.ctxAt g = s.ctxAt g)) ∧
  (∀ (s : State) (pa : Nat), let u := pa - pa % (if inHbm pa then 32 else 8)
    let b := s.badAt u
    (b.erred = none → exec (.supervisorReread (.memory pa)) s = .next s) ∧
    ∀ lay, b.erred = some lay → ∃ cs,
      let k := errUnitAt lay u
      let left (b : Bad) : State := ({ s with chans := cs } : State).setBad u b
      (b.lasting = true → exec (.supervisorReread (.memory pa)) s = .next (left b)) ∧
      (b.lasting = false → b.poison = false → b.left = some 0 →
        exec (.supervisorReread (.memory pa)) s = .next (counted (left { b with erred := none }) k.pkg .transient k.key)) ∧
      (b.lasting = false → b.poison = true ∨ b.left ≠ some 0 →
        exec (.supervisorReread (.memory pa)) s = .next (counted (left { b with lasting := true }) k.pkg .lasting k.key))) ∧
  (∀ (s : State) (clu g : Nat), let b := tabGet Bad.clean (s.clusterAt clu).hallBad g
    let k := errUnitAt Lay.plain (spadBase clu + 4096 * g)
    (b.erred = none → exec (.supervisorReread (.hallmark clu g)) s = .next s) ∧
    (b.erred ≠ none → b.lasting = false → b.poison = false → b.left = some 0 → exec (.supervisorReread (.hallmark clu g)) s =
      .next (counted (withHall s clu g { b with erred := none }) k.pkg .transient k.key)) ∧
    (b.erred ≠ none → b.lasting = false → b.poison = true ∨ b.left ≠ some 0 → exec (.supervisorReread (.hallmark clu g)) s =
      .next (counted (withHall s clu g { b with lasting := true }) k.pkg .lasting k.key))) ∧
  ∀ (s : State) (b : Bad), TablesOk s → tabWf Core.reset s.cores = true → b ≠ Bad.clean →
    (∀ g r lane, let at_ (t : State) : List Bad := ((t.ctxAt g).vbad.filter (BadSlice.isAt r lane)).map (·.bad)
      at_ s = [b] → ∃ t, exec (.supervisorReread (.slice g r lane)) s = .next t ∧ Retried b (at_ t) ∧ t.mem = s.mem ∧ t.here = s.here) ∧
    ∀ k q row col, let at_ (t : State) : List Bad := ((t.coreAt k).tbad.filter (BadTile.isAt q row col)).map (·.bad)
      at_ s = [b] → ∃ t, exec (.supervisorReread (.tile k q row col)) s = .next t ∧ Retried b (at_ t) ∧ t.mem = s.mem ∧ t.here = s.here

/-- R307, R308, R329 to R341, R279 (BOOT, LOAD_FIRMWARE, the SPDM requests, SET_PLIMIT, READ_HISTOGRAMS, HOST_WRITE, HOST_READ,
HOST_LINK_DOWN, HOST_LINK_UP, POWER_FAILURE, POWER_CONTROL_TICK, HISTOGRAM_FLASH_WRITE, LINK_RETRAINING, PER_BANK_REFRESH,
ALERT_BACK_OFF, POWER_DOWN_ENTRY, SELF_REFRESH_ENTRY): what each leaves.
Model's choices it rests on: logs 17 (DEDUCED), 29 (DEDUCED: power-down, self-refresh and the flash write at any time), 30 (DEDUCED),
48 (DESIGN CHOICE). -/
def Obligations.PackageRows : Prop :=
  (∀ (s : State) (pkg : Nat) (imgs : List Firmware) (img : Firmware) (failed : BitVec 4), TablesOk s →
    let p := s.pkgAt pkg
    let Good (i : Firmware) : Prop := Config.ecdsaOk i = true ∧ Config.lmsOk i = true ∧ Config.fusedVersion pkg ≤ i.version
    let whole (l : List Firmware) : Prop := ∀ t, t < 7 → ∃ i ∈ l, i.target = t
    (p.boot = .running → exec (.boot pkg ⟨imgs, failed⟩) s = .next s) ∧
    (p.boot ≠ .running → (∀ i ∈ imgs, Good i) → whole imgs → ∃ t, exec (.boot pkg ⟨imgs, failed⟩) s = .next t ∧
      (t.pkgAt pkg).boot = .running ∧ (t.pkgAt pkg).hist = p.hist ∧ (t.pkgAt pkg).images = imgs.map (fun i => (i.target, i.digest)) ∧
      (t.pkgAt pkg).map = (imgs.foldl configuredBy p).map ∧
      (t.pkgAt pkg).ptpDomain = (imgs.foldl configuredBy p).ptpDomain ∧ Cleared s t pkg failed) ∧
    (p.boot ≠ .running → ((∃ i ∈ imgs, ¬ Good i) ∨ ¬ whole imgs) → ∃ l : List Firmware, exec (.boot pkg ⟨imgs, failed⟩) s =
      .next (s.onPkg pkg fun q => { l.foldl configuredBy q with
        boot := .recovery, images := l.map fun i => (i.target, i.digest) }) ∧ l.Sublist imgs ∧ ∀ i, i ∈ l ↔ i ∈ imgs ∧ Good i) ∧
    (p.boot = .off ∨ p.linkUp = false → exec (.loadFirmware pkg ⟨img, failed⟩) s = .next s) ∧
    (p.boot ≠ .off → p.linkUp = true → ¬ Good img → exec (.loadFirmware pkg ⟨img, failed⟩) s = .next (told s .refused)) ∧
    (Up s pkg → Good img → exec (.loadFirmware pkg ⟨img, failed⟩) s = .next (told s .ack)) ∧
    (p.boot = .recovery → p.linkUp = true → Good img →
      let v := p.images.filter (fun e => e.1 != img.target) ++ [(img.target, img.digest)]
      ((∃ k, k < 7 ∧ ∀ e ∈ v, e.1 ≠ k) → exec (.loadFirmware pkg ⟨img, failed⟩) s =
        .next (told (s.onPkg pkg fun q => { configuredBy q img with images := v }) .ack)) ∧
      ((∀ k, k < 7 → ∃ e ∈ v, e.1 = k) → ∃ t, exec (.loadFirmware pkg ⟨img, failed⟩) s = .next (told t .ack) ∧
        (t.pkgAt pkg).boot = .running ∧ (t.pkgAt pkg).images = v ∧ (t.pkgAt pkg).map = (configuredBy p img).map ∧
        Cleared s t pkg failed)) ∧
    (p.boot ≠ .off → p.linkUp = true →
      exec (.getVersion pkg) s = .next (told s (.version 1 3)) ∧ exec (.getCapabilities pkg) s = .next (told s .capabilities) ∧
      exec (.negotiateAlgorithms pkg) s = .next (told s (.algorithms [.ecdsaP384, .sha384])) ∧
      let blocks := p.images.map (·.2) ++ [Config.fusedDigest pkg]
      exec (.getMeasurements pkg) s = .next (told s (.measurements pkg blocks (Config.signMeasurements pkg blocks)))) ∧
    ∃ t, exec (.powerFailure pkg) s = .next t ∧ (t.pkgAt pkg).boot = .off ∧ (t.pkgAt pkg).hist = p.hist ∧ (t.pkgAt pkg).since = [] ∧
      Cleared s t pkg 0) ∧
  (∀ (s : State) (pkg watts : Nat), let p := s.pkgAt pkg
    (1500 ≤ watts → watts ≤ 3200 →
      WhenUp (exec (.setPlimit pkg watts) s) s pkg (told (s.onPkg pkg fun q => { q with plimit := watts }) .ack)) ∧
    (¬ (1500 ≤ watts ∧ watts ≤ 3200) → WhenUp (exec (.setPlimit pkg watts) s) s pkg (told s .refused)) ∧
    WhenUp (exec (.readHistograms pkg) s) s pkg (told s (.histograms pkg (mergeCounts p.hist p.since))) ∧
    exec (.histogramFlashWrite pkg) s =
      .next (s.onPkg pkg fun q => { q with hist := mergeCounts q.hist q.since, since := [] }) ∧
    exec (.hostLinkDown pkg) s = .next (s.onPkg pkg fun q => { q with linkUp := false }) ∧
    (TablesOk s → ∃ t, exec (.hostLinkUp pkg) s = .next t ∧ (t.pkgAt pkg).linkUp = true ∧ t.c = s.c ∧ t.mem = s.mem ∧
      ∀ d, d < 4 → (t.dieAt (4 * pkg + d)).requests = (s.dieAt (4 * pkg + d)).requests.map (fun r => { r with waiting := false }) ∧
        ∀ r ∈ (s.dieAt (4 * pkg + d)).requests, r.waiting = true →
          HostMsg.pageRequest r.ctx r.gen r.asid r.root r.entries ∈ t.host)) ∧
  (∀ (s : State) (pa n : Nat) (bs : List Byte), let pkg := pa / 2 ^ 46
    (¬ Up s pkg → exec (.hostWrite pa bs) s = .next s ∧ exec (.hostRead pa n) s = .next s) ∧
    (Up s pkg → PlainRange s pa bs.length → 0 < bs.length → ∃ t, Holds s t pa bs ∧ exec (.hostWrite pa bs) s = .next t) ∧
    (Up s pkg → PlainRange s pa n → ∃ cs, exec (.hostRead pa n) s = .next (told { s with chans := cs } (.readData (rangeOf s pa n)))) ∧
    (Up s pkg → (∃ j, j < n ∧ j % 4096 = 0 ∧ (s.place (pa - pa % 4096 + j)).isMem = false) → pa % 4096 = 0 →
      exec (.hostRead pa n) s = .next (told s .readFailed)) ∧
    ∀ d q, Up s pkg → s.place pa = .doorbell d q → q < 16384 → pa % 8 = 0 → bs.length = 8 →
      exec (.hostWrite pa bs) s = exec (.doorbell d q (BitVec.ofNat 64 (leNat bs))) s) ∧
  (∀ (s : State) (pkg watts : Nat) (temps : List Nat), let p := s.pkgAt pkg
    let high := p.plimit < watts ∨ ∃ t ∈ temps, 100 < t
    let low := watts * 100 < 95 * p.plimit ∧ ∀ t ∈ temps, t < 95
    let hot := 3200 < watts ∧ (s.dieAt (4 * pkg)).throttle = 7
    (p.boot ≠ .running → exec (.powerControlTick pkg watts temps) s = .next s) ∧
    (p.boot = .running → TablesOk s → ∃ t, exec (.powerControlTick pkg watts temps) s = .next t ∧
      ((∀ x ∈ temps, x < 115) → (hot → p.hotTime < 9990) →
        t = { s with dies := t.dies, pkgs := t.pkgs } ∧ (∀ q, q ≠ pkg → t.pkgAt q = s.pkgAt q) ∧
        (let q := t.pkgAt pkg
         q = { p with
          since := q.since, ticks := q.ticks
          overTime := open Classical in if high ∧ p.overTime ≠ 90 then p.overTime + 10 else 0
          underTime := open Classical in if low ∧ p.underTime ≠ 990 then p.underTime + 10 else 0
          hotTime := open Classical in if hot then p.hotTime + 10 else 0 }) ∧
        (∀ d, d / 4 ≠ pkg → t.dieAt d = s.dieAt d) ∧ ∀ d, d < 4 →
        let l := (s.dieAt (4 * pkg + d)).throttle
        t.dieAt (4 * pkg + d) = { s.dieAt (4 * pkg + d) with throttle :=
          if high ∧ p.overTime = 90 then (if l = 7 then 7 else l + 1)
          else if low ∧ p.underTime = 990 then (if l = 0 then 0 else l - 1) else l }) ∧
      ((∃ x ∈ temps, 115 ≤ x) ∨ (hot ∧ 9990 ≤ p.hotTime) → ∀ d, d < 4 → (t.dieAt (4 * pkg + d)).down = true))) ∧
  (∀ (s : State) (pkg d0 d1 m die p : Nat),
    let k := (min d0 d1 * 4 + max d0 d1) * 16 + m
    let n := min 2 (tabGet 0 (s.dieAt die).ports p + 1)
    let t := counted (s.onDie die fun x => { x with ports := tabSet 0 x.ports p n }) (die / 4) .lasting (5 * 2 ^ 52 + 4 * die + p)
    exec (.linkRetraining (.ucie pkg d0 d1 m) true) s = .next (counted s pkg .transient (2 ^ 54 + k)) ∧
    exec (.linkRetraining (.ucie pkg d0 d1 m) false) s = .next (counted (s.onPkg pkg fun q => { q with
      modules := tabSet 0 q.modules k (min 3 (tabGet 0 q.modules k + 1)) }) pkg .lasting (2 ^ 54 + k)) ∧
    exec (.linkRetraining (.port die p) true) s = .next (counted s (die / 4) .transient (5 * 2 ^ 52 + 4 * die + p)) ∧
    exec (.linkRetraining (.port die p) false) s = .next (if n = 2 then counted t (die / 4) .portDown (4 * die + p) else t)) ∧
  ∀ (s : State) (chan committed : Nat) (bank : Fin 64),
    let j : Fin 3 := Fin.ofNat 3 (chan / 64 % 3)
    let ref (t : State) (hi : Bool) : State := t.onDie (chan / 64 / 3) fun x => { x with refcnt := x.refcnt.set j (bumpRef x.refcnt[j] hi) }
    exec (.perBankRefresh chan bank) s =
      .next (withChan s chan fun c => { c with owed := tabSet 0 c.owed bank.val (owedOf s chan bank - 1) }) ∧
    (committed + 40 + (owedOf s chan bank + 1) * 190 ≤ 1800 → exec (.alertBackOff chan bank committed) s =
      .next (withChan (ref s true) chan fun c => { c with owed := tabSet 0 c.owed bank.val 0 })) ∧
    (1800 < committed + 40 + (owedOf s chan bank + 1) * 190 → let n := min 9 (mostOwed s chan + 1)
      exec (.alertBackOff chan bank committed) s =
      .next (counted (ref (withChan (ref s true) chan fun c => { c with owed := tabMap 0 (fun p => p - n) c.owed }) false)
        (chan / 768) .refreshDebt (chan / 64))) ∧
    exec (.powerDownEntry chan) s = .next (open Classical in
      if idleOf s chan 16 = 0 ∨ Waiting4 s chan ∨ (tabGet Chan.reset s.chans chan).power ≠ .active then s
      else withChan s chan fun c => { c with power := .powerDown }) ∧
    exec (.selfRefreshEntry chan) s = .next (open Classical in
      if idleOf s chan 32 = 0 ∨ Waiting4 s chan then s else withChan s chan fun c => { c with power := .selfRefresh })

namespace Sys2Proof.Machine

/-- The frame n of a port of f's sender to a die, unacknowledged (R342). -/
def sentTo (s : State) (die : Nat) (f : Frame) : Option Sent :=
  (s.dieAt f.src).sent.find? fun m => m.peer == die && m.port == f.port && m.seq == f.seq

/-- A DISP command whose row is the message has its row at the destination die. -/
def landed (n src : Nat) (c : Cmd) : Cmd :=
  if c.serial = n ∧ c.ctx / 2048 = src / 4 then { c with flight := c.flight.map fun w => { w with arrived := true } } else c

/-- Ports of rail 0 of a package, in service: where its clock listens (R346). -/
def Listens (s : State) (pkg port : Nat) : Prop := port < 4 ∧ tabGet 0 (s.dieAt (4 * pkg)).ports port ≠ 2

/-- The master that a clock follows: of the least data set heard where it listens, if less than its own (R346). -/
def BestHeard (s : State) (pkg : Nat) (m : Master) : Prop :=
  m ∈ (s.pkgAt pkg).heard ∧ Listens s pkg m.port ∧ m.data.toNat < (Config.clockData pkg).toNat ∧
    ∀ e ∈ (s.pkgAt pkg).heard, Listens s pkg e.port → m.data.toNat ≤ e.data.toNat

/-- The clock follows this sender, heard at this port. -/
def Follows (s : State) (pkg port : Nat) (sender : BitVec 80) : Prop :=
  ∃ m, s.master pkg = some m ∧ m.port = port ∧ m.sender = sender

/-- A clock takes a state, and the host hears of a change (R348, R349). -/
def clocked (s : State) (pkg : Nat) (c : Clock) (o : Int) : State :=
  let t := s.onPkg pkg fun p => { p with clock := c, offset := o }
  if (s.pkgAt pkg).clock = c then t else told t (.clock pkg c o)

/-- One more event in the error log of die 0. -/
def logged (s : State) (pkg : Nat) : State := s.onDie (4 * pkg) fun x => { x with errors := x.errors + 1 }

/-- TICK steps forward by n ns on every die of a package; the records it passes fire, late (R347 to R349). -/
def stepped (s : State) (pkg n : Nat) : State :=
  (List.range 4).foldl (fun t d => t.firePassed (4 * pkg + d) (s.dieAt (4 * pkg + d)).tick.toNat)
    (logged ((List.range 4).foldl (fun t d => t.onDie (4 * pkg + d) fun x => { x with tick := x.tick + BitVec.ofNat 64 n }) s) pkg)

/-- No port hears a master any more: a locked clock holds over, counted in the error log and the histogram (R348, R363). -/
def masterLost (s : State) (pkg : Nat) : State :=
  if (s.pkgAt pkg).clock ≠ .locked then s
  else counted ((logged (clocked s pkg .holdover (s.pkgAt pkg).offset) pkg).onPkg pkg fun p => { p with slew := 0 }) pkg .fabric 64

/-- s once a package has been heard from: it answers (R363, R365). -/
def heardFrom (s : State) (pkg : Nat) : State :=
  if (s.pkgAt pkg).silent = true then s.onPkg pkg fun p => { p with silent := false } else s

/-- The domain map of package p names package q; a package without a map is alone in its domain (R343; log 17). -/
def ListedBy (s : State) (p q : Nat) : Prop := if (s.pkgAt p).map = [] then q = p else ∃ e ∈ (s.pkgAt p).map, e.id = q

/-- A row on its way between a package and another. -/
def Across (pkg : Nat) (c : Cmd) : Prop :=
  ∃ f, c.flight = some f ∧ f.die / 4 ≠ c.ctx / 2048 ∧ (f.die / 4 = pkg ∨ c.ctx / 2048 = pkg)

/-- A collective in progress between a package and another. -/
def Spans (pkg : Nat) (c : Cmd) : Prop := c.started = true ∧ (∃ b ∈ c.table, b / 4 = pkg) ∧ ∃ b ∈ c.table, b / 4 ≠ pkg

/-- The records that a step of TICK from old has passed. -/
def passedBy (s : State) (die old : Nat) : List Waiting :=
  (s.dieAt die).waiting.filter fun w => decide (old < recN w.image 40 8 ∧ recN w.image 40 8 ≤ (s.dieAt die).tick.toNat)

/-- s with no time of an exchange known. -/
def unstamped (s : State) (pkg : Nat) : State := s.onPkg pkg fun p => { p with origin := none, arrival := none, request := none }

end Sys2Proof.Machine

/-- R342 to R349, R363 (RAIL_FRAME_RECEIVE, FRAME_RESEND, REMOTE_ACCESS, PACKAGE_TIMEOUT, PTP_EVENT_MESSAGE, PTP_GENERAL_MESSAGE,
HOLDOVER_ENTRY): a frame of another EtherType is discarded and counted; a rail frame is delivered once, in the order of its pair of
dies; one delivered before or ahead of its turn leaves the machine as it is; an acknowledged frame leaves its sender's buffer; an
access of another package is performed as it comes; a silent package ends what waits for it; the clock follows the best master it
hears by the times of each exchange, and holds.
Model's choices it rests on: logs 17 (DEDUCED), 27 (DEDUCED), 29 (DEDUCED), 31 (DESIGN CHOICE), 51 (PRESUMED). -/
def Obligations.FabricRows : Prop :=
  (∀ (s : State) (die : Nat) (f : Frame), let m? := sentTo s die f
    (f.etherType = 0x88F7 → exec (.railFrameReceive die f) s = .next s) ∧
    (f.etherType ≠ 0x88F7 → f.etherType ≠ 0x88B5 → exec (.railFrameReceive die f) s =
      .next (s.onDie die fun x => { x with discarded := x.discarded + 1 })) ∧
    (f.etherType = 0x88B5 → f.ack = true → exec (.railFrameReceive die f) s = .next ((heardFrom s (f.src / 4)).onDie die fun x => { x with
      sent := x.sent.filter fun m => !(m.peer == f.src && m.port == f.port && m.seq == f.seq && m.got) })) ∧
    (f.etherType = 0x88B5 → f.ack = false →
      (m? = none → exec (.railFrameReceive die f) s = .next s) ∧
      (∀ m, m? = some m → m.order ≠ tabGet 0 (s.dieAt die).received f.src →
        exec (.railFrameReceive die f) s = .next (heardFrom s (f.src / 4))) ∧
      ∀ m, m? = some m → m.order = tabGet 0 (s.dieAt die).received f.src →
        let t := ((heardFrom s (f.src / 4)).onDie f.src fun x => { x with
            sent := x.sent.map fun n => if n.port = f.port ∧ n.seq = f.seq then { n with got := true } else n }).onDie die fun x =>
          { x with received := tabSet 0 x.received f.src (m.order + 1) }
        (∀ g q, m.msg = .cancel g q → exec (.railFrameReceive die f) s =
          .next (t.onDie die fun x => { x with cancelBox := x.cancelBox ++ [(g, q)] })) ∧
        ∀ n, m.msg = .row n → exec (.railFrameReceive die f) s = .next { t with dies := tabMap Die.reset (fun x =>
          { x with disp := x.disp.map (landed n f.src), strays := x.strays.map (landed n f.src) }) t.dies })) ∧
  (∀ (s : State) (die port seq : Nat), let p := s.portFor die
    let n := tabGet 0 (s.pkgAt (die / 4)).numbered p
    let is (m : Sent) : Prop := m.port = port ∧ m.seq = seq
    ((∀ m ∈ (s.dieAt die).sent, ¬ is m) → exec (.frameResend die port seq) s = .next s) ∧
    ((∃ m ∈ (s.dieAt die).sent, is m) → port ∈ s.portsFor die → exec (.frameResend die port seq) s = .next (s.onDie die fun x =>
      { x with sent := x.sent.map fun m => if m.port = port ∧ m.seq = seq then { m with tries := m.tries + 1 } else m })) ∧
    ((∃ m ∈ (s.dieAt die).sent, is m) → port ∉ s.portsFor die → exec (.frameResend die port seq) s = .next
      ((s.onPkg (die / 4) fun x => { x with numbered := tabSet 0 x.numbered p (n + 1) }).onDie die fun x => { x with
        sent := x.sent.map fun m =>
          if m.port = port ∧ m.seq = seq then { m with tries := m.tries + 1, port := p, seq := n } else m }))) ∧
  (∀ (s : State) (lay : Lay) (g pa n : Nat) (bs : List Byte) (v w : Word),
    let home := pa / 2 ^ 46
    let mmio := pa % 2 ^ 46 / 2 ^ 44 = 3
    let r := heardFrom s (g / 2048)
    let Comes : Prop := g / 2048 ≠ home ∧ ListedBy s (g / 2048) home ∧ (s.pkgAt home).boot = .running ∧ (s.pkgAt home).silent = false
    let load (k : Nat) : Out := exec (.remoteAccess (.load lay g pa k)) s
    let store : Out := exec (.remoteAccess (.store lay g pa bs)) s
    let failed (code : Nat) : Out := .next (told r (.remoteFailed code))
    let Range (k : Nat) : Prop := PlainRange r pa k ∧ (lay.raw = true → inHbm pa = true)
    (¬ Comes → load n = .next s ∧ store = .next s) ∧
    (Comes → ¬ mmio →
      (Range n → ∃ cs, load n = .next (told { r with chans := cs } (.remoteData (r.bytesAt lay.raw pa n)))) ∧
      ((r.place pa).isMem = false → 0 < n → load n = failed 3) ∧
      ((r.place pa).isMem = false → 0 < bs.length → store = failed 3) ∧
      (Range bs.length → 0 < bs.length → ∃ t, MemoryOnly r t ∧ Stored r t lay.raw pa bs ∧ store = .next t) ∧
      (lay.raw = false → ∀ fn : Fin 8, PlainRange r pa 8 → let old : Word := BitVec.ofNat 64 (leNat (rangeOf r pa 8))
        ∃ t, (match remoteAmo fn old v w with
          | some x => Holds r t pa (leBytes 8 x.toNat)
          | none => Holds r t pa []) ∧
          exec (.remoteAccess (.atomic lay g pa fn v w)) s = .next (told t (.remoteData (rangeOf r pa 8)))) ∧
      (lay.raw = false → ∀ (op : Iop) (fmt : Fmt) (b : Nat), op ∈ [.add, .min, .max] → fmt ∈ [.i32, .i64, .fp32] →
        let sz := fmt.width / 8
        PlainRange r pa sz → b < 2 ^ fmt.width → ∃ t, exec (.remoteAccess (.vamo lay g pa op fmt b)) s = .next t ∧
          Holds r t pa (leBytes sz (combined op fmt ⟨0, false, .rne, false⟩ (leNat (rangeOf r pa sz)) b)))) ∧
    (Comes → mmio →
      (r.place pa ≠ .nothing → pa % 8 = 0 → load 8 = .next (told r (.remoteData
        (leBytes 8 ((r.focus g).mmioRead (r.place pa)).toNat)))) ∧
      (r.place pa ≠ .nothing → pa % 8 = 0 → bs.length = 8 → ∀ t,
        (r.focus g).mmioWrite (r.place pa) (BitVec.ofNat 64 (leNat bs)) = some t → store = .next (t.focus s.here)) ∧
      (r.place pa ≠ .nothing → ¬ (pa % 8 = 0 ∧ n = 8) → load n = failed 1) ∧
      (r.place pa ≠ .nothing → ¬ (pa % 8 = 0 ∧ bs.length = 8) → store = failed 1) ∧
      (r.place pa = .nothing → load n = failed 3 ∧ store = failed 3)) ∧
    (Comes → mmio ∨ lay.raw = true → (∀ fn, exec (.remoteAccess (.atomic lay g pa fn v w)) s = failed 1) ∧
      ∀ (op : Iop) (fmt : Fmt) (b : Nat), exec (.remoteAccess (.vamo lay g pa op fmt b)) s = failed 1)) ∧
  (∀ (s : State) (pkg : Nat), TablesOk s → (∀ d, ∀ c ∈ (s.dieAt d).coll ++ (s.dieAt d).disp, dieOf c.ctx = d) → ∃ t,
    exec (.packageTimeout pkg) s = .next t ∧ (t.pkgAt pkg).silent = true ∧ t.c = s.c ∧ t.mem = s.mem ∧ ∀ d,
      (∀ c ∈ (t.dieAt d).coll, Spans pkg c → c.result ≠ none) ∧
      (∀ c ∈ (t.dieAt d).disp, Across pkg c → c.result ≠ none) ∧
      (∀ c ∈ (s.dieAt d).coll, Spans pkg c → c.result = none →
        ∃ e ∈ (t.dieAt d).coll, e.serial = c.serial ∧ e.result = some ⟨halves 0 7, []⟩) ∧
      (∀ c ∈ (s.dieAt d).disp, Across pkg c → c.result = none → c ∈ (t.dieAt d).strays ∧
        ∃ e ∈ (t.dieAt d).disp, e.serial = c.serial ∧ e.result = some ⟨halves 0 7, []⟩) ∧
      (t.dieAt d).seam = (s.dieAt d).seam ∧ (t.dieAt d).dcopy = (s.dieAt d).dcopy) ∧
  (∀ (s : State) (pkg : Nat), s.master pkg = none →
    ∀ e ∈ (s.pkgAt pkg).heard, Listens s pkg e.port → (Config.clockData pkg).toNat ≤ e.data.toNat) ∧
  (∀ (s : State) (pkg : Nat) (m : Master), s.master pkg = some m → BestHeard s pkg m) ∧
  (∀ (s : State) (die port : Nat) (sender : BitVec 80) (domain : BitVec 8) (e : PtpEvent), let pkg := die / 4
    let own := die % 4 = 0 ∧ domain = (s.pkgAt pkg).ptpDomain ∧ Listens s pkg port ∧ ∃ m, s.master pkg = some m ∧ m.port = port ∧
      (e = .sync → m.sender = sender)
    let tick : Int := (s.dieAt die).tick.toNat
    (¬ own → exec (.ptpEventMessage die ⟨port, sender, domain, e⟩) s = .next s) ∧
    (own → exec (.ptpEventMessage die ⟨port, sender, domain, e⟩) s = .next (s.onPkg pkg fun p => match e with
      | .sync => { p with origin := none, arrival := some tick, request := none }
      | .delayReq => { p with request := some tick }))) ∧
  (∀ (s : State) (pkg port time : Nat) (sender : BitVec 80) (domain : BitVec 8) (m : PtpGeneral) (data : BitVec 128),
    let p := s.pkgAt pkg
    let heard := domain = p.ptpDomain ∧ Listens s pkg port
    let own := heard ∧ Follows s pkg port sender
    let row (k : PtpGeneral) : Out := exec (.ptpGeneralMessage pkg ⟨port, sender, domain, k⟩) s
    (¬ heard → row m = .next s) ∧
    (heard → let t := s.onPkg pkg fun p => { p with
        heard := ⟨port, sender, data, 0⟩ :: p.heard.filter fun e => e.port != port || e.sender != sender }
      let who (x : Option Master) : Option (Nat × BitVec 80) := x.map fun m => (m.port, m.sender)
      (who (t.master pkg) = who (s.master pkg) → row (.announce data) = .next t) ∧
      (who (t.master pkg) ≠ who (s.master pkg) → t.master pkg ≠ none → row (.announce data) = .next (unstamped t pkg)) ∧
      (s.master pkg ≠ none → t.master pkg = none → row (.announce data) = .next (masterLost (unstamped t pkg) pkg))) ∧
    (heard → ¬ own → row (.followUp time) = .next s ∧ row (.delayResp time) = .next s) ∧
    (own → row (.followUp time) = .next (s.onPkg pkg fun p => if p.arrival = none then p else { p with origin := some time })) ∧
    (own → p.origin = none ∨ p.arrival = none ∨ p.request = none → row (.delayResp time) = .next s) ∧
    (own → ∀ t1 t2 t3, p.origin = some t1 → p.arrival = some t2 → p.request = some t3 →
      let offset := ((t1 - t2) + (time - t3)) / 2
      let t := clocked (unstamped s pkg) pkg .locked offset
      (offset ≤ 1000000 → row (.delayResp time) = .next (t.onPkg pkg fun p => { p with slew := offset })) ∧
      (1000000 < offset → row (.delayResp time) = .next ((stepped t pkg offset.toNat).onPkg pkg fun p => { p with slew := 0 })))) ∧
  (∀ (s : State) (die old : Nat), (passedBy s die old = [] → s.firePassed die old = s) ∧
    ∀ w, passedBy s die old = [w] → s.queueOpen die w.queue = true →
      .next (s.firePassed die old) = exec (.recordFire die w.queue) (s.onDie die fun x => { x with
        waiting := x.waiting.map fun v => if v.queue = w.queue then { w with late := true } else v })) ∧
  ∀ (s : State) (pkg : Nat), exec (.holdoverEntry pkg) s = .next
    (masterLost (s.onPkg pkg fun p => { p with heard := [], origin := none, arrival := none, request := none }) pkg)

namespace Sys2Proof.Machine

/-! The whole machine. -/

/-- Plan state that is bound has a live extent of at most 64 by 64 (R176, R178). -/
def ExtentOk (p : Plan) : Prop := p.bnd = true → p.m.toNat ≤ 64 ∧ p.n.toNat ≤ 64

/-- What every step keeps: the tables in canonical form, compression tags 0 to 5 (R310), held lines at line addresses (R270),
plan extents (R176). -/
def Inv (s : State) : Prop :=
  TablesOk s ∧ BytesOk s ∧ LinesOk s.c ∧ (∀ e ∈ s.ctxs, LinesOk e.2) ∧ ExtentOk s.k.plan ∧ ∀ e ∈ s.cores, ExtentOk e.2.plan

/-- Reset values of the CSRs that have one, zeros apart. -/
def csrResets : List (Csr × Word) :=
  [(.lgrant, 0x400040), (.eptlim, 0x4000), (.mxrowp, 0xFFFFFFFFFFFFFFFF), (.mxcolp, 0xFFFFFFFFFFFFFFFF), (.plst, 3), (.swlim, 64),
   (.pltol, 0x3A83126F), (.pleps, 0x3F800000)]

/-- CSRs whose reset value is zero in every field. -/
def csrZeros : List Csr :=
  [.vl, .vlg, .vcfg, .scnt, .eidx, .vah, .tcause, .taddr, .tpc, .tinfo, .dfcause, .dfaddr, .eptport, .mxctl, .mxprog, .plsw,
   .hmexp, .watch 0, .watch 1, .watch 2, .watch 3, .watchctl] ++ (List.finRange 16).map Csr.fmsk

/-- The rows that no instruction word names: the steps of units and the events from outside. -/
def wordless : Instr → Bool
  | .fixedLatencyWriteback | .vjoinCompletion | .laneBinding | .engineCountWaitRelease | .wfeWake | .taskEnd
  | .drainCompletion | .illegalInstruction _ | .drainGroupRelease | .claspWaitRelease | .progress _
  | .watchEventDelivery | .switchOut | .switchIn | .mxctlResWrite _ | .ptrootAsidWrite _ _ | .doorbell _ _ _
  | .pgreq _ | .asyclr _ _ | .claspTargetWrite _ _ | .registerWrite _ _ | .pageAnswer _ _ _ _
  | .launchRecordRead _ _ | .recordFire _ _ | .prepReservation _ _ _ | .crewPlacement _ _ _ _ | .rcwinExpiry _
  | .invalidateTranslations _ _ _ _ | .releaseSession _ _ | .endDig _ _ | .configure _ | .endFrozenTask _
  | .laneRetirement _ _ | .coreSubstitution _ | .setPlimit _ _ | .readHistograms _ | .loadFirmware _ _
  | .getVersion _ | .getCapabilities _ | .negotiateAlgorithms _ | .getMeasurements _ | .hostWrite _ _
  | .hostRead _ _ | .boot _ _ | .powerControlTick _ _ _ | .histogramFlashWrite _ | .supervisorReread _
  | .linkRetraining _ _ | .perBankRefresh _ _ | .alertBackOff _ _ _ | .powerDownEntry _ | .selfRefreshEntry _
  | .railFrameReceive _ _ | .frameResend _ _ _ | .remoteAccess _ | .packageTimeout _ | .ptpEventMessage _ _
  | .ptpGeneralMessage _ _ | .holdoverEntry _ | .ccopyCopy _ _ | .ccopyFill _ _ | .ccopyHmset _ _
  | .ccopyCompletion _ _ | .dcopyCopy _ _ | .dcopyFill _ _ | .dcopyHmset _ _ | .dcopyCompletion _ _ | .encOpen _ _
  | .encFrame _ _ | .encCompletion _ _ | .sadd _ _ | .saxpy _ _ | .sscal _ _ | .supd _ _ | .smom _ _ | .sfill _ _
  | .scpy _ _ | .seamMicroCommand _ _ | .seamCompletion _ _ | .allred _ _ | .redscat _ _ | .allgath _ _
  | .bcast _ _ | .collCancel _ _ _ | .collCompletion _ _ | .send _ _ | .land _ _ | .lzset _ _ | .zstat _ _
  | .rtset _ _ | .dispCompletion _ _ | .hostLinkDown _ | .hostLinkUp _ | .dieLeavesService _ | .powerFailure _ => true
  | _ => false

/-- Nothing is asked of the context in hand but its next instruction: BOUND, not waiting, not held, no asynchronous cause, its SCU at
its oldest instruction. -/
def Free (s : State) : Prop :=
  s.agenda = [] ∧ s.c.status = .bound ∧ s.c.wait = .none ∧ s.c.ahead = none ∧ s.c.held = false ∧ s.c.asked = ⟨none, false⟩ ∧
    s.c.event = none

/-- The SCU's own stream accepts the instruction: tfetch and tstop never, tret in handler mode, a region those of R125. -/
def Accepted (s : State) : Instr → Prop
  | .tfetch _ _ | .tstop => False
  | .tret => s.c.hnd = true
  | i => s.c.thr = false ∨ regionAllows i = true

/-- No fixed-latency result of a register is pending. -/
def NonePending (s : State) (r : XReg) : Prop := r = 0 ∨ ∀ p ∈ s.c.pending, p.reg ≠ r

/-- The word w stands at the PC, executable; reading it leaves u (R99, R198). -/
def FetchesWord (s u : State) (w : Word) : Prop :=
  s.c.pc.toNat % 8 = 0 ∧ ∃ (s1 : State) (l : Leaf),
    s.translate s.view ((if s.c.hnd then 0 else s.c.vah.toNat * 2 ^ 64) + s.c.pc.toNat) Need.fetch .plain = (s1, .ok l) ∧
    s1.checkRead l.lay l.pa 8 = (u, none) ∧ w = BitVec.ofNat 64 (leNat (u.bytesAt l.lay.raw l.pa 8))

/-- The slot an instruction took, and its stall count; one that waits to issue again took none (R107, R108). -/
def slotted (t : State) (stl : Nat) : State :=
  { t with c := { t.c with
    slot := match t.c.wait with
      | .lanes | .drain _ => t.c.slot
      | _ => t.c.slot + 1 + stl
    ept := 0 } }

end Sys2Proof.Machine

/-- R4, R100, R101 and the register tables; R256, R276, R290, R303, R310, R336, R339, R346: what reset leaves: every register that has a
reset value at it, memory clear with tags 0, and the invariant of StepKeepsInvariant.
Model's choices it rests on: logs 3 (DEDUCED), 4 (DESIGN CHOICE: CTL.DET, the status FREE and what else no rule gives). -/
def Obligations.ResetState : Prop :=
  let s := State.reset
  s.c.status = .free ∧ (∀ p ∈ csrResets, s.csr p.1 = p.2) ∧ (∀ r ∈ csrZeros, s.csr r = 0) ∧
  s.csr .ctl = 0 ∧ s.c.hnd = false ∧ s.c.thr = false ∧ s.c.vlive = false ∧ s.c.mxen = false ∧
  (∀ pa, byteAt s pa = 0 ∧ rawAt s pa = 0) ∧ (∀ line, s.tagOf line = 0) ∧ (∀ t : TReg, ∀ i : Fin 64, s.k.tiles[t][i] = 0) ∧
  (∀ c g, tabGet Cluster.reset s.clusters c = Cluster.reset ∧ tabGet Clasp.reset Cluster.reset.clasps g = ⟨1, 0, false⟩ ∧
    tabGet 0 Cluster.reset.hall g = 0) ∧
  (∀ d g, tabGet Clasp.reset (s.dieAt d).clasps g = ⟨1, 0, false⟩ ∧ (s.dieAt d).prep = 50000 ∧ (s.dieAt d).rcwin = 4096 ∧
    ∀ i : Fin 3, (s.dieAt d).pwrctl[i] = 0x64000A0000 ∧ (s.dieAt d).refcnt[i] = 0) ∧
  (∀ p, (s.pkgAt p).plimit = 3000) ∧ Inv s

/-- R194, R196, R270, R310, R176 and logs 1, 15: an invariant that every step keeps, whatever moves next: memory and every table keep
their canonical form, a line's tag is one of the six, held lines stand at line addresses, a bound plan's extent is at most 64 x 64. -/
def Obligations.StepKeepsInvariant : Prop := ∀ s t : State, Inv s → step s = .next t → Inv t

/-- R12 to R33: every well-formed instruction that a word names, under every stall count, has a word, which decodes to it; and a word
that decodes is the word of a well-formed instruction, so that every other word, one with a reserved bit set among them (R6, R31), is
refused. -/
def Obligations.EncodeThenDecode : Prop :=
  (∀ (i : Instr) (stl : BitVec 3), i.wf = true → wordless i = false → ∃ w, Sys2Proof.encode i stl = some w ∧
    decode w = .ok i ∧ stlOf w = stl.toNat) ∧
  (∀ (i : Instr) (stl : BitVec 3), wordless i = true → Sys2Proof.encode i stl = none) ∧
  ∀ (w : Word) (i : Instr), decode w = .ok i → i.wf = true ∧ Sys2Proof.encode i (w.extractLsb' 54 3) = some w

/-- R99, R104, R107, R108, R110, R121, R125, R131, R242, R31: a step of a context that is free to issue writes the results that are due,
fetches the word at its PC and does what exec does with its instruction, in its slots; a word that is no instruction, or that the
stream does not accept, is illegal; with CTL.SBC a reader that is too early raises STALL; a strip runs when the sequencer chooses the
context, as it does where no other context of the core is BOUND, and else the context chosen has its turn.
Model's choices it rests on: logs 1 (DESIGN CHOICE), 2 (DESIGN CHOICE), 23 (DEDUCED), 49 (DESIGN CHOICE: which result STALL names),
50 (DESIGN CHOICE: the moments of arbitration). -/
def Obligations.StepRunsDecoded : Prop :=
  ∀ (s t u : State) (w : Word), Free s → exec .fixedLatencyWriteback s = .next t → FetchesWord t u w →
    (∀ e, decode w = .error e → step s = exec (.illegalInstruction w) u.begin) ∧
    ∀ i, decode w = .ok i →
      (¬ Accepted u i → step s = exec (.illegalInstruction w) u.begin) ∧
      (Accepted u i →
        ((u.c.sbc = false ∨ ∀ r ∈ xreads i, NonePending u r) →
          (u.beats i = none → ∀ v, exec i u.begin = .next v → step s = .next (slotted v (stlOf w))) ∧
          ∀ b, u.beats i = some b →
            let ready := u.readyHere
            let t := u.refreshReady ready
            (t.choose ready = some u.here → ∀ v, exec i (t.charged ready b).begin = .next v → step s = .next (slotted v (stlOf w))) ∧
            (∀ g, t.choose ready = some g → g ≠ u.here → step s = .next (t.focus g)) ∧
            ((∀ g, g / 4 = u.here / 4 → g ≠ u.here → (u.ctxAt g).status ≠ .bound) → t.choose ready = some u.here)) ∧
        ∀ (r : XReg) (p : Pending) (rs rs' : List XReg) (ps ps' : List Pending), u.c.sbc = true → xreads i = rs ++ r :: rs' → r ≠ 0 →
          (∀ q ∈ rs, NonePending u q) → u.c.pending = ps ++ p :: ps' → (∀ q ∈ ps, q.reg ≠ r) → p.reg = r →
          step s = .next (u.begin.raise { cause := .stall, addr := p.pc }))

/-- Worked encodings (R13, R17, R22 and the examples of R80, R96, R98, R137, R149, R152): words decode to the instruction they
stand for. -/
def Obligations.DecodeSanity : Prop :=
  let m : VMods := ⟨0, false, .rne, false⟩
  decode 0x02041CE000000000 = .ok (.add 8 7 (.reg 7)) ∧
  decode 0x042380000000000C = .ok (.li 7 12) ∧
  decode 0x02C421AE00000000 = .ok (.mul 8 8 (.reg 13)) ∧ stlOf 0x02C421AE00000000 = 3 ∧
  decode 0x4010874080000000 = .ok (.vadd ⟨1, 1, .sca 26, 0, .i32, m⟩) ∧
  decode 0x1404296005A07FFB = .ok (.smb ⟨8, 10, 11, 0, 0, 5, 5, 0, 0, 0x7FFB⟩) ∧
  decode 0x8003121100000000 = .ok (.arrAdd ⟨3, 1, 2, some 1, some 1⟩) ∧
  decode 0x9000240003004B00 = .ok (.mxa ⟨0, 1, 2, .bf16, 3⟩) ∧
  decode 0x220000000900C000 = .ok (.xfence .die .ls .dcopy) ∧
  decode 0x1E04059800000000 = .ok (.ebatch ⟨.dcopy, 0, 1, 3, 8⟩) ∧
  decode 0x200000001C000000 = .ok .nop ∧
  decode 0x50118AE080000000 = .ok (.vrng ⟨3, 2, 23, 0, m⟩) ∧
  decode 0x501106C084000000 = .ok (.vctr ⟨2, 1, 22, 0, m⟩) ∧
  decode 0x820521110000000A = .ok (.arrComp ⟨5, 2, 1, some 1, some 1⟩ (some 0)) ∧
  decode 0x40018444C8020000 = .ok (.vaddc ⟨3, 2, 1, 2, 1, .i64, m⟩) ∧
  decode 0x4E140D2280000000 = .ok (.vcswi ⟨8, 3, .sca 9, 0, .fp32, m⟩) ∧
  decode 0x8415000008600002 = .ok (.dset 5 12 .cap (some 0)) ∧
  decode 0x820430F000000000 = .ok (.arrRed ⟨4, 3, none, some 0, .add⟩)
end

