-- ==== Sys2Proof/Laws/Issue.lean ====
section
/-! SUPPORT. What the issue of an instruction can do, said once for each of its parts (R104, R242, R243). -/

namespace Sys2Proof.Machine

/-- A strip runs with its charge, or another context of the core has its turn. -/
theorem dispatch_cases (s : State) (b : Nat) (run : State → Out) :
    s.dispatch b run = run ((s.refreshReady s.readyHere).charged s.readyHere b) ∨
    ∃ g, g ≠ s.here ∧ (s.refreshReady s.readyHere).choose s.readyHere = some g ∧
      s.dispatch b run = .next ((s.refreshReady s.readyHere).focus g) := by
  simp only [State.dispatch]
  split
  · rename_i g hg
    split
    · exact .inl rfl
    · rename_i hne
      exact .inr ⟨g, hne, hg, rfl⟩
  · exact .inl rfl

/-- An instruction runs at once, as a strip, or gives way to another context of the core. -/
theorem running_cases (s : State) (i : Instr) (run : State → Out) :
    (s.beats i = none ∧ s.running i run = run s) ∨
    (∃ b, s.beats i = some b ∧ s.running i run = run ((s.refreshReady s.readyHere).charged s.readyHere b)) ∨
    ∃ g, g ≠ s.here ∧ s.running i run = .next ((s.refreshReady s.readyHere).focus g) := by
  unfold State.running
  cases h : s.beats i with
  | none => exact .inl ⟨rfl, rfl⟩
  | some b =>
    rcases dispatch_cases s b run with hd | ⟨g, hne, -, hd⟩
    · exact .inr (.inl ⟨b, rfl, hd⟩)
    · exact .inr (.inr ⟨g, hne, hd⟩)

/-- An issued word is illegal, too early, or runs as its instruction (R110, R121, R125, R131). -/
theorem runWord_cases (s : State) (w : Word) :
    s.runWord w = exec (.illegalInstruction w) s.begin ∨
    ∃ i, decode w = .ok i ∧ s.accepts i = true ∧
      ((∃ p, s.tooEarly i = some p ∧ s.runWord w = .next (s.begin.raise { cause := .stall, addr := p.pc })) ∨
       (s.tooEarly i = none ∧ s.runWord w = s.running i fun t => onNext (exec i t.begin) fun u => u.settle (stlOf w))) := by
  unfold State.runWord
  cases hd : decode w with
  | error e => exact .inl rfl
  | ok i =>
    cases ha : s.accepts i with
    | false => exact .inl (by simp [ha])
    | true =>
      refine .inr ⟨i, rfl, ha, ?_⟩
      cases he : s.tooEarly i with
      | none => exact .inr ⟨rfl, by simp [ha, he]⟩
      | some p => exact .inl ⟨p, rfl, by simp [ha, he]⟩

/-- The SCU ahead of its oldest instruction changes what it holds ahead and what stands in the queues, and nothing else (R104). -/
theorem runAhead_only (s : State) : ∃ a q, s.runAhead = { s with c := { s.c with ahead := a, queued := q } } := by
  unfold State.runAhead
  split
  · exact ⟨_, _, rfl⟩
  · dsimp only
    repeat' (first | exact ⟨_, _, rfl⟩ | split)

end Sys2Proof.Machine
end

