-- ==== Sys2Proof/Laws/Tab.lean ====
section
/-! SUPPORT. Laws of sparse tables: a read after a write, and the canonical form, which every operation keeps. -/

namespace Sys2Proof.Machine

variable {α : Type}

@[simp] theorem tabGet_nil (d : α) (k : Nat) : tabGet d [] k = d := rfl

/-- A key below every key of a table reads as unlisted. -/
theorem tabGet_above {d : α} {t : Tab α} {j k : Nat} (h : tabAbove j t = true) (hk : k ≤ j) : tabGet d t k = d := by
  cases t with
  | nil => rfl
  | cons p t =>
    obtain ⟨i, v⟩ := p
    simp only [tabAbove, List.all_cons, Bool.and_eq_true, decide_eq_true_eq] at h
    simp only [tabGet]
    rw [if_pos (by omega)]

theorem tabAbove_mono {t : Tab α} {j k : Nat} (h : tabAbove j t = true) (hk : k ≤ j) : tabAbove k t = true := by
  simp only [tabAbove, List.all_eq_true, decide_eq_true_eq] at *
  intro p hp
  have := h p hp
  omega

/-- A key put reads as the value put. -/
theorem tabGet_put_same (d : α) (t : Tab α) (k : Nat) (v : α) : tabGet d (tabPut t k v) k = v := by
  induction t with
  | nil => simp [tabPut, tabGet]
  | cons p t ih =>
    obtain ⟨j, w⟩ := p
    simp only [tabPut]
    split
    · simp [tabGet]
    · split
      · simp [tabGet]
      · simp only [tabGet]
        rw [if_neg ‹_›, if_neg ‹_›]
        exact ih

/-- A key not put reads as before. -/
theorem tabGet_put_other (d : α) (t : Tab α) {k j : Nat} (v : α) (h : j ≠ k) : tabGet d (tabPut t k v) j = tabGet d t j := by
  induction t with
  | nil => simp [tabPut, tabGet, h]
  | cons p t ih =>
    obtain ⟨i, w⟩ := p
    simp only [tabPut]
    split
    · simp only [tabGet]
      by_cases h1 : j < k
      · rw [if_pos h1, if_pos (by omega)]
      · rw [if_neg h1, if_neg h]
    · split
      · subst_vars
        simp only [tabGet]
        by_cases h1 : j < i
        · rw [if_pos h1, if_pos h1]
        · rw [if_neg h1, if_neg h1, if_neg h, if_neg h]
      · simp only [tabGet, ih]

/-- Removing a key of a table in canonical form makes it read as unlisted. -/
theorem tabGet_del_same [DecidableEq α] (d : α) (t : Tab α) (k : Nat) (h : tabWf d t = true) : tabGet d (tabDel t k) k = d := by
  induction t with
  | nil => rfl
  | cons p t ih =>
    obtain ⟨j, w⟩ := p
    simp only [tabWf, Bool.and_eq_true, decide_eq_true_eq] at h
    simp only [tabDel]
    split
    · simp [tabGet, *]
    · split
      · subst_vars
        exact tabGet_above h.1.2 (Nat.le_refl _)
      · simp only [tabGet]
        rw [if_neg ‹_›, if_neg ‹_›]
        exact ih h.2

theorem tabGet_del_other [DecidableEq α] (d : α) (t : Tab α) {k j : Nat} (hj : j ≠ k) (h : tabWf d t = true) :
    tabGet d (tabDel t k) j = tabGet d t j := by
  induction t with
  | nil => rfl
  | cons p t ih =>
    obtain ⟨i, w⟩ := p
    simp only [tabWf, Bool.and_eq_true, decide_eq_true_eq] at h
    simp only [tabDel]
    split
    · rfl
    · split
      · subst_vars
        simp only [tabGet]
        by_cases h1 : j < i
        · rw [if_pos h1]
          exact tabGet_above h.1.2 (by omega)
        · rw [if_neg h1, if_neg hj]
      · simp only [tabGet, ih h.2]

/-- Read after write. -/
theorem tabGet_set [DecidableEq α] (d : α) (t : Tab α) (k j : Nat) (v : α) (h : tabWf d t = true) :
    tabGet d (tabSet d t k v) j = if j = k then v else tabGet d t j := by
  simp only [tabSet]
  by_cases hj : j = k
  · subst hj
    rw [if_pos rfl]
    split
    · rw [tabGet_del_same d t j h]
      exact Eq.symm ‹_›
    · exact tabGet_put_same d t j v
  · rw [if_neg hj]
    split
    · exact tabGet_del_other d t hj h
    · exact tabGet_put_other d t v hj

theorem tabAbove_put {t : Tab α} {i k : Nat} {v : α} (h : tabAbove i t = true) (hk : i < k) : tabAbove i (tabPut t k v) = true := by
  induction t with
  | nil => simp [tabPut, tabAbove, hk]
  | cons p t ih =>
    obtain ⟨j, w⟩ := p
    have h' := h
    simp only [tabAbove, List.all_cons, Bool.and_eq_true, decide_eq_true_eq] at h
    simp only [tabPut]
    split
    · simp only [tabAbove, List.all_cons, Bool.and_eq_true, decide_eq_true_eq]
      exact ⟨hk, h⟩
    · split
      · simp only [tabAbove, List.all_cons, Bool.and_eq_true, decide_eq_true_eq]
        exact ⟨hk, h.2⟩
      · have := ih h.2
        simp only [tabAbove, List.all_cons, Bool.and_eq_true, decide_eq_true_eq] at this ⊢
        exact ⟨h.1, this⟩

theorem tabAbove_del {t : Tab α} {i k : Nat} (h : tabAbove i t = true) : tabAbove i (tabDel t k) = true := by
  induction t with
  | nil => rfl
  | cons p t ih =>
    obtain ⟨j, w⟩ := p
    have h' := h
    simp only [tabAbove, List.all_cons, Bool.and_eq_true, decide_eq_true_eq] at h
    simp only [tabDel]
    split
    · exact h'
    · split
      · exact h.2
      · have := ih h.2
        simp only [tabAbove, List.all_cons, Bool.and_eq_true, decide_eq_true_eq] at this ⊢
        exact ⟨h.1, this⟩

theorem tabWf_put [DecidableEq α] {d : α} {t : Tab α} {k : Nat} {v : α} (h : tabWf d t = true) (hv : v ≠ d) :
    tabWf d (tabPut t k v) = true := by
  induction t with
  | nil => simp [tabPut, tabWf, tabAbove, hv]
  | cons p t ih =>
    obtain ⟨j, w⟩ := p
    have h' := h
    simp only [tabWf, Bool.and_eq_true, decide_eq_true_eq] at h
    simp only [tabPut]
    split
    · rename_i hk
      simp only [tabWf, Bool.and_eq_true, decide_eq_true_eq]
      refine ⟨⟨hv, ?_⟩, h⟩
      simp only [tabAbove, List.all_cons, Bool.and_eq_true, decide_eq_true_eq]
      exact ⟨hk, tabAbove_mono h.1.2 (by omega)⟩
    · split
      · rename_i hk
        simp only [tabWf, Bool.and_eq_true, decide_eq_true_eq]
        exact ⟨⟨hv, hk ▸ h.1.2⟩, h.2⟩
      · simp only [tabWf, Bool.and_eq_true, decide_eq_true_eq]
        exact ⟨⟨h.1.1, tabAbove_put h.1.2 (by omega)⟩, ih h.2⟩

theorem tabWf_del [DecidableEq α] {d : α} {t : Tab α} {k : Nat} (h : tabWf d t = true) : tabWf d (tabDel t k) = true := by
  induction t with
  | nil => rfl
  | cons p t ih =>
    obtain ⟨j, w⟩ := p
    have h' := h
    simp only [tabWf, Bool.and_eq_true, decide_eq_true_eq] at h
    simp only [tabDel]
    split
    · exact h'
    · split
      · exact h.2
      · simp only [tabWf, Bool.and_eq_true, decide_eq_true_eq]
        exact ⟨⟨h.1.1, tabAbove_del h.1.2⟩, ih h.2⟩

/-- A write keeps the canonical form. -/
theorem tabWf_set [DecidableEq α] {d : α} {t : Tab α} {k : Nat} {v : α} (h : tabWf d t = true) : tabWf d (tabSet d t k v) = true := by
  simp only [tabSet]
  split
  · exact tabWf_del h
  · exact tabWf_put h ‹_›

theorem tabAbove_filter {t : Tab α} {i : Nat} (p : Nat × α → Bool) (h : tabAbove i t = true) : tabAbove i (t.filter p) = true := by
  simp only [tabAbove, List.all_eq_true, List.mem_filter] at *
  exact fun q hq => h q hq.1

/-- Dropping entries keeps the canonical form. -/
theorem tabWf_filter [DecidableEq α] {d : α} {t : Tab α} (p : Nat × α → Bool) (h : tabWf d t = true) :
    tabWf d (t.filter p) = true := by
  induction t with
  | nil => rfl
  | cons q t ih =>
    obtain ⟨j, w⟩ := q
    simp only [tabWf, Bool.and_eq_true, decide_eq_true_eq] at h
    simp only [List.filter_cons]
    split
    · simp only [tabWf, Bool.and_eq_true, decide_eq_true_eq]
      exact ⟨⟨h.1.1, tabAbove_filter p h.1.2⟩, ih h.2⟩
    · exact ih h.2

theorem tabWf_clear [DecidableEq α] {d : α} {t : Tab α} (lo n : Nat) (h : tabWf d t = true) : tabWf d (tabClear t lo n) = true :=
  tabWf_filter _ h

theorem tabAbove_map {t : Tab α} {i : Nat} (f : Nat × α → α) (h : tabAbove i t = true) :
    tabAbove i (t.map fun p => (p.1, f p)) = true := by
  simp only [tabAbove, List.all_map, List.all_eq_true] at *
  exact h

/-- Changing every value, and dropping what then reads as unlisted, keeps the canonical form. -/
theorem tabWf_map [DecidableEq α] {d : α} {t : Tab α} (f : α → α) (h : tabWf d t = true) : tabWf d (tabMap d f t) = true := by
  induction t with
  | nil => rfl
  | cons q t ih =>
    obtain ⟨j, w⟩ := q
    simp only [tabWf, Bool.and_eq_true, decide_eq_true_eq] at h
    simp only [tabMap, List.map_cons, List.filter_cons, decide_eq_true_eq]
    split
    · simp only [tabWf, Bool.and_eq_true, decide_eq_true_eq]
      exact ⟨⟨‹_›, tabAbove_filter _ (tabAbove_map (fun p => f p.2) h.1.2)⟩, ih h.2⟩
    · exact ih h.2

end Sys2Proof.Machine
end

