-- ==== Sys2Proof/Laws/State.lean ====
section
/-! SUPPORT. What each update of the state leaves in each field. -/

namespace Sys2Proof.Machine

variable (s : State)

/-! Updates of one field. -/

@[simp] theorem State.goto_here (pc : Word) : (s.goto pc).here = s.here := rfl
@[simp] theorem State.goto_c (pc : Word) : (s.goto pc).c = { s.c with pc := pc } := rfl
@[simp] theorem State.goto_k (pc : Word) : (s.goto pc).k = s.k := rfl
@[simp] theorem State.goto_ctxs (pc : Word) : (s.goto pc).ctxs = s.ctxs := rfl
@[simp] theorem State.goto_cores (pc : Word) : (s.goto pc).cores = s.cores := rfl
@[simp] theorem State.goto_clusters (pc : Word) : (s.goto pc).clusters = s.clusters := rfl
@[simp] theorem State.goto_dies (pc : Word) : (s.goto pc).dies = s.dies := rfl
@[simp] theorem State.goto_pkgs (pc : Word) : (s.goto pc).pkgs = s.pkgs := rfl
@[simp] theorem State.goto_mem (pc : Word) : (s.goto pc).mem = s.mem := rfl
@[simp] theorem State.goto_tags (pc : Word) : (s.goto pc).tags = s.tags := rfl
@[simp] theorem State.goto_unencoded (pc : Word) : (s.goto pc).unencoded = s.unencoded := rfl
@[simp] theorem State.goto_bad (pc : Word) : (s.goto pc).bad = s.bad := rfl
@[simp] theorem State.goto_assay (pc : Word) : (s.goto pc).assay = s.assay := rfl
@[simp] theorem State.goto_chans (pc : Word) : (s.goto pc).chans = s.chans := rfl
@[simp] theorem State.goto_host (pc : Word) : (s.goto pc).host = s.host := rfl
@[simp] theorem State.goto_laneSel (pc : Word) : (s.goto pc).laneSel = s.laneSel := rfl
@[simp] theorem State.goto_agenda (pc : Word) : (s.goto pc).agenda = s.agenda := rfl
@[simp] theorem State.goto_fresh (pc : Word) : (s.goto pc).fresh = s.fresh := rfl
@[simp] theorem State.goto_serial (pc : Word) : (s.goto pc).serial = s.serial := rfl
@[simp] theorem State.goto_tasks (pc : Word) : (s.goto pc).tasks = s.tasks := rfl

@[simp] theorem State.wv_here (r : VReg) (v : BitVec 4096) : (s.wv r v).here = s.here := rfl
@[simp] theorem State.wv_c (r : VReg) (v : BitVec 4096) : (s.wv r v).c = { s.c with v := s.c.v.set r v } := rfl
@[simp] theorem State.wv_k (r : VReg) (v : BitVec 4096) : (s.wv r v).k = s.k := rfl
@[simp] theorem State.wv_ctxs (r : VReg) (v : BitVec 4096) : (s.wv r v).ctxs = s.ctxs := rfl
@[simp] theorem State.wv_cores (r : VReg) (v : BitVec 4096) : (s.wv r v).cores = s.cores := rfl
@[simp] theorem State.wv_clusters (r : VReg) (v : BitVec 4096) : (s.wv r v).clusters = s.clusters := rfl
@[simp] theorem State.wv_dies (r : VReg) (v : BitVec 4096) : (s.wv r v).dies = s.dies := rfl
@[simp] theorem State.wv_pkgs (r : VReg) (v : BitVec 4096) : (s.wv r v).pkgs = s.pkgs := rfl
@[simp] theorem State.wv_mem (r : VReg) (v : BitVec 4096) : (s.wv r v).mem = s.mem := rfl
@[simp] theorem State.wv_tags (r : VReg) (v : BitVec 4096) : (s.wv r v).tags = s.tags := rfl
@[simp] theorem State.wv_unencoded (r : VReg) (v : BitVec 4096) : (s.wv r v).unencoded = s.unencoded := rfl
@[simp] theorem State.wv_bad (r : VReg) (v : BitVec 4096) : (s.wv r v).bad = s.bad := rfl
@[simp] theorem State.wv_assay (r : VReg) (v : BitVec 4096) : (s.wv r v).assay = s.assay := rfl
@[simp] theorem State.wv_chans (r : VReg) (v : BitVec 4096) : (s.wv r v).chans = s.chans := rfl
@[simp] theorem State.wv_host (r : VReg) (v : BitVec 4096) : (s.wv r v).host = s.host := rfl
@[simp] theorem State.wv_laneSel (r : VReg) (v : BitVec 4096) : (s.wv r v).laneSel = s.laneSel := rfl
@[simp] theorem State.wv_agenda (r : VReg) (v : BitVec 4096) : (s.wv r v).agenda = s.agenda := rfl
@[simp] theorem State.wv_fresh (r : VReg) (v : BitVec 4096) : (s.wv r v).fresh = s.fresh := rfl
@[simp] theorem State.wv_serial (r : VReg) (v : BitVec 4096) : (s.wv r v).serial = s.serial := rfl
@[simp] theorem State.wv_tasks (r : VReg) (v : BitVec 4096) : (s.wv r v).tasks = s.tasks := rfl

@[simp] theorem State.wd_here (r : DReg) (v : Desc) : (s.wd r v).here = s.here := rfl
@[simp] theorem State.wd_c (r : DReg) (v : Desc) : (s.wd r v).c = { s.c with d := s.c.d.set r v } := rfl
@[simp] theorem State.wd_k (r : DReg) (v : Desc) : (s.wd r v).k = s.k := rfl
@[simp] theorem State.wd_ctxs (r : DReg) (v : Desc) : (s.wd r v).ctxs = s.ctxs := rfl
@[simp] theorem State.wd_cores (r : DReg) (v : Desc) : (s.wd r v).cores = s.cores := rfl
@[simp] theorem State.wd_clusters (r : DReg) (v : Desc) : (s.wd r v).clusters = s.clusters := rfl
@[simp] theorem State.wd_dies (r : DReg) (v : Desc) : (s.wd r v).dies = s.dies := rfl
@[simp] theorem State.wd_pkgs (r : DReg) (v : Desc) : (s.wd r v).pkgs = s.pkgs := rfl
@[simp] theorem State.wd_mem (r : DReg) (v : Desc) : (s.wd r v).mem = s.mem := rfl
@[simp] theorem State.wd_tags (r : DReg) (v : Desc) : (s.wd r v).tags = s.tags := rfl
@[simp] theorem State.wd_unencoded (r : DReg) (v : Desc) : (s.wd r v).unencoded = s.unencoded := rfl
@[simp] theorem State.wd_bad (r : DReg) (v : Desc) : (s.wd r v).bad = s.bad := rfl
@[simp] theorem State.wd_assay (r : DReg) (v : Desc) : (s.wd r v).assay = s.assay := rfl
@[simp] theorem State.wd_chans (r : DReg) (v : Desc) : (s.wd r v).chans = s.chans := rfl
@[simp] theorem State.wd_host (r : DReg) (v : Desc) : (s.wd r v).host = s.host := rfl
@[simp] theorem State.wd_laneSel (r : DReg) (v : Desc) : (s.wd r v).laneSel = s.laneSel := rfl
@[simp] theorem State.wd_agenda (r : DReg) (v : Desc) : (s.wd r v).agenda = s.agenda := rfl
@[simp] theorem State.wd_fresh (r : DReg) (v : Desc) : (s.wd r v).fresh = s.fresh := rfl
@[simp] theorem State.wd_serial (r : DReg) (v : Desc) : (s.wd r v).serial = s.serial := rfl
@[simp] theorem State.wd_tasks (r : DReg) (v : Desc) : (s.wd r v).tasks = s.tasks := rfl

@[simp] theorem State.onC_here (f : Ctx → Ctx) : (s.onC f).here = s.here := rfl
@[simp] theorem State.onC_c (f : Ctx → Ctx) : (s.onC f).c = f s.c := rfl
@[simp] theorem State.onC_k (f : Ctx → Ctx) : (s.onC f).k = s.k := rfl
@[simp] theorem State.onC_ctxs (f : Ctx → Ctx) : (s.onC f).ctxs = s.ctxs := rfl
@[simp] theorem State.onC_cores (f : Ctx → Ctx) : (s.onC f).cores = s.cores := rfl
@[simp] theorem State.onC_clusters (f : Ctx → Ctx) : (s.onC f).clusters = s.clusters := rfl
@[simp] theorem State.onC_dies (f : Ctx → Ctx) : (s.onC f).dies = s.dies := rfl
@[simp] theorem State.onC_pkgs (f : Ctx → Ctx) : (s.onC f).pkgs = s.pkgs := rfl
@[simp] theorem State.onC_mem (f : Ctx → Ctx) : (s.onC f).mem = s.mem := rfl
@[simp] theorem State.onC_tags (f : Ctx → Ctx) : (s.onC f).tags = s.tags := rfl
@[simp] theorem State.onC_unencoded (f : Ctx → Ctx) : (s.onC f).unencoded = s.unencoded := rfl
@[simp] theorem State.onC_bad (f : Ctx → Ctx) : (s.onC f).bad = s.bad := rfl
@[simp] theorem State.onC_assay (f : Ctx → Ctx) : (s.onC f).assay = s.assay := rfl
@[simp] theorem State.onC_chans (f : Ctx → Ctx) : (s.onC f).chans = s.chans := rfl
@[simp] theorem State.onC_host (f : Ctx → Ctx) : (s.onC f).host = s.host := rfl
@[simp] theorem State.onC_laneSel (f : Ctx → Ctx) : (s.onC f).laneSel = s.laneSel := rfl
@[simp] theorem State.onC_agenda (f : Ctx → Ctx) : (s.onC f).agenda = s.agenda := rfl
@[simp] theorem State.onC_fresh (f : Ctx → Ctx) : (s.onC f).fresh = s.fresh := rfl
@[simp] theorem State.onC_serial (f : Ctx → Ctx) : (s.onC f).serial = s.serial := rfl
@[simp] theorem State.onC_tasks (f : Ctx → Ctx) : (s.onC f).tasks = s.tasks := rfl

@[simp] theorem State.onK_here (f : Core → Core) : (s.onK f).here = s.here := rfl
@[simp] theorem State.onK_c (f : Core → Core) : (s.onK f).c = s.c := rfl
@[simp] theorem State.onK_k (f : Core → Core) : (s.onK f).k = f s.k := rfl
@[simp] theorem State.onK_ctxs (f : Core → Core) : (s.onK f).ctxs = s.ctxs := rfl
@[simp] theorem State.onK_cores (f : Core → Core) : (s.onK f).cores = s.cores := rfl
@[simp] theorem State.onK_clusters (f : Core → Core) : (s.onK f).clusters = s.clusters := rfl
@[simp] theorem State.onK_dies (f : Core → Core) : (s.onK f).dies = s.dies := rfl
@[simp] theorem State.onK_pkgs (f : Core → Core) : (s.onK f).pkgs = s.pkgs := rfl
@[simp] theorem State.onK_mem (f : Core → Core) : (s.onK f).mem = s.mem := rfl
@[simp] theorem State.onK_tags (f : Core → Core) : (s.onK f).tags = s.tags := rfl
@[simp] theorem State.onK_unencoded (f : Core → Core) : (s.onK f).unencoded = s.unencoded := rfl
@[simp] theorem State.onK_bad (f : Core → Core) : (s.onK f).bad = s.bad := rfl
@[simp] theorem State.onK_assay (f : Core → Core) : (s.onK f).assay = s.assay := rfl
@[simp] theorem State.onK_chans (f : Core → Core) : (s.onK f).chans = s.chans := rfl
@[simp] theorem State.onK_host (f : Core → Core) : (s.onK f).host = s.host := rfl
@[simp] theorem State.onK_laneSel (f : Core → Core) : (s.onK f).laneSel = s.laneSel := rfl
@[simp] theorem State.onK_agenda (f : Core → Core) : (s.onK f).agenda = s.agenda := rfl
@[simp] theorem State.onK_fresh (f : Core → Core) : (s.onK f).fresh = s.fresh := rfl
@[simp] theorem State.onK_serial (f : Core → Core) : (s.onK f).serial = s.serial := rfl
@[simp] theorem State.onK_tasks (f : Core → Core) : (s.onK f).tasks = s.tasks := rfl

@[simp] theorem State.onDie_here (n : Nat) (f : Die → Die) : (s.onDie n f).here = s.here := rfl
@[simp] theorem State.onDie_c (n : Nat) (f : Die → Die) : (s.onDie n f).c = s.c := rfl
@[simp] theorem State.onDie_k (n : Nat) (f : Die → Die) : (s.onDie n f).k = s.k := rfl
@[simp] theorem State.onDie_ctxs (n : Nat) (f : Die → Die) : (s.onDie n f).ctxs = s.ctxs := rfl
@[simp] theorem State.onDie_cores (n : Nat) (f : Die → Die) : (s.onDie n f).cores = s.cores := rfl
@[simp] theorem State.onDie_clusters (n : Nat) (f : Die → Die) : (s.onDie n f).clusters = s.clusters := rfl
@[simp] theorem State.onDie_dies (n : Nat) (f : Die → Die) : (s.onDie n f).dies = tabSet Die.reset s.dies n (f (s.dieAt n)) := rfl
@[simp] theorem State.onDie_pkgs (n : Nat) (f : Die → Die) : (s.onDie n f).pkgs = s.pkgs := rfl
@[simp] theorem State.onDie_mem (n : Nat) (f : Die → Die) : (s.onDie n f).mem = s.mem := rfl
@[simp] theorem State.onDie_tags (n : Nat) (f : Die → Die) : (s.onDie n f).tags = s.tags := rfl
@[simp] theorem State.onDie_unencoded (n : Nat) (f : Die → Die) : (s.onDie n f).unencoded = s.unencoded := rfl
@[simp] theorem State.onDie_bad (n : Nat) (f : Die → Die) : (s.onDie n f).bad = s.bad := rfl
@[simp] theorem State.onDie_assay (n : Nat) (f : Die → Die) : (s.onDie n f).assay = s.assay := rfl
@[simp] theorem State.onDie_chans (n : Nat) (f : Die → Die) : (s.onDie n f).chans = s.chans := rfl
@[simp] theorem State.onDie_host (n : Nat) (f : Die → Die) : (s.onDie n f).host = s.host := rfl
@[simp] theorem State.onDie_laneSel (n : Nat) (f : Die → Die) : (s.onDie n f).laneSel = s.laneSel := rfl
@[simp] theorem State.onDie_agenda (n : Nat) (f : Die → Die) : (s.onDie n f).agenda = s.agenda := rfl
@[simp] theorem State.onDie_fresh (n : Nat) (f : Die → Die) : (s.onDie n f).fresh = s.fresh := rfl
@[simp] theorem State.onDie_serial (n : Nat) (f : Die → Die) : (s.onDie n f).serial = s.serial := rfl
@[simp] theorem State.onDie_tasks (n : Nat) (f : Die → Die) : (s.onDie n f).tasks = s.tasks := rfl

@[simp] theorem State.onPkg_here (n : Nat) (f : Pkg → Pkg) : (s.onPkg n f).here = s.here := rfl
@[simp] theorem State.onPkg_c (n : Nat) (f : Pkg → Pkg) : (s.onPkg n f).c = s.c := rfl
@[simp] theorem State.onPkg_k (n : Nat) (f : Pkg → Pkg) : (s.onPkg n f).k = s.k := rfl
@[simp] theorem State.onPkg_ctxs (n : Nat) (f : Pkg → Pkg) : (s.onPkg n f).ctxs = s.ctxs := rfl
@[simp] theorem State.onPkg_cores (n : Nat) (f : Pkg → Pkg) : (s.onPkg n f).cores = s.cores := rfl
@[simp] theorem State.onPkg_clusters (n : Nat) (f : Pkg → Pkg) : (s.onPkg n f).clusters = s.clusters := rfl
@[simp] theorem State.onPkg_dies (n : Nat) (f : Pkg → Pkg) : (s.onPkg n f).dies = s.dies := rfl
@[simp] theorem State.onPkg_pkgs (n : Nat) (f : Pkg → Pkg) : (s.onPkg n f).pkgs = tabSet Pkg.reset s.pkgs n (f (s.pkgAt n)) := rfl
@[simp] theorem State.onPkg_mem (n : Nat) (f : Pkg → Pkg) : (s.onPkg n f).mem = s.mem := rfl
@[simp] theorem State.onPkg_tags (n : Nat) (f : Pkg → Pkg) : (s.onPkg n f).tags = s.tags := rfl
@[simp] theorem State.onPkg_unencoded (n : Nat) (f : Pkg → Pkg) : (s.onPkg n f).unencoded = s.unencoded := rfl
@[simp] theorem State.onPkg_bad (n : Nat) (f : Pkg → Pkg) : (s.onPkg n f).bad = s.bad := rfl
@[simp] theorem State.onPkg_assay (n : Nat) (f : Pkg → Pkg) : (s.onPkg n f).assay = s.assay := rfl
@[simp] theorem State.onPkg_chans (n : Nat) (f : Pkg → Pkg) : (s.onPkg n f).chans = s.chans := rfl
@[simp] theorem State.onPkg_host (n : Nat) (f : Pkg → Pkg) : (s.onPkg n f).host = s.host := rfl
@[simp] theorem State.onPkg_laneSel (n : Nat) (f : Pkg → Pkg) : (s.onPkg n f).laneSel = s.laneSel := rfl
@[simp] theorem State.onPkg_agenda (n : Nat) (f : Pkg → Pkg) : (s.onPkg n f).agenda = s.agenda := rfl
@[simp] theorem State.onPkg_fresh (n : Nat) (f : Pkg → Pkg) : (s.onPkg n f).fresh = s.fresh := rfl
@[simp] theorem State.onPkg_serial (n : Nat) (f : Pkg → Pkg) : (s.onPkg n f).serial = s.serial := rfl
@[simp] theorem State.onPkg_tasks (n : Nat) (f : Pkg → Pkg) : (s.onPkg n f).tasks = s.tasks := rfl

@[simp] theorem State.onCluster_here (n : Nat) (f : Cluster → Cluster) : (s.onCluster n f).here = s.here := rfl
@[simp] theorem State.onCluster_c (n : Nat) (f : Cluster → Cluster) : (s.onCluster n f).c = s.c := rfl
@[simp] theorem State.onCluster_k (n : Nat) (f : Cluster → Cluster) : (s.onCluster n f).k = s.k := rfl
@[simp] theorem State.onCluster_ctxs (n : Nat) (f : Cluster → Cluster) : (s.onCluster n f).ctxs = s.ctxs := rfl
@[simp] theorem State.onCluster_cores (n : Nat) (f : Cluster → Cluster) : (s.onCluster n f).cores = s.cores := rfl
@[simp] theorem State.onCluster_clusters (n : Nat) (f : Cluster → Cluster) : (s.onCluster n f).clusters = tabSet Cluster.reset s.clusters n (f (s.clusterAt n)) := rfl
@[simp] theorem State.onCluster_dies (n : Nat) (f : Cluster → Cluster) : (s.onCluster n f).dies = s.dies := rfl
@[simp] theorem State.onCluster_pkgs (n : Nat) (f : Cluster → Cluster) : (s.onCluster n f).pkgs = s.pkgs := rfl
@[simp] theorem State.onCluster_mem (n : Nat) (f : Cluster → Cluster) : (s.onCluster n f).mem = s.mem := rfl
@[simp] theorem State.onCluster_tags (n : Nat) (f : Cluster → Cluster) : (s.onCluster n f).tags = s.tags := rfl
@[simp] theorem State.onCluster_unencoded (n : Nat) (f : Cluster → Cluster) : (s.onCluster n f).unencoded = s.unencoded := rfl
@[simp] theorem State.onCluster_bad (n : Nat) (f : Cluster → Cluster) : (s.onCluster n f).bad = s.bad := rfl
@[simp] theorem State.onCluster_assay (n : Nat) (f : Cluster → Cluster) : (s.onCluster n f).assay = s.assay := rfl
@[simp] theorem State.onCluster_chans (n : Nat) (f : Cluster → Cluster) : (s.onCluster n f).chans = s.chans := rfl
@[simp] theorem State.onCluster_host (n : Nat) (f : Cluster → Cluster) : (s.onCluster n f).host = s.host := rfl
@[simp] theorem State.onCluster_laneSel (n : Nat) (f : Cluster → Cluster) : (s.onCluster n f).laneSel = s.laneSel := rfl
@[simp] theorem State.onCluster_agenda (n : Nat) (f : Cluster → Cluster) : (s.onCluster n f).agenda = s.agenda := rfl
@[simp] theorem State.onCluster_fresh (n : Nat) (f : Cluster → Cluster) : (s.onCluster n f).fresh = s.fresh := rfl
@[simp] theorem State.onCluster_serial (n : Nat) (f : Cluster → Cluster) : (s.onCluster n f).serial = s.serial := rfl
@[simp] theorem State.onCluster_tasks (n : Nat) (f : Cluster → Cluster) : (s.onCluster n f).tasks = s.tasks := rfl

@[simp] theorem State.tell_here (m : HostMsg) : (s.tell m).here = s.here := rfl
@[simp] theorem State.tell_c (m : HostMsg) : (s.tell m).c = s.c := rfl
@[simp] theorem State.tell_k (m : HostMsg) : (s.tell m).k = s.k := rfl
@[simp] theorem State.tell_ctxs (m : HostMsg) : (s.tell m).ctxs = s.ctxs := rfl
@[simp] theorem State.tell_cores (m : HostMsg) : (s.tell m).cores = s.cores := rfl
@[simp] theorem State.tell_clusters (m : HostMsg) : (s.tell m).clusters = s.clusters := rfl
@[simp] theorem State.tell_dies (m : HostMsg) : (s.tell m).dies = s.dies := rfl
@[simp] theorem State.tell_pkgs (m : HostMsg) : (s.tell m).pkgs = s.pkgs := rfl
@[simp] theorem State.tell_mem (m : HostMsg) : (s.tell m).mem = s.mem := rfl
@[simp] theorem State.tell_tags (m : HostMsg) : (s.tell m).tags = s.tags := rfl
@[simp] theorem State.tell_unencoded (m : HostMsg) : (s.tell m).unencoded = s.unencoded := rfl
@[simp] theorem State.tell_bad (m : HostMsg) : (s.tell m).bad = s.bad := rfl
@[simp] theorem State.tell_assay (m : HostMsg) : (s.tell m).assay = s.assay := rfl
@[simp] theorem State.tell_chans (m : HostMsg) : (s.tell m).chans = s.chans := rfl
@[simp] theorem State.tell_host (m : HostMsg) : (s.tell m).host = m :: s.host := rfl
@[simp] theorem State.tell_laneSel (m : HostMsg) : (s.tell m).laneSel = s.laneSel := rfl
@[simp] theorem State.tell_agenda (m : HostMsg) : (s.tell m).agenda = s.agenda := rfl
@[simp] theorem State.tell_fresh (m : HostMsg) : (s.tell m).fresh = s.fresh := rfl
@[simp] theorem State.tell_serial (m : HostMsg) : (s.tell m).serial = s.serial := rfl
@[simp] theorem State.tell_tasks (m : HostMsg) : (s.tell m).tasks = s.tasks := rfl

@[simp] theorem State.resume_here : (s.resume).here = s.here := rfl
@[simp] theorem State.resume_c : (s.resume).c = { s.c with wait := .none, queues := Queues.empty } := rfl
@[simp] theorem State.resume_k : (s.resume).k = s.k := rfl
@[simp] theorem State.resume_ctxs : (s.resume).ctxs = s.ctxs := rfl
@[simp] theorem State.resume_cores : (s.resume).cores = s.cores := rfl
@[simp] theorem State.resume_clusters : (s.resume).clusters = s.clusters := rfl
@[simp] theorem State.resume_dies : (s.resume).dies = s.dies := rfl
@[simp] theorem State.resume_pkgs : (s.resume).pkgs = s.pkgs := rfl
@[simp] theorem State.resume_mem : (s.resume).mem = s.mem := rfl
@[simp] theorem State.resume_tags : (s.resume).tags = s.tags := rfl
@[simp] theorem State.resume_unencoded : (s.resume).unencoded = s.unencoded := rfl
@[simp] theorem State.resume_bad : (s.resume).bad = s.bad := rfl
@[simp] theorem State.resume_assay : (s.resume).assay = s.assay := rfl
@[simp] theorem State.resume_chans : (s.resume).chans = s.chans := rfl
@[simp] theorem State.resume_host : (s.resume).host = s.host := rfl
@[simp] theorem State.resume_laneSel : (s.resume).laneSel = s.laneSel := rfl
@[simp] theorem State.resume_agenda : (s.resume).agenda = s.agenda := rfl
@[simp] theorem State.resume_fresh : (s.resume).fresh = s.fresh := rfl
@[simp] theorem State.resume_serial : (s.resume).serial = s.serial := rfl
@[simp] theorem State.resume_tasks : (s.resume).tasks = s.tasks := rfl

@[simp] theorem State.waitFor_here (w : Wait) (q : Queue) : (s.waitFor w q).here = s.here := rfl
@[simp] theorem State.waitFor_c (w : Wait) (q : Queue) : (s.waitFor w q).c = { s.c with wait := w, queues := s.c.queues.push q s.c.pc } := rfl
@[simp] theorem State.waitFor_k (w : Wait) (q : Queue) : (s.waitFor w q).k = s.k := rfl
@[simp] theorem State.waitFor_ctxs (w : Wait) (q : Queue) : (s.waitFor w q).ctxs = s.ctxs := rfl
@[simp] theorem State.waitFor_cores (w : Wait) (q : Queue) : (s.waitFor w q).cores = s.cores := rfl
@[simp] theorem State.waitFor_clusters (w : Wait) (q : Queue) : (s.waitFor w q).clusters = s.clusters := rfl
@[simp] theorem State.waitFor_dies (w : Wait) (q : Queue) : (s.waitFor w q).dies = s.dies := rfl
@[simp] theorem State.waitFor_pkgs (w : Wait) (q : Queue) : (s.waitFor w q).pkgs = s.pkgs := rfl
@[simp] theorem State.waitFor_mem (w : Wait) (q : Queue) : (s.waitFor w q).mem = s.mem := rfl
@[simp] theorem State.waitFor_tags (w : Wait) (q : Queue) : (s.waitFor w q).tags = s.tags := rfl
@[simp] theorem State.waitFor_unencoded (w : Wait) (q : Queue) : (s.waitFor w q).unencoded = s.unencoded := rfl
@[simp] theorem State.waitFor_bad (w : Wait) (q : Queue) : (s.waitFor w q).bad = s.bad := rfl
@[simp] theorem State.waitFor_assay (w : Wait) (q : Queue) : (s.waitFor w q).assay = s.assay := rfl
@[simp] theorem State.waitFor_chans (w : Wait) (q : Queue) : (s.waitFor w q).chans = s.chans := rfl
@[simp] theorem State.waitFor_host (w : Wait) (q : Queue) : (s.waitFor w q).host = s.host := rfl
@[simp] theorem State.waitFor_laneSel (w : Wait) (q : Queue) : (s.waitFor w q).laneSel = s.laneSel := rfl
@[simp] theorem State.waitFor_agenda (w : Wait) (q : Queue) : (s.waitFor w q).agenda = s.agenda := rfl
@[simp] theorem State.waitFor_fresh (w : Wait) (q : Queue) : (s.waitFor w q).fresh = s.fresh := rfl
@[simp] theorem State.waitFor_serial (w : Wait) (q : Queue) : (s.waitFor w q).serial = s.serial := rfl
@[simp] theorem State.waitFor_tasks (w : Wait) (q : Queue) : (s.waitFor w q).tasks = s.tasks := rfl

@[simp] theorem State.setBad_here (u : Nat) (b : Bad) : (s.setBad u b).here = s.here := rfl
@[simp] theorem State.setBad_c (u : Nat) (b : Bad) : (s.setBad u b).c = s.c := rfl
@[simp] theorem State.setBad_k (u : Nat) (b : Bad) : (s.setBad u b).k = s.k := rfl
@[simp] theorem State.setBad_ctxs (u : Nat) (b : Bad) : (s.setBad u b).ctxs = s.ctxs := rfl
@[simp] theorem State.setBad_cores (u : Nat) (b : Bad) : (s.setBad u b).cores = s.cores := rfl
@[simp] theorem State.setBad_clusters (u : Nat) (b : Bad) : (s.setBad u b).clusters = s.clusters := rfl
@[simp] theorem State.setBad_dies (u : Nat) (b : Bad) : (s.setBad u b).dies = s.dies := rfl
@[simp] theorem State.setBad_pkgs (u : Nat) (b : Bad) : (s.setBad u b).pkgs = s.pkgs := rfl
@[simp] theorem State.setBad_mem (u : Nat) (b : Bad) : (s.setBad u b).mem = s.mem := rfl
@[simp] theorem State.setBad_tags (u : Nat) (b : Bad) : (s.setBad u b).tags = s.tags := rfl
@[simp] theorem State.setBad_unencoded (u : Nat) (b : Bad) : (s.setBad u b).unencoded = s.unencoded := rfl
@[simp] theorem State.setBad_bad (u : Nat) (b : Bad) : (s.setBad u b).bad = tabSet Bad.clean s.bad u b := rfl
@[simp] theorem State.setBad_assay (u : Nat) (b : Bad) : (s.setBad u b).assay = s.assay := rfl
@[simp] theorem State.setBad_chans (u : Nat) (b : Bad) : (s.setBad u b).chans = s.chans := rfl
@[simp] theorem State.setBad_host (u : Nat) (b : Bad) : (s.setBad u b).host = s.host := rfl
@[simp] theorem State.setBad_laneSel (u : Nat) (b : Bad) : (s.setBad u b).laneSel = s.laneSel := rfl
@[simp] theorem State.setBad_agenda (u : Nat) (b : Bad) : (s.setBad u b).agenda = s.agenda := rfl
@[simp] theorem State.setBad_fresh (u : Nat) (b : Bad) : (s.setBad u b).fresh = s.fresh := rfl
@[simp] theorem State.setBad_serial (u : Nat) (b : Bad) : (s.setBad u b).serial = s.serial := rfl
@[simp] theorem State.setBad_tasks (u : Nat) (b : Bad) : (s.setBad u b).tasks = s.tasks := rfl

/-! Updates that look at the state first. -/

@[simp] theorem State.wx_here (r : XReg) (v : Word) : (s.wx r v).here = s.here := by unfold State.wx; split <;> rfl
@[simp] theorem State.wx_k (r : XReg) (v : Word) : (s.wx r v).k = s.k := by unfold State.wx; split <;> rfl
@[simp] theorem State.wx_ctxs (r : XReg) (v : Word) : (s.wx r v).ctxs = s.ctxs := by unfold State.wx; split <;> rfl
@[simp] theorem State.wx_cores (r : XReg) (v : Word) : (s.wx r v).cores = s.cores := by unfold State.wx; split <;> rfl
@[simp] theorem State.wx_clusters (r : XReg) (v : Word) : (s.wx r v).clusters = s.clusters := by unfold State.wx; split <;> rfl
@[simp] theorem State.wx_dies (r : XReg) (v : Word) : (s.wx r v).dies = s.dies := by unfold State.wx; split <;> rfl
@[simp] theorem State.wx_pkgs (r : XReg) (v : Word) : (s.wx r v).pkgs = s.pkgs := by unfold State.wx; split <;> rfl
@[simp] theorem State.wx_mem (r : XReg) (v : Word) : (s.wx r v).mem = s.mem := by unfold State.wx; split <;> rfl
@[simp] theorem State.wx_tags (r : XReg) (v : Word) : (s.wx r v).tags = s.tags := by unfold State.wx; split <;> rfl
@[simp] theorem State.wx_unencoded (r : XReg) (v : Word) : (s.wx r v).unencoded = s.unencoded := by unfold State.wx; split <;> rfl
@[simp] theorem State.wx_bad (r : XReg) (v : Word) : (s.wx r v).bad = s.bad := by unfold State.wx; split <;> rfl
@[simp] theorem State.wx_assay (r : XReg) (v : Word) : (s.wx r v).assay = s.assay := by unfold State.wx; split <;> rfl
@[simp] theorem State.wx_chans (r : XReg) (v : Word) : (s.wx r v).chans = s.chans := by unfold State.wx; split <;> rfl
@[simp] theorem State.wx_host (r : XReg) (v : Word) : (s.wx r v).host = s.host := by unfold State.wx; split <;> rfl
@[simp] theorem State.wx_laneSel (r : XReg) (v : Word) : (s.wx r v).laneSel = s.laneSel := by unfold State.wx; split <;> rfl
@[simp] theorem State.wx_agenda (r : XReg) (v : Word) : (s.wx r v).agenda = s.agenda := by unfold State.wx; split <;> rfl
@[simp] theorem State.wx_fresh (r : XReg) (v : Word) : (s.wx r v).fresh = s.fresh := by unfold State.wx; split <;> rfl
@[simp] theorem State.wx_serial (r : XReg) (v : Word) : (s.wx r v).serial = s.serial := by unfold State.wx; split <;> rfl
@[simp] theorem State.wx_tasks (r : XReg) (v : Word) : (s.wx r v).tasks = s.tasks := by unfold State.wx; split <;> rfl

@[simp] theorem State.wm_here (r : MReg) (v : BitVec 4096) : (s.wm r v).here = s.here := by unfold State.wm; split <;> rfl
@[simp] theorem State.wm_k (r : MReg) (v : BitVec 4096) : (s.wm r v).k = s.k := by unfold State.wm; split <;> rfl
@[simp] theorem State.wm_ctxs (r : MReg) (v : BitVec 4096) : (s.wm r v).ctxs = s.ctxs := by unfold State.wm; split <;> rfl
@[simp] theorem State.wm_cores (r : MReg) (v : BitVec 4096) : (s.wm r v).cores = s.cores := by unfold State.wm; split <;> rfl
@[simp] theorem State.wm_clusters (r : MReg) (v : BitVec 4096) : (s.wm r v).clusters = s.clusters := by unfold State.wm; split <;> rfl
@[simp] theorem State.wm_dies (r : MReg) (v : BitVec 4096) : (s.wm r v).dies = s.dies := by unfold State.wm; split <;> rfl
@[simp] theorem State.wm_pkgs (r : MReg) (v : BitVec 4096) : (s.wm r v).pkgs = s.pkgs := by unfold State.wm; split <;> rfl
@[simp] theorem State.wm_mem (r : MReg) (v : BitVec 4096) : (s.wm r v).mem = s.mem := by unfold State.wm; split <;> rfl
@[simp] theorem State.wm_tags (r : MReg) (v : BitVec 4096) : (s.wm r v).tags = s.tags := by unfold State.wm; split <;> rfl
@[simp] theorem State.wm_unencoded (r : MReg) (v : BitVec 4096) : (s.wm r v).unencoded = s.unencoded := by unfold State.wm; split <;> rfl
@[simp] theorem State.wm_bad (r : MReg) (v : BitVec 4096) : (s.wm r v).bad = s.bad := by unfold State.wm; split <;> rfl
@[simp] theorem State.wm_assay (r : MReg) (v : BitVec 4096) : (s.wm r v).assay = s.assay := by unfold State.wm; split <;> rfl
@[simp] theorem State.wm_chans (r : MReg) (v : BitVec 4096) : (s.wm r v).chans = s.chans := by unfold State.wm; split <;> rfl
@[simp] theorem State.wm_host (r : MReg) (v : BitVec 4096) : (s.wm r v).host = s.host := by unfold State.wm; split <;> rfl
@[simp] theorem State.wm_laneSel (r : MReg) (v : BitVec 4096) : (s.wm r v).laneSel = s.laneSel := by unfold State.wm; split <;> rfl
@[simp] theorem State.wm_agenda (r : MReg) (v : BitVec 4096) : (s.wm r v).agenda = s.agenda := by unfold State.wm; split <;> rfl
@[simp] theorem State.wm_fresh (r : MReg) (v : BitVec 4096) : (s.wm r v).fresh = s.fresh := by unfold State.wm; split <;> rfl
@[simp] theorem State.wm_serial (r : MReg) (v : BitVec 4096) : (s.wm r v).serial = s.serial := by unfold State.wm; split <;> rfl
@[simp] theorem State.wm_tasks (r : MReg) (v : BitVec 4096) : (s.wm r v).tasks = s.tasks := by unfold State.wm; split <;> rfl

@[simp] theorem State.adv_here : (s.adv).here = s.here := by unfold State.adv; split <;> rfl
@[simp] theorem State.adv_k : (s.adv).k = s.k := by unfold State.adv; split <;> rfl
@[simp] theorem State.adv_ctxs : (s.adv).ctxs = s.ctxs := by unfold State.adv; split <;> rfl
@[simp] theorem State.adv_cores : (s.adv).cores = s.cores := by unfold State.adv; split <;> rfl
@[simp] theorem State.adv_clusters : (s.adv).clusters = s.clusters := by unfold State.adv; split <;> rfl
@[simp] theorem State.adv_dies : (s.adv).dies = s.dies := by unfold State.adv; split <;> rfl
@[simp] theorem State.adv_pkgs : (s.adv).pkgs = s.pkgs := by unfold State.adv; split <;> rfl
@[simp] theorem State.adv_mem : (s.adv).mem = s.mem := by unfold State.adv; split <;> rfl
@[simp] theorem State.adv_tags : (s.adv).tags = s.tags := by unfold State.adv; split <;> rfl
@[simp] theorem State.adv_unencoded : (s.adv).unencoded = s.unencoded := by unfold State.adv; split <;> rfl
@[simp] theorem State.adv_bad : (s.adv).bad = s.bad := by unfold State.adv; split <;> rfl
@[simp] theorem State.adv_assay : (s.adv).assay = s.assay := by unfold State.adv; split <;> rfl
@[simp] theorem State.adv_chans : (s.adv).chans = s.chans := by unfold State.adv; split <;> rfl
@[simp] theorem State.adv_host : (s.adv).host = s.host := by unfold State.adv; split <;> rfl
@[simp] theorem State.adv_laneSel : (s.adv).laneSel = s.laneSel := by unfold State.adv; split <;> rfl
@[simp] theorem State.adv_agenda : (s.adv).agenda = s.agenda := by unfold State.adv; split <;> rfl
@[simp] theorem State.adv_fresh : (s.adv).fresh = s.fresh := by unfold State.adv; split <;> rfl
@[simp] theorem State.adv_serial : (s.adv).serial = s.serial := by unfold State.adv; split <;> rfl
@[simp] theorem State.adv_tasks : (s.adv).tasks = s.tasks := by unfold State.adv; split <;> rfl

@[simp] theorem State.putCtx_here (g : Nat) (c : Ctx) : (s.putCtx g c).here = s.here := by unfold State.putCtx; split <;> rfl
@[simp] theorem State.putCtx_k (g : Nat) (c : Ctx) : (s.putCtx g c).k = s.k := by unfold State.putCtx; split <;> rfl
@[simp] theorem State.putCtx_cores (g : Nat) (c : Ctx) : (s.putCtx g c).cores = s.cores := by unfold State.putCtx; split <;> rfl
@[simp] theorem State.putCtx_clusters (g : Nat) (c : Ctx) : (s.putCtx g c).clusters = s.clusters := by unfold State.putCtx; split <;> rfl
@[simp] theorem State.putCtx_dies (g : Nat) (c : Ctx) : (s.putCtx g c).dies = s.dies := by unfold State.putCtx; split <;> rfl
@[simp] theorem State.putCtx_pkgs (g : Nat) (c : Ctx) : (s.putCtx g c).pkgs = s.pkgs := by unfold State.putCtx; split <;> rfl
@[simp] theorem State.putCtx_mem (g : Nat) (c : Ctx) : (s.putCtx g c).mem = s.mem := by unfold State.putCtx; split <;> rfl
@[simp] theorem State.putCtx_tags (g : Nat) (c : Ctx) : (s.putCtx g c).tags = s.tags := by unfold State.putCtx; split <;> rfl
@[simp] theorem State.putCtx_unencoded (g : Nat) (c : Ctx) : (s.putCtx g c).unencoded = s.unencoded := by unfold State.putCtx; split <;> rfl
@[simp] theorem State.putCtx_bad (g : Nat) (c : Ctx) : (s.putCtx g c).bad = s.bad := by unfold State.putCtx; split <;> rfl
@[simp] theorem State.putCtx_assay (g : Nat) (c : Ctx) : (s.putCtx g c).assay = s.assay := by unfold State.putCtx; split <;> rfl
@[simp] theorem State.putCtx_chans (g : Nat) (c : Ctx) : (s.putCtx g c).chans = s.chans := by unfold State.putCtx; split <;> rfl
@[simp] theorem State.putCtx_host (g : Nat) (c : Ctx) : (s.putCtx g c).host = s.host := by unfold State.putCtx; split <;> rfl
@[simp] theorem State.putCtx_laneSel (g : Nat) (c : Ctx) : (s.putCtx g c).laneSel = s.laneSel := by unfold State.putCtx; split <;> rfl
@[simp] theorem State.putCtx_agenda (g : Nat) (c : Ctx) : (s.putCtx g c).agenda = s.agenda := by unfold State.putCtx; split <;> rfl
@[simp] theorem State.putCtx_fresh (g : Nat) (c : Ctx) : (s.putCtx g c).fresh = s.fresh := by unfold State.putCtx; split <;> rfl
@[simp] theorem State.putCtx_serial (g : Nat) (c : Ctx) : (s.putCtx g c).serial = s.serial := by unfold State.putCtx; split <;> rfl
@[simp] theorem State.putCtx_tasks (g : Nat) (c : Ctx) : (s.putCtx g c).tasks = s.tasks := by unfold State.putCtx; split <;> rfl

@[simp] theorem State.putCore_here (n : Nat) (k : Core) : (s.putCore n k).here = s.here := by unfold State.putCore; split <;> rfl
@[simp] theorem State.putCore_c (n : Nat) (k : Core) : (s.putCore n k).c = s.c := by unfold State.putCore; split <;> rfl
@[simp] theorem State.putCore_ctxs (n : Nat) (k : Core) : (s.putCore n k).ctxs = s.ctxs := by unfold State.putCore; split <;> rfl
@[simp] theorem State.putCore_clusters (n : Nat) (k : Core) : (s.putCore n k).clusters = s.clusters := by unfold State.putCore; split <;> rfl
@[simp] theorem State.putCore_dies (n : Nat) (k : Core) : (s.putCore n k).dies = s.dies := by unfold State.putCore; split <;> rfl
@[simp] theorem State.putCore_pkgs (n : Nat) (k : Core) : (s.putCore n k).pkgs = s.pkgs := by unfold State.putCore; split <;> rfl
@[simp] theorem State.putCore_mem (n : Nat) (k : Core) : (s.putCore n k).mem = s.mem := by unfold State.putCore; split <;> rfl
@[simp] theorem State.putCore_tags (n : Nat) (k : Core) : (s.putCore n k).tags = s.tags := by unfold State.putCore; split <;> rfl
@[simp] theorem State.putCore_unencoded (n : Nat) (k : Core) : (s.putCore n k).unencoded = s.unencoded := by unfold State.putCore; split <;> rfl
@[simp] theorem State.putCore_bad (n : Nat) (k : Core) : (s.putCore n k).bad = s.bad := by unfold State.putCore; split <;> rfl
@[simp] theorem State.putCore_assay (n : Nat) (k : Core) : (s.putCore n k).assay = s.assay := by unfold State.putCore; split <;> rfl
@[simp] theorem State.putCore_chans (n : Nat) (k : Core) : (s.putCore n k).chans = s.chans := by unfold State.putCore; split <;> rfl
@[simp] theorem State.putCore_host (n : Nat) (k : Core) : (s.putCore n k).host = s.host := by unfold State.putCore; split <;> rfl
@[simp] theorem State.putCore_laneSel (n : Nat) (k : Core) : (s.putCore n k).laneSel = s.laneSel := by unfold State.putCore; split <;> rfl
@[simp] theorem State.putCore_agenda (n : Nat) (k : Core) : (s.putCore n k).agenda = s.agenda := by unfold State.putCore; split <;> rfl
@[simp] theorem State.putCore_fresh (n : Nat) (k : Core) : (s.putCore n k).fresh = s.fresh := by unfold State.putCore; split <;> rfl
@[simp] theorem State.putCore_serial (n : Nat) (k : Core) : (s.putCore n k).serial = s.serial := by unfold State.putCore; split <;> rfl
@[simp] theorem State.putCore_tasks (n : Nat) (k : Core) : (s.putCore n k).tasks = s.tasks := by unfold State.putCore; split <;> rfl

@[simp] theorem State.writeback_here : (s.writeback).here = s.here := rfl
@[simp] theorem State.writeback_k : (s.writeback).k = s.k := rfl
@[simp] theorem State.writeback_ctxs : (s.writeback).ctxs = s.ctxs := rfl
@[simp] theorem State.writeback_cores : (s.writeback).cores = s.cores := rfl
@[simp] theorem State.writeback_clusters : (s.writeback).clusters = s.clusters := rfl
@[simp] theorem State.writeback_dies : (s.writeback).dies = s.dies := rfl
@[simp] theorem State.writeback_pkgs : (s.writeback).pkgs = s.pkgs := rfl
@[simp] theorem State.writeback_mem : (s.writeback).mem = s.mem := rfl
@[simp] theorem State.writeback_tags : (s.writeback).tags = s.tags := rfl
@[simp] theorem State.writeback_unencoded : (s.writeback).unencoded = s.unencoded := rfl
@[simp] theorem State.writeback_bad : (s.writeback).bad = s.bad := rfl
@[simp] theorem State.writeback_assay : (s.writeback).assay = s.assay := rfl
@[simp] theorem State.writeback_chans : (s.writeback).chans = s.chans := rfl
@[simp] theorem State.writeback_host : (s.writeback).host = s.host := rfl
@[simp] theorem State.writeback_laneSel : (s.writeback).laneSel = s.laneSel := rfl
@[simp] theorem State.writeback_agenda : (s.writeback).agenda = s.agenda := rfl
@[simp] theorem State.writeback_fresh : (s.writeback).fresh = s.fresh := rfl
@[simp] theorem State.writeback_serial : (s.writeback).serial = s.serial := rfl
@[simp] theorem State.writeback_tasks : (s.writeback).tasks = s.tasks := rfl

@[simp] theorem State.flush_here : (s.flush).here = s.here := rfl
@[simp] theorem State.flush_k : (s.flush).k = s.k := rfl
@[simp] theorem State.flush_ctxs : (s.flush).ctxs = s.ctxs := rfl
@[simp] theorem State.flush_cores : (s.flush).cores = s.cores := rfl
@[simp] theorem State.flush_clusters : (s.flush).clusters = s.clusters := rfl
@[simp] theorem State.flush_dies : (s.flush).dies = s.dies := rfl
@[simp] theorem State.flush_pkgs : (s.flush).pkgs = s.pkgs := rfl
@[simp] theorem State.flush_mem : (s.flush).mem = s.mem := rfl
@[simp] theorem State.flush_tags : (s.flush).tags = s.tags := rfl
@[simp] theorem State.flush_unencoded : (s.flush).unencoded = s.unencoded := rfl
@[simp] theorem State.flush_bad : (s.flush).bad = s.bad := rfl
@[simp] theorem State.flush_assay : (s.flush).assay = s.assay := rfl
@[simp] theorem State.flush_chans : (s.flush).chans = s.chans := rfl
@[simp] theorem State.flush_host : (s.flush).host = s.host := rfl
@[simp] theorem State.flush_laneSel : (s.flush).laneSel = s.laneSel := rfl
@[simp] theorem State.flush_agenda : (s.flush).agenda = s.agenda := rfl
@[simp] theorem State.flush_fresh : (s.flush).fresh = s.fresh := rfl
@[simp] theorem State.flush_serial : (s.flush).serial = s.serial := rfl
@[simp] theorem State.flush_tasks : (s.flush).tasks = s.tasks := rfl

@[simp] theorem State.settle_here (n : Nat) : (s.settle n).here = s.here := rfl
@[simp] theorem State.settle_k (n : Nat) : (s.settle n).k = s.k := rfl
@[simp] theorem State.settle_ctxs (n : Nat) : (s.settle n).ctxs = s.ctxs := rfl
@[simp] theorem State.settle_cores (n : Nat) : (s.settle n).cores = s.cores := rfl
@[simp] theorem State.settle_clusters (n : Nat) : (s.settle n).clusters = s.clusters := rfl
@[simp] theorem State.settle_dies (n : Nat) : (s.settle n).dies = s.dies := rfl
@[simp] theorem State.settle_pkgs (n : Nat) : (s.settle n).pkgs = s.pkgs := rfl
@[simp] theorem State.settle_mem (n : Nat) : (s.settle n).mem = s.mem := rfl
@[simp] theorem State.settle_tags (n : Nat) : (s.settle n).tags = s.tags := rfl
@[simp] theorem State.settle_unencoded (n : Nat) : (s.settle n).unencoded = s.unencoded := rfl
@[simp] theorem State.settle_bad (n : Nat) : (s.settle n).bad = s.bad := rfl
@[simp] theorem State.settle_assay (n : Nat) : (s.settle n).assay = s.assay := rfl
@[simp] theorem State.settle_chans (n : Nat) : (s.settle n).chans = s.chans := rfl
@[simp] theorem State.settle_host (n : Nat) : (s.settle n).host = s.host := rfl
@[simp] theorem State.settle_laneSel (n : Nat) : (s.settle n).laneSel = s.laneSel := rfl
@[simp] theorem State.settle_agenda (n : Nat) : (s.settle n).agenda = s.agenda := rfl
@[simp] theorem State.settle_fresh (n : Nat) : (s.settle n).fresh = s.fresh := rfl
@[simp] theorem State.settle_serial (n : Nat) : (s.settle n).serial = s.serial := rfl
@[simp] theorem State.settle_tasks (n : Nat) : (s.settle n).tasks = s.tasks := rfl

@[simp] theorem State.wake_here (l : Lay) (pa n : Nat) : (s.wake l pa n).here = s.here := by unfold State.wake; split <;> rfl
@[simp] theorem State.wake_c (l : Lay) (pa n : Nat) : (s.wake l pa n).c = s.c := by unfold State.wake; split <;> rfl
@[simp] theorem State.wake_k (l : Lay) (pa n : Nat) : (s.wake l pa n).k = s.k := by unfold State.wake; split <;> rfl
@[simp] theorem State.wake_ctxs (l : Lay) (pa n : Nat) : (s.wake l pa n).ctxs = s.ctxs := by unfold State.wake; split <;> rfl
@[simp] theorem State.wake_cores (l : Lay) (pa n : Nat) : (s.wake l pa n).cores = s.cores := by unfold State.wake; split <;> rfl
@[simp] theorem State.wake_clusters (l : Lay) (pa n : Nat) : (s.wake l pa n).clusters = s.clusters := by unfold State.wake; split <;> rfl
@[simp] theorem State.wake_dies (l : Lay) (pa n : Nat) : (s.wake l pa n).dies = s.dies := by unfold State.wake; split <;> rfl
@[simp] theorem State.wake_pkgs (l : Lay) (pa n : Nat) : (s.wake l pa n).pkgs = s.pkgs := by unfold State.wake; split <;> rfl
@[simp] theorem State.wake_mem (l : Lay) (pa n : Nat) : (s.wake l pa n).mem = s.mem := by unfold State.wake; split <;> rfl
@[simp] theorem State.wake_tags (l : Lay) (pa n : Nat) : (s.wake l pa n).tags = s.tags := by unfold State.wake; split <;> rfl
@[simp] theorem State.wake_unencoded (l : Lay) (pa n : Nat) : (s.wake l pa n).unencoded = s.unencoded := by unfold State.wake; split <;> rfl
@[simp] theorem State.wake_bad (l : Lay) (pa n : Nat) : (s.wake l pa n).bad = s.bad := by unfold State.wake; split <;> rfl
@[simp] theorem State.wake_assay (l : Lay) (pa n : Nat) : (s.wake l pa n).assay = s.assay := by unfold State.wake; split <;> rfl
@[simp] theorem State.wake_host (l : Lay) (pa n : Nat) : (s.wake l pa n).host = s.host := by unfold State.wake; split <;> rfl
@[simp] theorem State.wake_laneSel (l : Lay) (pa n : Nat) : (s.wake l pa n).laneSel = s.laneSel := by unfold State.wake; split <;> rfl
@[simp] theorem State.wake_agenda (l : Lay) (pa n : Nat) : (s.wake l pa n).agenda = s.agenda := by unfold State.wake; split <;> rfl
@[simp] theorem State.wake_fresh (l : Lay) (pa n : Nat) : (s.wake l pa n).fresh = s.fresh := by unfold State.wake; split <;> rfl
@[simp] theorem State.wake_serial (l : Lay) (pa n : Nat) : (s.wake l pa n).serial = s.serial := by unfold State.wake; split <;> rfl
@[simp] theorem State.wake_tasks (l : Lay) (pa n : Nat) : (s.wake l pa n).tasks = s.tasks := by unfold State.wake; split <;> rfl

/-! Registers: what a write leaves in each. -/

/-- x0 discards a write (R99). -/
@[simp] theorem State.wx_zero (v : Word) : s.wx 0 v = s := rfl

theorem State.wx_x (r q : XReg) (v : Word) : (s.wx r v).c.x[q] = if q = r ∧ r ≠ 0 then v else s.c.x[q] := by
  unfold State.wx
  by_cases hr : r = 0
  · simp [hr]
  · by_cases hq : q = r
    · simp [hr, hq]
    · have : (r : Nat) ≠ q := fun h => hq (Fin.ext h.symm)
      simp [hr, hq, this]

/-- m0 discards a write (R51). -/
@[simp] theorem State.wm_zero (v : BitVec 4096) : s.wm 0 v = s := rfl

theorem State.wm_m (r q : MReg) (v : BitVec 4096) : (s.wm r v).c.m[q] = if q = r ∧ r ≠ 0 then v else s.c.m[q] := by
  unfold State.wm
  by_cases hr : r = 0
  · simp [hr]
  · by_cases hq : q = r
    · simp [hr, hq]
    · have : (r : Nat) ≠ q := fun h => hq (Fin.ext h.symm)
      simp [hr, hq, this]

/-- Outside a block an instruction is done at the next address. -/
theorem State.adv_of_scu (h : s.laneSel = none) : s.adv = s.goto (s.c.pc + 8) := by unfold State.adv; rw [h]

theorem State.rx_of_scu (h : s.laneSel = none) (r : XReg) : s.rx r = if r = 0 then 0 else s.c.x[r] := by
  unfold State.rx; rw [h]; rfl

/-! Units: a read after a write. -/

theorem State.ctxAt_putCtx (g : Nat) (c : Ctx) (h : tabWf Ctx.reset s.ctxs = true) (n : Nat) :
    (s.putCtx g c).ctxAt n = if n = g then c else s.ctxAt n := by
  unfold State.putCtx State.ctxAt
  by_cases hg : g = s.here
  · subst hg
    by_cases hn : n = s.here <;> simp [hn]
  · by_cases hn : n = g
    · simp [hg, hn, tabGet_set _ _ _ _ _ h]
    · simp [hg, hn, tabGet_set _ _ _ _ _ h]

theorem State.dieAt_onDie (n : Nat) (f : Die → Die) (h : tabWf Die.reset s.dies = true) (j : Nat) :
    (s.onDie n f).dieAt j = if j = n then f (s.dieAt n) else s.dieAt j := tabGet_set _ _ _ _ _ h

theorem State.pkgAt_onPkg (n : Nat) (f : Pkg → Pkg) (h : tabWf Pkg.reset s.pkgs = true) (j : Nat) :
    (s.onPkg n f).pkgAt j = if j = n then f (s.pkgAt n) else s.pkgAt j := tabGet_set _ _ _ _ _ h

theorem State.clusterAt_onCluster (n : Nat) (f : Cluster → Cluster) (h : tabWf Cluster.reset s.clusters = true) (j : Nat) :
    (s.onCluster n f).clusterAt j = if j = n then f (s.clusterAt n) else s.clusterAt j := tabGet_set _ _ _ _ _ h

end Sys2Proof.Machine
end

