-- ==== Sys2Proof/Laws/Mem.lean ====
section
/-! SUPPORT. What the operations over memory can do, said once for each: which fields they change, and that they keep the canonical
form of memory, tags and packages. -/

namespace Sys2Proof.Machine

/-- What an access to memory may change: bytes, tags, errors in units, the digest, pseudo-channels and the counts of errors; the
tables keep their canonical form. -/
def MemStep (s t : State) : Prop :=
  (∃ mem tags bad assay chans pkgs,
    t = { s with mem := mem, tags := tags, bad := bad, assay := assay, chans := chans, pkgs := pkgs }) ∧
  (s.MemOk → t.MemOk) ∧ (tabWf 0 s.tags = true → tabWf 0 t.tags = true) ∧
  (tabWf Pkg.reset s.pkgs = true → tabWf Pkg.reset t.pkgs = true)

theorem MemStep.refl (s : State) : MemStep s s := ⟨⟨_, _, _, _, _, _, rfl⟩, id, id, id⟩

theorem MemStep.trans {s t u : State} (h : MemStep s t) (k : MemStep t u) : MemStep s u := by
  obtain ⟨⟨_, _, _, _, _, _, rfl⟩, h1, h2, h3⟩ := h
  obtain ⟨⟨_, _, _, _, _, _, rfl⟩, k1, k2, k3⟩ := k
  exact ⟨⟨_, _, _, _, _, _, rfl⟩, k1 ∘ h1, k2 ∘ h2, k3 ∘ h3⟩

/-- An access leaves the context in hand, and everything that is no memory, as it was. -/
theorem MemStep.c {s t : State} (h : MemStep s t) : t.c = s.c := by obtain ⟨⟨_, _, _, _, _, _, rfl⟩, _⟩ := h; rfl
theorem MemStep.k {s t : State} (h : MemStep s t) : t.k = s.k := by obtain ⟨⟨_, _, _, _, _, _, rfl⟩, _⟩ := h; rfl
theorem MemStep.here {s t : State} (h : MemStep s t) : t.here = s.here := by obtain ⟨⟨_, _, _, _, _, _, rfl⟩, _⟩ := h; rfl
theorem MemStep.ctxs {s t : State} (h : MemStep s t) : t.ctxs = s.ctxs := by obtain ⟨⟨_, _, _, _, _, _, rfl⟩, _⟩ := h; rfl
theorem MemStep.dies {s t : State} (h : MemStep s t) : t.dies = s.dies := by obtain ⟨⟨_, _, _, _, _, _, rfl⟩, _⟩ := h; rfl

/-! Reads (R340). -/

theorem setBad_step (s : State) (u : Nat) (b : Bad) : MemStep s (s.setBad u b) := ⟨⟨_, _, _, _, _, _, rfl⟩, id, id, id⟩

theorem count_step (s : State) (p : Nat) (c : Count) (u n : Nat) : MemStep s (s.count p c u n) :=
  ⟨⟨_, _, _, _, _, _, rfl⟩, id, id, fun h => tabWf_set h⟩

theorem wake_step (s : State) (lay : Lay) (pa n : Nat) : MemStep s (s.wake lay pa n) := by
  unfold State.wake
  split
  · exact .refl s
  · exact ⟨⟨_, _, _, _, _, _, rfl⟩, id, id, id⟩

theorem classed_step (s : State) (u : ErrUnit) (c : Option Count) : MemStep s (s.classed u c) := by
  cases c with
  | none => exact .refl s
  | some c => exact count_step _ _ _ _ _

theorem readUnit_step (s : State) (lay : Lay) (u : Nat) : MemStep s (s.readUnit lay u).1 :=
  (setBad_step _ _ _).trans (classed_step _ _ _)

theorem readUnits_step (lay : Lay) (l : List (Nat × Nat)) : ∀ s : State, MemStep s (s.readUnits lay l).1 := by
  induction l with
  | nil => exact fun s => .refl s
  | cons p t ih =>
    intro s
    have h := readUnit_step s lay p.1
    simp only [State.readUnits]
    split
    · rename_i heq; rw [heq] at h; exact h
    · rename_i heq; rw [heq] at h; exact h.trans (ih _)

/-- Units are looked up where there is an error in the machine alone. -/
theorem readUnits_if_step (s : State) (lay : Lay) (l : List (Nat × Nat)) :
    MemStep s (if s.bad = [] then (s, none) else s.readUnits lay l).1 := by
  split
  · exact .refl s
  · exact readUnits_step lay l s

theorem readParts_step (lay : Lay) (f : Nat) : ∀ (s : State) (pa n : Nat), MemStep s (s.readParts lay f pa n).1 := by
  induction f with
  | zero => exact fun s _ _ => .refl s
  | succ f ih =>
    intro s pa n
    simp only [State.readParts]
    split
    · exact .refl s
    · split
      · exact .refl s
      · have h := readUnits_if_step s lay (s.partUnits lay.raw pa (min n (128 - pa % 128)))
        split
        · rename_i heq; rw [heq] at h; exact h
        · rename_i heq; rw [heq] at h; exact h.trans (ih _ _ _)

/-- A read that is checked for errors changes no byte and no register. -/
theorem checkRead_step (s : State) (lay : Lay) (pa n : Nat) : MemStep s (s.checkRead lay pa n).1 := by
  simp only [State.checkRead]
  split
  · exact (wake_step s lay pa n).trans (readParts_step _ _ _ _ _)
  · exact (wake_step s lay pa n).trans (readUnits_if_step _ _ _)

/-! Writes (R310 to R312, R324, R340). -/

theorem recode_step (s : State) (u : Nat) (poison : Bool) : MemStep s (s.recode u poison) := by
  simp only [State.recode]
  split
  · exact .refl s
  · exact setBad_step _ _ _

theorem writeUnits_step (lay : Lay) (f : Nat) : ∀ (s : State) (pa n : Nat), MemStep s (s.writeUnits lay f pa n) := by
  induction f with
  | zero => exact fun s _ _ => .refl s
  | succ f ih =>
    intro s pa n
    have h := readUnit_step s lay (unitOf pa)
    simp only [State.writeUnits]
    split
    · exact .refl s
    · refine MemStep.trans ?_ (ih _ _ _)
      split
      · exact recode_step _ _ _
      · split
        · rename_i heq; rw [heq] at h; exact h.trans (recode_step _ _ _)
        · rename_i heq; rw [heq] at h; exact h

theorem writeUnits_if_step (s : State) (lay : Lay) (f pa n : Nat) :
    MemStep s (if s.bad = [] then s else s.writeUnits lay f pa n) := by
  split
  · exact .refl s
  · exact writeUnits_step _ _ _ _ _

/-- A fold of steps is a step. -/
theorem foldl_step {α : Type} (f : State → α → State) (hf : ∀ s a, MemStep s (f s a)) (l : List α) :
    ∀ s : State, MemStep s (l.foldl f s) := by
  induction l with
  | nil => exact fun s => .refl s
  | cons a t ih => exact fun s => (hf s a).trans (ih _)

theorem recodeLine_step (s : State) (lay : Lay) (line n k : Nat) : MemStep s (s.recodeLine lay line n k) := by
  have reads (l : List (Nat × Nat)) : ∀ a : State × Bool, MemStep a.1
      (l.foldl (fun a u => ((a.1.readUnit lay u.1).1, a.2 || (a.1.readUnit lay u.1).2)) a).1 := by
    induction l with
    | nil => exact fun a => .refl a.1
    | cons u t ih => exact fun a => (readUnit_step a.1 lay u.1).trans (ih _)
  simp only [State.recodeLine]
  split
  · exact foldl_step _ (fun t j => recode_step _ _ _) _ s
  · exact (reads _ (s, false)).trans (foldl_step _ (fun t j => recode_step _ _ _) _ _)

theorem putRaw_step (bs : List Byte) : ∀ (s : State) (pa : Nat), MemStep s (s.putRaw pa bs) := by
  induction bs with
  | nil => exact fun s _ => .refl s
  | cons b t ih =>
    intro s pa
    exact MemStep.trans ⟨⟨_, _, _, _, _, _, rfl⟩, fun h => tabWf_set h, id, id⟩ (ih { s with mem := tabSet 0 s.mem pa b } (pa + 1))

/-- What each byte is after bytes are put into the arrays: those of the list where they were put, else as before. -/
theorem putRaw_byte (bs : List Byte) : ∀ (s : State) (pa a : Nat), s.MemOk →
    tabGet 0 (s.putRaw pa bs).mem a = if pa ≤ a ∧ a < pa + bs.length then bs.getD (a - pa) 0 else tabGet 0 s.mem a := by
  induction bs with
  | nil =>
    intro s pa a _
    rw [if_neg (by simp)]
    rfl
  | cons b t ih =>
    intro s pa a h
    have hw : State.MemOk { s with mem := tabSet 0 s.mem pa b } := tabWf_set h
    simp only [State.putRaw, ih _ _ _ hw, tabGet_set _ _ _ _ _ h, List.length_cons]
    by_cases ha : a = pa
    · subst ha
      simp
    · by_cases hr : pa + 1 ≤ a ∧ a < pa + 1 + t.length
      · rw [if_pos hr, if_pos (by omega)]
        have : a - pa = (a - (pa + 1)) + 1 := by omega
        rw [this]
        simp
      · rw [if_neg hr, if_neg ha, if_neg (by omega)]

theorem addAssay_step (s : State) (k : Nat) (i : Fin 256) (d : Word) : MemStep s (s.addAssay k i d) :=
  ⟨⟨_, _, _, _, _, _, rfl⟩, id, id, id⟩

/-- A line's tag beside what a step has left (R310). -/
theorem tag_step {s t : State} (h : MemStep s t) (line g : Nat) : MemStep s { t with tags := tabSet 0 s.tags line g } := by
  obtain ⟨⟨_, _, _, _, _, _, rfl⟩, h1, -, h3⟩ := h
  exact ⟨⟨_, _, _, _, _, _, rfl⟩, h1, fun hw => tabWf_set hw, h3⟩

theorem putLine_step (s : State) (i : Option (Fin 256)) (lay : Lay) (line o : Nat) (bs : List Byte) :
    MemStep s (s.putLine i lay line o bs) := by
  unfold State.putLine
  extract_lets before after e t u s1 w
  have main : MemStep s s1 := by
    unfold s1
    split
    · exact (writeUnits_if_step _ _ _ _ _).trans (putRaw_step _ _ _)
    · refine tag_step (MemStep.trans ?_ (putRaw_step _ t _)) _ _
      unfold t
      split
      · exact .refl s
      · exact recodeLine_step _ _ _ _ _
  cases i with
  | none => exact main
  | some i => exact main.trans (addAssay_step _ _ _ _)

theorem putLines_step (id : Option (Fin 256)) (lay : Lay) (f : Nat) :
    ∀ (s : State) (pa : Nat) (bs : List Byte), MemStep s (s.putLines id lay f pa bs) := by
  induction f with
  | zero => exact fun s _ _ => .refl s
  | succ f ih =>
    intro s pa bs
    simp only [State.putLines]
    split
    · exact .refl s
    · exact (putLine_step s id lay _ _ _).trans (ih _ _ _)

/-- Bytes put into memory change memory alone, in canonical form. -/
theorem putBytes_step (s : State) (id : Option (Fin 256)) (lay : Lay) (pa : Nat) (bs : List Byte) :
    MemStep s (s.putBytes id lay pa bs) := by
  simp only [State.putBytes]
  split
  · exact (wake_step _ _ _ _).trans (putLines_step _ _ _ _ _ _)
  · exact (wake_step _ _ _ _).trans ((writeUnits_if_step _ _ _ _ _).trans (putRaw_step _ _ _))

/-! Translation (R195 to R200). -/

theorem setUsed_step (s : State) (l : Leaf) (wr : Bool) : MemStep s (s.setUsed l wr) := by
  unfold State.setUsed
  extract_lets w
  by_cases h : w = l.w0
  · rw [if_pos h]
    exact .refl s
  · rw [if_neg h]
    exact putBytes_step _ _ _ _ _

theorem readEntry_step (s : State) (e : Nat) : MemStep s (s.readEntry e).1 := by
  simp only [State.readEntry]
  split
  · exact wake_step _ _ _ _
  · exact (wake_step _ _ _ _).trans (readUnits_step _ _ _)

theorem readEntries_step (l : List Nat) : ∀ s : State, MemStep s (s.readEntries l).1 := by
  induction l with
  | nil => exact fun s => .refl s
  | cons e t ih =>
    intro s
    have h := readEntry_step s e
    simp only [State.readEntries]
    split
    · rename_i heq; rw [heq] at h; exact h
    · rename_i heq; rw [heq] at h; exact h.trans (ih _)

/-- The reads of a walk change what reads change: how errors stand, and the pseudo-channels they wake. -/
theorem readWalk_step (s : State) (v : View) (va : Nat) : MemStep s (s.readWalk v va).1 := by
  simp only [State.readWalk]
  split
  · exact .refl s
  · exact readEntries_step _ _

/-- While no pseudo-channel sleeps and no error stands a walk changes nothing. -/
@[simp] theorem readWalk_quiet {s : State} (h : s.chans = []) (hb : s.bad = []) (v : View) (va : Nat) : s.readWalk v va = (s, none) := by
  simp [State.readWalk, h, hb]

/-- A translation changes at most the used bits of its leaf, and what the reads of its walk change. -/
theorem translate_step (s : State) (v : View) (va : Nat) (n : Need) (ap : Ap) : MemStep s (s.translate v va n ap).1 := by
  have h := readWalk_step s v va
  unfold State.translate
  split
  · rename_i heq; rw [heq] at h; exact h
  · rename_i heq
    rw [heq] at h
    split
    · exact h
    · extract_lets pa
      split
      · exact h
      · exact h.trans (setUsed_step _ _ _)

/-- A translation that fails changes nothing but what the reads of its walk change. -/
theorem translate_error {s t : State} {v : View} {va : Nat} {n : Need} {ap : Ap} {e : Miss}
    (h : s.translate v va n ap = (t, .error e)) : t = (s.readWalk v va).1 := by
  unfold State.translate at h
  split at h
  · rename_i heq
    rw [heq]
    exact (Prod.mk.inj h).1.symm
  · rename_i heq
    rw [heq]
    split at h
    · exact (Prod.mk.inj h).1.symm
    · dsimp only at h
      split at h
      · exact (Prod.mk.inj h).1.symm
      · exact absurd (Prod.mk.inj h).2 (by simp)

/-! A write of an agent (R233): memory, and the watch events it queues. -/

/-- What a watch event may change of a context. -/
theorem noteWrite_ctx (c : Ctx) (g : Nat) (a : Agent) (pa len : Nat) :
    ∃ e l, c.noteWrite g a pa len = { c with event := e, lost := l } := by
  unfold Ctx.noteWrite
  split
  · exact ⟨_, _, rfl⟩
  · split
    · exact ⟨_, _, rfl⟩
    · split <;> exact ⟨_, _, rfl⟩

/-- A write changes memory as an access does, the watch event of each context, and nothing else. -/
theorem write_step (s : State) (a : Agent) (lay : Lay) (pa : Nat) (bs : List Byte) :
    ∃ u e l cs w, MemStep s u ∧
      s.write a lay pa bs = { u with c := { s.c with event := e, lost := l }, ctxs := cs, unencoded := w } := by
  obtain ⟨e, l, h⟩ := noteWrite_ctx s.c s.here (a.seenAt pa) pa bs.length
  have hs := putBytes_step s (a.assayAt pa) lay pa bs
  refine ⟨_, e, l, s.ctxs.map fun x => (x.1, x.2.noteWrite x.1 (a.seenAt pa) pa bs.length), s.waiting a lay pa bs, hs, ?_⟩
  simp only [State.write, State.noteWrite, hs.c, hs.here, hs.ctxs, h]

/-- A write keeps memory in canonical form. -/
theorem write_memOk (s : State) (a : Agent) (lay : Lay) (pa : Nat) (bs : List Byte) (h : s.MemOk) : (s.write a lay pa bs).MemOk :=
  (putBytes_step s (a.assayAt pa) lay pa bs).2.1 h

/-! What waits in line buffers keeps the canonical form (R313). -/

theorem buffer_wf (s : State) (w : Nat × Cls) (pa n : Nat) (h : tabWf Unencoded.none s.unencoded = true) :
    tabWf Unencoded.none (s.buffer w pa n) = true := by
  unfold State.buffer
  generalize s.unencoded = u at h ⊢
  suffices hs : ∀ (l : List Nat) (f : Nat → Unencoded) (u : Tab Unencoded), tabWf Unencoded.none u = true →
      tabWf Unencoded.none (l.foldl (fun u k => tabSet Unencoded.none u k (f k)) u) = true from hs _ _ u h
  intro l f
  induction l with
  | nil => exact fun _ h => h
  | cons k t ih => exact fun u h => ih _ (tabWf_set h)

theorem patchRaw_wf (bs : List Byte) : ∀ (u : Tab Unencoded) (pa : Nat), tabWf Unencoded.none u = true →
    tabWf Unencoded.none (patchRaw u pa bs) = true := by
  induction bs with
  | nil => exact fun _ _ h => h
  | cons b t ih =>
    intro u pa h
    simp only [patchRaw]
    split
    · exact ih _ _ h
    · exact ih _ _ (tabWf_set h)

theorem waiting_wf (s : State) (a : Agent) (lay : Lay) (pa : Nat) (bs : List Byte) (h : tabWf Unencoded.none s.unencoded = true) :
    tabWf Unencoded.none (s.waiting a lay pa bs) = true := by
  unfold State.waiting
  split
  · exact h
  · split
    · exact patchRaw_wf _ _ _ h
    · split
      · split
        · rfl
        · exact tabWf_filter _ h
      · split
        · rfl
        · exact tabWf_filter _ h
      · exact buffer_wf _ _ _ _ h

theorem encoded_wf (s : State) (g : Nat) (ok : Cls → Bool) (h : tabWf Unencoded.none s.unencoded = true) :
    tabWf Unencoded.none (s.encoded g ok).unencoded = true := tabWf_filter _ h

/-- Clearing a range of a record (R240) keeps memory in canonical form. -/
theorem clear_memOk (s : State) (lo n : Nat) (h : s.MemOk) : Memory.wf (tabClear s.mem lo n) = true := tabWf_clear lo n h

/-- A package that comes up, or loses power, leaves memory in canonical form. -/
theorem dropPkg_memOk (s : State) (w p : Nat) (h : s.MemOk) : Memory.wf (dropPkg w p s.mem) = true := tabWf_filter _ h

/-- Memory is in canonical form at reset. -/
theorem reset_memOk : State.reset.MemOk := rfl

/-! Held stores (R270): performing one is a write. -/

theorem foldl_memOk {α : Type} (f : State → α → State) (hf : ∀ s a, s.MemOk → (f s a).MemOk) (l : List α) :
    ∀ s : State, s.MemOk → (l.foldl f s).MemOk := by
  induction l with
  | nil => exact fun _ h => h
  | cons a t ih => exact fun s h => ih _ (hf s a h)

theorem release_memOk (s : State) (g : Nat) (l : HeldLine) (h : s.MemOk) : (s.release g l).MemOk :=
  foldl_memOk _ (fun t _ ht => write_memOk t _ _ _ _ ht) _ s h

theorem putCtx_memOk (s : State) (g : Nat) (c : Ctx) (h : s.MemOk) : (s.putCtx g c).MemOk := by
  unfold State.MemOk
  rw [State.putCtx_mem]
  exact h

theorem releaseIf_memOk (s : State) (g : Nat) (p : HeldLine → Bool) (h : s.MemOk) : (s.releaseIf g p).MemOk :=
  foldl_memOk _ (fun t l ht => release_memOk t g l ht) _ _ (putCtx_memOk s g _ h)

theorem holdPart_memOk (s : State) (pa : Nat) (lay : Lay) (bs : List Byte) (h : s.MemOk) : (s.holdPart pa lay bs).MemOk := by
  simp only [State.holdPart]
  split
  · exact h
  · split
    · split
      · exact release_memOk _ _ _ h
      · exact h
    · exact h

theorem hold_memOk (f : Nat) : ∀ (s : State) (pa : Nat) (lay : Lay) (bs : List Byte), s.MemOk → (s.hold f pa lay bs).MemOk := by
  induction f with
  | zero => exact fun _ _ _ _ h => h
  | succ f ih =>
    intro s pa lay bs h
    simp only [State.hold]
    split
    · exact h
    · exact ih _ _ _ _ (holdPart_memOk s pa lay _ h)

/-! The device's own accesses, and taking a trap (R224). -/

theorem devWrite_memOk (f : Nat) : ∀ (s : State) (va : Word) (bs : List Byte), s.MemOk → (s.devWrite f va bs).1.MemOk := by
  induction f with
  | zero => exact fun _ _ _ h => h
  | succ f ih =>
    intro s va bs h
    have ht := translate_step s s.view va.toNat Need.write .plain
    simp only [State.devWrite]
    split
    · exact h
    · split
      · rename_i heq; rw [heq] at ht; exact ht.2.1 h
      · rename_i heq; rw [heq] at ht; exact ih _ _ _ (write_memOk _ _ _ _ _ (ht.2.1 h))

end Sys2Proof.Machine
end

