-- ==== Sys2Proof/Laws/Walk.lean ====
section
/-! SUPPORT. What a translation depends on: the entries it reads, byte by byte, and nothing else of memory (R195 to R200). -/

namespace Sys2Proof.Machine

/-- The value of bytes does not depend on zeros past their end. -/
theorem leNat_ext : ∀ l m : List Byte, (∀ j, l.getD j 0 = m.getD j 0) → leNat l = leNat m := by
  intro l
  induction l with
  | nil =>
    intro m
    induction m with
    | nil => exact fun _ => rfl
    | cons b t ih =>
      intro h
      have hb : b = 0 := by simpa using (h 0).symm
      have ht := ih fun j => by simpa using h (j + 1)
      have ht' : leNat t = 0 := ht.symm
      simp [leNat, hb, ht']
  | cons a t ih =>
    intro m h
    cases m with
    | nil =>
      have ha : a = 0 := by simpa using h 0
      have ht : leNat t = leNat [] := ih [] fun j => by simpa using h (j + 1)
      have ht' : leNat t = 0 := ht
      simp [leNat, ha, ht']
    | cons b u =>
      have hab : a = b := by simpa using h 0
      have ht := ih u fun j => by simpa using h (j + 1)
      simp [leNat, hab, ht]

theorem rawBytes_length (s : State) : ∀ n pa, (s.rawBytes pa n).length = n := by
  intro n
  induction n with
  | zero => exact fun _ => rfl
  | succ n ih => intro pa; simp [State.rawBytes, ih]

theorem rawBytes_getD (s : State) : ∀ n pa j, j < n → (s.rawBytes pa n).getD j 0 = tabGet 0 s.mem (pa + j) := by
  intro n
  induction n with
  | zero => exact fun _ j h => absurd h (Nat.not_lt_zero j)
  | succ n ih =>
    intro pa j h
    cases j with
    | zero => simp [State.rawBytes]
    | succ j =>
      have := ih (pa + 1) j (by omega)
      rw [State.rawBytes, List.getD_cons_succ, this]
      congr 1
      omega

theorem normalPart_length (s : State) (line o n : Nat) : (s.normalPart line o n).length ≤ n := by
  unfold State.normalPart
  split
  · exact Nat.le_of_eq (rawBytes_length _ _ _)
  · split
    · exact List.length_take_le _ _
    · simp

/-- A byte of a part of a line is the part that is that byte. -/
theorem normalPart_getD (s : State) (line o n j : Nat) (h : j < n) :
    (s.normalPart line o n).getD j 0 = (s.normalPart line (o + j) 1).getD 0 0 := by
  unfold State.normalPart
  split
  · rw [rawBytes_getD _ _ _ _ h, rawBytes_getD _ _ _ _ Nat.one_pos, Nat.add_assoc, Nat.add_zero]
  · split
    · simp [List.getD_eq_getElem?_getD, h, List.getElem?_drop]
    · rw [List.getD_replicate _ h, List.getD_replicate _ Nat.one_pos]

theorem bytesAt_one (s : State) (pa : Nat) : s.bytesAt false pa 1 =
    if inHbm pa then s.normalPart (pa / 128) (pa % 128) 1 else s.rawBytes pa 1 := by
  have h : min 1 (128 - pa % 128) = 1 := by omega
  by_cases hb : inHbm pa = true <;> simp [State.bytesAt, hb, State.normalBytes, h]

theorem bytesAt_eight (s : State) (pa : Nat) (ha : pa % 8 = 0) : s.bytesAt false pa 8 =
    if inHbm pa then s.normalPart (pa / 128) (pa % 128) 8 else s.rawBytes pa 8 := by
  have h : min 8 (128 - pa % 128) = 8 := by omega
  by_cases hb : inHbm pa = true <;> simp [State.bytesAt, hb, State.normalBytes, h]

/-- A byte of an aligned doubleword is the byte at its address. -/
theorem bytesAt_eight_getD (s : State) (pa j : Nat) (ha : pa % 8 = 0) (h : j < 8) (hb : inHbm (pa + j) = inHbm pa) :
    (s.bytesAt false pa 8).getD j 0 = (s.bytesAt false (pa + j) 1).headD 0 := by
  rw [bytesAt_eight s pa ha, bytesAt_one, hb]
  have e (l : List Byte) : l.headD 0 = l.getD 0 0 := by cases l <;> rfl
  split
  · rw [e, normalPart_getD _ _ _ _ _ h]
    congr 2 <;> omega
  · rw [e, rawBytes_getD _ _ _ _ h, rawBytes_getD _ _ _ _ Nat.one_pos, Nat.add_zero]

/-- A doubleword has the value its bytes have. -/
theorem bytesAt_eight_congr (s t : State) (pa : Nat) (ha : pa % 8 = 0) (hb : ∀ j, j < 8 → inHbm (pa + j) = inHbm pa)
    (h : ∀ j, j < 8 → (t.bytesAt false (pa + j) 1).headD 0 = (s.bytesAt false (pa + j) 1).headD 0) :
    leNat (t.bytesAt false pa 8) = leNat (s.bytesAt false pa 8) := by
  apply leNat_ext
  intro j
  by_cases hj : j < 8
  · rw [bytesAt_eight_getD _ _ _ ha hj (hb j hj), bytesAt_eight_getD _ _ _ ha hj (hb j hj), h j hj]
  · have len (u : State) : (u.bytesAt false pa 8).length ≤ 8 := by
      rw [bytesAt_eight u pa ha]
      split
      · exact normalPart_length _ _ _ _
      · exact Nat.le_of_eq (rawBytes_length _ _ _)
    rw [List.getD_eq_default _ _ (Nat.le_trans (len t) (by omega)), List.getD_eq_default _ _ (Nat.le_trans (len s) (by omega))]

/-- The entries that a walk reads (R195). -/
def State.entries (s : State) (va : Nat) : Nat → List (Nat × Nat × Nat) → List Nat
  | _, [] => []
  | base, (_, lo, wd) :: t =>
    let entry := base + field va lo wd * 16
    let w0 := leNat (s.bytesAt false entry 8)
    entry :: if bit w0 0 && !bit w0 1 then State.entries s va (field w0 24 36 * 2 ^ 16) t else []

theorem walkFrom_congr (s t : State) (pkg va : Nat) (ls : List (Nat × Nat × Nat)) : ∀ base,
    (∀ e ∈ s.entries va base ls, leNat (t.bytesAt false e 8) = leNat (s.bytesAt false e 8) ∧
      leNat (t.bytesAt false (e + 8) 8) = leNat (s.bytesAt false (e + 8) 8)) →
    t.walkFrom pkg va base ls = s.walkFrom pkg va base ls := by
  induction ls with
  | nil => exact fun _ _ => rfl
  | cons p ls ih =>
    obtain ⟨lev, lo, wd⟩ := p
    intro base h
    have hd := h (base + field va lo wd * 16) (by simp [State.entries])
    simp only [State.walkFrom, hd.1, hd.2]
    split
    · rfl
    · split
      · rfl
      · split
        · rfl
        · rename_i hv hm hl
          refine ih _ fun e he => h e ?_
          simp only [Bool.not_eq_true, Bool.not_eq_true', Bool.not_eq_false] at hv hl
          simp only [State.entries]
          rw [if_pos (by simp [hv, hl])]
          exact List.mem_cons_of_mem _ he

/-- The entries of a whole walk. -/
def State.walked (s : State) (root : Word) (va : Nat) : List Nat := s.entries va (field root.toNat 16 36 * 2 ^ 16) walkLevels

/-- A walk depends on the entries it reads alone. -/
theorem walk_congr (s t : State) (pkg : Nat) (root : Word) (va : Nat)
    (h : ∀ e ∈ s.walked root va, leNat (t.bytesAt false e 8) = leNat (s.bytesAt false e 8) ∧
      leNat (t.bytesAt false (e + 8) 8) = leNat (s.bytesAt false (e + 8) 8)) :
    t.walk pkg root va = s.walk pkg root va := by
  simp only [State.walk]
  split
  · rfl
  · exact walkFrom_congr s t pkg va _ _ h

/-! Two addresses of one granule of 64 KiB. -/

theorem field_page {va vb : Nat} (h : va / 2 ^ 16 = vb / 2 ^ 16) (lo wd : Nat) (hl : 16 ≤ lo) : field va lo wd = field vb lo wd := by
  obtain ⟨k, rfl⟩ := Nat.exists_eq_add_of_le hl
  simp only [field, Nat.pow_add, ← Nat.div_div_eq_div_mul, h]

theorem leaf_page {va vb : Nat} (h : va / 2 ^ 16 = vb / 2 ^ 16) (pa lo : Nat) (hl : 16 ≤ lo) :
    pa / 2 ^ lo * 2 ^ lo + vb % 2 ^ lo = (pa / 2 ^ lo * 2 ^ lo + va % 2 ^ lo) / 2 ^ 16 * 2 ^ 16 + vb % 2 ^ 16 := by
  obtain ⟨k, rfl⟩ := Nat.exists_eq_add_of_le hl
  have e (v : Nat) : v % 2 ^ (16 + k) = v % 2 ^ 16 + 2 ^ 16 * (v / 2 ^ 16 % 2 ^ k) := by rw [Nat.pow_add, Nat.mod_mul]
  rw [e va, e vb, h, Nat.pow_add]
  generalize pa / (2 ^ 16 * 2 ^ k) = q
  generalize vb / 2 ^ 16 % 2 ^ k = r
  rw [← Nat.mul_assoc, Nat.mul_comm q, Nat.mul_assoc]
  generalize q * 2 ^ k = m
  omega

/-- A walk finds the same leaf for both, at their offsets in the granule (R195). -/
theorem walkFrom_page (s : State) (pkg : Nat) {va vb : Nat} (h : va / 2 ^ 16 = vb / 2 ^ 16) (ls : List (Nat × Nat × Nat)) :
    ∀ base, (∀ p ∈ ls, 16 ≤ p.2.1) → s.walkFrom pkg vb base ls =
      (s.walkFrom pkg va base ls).map fun l => { l with pa := l.pa / 2 ^ 16 * 2 ^ 16 + vb % 2 ^ 16 } := by
  induction ls with
  | nil => exact fun _ _ => rfl
  | cons p ls ih =>
    obtain ⟨lev, lo, wd⟩ := p
    intro base hl
    have hlo : 16 ≤ lo := hl _ (.head _)
    simp only [State.walkFrom, field_page h lo wd hlo]
    split
    · rfl
    · split
      · rfl
      · split
        · simp only [Except.map, leaf_page h _ lo hlo]
        · exact ih _ fun p hp => hl p (.tail _ hp)

theorem walk_page (s : State) (pkg : Nat) (root : Word) {va vb : Nat} (h : va / 2 ^ 16 = vb / 2 ^ 16) : s.walk pkg root vb =
    (s.walk pkg root va).map fun l => { l with pa := l.pa / 2 ^ 16 * 2 ^ 16 + vb % 2 ^ 16 } := by
  simp only [State.walk]
  split
  · rfl
  · exact walkFrom_page s pkg h _ _ (by decide)

theorem entries_page (s : State) {va vb : Nat} (h : va / 2 ^ 16 = vb / 2 ^ 16) (ls : List (Nat × Nat × Nat)) :
    ∀ base, (∀ p ∈ ls, 16 ≤ p.2.1) → s.entries vb base ls = s.entries va base ls := by
  induction ls with
  | nil => exact fun _ _ => rfl
  | cons p ls ih =>
    obtain ⟨lev, lo, wd⟩ := p
    intro base hl
    simp only [State.entries, field_page h lo wd (hl _ (.head _))]
    congr 1
    split
    · exact ih _ fun p hp => hl p (.tail _ hp)
    · rfl

theorem walked_page (s : State) (root : Word) {va vb : Nat} (h : va / 2 ^ 16 = vb / 2 ^ 16) : s.walked root vb = s.walked root va :=
  entries_page s h _ _ (by decide)

/-- Addresses of one granule of the HBM of package 0 have the same place. -/
theorem place_hbm (s : State) (pa o : Nat) (h16 : pa % 2 ^ 16 = 0) (ho : o < 2 ^ 16) (hh : pa + 2 ^ 16 ≤ Config.hbmBytes) :
    s.place (pa + o) = s.place pa ∧ inMmio (pa + o) = false ∧ inMmio pa = false ∧ (pa + o) / 2 ^ 46 = 0 ∧
    (s.place (pa + o)).granule = none ∧ ∀ g, resolve g (pa + o) = pa + o := by
  have hb : Config.hbmBytes = 4 * 0x3000000000 := rfl
  have hd : (pa + o) / Config.dieRegion = pa / Config.dieRegion := by
    have e : Config.dieRegion = 0x3000000000 := rfl
    rw [e]
    omega
  have m1 : (pa + o) % 2 ^ 46 = pa + o := Nat.mod_eq_of_lt (by omega)
  have m2 : pa % 2 ^ 46 = pa := Nat.mod_eq_of_lt (by omega)
  have d1 : (pa + o) / 2 ^ 46 = 0 := Nat.div_eq_of_lt (by omega)
  have d2 : pa / 2 ^ 46 = 0 := Nat.div_eq_of_lt (by omega)
  have lt1 : pa + o < Config.hbmBytes := by omega
  have lt2 : pa < Config.hbmBytes := by omega
  have hp : s.place (pa + o) = s.place pa := by
    simp only [State.place, m1, m2, d1, d2, lt1, lt2, if_true, hd]
  refine ⟨hp, ?_, ?_, d1, ?_, fun g => ?_⟩
  · simp only [inMmio, m1, beq_eq_false_iff_ne]; omega
  · simp only [inMmio, m2, beq_eq_false_iff_ne]; omega
  · simp only [State.place, m1, d1, lt1, if_true]
    split <;> rfl
  · cases g with
    | none => rfl
    | some g =>
      simp only [resolve, m1]
      split
      · rfl
      · rw [if_pos (by omega)]

/-! Power states of pseudo-channels have no part in what memory reads as (R307). -/

section
variable (s : State) (cs : Tab Chan)

@[simp] theorem withChans_rawBytes (n : Nat) : ∀ pa, ({ s with chans := cs }).rawBytes pa n = s.rawBytes pa n := by
  induction n with
  | zero => exact fun _ => rfl
  | succ n ih => exact fun pa => by simp [State.rawBytes, ih]
@[simp] theorem withChans_normalPart (line o n : Nat) :
    ({ s with chans := cs }).normalPart line o n = s.normalPart line o n := by
  simp only [State.normalPart, State.tagOf, State.lineBytes, withChans_rawBytes]
  rfl
@[simp] theorem withChans_normalBytes (f : Nat) : ∀ pa n,
    ({ s with chans := cs }).normalBytes f pa n = s.normalBytes f pa n := by
  induction f with
  | zero => exact fun _ _ => rfl
  | succ f ih => exact fun pa n => by simp [State.normalBytes, ih]
@[simp] theorem withChans_rawSeen (n : Nat) : ∀ pa, ({ s with chans := cs }).rawSeen pa n = s.rawSeen pa n := by
  induction n with
  | zero => exact fun _ => rfl
  | succ n ih => exact fun pa => by simp [State.rawSeen, State.rawByte, ih]
@[simp] theorem withChans_bytesAt (raw : Bool) (pa n : Nat) : ({ s with chans := cs }).bytesAt raw pa n = s.bytesAt raw pa n := by
  simp [State.bytesAt]
@[simp] theorem withChans_place (pa : Nat) : ({ s with chans := cs }).place pa = s.place pa := rfl
@[simp] theorem withChans_leafMiss (pkg : Nat) (root : Word) (l : Leaf) (pa : Nat) (n : Need) (ap : Ap) :
    ({ s with chans := cs }).leafMiss pkg root l pa n ap = s.leafMiss pkg root l pa n ap := by
  simp only [State.leafMiss, State.shapeOk, withChans_bytesAt]
  rfl
@[simp] theorem withChans_walk (pkg : Nat) (root : Word) (va : Nat) :
    ({ s with chans := cs }).walk pkg root va = s.walk pkg root va := by
  simp only [State.walk]
  split
  · rfl
  · exact walkFrom_congr s { s with chans := cs } pkg va _ _ fun _ _ => by simp

theorem wake_chans (lay : Lay) (pa n : Nat) : ∃ cs, s.wake lay pa n = { s with chans := cs } := by
  unfold State.wake
  split
  · exact ⟨s.chans, rfl⟩
  · exact ⟨_, rfl⟩

/-- While no error stands a walk changes nothing but the power states of pseudo-channels. -/
theorem readWalk_chans (h : s.bad = []) (v : View) (va : Nat) : ∃ cs, s.readWalk v va = ({ s with chans := cs }, none) := by
  have fold (es : List Nat) : ∀ t : State, t.bad = [] → ∃ cs, t.readEntries es = ({ t with chans := cs }, none) := by
    induction es with
    | nil => exact fun t _ => ⟨t.chans, rfl⟩
    | cons e es ih =>
      intro t ht
      obtain ⟨c1, h1⟩ := wake_chans t Lay.plain e 16
      obtain ⟨c2, h2⟩ := ih { t with chans := c1 } ht
      have h3 : t.readEntry e = ({ t with chans := c1 }, none) := by
        simp only [State.readEntry, h1]
        rw [if_pos ht]
      refine ⟨c2, ?_⟩
      simp only [State.readEntries, h3]
      exact h2
  simp only [State.readWalk]
  split
  · exact ⟨s.chans, rfl⟩
  · exact fold _ s h

end

/-- Where t may differ from s in memory alone and the walk's entries read the same, a translation of a page that is no tensor
answers the same; where the used bits are set already, and no error stands, it at most wakes pseudo-channels. -/
theorem translate_congr (s t : State) (v : View) (va : Nat) (n : Need) (ap : Ap) (l : Leaf)
    (hw : t.walk v.pkg v.root va = s.walk v.pkg v.root va) (hl : s.walk v.pkg v.root va = .ok l) (hk : l.lay.sk ≠ 3)
    (hb0 : t.bad = []) (hp : ∀ p pa, t.seen p pa = s.seen p pa)
    (hm : s.leafMiss v.pkg v.root l (resolve v.ctx l.pa) n ap = none)
    (hu : l.w0 ||| 0x80 ||| (if n.wr then 0x100 else 0) = l.w0) :
    ∃ cs, t.translate v va n ap =
      ({ t with chans := cs }, .ok { l with pa := resolve v.ctx l.pa, lay := { l.lay with rl := 0 } }) := by
  have hb : (l.lay.sk == 3) = false := by simpa using hk
  have hm' : t.leafMiss v.pkg v.root l (resolve v.ctx l.pa) n ap = none := by
    rw [← hm]
    simp [State.leafMiss, hb, hp]
  obtain ⟨cs, hc⟩ := readWalk_chans t hb0 v va
  refine ⟨cs, ?_⟩
  have hn : ({ t with chans := cs } : State).setUsed l n.wr = { t with chans := cs } := by
    simp only [State.setUsed]
    rw [if_pos hu]
  simp [State.translate, hc, hw, hl, hm', hb, hn]

/-- A walk that fails fails the same, where no error stands. -/
theorem translate_congr_walk (s t : State) (v : View) (va : Nat) (n : Need) (ap : Ap) (e : Miss)
    (hw : t.walk v.pkg v.root va = s.walk v.pkg v.root va) (hl : s.walk v.pkg v.root va = .error e) (hb : t.bad = []) :
    ∃ cs, t.translate v va n ap = ({ t with chans := cs }, .error e) := by
  obtain ⟨cs, hc⟩ := readWalk_chans t hb v va
  exact ⟨cs, by simp [State.translate, hc, hw, hl]⟩

end Sys2Proof.Machine
end

