-- ==== Sys2Proof/Tests/Slice0.lean ====
section
/-! SUPPORT. Tests: what WellFormed refuses; words written out from the spec's encodings; steps whose results the spec gives; and,
for every statement with hypotheses, states and operands that meet them. -/

namespace Sys2Proof.Machine

set_option Elab.async false

/-! Small states. -/

/-- The state a step answers. -/
def nx (o : Out) : State := match o with
  | .next s => s
  | .fault _ => State.reset
  | .refused _ => State.reset

/-- A context that runs, its 4 GiB from address 0 mapped to HBM from 4 GiB upward, a nop at its PC. -/
def s0 : State := State.reset.placeWord 64 0x200000001C000000

def withXs (s : State) (l : List (XReg × Word)) : State :=
  l.foldl (fun t p => { t with c := { t.c with x := t.c.x.set p.1 p.2 } }) s

def leafOf (r : State × Except Miss Leaf) : Leaf := match r.2 with
  | .ok l => l
  | .error _ => ⟨0, 0, Lay.plain, 0, 0, 0, 0⟩

def missOf (r : State × Except Miss Leaf) : Miss := match r.2 with
  | .ok _ => .access 0
  | .error e => e

def isOk {α β : Type} (r : State × Except α β) : Bool := match r.2 with
  | .ok _ => true
  | .error _ => false

theorem ok_eq {r : State × Except Miss Leaf} (h : isOk r = true) : r = (r.1, .ok (leafOf r)) := by
  obtain ⟨s, e | l⟩ := r
  · cases h
  · rfl

theorem miss_eq {r : State × Except Miss Leaf} (h : isOk r = false) : r = (r.1, .error (missOf r)) := by
  obtain ⟨s, e | l⟩ := r
  · rfl
  · cases h

theorem pair_eq {α β : Type} {r : α × β} {b : β} (h : r.2 = b) : r = (r.1, b) := by
  obtain ⟨_, _⟩ := r
  cases h
  rfl

theorem bytesOk_nil {s : State} (h : Memory.wf s.mem = true ∧ s.tags = [] ∧ tabWf Unencoded.none s.unencoded = true) : BytesOk s :=
  ⟨h.1, by rw [h.2.1]; rfl, fun line => by simp [State.tagOf, h.2.1], h.2.2⟩

theorem linesOk_nil {c : Ctx} (h : c.lines = []) : LinesOk c := fun l hl => by simp [h] at hl

/-! WellFormed: one ill-formed term for each check (R31). -/

theorem illFormed_offset : illFormed (.beq 1 2 4) = some .offset := by decide
theorem illFormed_smbShape : illFormed (.smb ⟨1, 0, 3, 0, 0, 0, 2, 0, 0, 0⟩) = some .smbShape := by decide
theorem illFormed_cls : illFormed (.ewait .ls 1) = some .cls := by decide
theorem illFormed_scope : illFormed (.bfence .die 1) = some .scope := by decide
theorem illFormed_fmt : illFormed (.vadd ⟨0, 1, .vec 2, 0, .fp32, ⟨0, false, .rne, false⟩⟩) = some .fmt := by decide
theorem illFormed_group : illFormed (.vadd ⟨1, 2, .vec 4, 0, .i32, ⟨1, false, .rne, false⟩⟩) = some .group := by decide
theorem illFormed_iop : illFormed (.arrRed ⟨1, 2, none, none, .lt⟩) = some .iop := by decide
theorem illFormed_e8Imm : illFormed (.vbcast ⟨1, .imm 0x100, 0, .e8, ⟨0, false, .rne, false⟩⟩) = some .e8Imm := by decide
theorem illFormed_planes : illFormed (.vldbp ⟨8, 1, 2, 0, 0, false, 0⟩) = some .planes := by decide
theorem illFormed_tile : illFormed (.mxz 6 2) = some .tile := by decide
theorem illFormed_index : illFormed (.mxrd 1 0 (.reg 0) false) = some .index := by decide
theorem illFormed_fieldAxis : illFormed (.dget 1 2 .base (some 1)) = some .fieldAxis := by decide
theorem illFormed_granules : illFormed (.sprel 1 0) = some .granules := by decide

end Sys2Proof.Machine

namespace Sys2Proof.Machine

set_option Elab.async false

/-! Words of every instruction, each field written out from R13, R17 and R22 to R28. -/

theorem decode_xalu : ∀ p ∈ ([
    (0x020298E000000000, .add 5 6 (.reg 7)),
    (0x02229801FFFFFFF1, .sub 5 6 (.imm 0xFFFFFFF1)),
    (0x020298E200000000, .and 5 6 (.reg 7)),
    (0x02229803FFFFFFF3, .or 5 6 (.imm 0xFFFFFFF3)),
    (0x020298E400000000, .xor 5 6 (.reg 7)),
    (0x02229805FFFFFFF5, .sll 5 6 (.imm 0xFFFFFFF5)),
    (0x020298E600000000, .srl 5 6 (.reg 7)),
    (0x02229807FFFFFFF7, .sra 5 6 (.imm 0xFFFFFFF7)),
    (0x020298E800000000, .slt 5 6 (.reg 7)),
    (0x02229809FFFFFFF1, .sltu 5 6 (.imm 0xFFFFFFF1)),
    (0x020298EA00000000, .min 5 6 (.reg 7)),
    (0x0222980BFFFFFFF3, .max 5 6 (.imm 0xFFFFFFF3)),
    (0x020298EC00000000, .minu 5 6 (.reg 7)),
    (0x0222980DFFFFFFF5, .maxu 5 6 (.imm 0xFFFFFFF5)),
    (0x020298EE00000000, .mul 5 6 (.reg 7)),
    (0x0222980FFFFFFFF7, .mulh 5 6 (.imm 0xFFFFFFF7)),
    (0x020298F000000000, .mulhu 5 6 (.reg 7)),
    (0x02229811FFFFFFF1, .div 5 6 (.imm 0xFFFFFFF1)),
    (0x020298F200000000, .divu 5 6 (.reg 7)),
    (0x02229813FFFFFFF3, .rem 5 6 (.imm 0xFFFFFFF3)),
    (0x020298F400000000, .remu 5 6 (.reg 7)),
    (0x0202981500000000, .clz 5 6),
    (0x0202981600000000, .ctz 5 6),
    (0x0202981700000000, .popc 5 6)] : List (Word × Instr)), decode p.1 = .ok p.2 := by decide +kernel

theorem decode_xmov : ∀ p ∈ ([
    (0x0422800080000001, .li 5 0x80000001),
    (0x0422980112345678, .lui 5 6 0x12345678),
    (0x0402980200000000, .mv 5 6),
    (0x040298E300000000, .sel 5 6 7)] : List (Word × Instr)), decode p.1 = .ok p.2 := by decide +kernel

theorem decode_xmem : ∀ p ∈ ([
    (0x0622980000000040, .ld8 5 6 (.imm 0x40)),
    (0x060298E100000000, .ld16 5 6 (.reg 7)),
    (0x0622980200000042, .ld32 5 6 (.imm 0x42)),
    (0x060298E300000000, .ld64 5 6 (.reg 7)),
    (0x0622980400000044, .ldz8 5 6 (.imm 0x44)),
    (0x060298E500000000, .ldz16 5 6 (.reg 7)),
    (0x0622980600000046, .ldz32 5 6 (.imm 0x46)),
    (0x060298E700000000, .st8 5 6 (.reg 7)),
    (0x0622980800000048, .st16 5 6 (.imm 0x48)),
    (0x060298E900000000, .st32 5 6 (.reg 7)),
    (0x0622980A0000004A, .st64 5 6 (.imm 0x4A))] : List (Word × Instr)), decode p.1 = .ok p.2 := by decide +kernel

theorem decode_xamo : ∀ p ∈ ([
    (0x080298E000000003, .amoAdd ⟨5, 6, 7, .cluster, .rlx⟩),
    (0x080298E100000014, .amoAnd ⟨5, 6, 7, .die, .acq⟩),
    (0x080298E200000025, .amoOr ⟨5, 6, 7, .package, .rel⟩),
    (0x080298E300000036, .amoXor ⟨5, 6, 7, .bank, .acqrel⟩),
    (0x080298E400000007, .amoMin ⟨5, 6, 7, .stack, .rlx⟩),
    (0x080298E500000018, .amoMax ⟨5, 6, 7, .memory, .acq⟩),
    (0x080298E600000029, .amoSwap ⟨5, 6, 7, .host, .rel⟩),
    (0x080298E70000003A, .amoCas ⟨5, 6, 7, .domain, .acqrel⟩)] : List (Word × Instr)), decode p.1 = .ok p.2 := by decide +kernel

theorem decode_branches : ∀ p ∈ ([
    (0x1002980000000010, .beq 5 6 0x10),
    (0x10029820FFFFFFF8, .bne 5 6 0xFFFFFFF8),
    (0x1002984000000010, .blt 5 6 0x10),
    (0x10029860FFFFFFF8, .bge 5 6 0xFFFFFFF8),
    (0x1002988000000010, .bltu 5 6 0x10),
    (0x100298A0FFFFFFF8, .bgeu 5 6 0xFFFFFFF8),
    (0x1202800000000018, .jal 5 0x18),
    (0x12029820FFFFFFE0, .jalr 5 6 0xFFFFFFE0),
    (0x1404296C6B97FFFE, .smb ⟨8, 10, 11, 12, 13, 3, 4, 5, 7, 0x7FFE⟩),
    (0x16000003FFFFFFE8, .vbany 3 0xFFFFFFE8),
    (0x1600002400000020, .vbnone 4 0x20),
    (0x18000001FFFFFFD8, .ltc 1 0xFFFFFFD8),
    (0x1A00000000000028, .vfetch 0x28),
    (0x1A00002100000030, .tfetch 1 0x30),
    (0x1A00004000000000, .tstop),
    (0x1A00006000000000, .vjoin),
    (0x1C24A0000000001C, .svl 9 8 .i4 .b16),
    (0x1C00000100000000, .vrel)] : List (Word × Instr)), decode p.1 = .ok p.2 := by decide +kernel

theorem decode_system : ∀ p ∈ ([
    (0x1E04252000000000, .ebatch ⟨.seam, 1, 1, 2, 8⟩),
    (0x1E00001E84000000, .ewait .dcopy 26),
    (0x1E00003A48000000, .epoll .enc 9),
    (0x2004801C00000000, .csrr 9 .tick),
    (0x20002407C4000000, .csrw (.fmsk 15) 9),
    (0x20002424C8000000, .csrs (.watch 3) 9),
    (0x200024284C000000, .csrc .asid 9),
    (0x200000001000002A, .trap 0x2A),
    (0x2000000014000000, .tret),
    (0x2000000018000000, .wfe),
    (0x200000001C000000, .nop),
    (0x2000000020000000, .halt),
    (0x2000000024003FFF, .brk 0x3FFF),
    (0x2200000000C00000, .fence .cluster),
    (0x2200000004000000, .lsync),
    (0x220000000900C000, .xfence .die .ls .dcopy),
    (0x220000000C000000, .vfence),
    (0x2203800012000000, .bfence .memory 7),
    (0xA000000500000000, .clasp (.cluster 20)),
    (0xA0002441C4000000, .claspw (.die 7) 9),
    (0xA000240FC8000000, .claspa (.cluster 63) 9),
    (0xA00298000C000000, .hmset 5 6),
    (0xA002980010000000, .hmchk 5 6),
    (0xA002980014000800, .spclaim 5 6 2048),
    (0xA000180018000001, .sprel 6 1),
    (0xA200003FC0000000, .asyopen 255),
    (0xA2000001C4000000, .asyclose 7),
    (0xA202800208000000, .asyrd 5 8)] : List (Word × Instr)), decode p.1 = .ok p.2 := by decide +kernel

theorem decode_via : ∀ p ∈ ([
    (0x4002190C01000080, .vadd ⟨4, 6, .vec 8, 3, .i8, ⟨1, true, .rne, false⟩⟩),
    (0x4012192844000010, .vsub ⟨4, 6, .sca 9, 2, .i16, ⟨0, false, .rtz, false⟩⟩),
    (0x40021904C8050000, .vaddc ⟨4, 5, 6, 8, 1, .i64, ⟨0, false, .rne, false⟩⟩),
    (0x40021904CC050000, .vsubb ⟨4, 5, 6, 8, 1, .i64, ⟨0, false, .rne, false⟩⟩),
    (0x4012192810000010, .vmul ⟨4, 6, .sca 9, 2, .i8, ⟨0, false, .rtz, false⟩⟩),
    (0x4022180054800308, .vmulh ⟨4, 6, .imm 0x8003, 0, .i16, ⟨0, false, .rne, true⟩⟩),
    (0x4002190C99000080, .vmin ⟨4, 6, .vec 8, 3, .i32, ⟨1, true, .rne, false⟩⟩),
    (0x40121928DC000010, .vmax ⟨4, 6, .sca 9, 2, .i64, ⟨0, false, .rtz, false⟩⟩),
    (0x4022180020800308, .vand ⟨4, 6, .imm 0x8003, 0, .i8, ⟨0, false, .rne, true⟩⟩),
    (0x4002190C65000080, .vor ⟨4, 6, .vec 8, 3, .i16, ⟨1, true, .rne, false⟩⟩),
    (0x40121928A8000010, .vxor ⟨4, 6, .sca 9, 2, .i32, ⟨0, false, .rtz, false⟩⟩),
    (0x40221800EC800308, .vsll ⟨4, 6, .imm 0x8003, 0, .i64, ⟨0, false, .rne, true⟩⟩),
    (0x4002190C31000080, .vsrl ⟨4, 6, .vec 8, 3, .i8, ⟨1, true, .rne, false⟩⟩),
    (0x4012192874000010, .vsra ⟨4, 6, .sca 9, 2, .i16, ⟨0, false, .rtz, false⟩⟩),
    (0x40221800B8800308, .vabsd ⟨4, 6, .imm 0x8003, 0, .i32, ⟨0, false, .rne, true⟩⟩),
    (0x400219043C500008, .vmac ⟨4, 6, 8, 10, 1, .i8, ⟨0, false, .rne, true⟩⟩)] : List (Word × Instr)), decode p.1 = .ok p.2 := by decide +kernel

theorem decode_vcmp : ∀ p ∈ ([
    (0x4202190C01000080, .vceq ⟨4, 6, .vec 8, 3, .i8, ⟨1, true, .rne, false⟩⟩),
    (0x4212192844000010, .vcne ⟨4, 6, .sca 9, 2, .i16, ⟨0, false, .rtz, false⟩⟩),
    (0x4222180088800308, .vclt ⟨4, 6, .imm 0x8003, 0, .i32, ⟨0, false, .rne, true⟩⟩),
    (0x4202190E0D000080, .vcle ⟨4, 6, .vec 8, 3, .fp16, ⟨1, true, .rne, false⟩⟩),
    (0x4212192A50000010, .vcgt ⟨4, 6, .sca 9, 2, .bf16, ⟨0, false, .rtz, false⟩⟩),
    (0x4222180294800308, .vcge ⟨4, 6, .imm 0x8003, 0, .fp32, ⟨0, false, .rne, true⟩⟩)] : List (Word × Instr)), decode p.1 = .ok p.2 := by decide +kernel

theorem decode_vfa : ∀ p ∈ ([
    (0x4402190E01000080, .vfadd ⟨4, 6, .vec 8, 3, .fp16, ⟨1, true, .rne, false⟩⟩),
    (0x4412192A44000010, .vfsub ⟨4, 6, .sca 9, 2, .bf16, ⟨0, false, .rtz, false⟩⟩),
    (0x4422180288800308, .vfmul ⟨4, 6, .imm 0x8003, 0, .fp32, ⟨0, false, .rne, true⟩⟩),
    (0x440219060C500040, .vffma ⟨4, 6, 8, 10, 1, .fp16, ⟨0, false, .rna, false⟩⟩),
    (0x4402190650500040, .vffnma ⟨4, 6, 8, 10, 1, .bf16, ⟨0, false, .rna, false⟩⟩),
    (0x4422180294800308, .vfmin ⟨4, 6, .imm 0x8003, 0, .fp32, ⟨0, false, .rne, true⟩⟩),
    (0x4402190E19000080, .vfmax ⟨4, 6, .vec 8, 3, .fp16, ⟨1, true, .rne, false⟩⟩),
    (0x4402181E5D000020, .vfabs ⟨4, 6, 7, .bf16, ⟨1, false, .rdn, false⟩⟩),
    (0x4402181EA1000020, .vfneg ⟨4, 6, 7, .fp32, ⟨1, false, .rdn, false⟩⟩),
    (0x4402190E25000080, .vfsgn ⟨4, 6, .vec 8, 3, .fp16, ⟨1, true, .rne, false⟩⟩),
    (0x4402181E69000020, .vfexp2 ⟨4, 6, 7, .bf16, ⟨1, false, .rdn, false⟩⟩),
    (0x4402181EAD000020, .vflog2 ⟨4, 6, 7, .fp32, ⟨1, false, .rdn, false⟩⟩),
    (0x4402181E31000020, .vfrcp ⟨4, 6, 7, .fp16, ⟨1, false, .rdn, false⟩⟩),
    (0x4402181E75000020, .vfrsq ⟨4, 6, 7, .bf16, ⟨1, false, .rdn, false⟩⟩),
    (0x44221802B8800308, .vfdiv ⟨4, 6, .imm 0x8003, 0, .fp32, ⟨0, false, .rne, true⟩⟩),
    (0x4402181E3D000020, .vfsqrt ⟨4, 6, 7, .fp16, ⟨1, false, .rdn, false⟩⟩)] : List (Word × Instr)), decode p.1 = .ok p.2 := by decide +kernel

theorem decode_vcvt : ∀ p ∈ ([
    (0x4602194A40000000, .vcvt ⟨4, 6, .bf16, .fp32, 2, ⟨0, false, .rne, false⟩⟩),
    (0x4602214184600030, .vqnt ⟨4, 8, 12, .fp8a, .fp32, 0, ⟨0, false, .rup, false⟩⟩),
    (0x4602218208600000, .vdqnt ⟨4, 8, 12, .fp16, .i4, 0, ⟨0, false, .rne, false⟩⟩),
    (0x460440010C000000, .vbpsplit ⟨8, 16, .bp, .i8, 0, ⟨0, false, .rne, false⟩⟩),
    (0x4608208010000000, .vbpjoin ⟨16, 8, .i8, .bp, 0, ⟨0, false, .rne, false⟩⟩)] : List (Word × Instr)), decode p.1 = .ok p.2 := by decide +kernel

theorem decode_vmsk : ∀ p ∈ ([
    (0x4800886000000000, .mand 1 2 3 ⟨0, false, .rne, false⟩),
    (0x4800886004000000, .mor 1 2 3 ⟨0, false, .rne, false⟩),
    (0x4800886008000000, .mxor 1 2 3 ⟨0, false, .rne, false⟩),
    (0x480088600C000000, .mandn 1 2 3 ⟨0, false, .rne, false⟩),
    (0x4800880010000000, .mnot 1 2 ⟨0, false, .rne, false⟩),
    (0x4820880014000100, .mshl 1 2 (.imm 1) ⟨0, false, .rne, false⟩),
    (0x4810892018000000, .mshr 1 2 (.sca 9) ⟨0, false, .rne, false⟩),
    (0x480A88001C000000, .mpop 21 2 ⟨0, false, .rne, false⟩),
    (0x480A880020000000, .mfirst 21 2 ⟨0, false, .rne, false⟩),
    (0x4820800024004000, .mset 1 (.imm 0x40) ⟨0, false, .rne, false⟩),
    (0x4800880028000000, .mmv 1 2 ⟨0, false, .rne, false⟩)] : List (Word × Instr)), decode p.1 = .ok p.2 := by decide +kernel

theorem decode_vperm : ∀ p ∈ ([
    (0x4A221806C0000300, .vslup ⟨4, 6, .imm 3, 1, .e8, ⟨0, false, .rne, false⟩⟩),
    (0x4A12192084000000, .vsldn ⟨4, 6, .sca 9, 0, .i32, ⟨0, false, .rne, false⟩⟩),
    (0x4A021901C8000000, .vgath ⟨4, 6, 8, 0, .fp8b, ⟨0, false, .rne, false⟩⟩),
    (0x4A02180C4C000000, .vcomp ⟨4, 6, 3, .i16, ⟨0, false, .rne, false⟩⟩),
    (0x4A02180D90000000, .vexpd ⟨4, 6, 3, .fp8a, ⟨0, false, .rne, false⟩⟩),
    (0x4A021800D4000000, .vbcast ⟨4, .vec 6, 0, .i64, ⟨0, false, .rne, false⟩⟩),
    (0x4A120120D4000000, .vbcast ⟨4, .sca 9, 0, .i64, ⟨0, false, .rne, false⟩⟩),
    (0x4A220002943F8000, .vbcast ⟨4, .imm 0x3F80, 0, .fp32, ⟨0, false, .rne, false⟩⟩),
    (0x4A0A980018000080, .vmvx ⟨21, 6, 0, .i8, ⟨0, true, .rne, false⟩⟩),
    (0x4A0218021C000000, .vmvv ⟨4, 6, 0, .fp16, ⟨0, false, .rne, false⟩⟩),
    (0x4A020000A0000000, .vid ⟨4, 0, .i32, ⟨0, false, .rne, false⟩⟩)] : List (Word × Instr)), decode p.1 = .ok p.2 := by decide +kernel

theorem decode_vred : ∀ p ∈ ([
    (0x4C02180400000000, .vredsum ⟨4, 6, 1, .i8, ⟨0, false, .rne, false⟩⟩),
    (0x4C02180444000000, .vredmax ⟨4, 6, 1, .i16, ⟨0, false, .rne, false⟩⟩),
    (0x4C02180488000000, .vredmin ⟨4, 6, 1, .i32, ⟨0, false, .rne, false⟩⟩),
    (0x4C0218040C000000, .vredand ⟨4, 6, 1, .i8, ⟨0, false, .rne, false⟩⟩),
    (0x4C02180450000000, .vredor ⟨4, 6, 1, .i16, ⟨0, false, .rne, false⟩⟩),
    (0x4C01844194000000, .vredbs ⟨3, 1, 2, 0, .fp8a, ⟨0, false, .rne, false⟩⟩),
    (0x4C0184C098000000, .vscan ⟨3, 1, .xor, 0, .i32, ⟨0, false, .rne, false⟩⟩),
    (0x4E140D2280000000, .vcswi ⟨8, 3, .sca 9, 0, .fp32, ⟨0, false, .rne, false⟩⟩),
    (0x50118AE080000000, .vrng ⟨3, 2, 23, 0, ⟨0, false, .rne, false⟩⟩),
    (0x501106C084000000, .vctr ⟨2, 1, 22, 0, ⟨0, false, .rne, false⟩⟩)] : List (Word × Instr)), decode p.1 = .ok p.2 := by decide +kernel

theorem decode_vmem : ∀ p ∈ ([
    (0x6002180681FFF080, .vld ⟨4, 6, 1, .fp32, 1, 0xFFF0, true⟩),
    (0x600218E144000800, .vlds ⟨4, 6, 7, 0, .fp4, 0, 8, false⟩),
    (0x6002190088000880, .vldx ⟨4, 6, 8, 0, .i32, 0, 8, true⟩),
    (0x600418E10C000850, .vldbp ⟨8, 6, 7, 0, 8, false, 5⟩),
    (0x6202180681FFF000, .vst ⟨4, 6, 1, .fp32, 1, 0xFFF0⟩),
    (0x620218E304000800, .vsts ⟨4, 6, 7, 0, .i4, 0, 8⟩),
    (0x6202190088000800, .vstx ⟨4, 6, 8, 0, .i32, 0, 8⟩),
    (0x620418E10C000870, .vstbp ⟨8, 6, 7, 0, 8, 7⟩),
    (0x6402190880001000, .vamoAdd ⟨4, 6, 8, 2, .i32, 0, 16⟩),
    (0x64021908C4001000, .vamoMin ⟨4, 6, 8, 2, .i64, 0, 16⟩),
    (0x6402190A88001000, .vamoMax ⟨4, 6, 8, 2, .fp32, 0, 16⟩)] : List (Word × Instr)), decode p.1 = .ok p.2 := by decide +kernel

theorem decode_aelt : ∀ p ∈ ([
    (0x8003120F00000000, .arrAdd ⟨3, 1, 2, some 0, none⟩),
    (0x8003121F00000001, .arrSub ⟨3, 1, 2, some 1, none⟩),
    (0x8003122F00000002, .arrMul ⟨3, 1, 2, some 2, none⟩),
    (0x8003123F00000003, .arrDiv ⟨3, 1, 2, some 3, none⟩),
    (0x8003124F00000004, .arrMax ⟨3, 1, 2, some 4, none⟩),
    (0x8003125F00000005, .arrMin ⟨3, 1, 2, some 5, none⟩),
    (0x8003126F00000006, .arrEq ⟨3, 1, 2, some 6, none⟩),
    (0x8003127F00000007, .arrLt ⟨3, 1, 2, some 7, none⟩),
    (0x8003128F00000008, .arrAnd ⟨3, 1, 2, some 8, none⟩),
    (0x8003120F00000009, .arrOr ⟨3, 1, 2, some 0, none⟩),
    (0x800310F00000000A, .arrNeg 3 1 none),
    (0x800310800000000B, .arrAbs 3 1 (some 8)),
    (0x800310F00000000C, .arrExp 3 1 none),
    (0x800310800000000D, .arrLog 3 1 (some 8)),
    (0x800310F00000000E, .arrCvt 3 1 none),
    (0x800310800000000F, .arrCopy 3 1 (some 8))] : List (Word × Instr)), decode p.1 = .ok p.2 := by decide +kernel

theorem decode_astr : ∀ p ∈ ([
    (0x820430F073000000, .arrRed ⟨4, 3, none, some 7, .min⟩),
    (0x82043010F6000001, .arrScan ⟨4, 3, some 1, none, .xor⟩),
    (0x8204302010000002, .arrGrade 4 3 (some 2) (some 1)),
    (0x8224302010FFFFE3, .arrRot ⟨4, 3, .imm 0xFFFFE, some 2, some 1⟩),
    (0x8214302010480004, .arrTake ⟨4, 3, .sca 9, some 2, some 1⟩),
    (0x8224302000000055, .arrDrop ⟨4, 3, .imm 5, some 2, some 0⟩),
    (0x8204320000000006, .arrShape 4 3 2),
    (0x8204320000000007, .arrTpose 4 3 2),
    (0x8204321008000008, .arrOuter ⟨4, 3, 2, some 1, some 0⟩ .lt),
    (0x8204321F00000009, .arrFrom ⟨4, 3, 2, some 1, none⟩),
    (0x820521110000000A, .arrComp ⟨5, 2, 1, some 1, some 1⟩ (some 0)),
    (0x82052111F000000B, .arrCat ⟨5, 2, 1, some 1, some 1⟩ none),
    (0x821500000048000C, .arrIota 5 (.sca 9)),
    (0x8411000000500000, .dld 1 10),
    (0x8410200000500001, .dst 2 10),
    (0x8415000014600002, .dset 5 12 .stride (some 1)),
    (0x8410300013480003, .dget 9 3 .shape (some 1))] : List (Word × Instr)), decode p.1 = .ok p.2 := by decide +kernel

theorem decode_matrix : ∀ p ∈ ([
    (0x9000000000000000, .mxon),
    (0x9000000001000000, .mxoff),
    (0x9006000002000400, .mxz 3 4),
    (0x9004260003004B00, .mxa ⟨2, 1, 3, .bf16, 3⟩),
    (0x900000B004008000, .mxpred 11 true),
    (0x90000003A53F0000, .mxrd 7 2 (.imm 63) false),
    (0x900A009386008000, .mxwr 5 7 (.reg 9) true),
    (0x9004200007005100, .mxld 2 1 1),
    (0x9000200028004800, .mxst 2 1 true 0),
    (0x9204200000000000, .plset 2 1),
    (0x9200260001000000, .plmarg 1 3),
    (0x9200000022000000, .bal 2),
    (0x920A000023000000, .plout (.tile 5) 2),
    (0x9200C00023008000, .plout (.mem 6) 2),
    (0x9200009024000000, .plcost 9 2),
    (0x92000003A5000000, .plscl 7 2)] : List (Word × Instr)), decode p.1 = .ok p.2 := by decide +kernel

end Sys2Proof.Machine

namespace Sys2Proof.Machine

set_option Elab.async false

/-! Steps whose results the spec gives. The context s1 has a handler stack and entry mapped; sv w n runs n elements of width w. -/

def s1 : State := { s0 with c := { s0.c with tsp := 0x2000, tvec := 0x3000 } }

def sv (f : Fmt) (vl vlg : BitVec 13) : State := { s1 with c := { s1.c with vlive := true, vl := vl, vlg := vlg, vfmt := f.code } }

/-- Elements of width w, lowest first, as a register image. -/
def image (w : Nat) (l : List Nat) : BitVec 4096 := BitVec.ofNat 4096 (l.foldr (fun x n => x + 2 ^ w * n) 0)

def withVs (s : State) (l : List (VReg × BitVec 4096)) : State :=
  l.foldl (fun t p => { t with c := { t.c with v := t.c.v.set p.1 p.2 } }) s

def withMs (s : State) (l : List (MReg × BitVec 4096)) : State :=
  l.foldl (fun t p => { t with c := { t.c with m := t.c.m.set p.1 p.2 } }) s

/-- The first n elements of width w of register r. -/
def elems (s : State) (w n : Nat) (r : VReg) : List Nat := (List.range n).map (elem w s.c.v[r])

def m0 : VMods := ⟨0, false, .rne, false⟩

/-- R111: −2^63 divided by −1 is −2^63, remainder 0; by 0, all ones and the dividend. -/
theorem test_div_corner : (nx (exec (.div 3 1 (.reg 2)) (withXs s1 [(1, 0x8000000000000000), (2, 0xFFFFFFFFFFFFFFFF)]))).c.x[3] =
    0x8000000000000000 := by decide +kernel
theorem test_rem_zero : (nx (exec (.rem 3 1 (.reg 0)) (withXs s1 [(1, 41)]))).c.x[3] = 41 := by decide +kernel

/-- R112, and the linked li and lui of the second chapter: x7 = 0x0000_0001_0000_0000. -/
theorem test_lui : (nx (exec (.lui 7 7 1) s1)).c.x[7] = 0x100000000 := by decide +kernel

/-- R108: mul x8, x8, x13 at slot 0 is first read by slot 4. -/
theorem test_mul_due : ((nx (exec (.mul 8 8 (.reg 13)) (withXs s1 [(8, 6), (13, 7)]))).c.pending.map fun p => (p.reg, p.val, p.due)) =
    [(8, 42, 4)] := by decide +kernel

/-- R116: a target that is no multiple of 8 raises PCALIGN (cause 0x02), TADDR the target, TPC at the jalr. -/
theorem test_jalr_pcalign : let t := nx (exec (.jalr 1 2 4) (withXs s1 [(2, 0x100)]))
    (t.c.tcause, t.c.taddr, t.c.tpc, t.c.pc, t.c.x[1]) = (0x02, 0x104, 0, 0x3000, 0) := by decide +kernel

/-- R120: with m1 bits 3, 17 and 40 set at VL = 64, ltc clears bit 3 and branches 40 bytes back. -/
theorem test_ltc : let t := nx (exec (.ltc 1 0xFFFFFFD8)
      { withMs (sv .i8 64 64) [(1, 2 ^ 3 + 2 ^ 17 + 2 ^ 40)] with c := { (withMs (sv .i8 64 64) [(1, 2 ^ 3 + 2 ^ 17 + 2 ^ 40)]).c with pc := 0x100 } })
    t.c.m[1] = 2 ^ 17 + 2 ^ 40 ∧ t.c.pc = 0x100 - 40 := by decide +kernel

/-- R103: STAT of member 0's first context reads its place and flags; the context of die 1, cluster 2, core 3, context 1. -/
theorem test_stat : ({ s1 with here := 512 + 64 * 2 + 4 * 3 + 1 } : State).csr .stat = 0x0A300001 := by decide +kernel

/-- R113: a store and a load of 8 bytes, little-endian. -/
theorem test_st64_ld64 : let t := nx (exec (.st64 5 6 (.imm 0)) (withXs s1 [(5, 0x0102030405060708), (6, 0x1000)]))
    (nx (exec (.ld8 7 6 (.imm 1)) t)).c.x[7] = 0x07 := by decide +kernel

/-- R313: a raw read finds the line from before until the store is performed at PACKAGE scope. -/
theorem test_line_buffer : let t := nx (exec (.st64 5 6 (.imm 0)) (withXs s1 [(5, 7), (6, 0x1000)]))
    [rawAt t 0x100001000, rawAt (nx (exec (.fence .cluster) t)) 0x100001000, rawAt (nx (exec (.fence .package) t)) 0x100001000] =
      [0, 0, 7] := by decide +kernel

/-- R114: the atomic returns the old value and stores the sum. -/
theorem test_amo_add : let t := nx (exec (.st64 5 6 (.imm 0)) (withXs s1 [(5, 40), (6, 0x1000)]))
    let u := nx (exec (.amoAdd ⟨7, 6, 5, .core, .rlx⟩) t)
    u.c.x[7] = 40 ∧ (nx (exec (.ld64 8 6 (.imm 0)) u)).c.x[8] = 80 := by decide +kernel

/-- R131, R227: trap 0x2A raises SWTRAP (0x11) with the immediate, x31 stored below TSP. -/
theorem test_trap : let t := nx (exec (.trap 0x2A) (withXs s1 [(31, 77)]))
    (t.c.tcause, t.c.tinfo, t.c.hnd, t.c.x[31], t.c.pc) = (0x11, 0x800000000000002A, true, 0x1FF8, 0x3000) := by decide +kernel

/-- R229: a trap while TSP's page is absent freezes the context with PHASE 0, PAGE. -/
theorem test_double_fault : let t := nx (exec (.trap 1) { s1 with c := { s1.c with tsp := 0x100002000 } })
    (t.c.status, t.c.dfcause) = (.frozen, 0x004) := by decide +kernel

/-- R225: tret restores x31, the PC and the mode. -/
theorem test_tret : let t := nx (exec .tret (nx (exec (.brk 1) (withXs s1 [(31, 77)]))))
    (t.c.x[31], t.c.hnd, t.c.pc, t.c.tinfo.getLsbD 63) = (77, false, 0, false) := by decide +kernel

/-- R131 in task mode: csrr of an H register raises ACCESS (0x05) with reason 4 and the CSR number. -/
theorem test_csrr_h : let t := nx (exec (.csrw .tvec 5) s1)
    (t.c.tcause, t.c.taddr, t.c.tinfo.extractLsb' 52 4) = (0x05, 0x023, 4) := by decide +kernel

/-- R80: vaddc.i64 v3, m2, v1, v2, m1. -/
theorem test_vaddc : let t := nx (exec (.vaddc ⟨3, 2, 1, 2, 1, .i64, m0⟩)
      (withMs (withVs (sv .i64 1 1) [(1, 0xFFFFFFFFFFFFFFFF)]) [(1, 1)]))
    elems t 64 1 3 = [0] ∧ (t.c.m[2]).getLsbD 0 = true := by decide +kernel

/-- R59: saturating and wrapping bytes. -/
theorem test_vadd_sat : elems (nx (exec (.vadd ⟨3, 1, .vec 2, 0, .i8, ⟨0, false, .rne, true⟩⟩)
      (withVs (sv .i8 2 2) [(1, image 8 [100, 0x80]), (2, image 8 [100, 0xFF])]))) 8 2 3 = [127, 0x80] := by decide +kernel

/-- The sign of a NaN is taken as stored: vfsgn.fp32 of 1.0 with 0xFFC0_0000 is −1.0. -/
theorem test_vfsgn : elems (nx (exec (.vfsgn ⟨3, 1, .vec 2, 0, .fp32, m0⟩)
      (withVs (sv .fp32 1 1) [(1, 0x3F800000), (2, 0xFFC00000)]))) 32 1 3 = [0xBF800000] := by decide +kernel

/-- Idiom 5: vcne.fp32 sets exactly the bits of the elements that hold NaN. -/
theorem test_vcne_nan : ((nx (exec (.vcne ⟨1, 2, .vec 2, 0, .fp32, m0⟩)
      (withVs (sv .fp32 3 3) [(2, image 32 [0x3F800000, 0x7FC00000, 0])]))).c.m[1]).toNat = 2 := by decide +kernel

/-- R87: vqnt.fp8a.fp32 of 1.0, −3.0, 500.0, 0.1 with blocks of 16. -/
theorem test_vqnt : let t := nx (exec (.vqnt ⟨2, 4, 12, .fp8a, .fp32, 0, m0⟩)
      { withVs (sv .fp8a 4 16) [(4, image 32 [0x3F800000, 0xC0400000, 0x43FA0000, 0x3DCCCCCD])] with
        c := { (withVs (sv .fp8a 4 16) [(4, image 32 [0x3F800000, 0xC0400000, 0x43FA0000, 0x3DCCCCCD])]).c with vblk := .b16 } })
    elems t 8 5 2 = [0x38, 0xC4, 0x7E, 0x1D, 0] ∧ elems t 8 1 12 = [0x7F] := by decide +kernel

/-- R90: mshl drops the bits that leave position VL − 1. -/
theorem test_mshl : (nx (exec (.mshl 1 2 (.imm 1) m0) (withMs (sv .i8 4 4) [(2, 0b1101)]))).c.m[1] = 0b1010 := by decide +kernel

/-- R90: mfirst of an empty mask is all ones. -/
theorem test_mfirst_none : (nx (exec (.mfirst 5 2 m0) (sv .i8 4 4))).c.x[5] = 0xFFFFFFFFFFFFFFFF := by decide +kernel

/-- R97, R98: Philox of counter and key zero. -/
theorem test_vrng : elems (nx (exec (.vrng ⟨3, 2, 23, 0, m0⟩) (sv .i32 4 4))) 32 4 3 =
    [0x6627E8D5, 0xE169C58D, 0xBC57AC4C, 0x9B00DBD8] := by decide +kernel

/-- R310, R311: the tags of five of the eight lines. -/
theorem test_line_tags : ([List.replicate 16 0, List.replicate 16 0x3F8000003F800000, (List.range 16).map (1000 + ·),
      (List.range 16).map (0x10000 + 300 * ·), (List.range 16).map (0x7F0000000000 + 70000 * ·)].map fun ws =>
        (encodeLine true (ws.flatMap (leBytes 8))).1) = [1, 2, 3, 4, 5] := by decide +kernel

/-- R166: one mxa over K = 64 with products 2^100, 2^76 and 1 at k = 0, 40 and 50 rounds away. -/
theorem test_ksum : kSum 3 0 ((List.range 64).map fun k =>
      if k = 0 then .fin false 1 100 else if k = 40 then .fin false 1 76 else if k = 50 then .fin false 1 0 else .fin false 0 0) =
    0x71800001 := by decide +kernel

/-- R257: a write of 0 to TARGET stores 1 and clears ARRIVED. -/
theorem test_clasp_target : (Clasp.setTarget ⟨5, 3, true⟩ 0) = ⟨1, 0, true⟩ := by decide +kernel

/-- R101, R102: a write of CTL leaves DET. -/
theorem test_csrw_ctl : (nx (exec (.csrw .ctl 5) (withXs s1 [(5, 0xFFFFFFFFFFFFFFFF)]))).csr .ctl = 0xE := by decide +kernel

/-- R126, R70: svl grants the smaller of the request and VLMAX. -/
theorem test_svl : let t := nx (exec (.svl 9 8 .fp32 .none) (withXs (sv .i8 0 0) [(8, 200)]))
    (t.c.x[9], t.c.vl, t.c.vlg, t.c.vfmt) = (128, 128, 128, 10) := by decide +kernel

/-- R125: the region closes at vjoin once no lane runs. -/
theorem test_vjoin : let t := nx (exec .vjoin { s1 with c := { s1.c with thr := true } })
    (t.c.thr, t.c.pc) = (false, 8) := by decide +kernel

/-- R262: spclaim of a granule of the scratchpad needs a granule's address: another raises ACCESS, reason 2. -/
theorem test_spclaim_misaligned : let t := nx (exec (.spclaim 5 6 1) (withXs s1 [(6, 0x200000010)]))
    (t.c.tcause, t.c.tinfo.extractLsb' 52 4) = (0x05, 2) := by decide +kernel

end Sys2Proof.Machine

namespace Sys2Proof.Machine

set_option Elab.async false

/-! Witnesses: for each statement, states and operands that meet all its hypotheses together, clause by clause.

s2 maps the windows as a task sees them: TCM at 4 GiB, the scratchpad at 8 GiB, the die SRAM at 12 GiB; the registers of die 0 at
16 GiB and HBM through the device aperture at 20 GiB. -/

def s2 : State :=
  [(1, 0x2F0000000000, 0x19F), (2, 0x2F0100000000, 0x19F), (3, 0x2F0200000000, 0x19F), (4, 0x300000000000, 0x59F),
    (5, 0x100000000, 0x59F)].foldl
    (fun t (e : Nat × Nat × Nat) => t.putBytes none Lay.plain (0x40000 + 16 * e.1) (tableEntry e.2.1 e.2.2)) s1

theorem scu_of {s : State} (h : s.laneSel = none) : InScu s := h

theorem reaches_of {s : State} {a : Word} {n : Nat} {k : Need} {ap : Ap}
    (h : a.toNat % n = 0 ∧ isOk (s.translate s.view (s.c.vah.toNat * 2 ^ 64 + a.toNat) k ap) = true ∧
      (s.translate s.view (s.c.vah.toNat * 2 ^ 64 + a.toNat) k ap).1.pinOk
        (s.translate s.view (s.c.vah.toNat * 2 ^ 64 + a.toNat) k ap).1.pkg
        (s.translate s.view (s.c.vah.toNat * 2 ^ 64 + a.toNat) k ap).1.c.session
        (leafOf (s.translate s.view (s.c.vah.toNat * 2 ^ 64 + a.toNat) k ap)).pa = true ∧
      (s.translate s.view (s.c.vah.toNat * 2 ^ 64 + a.toNat) k ap).1.watched .ls k
        (leafOf (s.translate s.view (s.c.vah.toNat * 2 ^ 64 + a.toNat) k ap)).pa n = []) :
    Reaches s (s.translate s.view (s.c.vah.toNat * 2 ^ 64 + a.toNat) k ap).1 a n k ap
      (leafOf (s.translate s.view (s.c.vah.toNat * 2 ^ 64 + a.toNat) k ap)) :=
  ⟨h.1, ok_eq h.2.1, h.2.2.1, h.2.2.2⟩

theorem low_inHbm {a : Nat} (h : a < 2 ^ 32) : inHbm a = true := by
  have : a % 2 ^ 46 = a := Nat.mod_eq_of_lt (by omega)
  simp only [inHbm, this, decide_eq_true_eq]
  exact Nat.lt_of_lt_of_le h (by decide)
theorem record_low {pa : Nat} (h : pa % 4096 = 0 ∧ pa + 0x40000 ≤ 2 ^ 32) : RecordAt pa :=
  ⟨h.1, fun k hk => by rw [low_inHbm (by omega), low_inHbm (by omega)]⟩
theorem inOne_low {pa n : Nat} (h : pa + n ≤ 2 ^ 32) (hn : 0 < n) : InOne pa n := fun k hk => by
  rw [low_inHbm (by omega), low_inHbm (by omega)]
theorem tablesOk_of {s : State} (h : Memory.wf s.mem = true ∧ tabWf 0 s.tags = true ∧ tabWf Ctx.reset s.ctxs = true ∧
    tabWf Die.reset s.dies = true ∧ tabWf Pkg.reset s.pkgs = true) : TablesOk s := h
theorem plainLines_of {c : Ctx} (h : (c.lines.all fun l => decide (l.pa % 64 = 0) && !l.lay.raw) = true) : PlainLines c := by
  have h' : ∀ l ∈ c.lines, l.pa % 64 = 0 ∧ l.lay.raw = false := by simpa using h
  exact ⟨fun l hl => (h' l hl).1, fun l hl => (h' l hl).2⟩

def task0 : Task := ⟨0, 0, 0, 0, 0, 0, 0, 0, 0, (0, 0), 0, true⟩
/-- A task with a save record. -/
def taskA : Task := { task0 with save := 0x80000000 }

/-- Drained, as a test that can be evaluated. -/
theorem drained_of {s : State} {qs : List Queue} (h : qs.all s.c.queues.isEmpty = true) : Drained s qs := by
  simpa [Drained] using h

theorem not_drained_of {s : State} {qs : List Queue} (h : qs.all s.c.queues.isEmpty = false) : ¬ Drained s qs := fun hd => by
  have : qs.all s.c.queues.isEmpty = true := by simpa [Drained] using hd
  rw [h] at this
  cases this

/-- A context with an instruction in VQ that waits. -/
def sq : State := { s1 with c := { s1.c with queues := { Queues.empty with vq := [0] }, wait := .going } }

/-- A context in handler mode. -/
def sh : State := { s1 with c := { s1.c with hnd := true, tinfo := 0x8000000000000000 } }

theorem witness_ScalarArithmeticResults : InScu s1 ∧ ∃ p, p ∈ aluRows := ⟨rfl, _, .head _⟩
theorem witness_FixedLatencyResults : InScu s1 ∧ ∃ p, p ∈ mulRows := ⟨rfl, _, .head _⟩
theorem witness_BranchesAndJumps : InScu s1 ∧ (∃ p, p ∈ branchRows) ∧ (xOf s1 0 + word (BitVec.toInt 8#32)).toNat % 8 = 0 ∧
    (xOf s1 0 + word (BitVec.toInt 4#32)).toNat % 8 ≠ 0 := ⟨rfl, ⟨_, .head _⟩, by decide +kernel, by decide +kernel⟩

theorem witness_WriteThenReadEveryByte : BytesOk s1 ∧ InOne 0x100001000 8 ∧ inHbm 0x100001000 = true ∧ (s1.self .ls).ctx ≠ none ∧
    (s1.self .ls).cls ≠ .seam ∧ ({ s1 with agenda := [.encode 5] } : State).agenda = .encode 5 :: [] :=
  ⟨bytesOk_nil (by decide +kernel), by unfold InOne; decide +kernel, by decide +kernel, by decide, by decide, rfl⟩
theorem witness_LineCompressionRoundTrip : (List.replicate 128 (7 : Byte)).length = 128 := List.length_replicate
theorem witness_TranslationMarksItsLeaf : BytesOk s1 ∧ isOk (s1.translate s1.view 0x1000 Need.both .plain) = true ∧
    isOk (s1.translate s1.view 0x900000000 Need.read .plain) = false :=
  ⟨bytesOk_nil (by decide +kernel), by decide +kernel, by decide +kernel⟩

/-- x6 points into HBM, x7 to the first clasp of die 0 (device aperture), x8 to HBM through the device aperture, x9 nowhere aligned. -/
def sp : State := withXs s2 [(5, 0x0102030405060708), (6, 0x1000), (7, 0x400100000), (8, 0x500001000), (9, 0x1001)]

theorem witness_ScalarLoads_memory : ∃ t u l, InScu sp ∧ Reaches sp t (xOf sp 6 + bOf sp (.imm 0)) 8 Need.read .device l ∧
    (t.place l.pa).isMem = true ∧ t.checkRead l.lay l.pa 8 = (u, none) :=
  ⟨_, _, _, scu_of (by decide +kernel), reaches_of (by decide +kernel), by decide +kernel, pair_eq (by decide +kernel)⟩
theorem witness_ScalarLoads_register : ∃ t l, InScu sp ∧ Reaches sp t (xOf sp 7 + bOf sp (.imm 0)) 8 Need.read .device l ∧
    (t.place l.pa).isMem = false := ⟨_, _, scu_of (by decide +kernel), reaches_of (by decide +kernel), by decide +kernel⟩

/-- sp with CTL.DET. -/
def sd : State := { sp with c := { sp.c with det := true } }

theorem witness_ScalarStores_plain : ∃ t l, InScu sp ∧ BytesOk sp ∧ Reaches sp t (xOf sp 6 + bOf sp (.imm 0)) 8 Need.write .device l ∧
    (t.place l.pa).isMem = true ∧ sp.c.det = false ∧ l.ap ≠ 2 ∧ (l.lay.raw = true → inHbm l.pa = true) :=
  ⟨_, _, scu_of (by decide +kernel), bytesOk_nil (by decide +kernel), reaches_of (by decide +kernel), by decide +kernel, by decide +kernel, by decide +kernel,
    fun _ => by decide +kernel⟩
theorem witness_ScalarStores_held : ∃ t l, InScu sd ∧ BytesOk sd ∧ Reaches sd t (xOf sd 6 + bOf sd (.imm 0)) 8 Need.write .device l ∧
    (t.place l.pa).isMem = true ∧ sd.c.det = true ∧ l.ap ≠ 2 ∧ LinesOk sd.c ∧ sd.c.lines.length < 1024 :=
  ⟨_, _, scu_of (by decide +kernel), bytesOk_nil (by decide +kernel), reaches_of (by decide +kernel), by decide +kernel, by decide +kernel, by decide +kernel,
    linesOk_nil (by decide +kernel), by decide +kernel⟩
theorem witness_ScalarStores_device : ∃ t l, InScu sp ∧ BytesOk sp ∧ Reaches sp t (xOf sp 8 + bOf sp (.imm 0)) 8 Need.write .device l ∧
    (t.place l.pa).isMem = true ∧ l.ap = 2 ∧ sp.c.lines = [] :=
  ⟨_, _, scu_of (by decide +kernel), bytesOk_nil (by decide +kernel), reaches_of (by decide +kernel), by decide +kernel, by decide +kernel, by decide +kernel⟩

/-- sp with a held line, at x8 and at x6. -/
def sph : State := { sp with c := { sp.c with det := true, lines := [⟨0x100001000, 0, 1, Lay.plain, none⟩] } }

theorem witness_ScalarStores_released : ∃ t l, InScu sph ∧ BytesOk sph ∧
    Reaches sph t (xOf sph 8 + bOf sph (.imm 0)) 8 Need.write .device l ∧ (t.place l.pa).isMem = true ∧ l.ap = 2 ∧ PlainLines sph.c ∧
    sph.c.lines.filter (touches l.pa 8) ≠ [] :=
  ⟨_, _, scu_of (by decide +kernel), bytesOk_nil (by decide +kernel), reaches_of (by decide +kernel), by decide +kernel,
    by decide +kernel, plainLines_of (by decide +kernel), by decide +kernel⟩

/-- x10 points to the page-request port of die 0, x11 holds the address of a record in the TCM window. -/
def spg : State := withXs sp [(10, 0x400400000), (11, 0x100000000)]
/-- spg with the port full. -/
def sf : State := spg.onDie 0 fun d => { d with requests := List.replicate 1024 ⟨0, 0, 0, 0, 0, false⟩ }

theorem witness_RegisterStores_write : ∃ t l, InScu sp ∧ Reaches sp t (xOf sp 7 + bOf sp (.imm 0)) 8 Need.write .device l ∧
    (t.place l.pa).isMem = false ∧ t.place l.pa = .dieClasp 0 0 :=
  ⟨_, _, scu_of (by decide +kernel), reaches_of (by decide +kernel), by decide +kernel, by decide +kernel⟩
theorem witness_RegisterStores_wait : ∃ t l, InScu sf ∧ Reaches sf t (xOf sf 10 + bOf sf (.imm 0)) 8 Need.write .device l ∧
    (t.place l.pa).isMem = false ∧ t.place l.pa = .pgreq 0 ∧ 1024 ≤ (t.dieAt 0).requests.length :=
  ⟨_, _, scu_of (by decide +kernel), reaches_of (by decide +kernel), by decide +kernel, by decide +kernel, by decide +kernel⟩
/-- The value x5 lies above the window, x11 in it. -/
theorem witness_RegisterStores_request : ∃ t l, InScu spg ∧ Reaches spg t (xOf spg 10 + bOf spg (.imm 0)) 8 Need.write .device l ∧
    (t.place l.pa).isMem = false ∧ t.place l.pa = .pgreq 0 ∧ (t.dieAt 0).requests.length < 1024 ∧
    2 ^ 32 + 2 ^ 20 < (xOf spg 5).toNat - (xOf spg 5).toNat % 64 + 256 ∧ (xOf spg 0).toNat < 2 ^ 32 ∧ (xOf spg 11).toNat = 2 ^ 32 ∧
    ∃ u w m, t.translate t.view (2 ^ 32) Need.read .plain = (u, .ok m) ∧ u.checkRead m.lay m.pa 256 = (w, none) :=
  ⟨_, _, scu_of (by decide +kernel), reaches_of (by decide +kernel), by decide +kernel, by decide +kernel, by decide +kernel,
    by decide +kernel, by decide +kernel, by decide +kernel, _, _, _, ok_eq (by decide +kernel), pair_eq (by decide +kernel)⟩

/-- With a held line of the bytes at x6, under release order and relaxed. -/
theorem witness_Atomics : (∃ p, p ∈ amoRows) ∧ ∃ t u w l, InScu sph ∧ BytesOk sph ∧ PlainLines sph.c ∧ sph.c.lines ≠ [] ∧
    Reaches sph t (xOf sph 6) 8 Need.both .atomic l ∧ (t.releaseFor .rel l.pa).checkRead l.lay l.pa 8 = (u, none) ∧
    (t.releaseFor .rlx l.pa).checkRead l.lay l.pa 8 = (w, none) :=
  ⟨⟨_, .head _⟩, _, _, _, _, scu_of (by decide +kernel), bytesOk_nil (by decide +kernel), plainLines_of (by decide +kernel),
    by decide +kernel, reaches_of (by decide +kernel), pair_eq (by decide +kernel), pair_eq (by decide +kernel)⟩
theorem witness_Atomics_misaligned : InScu sp ∧ (xOf sp 9 + bOf sp (.imm 0)).toNat % 2 ≠ 0 ∧ (xOf sp 9).toNat % 8 ≠ 0 :=
  ⟨scu_of (by decide +kernel), by decide +kernel, by decide +kernel⟩

theorem witness_StripMineAndVectorBranches : InScu s1 ∧ SmbOp.ok ⟨8, 10, 11, 0, 0, 5, 5, 0, 0, 0x7FFB⟩ = true ∧ Drained s1 [.vq, .lq] ∧
    ¬ Drained sq [.vq, .lq] ∧ InScu sq ∧ setBelow (sv .i8 4 4) 0 = [0, 1, 2, 3] ∧ setBelow (sv .i8 4 4) 1 = [] ∧
    setBelow (withMs (sv .i8 4 4) [(1, 0b1010)]) 1 = [1, 3] :=
  ⟨rfl, by decide, drained_of (by decide +kernel), not_drained_of (by decide +kernel), rfl, by decide +kernel, by decide +kernel,
    by decide +kernel⟩

theorem witness_GrantingAndReleasingLanes_waits : InScu s1 ∧ ¬ (s1.c.det = true ∧ s1.k.active < s1.c.detw.toNat) ∧ s1.c.vlive = false :=
  ⟨rfl, by decide +kernel, by decide +kernel⟩
theorem witness_GrantingAndReleasingLanes_grants : InScu (sv .i8 0 0) ∧
    ¬ ((sv .i8 0 0).c.det = true ∧ (sv .i8 0 0).k.active < (sv .i8 0 0).c.detw.toNat) ∧ (sv .i8 0 0).c.vlive = true ∧
    (sv .i8 0 0).c.pend = false ∧ Grantable (sv .i8 0 0).wid .fp8a .b16 ∧ Grantable (sv .i8 0 0).wid .i64 .none :=
  ⟨rfl, by decide +kernel, by decide +kernel, by decide +kernel, .inr ⟨by decide +kernel, by decide +kernel⟩, .inl rfl⟩
theorem witness_GrantingAndReleasingLanes_detw : let s : State := { s1 with c := { s1.c with det := true, detw := 64 }, k := { s1.k with lmap := 0xFF } }
    InScu s ∧ s.c.det = true ∧ s.k.active < s.c.detw.toNat := ⟨rfl, rfl, by decide +kernel⟩

theorem not_pends {c : Ctx} (h : c.pending = [] ∧ c.ahead = none) : ¬ Pends c := by
  rintro (hp | ⟨a, ha, -⟩)
  · exact hp h.1
  · rw [h.2] at ha; cases ha

/-- Lanes bound, NEXT below CAP, context 1 of the core to take what a cap frees; the same with CAP below NEXT, entries in the record. -/
def sfall : State := ({ sv .i8 0 0 with
  c := { (sv .i8 0 0).c with next := 32, pend := true, taker := some 1, task := some taskA } }).onCtx 1 fun c => { c with status := .bound }
def slift : State := { sv .i8 0 0 with
  c := { (sv .i8 0 0).c with cap := 32, pend := true, spilled := true, task := some taskA } }

/-- Context 1 runs on lanes that context 0 gave up. -/
def sborrow : State := ({ sv .i8 0 0 with c := { (sv .i8 0 0).c with taker := some 1 } }.focus 1).onCtx 1 fun c =>
  { c with status := .bound, vlive := true, lanesHeld := 32 }

theorem witness_GrantingAndReleasingLanes_format : let s : State := { sv .i8 0 0 with c := { (sv .i8 0 0).c with cap := 1 } }
    InScu s ∧ s.c.vlive = true ∧ CapStands s.c ∧ Fmt.fp32.isBlock = false ∧ Fmt.fp8a.isBlock = true ∧
    s.wid * 64 / Fmt.fp8a.width < Blk.len .b16 :=
  ⟨rfl, rfl, .inl (by decide +kernel), rfl, rfl, by decide +kernel⟩
theorem witness_GrantingAndReleasingLanes_held : let s : State := { sfall with c := { sfall.c with lpin := true } }
    CapStands s.c ∧ Grantable s.wid .i64 .none := ⟨.inr (.inr ⟨by decide +kernel, .inl rfl⟩), .inl rfl⟩
theorem witness_GrantingAndReleasingLanes_falls : InScu sfall ∧ ¬ (sfall.c.det = true ∧ sfall.k.active < sfall.c.detw.toNat) ∧
    sfall.c.vlive = true ∧ CapFalls sfall.c ∧ Grantable (nextWid sfall) .i64 .none ∧ BytesOk sfall ∧ sfall.c.task = some taskA ∧
    RecordAt taskA.save ∧ sfall.c.next.toNat < sfall.k.active ∧ sfall.c.taker = some 1 ∧ 4 * coreOf sfall.here + 1 ≠ sfall.here ∧
    (sfall.ctxAt 1).status = .bound ∧ (sfall.ctxAt 1).vlive = false ∧ ¬ Borrows (sfall.ctxAt 1) ∧ (sfall.ctxAt 1).det = false ∧
    4 * coreOf sfall.here + 1 = 1 :=
  ⟨by unfold InScu; decide +kernel, by decide +kernel, by decide +kernel,
    ⟨by decide +kernel, by decide +kernel, by decide +kernel, by decide +kernel, not_pends (by decide +kernel), by decide +kernel⟩, .inl rfl,
    bytesOk_nil (by decide +kernel), by decide +kernel, record_low (by decide), by decide +kernel, by decide +kernel, by decide +kernel,
    by decide +kernel, by decide +kernel, fun h => h.1 (by decide +kernel), by decide +kernel, by decide +kernel⟩
theorem witness_GrantingAndReleasingLanes_borrows :
    Borrows sborrow.c ∧ tabWf Ctx.reset sborrow.ctxs = true ∧ Drained sborrow [.vq, .lq, .mq, .aq] ∧ (sborrow.ctxAt 0).taker = some 1 :=
  ⟨by unfold Borrows; decide +kernel, by decide +kernel, drained_of (by decide +kernel), by decide +kernel⟩
theorem witness_GrantingAndReleasingLanes_lifts : InScu slift ∧ ¬ (slift.c.det = true ∧ slift.k.active < slift.c.detw.toNat) ∧
    slift.c.vlive = true ∧ slift.c.pend = true ∧ slift.c.thr = false ∧ slift.c.cap.toNat < min slift.c.next.toNat slift.k.active ∧
    Grantable (nextWid slift) .i64 .none ∧ slift.c.task = some taskA ∧ RecordAt taskA.save ∧ slift.c.spilled = true :=
  ⟨rfl, by decide +kernel, rfl, rfl, by decide +kernel, by decide +kernel, .inl rfl, rfl, record_low (by decide), rfl⟩
theorem witness_GrantingAndReleasingLanes_binding : ({ s1 with c := { s1.c with wait := .lanes } } : State).c.wait = .lanes ∧
    s1.c.lanesHeld = 0 ∧ Drained s1 [.vq, .lq, .mq, .aq] ∧
    ({ s1 with c := { s1.c with lanesHeld := 8 } } : State).c.lanesHeld ≠ 0 ∧ tabWf Ctx.reset s1.ctxs = true ∧
    Drained { s1 with c := { s1.c with wait := .drain [.vq] } } [.vq] :=
  ⟨rfl, by decide +kernel, drained_of (by decide +kernel), by decide +kernel, by decide +kernel, drained_of (by decide +kernel)⟩

/-- Lane 0 of an open region, carrying out a word. -/
def sl : State := { sv .i8 4 4 with
  laneSel := some 0
  c := { (sv .i8 4 4).c with thr := true, lanes := [(0, ⟨0x100, true, [0]⟩)] } }

theorem witness_ThreadRegions_goes : sl.laneSel = some 0 ∧ (∀ i, laneHas sl 0 i → (sl.rm 0).getLsbD i = true) ∧
    ∃ i, laneHas sl 0 i ∧ (sl.rm 1).getLsbD i = false := by
  refine ⟨rfl, fun i hi => ?_, 0, ⟨by decide +kernel, by decide +kernel, by decide +kernel⟩, by decide +kernel⟩
  have h : i < 4 := Nat.lt_of_lt_of_eq hi.1 (by decide +kernel)
  show (BitVec.allOnes 4096).getLsbD i = true
  simp only [BitVec.getLsbD_allOnes, decide_eq_true_eq]
  omega
theorem witness_ThreadRegions_join : InScu s1 ∧ s1.c.thr = false ∧
    ({ sl with laneSel := none } : State).c.thr = true ∧ ({ sl with laneSel := none } : State).c.running ≠ [] ∧
    ({ s1 with c := { s1.c with thr := true, wait := .vjoin } } : State).c.running = [] ∧ s1.c.thrFault = none ∧
    tabWf LaneState.idle s1.c.lanes = true :=
  ⟨rfl, by decide +kernel, rfl, by decide +kernel, by decide +kernel, by decide +kernel, by decide +kernel⟩

theorem witness_ThreadRegions_fault : sl.laneSel = some 0 ∧
    ({ cause := .format, elem := some (0, 3) } : Trap).elem = some (0, 3) := ⟨rfl, rfl⟩

theorem wordAt_of {s : State} {a w : Word} {r : State × Except Miss Leaf}
    (hr : s.translate s.view ((if s.c.hnd then 0 else s.c.vah.toNat * 2 ^ 64) + a.toNat) Need.fetch .plain = r)
    (h : isOk r = true ∧ (leafOf r).ap = 0 ∧ (r.1.checkRead (leafOf r).lay (leafOf r).pa 8).2 = none ∧
      w = BitVec.ofNat 64 (leNat ((r.1.checkRead (leafOf r).lay (leafOf r).pa 8).1.bytesAt (leafOf r).lay.raw (leafOf r).pa 8))) :
    WordAt s (r.1.checkRead (leafOf r).lay (leafOf r).pa 8).1 a w :=
  ⟨r.1, leafOf r, hr.trans (ok_eq h.1), h.2.1, pair_eq h.2.2.1, h.2.2.2⟩

/-- tstop stands at 0, a nop at 0x100, a word of zeros after it. -/
def sblk : State := (s1.putBytes none Lay.plain 0x100000000 (leBytes 8 0x1A00004000000000)).putBytes none Lay.plain 0x100000100
  (leBytes 8 0x200000001C000000)

theorem witness_ThreadRegions_block : ∃ u, GoodBlock 16 sblk 0 [0x1A00004000000000] u :=
  ⟨_, _, .tstop, wordAt_of rfl (by decide +kernel), by decide +kernel, by decide +kernel, rfl, rfl⟩
/-- A word of no kind listed, one that does not decode, one that cannot be fetched. -/
theorem witness_ThreadRegions_check : (∃ u, BadBlock 16 sblk 0x100 0 u) ∧ (∃ u, BadBlock 16 sblk 0x200 1 u) ∧
    ∃ u, BadBlock 16 sblk 0x900000000 2 u :=
  ⟨⟨_, .inr ⟨_, 0x200000001C000000, wordAt_of rfl (by decide +kernel), .inr ⟨.nop, by decide +kernel, .inl ⟨by decide +kernel, rfl, rfl⟩⟩⟩⟩,
    ⟨_, .inr ⟨_, 0, wordAt_of rfl (by decide +kernel), .inl ⟨⟨.op, by decide +kernel⟩, rfl, rfl⟩⟩⟩,
    ⟨_, .inl ⟨.inl ⟨_, miss_eq (by decide +kernel)⟩, rfl⟩⟩⟩
theorem witness_ThreadRegions_joinFault : let f : LaneFault := ⟨0, 3, Cause.format.code, 0, 0⟩
    let s : State := { s1 with c := { s1.c with thr := true, wait := .vjoin, thrFault := some f } }
    s.c.thrFault = some f ∧ Cause.format ∈ [Cause.illegal, .format, .memue] ∧ f.cause = Cause.format.code ∧ s.c.running = [] ∧
    tabWf LaneState.idle s.c.lanes = true ∧ s.c.thr = true ∧ s.c.wait = .vjoin :=
  ⟨rfl, by decide, rfl, by decide +kernel, by decide +kernel, rfl, rfl⟩

/-! Traps. -/

theorem handler_of {s : State} {t : Trap} {s2 s4 : State} {r : State × Except Miss Leaf}
    (h2 : ((s.latch t).devWrite 2 (stackTop s - 8) (leBytes 8 ((settledRegs s.c)[31]).toNat)).1 = s2)
    (h4 : ((s2.wx 31 (stackTop s - 8)).devWrite 2 (stackTop s) t.record).1 = s4)
    (hr : (s4.goto (s.c.tvec &&& ~~~7#64)).translate s.view (s.c.tvec &&& ~~~7#64).toNat Need.fetch .plain = r)
    (h : s.c.tinfo.getLsbD 63 = false ∧
      ((s.latch t).devWrite 2 (stackTop s - 8) (leBytes 8 ((settledRegs s.c)[31]).toNat)).2 = none ∧
      ((s2.wx 31 (stackTop s - 8)).devWrite 2 (stackTop s) t.record).2 = none ∧ isOk r = true ∧
      (r.1.checkRead (leafOf r).lay (leafOf r).pa 8).2 = none) :
    ∃ s2 s4 u l, Handler s t s2 s4 u l :=
  ⟨s2, s4, _, leafOf r, h.1, Prod.ext h2 h.2.1, Prod.ext h4 h.2.2.1, r.1, hr.trans (ok_eq h.2.2.2.1), pair_eq h.2.2.2.2⟩

theorem witness_TrapEntryState : InScu s1 ∧ BytesOk s1 ∧ (∃ s2 s4 u l, Handler s1 { cause := .rank } s2 s4 u l) ∧
    (∃ s2 s4 u l, Handler s1 { cause := .page, record := List.replicate 256 0 } s2 s4 u l) ∧
    (List.replicate 256 (0 : Byte)).length ≤ 256 :=
  ⟨rfl, bytesOk_nil (by decide +kernel), handler_of rfl rfl rfl (by decide +kernel), handler_of rfl rfl rfl (by decide +kernel),
    Nat.le_of_eq List.length_replicate⟩
theorem witness_TrapInstructions : InScu s1 ∧ s1.c.hnd = false ∧ ∃ v, Sys2Proof.encode (.tfetch 1 8) 0 = some v :=
  ⟨rfl, by decide +kernel, Option.isSome_iff_exists.mp (by decide)⟩

def bytesOf (r : State × Except Trap (List Byte)) : List Byte := match r.2 with
  | .ok b => b
  | .error _ => []

def trapOf (r : State × Except Trap (List Byte)) : Trap := match r.2 with
  | .ok _ => { cause := .page }
  | .error t => t

theorem bytes_eq {r : State × Except Trap (List Byte)} (h : isOk r = true) : r = (r.1, .ok (bytesOf r)) := by
  obtain ⟨s, e | l⟩ := r
  · cases h
  · rfl

theorem trap_eq {r : State × Except Trap (List Byte)} (h : isOk r = false) : r = (r.1, .error (trapOf r)) := by
  obtain ⟨s, e | l⟩ := r
  · rfl
  · cases h

theorem some_eq {α : Type} {r : State × Option α} (h : r.2.isSome = true) : ∃ e, r = (r.1, some e) := by
  obtain ⟨s, _ | e⟩ := r
  · cases h
  · exact ⟨e, rfl⟩

theorem witness_ReturnFromHandler : ∃ t bs, InScu sh ∧ sh.c.hnd = true ∧ Drained sh [.vq, .lq, .mq, .aq] ∧
    sh.devRead (stackTop sh - 8) 8 = (t, .ok bs) ∧ sh.c.answer = none :=
  ⟨_, _, rfl, rfl, drained_of (by decide +kernel), bytes_eq (by decide +kernel), by decide +kernel⟩
theorem witness_ReturnFromHandler_waits :
    ¬ Drained { sh with c := { sh.c with queues := { Queues.empty with lq := [0] } } } [.vq, .lq, .mq, .aq] :=
  not_drained_of (by decide +kernel)

/-- Handler stacks that are not mapped: at 4 GiB; at the last byte below it; an entry that is not mapped. -/
def sx : State := { s1 with c := { s1.c with tsp := 0x100002000 } }
def sy : State := { s1 with c := { s1.c with tsp := 0x100000000 } }
def sz : State := { s1 with c := { s1.c with tvec := 0x100000000 } }
def page : Trap := { cause := .page, record := List.replicate 256 0 }

theorem witness_DoubleFaultFreezes_busy : InScu sh ∧ sh.c.tinfo.getLsbD 63 = true := ⟨rfl, by decide +kernel⟩
theorem witness_DoubleFaultFreezes_stack : ∃ t e, InScu sx ∧ sx.c.tinfo.getLsbD 63 = false ∧
    (sx.latch page).devWrite 2 (stackTop sx - 8) (leBytes 8 ((settledRegs sx.c)[31]).toNat) = (t, some e) := by
  obtain ⟨e, h⟩ := some_eq (r := (sx.latch page).devWrite 2 (stackTop sx - 8) (leBytes 8 ((settledRegs sx.c)[31]).toNat))
    (by decide +kernel)
  exact ⟨_, e, rfl, by decide +kernel, h⟩
theorem witness_DoubleFaultFreezes_record : ∃ t u e, InScu sy ∧ sy.c.tinfo.getLsbD 63 = false ∧
    (sy.latch page).devWrite 2 (stackTop sy - 8) (leBytes 8 ((settledRegs sy.c)[31]).toNat) = (t, none) ∧
    (t.wx 31 (stackTop sy - 8)).devWrite 2 (stackTop sy) page.record = (u, some e) := by
  obtain ⟨e, h⟩ := some_eq (r := (((sy.latch page).devWrite 2 (stackTop sy - 8) (leBytes 8 ((settledRegs sy.c)[31]).toNat)).1.wx 31
    (stackTop sy - 8)).devWrite 2 (stackTop sy) page.record) (by decide +kernel)
  exact ⟨_, _, e, rfl, by decide +kernel, pair_eq (by decide +kernel), h⟩
theorem witness_DoubleFaultFreezes_entry : ∃ t u v e, InScu sz ∧ sz.c.tinfo.getLsbD 63 = false ∧
    (sz.latch page).devWrite 2 (stackTop sz - 8) (leBytes 8 ((settledRegs sz.c)[31]).toNat) = (t, none) ∧
    (t.wx 31 (stackTop sz - 8)).devWrite 2 (stackTop sz) page.record = (u, none) ∧
    (u.goto (sz.c.tvec &&& ~~~7#64)).translate sz.view (sz.c.tvec &&& ~~~7#64).toNat Need.fetch .plain = (v, .error e) :=
  ⟨_, _, _, _, rfl, by decide +kernel, pair_eq (by decide +kernel), pair_eq (by decide +kernel), miss_eq (by decide +kernel)⟩
theorem witness_DoubleFaultFreezes_return : ∃ t e, InScu { sx with c := { sx.c with hnd := true } } ∧
    Drained { sx with c := { sx.c with hnd := true } } [.vq, .lq, .mq, .aq] ∧
    ({ sx with c := { sx.c with hnd := true } } : State).devRead (stackTop sx - 8) 8 = (t, .error e) :=
  ⟨_, _, rfl, drained_of (by decide +kernel), trap_eq (by decide +kernel)⟩

theorem witness_CsrInstructions : InScu s1 ∧ s1.c.hnd = false ∧ Drained s1 [.vq, .lq, .mq, .aq] ∧ ¬ Drained sq [.vq, .lq, .mq, .aq] ∧
    (∃ p, p ∈ csrRows) ∧ taskWritable .vah = true ∧ taskReadOnly .stat = true ∧ taskWritable .tvec = false ∧
    taskReadOnly .tvec = false ∧ InScu sh ∧ sh.c.hnd = true ∧ Drained sh [.vq, .lq, .mq, .aq] ∧ csrBits .tvec ≠ 0 :=
  ⟨rfl, by decide +kernel, drained_of (by decide +kernel), not_drained_of (by decide +kernel), ⟨_, .head _⟩, rfl, rfl, rfl, rfl, rfl,
    rfl, drained_of (by decide +kernel), by decide⟩

/-- Two held lines, the matrix state enabled and owned, reclaimed lanes. -/
def sheld : State := { s1 with
  c := { s1.c with
    det := true, lanesHeld := 8, mxen := true, task := some task0
    lines := [⟨0x100001000, 0, 1, Lay.plain, none⟩, ⟨0x100001040, 5, 1, Lay.plain, none⟩] }
  k := { s1.k with owner := some 0 } }

theorem witness_WaitingAndEnding : InScu s1 ∧ Drained s1 [.vq, .lq, .mq, .aq] ∧ s1.c.lanesHeld = 0 ∧ s1.c.lines = [] ∧
    ¬ Drained sq [.vq, .lq, .mq, .aq] ∧ ({ s1 with c := { s1.c with wait := .wfe } } : State).c.wait = .wfe ∧
    ({ s1 with c := { s1.c with status := .drain } } : State).allCmds 0 = [] :=
  ⟨rfl, drained_of (by decide +kernel), by decide +kernel, by decide +kernel, not_drained_of (by decide +kernel), rfl, by decide +kernel⟩
theorem witness_WaitingAndEnding_held : InScu sheld ∧ Drained sheld [.vq, .lq, .mq, .aq] ∧ BytesOk sheld ∧ PlainLines sheld.c ∧
    tabWf Ctx.reset sheld.ctxs = true ∧ sheld.c.lanesHeld ≠ 0 ∧ sheld.c.lines ≠ [] :=
  ⟨rfl, drained_of (by decide +kernel), bytesOk_nil (by decide +kernel), plainLines_of (by decide +kernel), by decide +kernel,
    by decide +kernel, by decide +kernel⟩

/-- A seam command in flight. -/
def cmd0 : Cmd :=
  { serial := 0, ctx := 0, task := 0, image := 0, root := 0, asid := 0, session := 0, assay := none, started := false, fails := [],
    micro := 0, second := false, table := [], src := [], dst := [], flight := none, result := none }
def sseam : State := { s1 with c := { s1.c with task := some task0 } }.onDie 0 fun d => { d with seam := [cmd0] }

theorem witness_Fences : InScu s1 ∧ s1.c.lines = [] ∧ s1.cmdsOf 0 .seam = [] ∧ sseam.cmdsOf 0 .seam ≠ [] ∧ sseam.c.lines = [] ∧
    sheld.c.lines ≠ [] ∧ BytesOk sheld ∧ PlainLines sheld.c ∧ sheld.cmdsOf 0 .seam = [] ∧ s1.c.det = false ∧ sheld.c.det = true ∧
    s1.c.seam.word = 0 ∧ (SeamLog.word ⟨1, 2, 3, 1, []⟩) ≠ 0 :=
  ⟨rfl, by decide +kernel, by decide +kernel, by decide +kernel, by decide +kernel, by decide +kernel, bytesOk_nil (by decide +kernel),
    plainLines_of (by decide +kernel), by decide +kernel, by decide +kernel, rfl, by decide +kernel, by decide +kernel⟩

/-- A drain group whose one task waits at its epoch's end, with held lines. -/
def sclose : State := { sheld with c := { sheld.c with wait := .vfence } }

theorem plainCtxs_of {s : State} (h : s.ctxs = []) (hc : PlainLines s.c) (g : Nat) : PlainLines (s.ctxAt g) := by
  unfold State.ctxAt
  split
  · exact hc
  · rw [h, tabGet_nil]
    exact plainLines_of (by decide)

theorem witness_Fences_release : sclose.c.wait = .vfence ∧ sclose.c.status = .bound ∧ sclose.groupClosed = true ∧ BytesOk sclose ∧
    tabWf Ctx.reset sclose.ctxs = true ∧ (∀ g, PlainLines (sclose.ctxAt g)) ∧ sclose.c.task = some task0 :=
  ⟨rfl, by decide +kernel, by decide +kernel, bytesOk_nil (by decide +kernel), by decide +kernel,
    plainCtxs_of (by decide +kernel) (plainLines_of (by decide +kernel)), rfl⟩
/-- Another task of the crew still runs. -/
theorem witness_Fences_open : let s := (sclose.onCtx 1 fun c => { c with status := .bound, det := true, task := some { task0 with id := 1, member := 1 } })
    s.c.wait = .vfence ∧ s.groupClosed = false := ⟨by decide +kernel, by decide +kernel⟩

end Sys2Proof.Machine

namespace Sys2Proof.Machine

set_option Elab.async false

/-! Lane instructions: every row of a table has a well-formed form; the context's own stream, with padding, and one lane of a block. -/

theorem ready_of {s : State} {w : Nat} (h : s.badConfig = false ∧ s.vlg ≤ s.vlmax w ∧ s.c.vbad = []) : LanesReady s w := h

theorem witness_LaneIntegerResults : (viaRows.all fun p => (p.1 ⟨4, 6, .vec 8, 1, .i32, ⟨1, false, .rne, false⟩⟩).wf) = true ∧
    (Instr.vmac ⟨4, 6, 8, 10, 1, .i32, ⟨1, false, .rne, true⟩⟩).wf = true ∧ LanesReady (sv .i32 3 4) 32 ∧ LanesReady sl 8 :=
  ⟨by decide, by decide, ready_of (by decide +kernel), ready_of (by decide +kernel)⟩
theorem witness_CarryChains : (Instr.vaddc ⟨4, 2, 6, 8, 1, .i64, ⟨1, false, .rne, false⟩⟩).wf = true ∧ LanesReady (sv .i64 3 4) 64 :=
  ⟨by decide, ready_of (by decide +kernel)⟩
theorem witness_LaneComparisons : (cmpRows.all fun p => (p.1 ⟨2, 6, .imm 3, 1, .bf16, ⟨1, false, .rne, false⟩⟩).wf) = true ∧
    LanesReady (sv .bf16 3 4) 16 := ⟨by decide, ready_of (by decide +kernel)⟩
theorem witness_LaneFloatResults : (vfaRows.all fun p => (p.1 ⟨4, 6, .sca 8, 1, .fp32, ⟨1, false, .rup, true⟩⟩).wf) = true ∧
    (vfaRows1.all fun p => (p.1 ⟨4, 6, 1, .fp32, ⟨1, false, .rne, false⟩⟩).wf) = true ∧
    (Instr.vffma ⟨4, 6, 8, 10, 1, .fp32, ⟨1, false, .rne, false⟩⟩).wf = true ∧ LanesReady (sv .fp32 3 4) 32 :=
  ⟨by decide, by decide, by decide, ready_of (by decide +kernel)⟩
theorem witness_RoundingIsCorrect : Fmt.isFp .fp16 = true ∧ (0x3C00 : Nat) < 2 ^ Fmt.width .fp16 ∧ (fval .fp16 0x3C00).isNaN = false ∧
    FinitePat .fp16 0x3C00 ∧ (3 : Nat) ≠ 0 :=
  ⟨rfl, by decide, by decide +kernel, ⟨by decide, false, 1024, -10, by decide +kernel⟩, by decide⟩
/-- 3, and 1/16. -/
theorem witness_LaneFloatResults_exact : ratOf (.fin false 3 0) = ((3 : Int) : Rat) ∧ ratOf (.fin false 1 (-4)) = (2 : Rat) ^ (-4 : Int) := by
  constructor <;> norm_num [ratOf]

/-- sv with blocks of 16. -/
def sk : State := { sv .fp8a 30 32 with c := { (sv .fp8a 30 32).c with vblk := .b16 } }

theorem witness_Conversions : (Instr.vcvt ⟨4, 6, .fp32, .fp16, 1, m0⟩).wf = true ∧ LanesReady (sv .fp16 3 4) 16 ∧
    (Instr.vdqnt ⟨4, 8, 9, .fp32, .fp8a, 0, m0⟩).wf = true ∧
    (Instr.vqnt ⟨9, 4, 8, .fp8a, .fp32, 0, m0⟩).wf = true ∧ LanesReady sk 8 ∧ sk.blk ≠ 0 ∧ InScu sk ∧ sk.wid ≤ 64 ∧
    Apart 9 (grpSize 0 * (8 / 8)) 8 (grpSize 0) ∧ (Instr.vbpsplit ⟨8, 16, .bp, .i8, 0, m0⟩).wf = true ∧
    (Instr.vbpjoin ⟨16, 8, .i8, .bp, 0, m0⟩).wf = true ∧ LanesReady (sv .i8 3 4) 1 := by
  refine ⟨by decide, ready_of (by decide +kernel), by decide, by decide, ready_of (by decide +kernel), by decide +kernel,
    scu_of (by decide +kernel), by decide +kernel, fun i j hi hj => ?_, by decide, by decide, ready_of (by decide +kernel)⟩
  have : i = 0 ∧ j = 0 := by simp [grpSize] at hi hj; omega
  rw [this.1, this.2]
  decide
theorem witness_MaskInstructions : LanesReady (sv .i8 3 4) 1 ∧ InScu (sv .i8 3 4) ∧ Drained (sv .i8 3 4) [.vq, .lq] ∧
    InScu sq ∧ ¬ Drained sq [.vq, .lq] := ⟨ready_of (by decide +kernel), rfl, drained_of (by decide +kernel), rfl,
      not_drained_of (by decide +kernel)⟩
theorem witness_Permutes : (Instr.vslup ⟨4, 6, .imm 3, 1, .i32, m0⟩).wf = true ∧ (Instr.vgath ⟨4, 6, 8, 1, .i32, m0⟩).wf = true ∧
    (Instr.vmvv ⟨4, 6, 1, .i32, m0⟩).wf = true ∧ (Instr.vbcast ⟨4, .sca 3, 1, .i32, m0⟩).wf = true ∧
    (Instr.vid ⟨4, 1, .i32, m0⟩).wf = true ∧ LanesReady (sv .i32 3 4) 32 ∧ InScu (sv .i32 3 4) ∧ Drained (sv .i32 3 4) [.vq, .lq] ∧
    ¬ Drained sq [.vq, .lq] :=
  ⟨by decide, by decide, by decide, by decide, by decide, ready_of (by decide +kernel), rfl, drained_of (by decide +kernel),
    not_drained_of (by decide +kernel)⟩
theorem witness_Reductions : (redRows.all fun p => (p.1 ⟨4, 6, 1, .i32, ⟨1, false, .rne, false⟩⟩).wf) = true ∧
    LanesReady (sv .i32 3 4) 32 ∧ (sv .i32 3 4).c.vlg ≠ 0 ∧ (sv .i32 0 0).c.vlg = 0 ∧
    (Instr.vredbs ⟨4, 6, 8, 1, .fp8a, m0⟩).wf = true ∧ LanesReady sk 8 ∧ sk.blk ≠ 0 ∧
    (Instr.vscan ⟨4, 6, .max, 1, .fp32, m0⟩).wf = true ∧ LanesReady (sv .fp32 3 4) 32 ∧ InScu (sv .fp32 3 4) :=
  ⟨by decide, ready_of (by decide +kernel), by decide +kernel, by decide +kernel, by decide, ready_of (by decide +kernel),
    by decide +kernel, by decide, ready_of (by decide +kernel), rfl⟩
theorem witness_SwapsAndRandomNumbers : (Instr.vcswi ⟨8, 4, .vec 6, 1, .fp32, m0⟩).wf = true ∧ LanesReady (sv .fp32 3 4) 32 ∧
    Apart 4 1 8 2 ∧ Apart 6 1 8 2 ∧ Apart 6 1 4 1 ∧ (Instr.vrng ⟨3, 2, 23, 0, m0⟩).wf = true ∧ LanesReady (sv .i32 4 4) 32 ∧
    (sv .i32 4 4).c.vl = (sv .i32 4 4).c.vlg ∧ (sv .i32 4 4).c.vl.toNat % 4 = 0 ∧ (sv .i32 3 4).c.vl ≠ (sv .i32 3 4).c.vlg := by
  have apart {a b : VReg} {n k : Nat} (h : ((List.range n).all fun i => (List.range k).all fun j => regAt a i != regAt b j) = true) :
      Apart a n b k := fun i j hi hj => by
    simpa using List.all_eq_true.mp (List.all_eq_true.mp h i (List.mem_range.mpr hi)) j (List.mem_range.mpr hj)
  exact ⟨by decide, ready_of (by decide +kernel), apart (by decide), apart (by decide), apart (by decide), by decide,
    ready_of (by decide +kernel), rfl, by decide +kernel, by decide +kernel⟩

/-! Vector memory. -/

def VmShape.okAt (k : VmShape) (s s1 : State) (fs : Tab Found) (e : Nat × Nat) : Bool :=
  let l := k.leaf s fs e
  decide (k.addr e.1 e.2 % k.w = 0) && (match foundAt fs (k.page s e) with | .ok _ => true | .error _ => false) &&
  decide (l.pa % k.bytes = 0) && s1.pinOk s1.pkg s.c.session l.pa &&
  (!k.hm || (decide (l.pa / 2 ^ 46 = s.pkg) && (s1.hallStep l.pa).isNone &&
    match (s1.place l.pa).granule with | some (clu, g) => s1.hallError clu g == Bad.clean | none => true))

/-- What translating an access's pages gives. -/
def VmShape.tr (k : VmShape) (s : State) (need : Need) (ap : Ap) : State × Tab Found := s.translateAll need ap (k.pages s)

theorem completes_of {k : VmShape} {s : State} {need : Need} {ap : Ap} (h : s.laneSel = none ∧ s.badConfig = false ∧
    s.c.asked.progress = none ∧ k.count s ≤ s.vlmax k.w ∧ s.c.vbad = [] ∧ s.c.fmsk = 0 ∧ s.c.watchctl = 0 ∧ s.bad = [] ∧ Memory.wf s.mem = true ∧ s.tags = [] ∧ tabWf Unencoded.none s.unencoded = true)
    (he : (k.elems s).all (k.okAt s (k.tr s need ap).1 (k.tr s need ap).2) = true) :
    k.Completes s (k.tr s need ap).1 (k.tr s need ap).2 need ap := by
  obtain ⟨h1, h2, hp, h3, h4, h5, h6, h7, h8⟩ := h
  refine ⟨h1, h2, hp, h3, h4, h5, h6, h7, bytesOk_nil h8, Prod.mk.eta.symm, fun e hm => ?_⟩
  have hc := List.all_eq_true.mp he e hm
  simp only [VmShape.okAt, Bool.and_eq_true, decide_eq_true_eq, Bool.or_eq_true, Bool.not_eq_true', Option.isNone_iff_eq_none] at hc
  obtain ⟨⟨⟨⟨ha, hf⟩, hp⟩, hpin⟩, hh⟩ := hc
  refine ⟨ha, ?_, hp, hpin, fun hm' => ?_⟩
  · cases hfa : foundAt (k.tr s need ap).2 (k.page s e) with
    | ok l => exact ⟨l, rfl⟩
    | error m => simp [hfa] at hf
  · rcases hh with hh | hh
    · rw [hm'] at hh; cases hh
    · refine ⟨hh.1.1, hh.1.2, fun clu g hg => ?_⟩
      have := hh.2
      rw [hg] at this
      exact eq_of_beq this

/-- Three active elements of four, x6 in HBM, x7 in the scratchpad; v8 holds indices. -/
def sm : State := withVs (withXs { s2 with c := (sv .i32 3 4).c } [(6, 0x1000), (7, 0x200000000), (8, 4)]) [(8, image 32 [5, 1, 3, 0])]

theorem witness_VectorLoads : ∃ t fs, (Instr.vld ⟨4, 6, 0, .i32, 0, 0, false⟩).wf = true ∧
    (unitShape sm .i32 1 4 0 false 6 0).Completes sm t fs Need.read .plain :=
  ⟨_, _, by decide, completes_of (by decide +kernel) (by decide +kernel)⟩
theorem witness_VectorLoads_strided : ∃ t fs, (Instr.vlds ⟨4, 6, 8, 0, .i32, 0, 0, false⟩).wf = true ∧
    (stridedShape sm .i32 1 4 0 false 6 8 0).Completes sm t fs Need.read .plain :=
  ⟨_, _, by decide, completes_of (by decide +kernel) (by decide +kernel)⟩
theorem witness_VectorLoads_indexed : ∃ t fs, (Instr.vldx ⟨4, 6, 8, 0, .i32, 0, 0, false⟩).wf = true ∧
    (indexedShape sm .i32 1 4 0 false 6 8 0).Completes sm t fs Need.read .plain :=
  ⟨_, _, by decide, completes_of (by decide +kernel) (by decide +kernel)⟩
theorem witness_VectorLoads_planes : ∃ t fs, (Instr.vldbp ⟨8, 6, 8, 0, 0, false, 7⟩).wf = true ∧
    (planeShape sm 8 8 0 false 6 8 0).Completes sm t fs Need.read .plain :=
  ⟨_, _, by decide, completes_of (by decide +kernel) (by decide +kernel)⟩
theorem witness_VectorLoads_hallmark : ∃ t fs, (Instr.vld ⟨4, 7, 0, .i32, 0, 0, true⟩).wf = true ∧
    (unitShape sm .i32 1 4 0 true 7 0).Completes sm t fs Need.read .plain :=
  ⟨_, _, by decide, completes_of (by decide +kernel) (by decide +kernel)⟩

theorem witness_VectorStores : ∃ t fs, (Instr.vst ⟨4, 6, 0, .i32, 0, 0⟩).wf = true ∧
    (unitShape sm .i32 1 4 0 false 6 0).Completes sm t fs Need.write .plain ∧
    (∀ e ∈ (unitShape sm .i32 1 4 0 false 6 0).elems sm, ((unitShape sm .i32 1 4 0 false 6 0).leaf sm fs e).lay.raw = false) ∧
    sm.c.det = false ∧ sm.c.lines = [] :=
  ⟨_, _, by decide, completes_of (by decide +kernel) (by decide +kernel), by decide +kernel, by decide +kernel, by decide +kernel⟩
theorem witness_VectorStores_strided : ∃ t fs, (Instr.vsts ⟨4, 6, 8, 0, .i32, 0, 0⟩).wf = true ∧
    (stridedShape sm .i32 1 4 0 false 6 8 0).Completes sm t fs Need.write .plain :=
  ⟨_, _, by decide, completes_of (by decide +kernel) (by decide +kernel)⟩
theorem witness_VectorStores_indexed : ∃ t fs, (Instr.vstx ⟨4, 6, 8, 0, .i32, 0, 0⟩).wf = true ∧
    (indexedShape sm .i32 1 4 0 false 6 8 0).Completes sm t fs Need.write .plain :=
  ⟨_, _, by decide, completes_of (by decide +kernel) (by decide +kernel)⟩
theorem witness_VectorStores_planes : ∃ t fs, (Instr.vstbp ⟨8, 6, 8, 0, 0, 7⟩).wf = true ∧
    (planeShape sm 8 8 0 false 6 8 0).Completes sm t fs Need.write .plain :=
  ⟨_, _, by decide, completes_of (by decide +kernel) (by decide +kernel)⟩
theorem witness_VectorStores_held : ∃ t fs, (unitShape sm .i32 1 4 0 false 6 0).Completes { sm with c := { sm.c with det := true } } t fs
      Need.write .plain ∧ LinesOk sm.c ∧ sm.c.lines.length + ((unitShape sm .i32 1 4 0 false 6 0).elems sm).length ≤ 1024 :=
  ⟨_, _, completes_of (by decide +kernel) (by decide +kernel), linesOk_nil (by decide +kernel), by decide +kernel⟩
theorem witness_VectorStores_amo : ∃ t fs, (vamoRows.all fun p => (p.1 ⟨4, 6, 8, 0, .i32, 0, 0⟩).wf) = true ∧
    (indexedShape sm .i32 1 4 0 false 6 8 0).Completes sm t fs Need.both .atomic ∧ sm.c.lines = [] :=
  ⟨_, _, by decide, completes_of (by decide +kernel) (by decide +kernel), by decide +kernel⟩

end Sys2Proof.Machine

namespace Sys2Proof.Machine

set_option Elab.async false

/-! Places in memory. In these states every table entry lies below 4 GiB, and what an instruction writes above. -/

/-- A place is aligned, its page grants what is needed and is marked used, and the tables lie below 4 GiB. -/
def State.mapChk (s : State) (n : Need) (x : Slot) : Bool :=
  decide (x.va % x.bytes = 0) && decide (x.bit % x.w = 0) && decide (phys s x.va % x.bytes = 0) &&
  ((s.walked s.c.ptroot x.va).all fun e => e % 8 == 0 && decide (e + 16 ≤ 2 ^ 32)) &&
  match s.walk s.pkg s.c.ptroot x.va with
  | .error _ => false
  | .ok l => l.lay.sk != 3 && (s.leafMiss s.pkg s.c.ptroot l (resolve (some s.here) l.pa) n .plain).isNone &&
    (l.w0 ||| 0x80 ||| (if n.wr then 0x100 else 0)) == l.w0 && !l.lay.raw && s.bad.isEmpty &&
    s.pinOk s.pkg s.c.session (resolve (some s.here) l.pa)

theorem walk_same {s t : State} {W : Nat → Prop} {pkg : Nat} {root : Word} {va : Nat}
    (hb : ∀ a, ¬ W a → byteAt t a = byteAt s a) (hW : ∀ a, W a → 2 ^ 32 ≤ a)
    (h : ((s.walked root va).all fun e => e % 8 == 0 && decide (e + 16 ≤ 2 ^ 32)) = true) :
    t.walk pkg root va = s.walk pkg root va := by
  refine walk_congr s t pkg root va fun e he => ?_
  have := List.all_eq_true.mp h e he
  simp only [Bool.and_eq_true, beq_iff_eq, decide_eq_true_eq] at this
  have same (j : Nat) (hj : j < 16) : (t.bytesAt false (e + j) 1).headD 0 = (s.bytesAt false (e + j) 1).headD 0 :=
    hb _ fun hw => by have := hW _ hw; omega
  refine ⟨bytesAt_eight_congr s t e this.1 (fun j hj => ?_) fun j hj => same j (by omega),
    bytesAt_eight_congr s t (e + 8) (by omega) (fun j hj => ?_) fun j hj => by rw [Nat.add_assoc]; exact same _ (by omega)⟩
  · rw [low_inHbm (by omega), low_inHbm (by omega)]
  · rw [low_inHbm (by omega), low_inHbm (by omega)]

theorem mapped_of {s : State} {W : Nat → Prop} {n : Need} {x : Slot} (h : s.mapChk n x = true) (hW : ∀ a, W a → 2 ^ 32 ≤ a) :
    Mapped s W n x := by
  simp only [State.mapChk, Bool.and_eq_true, decide_eq_true_eq] at h
  obtain ⟨⟨⟨⟨h1, h2⟩, h3⟩, h4⟩, h5⟩ := h
  refine ⟨h1, h2, h3, fun t ht => ?_⟩
  obtain ⟨ht, -, hb⟩ := ht
  have hv : t.view = s.view := by rw [ht]; rfl
  have hw : t.walk s.view.pkg s.view.root x.va = s.walk s.view.pkg s.view.root x.va := walk_same hb hW h4
  cases hl : s.walk s.pkg s.c.ptroot x.va with
  | error e => simp [hl] at h5
  | ok l =>
    simp only [hl, Bool.and_eq_true, bne_iff_ne, ne_eq, beq_iff_eq, Bool.not_eq_true', Option.isNone_iff_eq_none, List.isEmpty_iff] at h5
    obtain ⟨⟨⟨⟨⟨k1, k2⟩, k3⟩, k4⟩, kb⟩, k5⟩ := h5
    obtain ⟨cs, key⟩ := translate_congr s t s.view x.va n .plain l hw hl k1 (by rw [ht]; exact kb) (fun p pa => by rw [ht]; rfl) k2 k3
    rw [hv]
    refine ⟨_, cs, key, ?_, k4, ?_⟩
    · simp [phys, hl, State.view]
    · rw [ht]; exact k5

theorem quiet_of {s : State} (h : s.laneSel = none ∧ s.c.det = false ∧ s.c.lines = [] ∧ s.c.watchctl = 0 ∧ s.bad = [] ∧
    Memory.wf s.mem = true ∧ s.tags = [] ∧ tabWf Unencoded.none s.unencoded = true) :
    Quiet s := ⟨h.1, h.2.1, h.2.2.1, h.2.2.2.1, h.2.2.2.2.1, bytesOk_nil h.2.2.2.2.2⟩

/-! Arrays. -/

/-- What Does asks of the state, apart from its conclusion. -/
def Runs (w : ArrWork) (s : State) (dd : DReg) : Prop :=
  let d := becomes s.c.d[dd] w.shape
  let n := prodOf w.shape
  let k := s.c.scnt.toNat
  let strip := 4096 / d.fmt.width
  let e := min ((k / strip + 1) * strip) n
  let lins := (List.range (e - k)).map (k + ·)
  let W (a : Nat) : Prop := ∃ rd, ∃ lin ∈ lins, ∃ p ∈ w.writes rd lin, phys s p.1.va ≤ a ∧ a < phys s p.1.va + p.1.bytes
  Quiet s ∧ s.c.vlive = true ∧ s.c.pend = false ∧ n ≤ d.cap.toNat ∧
  ∀ lin ∈ lins, let rd := slotGet s (w.after s (byteAt s) ((List.range (lin - k)).map (k + ·)))
    w.ok rd lin ∧ (∀ x ∈ w.reads rd lin, Mapped s W Need.read x) ∧ ∀ p ∈ w.writes rd lin, Mapped s W Need.write p.1

/-- One element: what it reads and the places outs that it writes are mapped. -/
theorem runs_one {w : ArrWork} {s : State} {dd : DReg} (outs : List Slot) (hw : ∀ rd, ∀ p ∈ w.writes rd 0, p.1 ∈ outs)
    (hok : w.ok (slotGet s (byteAt s)) 0)
    (h : (s.laneSel = none ∧ s.c.det = false ∧ s.c.lines = [] ∧ s.c.watchctl = 0 ∧ s.bad = [] ∧ Memory.wf s.mem = true ∧
        s.tags = [] ∧ tabWf Unencoded.none s.unencoded = true) ∧
      s.c.vlive = true ∧ s.c.pend = false ∧ s.c.scnt = 0 ∧ prodOf w.shape = 1 ∧ 1 ≤ (becomes s.c.d[dd] w.shape).cap.toNat ∧
      (w.reads (slotGet s (byteAt s)) 0).all (s.mapChk Need.read) = true ∧
      (outs.all fun x => s.mapChk Need.write x && decide (2 ^ 32 ≤ phys s x.va)) = true) : Runs w s dd := by
  obtain ⟨hq, hv, hp, hk, hn, hc, hr, ho⟩ := h
  have hk0 : s.c.scnt.toNat = 0 := by rw [hk]; rfl
  refine ⟨quiet_of hq, hv, hp, by rw [hn]; exact hc, ?_⟩
  intro lin hlin
  have zero {l : Nat} (hl : l ∈ (List.range (min ((s.c.scnt.toNat / (4096 / (becomes s.c.d[dd] w.shape).fmt.width) + 1) *
      (4096 / (becomes s.c.d[dd] w.shape).fmt.width)) (prodOf w.shape) - s.c.scnt.toNat)).map (s.c.scnt.toNat + ·)) : l = 0 := by
    obtain ⟨j, hj, rfl⟩ := List.mem_map.mp hl
    have := List.mem_range.mp hj
    rw [hn, hk0] at this
    omega
  have hl := zero hlin
  subst hl
  have hW (a : Nat) (ha : ∃ rd, ∃ lin ∈ (List.range (min ((s.c.scnt.toNat / (4096 / (becomes s.c.d[dd] w.shape).fmt.width) + 1) *
      (4096 / (becomes s.c.d[dd] w.shape).fmt.width)) (prodOf w.shape) - s.c.scnt.toNat)).map (s.c.scnt.toNat + ·),
      ∃ p ∈ w.writes rd lin, phys s p.1.va ≤ a ∧ a < phys s p.1.va + p.1.bytes) : 2 ^ 32 ≤ a := by
    obtain ⟨rd, l, hl, p, hp, hle, -⟩ := ha
    rw [zero hl] at hp
    have := List.all_eq_true.mp ho _ (hw rd p hp)
    simp only [Bool.and_eq_true, decide_eq_true_eq] at this
    omega
  have h0 : (List.range (0 - s.c.scnt.toNat)).map (s.c.scnt.toNat + ·) = [] := by rw [hk0]; rfl
  simp only [h0]
  refine ⟨hok, fun x hx => mapped_of (List.all_eq_true.mp hr x hx) hW, fun p hp => ?_⟩
  have := List.all_eq_true.mp ho _ (hw _ p hp)
  simp only [Bool.and_eq_true] at this
  exact mapped_of this.1 hW

/-- A rank 1 descriptor of n elements. -/
def row (f : Fmt) (n : Nat) (base : Nat) : Desc :=
  { base := BitVec.ofNat 72 base, fmt := f, u := false, rank := 1, shape := (Vector.replicate 8 0).set 0 (BitVec.ofNat 32 n),
    stride := (Vector.replicate 8 0).set 0 (BitVec.ofNat 48 (f.width / 8)), pstride := 0, sbase := 0, blk := .none, cap := 64 }

def withDs (s : State) (l : List (DReg × Desc)) : State :=
  l.foldl (fun t p => { t with c := { t.c with d := t.c.d.set p.1 p.2 } }) s

/-- One-element vectors: d1 holds 0, d2 holds 1, d5 and d6 FP32; d8 is empty; d3, d4, d6 and d9 take results. -/
def sa : State := withDs ((sv .i32 4 4).putBytes none Lay.plain 0x100001100 [1])
  [(1, row .i32 1 0x1000), (2, row .i32 1 0x1100), (3, row .i32 1 0x1200), (4, row .i8 1 0x1300), (5, row .fp32 1 0x1400),
   (6, row .fp32 1 0x1500), (8, row .i32 0 0x1600)]

theorem clear_of {s : State} {ip : Bool} {dd : DReg} {sh : List Nat} {srcs : List DReg}
    (h : (srcs.all fun r => !overlaps ip (becomes s.c.d[dd] sh) s.c.d[r]) = true) : Clear s ip dd sh srcs := fun r hr => by
  simpa using List.all_eq_true.mp h r hr
theorem plainly_of {s : State} {dd : DReg} {srcs : List DReg}
    (h : dd ∉ srcs ∧ ((dd :: srcs).all fun r => (s.c.d[r]).blk == .none) = true) : Plainly s dd srcs :=
  ⟨h.1, fun r hr => by simpa using List.all_eq_true.mp h.2 r hr⟩
theorem same_of {s : State} {x y : DReg} (h : (s.c.d[x]).fmt = (s.c.d[y]).fmt ∧ (s.c.d[x]).u = (s.c.d[y]).u) : SameFmt s x y := h
theorem agrees_refl (x : List Nat) : Agrees x x := fun _ _ _ => rfl

/-- A result of one element at slot x. -/
theorem one_out {f : (Slot → Nat) → Nat} {x : Slot} : ∀ rd, ∀ p ∈ [(x, f rd)], p.1 ∈ [x] := fun _ p hp => by
  rw [List.mem_singleton.mp hp]; exact List.mem_singleton.mpr rfl

theorem witness_ArrayElementwise_same : (∃ p, p ∈ dyadicRows ∧ p.2.1 .i32 = true ∧ p.2.2.1 = true) ∧ Plainly sa 3 [1, 2] ∧
    SameFmt sa 2 1 ∧ SameFmt sa 3 1 ∧
    let w := pairWork sa ⟨3, 1, 2, none, none⟩ fun _ _ a b => a + b
    w.shape.length ≤ 8 ∧ Clear sa true 3 w.shape [1, 2] ∧ Runs w sa 3 :=
  ⟨⟨_, .head _, rfl, rfl⟩, plainly_of (by decide +kernel), same_of (by decide +kernel), same_of (by decide +kernel), by decide +kernel,
    clear_of (by decide +kernel), runs_one _ one_out trivial (by decide +kernel)⟩
theorem witness_ArrayElementwise_compare : (∃ p, p ∈ dyadicRows ∧ p.2.1 .i32 = true ∧ p.2.2.1 = false) ∧ Plainly sa 4 [1, 2] ∧
    (sa.c.d[(4 : DReg)]).fmt = .i8 ∧
    let w := pairWork sa ⟨4, 1, 2, none, none⟩ fun _ _ _ _ => 1
    Clear sa true 4 w.shape [1, 2] ∧ Runs w sa 4 :=
  ⟨⟨_, .tail _ (.tail _ (.tail _ (.tail _ (.tail _ (.tail _ (.head _)))))), rfl, rfl⟩, plainly_of (by decide +kernel),
    by decide +kernel, clear_of (by decide +kernel), runs_one _ one_out trivial (by decide +kernel)⟩
theorem witness_ArrayElementwise_one : (∃ p, p ∈ monadicRows ∧ p.2.1 .i32 = true) ∧ Plainly sa 3 [1] ∧ SameFmt sa 3 1 ∧
    let sh := (sa.c.d[(1 : DReg)]).dims
    Clear sa true 3 sh [1] ∧ Runs (fromOne sa 3 1 sh (fun lin => [indexAt sh lin]) fun _ xs => xs.headD 0) sa 3 :=
  ⟨⟨_, .head _, rfl⟩, plainly_of (by decide +kernel), same_of (by decide +kernel), clear_of (by decide +kernel),
    runs_one _ one_out trivial (by decide +kernel)⟩
theorem witness_ArrayElementwise_cvt : (6 : DReg) ≠ 1 ∧ (sa.c.d[(1 : DReg)]).fmt ≠ .bp ∧ (sa.c.d[(1 : DReg)]).fmt ≠ .e8 ∧
    (sa.c.d[(6 : DReg)]).fmt ≠ .bp ∧ (sa.c.d[(6 : DReg)]).fmt ≠ .e8 ∧ (sa.c.d[(1 : DReg)]).blk = .none ∧
    Clear sa true 6 (sa.c.d[(1 : DReg)]).dims [1] ∧ Runs (cvtWork sa 6 1 sa.c.scnt.toNat) sa 6 := by
  have hb : (becomes sa.c.d[(6 : DReg)] (sa.c.d[(1 : DReg)]).dims).blk = .none := by decide +kernel
  refine ⟨by decide, by decide +kernel, by decide +kernel, by decide +kernel, by decide +kernel, by decide +kernel,
    clear_of (by decide +kernel), runs_one [slotOf (becomes sa.c.d[(6 : DReg)] (sa.c.d[(1 : DReg)]).dims)
      (indexAt (sa.c.d[(1 : DReg)]).dims 0)] (fun rd p hp => ?_) (fun h => absurd hb h) (by decide +kernel)⟩
  simp only [cvtWork, hb, if_true, List.mem_singleton] at hp
  rw [hp]
  exact List.mem_singleton.mpr rfl

end Sys2Proof.Machine

namespace Sys2Proof.Machine

set_option Elab.async false

theorem clear_one (s : State) (dd : DReg) (sh : List Nat) (srcs : List DReg)
    (h : (srcs.all fun r => !overlaps false (becomes s.c.d[dd] sh) s.c.d[r]) = true) : Clear s false dd sh srcs := clear_of h

/-- The integers of one vector are mapped. -/
theorem vector_of {s : State} {r : DReg} (h : (s.c.d[r]).rank.val = 1 ∧
    ((List.range ((s.c.d[r]).dims.headD 0)).all fun i => s.mapChk Need.read (slotOf s.c.d[r] [i])) = true) : VectorRead s r :=
  ⟨h.1, fun i hi => mapped_of (List.all_eq_true.mp h.2 i (List.mem_range.mpr hi)) fun _ h => h.elim⟩

theorem witness_ArrayStructure_red : Plainly sa 3 [1] ∧ foldable .add .i32 = true ∧ SameFmt sa 3 1 ∧
    let a := sa.c.d[(1 : DReg)]
    axisOf a.dims none (some 0) = some 0 ∧ Clear sa false 3 [] [1] ∧ Clear sa false 3 a.dims [1] ∧
    Runs (fromOne sa 3 1 [] (fun lin => let ix := indexAt [] lin
      (List.range (a.dims.getD 0 0)).map fun i => ix.take 0 ++ i :: ix.drop 0) fun _ xs => treeAll .add a.fmt a.u xs) sa 3 ∧
    Runs (fromOne sa 3 1 a.dims (fun lin => let ix := indexAt a.dims lin
      (List.range (ix.getD 0 0 + 1)).map (withAt ix 0)) fun _ xs => (xs.drop 1).foldl (combined .add a.fmt (numMods a.u)) (canonical a.fmt (xs.headD 0)))
      sa 3 :=
  ⟨plainly_of (by decide +kernel), by decide, same_of (by decide +kernel), by decide +kernel, clear_of (by decide +kernel),
    clear_of (by decide +kernel), runs_one _ one_out trivial (by decide +kernel), runs_one _ one_out trivial (by decide +kernel)⟩

theorem witness_ArrayStructure_grade : isNum .i32 = true ∧ (sa.c.d[(3 : DReg)]).fmt = .i32 ∧
    let a := sa.c.d[(1 : DReg)]
    Runs (fromOne sa 3 1 a.dims (fun lin => (List.range (a.dims.getD 0 0)).map (withAt (indexAt a.dims lin) 0)) fun lin xs =>
      rankAt a.fmt a.u xs ((indexAt a.dims lin).getD 0 0)) sa 3 :=
  ⟨by decide, by decide +kernel, runs_one _ one_out trivial (by decide +kernel)⟩

/-- Taking, dropping and rotating: the clauses' works over d1, for a count of 1 taken, 0 dropped, 1 rotated. -/
theorem witness_ArrayStructure_counts : Plainly sa 3 [1] ∧ (sa.c.d[(1 : DReg)]).fmt ≠ .bp ∧ SameFmt sa 3 1 ∧
    let a := sa.c.d[(1 : DReg)]
    let moved (len : Nat) (src : Nat → Option Nat) : ArrWork :=
      let sh := withAt a.dims 0 len
      fromOne sa 3 1 sh (fun lin => let ix := indexAt sh lin
        ((src (ix.getD 0 0)).map (withAt ix 0)).toList) fun _ xs => xs.headD 0
    axisOf a.dims none (some 0) = some 0 ∧ Clear sa false 3 a.dims [1] ∧ Clear sa false 3 (withAt a.dims 0 1) [1] ∧
    Runs (moved 1 fun i => some ((i + 1 : Int) % 1).toNat) sa 3 ∧ Runs (moved 1 fun i => if i < 1 then some i else none) sa 3 ∧
    Runs (moved 1 fun i => some i) sa 3 :=
  ⟨plainly_of (by decide +kernel), by decide +kernel, same_of (by decide +kernel), by decide +kernel, clear_of (by decide +kernel),
    clear_of (by decide +kernel), runs_one _ one_out trivial (by decide +kernel), runs_one _ one_out trivial (by decide +kernel),
    runs_one _ one_out trivial (by decide +kernel)⟩

theorem witness_ArrayStructure_shape : Plainly sa 3 [1, 2] ∧ SameFmt sa 3 1 ∧ (sa.c.d[(2 : DReg)]).fmt = .i32 ∧ VectorRead sa 2 ∧
    vectorOf sa 2 = [1] ∧ Clear sa false 3 [1] [1, 2] ∧
    let a := sa.c.d[(1 : DReg)]
    Runs (fromOne sa 3 1 [1] (fun lin => if prodOf a.dims = 0 then [] else [indexAt a.dims (lin % prodOf a.dims)]) fun _ ys =>
      ys.headD 0) sa 3 :=
  ⟨plainly_of (by decide +kernel), same_of (by decide +kernel), by decide +kernel, vector_of (by decide +kernel), by decide +kernel,
    clear_of (by decide +kernel), runs_one _ one_out trivial (by decide +kernel)⟩

theorem witness_ArrayStructure_tpose : Plainly sa 3 [2, 1] ∧ SameFmt sa 3 2 ∧ VectorRead sa 1 ∧ vectorOf sa 1 = [0] ∧
    (sa.c.d[(2 : DReg)]).rank.val = 1 ∧ Clear sa false 3 [1] [2, 1] ∧
    Runs (fromOne sa 3 2 [1] (fun lin => [(List.range 1).map fun q => (indexAt [1] lin).getD ([0].idxOf q) 0]) fun _ ys => ys.headD 0)
      sa 3 :=
  ⟨plainly_of (by decide +kernel), same_of (by decide +kernel), vector_of (by decide +kernel), by decide +kernel, by decide +kernel,
    clear_of (by decide +kernel), runs_one _ one_out trivial (by decide +kernel)⟩

theorem witness_ArrayStructure_outer : foldable .lt .i32 = true ∧ Plainly sa 4 [1, 2] ∧ SameFmt sa 2 1 ∧ (sa.c.d[(4 : DReg)]).fmt = .i8 ∧
    Clear sa false 4 [1] [1, 2] ∧
    let x (lin : Nat) : Slot := slotOf sa.c.d[(1 : DReg)] ((indexAt [1] lin).take 1)
    let y (lin : Nat) : Slot := slotOf sa.c.d[(2 : DReg)] ((indexAt [1] lin).take 1)
    Runs ⟨[1], fun _ lin => [x lin, y lin], fun rd lin => [(slotOf (becomes sa.c.d[(4 : DReg)] [1]) (indexAt [1] lin),
      outerOf .lt .i32 false (rd (x lin)) (rd (y lin)))], fun _ _ => True, false⟩ sa 4 :=
  ⟨by decide, plainly_of (by decide +kernel), same_of (by decide +kernel), by decide +kernel, clear_of (by decide +kernel),
    runs_one _ one_out trivial (by decide +kernel)⟩

/-- arr.from picks element 0 of d2 by the index that d1 holds. -/
theorem witness_ArrayStructure_from : Plainly sa 3 [1, 2] ∧ SameFmt sa 3 2 ∧ cellOf (sa.c.d[(2 : DReg)]).dims none ≠ [] ∧
    Clear sa false 3 [1] [1, 2] ∧
    let x (lin : Nat) : Slot := slotOf sa.c.d[(1 : DReg)] ((indexAt [1] lin).take 1)
    let pick (rd : Slot → Nat) (lin : Nat) : Int := num 32 false (rd (x lin))
    let y (rd : Slot → Nat) (lin : Nat) : Slot := slotOf sa.c.d[(2 : DReg)] ((pick rd lin).toNat :: (indexAt [1] lin).drop 1)
    Runs ⟨[1], fun rd lin => [x lin, y rd lin],
      fun rd lin => [(slotOf (becomes sa.c.d[(3 : DReg)] [1]) (indexAt [1] lin), rd (y rd lin))],
      fun rd lin => 0 ≤ pick rd lin ∧ pick rd lin < 1, false⟩ sa 3 :=
  ⟨plainly_of (by decide +kernel), same_of (by decide +kernel), by decide +kernel, clear_of (by decide +kernel),
    runs_one _ one_out (by decide +kernel) (by decide +kernel)⟩

theorem witness_ArrayStructure_comp : Plainly sa 3 [2, 1] ∧ SameFmt sa 3 1 ∧ VectorRead sa 2 ∧
    axisOf (sa.c.d[(1 : DReg)]).dims none (some 0) = some 0 ∧ (sa.c.d[(2 : DReg)]).dims.headD 0 = (sa.c.d[(1 : DReg)]).dims.getD 0 0 ∧
    ((List.range 1).filter fun i => (vectorOf sa 2).getD i 0 != 0) = [0] ∧ Clear sa false 3 (withAt [1] 0 1) [2, 1] ∧
    Runs (fromOne sa 3 1 [1] (fun lin => [withAt (indexAt [1] lin) 0 ([0].getD ((indexAt [1] lin).getD 0 0) 0)]) fun _ ys => ys.headD 0)
      sa 3 :=
  ⟨plainly_of (by decide +kernel), same_of (by decide +kernel), vector_of (by decide +kernel), by decide +kernel, by decide +kernel,
    by decide +kernel, clear_of (by decide +kernel), runs_one _ one_out trivial (by decide +kernel)⟩

theorem witness_ArrayStructure_cat : Plainly sa 3 [1, 8] ∧ SameFmt sa 8 1 ∧ SameFmt sa 3 1 ∧
    let ca := cellOf (sa.c.d[(1 : DReg)]).dims none
    let cb := cellOf (sa.c.d[(8 : DReg)]).dims none
    ca.length = cb.length ∧ axisOf (sa.c.d[(1 : DReg)]).dims none (some 0) = some 0 ∧ Agrees (withAt ca 0 0) (withAt cb 0 0) ∧
    Clear sa false 3 (withAt ca 0 (1 + cb.getD 0 0)) [1, 8] ∧
    Runs ⟨[1], fun _ lin => [slotOf sa.c.d[(1 : DReg)] (indexAt [1] lin)],
      fun rd lin => [(slotOf (becomes sa.c.d[(3 : DReg)] [1]) (indexAt [1] lin), rd (slotOf sa.c.d[(1 : DReg)] (indexAt [1] lin)))],
      fun _ _ => True, false⟩ sa 3 :=
  ⟨plainly_of (by decide +kernel), same_of (by decide +kernel), same_of (by decide +kernel), by decide +kernel, by decide +kernel,
    (by decide +kernel : withAt (cellOf (sa.c.d[(1 : DReg)]).dims none) 0 0 = withAt (cellOf (sa.c.d[(8 : DReg)]).dims none) 0 0) ▸
      agrees_refl _, clear_of (by decide +kernel), runs_one _ one_out trivial (by decide +kernel)⟩

theorem witness_ArrayStructure_iota : (sa.c.d[(3 : DReg)]).blk = .none ∧ (sa.c.d[(3 : DReg)]).fmt.isInt = true ∧
    Runs ⟨[1], fun _ _ => [], fun _ lin => [(slotOf (becomes sa.c.d[(3 : DReg)] [1]) [lin], lin % 2 ^ 32)], fun _ _ => True, false⟩ sa 3 :=
  ⟨by decide +kernel, by decide +kernel, runs_one _ one_out trivial (by decide +kernel)⟩

/-! Descriptors. -/

/-- x6 points to the image of d1. -/
def sdl : State := withXs (sa.putBytes none Lay.plain 0x100002000 (sa.c.d[(1 : DReg)]).image) [(6, 0x2000)]

theorem witness_Descriptors : (row .i32 1 0x1000).valid = true ∧ Quiet sdl ∧ (xOf sdl 6).toNat % 64 = 0 ∧
    (∀ i, i < 128 → Mapped sdl (fun _ => False) Need.read ⟨imageVa sdl (xOf sdl 6) i, 0, 8⟩) ∧
    Desc.ofImage ((List.range 128).map fun i => byteAt sdl (phys sdl (imageVa sdl (xOf sdl 6) i))) = some (row .i32 1 0x1000) := by
  refine ⟨by decide +kernel, quiet_of (by decide +kernel), by decide +kernel, fun i hi => ?_, by decide +kernel⟩
  have h : ((List.range 128).all fun i => sdl.mapChk Need.read ⟨imageVa sdl (xOf sdl 6) i, 0, 8⟩) = true := by decide +kernel
  exact mapped_of (List.all_eq_true.mp h i (List.mem_range.mpr hi)) fun _ h => h.elim

theorem witness_Descriptors_store :
    let W (a : Nat) : Prop := ∃ i, i < 128 ∧ a = phys sdl (imageVa sdl (xOf sdl 6) i)
    ∀ i, i < 128 → Mapped sdl W Need.write ⟨imageVa sdl (xOf sdl 6) i, 0, 8⟩ := by
  intro W i hi
  have h : ((List.range 128).all fun i => sdl.mapChk Need.write ⟨imageVa sdl (xOf sdl 6) i, 0, 8⟩ &&
    decide (2 ^ 32 ≤ phys sdl (imageVa sdl (xOf sdl 6) i))) = true := by decide +kernel
  have at_ {j : Nat} (hj : j < 128) := List.all_eq_true.mp h j (List.mem_range.mpr hj)
  simp only [Bool.and_eq_true, decide_eq_true_eq] at at_
  exact mapped_of (at_ hi).1 fun a ⟨j, hj, e⟩ => e ▸ (at_ hj).2

theorem witness_Descriptors_fields : InScu (withXs s1 [(12, 5)]) ∧ (Instr.dset 5 12 .cap (some 0)).wf = true ∧
    IsSet (withXs s1 [(12, 5)]).c.d[(5 : DReg)] .cap (some 0) 0 5 { (withXs s1 [(12, 5)]).c.d[(5 : DReg)] with cap := 5 } ∧
    ({ (withXs s1 [(12, 5)]).c.d[(5 : DReg)] with cap := 5 } : Desc).valid = true ∧
    ((withXs s1 [(12, 5)]).c.d[(5 : DReg)]).axis (some 0) = none :=
  ⟨rfl, by decide, rfl, by decide +kernel, by decide +kernel⟩
/-- A rank of 9; a length of 2^32 on an axis that is there. -/
theorem witness_Descriptors_format : (∀ e, IsSet (row .i32 1 0x1000) .rank none 0 9 e → e.valid = false) ∧
    (row .i32 1 0x1000).axis (some 0) ≠ none ∧ ∀ e, IsSet (row .i32 1 0x1000) .shape (some 0) 0 0x100000000 e → e.valid = false :=
  ⟨fun e h => absurd e.rank.isLt (by have := h.1; simp at this; omega), by decide +kernel, fun _ h => absurd h.1 (by decide)⟩

end Sys2Proof.Machine

namespace Sys2Proof.Machine

set_option Elab.async false

/-! The matrix unit and plans. -/

/-- A rank 2 descriptor of m by n elements; the descriptor of a plan image, all of whose words lie at one place. -/
def mat (f : Fmt) (m n base : Nat) : Desc :=
  { row f m base with
    rank := 2
    shape := ((Vector.replicate 8 0).set 0 (BitVec.ofNat 32 m)).set 1 (BitVec.ofNat 32 n)
    stride := ((Vector.replicate 8 0).set 0 (BitVec.ofNat 48 (n * (f.width / 8)))).set 1 (BitVec.ofNat 48 (f.width / 8)) }

def planImage (base : Nat) : Desc :=
  { row .fp32 1 base with
    rank := 3
    shape := (((Vector.replicate 8 0).set 0 1).set 1 5).set 2 64
    stride := Vector.replicate 8 0 }

theorem planImage_slot (base k : Nat) (h : base < 2 ^ 72) : imageSlot (planImage base) k = ⟨base, 0, 32⟩ := by
  have hw : (planImage base).fmt.width = 32 := rfl
  have hs : (planImage base).stride.toList.map BitVec.toInt = List.replicate 8 0 := by
    show (Vector.replicate 8 (0 : BitVec 48)).toList.map BitVec.toInt = List.replicate 8 0
    decide
  simp only [imageSlot, slotOf, hw, hs]
  simp [planImage, row, List.replicate]
  omega

/-- The matrix unit enabled and owned; d1 and d2 BF16, d3 FP32, of one element; d4 a plan image; d5 and d6 FP32 vectors of one. -/
def smx : State := withDs { sv .i32 4 4 with
    c := { (sv .i32 4 4).c with mxen := true }
    k := { (sv .i32 4 4).k with owner := some 0 } }
  [(1, mat .bf16 1 1 0x1000), (2, mat .bf16 1 1 0x1100), (3, mat .fp32 1 1 0x1200), (4, planImage 0x2000), (5, row .fp32 1 0x1400),
   (6, row .fp32 1 0x1500)]

theorem own_of {s : State} (h : s.c.hnd = true ∨ (s.c.mxen = true ∧ s.k.owner = some (Fin.ofNat 4 s.here))) : MxOwn s := h
theorem all_mapped {s : State} {n : Need} {l : List Slot} (h : l.all (s.mapChk n) = true) :
    ∀ x ∈ l, Mapped s (fun _ => False) n x := fun x hx => mapped_of (List.all_eq_true.mp h x hx) fun _ h => h.elim

theorem witness_MatrixState : InScu s1 ∧ s1.k.owner = none ∧ smx.k.owner ≠ none ∧ MxOwn smx ∧ (7 : TReg).val + (0 : Fin 8).val ≤ 7 ∧
    smx.c.vlive = true ∧ 32 ≤ smx.wid ∧ smx.k.tbad = [] ∧ smx.c.vbad = [] ∧ indexOf smx (.imm 63) < 64 ∧ s1.c.hnd = false ∧
    s1.c.mxen = false :=
  ⟨scu_of (by decide +kernel), by decide +kernel, by decide +kernel, own_of (by decide +kernel), by decide, by decide +kernel,
    by decide +kernel, by decide +kernel, by decide +kernel, by decide, by decide +kernel, by decide +kernel⟩

/-- A task that has not enabled the matrix state, and one that has and does not own it. -/
theorem witness_MatrixState_off : ¬ MxOwn s1 ∧ matrixPoint (.mxz 0 0) = some .none ∧ matrixPoint (.bal 0) = some .plsw ∧
    ¬ MxOwn { smx with k := { smx.k with owner := some 1 } } ∧
    ({ smx with k := { smx.k with owner := some 1 } } : State).c.mxen = true := by
  refine ⟨?_, rfl, rfl, ?_, by decide +kernel⟩ <;> unfold MxOwn <;> decide +kernel

theorem witness_MatrixRuns : let a := smx.c.d[(1 : DReg)]
    let b := smx.c.d[(2 : DReg)]
    Quiet smx ∧ MxOwn smx ∧ smx.k.tbad = [] ∧ (Instr.mxa ⟨0, 1, 2, .bf16, 0⟩).wf = true ∧ Fmt.bf16 = a.fmt ∧ Paired a.fmt b.fmt ∧
    Operand a ∧ Operand b ∧ rowsOf a ≤ 64 ∧ colsOf b ≤ 64 ∧ rowsOf b = colsOf a ∧ a.blk = .none ∧ b.blk = .none ∧
    enabledOf smx (rowsOf a) (colsOf b) 1 = [(0, 0)] ∧ colsOf a = 1 ∧
    ∀ x ∈ operandSlots a 0 0 ++ operandSlots b 0 0, Mapped smx (fun _ => False) Need.read x := by
  have ha : smx.c.d[(1 : DReg)] = mat .bf16 1 1 0x1000 := by decide +kernel
  have hb : smx.c.d[(2 : DReg)] = mat .bf16 1 1 0x1100 := by decide +kernel
  refine ⟨quiet_of (by decide +kernel), own_of (by decide +kernel), by decide +kernel, by decide, by decide +kernel, ?_, ?_, ?_,
    by decide +kernel, by decide +kernel, by decide +kernel, by decide +kernel, by decide +kernel, by decide +kernel,
    by decide +kernel, all_mapped (by decide +kernel)⟩
  · rw [ha, hb]; exact .inl ⟨rfl, .inl rfl⟩
  · rw [ha]; exact ⟨.inl rfl, rfl⟩
  · rw [hb]; exact ⟨.inl rfl, rfl⟩
theorem witness_MatrixRuns_load : let d := smx.c.d[(3 : DReg)]
    d.fmt = .fp32 ∧ d.blk = .none ∧ d.rank.val = 2 ∧ rowsOf d ≤ 64 ∧ colsOf d ≤ 64 ∧ enabledOf smx (rowsOf d) (colsOf d) 1 = [(0, 0)] ∧
    Mapped smx (fun _ => False) Need.read (slotOf d [0, 0]) :=
  ⟨by decide +kernel, by decide +kernel, by decide +kernel, by decide +kernel, by decide +kernel, by decide +kernel,
    mapped_of (by decide +kernel) fun _ h => h.elim⟩
theorem witness_MatrixRuns_store : let d := smx.c.d[(3 : DReg)]
    let W (a : Nat) : Prop := ∃ e ∈ [((0 : Nat), (0 : Nat))],
      phys smx (slotOf d [e.1, e.2]).va ≤ a ∧ a < phys smx (slotOf d [e.1, e.2]).va + 4
    Mapped smx W Need.write (slotOf d [0, 0]) := by
  intro d W
  refine mapped_of (by decide +kernel) fun a ⟨e, he, hle, _⟩ => ?_
  rw [List.mem_singleton.mp he] at hle
  exact Nat.le_trans (by decide +kernel) hle

theorem witness_KSumSplits : ((List.replicate 64 (FVal.fin false 1 0)).length % 32 = 0) := by decide
/-- An accumulator of 0 and one term, 1. -/
theorem witness_KSumSplits_window : let all := [fval .fp32 0, FVal.fin false 1 0]
    (∀ t ∈ all, ∃ neg m e, t = .fin neg m e) ∧ ¬ (∀ t ∈ [FVal.fin false 1 0], t.isZero = true) ∧
    (∃ t ∈ all, ratOf t ≠ 0 ∧ Int.log 2 |ratOf t| = 0) ∧ ∀ t ∈ all, ratOf t ≠ 0 → Int.log 2 |ratOf t| ≤ 0 := by
  have h0 : fval .fp32 0 = .fin false 0 (-149) := by decide +kernel
  rw [h0]
  refine ⟨?_, by decide, ⟨.fin false 1 0, by simp, by simp [ratOf], by simp [ratOf]⟩, ?_⟩
  · intro t ht
    rcases List.mem_cons.mp ht with rfl | ht
    · exact ⟨_, _, _, rfl⟩
    · exact ⟨_, _, _, List.mem_singleton.mp ht⟩
  · intro t ht hz
    rcases List.mem_cons.mp ht with rfl | ht
    · simp [ratOf] at hz
    · rw [List.mem_singleton.mp ht]
      simp [ratOf]

/-- smx with a plan bound to tile 0: 1 by 1, the masses 1. -/
def smp : State := { smx with k := { smx.k with plan := { Plan.clear with
  bnd := true, pt := 0, m := 1, n := 1, eps := 0x3F800000, mrow := (Vector.replicate 64 0).set 0 0x3F800000,
  mcol := (Vector.replicate 64 0).set 0 0x3F800000 } } }

theorem bound_of {s : State} {t : TReg} (h : s.k.plan.bnd = true ∧ s.k.plan.pt = t ∧ s.k.plan.m.toNat ≤ 64 ∧ s.k.plan.n.toNat ≤ 64) :
    Bound s t := h

theorem witness_PlanInstructions_bind : let d := smx.c.d[(3 : DReg)]
    MxOwn smx ∧ smx.k.tbad = [] ∧ Quiet smx ∧ d.rank.val = 2 ∧ d.fmt = .fp32 ∧ d.blk = .none ∧ rowsOf d = 1 ∧ colsOf d = 1 ∧
    posNormal smx.c.pleps = true ∧ unitsOf smx 1 = [0] ∧ Mapped smx (fun _ => False) Need.read (slotOf d [0, 0]) ∧
    let cost := elemVal d.fmt false (slotGet smx (byteAt smx) (slotOf d [0, 0]))
    cost ≠ .nan ∧ cost ≠ .inf true :=
  ⟨own_of (by decide +kernel), by decide +kernel, quiet_of (by decide +kernel), by decide +kernel, by decide +kernel, by decide +kernel,
    by decide +kernel, by decide +kernel, by decide +kernel, by decide +kernel, mapped_of (by decide +kernel) fun _ h => h.elim,
    by decide +kernel, by decide +kernel⟩
/-- plset goes on at row 1 of a plan of two rows, whatever the descriptor says now. -/
theorem witness_PlanInstructions_resume : let s : State := { smp with
      c := { smp.c with mxprog := 1 }, k := { smp.k with plan := { smp.k.plan with m := 2 } } }
    let d := s.c.d[(3 : DReg)]
    ¬ (s.c.hnd = true ∨ s.c.mxprog = 0) ∧ MxOwn s ∧ Quiet s ∧ rowsOf d = 1 ∧ s.k.plan.m.toNat = 2 ∧ unitsOf s 2 = [1] ∧
    Mapped s (fun _ => False) Need.read (slotOf d [1, 0]) ∧
    elemVal d.fmt false (slotGet s (byteAt s) (slotOf d [1, 0])) = .fin false 0 (-149) :=
  ⟨by decide +kernel, own_of (by decide +kernel), quiet_of (by decide +kernel), by decide +kernel, by decide +kernel, by decide +kernel,
    mapped_of (by decide +kernel) fun _ h => h.elim, by decide +kernel⟩
theorem witness_PlanInstructions_image : let d := smx.c.d[(4 : DReg)]
    d.dims = [1, 5, 64] ∧ d.fmt = .fp32 ∧ d.blk = .none ∧ PlanOk Plan.clear ∧
    (∀ k, k < 320 → Mapped smx (fun _ => False) Need.read (imageSlot d k)) ∧
    ((List.range 320).map fun k => slotGet smx (byteAt smx) (imageSlot d k)) = imageWords Plan.clear := by
  have hd : smx.c.d[(4 : DReg)] = planImage 0x2000 := by decide +kernel
  have hs (k : Nat) : imageSlot (planImage 0x2000) k = ⟨0x2000, 0, 32⟩ := planImage_slot _ _ (by decide)
  have h0 : slotGet smx (byteAt smx) ⟨0x2000, 0, 32⟩ = 0 := by decide +kernel
  have hz : imageWords Plan.clear = List.replicate 320 0 := by decide +kernel
  have hm : smx.mapChk Need.read ⟨0x2000, 0, 32⟩ = true := by decide +kernel
  simp only [hd, hs, h0, hz]
  exact ⟨by decide +kernel, rfl, rfl, ⟨rfl, rfl, rfl, rfl⟩, fun _ _ => mapped_of hm fun _ h => h.elim, by simp [List.map_const']⟩
theorem witness_PlanInstructions_marginals : let a := smp.c.d[(5 : DReg)]
    let b := smp.c.d[(6 : DReg)]
    MxOwn smp ∧ smp.k.tbad = [] ∧ Quiet smp ∧ a.fmt = .fp32 ∧ b.fmt = .fp32 ∧ a.dims = [smp.k.plan.m.toNat] ∧
    b.dims = [smp.k.plan.n.toNat] ∧ Bound smp smp.k.plan.pt ∧ smp.k.plan.m.toNat = 1 ∧ smp.k.plan.n.toNat = 1 ∧
    (∀ x ∈ [slotOf a [0], slotOf b [0]], Mapped smp (fun _ => False) Need.read x) ∧
    fval .fp32 (slotGet smp (byteAt smp) (slotOf a [0])) = .fin false 0 (-149) ∧
    fval .fp32 (slotGet smp (byteAt smp) (slotOf b [0])) = .fin false 0 (-149) :=
  ⟨own_of (by decide +kernel), by decide +kernel, quiet_of (by decide +kernel), by decide +kernel, by decide +kernel, by decide +kernel,
    by decide +kernel, bound_of (by decide +kernel), by decide +kernel, by decide +kernel, all_mapped (by decide +kernel),
    by decide +kernel, by decide +kernel⟩
theorem witness_PlanInstructions_out : let d := smp.c.d[(3 : DReg)]
    let W (a : Nat) : Prop := ∃ e ∈ [((0 : Nat), (0 : Nat))],
      phys smp (slotOf d [e.1, e.2]).va ≤ a ∧ a < phys smp (slotOf d [e.1, e.2]).va + 4
    InScu smp ∧ Bound smp 0 ∧ d.fmt = .fp32 ∧ d.blk = .none ∧ d.dims = [smp.k.plan.m.toNat, smp.k.plan.n.toNat] ∧
    ((unitsOf smp 1).flatMap fun i => (List.range 1).map fun j => (i, j)) = [(0, 0)] ∧ Mapped smp W Need.write (slotOf d [0, 0]) ∧
    smp.c.vlive = true ∧ 32 ≤ smp.wid ∧ smp.c.vbad = [] := by
  refine ⟨scu_of (by decide +kernel), bound_of (by decide +kernel), by decide +kernel, by decide +kernel, by decide +kernel,
    by decide +kernel, mapped_of (by decide +kernel) fun a ⟨e, he, hle, _⟩ => ?_, by decide +kernel, by decide +kernel, by decide +kernel⟩
  rw [List.mem_singleton.mp he] at hle
  exact Nat.le_trans (by decide +kernel) hle
theorem witness_PlanInstructions_save : let d := smp.c.d[(4 : DReg)]
    let W (a : Nat) : Prop := ∃ k, k < 320 ∧ phys smp (imageSlot d k).va ≤ a ∧ a < phys smp (imageSlot d k).va + 4
    ∀ k, k < 320 → Mapped smp W Need.write (imageSlot d k) := by
  have hd : smp.c.d[(4 : DReg)] = planImage 0x2000 := by decide +kernel
  have hs (k : Nat) : imageSlot (planImage 0x2000) k = ⟨0x2000, 0, 32⟩ := planImage_slot _ _ (by decide)
  have hm : smp.mapChk Need.write ⟨0x2000, 0, 32⟩ = true ∧ 2 ^ 32 ≤ phys smp 0x2000 := by decide +kernel
  simp only [hd, hs]
  exact fun _ _ => mapped_of hm.1 fun a ⟨_, _, hle, _⟩ => Nat.le_trans hm.2 hle

/-- −128 lies below −126 ln 2; 0 and 1 are finite. -/
theorem witness_PlanBalance_arith : FinitePat .fp32 0xC3000000 ∧ (ratOf (fval .fp32 0xC3000000) : ℝ) < -126 * Real.log 2 ∧
    FinitePat .fp32 0 ∧ (ratOf (fval .fp32 0) : ℝ) = 0 := by
  have h : fval .fp32 0xC3000000 = .fin true 8388608 (-16) := by decide +kernel
  have h0 : fval .fp32 0 = .fin false 0 (-149) := by decide +kernel
  refine ⟨⟨by decide, _, _, _, h⟩, ?_, ⟨by decide, _, _, _, h0⟩, by simp [h0, ratOf]⟩
  have := Real.log_two_lt_d9
  rw [h]
  norm_num [ratOf]
  linarith

/-- 1 is a finite factor above zero. -/
theorem witness_PlanBalance_factor : FinitePat .fp32 0x3F800000 ∧ (0 : ℝ) < (ratOf (fval .fp32 0x3F800000) : ℝ) := by
  have h : fval .fp32 0x3F800000 = .fin false 8388608 (-23) := by decide +kernel
  refine ⟨⟨by decide, _, _, _, h⟩, ?_⟩
  rw [h]
  norm_num [ratOf]

/-- bal with masses that agree, and with none. -/
theorem witness_PlanBalance : InScu smp ∧ MxOwn smp ∧ smp.k.tbad = [] ∧ Bound smp 0 ∧ smp.c.mxprog = 0 ∧
    ((firstN smp.k.plan.m smp.k.plan.mrow).foldl planAdd 0) = 0x3F800000 ∧
    ((firstN smp.k.plan.n smp.k.plan.mcol).foldl planAdd 0) = 0x3F800000 ∧ (fval .fp32 0x3F800000).isZero = false ∧
    (fval .fp32 (planMul smp.c.pltol.toNat (max32 0x3F800000 0x3F800000))).lt
      (fval .fp32 (planSub 0x3F800000 0x3F800000 % 2 ^ 31)) = false :=
  ⟨scu_of (by decide +kernel), own_of (by decide +kernel), by decide +kernel, bound_of (by decide +kernel), by decide +kernel,
    by decide +kernel, by decide +kernel, by decide +kernel, by decide +kernel⟩
theorem witness_PlanBalance_uneven : let s : State := { smp with k := { smp.k with plan := { smp.k.plan with
      mrow := Vector.replicate 64 0, mcol := Vector.replicate 64 0 } } }
    Bound s 0 ∧ s.c.mxprog = 0 ∧ (fval .fp32 ((firstN s.k.plan.m s.k.plan.mrow).foldl planAdd 0)).isZero = true :=
  ⟨bound_of (by decide +kernel), by decide +kernel, by decide +kernel⟩

end Sys2Proof.Machine

namespace Sys2Proof.Machine

set_option Elab.async false

/-! Clasps, granules, engine records, assays. -/

/-- x1 = 1, x6 in HBM, x7 in the scratchpad, x9 no granule's address. -/
def sc : State := withXs s2 [(1, 1), (6, 0x1000), (7, 0x200000000), (9, 0x200000040)]

theorem witness_ClaspInstructions : InScu sc ∧ (let p := claspOf sc.here (.cluster 3)
      (sc.claspAt p).phase = (xOf sc 0).getLsbD 0 ∧ (sc.claspAt p).phase ≠ (xOf sc 1).getLsbD 0 ∧
      ((afterArrival sc p).claspAt p).phase ≠ (xOf sc 0).getLsbD 0 ∧ ((afterArrival sc p).claspAt p).phase = (xOf sc 1).getLsbD 0) ∧
    ({ sc with c := { sc.c with wait := .clasp (.cluster 0 3) true false } } : State).c.wait = .clasp (.cluster 0 3) true false ∧
    (sc.claspAt (.cluster 0 3)).phase ≠ true :=
  ⟨scu_of (by decide +kernel), by decide +kernel, rfl, by decide +kernel⟩

theorem at_granule {s : State} {a : Word} {n : Need} {clu off : Nat}
    (h : isOk (s.translate s.view (s.c.vah.toNat * 2 ^ 64 + a.toNat) n .plain) = true ∧
      (leafOf (s.translate s.view (s.c.vah.toNat * 2 ^ 64 + a.toNat) n .plain)).pa / 2 ^ 46 =
        (s.translate s.view (s.c.vah.toNat * 2 ^ 64 + a.toNat) n .plain).1.pkg ∧
      (s.translate s.view (s.c.vah.toNat * 2 ^ 64 + a.toNat) n .plain).1.place
        (leafOf (s.translate s.view (s.c.vah.toNat * 2 ^ 64 + a.toNat) n .plain)).pa = .spad clu off) :
    AtGranule s (s.translate s.view (s.c.vah.toNat * 2 ^ 64 + a.toNat) n .plain).1 a n
      (leafOf (s.translate s.view (s.c.vah.toNat * 2 ^ 64 + a.toNat) n .plain)) clu (off / 4096) :=
  ⟨ok_eq h.1, h.2.1, off, h.2.2, rfl⟩

theorem witness_HallmarksAndPins : ∃ t l, InScu sc ∧ AtGranule sc t (xOf sc 7) Need.write l 0 (0 / 4096) ∧
    t.pinOk t.pkg t.c.session l.pa = true :=
  ⟨_, _, scu_of (by decide +kernel), at_granule (by decide +kernel), by decide +kernel⟩
theorem witness_HallmarksAndPins_read : ∃ t l, AtGranule sc t (xOf sc 7) Need.read l 0 (0 / 4096) ∧
    t.pinOk t.pkg t.c.session l.pa = true ∧ tabGet Bad.clean (t.clusterAt 0).hallBad (0 / 4096) = Bad.clean :=
  ⟨_, _, at_granule (by decide +kernel), by decide +kernel, by decide +kernel⟩

/-- The hallmark of granule 0 in error b; granule 0 pinned to session 7, with a session of the task. -/
def scb (b : Bad) : State := sc.onCluster 0 fun x => { x with hallBad := [(0, b)] }
def badNew : Bad := { Bad.clean with left := none }
def badLasting : Bad := { Bad.clean with left := none, erred := some Lay.plain, lasting := true }
def scp : State := { sc with c := { sc.c with session := 5 } }.onCluster 0 fun x => { x with pins := [(0, 7)] }

theorem witness_HallmarksAndPins_first : ∃ t l, AtGranule (scb badNew) t (xOf (scb badNew) 7) Need.read l 0 (0 / 4096) ∧
    t.pinOk t.pkg t.c.session l.pa = true ∧ tabGet Bad.clean (t.clusterAt 0).hallBad (0 / 4096) = badNew ∧ badNew.lasting = false ∧
    badNew.erred = none ∧ badNew.left ≠ some 0 :=
  ⟨_, _, at_granule (by decide +kernel), by decide +kernel, by decide +kernel, rfl, rfl, by decide⟩
theorem witness_HallmarksAndPins_lasting : ∃ t l, AtGranule (scb badLasting) t (xOf (scb badLasting) 7) Need.read l 0 (0 / 4096) ∧
    t.pinOk t.pkg t.c.session l.pa = true ∧ (tabGet Bad.clean (t.clusterAt 0).hallBad (0 / 4096)).lasting = true :=
  ⟨_, _, at_granule (by decide +kernel), by decide +kernel, by decide +kernel⟩
theorem witness_HallmarksAndPins_range : ∃ t, (xOf sc 7).toNat % 4096 = 0 ∧
    Granules sc (xOf sc 7) [(0, 0 / 4096), (0, 4096 / 4096)] t ∧ sc.c.session = 0 ∧
    (∀ k ∈ [((0 : Nat), (0 : Nat) / 4096), (0, 4096 / 4096)], ¬ (pinned sc k ≠ 0 ∧ pinned sc k ≠ sc.c.session)) ∧
    (xOf sc 9).toNat % 4096 ≠ 0 :=
  ⟨_, by decide +kernel, ⟨_, _, at_granule (by decide +kernel), _, _, at_granule (by decide +kernel), rfl⟩, by decide +kernel,
    by decide +kernel, by decide +kernel⟩
theorem witness_HallmarksAndPins_pinned : ∃ t, Granules scp (xOf scp 7) [(0, 0 / 4096)] t ∧ scp.c.session ≠ 0 ∧
    ∃ k ∈ [((0 : Nat), (0 : Nat) / 4096)], pinned t k ≠ 0 ∧ pinned t k ≠ scp.c.session :=
  ⟨_, ⟨_, _, at_granule (by decide +kernel), rfl⟩, by decide +kernel, by decide +kernel⟩

/-- An engine record from bytes at offsets. -/
def recOf (l : List (Nat × Nat)) : BitVec 512 := BitVec.ofNat 512 (l.foldr (fun p n => p.2 * 2 ^ (8 * p.1) + n) 0)

/-- v8 holds a ZSTAT record, v16 zeros; m1 selects slot 0. -/
def sbt : State := withMs (withVs (sv .i32 4 4) [(8, (recOf [(0, 3), (2, 0xFFFF)]).zeroExtend 4096)]) [(1, 1)]

theorem witness_EngineIssue : InScu sbt ∧ sbt.c.vbad = [] ∧ badRecord .disp (slotRec sbt ⟨.disp, 0, 1, 2, 8⟩ 0) = none ∧
    sbt.wid / 8 = 8 ∧ ((List.range 8).filter fun i => (sbt.rm 1).getLsbD i) = [0] ∧ Drained sbt [.lq] ∧
    ¬ Drained { s1 with c := { s1.c with queues := { Queues.empty with lq := [0] } } } [.lq] ∧
    0 ≤ (sbt.c.counts[countOf .disp] - 0).toInt ∧ ¬ 0 ≤ (sbt.c.counts[countOf .disp] - 1).toInt :=
  ⟨scu_of (by decide +kernel), by decide +kernel, by decide +kernel, by decide +kernel, by decide +kernel, drained_of (by decide +kernel),
    not_drained_of (by decide +kernel), by decide +kernel, by decide +kernel⟩
theorem witness_EngineIssue_bad : (sbt.rm 1).getLsbD 0 = true ∧ badRecord .disp (slotRec sbt ⟨.disp, 0, 1, 2, 16⟩ 0) = some 1 :=
  ⟨by decide +kernel, by decide +kernel⟩

/-- The assay 4 open, nothing of it outstanding; and with a held line of it. -/
def sy4 : State := { s1 with c := { s1.c with assay := some 4 } }
def sy5 : State := { sheld with c := { sheld.c with assay := some 4, lines := [{ pa := 0x100001000, bytes := 0, sel := 1, lay := Lay.plain, assay := some 4 }] } }

theorem assayDone_of {s : State} (hc : s.allCmds s.here = []) (hl : s.c.lines = []) : AssayDone s :=
  fun _ _ => ⟨fun c h => absurd h (by simp [hc]), fun l h => absurd h (by simp [hl])⟩

theorem witness_AssaysAndRegisters : InScu sy4 ∧ sy4.c.assay = some 4 ∧ AssayDone sy4 ∧ sy4.c.assay ≠ some 3 ∧ (5 : Nat) < 16384 ∧
    (sy4.dieAt sy4.die).requests.length < 1024 ∧ 1024 ≤ (sf.dieAt sf.die).requests.length :=
  ⟨scu_of (by decide +kernel), rfl, assayDone_of (by decide +kernel) (by decide +kernel), by decide, by decide,
    by decide +kernel, by decide +kernel⟩
theorem witness_AssaysAndRegisters_waits : sy5.c.assay = some 4 ∧ ¬ AssayDone sy5 ∧ ¬ (sy5.c.assay = some 3 ∨ AssayDone sy5) := by
  have h : ¬ AssayDone sy5 := fun h => (h 4 rfl).2 _ (.head _) rfl
  exact ⟨rfl, h, fun k => k.elim (by decide) h⟩

end Sys2Proof.Machine

namespace Sys2Proof.Machine

set_option Elab.async false

/-! Engine commands. A granule of HBM of package 0, its tables below 4 GiB, is reached at every byte. -/

/-- The granule of va grants what is needed to a command, and is marked used. -/
def State.engPage (s : State) (c : Cmd) (n : Need) (va : Nat) : Bool :=
  ((s.walked c.root (va % 2 ^ 72)).all fun e => e % 8 == 0 && decide (e + 16 ≤ 2 ^ 32)) &&
  pkgOf c.ctx == 0 &&
  match s.walk (pkgOf c.ctx) c.root (va % 2 ^ 72) with
  | .error _ => false
  | .ok l => let base := l.pa / 2 ^ 16 * 2 ^ 16
    l.lay.sk != 3 && (s.leafMiss 0 c.root l base n .plain).isNone &&
    (l.w0 ||| 0x80 ||| (if n.wr then 0x100 else 0)) == l.w0 && !l.lay.raw && decide (2 ^ 32 ≤ base) &&
    decide (base + 2 ^ 16 ≤ Config.hbmBytes) && s.bad.isEmpty

theorem engAt_eq (t : State) (c : Cmd) (va : Nat) (n : Need) : (engAt c false va n).run t =
    match t.translate c.view (va % 2 ^ 72) n .plain with
    | (s1, .error (.page _ _)) => (.error 1, s1)
    | (s1, .error (.access _)) => (.error 2, s1)
    | (s1, .error (.broken _ _)) => (.error 4, s1)
    | (s1, .ok l) => if s1.pinOk (pkgOf c.ctx) c.session l.pa then (.ok l, s1) else (.error 3, s1) := by
  show (match t.translate c.view (va % 2 ^ 72) n .plain with
    | (s1, .error (.page _ _)) => _
    | (s1, .error (.access _)) => _
    | (s1, .error (.broken _ _)) => _
    | (s1, .ok l) => _ : Eng Leaf) t = _
  rcases t.translate c.view (va % 2 ^ 72) n .plain with ⟨s1, (_ | _ | _) | l⟩
  · rfl
  · rfl
  · rfl
  · show (if s1.pinOk (pkgOf c.ctx) c.session l.pa = true then (pure l : Eng Leaf) else throw 3) s1 = _
    show _ = if s1.pinOk (pkgOf c.ctx) c.session l.pa = true then (Except.ok l, s1) else (Except.error 3, s1)
    cases s1.pinOk (pkgOf c.ctx) c.session l.pa <;> rfl

theorem engAt_run {t u : State} {c : Cmd} {va : Nat} {n : Need} {l : Leaf}
    (h : t.translate c.view (va % 2 ^ 72) n .plain = (u, .ok l)) (hp : u.pinOk (pkgOf c.ctx) c.session l.pa = true) :
    (engAt c false va n).run t = (.ok l, u) := by
  rw [engAt_eq, h]
  simp only [hp, if_true]

theorem engAt_page {t u : State} {c : Cmd} {va lev r : Nat} {n : Need}
    (h : t.translate c.view (va % 2 ^ 72) n .plain = (u, .error (.page lev r))) : (engAt c false va n).run t = (.error 1, u) := by
  rw [engAt_eq, h]

theorem eng_of {s : State} {W : Nat → Prop} {c : Cmd} {n : Need} {va0 va : Nat} (h : s.engPage c n va0 = true)
    (hs : va0 % 2 ^ 72 / 2 ^ 16 = va % 2 ^ 72 / 2 ^ 16) (hW : ∀ a, W a → 2 ^ 32 ≤ a) : EngMapped s W c n va ∧ 2 ^ 32 ≤ cphys s c va := by
  simp only [State.engPage, Bool.and_eq_true, beq_iff_eq] at h
  obtain ⟨⟨h4, hk⟩, h5⟩ := h
  cases hl : s.walk (pkgOf c.ctx) c.root (va0 % 2 ^ 72) with
  | error e => rw [hl] at h5; exact absurd h5 Bool.false_ne_true
  | ok l =>
    simp only [hl, Bool.and_eq_true, bne_iff_ne, ne_eq, beq_iff_eq, Bool.not_eq_true', Option.isNone_iff_eq_none,
      decide_eq_true_eq, List.isEmpty_iff] at h5
    obtain ⟨⟨⟨⟨⟨⟨k1, k2⟩, k3⟩, k4⟩, k5⟩, k6⟩, kb⟩ := h5
    have ho : va % 2 ^ 72 % 2 ^ 16 < 2 ^ 16 := Nat.mod_lt _ (by decide)
    have hbm : l.pa / 2 ^ 16 * 2 ^ 16 % 2 ^ 16 = 0 := Nat.mul_mod_left _ _
    obtain ⟨o, hoo⟩ : ∃ o, o = va % 2 ^ 72 % 2 ^ 16 := ⟨_, rfl⟩
    obtain ⟨base, hb⟩ : ∃ b, b = l.pa / 2 ^ 16 * 2 ^ 16 := ⟨_, rfl⟩
    rw [← hoo] at ho
    rw [← hb] at hbm k2 k5 k6
    have hw : s.walk (pkgOf c.ctx) c.root (va % 2 ^ 72) = .ok { l with pa := base + o } := by
      rw [walk_page s (pkgOf c.ctx) c.root hs, hl, hb, hoo]; rfl
    obtain ⟨p1, p2, p3, p4, p5, p6⟩ := place_hbm s base o hbm ho k6
    have hc : cphys s c va = base + o := by simp only [cphys, hw, p6]
    refine ⟨fun t ⟨ht, _, _, hbt⟩ => ?_, by rw [hc]; exact Nat.le_trans k5 (Nat.le_add_right _ _)⟩
    have hwt : t.walk c.view.pkg c.view.root (va % 2 ^ 72) = s.walk c.view.pkg c.view.root (va % 2 ^ 72) :=
      walk_same hbt hW (by show ((s.walked c.root _).all _) = true; rw [walked_page s c.root hs]; exact h4)
    have hm : s.leafMiss c.view.pkg c.view.root { l with pa := base + o } (resolve c.view.ctx (base + o)) n .plain = none := by
      have hsk : (l.lay.sk == 3) = false := by simpa using k1
      have hin : inHbm base = true := by
        simp only [inHbm, decide_eq_true_eq]
        exact Nat.lt_of_le_of_lt (Nat.mod_le _ _) (by omega)
      have d0 : base / 2 ^ 46 = 0 := by
        have : Config.hbmBytes = 4 * 0x3000000000 := rfl
        omega
      have e0 : (base + o) / 2 ^ 46 = 0 := p4
      have es : s.seen 0 (base + o) = s.seen 0 base := by simp only [State.seen, e0, d0, p1]
      simp only [State.leafMiss] at k2 ⊢
      simp only [Cmd.view, hk, p6, es, p2, p3, hsk, Bool.and_false] at k2 ⊢
      exact k2
    obtain ⟨cs, key⟩ := translate_congr s t c.view (va % 2 ^ 72) n .plain _ hwt hw k1 (by rw [ht]; exact kb) (fun p pa => by rw [ht]; rfl) hm k3
    have hpin : t.pinOk (pkgOf c.ctx) c.session (base + o) = true := by
      have e : t.pinOk (pkgOf c.ctx) c.session (base + o) = s.pinOk (pkgOf c.ctx) c.session (base + o) := by rw [ht]; rfl
      rw [e]
      simp [State.pinOk, State.pinAt, p5]
    refine ⟨_, cs, engAt_run key ?_, ?_, k4⟩
    · rw [show resolve c.view.ctx (base + o) = base + o from p6 _]; exact hpin
    · exact (p6 c.view.ctx).trans hc.symm

theorem fails_of {s : State} {W : Nat → Prop} {c : Cmd} {n : Need} {va lev r : Nat}
    (h4 : ((s.walked c.root (va % 2 ^ 72)).all fun e => e % 8 == 0 && decide (e + 16 ≤ 2 ^ 32)) = true)
    (hw : s.walk (pkgOf c.ctx) c.root (va % 2 ^ 72) = .error (.page lev r)) (hb0 : s.bad = []) (hW : ∀ a, W a → 2 ^ 32 ≤ a) :
    EngFails s W c n va 1 :=
  fun t ⟨ht, _, _, hb⟩ =>
    (translate_congr_walk s t c.view (va % 2 ^ 72) n .plain _ (walk_same hb hW h4) hw (by rw [ht]; exact hb0)).imp
      fun _ h => engAt_page h

/-- One byte, wherever it lies. -/
def State.engByte (s : State) (c : Cmd) (n : Need) (va : Nat) : Bool :=
  ((s.walked c.root (va % 2 ^ 72)).all fun e => e % 8 == 0 && decide (e + 16 ≤ 2 ^ 32)) &&
  match s.walk (pkgOf c.ctx) c.root (va % 2 ^ 72) with
  | .error _ => false
  | .ok l => l.lay.sk != 3 && (s.leafMiss (pkgOf c.ctx) c.root l (resolve (some c.ctx) l.pa) n .plain).isNone &&
    (l.w0 ||| 0x80 ||| (if n.wr then 0x100 else 0)) == l.w0 && !l.lay.raw && s.bad.isEmpty &&
    s.pinOk (pkgOf c.ctx) c.session (resolve (some c.ctx) l.pa)

theorem engByte_of {s : State} {W : Nat → Prop} {c : Cmd} {n : Need} {va : Nat} (h : s.engByte c n va = true)
    (hW : ∀ a, W a → 2 ^ 32 ≤ a) : EngMapped s W c n va := fun t ⟨ht, _, _, hb⟩ => by
  simp only [State.engByte, Bool.and_eq_true] at h
  obtain ⟨h4, h5⟩ := h
  cases hl : s.walk (pkgOf c.ctx) c.root (va % 2 ^ 72) with
  | error e => rw [hl] at h5; exact absurd h5 Bool.false_ne_true
  | ok l =>
    simp only [hl, Bool.and_eq_true, bne_iff_ne, ne_eq, beq_iff_eq, Bool.not_eq_true', Option.isNone_iff_eq_none, List.isEmpty_iff] at h5
    obtain ⟨⟨⟨⟨⟨k1, k2⟩, k3⟩, k4⟩, kb⟩, k5⟩ := h5
    obtain ⟨cs, key⟩ := translate_congr s t c.view (va % 2 ^ 72) n .plain l (walk_same hb hW h4) hl k1
      (by rw [ht]; exact kb) (fun p pa => by rw [ht]; rfl) k2 k3
    refine ⟨_, cs, engAt_run key ?_, ?_, k4⟩
    · rw [ht]; exact k5
    · simp only [cphys, hl]; rfl

/-- A whole range of one granule. -/
theorem range_of {s : State} {W : Nat → Prop} {c : Cmd} {n : Need} {va len : Nat} (h : s.engPage c n va = true)
    (hr : va % 2 ^ 72 / 2 ^ 16 = (va + len) % 2 ^ 72 / 2 ^ 16 ∧ va + len < 2 ^ 72) (hW : ∀ a, W a → 2 ^ 32 ≤ a) : AllMapped s W c n va len :=
  fun j hj => (eng_of h (by omega) hW).1

theorem span_high {s : State} {c : Cmd} {n : Need} {va len : Nat} (h : s.engPage c n va = true)
    (hr : va % 2 ^ 72 / 2 ^ 16 = (va + len) % 2 ^ 72 / 2 ^ 16 ∧ va + len < 2 ^ 72) : ∀ a ∈ spanOf s c va len, 2 ^ 32 ≤ a := by
  intro a ha
  obtain ⟨j, hj, rfl⟩ := List.mem_map.mp ha
  have := List.mem_range.mp hj
  exact (eng_of (W := fun _ => False) h (by omega) fun _ h => h.elim).2

theorem engQuiet_of {s : State} (h : s.bad = [] ∧ (Memory.wf s.mem = true ∧ s.tags = [] ∧ tabWf Unencoded.none s.unencoded = true) ∧ s.c.watchctl = 0 ∧ s.ctxs = []) :
    EngQuiet s := ⟨h.1, bytesOk_nil h.2.1, h.2.2.1, fun g => by rw [h.2.2.2]; rfl⟩

/-- A command of context 0 under its tables. -/
def cmdOf (l : List (Nat × Nat)) : Cmd := { cmd0 with image := recOf l, root := 0x10000 }

/-- COPY of one row of four bytes, from 0x1000 to 0x2000; from an address that is not mapped; a FILL; HMSET of the scratchpad's first
granule, and of no granule of it. -/
def copy1 : Cmd := cmdOf [(0, 1), (2, 0xFFFF), (8, 0x1000), (17, 0x2000), (40, 4), (44, 1)]
def copy2 : Cmd := cmdOf [(0, 1), (2, 0xFFFF), (8, 0x900000000), (17, 0x2000), (40, 4), (44, 1)]
def fill1 : Cmd := cmdOf [(0, 2), (2, 0xFFFF), (8, 7), (17, 0x2000), (40, 4), (44, 1)]
def hmset1 : Cmd := cmdOf [(0, 3), (2, 0xFFFF), (17, 0x200000000), (44, 1)]
def hmset2 : Cmd := cmdOf [(0, 3), (2, 0xFFFF), (17, 0x2000), (44, 1)]
def withCcopy (c : Cmd) : State := s2.onCluster 0 fun x => { x with ccopy := [c] }

theorem oldest_one {s : State} {cls : Cls} {c : Cmd} (h : s.engine c.ctx cls = [c]) : Oldest s cls c := fun d hd _ => by
  rw [h] at hd
  rw [List.mem_singleton.mp hd]

theorem rowPlace_hbm {s : State} {c : Cmd} {r j : Nat} (h : ownGranule s c (cphys s c (dstRow c r + j)) = none) :
    rowPlace s c r j = cphys s c (dstRow c r + j) := by simp [rowPlace, h]

theorem witness_CopyEngines : (∃ p, p ∈ copyTable ∧ p.2.1 = .ccopy ∧ p.2.2.1 = (fun s u => (s.clusterAt u).ccopy) ∧ p.2.2.2 = 1) ∧
    let s := withCcopy copy1
    let W (a : Nat) : Prop := ∃ r j, r < 1 ∧ j < 4 ∧ a = rowPlace s copy1 r j
    Stands (s.clusterAt 0).ccopy 0 copy1 1 ∧ EngQuiet s ∧ CopyMay s .ccopy copy1 ∧ recN copy1.image 40 4 = 4 ∧
    recN copy1.image 44 4 = 1 ∧ (∀ j, j < 4 → EngMapped s W copy1 Need.write (dstRow copy1 0 + j) ∧
      EngMapped s W copy1 Need.read (srcRow copy1 0 + j)) := by
  refine ⟨⟨_, .head _, rfl, rfl, rfl⟩, by unfold Stands; decide +kernel, engQuiet_of (by decide +kernel),
    .inr (oldest_one (by decide +kernel)), by decide +kernel, by decide +kernel, ?_⟩
  have hg : (List.range 4).all (fun j => (ownGranule (withCcopy copy1) copy1 (cphys (withCcopy copy1) copy1 (dstRow copy1 0 + j))).isNone)
    = true := by decide +kernel
  have pd : (withCcopy copy1).engPage copy1 Need.write 0x2000 = true := by decide +kernel
  have ps : (withCcopy copy1).engPage copy1 Need.read 0x1000 = true := by decide +kernel
  have hd : dstRow copy1 0 = 0x2000 := by decide +kernel
  have hs : srcRow copy1 0 = 0x1000 := by decide +kernel
  have hW (a : Nat) : (∃ r j, r < 1 ∧ j < 4 ∧ a = rowPlace (withCcopy copy1) copy1 r j) → 2 ^ 32 ≤ a := by
    rintro ⟨r, j, hr, hj, rfl⟩
    obtain rfl : r = 0 := by omega
    rw [rowPlace_hbm (by simpa using List.all_eq_true.mp hg j (List.mem_range.mpr hj)), hd]
    exact (eng_of (W := fun _ => False) pd (by omega) fun _ h => h.elim).2
  intro j hj
  rw [hd, hs]
  exact ⟨(eng_of pd (by omega) hW).1, (eng_of ps (by omega) hW).1⟩

theorem witness_CopyEngines_fill : (∃ p, p ∈ copyTable ∧ p.2.1 = .ccopy ∧ p.2.2.2 = 2) ∧
    Stands ((withCcopy fill1).clusterAt 0).ccopy 0 fill1 2 ∧ recCmd fill1.image = 2 ∧ recN fill1.image 40 4 ≠ 0 :=
  ⟨⟨_, .tail _ (.head _), rfl, rfl⟩, by unfold Stands; decide +kernel, by decide +kernel, by decide +kernel⟩
theorem witness_CopyEngines_waits : ¬ CopyMay (s2.onCluster 0 fun x => { x with ccopy := [{ copy1 with serial := 1 }, copy1] }) .ccopy
    { copy1 with serial := 1 } := by
  rintro (⟨h, -⟩ | h)
  · cases h
  · have hm : copy1 ∈ (s2.onCluster 0 fun x => { x with ccopy := [{ copy1 with serial := 1 }, copy1] }).engine 0 .ccopy := by decide +kernel
    exact absurd (h copy1 hm rfl) (by decide)
theorem witness_CopyEngines_fails : let s := withCcopy copy2
    Stands (s.clusterAt 0).ccopy 0 copy2 1 ∧ EngQuiet s ∧ CopyMay s .ccopy copy2 ∧ recCmd copy2.image = 1 ∧
    ∀ W : Nat → Prop, (∀ a, W a → 2 ^ 32 ≤ a) → EngFails s W copy2 Need.read (srcRow copy2 0) 1 :=
  ⟨by unfold Stands; decide +kernel, engQuiet_of (by decide +kernel), .inr (oldest_one (by decide +kernel)), by decide +kernel,
    fun W hW => fails_of (lev := 2) (r := 0) (by decide +kernel) (by decide +kernel) (by decide +kernel) hW⟩

/-- HMSET: its granule is reached through the scratchpad window; in HBM there is none. -/
theorem witness_CopyEngines_marks : (∃ p, p ∈ hmsetTable ∧ p.2.1 = .ccopy) ∧ let s := withCcopy hmset2
    Stands (s.clusterAt 0).ccopy 0 hmset2 3 ∧ CopyMay s .ccopy hmset2 ∧ BytesOk s ∧ (∀ g, (tabGet Ctx.reset s.ctxs g).watchctl = 0) ∧
    recN hmset2.image 44 4 = 1 ∧ recN hmset2.image 17 9 = 0x2000 ∧ EngMapped s (fun _ => False) hmset2 Need.write 0x2000 ∧
    ownGranule s hmset2 (cphys s hmset2 0x2000) = none ∧ recN hmset1.image 44 4 = 1 ∧
    EngMapped s (fun _ => False) hmset1 Need.write (recN hmset1.image 17 9) ∧
    ownGranule s hmset1 (cphys s hmset1 (recN hmset1.image 17 9)) = some 0 :=
  ⟨⟨_, .head _, rfl⟩, by unfold Stands; decide +kernel, .inr (oldest_one (by decide +kernel)), bytesOk_nil (by decide +kernel),
    (engQuiet_of (by decide +kernel)).2.2.2, by decide +kernel, by decide +kernel,
    (eng_of (va0 := 0x2000) (by decide +kernel) rfl fun _ h => h.elim).1, by decide +kernel, by decide +kernel,
    engByte_of (by decide +kernel) fun _ h => h.elim, by decide +kernel⟩

end Sys2Proof.Machine

namespace Sys2Proof.Machine

set_option Elab.async false

/-! The encoders and the completion of commands. -/

/-- OPEN and FRAME of a stream of 16 by 16 samples: the area at 0x10000, the samples at 0x20000, the output at 0x30000. -/
def enc1 : Cmd := cmdOf [(0, 1), (2, 0xFFFF), (13, 24), (17, 0x10000), (56, 16), (58, 16)]
def enc2 : Cmd := cmdOf [(0, 2), (2, 0xFFFF), (8, 0x20000), (17, 0x10000), (36, 64), (40, 0x30000), (52, 16), (56, 16), (58, 16)]
def withEnc (c : Cmd) (down : Fin 4) : State := s2.onDie 0 fun x => { x with enc := [c], encDown := down }

theorem encMay_of {s : State} {c : Cmd} (h : s.engine c.ctx .enc = [c]) : EncMay s c := fun d hd hlt => by
  rw [h] at hd
  rw [List.mem_singleton.mp hd] at hlt
  exact absurd hlt (Nat.lt_irrefl _)

theorem witness_Encoders_open : let s := withEnc enc1 0
    let area := areaLen enc1.image
    let W (a : Nat) : Prop := a ∈ spanOf s enc1 (recN enc1.image 17 9) area ∨ a ∈ spanOf s enc1 (recN enc1.image 40 9) (recN enc1.image 36 4)
    EngQuiet s ∧ EncMay s enc1 ∧ dieOf enc1.ctx = 0 ∧ recN enc1.image 26 9 = 0 ∧ Stands (s.dieAt 0).enc 0 enc1 1 ∧
    (s.dieAt 0).encDown ≠ 3 ∧ AllMapped s W enc1 Need.write (recN enc1.image 17 9) area := by
  have ha : areaLen enc1.image = 8192 := by decide +kernel
  have h17 : recN enc1.image 17 9 = 0x10000 := by decide +kernel
  have h36 : recN enc1.image 36 4 = 0 := by decide +kernel
  have hp : (withEnc enc1 0).engPage enc1 Need.write 0x10000 = true := by decide +kernel
  simp only [ha, h17, h36]
  refine ⟨engQuiet_of (by decide +kernel), encMay_of (by decide +kernel), by decide +kernel, by decide +kernel,
    by unfold Stands; decide +kernel, by decide +kernel, range_of hp (by omega) fun a h => h.elim (span_high hp (by omega) a) fun h => ?_⟩
  simp [spanOf] at h

/-! A stream area: its bytes are the parameters combined with a mask that no one knows (log 52). -/

def putMem : List Byte → Nat → Tab Byte → Tab Byte
  | [], _, m => m
  | b :: t, a, m => putMem t (a + 1) (tabSet 0 m a b)

theorem putMem_wf : ∀ (bs : List Byte) (a : Nat) (m : Tab Byte), tabWf 0 m = true → tabWf 0 (putMem bs a m) = true
  | [], _, _, h => h
  | _ :: t, a, _, h => putMem_wf t (a + 1) _ (tabWf_set h)

theorem putMem_get : ∀ (bs : List Byte) (a : Nat) (m : Tab Byte), tabWf 0 m = true → ∀ j,
    tabGet 0 (putMem bs a m) j = if a ≤ j ∧ j < a + bs.length then bs.getD (j - a) 0 else tabGet 0 m j
  | [], a, _, _, j => by rw [if_neg (by simp only [List.length_nil]; omega)]; rfl
  | b :: t, a, m, h, j => by
    rw [putMem, putMem_get t (a + 1) _ (tabWf_set h), tabGet_set _ _ _ _ _ h]
    simp only [List.length_cons]
    by_cases h1 : j = a
    · subst h1
      rw [if_neg (by omega), if_pos rfl, if_pos (by omega), Nat.sub_self]
      rfl
    · by_cases h2 : a + 1 ≤ j ∧ j < a + 1 + t.length
      · rw [if_pos h2, if_pos (by omega), show j - a = j - (a + 1) + 1 by omega, List.getD_cons_succ]
      · rw [if_neg h2, if_neg h1, if_neg (by omega)]

theorem byteAt_raw {s : State} (h : s.tags = []) (a : Nat) : byteAt s a = tabGet 0 s.mem a := by
  have e : 128 * (a / 128) + a % 128 = a := Nat.div_add_mod a 128
  unfold byteAt
  rw [bytesAt_one]
  split <;> simp [State.normalPart, State.tagOf, h, e, State.rawBytes]

theorem maskBytes_twice (bs : List Byte) : maskBytes (maskBytes bs) = bs := by
  apply List.ext_getElem <;> simp [maskBytes]

/-- Other bytes in memory. -/
def withMem (s : State) (m : Tab Byte) : State := { s with mem := m }

theorem withMem_same {s : State} {W : Nat → Prop} (bs : List Byte) (pa : Nat)
    (h : EngQuiet s ∧ tabWf 0 s.mem = true ∧ s.tags = []) (hW : ∀ a, pa ≤ a → a < pa + bs.length → W a) :
    EngSame s (withMem s (putMem bs pa s.mem)) W := by
  refine ⟨rfl, h.1.2.2.2, ⟨putMem_wf _ _ _ h.2.1, h.1.2.1.2.1, h.1.2.1.2.2⟩, fun a ha => ?_⟩
  rw [byteAt_raw (s := withMem s (putMem bs pa s.mem)) h.2.2, byteAt_raw h.2.2]
  show tabGet 0 (putMem _ _ _) a = _
  rw [putMem_get _ _ _ h.2.1, if_neg fun k => ha (hW a k.1 k.2)]

theorem withMem_byteAt {s : State} {bs : List Byte} {pa j : Nat} (h : tabWf 0 s.mem = true ∧ s.tags = []) (hj : j < bs.length) :
    byteAt (withMem s (putMem bs pa s.mem)) (pa + j) = bs[j] := by
  rw [byteAt_raw (s := withMem s (putMem bs pa s.mem)) h.2]
  show tabGet 0 (putMem _ _ _) _ = _
  rw [putMem_get _ _ _ h.1, if_pos (by omega), Nat.add_sub_cancel_left, List.getD_eq_getElem _ _ hj]

theorem withMem_quiet {s : State} (m : Tab Byte) (h : EngQuiet s) (hm : tabWf 0 m = true) : EngQuiet (withMem s m) :=
  ⟨h.1, ⟨hm, h.2.1.2.1, h.2.1.2.2⟩, h.2.2.1, h.2.2.2⟩
theorem withMem_dieAt (s : State) (m : Tab Byte) (d : Nat) : (withMem s m).dieAt d = s.dieAt d := rfl
theorem withMem_engine (s : State) (m : Tab Byte) (g : Nat) (cls : Cls) : (withMem s m).engine g cls = s.engine g cls := rfl

/-- The areas of enc2 hold stream p. -/
def encArea (p : Stream) : State := withMem (withEnc enc2 0) (putMem (maskBytes p.bytes) 0x100010000 (withEnc enc2 0).mem)
def streamA (width : Nat) : Stream := ⟨0, 24, 0, 0, width, 16, false, 0⟩

theorem withEnc_quiet : EngQuiet (withEnc enc2 0) ∧ tabWf 0 (withEnc enc2 0).mem = true ∧ (withEnc enc2 0).tags = [] :=
  ⟨engQuiet_of (by decide +kernel), by decide +kernel, by decide +kernel⟩

theorem cphys_in {s u : State} {W : Nat → Prop} {c : Cmd} {n : Need} {va0 va : Nat} (hu : EngSame s u W) (h : s.engPage c n va0 = true)
    (hs : va0 % 2 ^ 72 / 2 ^ 16 = va % 2 ^ 72 / 2 ^ 16) (hW : ∀ a, W a → 2 ^ 32 ≤ a) : cphys u c va = cphys s c va := by
  simp only [State.engPage, Bool.and_eq_true] at h
  simp only [cphys]
  rw [walk_same hu.2.2.2 hW (by rw [walked_page s c.root hs]; exact h.1.1)]

theorem mapped_in {s u : State} {W : Nat → Prop} {c : Cmd} {n : Need} {va0 va : Nat} (hu : EngSame s u W) (h : s.engPage c n va0 = true)
    (hs : va0 % 2 ^ 72 / 2 ^ 16 = va % 2 ^ 72 / 2 ^ 16) (hW : ∀ a, W a → 2 ^ 32 ≤ a) : EngMapped u W c n va := fun t ht => by
  have e : t = { s with ctxs := t.ctxs, mem := t.mem, tags := t.tags, unencoded := t.unencoded, chans := t.chans, assay := t.assay, fresh := t.fresh } :=
    ht.1.trans (by rw [hu.1])
  obtain ⟨l, cs, h1, h2, h3⟩ := (eng_of h hs hW).1 t ⟨e, ht.2.1, ht.2.2.1, fun a ha => (ht.2.2.2 a ha).trans (hu.2.2.2 a ha)⟩
  exact ⟨l, cs, h1, h2.trans (cphys_in hu h hs hW).symm, h3⟩

theorem span_in {s u : State} {W : Nat → Prop} {c : Cmd} {n : Need} {va len : Nat} (hu : EngSame s u W) (h : s.engPage c n va = true)
    (hr : va % 2 ^ 72 / 2 ^ 16 = (va + len) % 2 ^ 72 / 2 ^ 16 ∧ va + len < 2 ^ 72) (hW : ∀ a, W a → 2 ^ 32 ≤ a) :
    spanOf u c va len = spanOf s c va len :=
  List.map_congr_left fun j hj => by
    have := List.mem_range.mp hj
    exact cphys_in hu h (by omega) hW

/-- What FRAME reads of its stream: the parameters that its area holds. -/
theorem encArea_read (w : Nat) (hw : w = 16 ∨ w = 32) :
    Stream.read ((spanOf (encArea (streamA w)) enc2 0x10000 8192).map (byteAt (encArea (streamA w)))) = some (streamA w) := by
  have hb : (maskBytes (streamA w).bytes).length = 26 := by rcases hw with rfl | rfl <;> simp [maskBytes] <;> decide
  have hp : (withEnc enc2 0).engPage enc2 Need.both 0x10000 = true := by decide +kernel
  have hu := withMem_same (W := fun a => 2 ^ 32 ≤ a) (maskBytes (streamA w).bytes) 0x100010000 withEnc_quiet fun a h _ => by omega
  have hc : ((List.range 26).map fun j => cphys (withEnc enc2 0) enc2 (0x10000 + j)) = (List.range 26).map (0x100010000 + ·) := by
    decide +kernel
  have hs : spanOf (encArea (streamA w)) enc2 0x10000 8192 = spanOf (withEnc enc2 0) enc2 0x10000 8192 :=
    span_in hu hp (by omega) fun _ h => h
  have ht : (((spanOf (encArea (streamA w)) enc2 0x10000 8192).map (byteAt (encArea (streamA w)))).take 26) =
      maskBytes (streamA w).bytes := by
    rw [hs, ← List.map_take, spanOf, ← List.map_take, List.take_range, Nat.min_eq_left (by decide), hc, List.map_map]
    apply List.ext_getElem
    · simp [hb]
    · intro i h1 h2
      simp only [List.getElem_map, List.getElem_range, Function.comp]
      exact withMem_byteAt withEnc_quiet.2 h2
  have e (l : List Byte) : Stream.read l = Stream.read (l.take 26) := by
    simp only [Stream.read, streamBytes, List.take_take, Nat.min_self]
    rfl
  rw [e, ht]
  simp only [Stream.read, streamBytes, List.take_of_length_le (Nat.le_of_eq hb), maskBytes_twice]
  rcases hw with rfl | rfl <;> decide +kernel

theorem witness_Encoders_frame : let s := encArea (streamA 16)
    let r := enc2.image
    let W (a : Nat) : Prop := a ∈ spanOf s enc2 (recN r 17 9) (areaLen r) ∨ a ∈ spanOf s enc2 (recN r 40 9) (recN r 36 4)
    EngQuiet s ∧ EncMay s enc2 ∧ recN r 26 9 = 0 ∧ Stands (s.dieAt 0).enc 0 enc2 2 ∧ (s.dieAt 0).encDown ≠ 3 ∧ recN r 56 2 = 16 ∧
    recN r 58 2 = 16 ∧ recN r 52 4 = 16 ∧ recN r 60 1 = 0 ∧ recN r 8 9 = 0x20000 ∧
    AllMapped s W enc2 Need.both (recN r 17 9) (areaLen r) ∧ (∀ k, k < 16 → AllMapped s W enc2 Need.read (0x20000 + k * 16) 16) ∧
    (∀ k, k < 8 → AllMapped s W enc2 Need.read (0x20100 + k * 16) 16) ∧ AllMapped s W enc2 Need.write (recN r 40 9) (recN r 36 4) ∧
    Stream.read ((spanOf s enc2 (recN r 17 9) (areaLen r)).map (byteAt s)) = some (streamA 16) ∧ Fits (streamA 16) r ∧
    IsKey (streamA 16) r := by
  have ha : areaLen enc2.image = 8192 := by decide +kernel
  have h17 : recN enc2.image 17 9 = 0x10000 := by decide +kernel
  have h36 : recN enc2.image 36 4 = 64 := by decide +kernel
  have h40 : recN enc2.image 40 9 = 0x30000 := by decide +kernel
  have hp : (withEnc enc2 0).engPage enc2 Need.both 0x10000 = true := by decide +kernel
  have hr : (withEnc enc2 0).engPage enc2 Need.read 0x20000 = true := by decide +kernel
  have hw : (withEnc enc2 0).engPage enc2 Need.write 0x30000 = true := by decide +kernel
  have hb : (maskBytes (streamA 16).bytes).length = 26 := by simp [maskBytes]; decide
  have high := withMem_same (W := fun a => 2 ^ 32 ≤ a) (maskBytes (streamA 16).bytes) 0x100010000 withEnc_quiet fun a h _ => by omega
  have s1 : spanOf (encArea (streamA 16)) enc2 0x10000 8192 = spanOf (withEnc enc2 0) enc2 0x10000 8192 :=
    span_in high hp (by omega) fun _ h => h
  have s2 : spanOf (encArea (streamA 16)) enc2 0x30000 64 = spanOf (withEnc enc2 0) enc2 0x30000 64 :=
    span_in high hw (by omega) fun _ h => h
  have hc : ((List.range 26).all fun j => cphys (withEnc enc2 0) enc2 (0x10000 + j) == 0x100010000 + j) = true := by decide +kernel
  simp only [ha, h17, h36, h40, s1, s2]
  have hu := withMem_same (maskBytes (streamA 16).bytes) 0x100010000 withEnc_quiet
    (W := fun a => a ∈ spanOf (withEnc enc2 0) enc2 0x10000 8192 ∨ a ∈ spanOf (withEnc enc2 0) enc2 0x30000 64) fun a h1 h2 => by
      refine .inl (List.mem_map.mpr ⟨a - 0x100010000, List.mem_range.mpr (by omega), ?_⟩)
      have := List.all_eq_true.mp hc (a - 0x100010000) (List.mem_range.mpr (by omega))
      simp only [beq_iff_eq] at this
      omega
  have hW (a : Nat) (h : a ∈ spanOf (withEnc enc2 0) enc2 0x10000 8192 ∨ a ∈ spanOf (withEnc enc2 0) enc2 0x30000 64) : 2 ^ 32 ≤ a :=
    h.elim (span_high hp (by omega) a) (span_high hw (by omega) a)
  refine ⟨withMem_quiet _ withEnc_quiet.1 (putMem_wf _ _ _ withEnc_quiet.2.1),
    encMay_of (by rw [encArea, withMem_engine]; decide +kernel), by decide +kernel, ?_, ?_, by decide +kernel,
    by decide +kernel, by decide +kernel, by decide +kernel, by decide +kernel, fun j hj => mapped_in hu hp (by omega) hW,
    fun k hk j hj => mapped_in hu hr (by omega) hW, fun k hk j hj => mapped_in hu hr (by omega) hW,
    fun j hj => mapped_in hu hw (by omega) hW, by rw [← s1]; exact encArea_read 16 (.inl rfl), ?_, .inl rfl⟩
  · rw [encArea, withMem_dieAt]
    unfold Stands
    decide +kernel
  · rw [encArea, withMem_dieAt]
    decide +kernel
  · exact ⟨by decide +kernel, by decide +kernel, by decide +kernel⟩

/-- An area of a stream of another width; whatever the bitstream, it fits its output or does not. -/
theorem witness_Encoders_other : ∀ p, Stream.read
    ((spanOf (encArea (streamA 32)) enc2 0x10000 8192).map (byteAt (encArea (streamA 32)))) = some p → ¬ Fits p enc2.image := by
  intro p h
  rw [encArea_read 32 (.inr rfl)] at h
  obtain rfl := (Option.some.inj h).symm
  exact fun hf => absurd hf.1 (by decide +kernel)
theorem witness_Encoders_area : StreamOk (streamA 16) ∧ 26 ≤ 8192 ∧ ([] : List Byte).length < 2 ^ 56 :=
  ⟨by unfold StreamOk; decide, by decide, by decide⟩
theorem witness_Encoders_down : ((withEnc enc1 3).dieAt 0).encDown = 3 ∧ ((withEnc enc2 3).dieAt 0).encDown = 3 ∧
    Stands ((withEnc enc1 3).dieAt 0).enc 0 enc1 1 ∧ Stands ((withEnc enc2 3).dieAt 0).enc 0 enc2 2 :=
  ⟨by decide +kernel, by decide +kernel, by unfold Stands; decide +kernel, by unfold Stands; decide +kernel⟩

/-- A frame goes to the second encoder while the OPEN of its stream waits at the first; once that has begun, it may run. -/
def enc3 : Cmd := { enc2 with serial := 1, second := true }
def withTwo (begun : Bool) : State := s2.onDie 0 fun x => { x with enc := [{ enc1 with started := begun }, enc3], encDown := 1 }
theorem withTwo_enc (begun : Bool) : (withTwo begun).engine enc3.ctx .enc = [{ enc1 with started := begun }, enc3] := by
  cases begun <;> decide +kernel
theorem witness_Encoders_waits : ¬ EncMay (withTwo false) enc3 ∧ Stands ((withTwo false).dieAt 0).enc 1 enc3 2 ∧
    EncMay (withTwo true) enc3 := by
  refine ⟨fun h => ?_, by unfold Stands; decide +kernel, fun d hd hlt => ?_⟩
  · have := (h { enc1 with started := false } (by rw [withTwo_enc]; exact .head _) (by decide)).2 (.inl rfl)
    cases this
  · rw [withTwo_enc] at hd
    rcases List.mem_cons.mp hd with rfl | hd
    · exact ⟨by decide, fun _ => rfl⟩
    · rw [List.mem_singleton.mp hd] at hlt
      exact absurd hlt (Nat.lt_irrefl _)

/-- A copy that ended, its status word nowhere, at 0x4000, and at an address that is not mapped. -/
def done (sta : Nat) : Cmd := { cmdOf [(0, 1), (2, 5), (26, sta)] with started := true, result := some ⟨1, []⟩ }

theorem witness_EngineCompletions : (∃ p, p ∈ completionTable ∧ p.2.1 = .ccopy ∧ p.2.2.2 = fun r => recN r 26 9) ∧
    ((withCcopy (done 0)).clusterAt 0).ccopy[0]? = some (done 0) ∧ (done 0).result = some ⟨1, []⟩ ∧ copy1.result = none ∧
    recN (done 0).image 26 9 = 0 ∧ EngQuiet (withCcopy (done 0)) ∧ StaKnown (withCcopy (done 0)) (done 0) 0 :=
  ⟨⟨_, .head _, rfl, rfl⟩, by decide +kernel, rfl, rfl, by decide +kernel, engQuiet_of (by decide +kernel), .inl rfl⟩
theorem witness_EngineCompletions_status : let s := withCcopy (done 0x4000)
    recN (done 0x4000).image 26 9 = 0x4000 ∧ StaKnown s (done 0x4000) 0x4000 ∧
    AllMapped s (· ∈ spanOf s (done 0x4000) 0x4000 8) (done 0x4000) Need.write 0x4000 8 := by
  have hp : (withCcopy (done 0x4000)).engPage (done 0x4000) Need.write 0x4000 = true := by decide +kernel
  have h : AllMapped (withCcopy (done 0x4000)) (· ∈ spanOf (withCcopy (done 0x4000)) (done 0x4000) 0x4000 8) (done 0x4000) Need.write
      0x4000 8 := range_of hp (by omega) (span_high hp (by omega))
  exact ⟨by decide +kernel, .inr (.inl h), h⟩
theorem witness_EngineCompletions_lost : ∃ code, EngFails (withCcopy (done 0x900000000)) (fun _ => False) (done 0x900000000) Need.write
    0x900000000 code :=
  ⟨1, fails_of (lev := 2) (r := 0) (by decide +kernel) (by decide +kernel) (by decide +kernel) fun _ h => h.elim⟩

end Sys2Proof.Machine

namespace Sys2Proof.Machine

set_option Elab.async false

/-! Seam commands, collectives, expert dispatch. -/

/-- s2 with HBM for seam commands at 24 GiB. -/
def s3 : State := s2.putBytes none Lay.plain 0x40060 (tableEntry 0x100000000 0x1BF)

/-- What a check of a seam line leaves and answers. -/
theorem line_eq {α : Type} {r : Except Nat α × State} {s : State} (h : r.2 = s) : r = (r.1, s) := by
  obtain ⟨_, _⟩ := r
  cases h
  rfl

/-- SFILL of one FP32 element, at 24 GiB and where no seam access is granted. -/
def fillAt (va : Nat) : Cmd := cmdOf [(0, 6), (2, 0xFFFF), (8, va), (35, 10), (36, 1), (40, 7)]
def withSeam (c : Cmd) : State := s3.onDie 0 fun x => { x with seam := [c] }
/-- The checks a state makes. -/
def chkOf (s : State) (c : Cmd) : SeamCheck := fun i k => match (seamOperands c.image)[k]? with
  | some p => ((seamLine c (p.1 + i * elemBytes c.image) p.2).run s).1
  | none => .error 0

theorem checked_of {s : State} {c : Cmd} (hn : recN c.image 36 3 = 1) (h0 : recN c.image 61 3 = 0)
    (h : ∀ p ∈ seamOperands c.image, ((seamLine c p.1 p.2).run s).2 = s) :
    SeamChecked s c (chkOf s c) := by
  intro i _ hi k p hk
  have hi0 : i = 0 := by omega
  subst hi0
  simp only [chkOf, hk, Nat.zero_mul, Nat.add_zero]
  exact line_eq (h p (List.mem_of_getElem? hk))

theorem witness_SeamCommands : (∃ p, p ∈ seamRows ∧ p.2 = 6) ∧ let s := withSeam (fillAt 0x600001000)
    Stands (s.dieAt 0).seam 0 (fillAt 0x600001000) 6 ∧
    (∀ d ∈ s.engine 0 .seam, d.ctx = 0 → d.serial < (fillAt 0x600001000).serial → d.started = true) ∧
    SeamChecked s (fillAt 0x600001000) (chkOf s (fillAt 0x600001000)) ∧
    (selectedOf (fillAt 0x600001000).image (chkOf s (fillAt 0x600001000))).find? (fun i =>
      decide (codesOf (fillAt 0x600001000).image (chkOf s (fillAt 0x600001000)) i ≠ [])) = none :=
  ⟨⟨_, .tail _ (.tail _ (.tail _ (.tail _ (.tail _ (.head _))))), rfl⟩, by unfold Stands; decide +kernel,
    fun d _ _ h => absurd h (Nat.not_lt_zero _), checked_of (by decide +kernel) (by decide +kernel) (by decide +kernel), by decide +kernel⟩
theorem witness_SeamCommands_code : let s := withSeam (fillAt 0x1000)
    SeamChecked s (fillAt 0x1000) (chkOf s (fillAt 0x1000)) ∧
    (selectedOf (fillAt 0x1000).image (chkOf s (fillAt 0x1000))).find? (fun i =>
      decide (codesOf (fillAt 0x1000).image (chkOf s (fillAt 0x1000)) i ≠ [])) = some 0 :=
  ⟨checked_of (by decide +kernel) (by decide +kernel) (by decide +kernel), by decide +kernel⟩

/-- A micro-command of that SFILL at bank 0; and a task whose log names the bank already. -/
def micro0 : Micro := ⟨0, [(0, [(0x100001000, Lay.plain)])]⟩
def smc (banks : List Nat) : State :=
  ({ s3 with c := { s3.c with task := some task0, seam := { SeamLog.clear with banks := banks } } } : State).onDie 0 fun x =>
    { x with seam := [{ fillAt 0x600001000 with started := true, micro := 1 }], micro := [(0, [micro0])] }

theorem microOk_one {s : State} {r : BitVec 512} {e : Nat × List (Nat × Lay)} (hl : e.2.length = (seamOperands r).length)
    (h : ∀ o ∈ e.2, inHbm o.1 = true ∧ o.1 % elemBytes r = 0 ∧ o.2.raw = false ∧ o.2.cz = false ∧ s.tagOf (o.1 / 128) = 0)
    (hc : recCmd r ≠ 5) : MicroOk s r [e] := by
  refine ⟨fun f hf => ?_, fun i f g hf hg => ?_, fun i j f g hf hg hij => ?_⟩
  · rw [List.mem_singleton.mp hf]; exact ⟨hl, h, fun k => absurd k hc⟩
  · simp at hg
  · have hi : i = 0 := by by_contra hi; simp [hi] at hf
    have hj : j = 0 := by by_contra hj; simp [hj] at hg
    exact absurd (hi.trans hj.symm) hij

theorem witness_SeamCommands_micro : tabGet [] ((smc []).dieAt 0).micro 0 = micro0 :: [] ∧
    ((smc []).onDie 0 fun x => { x with micro := tabSet [] x.micro 0 [] }).seamBySerial 0 0 =
      some { fillAt 0x600001000 with started := true, micro := 1 } ∧
    (0 : Nat) ∉ (((smc []).onDie 0 fun x => { x with micro := tabSet [] x.micro 0 [] }).seamLog (fillAt 0x600001000)).banks ∧
    EngQuiet (smc []) ∧ badRecord .seam (fillAt 0x600001000).image = none ∧ MicroOk (smc []) (fillAt 0x600001000).image micro0.elems ∧
    (0 : Nat) ∈ (((smc [0]).onDie 0 fun x => { x with micro := tabSet [] x.micro 0 [] }).seamLog (fillAt 0x600001000)).banks :=
  ⟨by decide +kernel, by decide +kernel, by decide +kernel, engQuiet_of (by decide +kernel), by decide +kernel,
    microOk_one (by decide +kernel) (by decide +kernel) (by decide +kernel), by decide +kernel⟩

/-- smc with an uncorrectable error in the one burst of its micro-command. -/
def smcBad : State := { smc [] with bad := [(0x100001000, { Bad.clean with left := none })] }
theorem witness_SeamCommands_error : EngQuiet { smcBad with bad := [] } ∧
    ErrorAt smcBad (fillAt 0x600001000).image micro0.elems 0 (0, [(0x100001000, Lay.plain)]) 0 :=
  ⟨engQuiet_of (by decide +kernel), rfl, by decide, fun i _ _ h => absurd h (by omega), by decide +kernel,
    fun j _ h => absurd h (Nat.not_lt_zero j)⟩

/-! A collective of two ranks over dies 0 and 1, its table at 0x5000; rank 0 is issued here. -/

def rank (r n table src dst : Nat) : Cmd :=
  cmdOf [(0, 1), (2, 0xFFFF), (8, src), (17, dst), (26, table), (44, 10), (46, r), (47, n), (48, 9), (56, 1)]
def tables : State := (s2.putBytes none Lay.plain 0x100005001 [1]).putBytes none Lay.plain 0x100005010 [1]
def coll (c : Cmd) : State := tables.onDie 0 fun x => { x with coll := [c] }

/-- What the check of a rank answers. -/
def foundIn {α : Type} (d : Nat → α) : Except Nat α → α
  | .ok p => p
  | .error code => d code
def passes {α : Type} : Except Nat α → Bool
  | .ok _ => true
  | .error _ => false
def found (c : Cmd) : List Nat × List Piece × List Piece × Nat := foundIn (([], [], [], ·)) ((collCheck c).run (coll c)).1

theorem foundIn_eq {α : Type} {d : Nat → α} {r : Except Nat α × State} {s : State} (h : passes r.1 = true) (hs : r.2 = s) :
    r = (.ok (foundIn d r.1), s) := by
  obtain ⟨e | p, t⟩ := r
  · cases h
  · cases hs; rfl

theorem found_of {c : Cmd} (h : passes ((collCheck c).run (coll c)).1 = true) (hs : ((collCheck c).run (coll c)).2 = coll c) :
    (collCheck c).run (coll c) = (.ok (found c), coll c) := foundIn_eq h hs

theorem witness_Collectives_alone : (∃ p, p ∈ collRows ∧ p.2 = 1) ∧ let c := rank 0 0 0x5000 0x6000 0x6100
    let s := coll c
    Stands (s.dieAt 0).coll 0 c 1 ∧ dieOf c.ctx = 0 ∧ (collCheck c).run s = (.ok (found c), s) ∧ (found c).1 = [0] ∧
    (found c).2.2.2 = 0 ∧ tagsOfColl c ∉ (s.dieAt 0).cancels ∧ s.collAt 0 9 0 = [] ∧
    let c1 : Cmd := { c with started := true, table := (found c).1, src := (found c).2.1, dst := (found c).2.2.1 }
    (s.setCmd .coll c1).collAt 0 9 0 = [c1] ∧ EngQuiet s ∧
    (∀ q ∈ c1.src ++ c1.dst, q.2.1.raw = false ∧ inHbm q.1 = true ∧ inHbm (q.1 + q.2.2) = true) ∧
    (c1.src.map (·.2.2)).sum = collSrcBytes c1.image ∧ (c1.dst.map (·.2.2)).sum = collDstBytes c1.image :=
  ⟨⟨_, .head _, rfl⟩, by unfold Stands; decide +kernel, by decide, found_of (by decide +kernel) (by decide +kernel), by decide +kernel,
    by decide +kernel, by decide +kernel, by decide +kernel, by decide +kernel, engQuiet_of (by decide +kernel), by decide +kernel,
    by decide +kernel, by decide +kernel⟩
/-- The commands' dies, each once, and no command elsewhere. -/
theorem collAt_none {s : State} {g q : BitVec 32} {ds : List Nat} (h : (s.dies.map (·.1)).all (ds.contains ·) = true) (d : Nat)
    (hd : d ∉ ds) : s.collAt d g q = [] := by
  have hn : d ∉ s.dies.map (·.1) := fun hm => hd (by simpa using List.all_eq_true.mp h d hm)
  have get : ∀ t : Tab Die, d ∉ t.map (·.1) → tabGet Die.reset t d = Die.reset := by
    intro t
    induction t with
    | nil => exact fun _ => rfl
    | cons e t ih =>
      intro h
      simp only [List.map_cons, List.mem_cons, not_or] at h
      simp [tabGet, ih h.2, h.1]
  unfold State.collAt
  rw [show s.dieAt d = Die.reset from get _ hn]
  rfl
theorem witness_Collectives_dies : let c := rank 0 0 0x5000 0x6000 0x6100
    let s := (coll c).setCmd .coll c
    (s.dies.map (·.1)).Nodup ∧ ∀ d, (∀ k, k < 1 → d ≠ dieOfRank [0] k) → s.collAt d 9 0 = [] := by
  refine ⟨by decide +kernel, fun d hd => collAt_none (ds := [0]) (by decide +kernel) d ?_⟩
  have : d ≠ 0 := hd 0 (by decide)
  simpa using this
/-- Rank 1 of another length stands at die 1 already. -/
theorem witness_Collectives_differ : let c := rank 0 1 0x5000 0x6000 0x6100
    let e : Cmd := { rank 1 1 0x5010 0x6000 0x6100 with ctx := 512, image := (rank 1 1 0x5010 0x6000 0x6100).image + 2 ^ 448,
                                                        started := true, table := [1, 0] }
    let s := (coll c).onDie 1 fun x => { x with coll := [e] }
    let c1 : Cmd := { c with started := true, table := [0, 1] }
    tagsOfColl c = (9, 0) ∧ s.collAt 0 9 0 = [] ∧ zerosOf (s.setCmd .coll c1) c1 = [] ++ c1 :: [e] ∧ e ∈ peersOf (s.setCmd .coll c1) c1 ∧
    sameCollective e c1 = false :=
  ⟨by decide +kernel, by decide +kernel, by decide +kernel, by decide +kernel, by decide +kernel⟩
/-- Two commands of RANK 1, each named rank 0 by the other's table. -/
theorem witness_Collectives_crossed : let c := rank 1 1 0x5010 0x6000 0x6100
    let e : Cmd := { rank 1 1 0x5000 0x6000 0x6100 with ctx := 512, started := true, table := [0, 1] }
    let s := (coll c).onDie 1 fun x => { x with coll := [e] }
    let c1 : Cmd := { c with started := true, table := [1, 0] }
    zerosOf (s.setCmd .coll c1) c1 = [] ++ c1 :: [e] ∧ e ∈ peersOf (s.setCmd .coll c1) c1 ∧ sameCollective e c1 = false :=
  ⟨by decide +kernel, by decide +kernel, by decide +kernel⟩
/-- Rank 1 finds no rank 0. -/
theorem witness_Collectives_noRoot : let c := rank 1 1 0x5010 0x6000 0x6100
    let c1 : Cmd := { c with started := true, table := [1, 0] }
    (coll c).collAt 0 9 0 = [] ∧ zerosOf ((coll c).setCmd .coll c1) c1 = [] := ⟨by decide +kernel, by decide +kernel⟩
theorem witness_Collectives_waits : let c := rank 0 1 0x5000 0x6000 0x6100
    let s := coll c
    (collCheck c).run s = (.ok (found c), s) ∧ (found c).1 = [0, 1] ∧ (found c).2.2.2 = 0 ∧
    ((List.range 2).map (dieOfRank [0, 1])).Nodup ∧
    let c1 : Cmd := { c with started := true, table := (found c).1, src := (found c).2.1, dst := (found c).2.2.1 }
    (s.setCmd .coll c1).collAt 0 9 0 = [c1] ∧ (s.setCmd .coll c1).collAt 1 9 0 = [] :=
  ⟨found_of (by decide +kernel) (by decide +kernel), by decide +kernel, by decide +kernel, by decide, by decide +kernel, by decide +kernel⟩
theorem witness_Collectives_later : let c := rank 1 1 0x5010 0x6000 0x6100
    let s := coll c
    (collCheck c).run s = (.ok (found c), s) ∧ (found c).1 = [1, 0] ∧ (found c).2.2.2 = 0 ∧ s.collAt (dieOfRank [1, 0] 0) 9 0 = [] :=
  ⟨found_of (by decide +kernel) (by decide +kernel), by decide +kernel, by decide +kernel, by decide +kernel⟩

/-! What a rank meets. -/

theorem engAt_ok {t u : State} {c : Cmd} {ap0 : Bool} {va : Nat} {n : Need} {l : Leaf}
    (h : t.translate c.view (va % 2 ^ 72) n (if ap0 then .atomic else .plain) = (u, .ok l))
    (hp : u.pinOk (pkgOf c.ctx) c.session l.pa = true) : (engAt c ap0 va n).run t = (.ok l, u) := by
  show (match t.translate c.view (va % 2 ^ 72) n (if ap0 then .atomic else .plain) with
    | (s1, .error (.page _ _)) => _
    | (s1, .error (.access _)) => _
    | (s1, .error (.broken _ _)) => _
    | (s1, .ok l) => _ : Eng Leaf) t = _
  rw [h]
  show (if u.pinOk (pkgOf c.ctx) c.session l.pa = true then (pure l : Eng Leaf) else throw 3) u = _
  rw [if_pos hp]
  rfl
theorem engAt_miss {t u : State} {c : Cmd} {ap0 : Bool} {va lev r : Nat} {n : Need}
    (h : t.translate c.view (va % 2 ^ 72) n (if ap0 then .atomic else .plain) = (u, .error (.page lev r))) :
    (engAt c ap0 va n).run t = (.error 1, u) := by
  show (match t.translate c.view (va % 2 ^ 72) n (if ap0 then .atomic else .plain) with
    | (s1, .error (.page _ _)) => _
    | (s1, .error (.access _)) => _
    | (s1, .error (.broken _ _)) => _
    | (s1, .ok l) => _ : Eng Leaf) t = _
  rw [h]
  rfl

def State.meetChk (s : State) (c : Cmd) (n : Need) (ap0 : Bool) (va : Nat) : Bool :=
  match s.walk (pkgOf c.ctx) c.root (va % 2 ^ 72) with
  | .error _ => false
  | .ok l => l.lay.sk != 3 &&
    (s.leafMiss (pkgOf c.ctx) c.root l (resolve (some c.ctx) l.pa) n (if ap0 then .atomic else .plain)).isNone &&
    (l.w0 ||| 0x80 ||| (if n.wr then 0x100 else 0)) == l.w0 && s.bad.isEmpty &&
    s.pinOk (pkgOf c.ctx) c.session (resolve (some c.ctx) l.pa)
theorem meets_of {s : State} {c : Cmd} {n : Need} {ap0 : Bool} {va : Nat} (h : s.meetChk c n ap0 va = true) :
    Meets s c n ap0 va 0 := fun cs => by
  simp only [State.meetChk] at h
  cases hl : s.walk (pkgOf c.ctx) c.root (va % 2 ^ 72) with
  | error e => rw [hl] at h; exact absurd h Bool.false_ne_true
  | ok l =>
    simp only [hl, Bool.and_eq_true, bne_iff_ne, ne_eq, beq_iff_eq, Option.isNone_iff_eq_none, List.isEmpty_iff] at h
    obtain ⟨⟨⟨⟨k1, k2⟩, k3⟩, kb⟩, k5⟩ := h
    obtain ⟨cs', key⟩ := translate_congr s { s with chans := cs } c.view (va % 2 ^ 72) n (if ap0 then .atomic else .plain) l (withChans_walk _ _ _ _ _) hl k1
      kb (fun _ _ => rfl) k2 k3
    exact ⟨cs', _, engAt_ok key k5, fun _ => ⟨_, rfl⟩, fun h => absurd rfl h⟩
theorem meets_miss {s : State} {c : Cmd} {n : Need} {ap0 : Bool} {va lev r : Nat}
    (hw : s.walk (pkgOf c.ctx) c.root (va % 2 ^ 72) = .error (.page lev r)) (hb : s.bad = []) : Meets s c n ap0 va 1 := fun cs => by
  obtain ⟨cs', key⟩ := translate_congr_walk s { s with chans := cs } c.view (va % 2 ^ 72) n (if ap0 then .atomic else .plain) _ (withChans_walk _ _ _ _ _) hw hb
  exact ⟨cs', _, engAt_miss key, fun h => absurd h (by decide), fun _ => rfl⟩

theorem collMay_one {s : State} {c : Cmd} (h : s.engine c.ctx .coll = [c]) : CollMay s c := fun d hd _ hl => by
  rw [h] at hd
  rw [List.mem_singleton.mp hd] at hl
  exact absurd hl (Nat.lt_irrefl _)

theorem witness_Collectives_fate : s2.bad = [] ∧ fateOf s2 (rank 0 0 0x5000 0x6000 0x6100) Need.read false 0x5000 = 0 ∧
    fateOf s2 (rank 0 0 0x5000 0x6000 0x6100) Need.read false 0x900000000 = 1 :=
  ⟨by decide +kernel, by decide +kernel, by decide +kernel⟩
/-- The order of a context's commands. -/
theorem witness_Collectives_may : CollMay (coll (rank 0 0 0x5000 0x6000 0x6100)) (rank 0 0 0x5000 0x6000 0x6100) ∧
    let c := { rank 0 0 0x5000 0x6000 0x6100 with serial := 1 }
    ¬ CollMay (tables.onDie 0 fun x => { x with coll := [rank 0 0 0x5000 0x6000 0x6100, c] }) c := by
  refine ⟨collMay_one (by decide +kernel), fun h => ?_⟩
  have := h (rank 0 0 0x5000 0x6000 0x6100) (by decide +kernel) rfl (by decide)
  cases this
/-- Every check passes. -/
theorem witness_Collectives_checked : let c := rank 0 0 0x5000 0x6000 0x6100
    let s := coll c
    let table := (spanOf s c 0x5000 1).map fun a => (byteAt s a).toNat
    EngQuiet s ∧ recN c.image 26 9 = 0x5000 ∧ recN c.image 47 1 + 1 = 1 ∧ AllMapped s (fun _ => False) c Need.read 0x5000 1 ∧
    table = [0] ∧ s.listed 0 0 = true ∧ spotsOf c.image = [(0x6000, Need.read), (0x6100, Need.write)] ∧
    ∀ q ∈ spotsOf c.image, Meets s c q.2 true q.1 0 := by
  have hs : spotsOf (rank 0 0 0x5000 0x6000 0x6100).image = [(0x6000, Need.read), (0x6100, Need.write)] := by decide +kernel
  refine ⟨engQuiet_of (by decide +kernel), by decide +kernel, by decide +kernel,
    range_of (by decide +kernel) (by omega) fun _ h => h.elim, by decide +kernel, by decide +kernel, hs, ?_⟩
  rw [hs]
  intro q hq
  rcases List.mem_cons.mp hq with rfl | hq
  · exact meets_of (by decide +kernel)
  · rw [List.mem_singleton.mp hq]
    exact meets_of (by decide +kernel)
/-- The table cannot be read; it names another die; it names another package; an operand has no leaf. -/
theorem witness_Collectives_table : let c := rank 0 0 0x900000000 0x6000 0x6100
    heads (recN c.image 26 9) (recN c.image 47 1 + 1) = [0x900000000] ∧ Meets (coll c) c Need.read false 0x900000000 1 :=
  ⟨by decide +kernel, meets_miss (lev := 2) (r := 0) (by decide +kernel) (by decide +kernel)⟩
theorem witness_Collectives_odd : let c := rank 0 0 0x5001 0x6000 0x6100
    AllMapped (coll c) (fun _ => False) c Need.read 0x5001 1 ∧
    ((spanOf (coll c) c 0x5001 1).map fun a => (byteAt (coll c) a).toNat) = [1] ∧ tableDie 1 ≠ 0 :=
  ⟨range_of (by decide +kernel) (by omega) fun _ h => h.elim, by decide +kernel, by decide⟩
theorem witness_Collectives_foreign : let c := rank 0 1 0x5020 0x6000 0x6100
    let s := (coll c).putBytes none Lay.plain 0x100005021 [4]
    AllMapped s (fun _ => False) c Need.read 0x5020 2 ∧ ((spanOf s c 0x5020 2).map fun a => (byteAt s a).toNat) = [0, 4] ∧
    s.listed 0 (tableDie 4 / 4) = false :=
  ⟨range_of (by decide +kernel) (by omega) fun _ h => h.elim, by decide +kernel, by decide +kernel⟩
theorem witness_Collectives_operand : let c := rank 0 0 0x5000 0x900000000 0x6100
    spotsOf c.image = [] ++ (0x900000000, Need.read) :: [(0x6100, Need.write)] ∧ Meets (coll c) c Need.read true 0x900000000 1 :=
  ⟨by decide +kernel, meets_miss (lev := 2) (r := 0) (by decide +kernel) (by decide +kernel)⟩

theorem witness_Collectives_fails : let c := rank 0 0 0x5001 0x6000 0x6100
    let s := coll c
    (collCheck c).run s = (.ok (found c), s) ∧ (found c).2.2.2 ≠ 0 :=
  ⟨found_of (by decide +kernel) (by decide +kernel), by decide +kernel⟩
theorem witness_Collectives_cancels : tagsOfColl (rank 0 0 0x5000 0x6000 0x6100) ∈
      (((coll (rank 0 0 0x5000 0x6000 0x6100)).onDie 0 fun x => { x with cancels := [(9, 0)] }).dieAt 0).cancels ∧
    ((coll (rank 0 0 0x5000 0x6000 0x6100)).onDie 0 fun x => { x with coll := [rank 0 0 0x5000 0x6000 0x6100, { rank 0 0 0x5000 0x6000 0x6100 with serial := 1, started := true }] }).collAt 0 9 0 ≠ [] ∧
    ((9 : BitVec 32), (0 : BitVec 32)) ∈ (((coll (rank 0 0 0x5000 0x6000 0x6100)).onDie 0 fun x => { x with cancelBox := [(9, 0)] }).dieAt 0).cancelBox ∧
    ((9 : BitVec 32), (0 : BitVec 32)) ∉ ((coll (rank 0 0 0x5000 0x6000 0x6100)).dieAt 0).cancelBox :=
  ⟨by decide +kernel, by decide +kernel, by decide +kernel, by decide +kernel⟩

/-! Dispatch. -/

/-- SEND of slot 0 of a zone with 1 or 0 slots, direct to die 1 or to die 4; LZSET; ZSTAT; RTSET. -/
def send (cap die : Nat) : Cmd := cmdOf [(0, 1), (2, 0xFFFF), (8, 0x1000), (26, die / 4), (27, die % 4), (28, 2), (36, cap), (44, 64)]
def replicaSend : Cmd := cmdOf [(0, 1), (1, 1), (2, 0xFFFF), (8, 0x1000), (28, 2), (36, 1), (44, 64)]
def lzset1 : Cmd := cmdOf [(0, 2), (2, 0xFFFF), (8, 0x8000), (28, 2), (36, 4), (44, 64)]
def zstat1 : Cmd := cmdOf [(0, 3), (2, 0xFFFF), (17, 0x7000), (28, 2)]
def rtset1 : Cmd := cmdOf [(0, 4), (2, 0xFFFF), (8, 0x9000), (17, 0xA000), (28, 8), (30, 256)]
def disp (c : Cmd) : State := s2.onDie 0 fun x => { x with disp := [c] }
/-- The tables that rtset1 bound. -/
def bound : State := (disp replicaSend).onDie 0 fun x =>
  { x with replica := ⟨true, 0x9000, 0xA000, 8, 256, false, some { rtset1 with started := true }⟩ }

theorem dispMay_one {s : State} {c : Cmd} (h : s.engine c.ctx .disp = [c]) : DispMay s c := fun d hd _ hl => by
  rw [h] at hd
  rw [List.mem_singleton.mp hd] at hl
  exact absurd hl (Nat.lt_irrefl _)

theorem witness_ExpertDispatch_send : let s := disp (send 1 1)
    dieOf (send 1 1).ctx = 0 ∧ DispMay s (send 1 1) ∧ Stands (s.dieAt 0).disp 0 (send 1 1) 1 ∧ recN (send 1 1).image 32 4 = 0 ∧
    recN (send 1 1).image 36 4 = 1 ∧ recN (send 0 1).image 36 4 = 0 ∧ recFlag (send 1 1).image 0 = false ∧
    s.listed 0 (1 / 4) = true ∧ 1 / 4 = pkgOf (send 1 1).ctx ∧ s.listed 0 (4 / 4) = false ∧ EngQuiet s ∧
    AllMapped s (fun _ => False) (send 1 1) Need.read 0x1000 64 :=
  ⟨by decide, dispMay_one (by decide +kernel), by unfold Stands; decide +kernel, by decide +kernel, by decide +kernel, by decide +kernel,
    by decide +kernel, by decide +kernel, by decide +kernel, by decide +kernel, engQuiet_of (by decide +kernel),
    range_of (by decide +kernel) (by omega) fun _ h => h.elim⟩
theorem witness_ExpertDispatch_replica : recFlag replicaSend.image 0 = true ∧ ((disp replicaSend).dieAt 0).replica.bound = false ∧
    ((disp replicaSend).dieAt 0).replica.cmd = none ∧ (bound.dieAt 0).replica.bound = true ∧
    (bound.dieAt 0).replica.active = recFlag replicaSend.image 1 ∧
    (bound.dieAt 0).replica.cmd = some { rtset1 with started := true } ∧ recN replicaSend.image 28 2 < (bound.dieAt 0).replica.nent ∧
    EngQuiet bound ∧ AllMapped bound (fun _ => False) { rtset1 with started := true } Need.read (0x9000 + 4 * 2) 4 ∧
    leNat ((spanOf bound { rtset1 with started := true } (0x9000 + 4 * 2) 4).map (byteAt bound)) < 2 ^ 16 :=
  ⟨by decide +kernel, by decide +kernel, by decide +kernel, by decide +kernel, by decide +kernel, by decide +kernel, by decide +kernel,
    engQuiet_of (by decide +kernel), range_of (by decide +kernel) (by omega) fun _ h => h.elim, by decide +kernel⟩
/-- A package that no longer answers; one that the domain map does not list. -/
theorem witness_ExpertDispatch_away : (s2.pkgAt 0).silent = false ∧ s2.listed 0 1 = false ∧
    (((s2.onPkg 1 fun x => { x with silent := true })).pkgAt 1).silent = true := ⟨by decide +kernel, by decide +kernel, by decide +kernel⟩
/-- ActiveIndex differs; too few entries; an entry with bits above 15. -/
theorem witness_ExpertDispatch_others : (((bound.onDie 0 fun x => { x with replica := { x.replica with active := true } }).dieAt 0).replica.active
      ≠ recFlag replicaSend.image 1) ∧
    ((bound.onDie 0 fun x => { x with replica := { x.replica with nent := 2 } }).dieAt 0).replica.nent ≤ recN replicaSend.image 28 2 ∧
    (let t := bound.putBytes none Lay.plain 0x10000900A [1]
     2 ^ 16 ≤ leNat ((spanOf t { rtset1 with started := true } (0x9000 + 4 * 2) 4).map (byteAt t))) :=
  ⟨by decide +kernel, by decide +kernel, by decide +kernel⟩
theorem witness_ExpertDispatch_zone : let s := disp lzset1
    Stands (s.dieAt 0).disp 0 lzset1 2 ∧ DispMay s lzset1 ∧ recN lzset1.image 36 4 * recN lzset1.image 44 4 = 256 ∧
    AllMapped s (fun _ => False) lzset1 Need.write 0x8000 256 ∧ BytesOk s ∧ (∀ g, (tabGet Ctx.reset s.ctxs g).watchctl = 0) :=
  ⟨by unfold Stands; decide +kernel, dispMay_one (by decide +kernel), by decide +kernel,
    range_of (by decide +kernel) (by omega) fun _ h => h.elim, bytesOk_nil (by decide +kernel), (engQuiet_of (by decide +kernel)).2.2.2⟩
theorem witness_ExpertDispatch_status : let s := disp zstat1
    Stands (s.dieAt 0).disp 0 zstat1 3 ∧ DispMay s zstat1 ∧ EngQuiet s ∧ recN zstat1.image 17 9 = 0x7000 ∧
    AllMapped s (· ∈ spanOf s zstat1 0x7000 16) zstat1 Need.write 0x7000 16 ∧ Stands ((disp rtset1).dieAt 0).disp 0 rtset1 4 := by
  have hp : (disp zstat1).engPage zstat1 Need.write 0x7000 = true := by decide +kernel
  exact ⟨by unfold Stands; decide +kernel, dispMay_one (by decide +kernel), engQuiet_of (by decide +kernel), by decide +kernel,
    range_of hp (by omega) (span_high hp (by omega)), by unfold Stands; decide +kernel⟩

/-- A row on its way to zone 2 of die 0, which takes four rows of 64 bytes from 0x100008000; one that was taken before. -/
def flight0 (arrived : Bool) (slot : Nat) : Flight := ⟨0, 2, slot, 7, 64, List.replicate 64 5, arrived⟩
def landing (f : Flight) (seen : Tab (Nat × List Nat)) : State := s2.onDie 0 fun x => { x with
  disp := [{ send 1 1 with started := true, flight := some f }]
  zones := [(2, { Zone.reset with armed := true, cap := 4, rowb := 64, base := 0x8000, frames := [(0x100008000, Lay.plain, 256)], windows := seen })] }

theorem witness_ExpertDispatch_land : let s := landing (flight0 true 1) []
    let z := zoneOf s 0 2
    (s.dieAt 0).disp[0]? = some { send 1 1 with started := true, flight := some (flight0 true 1) } ∧ z.armed = true ∧ 1 < z.cap ∧
    64 = z.rowb ∧ ¬ Seen (tabGet (2 ^ 32, []) z.windows 0) 7 ∧ EngQuiet s ∧ (flight0 true 1).bytes.length = 64 ∧
    (((placesOf z.frames).drop (1 * z.rowb)).take 64).length = 64 ∧ z.frames = [(0x100008000, Lay.plain, 256)] ∧
    ∀ j, j < 256 → inHbm (0x100008000 + j) = true ∧ (s.place (0x100008000 + j)).isMem = true := by
  refine ⟨by decide +kernel, by decide +kernel, by decide +kernel, by decide +kernel, fun h => h.1 (by decide +kernel),
    engQuiet_of (by decide +kernel), by decide +kernel, by decide +kernel, by decide +kernel, by decide +kernel⟩
theorem witness_ExpertDispatch_refused : (flight0 false 1).arrived = false ∧ (zoneOf (landing (flight0 true 4) []) 0 2).cap = 4 ∧
    Seen (tabGet (2 ^ 32, []) (zoneOf (landing (flight0 true 1) [(0, (7, [7]))]) 0 2).windows 0) 7 :=
  ⟨rfl, by decide +kernel, by unfold Seen; decide +kernel⟩

end Sys2Proof.Machine

namespace Sys2Proof.Machine

set_option Elab.async false

/-! Context switch and launch. -/

theorem settled_of {c : Ctx} (h : c.pending = [] ∧ c.ahead = none) : Settled c :=
  ⟨h.1, fun a ha => by rw [h.2] at ha; cases ha⟩
theorem interruptible_of {c : Ctx} (h : c.status = .bound ∧ c.hnd = false ∧ c.pending = [] ∧ c.ahead = none ∧ c.wait = .none) :
    Interruptible c := ⟨h.1, h.2.1, settled_of ⟨h.2.2.1, h.2.2.2.1⟩, .inl ⟨h.2.2.2.2, h.2.2.2.1⟩⟩

/-- A task to be switched out; its context free, the task in the die's table, unanswered, or answered while its context was held. -/
def sout : State := { s1 with c := { s1.c with task := some taskA, asked := ⟨none, true⟩ } }
def outA : OutTask := sout.keepTask taskA
def outB : OutTask := { outA with answer := some (true, 0xFFFF) }
def sin (o : OutTask) : State :=
  ({ s1 with c := { Ctx.reset with status := .free } }.onDie 0 fun x => { x with out := [o] }).putBytes none Lay.plain 0x80002208 [2]

theorem witness_ContextSwitching_out : sout.c.task = some taskA ∧ Interruptible sout.c ∧ sout.c.asked = ⟨none, true⟩ ∧
    sout.c.event = none ∧ sout.c.wait ≠ .going ∧ sout.c.lines.length ≤ 1024 ∧ RecordAt taskA.save ∧ sout.bad = [] ∧ TablesOk sout ∧
    BytesOk sout ∧ s1.c.asked.preempt = false :=
  ⟨rfl, interruptible_of (by decide +kernel), rfl, by decide +kernel, by decide +kernel, by decide +kernel, record_low (by decide),
    by decide +kernel, tablesOk_of (by decide +kernel), bytesOk_nil (by decide +kernel), by decide +kernel⟩
/-- Held, with a PROGRESS that was due; between two strips, on lanes that another context gave up; and with one due, not held. -/
def stall0 : Stall := ⟨1, 0, 0x1000, 1, 0, 0, 0⟩
def south : State := { sout with c := { sout.c with held := true, asked := ⟨some stall0, true⟩ } }
def soutb : State := { sout with c := { sout.c with wait := .going, vlive := true, lanesHeld := 32 } }
theorem witness_ContextSwitching_outs : south.c.held = true ∧ Interruptible south.c ∧ south.c.asked.preempt = true ∧
    Interruptible soutb.c ∧ soutb.c.pend = false ∧ Borrows soutb.c ∧ atStripEnd soutb = soutb ∧
    ({ south with c := { south.c with held := false } } : State).c.asked.progress ≠ none :=
  ⟨rfl, interruptible_of (by decide +kernel), rfl,
    ⟨by decide +kernel, by decide +kernel, settled_of (by decide +kernel), .inr (.inr (.inr (.inr (.inl rfl))))⟩, by decide +kernel,
    ⟨by decide +kernel, by decide +kernel⟩, if_neg fun h => absurd h.2 (by decide +kernel), by decide +kernel⟩
theorem witness_ContextSwitching_in : ((sin outA).dieAt (sin outA).die).out = [] ++ outA :: [] ∧ outA.ctx = (sin outA).here ∧
    (sin outA).c.status = .free ∧ (sin outA).reserved (sin outA).here = false ∧ outA.answer = none ∧ RecordAt outA.task.save ∧
    (sin outA).bad = [] ∧ BytesOk (sin outA) :=
  ⟨by decide +kernel, by decide +kernel, by decide +kernel, by decide +kernel, by decide +kernel, record_low (by decide),
    by decide +kernel, bytesOk_nil (by decide +kernel)⟩
theorem witness_ContextSwitching_answered : ((sin outB).dieAt (sin outB).die).out = [] ++ outB :: [] ∧
    outB.answer = some (true, 0xFFFF) ∧ (BitVec.ofNat 64 (bigAt (sin outB) (outB.task.save + 0x2208) 8)).getLsbD 1 = true :=
  ⟨by decide +kernel, rfl, by decide +kernel⟩

/-- A request of the context outstanding: its task bound, held or still in the handler, or switched out. -/
def sreq (st : Status) (held asking : Bool) : State :=
  { s1 with c := { s1.c with status := st, held := held, asking := asking } }.onDie 0 fun x =>
    { x with requests := [⟨0, 0, 0, 0, 0, false⟩] }

theorem witness_ContextSwitching_answer : (s1.pkgAt s1.pkg).linkUp = true ∧
    (∀ st held asking, ((sreq st held asking).pkgAt (sreq st held asking).pkg).linkUp = true ∧
      Matches (sreq st held asking) (sreq st held asking).here 0 ∧ (sreq st held asking).c.status = st ∧
      (sreq st held asking).c.held = held) ∧
    Awaits (sreq .bound false true).c ∧ ¬ Matches (sreq .bound true false) (sreq .bound true false).here 1 := by
  refine ⟨by decide +kernel, fun st held asking => ⟨?_, ?_, ?_, ?_⟩, ⟨.inl ?_, .inl ?_⟩, fun h => absurd h.2 (by decide +kernel)⟩
  · cases st <;> cases held <;> cases asking <;> decide +kernel
  · refine ⟨⟨(0, (sreq st held asking).dieAt 0), ?_, ⟨0, 0, 0, 0, 0, false⟩, ?_, ?_⟩, ?_⟩ <;>
      cases st <;> cases held <;> cases asking <;> decide +kernel
  · cases st <;> cases held <;> cases asking <;> decide +kernel
  · cases st <;> cases held <;> cases asking <;> decide +kernel
  · decide +kernel
  · decide +kernel

/-- An instruction in VQ, the timer of 1,024 slots run out; in task mode, and in a handler; with a wait in its turn. -/
def ept (hnd : Bool) : State := { sq with c := { sq.c with eptlim := 1, ept := 1024, hnd := hnd } }
def eptIn (w : Wait) : State := { sq with c := { sq.c with eptlim := 1, ept := 1024, wait := w } }

theorem ept_wait : (ept false).c.wait = .going := by decide +kernel
theorem notKept_of {s : State} (h : s.c.status = .bound ∧ s.c.hnd = false ∧ s.c.pending = [] ∧ s.c.ahead = none ∧
    s.c.held = false ∧ s.c.wait = .going) : ¬ Kept s := by
  obtain ⟨h1, h2, h3, h4, h5, h6⟩ := h
  rintro (k | k | k | k | ⟨p, o, k⟩ | k | k | k | ⟨q, k⟩ | k | ⟨k, -⟩)
  · exact k h1
  · rw [h2] at k; cases k
  · exact k (settled_of ⟨h3, h4⟩)
  · rw [h5] at k; cases k
  all_goals rw [h6] at k; cases k

/-- Waits that PROGRESS is kept over: a bfence's, and a claspa's that has arrived, whose timer has stopped with PROGRESS due. -/
theorem witness_ContextSwitching_kept : (eptIn .seam).c.queues.isEmpty .vq = false ∧ Kept (eptIn .seam) ∧
    (let s := { eptIn (.clasp (.cluster 0 3) true true) with c := { (eptIn (.clasp (.cluster 0 3) true true)).c with
      asked := ⟨some stall0, false⟩ } }
     s.c.asked.progress ≠ none ∧ Kept s) :=
  ⟨by decide +kernel, .inr (.inr (.inr (.inr (.inr (.inr (.inl rfl)))))), by decide +kernel,
    .inr (.inr (.inr (.inr (.inl ⟨_, _, rfl⟩))))⟩

theorem witness_ContextSwitching_progress : queueUnit 1 = some (.vq, .vq) ∧ ((ept false).c.status = .bound ∧ (ept false).c.held = false ∧
      (ept false).c.queues.isEmpty .vq = false ∧ (ept false).c.eptlim ≠ 0 ∧ (ept false).c.eptlim.toNat * 1024 ≤ (ept false).c.ept) ∧
    (∀ c o b, (ept false).c.wait ≠ .clasp c o b) ∧ ¬ Kept (ept false) ∧ Kept (ept true) ∧
    s1.c.asked.progress = none ∧ ¬ s1.c.queues.isEmpty .vq = false :=
  ⟨rfl, by decide +kernel, (fun c o b h => by rw [ept_wait] at h; cases h),
    notKept_of ⟨rfl, rfl, rfl, rfl, rfl, ept_wait⟩, .inr (.inl rfl), by decide +kernel, by decide +kernel⟩

def sev (held : Bool) : State := { s1 with c := { s1.c with event := some ⟨0x1000, 0x1000, 0, 1, 5, 2⟩, held := held } }

theorem witness_ContextSwitching_event : (sev false).c.event = some ⟨0x1000, 0x1000, 0, 1, 5, 2⟩ ∧ Interruptible (sev false).c ∧
    (sev false).c.held = false ∧ (sev true).c.held = true ∧ (sev false).c.asked.progress = none :=
  ⟨rfl, interruptible_of (by decide +kernel), rfl, rfl, by decide +kernel⟩

/-! Launch: queue 3 of die 0, one record in its ring. -/

def ring (q : BitVec 512) : HostQueue := ⟨true, q, 0, 1⟩
def launcher (q : BitVec 512) (w : List Waiting) : State := (s1.onPkg 0 fun p => { p with boot := .running }).onDie 0 fun x =>
  { x with queues := [(3, ring q)], waiting := w, pool := [⟨0x80000000, 0x80000000, false, 0⟩] }

/-- A record of zeros is launched; under a queue of class 1 it is refused. The ring lies at 0x1000000. -/
def q0 : BitVec 512 := recOf [(48, 0x1000000)]
def q1 : BitVec 512 := recOf [(40, 1), (48, 0x1000000)]

theorem witness_Launching_read : let s := launcher q0 []
    (s.pkgAt (0 / 4)).boot = .running ∧ (s.dieAt 0).down = false ∧ (s.queueAt 0 3).set = true ∧ (s.dieAt 0).waiting = [] ∧
    (s.queueAt 0 3).head ≠ (s.queueAt 0 3).tail ∧ s.bad = [] ∧ s.chans = [] ∧ BytesOk s ∧ (s.place 0x1000000).isMem = true ∧
    InOne 0x1000000 64 ∧ RecordBad 0 q1 ∧ headRecord (launcher q1 []) 0 3 = 0 ∧ headRecord s 0 3 = 0 ∧
    (s.launchStatus 0 0 q1).2 = some 0xFD ∧ (s.launchStatus 0 0 q0).2 = none :=
  ⟨by decide +kernel, by decide +kernel, by decide +kernel, by decide +kernel, by decide +kernel, by decide +kernel, by decide +kernel,
    bytesOk_nil (by decide +kernel), by decide +kernel, inOne_low (by decide) (by decide), by unfold RecordBad; decide +kernel,
    by decide +kernel, by decide +kernel, by decide +kernel, by decide +kernel⟩

/-- A record due now, one whose dig the host has ended, and one due at 100. -/
def w0 (ended : Bool) (start : Nat) : Waiting := ⟨3, 0, recOf [(40, start)], q0, 1000, 0, [], 0, false, ended⟩

theorem witness_Launching_fire : (launcher q0 [w0 false 0]).waitingOf 0 3 = some (w0 false 0) ∧
    ((launcher q0 [w0 false 0]).queueAt 0 3).set = true ∧ recN (w0 false 0).image 40 8 = 0 ∧ (w0 true 0).ended = true ∧
    (launcher q0 [w0 true 0]).waitingOf 0 3 = some (w0 true 0) ∧ recN (w0 false 100).image 40 8 = 100 ∧
    ((launcher q0 []).dieAt 0).tick.toNat < 100 :=
  ⟨by decide +kernel, by decide +kernel, by decide +kernel, rfl, by decide +kernel, by decide +kernel, by decide +kernel⟩
theorem witness_Launching_prep : let s := launcher q0 [w0 false 100]
    s.waitingOf 0 3 = some (w0 false 100) ∧ s.queueOpen 0 3 = true ∧ (s.dieAt 0).tick.toNat < 100 ∧
    100 ≤ (s.dieAt 0).tick.toNat + (w0 false 100).prep ∧ recN (w0 false 100).image 18 2 = 0 ∧ recN (w0 false 100).image 56 8 = 0 ∧
    s.placesOk 0 (w0 false 100).image (w0 false 100).qctx (s.takesFor 0 (w0 false 100).image (w0 false 100).qctx true) [4] = true ∧
    s.placesOk 0 (w0 false 100).image (w0 false 100).qctx (s.takesFor 0 (w0 false 100).image (w0 false 100).qctx true) [4, 4] = false :=
  ⟨by decide +kernel, by decide +kernel, by decide +kernel, by decide +kernel, by decide +kernel, by decide +kernel, by decide +kernel,
    by decide +kernel⟩

def l0 : Launch := ⟨3, 0, 0, q0, 0, 5, 0, 0, 0, 0, 0, [], false⟩
def placing : State := (launcher q0 []).onDie 0 fun x => { x with launches := [l0] }

theorem witness_Launching_place : placing.nextLaunch 0 = some l0 ∧ l0.queue = 3 ∧ recN l0.image 20 2 + l0.placed = 0 ∧
    placing.placesOk 0 l0.image l0.qctx (placing.takesFor 0 l0.image l0.qctx (decide (recN l0.image 23 1 % 4 = 0))) [4] = true ∧ recN l0.image 56 8 = 0 ∧
    (placing.dieAt 0).launches = [l0] ∧ (((placing.dieAt 0).pool.filter (·.era == l0.era)).map (·.pa)).Nodup ∧ (launcher q0 []).nextLaunch 0 = none :=
  ⟨by decide +kernel, rfl, by decide +kernel, by decide +kernel, by decide +kernel, by decide +kernel, by decide +kernel, by decide +kernel⟩
theorem witness_Launching_record : s1.bad = [] ∧ BytesOk s1 ∧ (s1.place 0x2000000).isMem = true ∧ InOne 0x2000000 32 ∧
    recN (recOf [(56, 0x2000000)]) 56 8 % 2 ^ 52 / 32 * 32 = 0x2000000 :=
  ⟨by decide +kernel, bytesOk_nil (by decide +kernel), by decide +kernel, inOne_low (by decide) (by decide), by decide +kernel⟩
theorem witness_Launching_expiry : let s : State := { s1 with c := { s1.c with pend := true, next := 1, cap := 2, prio := 1 } }
    (s.ctxAt 0).status = .bound ∧ (s.ctxAt 0).pend = true ∧ (s.ctxAt 0).next.toNat < (s.ctxAt 0).cap.toNat ∧ (s.ctxAt 0).prio ≠ 0 ∧
    (s1.ctxAt 0).pend = false :=
  ⟨by decide +kernel, by decide +kernel, by decide +kernel, by decide +kernel, by decide +kernel⟩

end Sys2Proof.Machine

namespace Sys2Proof.Machine

set_option Elab.async false

/-! The supervisor, the package, the fabric, the whole machine. -/

/-- Packages 0 and 1 up, each with the other in its domain. -/
def sup : State :=
  let up (p : Pkg) : Pkg := { p with boot := .running, map := [⟨0, Vector.replicate 4 0⟩, ⟨1, Vector.replicate 4 0⟩] }
  (s1.onPkg 0 up).onPkg 1 up

/-- A state in which every entry of a table of dies passes a check of its number. -/
theorem dieAt_of {s : State} {P : Nat → Die → Bool} (hr : ∀ d, P d Die.reset = true) (h : s.dies.all (fun e => P e.1 e.2) = true) (d : Nat) :
    P d (s.dieAt d) = true := by
  unfold State.dieAt
  have hi : ∀ (l : Tab Die), l.all (fun e => P e.1 e.2) = true → P d (tabGet Die.reset l d) = true := by
    intro l
    induction l with
    | nil => exact fun _ => hr d
    | cons e t ih =>
      intro hl
      simp only [List.all_cons, Bool.and_eq_true] at hl
      rw [tabGet]
      split
      · exact hr d
      · split
        · rename_i he
          exact he ▸ hl.1
        · exact ih hl.2
  exact hi _ h

theorem witness_SupervisorServices : Up sup 0 ∧ ¬ Up s1 0 ∧ ¬ ForeignQueue 0 q0 ∧ ForeignQueue 1 q0 ∧ TablesOk sup ∧
    (sup.ctxAt 1).status ≠ .frozen ∧ ({ s1 with c := { s1.c with status := .frozen } }.ctxAt 0).status = .frozen :=
  ⟨⟨by decide +kernel, by decide +kernel⟩, fun h => absurd h.1 (by decide +kernel), by unfold ForeignQueue; decide +kernel,
    by unfold ForeignQueue; decide +kernel, tablesOk_of (by decide +kernel), by decide +kernel, by decide +kernel⟩
/-- A core that holds a task, and one that does not. -/
theorem witness_SupervisorServices_core : let held := ({ s1 with c := { s1.c with task := some task0 } } : State)
    held.tasksIn (4 * 0) 4 ≠ [] ∧ s1.tasksIn (4 * 1) 4 = [] ∧ (s1.coreAt 0).lmap.getLsbD 5 = true ∧ (5 : Fin 64) ∉ (s1.coreAt 0).retiring ∧
    (s1.coreAt 1).lmap.getLsbD 5 = true ∧ (s1.coreAt 1).retiring = [] ∧ (s1.coreAt 1).replacing = false ∧
    (s1.clusterAt 0).spareUsed = false ∧ ((s1.onCluster 0 fun x => { x with spareUsed := true }).clusterAt 0).spareUsed = true ∧
    (s1.coreAt 1).absent = false ∧ ((s1.putCore 1 { s1.coreAt 1 with absent := true }).coreAt 1).absent = true :=
  ⟨by decide +kernel, by decide +kernel, by decide +kernel, by decide +kernel, by decide +kernel, by decide +kernel, by decide +kernel,
    by decide +kernel, by decide +kernel, by decide +kernel, by decide +kernel⟩
/-- A frozen task that runs on lanes reclaimed from another. -/
theorem witness_SupervisorServices_frozen : let s : State := { s1 with c := { s1.c with status := .frozen, lanesHeld := 32 } }
    TablesOk s ∧ (s.ctxAt 0).status = .frozen ∧ Borrows (s.ctxAt 0) :=
  ⟨tablesOk_of (by decide +kernel), by decide +kernel, ⟨by decide +kernel, by decide +kernel⟩⟩
theorem witness_SupervisorServices_die : (s1.dieAt 2).down = false ∧ ((s1.onDie 2 fun x => { x with down := true }).dieAt 2).down = true ∧
    (∀ c ∈ (sup.dieAt 0).coll, c.ctx / 512 = 0) :=
  ⟨by decide +kernel, by decide +kernel, by decide +kernel⟩
/-- A unit that reads well, one whose error lasts, one that reads well again, one poisoned, one that goes on failing. -/
theorem witness_SupervisorServices_reread : let b (l : Option Nat) (lasting poison : Bool) : Bad := ⟨l, some Lay.plain, lasting, poison⟩
    (s1.badAt 0x1000).erred = none ∧ (∀ x ∈ [b none true false, b (some 0) false false, b none false true, b (some 2) false false],
      (s1.setBad 0x1000 x).badAt 0x1000 = x) := ⟨by decide +kernel, by decide +kernel⟩
/-- The same of a hallmark, and of one entry of a register slice and one tile element. -/
theorem witness_SupervisorServices_places : let b (l : Option Nat) (poison : Bool) : Bad := ⟨l, some Lay.plain, false, poison⟩
    (∀ x ∈ [Bad.clean, b (some 0) false, b none true, b (some 2) false], tabGet Bad.clean ((withHall s1 0 3 x).clusterAt 0).hallBad 3 = x) ∧
    TablesOk s1 ∧ tabWf Core.reset s1.cores = true ∧ (∀ x ∈ [b (some 0) false, b none true], x ≠ Bad.clean ∧
      ((({ s1 with c := { s1.c with vbad := [⟨4, 9, x⟩] } } : State).ctxAt 0).vbad.filter (BadSlice.isAt 4 9)).map (·.bad) = [x] ∧
      ((({ s1 with k := { s1.k with tbad := [⟨2, 4, 9, x⟩] } } : State).coreAt 0).tbad.filter (BadTile.isAt 2 4 9)).map (·.bad) = [x]) :=
  ⟨by decide +kernel, tablesOk_of (by decide +kernel), by decide +kernel, by decide +kernel⟩

/-- Seven images, one for each target. Whether they verify is the images' own (R337): one of the two cases is met. -/
def sevenImages : List Firmware := (List.range 7).map fun k => ⟨k, 1, 0, 0, [], [], 0⟩

theorem witness_PackageRows_boot (Good : Firmware → Prop) : (∀ t, t < 7 → ∃ i ∈ sevenImages, i.target = t) ∧ TablesOk s1 ∧
    (s1.pkgAt 0).boot ≠ .running ∧ (sup.pkgAt 0).boot = .running ∧ ((∀ i ∈ sevenImages, Good i) ∨ ∃ i ∈ sevenImages, ¬ Good i) :=
  ⟨by decide, tablesOk_of (by decide +kernel), by decide +kernel, by decide +kernel, by
    by_cases h : ∀ i ∈ sevenImages, Good i
    · exact .inl h
    · exact .inr (by simpa using h)⟩
theorem witness_PackageRows_load : let r := s1.onPkg 0 fun p => { p with boot := .recovery }
    (State.reset.pkgAt 0).boot = .off ∧ (r.pkgAt 0).boot = .recovery ∧ (r.pkgAt 0).linkUp = true ∧
    (∃ k, k < 7 ∧ ∀ e ∈ (r.pkgAt 0).images.filter (fun e => e.1 != 1) ++ [(1, (0 : BitVec 384))], e.1 ≠ k) ∧
    let f := r.onPkg 0 fun p => { p with images := (List.range 7).map fun k => (k, 0) }
    ∀ k, k < 7 → ∃ e ∈ (f.pkgAt 0).images.filter (fun e => e.1 != 1) ++ [(1, (0 : BitVec 384))], e.1 = k :=
  ⟨by decide +kernel, by decide +kernel, by decide +kernel, by decide +kernel, by decide +kernel⟩

theorem plain_of {s : State} {pa n : Nat} (hq : EngQuiet s) (h : ∀ j, j < n → inHbm (pa + j) = inHbm pa ∧ (s.place (pa + j)).isMem = true) :
    PlainRange s pa n := ⟨hq, fun j hj => (h j hj).1, fun j hj => (h j hj).2⟩

theorem witness_PackageRows_host : Up sup (0x1000 / 2 ^ 46) ∧ PlainRange sup 0x1000 4 ∧ 0 < [(1 : Byte), 2, 3, 4].length ∧
    (sup.place 0x300000000000).isMem = false ∧ 0x300000000000 % 4096 = 0 ∧ sup.place 0x300000000018 = .doorbell 0 3 ∧
    (1500 : Nat) ≤ 2000 ∧ ¬ (1500 ≤ 1499 ∧ 1499 ≤ 3200) ∧ TablesOk sup :=
  ⟨⟨by decide +kernel, by decide +kernel⟩, plain_of (engQuiet_of (by decide +kernel)) (by decide +kernel), by decide, by decide +kernel,
    by decide, by decide +kernel, by decide, by decide, tablesOk_of (by decide +kernel)⟩
theorem witness_PackageRows_power : (s1.pkgAt 0).boot ≠ .running ∧ (sup.pkgAt 0).boot = .running ∧ TablesOk sup ∧
    (∀ x ∈ [(40 : Nat), 41], x < 115) ∧ (sup.pkgAt 0).plimit < 3100 ∧ ¬ 3200 < 3100 ∧ (∃ x ∈ [(40 : Nat), 115], 115 ≤ x) :=
  ⟨by decide +kernel, by decide +kernel, tablesOk_of (by decide +kernel), by decide, by decide +kernel, by decide, by decide⟩
theorem witness_PackageRows_refresh : 0 + 40 + (owedOf s1 0 0 + 1) * 190 ≤ 1800 ∧ 1800 < 1700 + 40 + (owedOf s1 0 0 + 1) * 190 :=
  ⟨by decide +kernel, by decide +kernel⟩

/-! Frames of package 1 for die 0; package 1 as the home of an access. -/

def frame (t : BitVec 16) (ack : Bool) : Frame := ⟨t, 4, 0, 5, ack⟩
/-- Die 4 has sent m to die 0 by its port 0, the frame numbered 5, n-th of the pair of dies. -/
def railed (m : RailMsg) (n : Nat) : State := sup.onDie 4 fun x => { x with sent := [⟨0, 0, 5, n, m, 0, false⟩] }

theorem witness_FabricRows_frames : (frame 0x88F7 false).etherType = 0x88F7 ∧ (frame 0x800 false).etherType ≠ 0x88F7 ∧
    (frame 0x800 false).etherType ≠ 0x88B5 ∧ (frame 0x88B5 true).etherType = 0x88B5 ∧ (frame 0x88B5 true).ack = true ∧
    (frame 0x88B5 false).ack = false ∧ sentTo sup 0 (frame 0x88B5 false) = none ∧
    sentTo (railed (.cancel 1 2) 1) 0 (frame 0x88B5 false) = some ⟨0, 0, 5, 1, .cancel 1 2, 0, false⟩ ∧
    1 ≠ tabGet 0 ((railed (.cancel 1 2) 1).dieAt 0).received 4 ∧
    (∀ m ∈ [RailMsg.cancel 1 2, .row 9], sentTo (railed m 0) 0 (frame 0x88B5 false) = some ⟨0, 0, 5, 0, m, 0, false⟩ ∧
      0 = tabGet 0 ((railed m 0).dieAt 0).received 4) :=
  ⟨rfl, by decide, by decide, rfl, rfl, rfl, by decide +kernel, by decide +kernel, by decide +kernel, by decide +kernel⟩
theorem witness_FabricRows_resend : let s := railed (.row 9) 0
    (sup.dieAt 4).sent = [] ∧ (∃ m ∈ (s.dieAt 4).sent, m.port = 0 ∧ m.seq = 5) ∧ 0 ∈ s.portsFor 4 ∧
    let t := s.onDie 4 fun x => { x with ports := [(0, 2)] }
    (∃ m ∈ (t.dieAt 4).sent, m.port = 0 ∧ m.seq = 5) ∧ 0 ∉ t.portsFor 4 :=
  ⟨by decide +kernel, by decide +kernel, by decide +kernel, by decide +kernel, by decide +kernel⟩
theorem witness_FabricRows_remote : let pa := 2 ^ 46 + 0x1000
    0 / 2048 ≠ pa / 2 ^ 46 ∧ 2048 / 2048 = pa / 2 ^ 46 ∧ ListedBy sup (0 / 2048) (pa / 2 ^ 46) ∧ ¬ ListedBy s1 (0 / 2048) (pa / 2 ^ 46) ∧
    (sup.pkgAt (pa / 2 ^ 46)).boot = .running ∧ (sup.pkgAt (pa / 2 ^ 46)).silent = false ∧ heardFrom sup (0 / 2048) = sup ∧
    pa % 2 ^ 46 / 2 ^ 44 ≠ 3 ∧ PlainRange sup pa 8 ∧ inHbm pa = true ∧ (sup.place (2 ^ 46 + 0x2FFFFFFFF000)).isMem = false ∧
    (2 ^ 46 + 0x2FFFFFFFF000) % 2 ^ 46 / 2 ^ 44 ≠ 3 ∧ 7 < 2 ^ Fmt.fp32.width :=
  ⟨by decide, by decide, by unfold ListedBy; decide +kernel, by unfold ListedBy; decide +kernel, by decide +kernel, by decide +kernel,
    if_neg (by decide +kernel), by decide, plain_of (engQuiet_of (by decide +kernel)) (by decide +kernel), by decide +kernel,
    by decide +kernel, by decide, by decide⟩
theorem witness_FabricRows_registers : let pa := 2 ^ 46 + 0x300000100000
    0 / 2048 ≠ pa / 2 ^ 46 ∧ pa % 2 ^ 46 / 2 ^ 44 = 3 ∧ sup.place pa ≠ .nothing ∧ pa % 8 = 0 ∧ (pa + 4) % 8 ≠ 0 ∧ sup.place (pa + 4) ≠ .nothing ∧
    ((sup.focus 0).mmioWrite (sup.place pa) 1).isSome = true ∧ sup.place (2 ^ 46 + 0x3FFFFFFFFFF8) = .nothing :=
  ⟨by decide, by decide, by decide +kernel, by decide, by decide, by decide +kernel, by decide +kernel, by decide +kernel⟩

/-- A collective of dies 0 and 4 that has started on both, and a row of die 0 for die 4 and one the other way. -/
def collOf (g : Nat) : Cmd := { cmd0 with ctx := g, started := true, table := [0, 4] }
def rowTo (g d : Nat) : Cmd := { cmd0 with ctx := g, flight := some ⟨d, 0, 0, 0, 0, [], false⟩ }
def silenced : State := (sup.onDie 0 fun x => { x with coll := [collOf 0], disp := [rowTo 0 4] }).onDie 4 fun x =>
  { x with coll := [collOf 2048], disp := [rowTo 2048 0] }

theorem witness_FabricRows_timeout : TablesOk silenced ∧ (∀ d, ∀ c ∈ (silenced.dieAt d).coll ++ (silenced.dieAt d).disp, dieOf c.ctx = d) ∧
    (∀ g ∈ [0, 2048], collOf g ∈ (silenced.dieAt (dieOf g)).coll ∧ Spans 1 (collOf g) ∧ (collOf g).result = none) ∧
    rowTo 0 4 ∈ (silenced.dieAt 0).disp ∧ Across 1 (rowTo 0 4) ∧ rowTo 2048 0 ∈ (silenced.dieAt 4).disp ∧ Across 1 (rowTo 2048 0) ∧
    (rowTo 0 4).result = none ∧ (rowTo 2048 0).result = none := by
  refine ⟨tablesOk_of (by decide +kernel), fun d c hc => ?_, fun g hg => ?_, by decide +kernel, ⟨_, rfl, by decide, .inl (by decide)⟩,
    by decide +kernel, ⟨_, rfl, by decide, .inr (by decide)⟩, rfl, rfl⟩
  · have h := dieAt_of (s := silenced) (P := fun d x => (x.coll ++ x.disp).all fun c => dieOf c.ctx == d) (fun _ => rfl) (by decide +kernel) d
    exact by simpa using List.all_eq_true.mp h c hc
  · have hm : ∀ g ∈ [0, 2048], collOf g ∈ (silenced.dieAt (dieOf g)).coll := by decide +kernel
    exact ⟨hm g hg, ⟨rfl, ⟨4, .tail _ (.head _), rfl⟩, ⟨0, .head _, by decide⟩⟩, rfl⟩

/-! The clock: what it follows depends on its own data set, which is open (log 51): it follows a data set of zeros if its own is none. -/

def master0 : Master := ⟨0, 7, 0, 0⟩
def hearing (o a r : Option Int) : State :=
  sup.onPkg 0 fun p => { p with heard := [master0], origin := o, arrival := a, request := r }

theorem master_of {s : State} (h : (s.pkgAt 0).heard = [master0] ∧ s.clockPorts 0 = [0, 1, 2, 3]) (hc : 0 < (Config.clockData 0).toNat) :
    s.master 0 = some master0 := by
  simp [State.master, h.1, h.2, master0, bestMaster, hc]

theorem witness_FabricRows_ptp : sup.master 0 = none ∧ (0 < (Config.clockData 0).toNat → ∀ o a r,
      (hearing o a r).master 0 = some master0 ∧ Follows (hearing o a r) 0 0 7) ∧
    Listens (hearing none none none) 0 0 ∧ (0 : BitVec 8) = ((hearing none none none).pkgAt 0).ptpDomain ∧ Listens sup 0 0 ∧
    (0 : BitVec 8) = (sup.pkgAt 0).ptpDomain ∧ ¬ Listens sup 0 4 ∧ ((hearing none none none).pkgAt 0).origin = none ∧
    ((hearing (some 9) (some 5) (some 7)).pkgAt 0).origin = some 9 ∧ ((hearing (some 9) (some 5) (some 7)).pkgAt 0).arrival = some 5 ∧
    ((hearing (some 9) (some 5) (some 7)).pkgAt 0).request = some 7 ∧ (((9 : Int) - 5) + ((11 : Nat) - 7)) / 2 ≤ 1000000 ∧
    1000000 < (((9 : Int) - 5) + ((4000000 : Nat) - 7)) / 2 :=
  ⟨by decide +kernel, fun hc o a r => ⟨master_of ⟨rfl, rfl⟩ hc, master0, master_of ⟨rfl, rfl⟩ hc, rfl, rfl⟩,
    by unfold Listens; decide +kernel, by decide +kernel, by unfold Listens; decide +kernel, by decide +kernel,
    fun h => absurd h.1 (by decide), by decide +kernel, by decide +kernel, by decide +kernel, by decide +kernel, by decide, by decide⟩
/-- An announcement that makes a master of its sender, one of another that is no better, and one that ends the master's claim. -/
theorem witness_FabricRows_announce (hc : 0 < (Config.clockData 0).toNat) :
    (hearing none none none).master 0 ≠ sup.master 0 ∧ (hearing none none none).master 0 ≠ none ∧
    (let t := sup.onPkg 0 fun p => { p with heard := [⟨1, 9, BitVec.allOnes 128, 0⟩, master0] }
     t.master 0 = (hearing none none none).master 0) ∧
    (sup.onPkg 0 fun p => { p with heard := [⟨0, 7, BitVec.allOnes 128, 0⟩] }).master 0 = none := by
  have h := master_of (s := hearing none none none) ⟨rfl, rfl⟩ hc
  have hs : sup.master 0 = none := by decide +kernel
  have top (n : Nat) (hn : n < 2 ^ 128) : ¬ (BitVec.allOnes 128).toNat < n := by
    rw [BitVec.toNat_allOnes]; omega
  refine ⟨by rw [h, hs]; simp, by rw [h]; simp, ?_, ?_⟩
  · rw [h]
    have hp : (sup.onPkg 0 fun p => { p with heard := [⟨1, 9, BitVec.allOnes 128, 0⟩, master0] }).clockPorts 0 = [0, 1, 2, 3] := by decide +kernel
    have hh : ((sup.onPkg 0 fun p => { p with heard := [⟨1, 9, BitVec.allOnes 128, 0⟩, master0] }).pkgAt 0).heard =
      [⟨1, 9, BitVec.allOnes 128, 0⟩, master0] := by decide +kernel
    have hb : bestMaster [⟨1, 9, BitVec.allOnes 128, 0⟩, master0] = some master0 := by decide +kernel
    have hf : ([⟨1, 9, BitVec.allOnes 128, 0⟩, master0] : List Master).filter (fun m => [0, 1, 2, 3].contains m.port) =
      [⟨1, 9, BitVec.allOnes 128, 0⟩, master0] := by decide +kernel
    simp only [State.master, hh, hp, hf, hb]
    simp [master0, hc]
  · have hp : (sup.onPkg 0 fun p => { p with heard := [⟨0, 7, BitVec.allOnes 128, 0⟩] }).clockPorts 0 = [0, 1, 2, 3] := by decide +kernel
    have hh : ((sup.onPkg 0 fun p => { p with heard := [⟨0, 7, BitVec.allOnes 128, 0⟩] }).pkgAt 0).heard =
      [⟨0, 7, BitVec.allOnes 128, 0⟩] := by decide +kernel
    have hf : ([⟨0, 7, BitVec.allOnes 128, 0⟩] : List Master).filter (fun m => [0, 1, 2, 3].contains m.port) =
      [⟨0, 7, BitVec.allOnes 128, 0⟩] := by decide +kernel
    simp only [State.master, hh, hp, hf, bestMaster]
    exact Option.filter_eq_none_iff.mpr fun a ha => by
      obtain rfl := Option.some.inj ha
      simpa using top _ (Config.clockData 0).isLt
/-- A step from 50 to 150 passes a record due at 100. -/
theorem witness_FabricRows_passed : let s := (launcher q0 [w0 false 100]).onDie 0 fun x => { x with tick := 150 }
    passedBy s 0 50 = [w0 false 100] ∧ s.queueOpen 0 (w0 false 100).queue = true ∧ passedBy s 0 100 = [] :=
  ⟨by decide +kernel, by decide +kernel, by decide +kernel⟩
theorem witness_FabricRows_clock : (sup.pkgAt 0).clock ≠ .locked ∧ ((sup.onPkg 0 fun p => { p with clock := .locked }).pkgAt 0).clock = .locked :=
  ⟨by decide +kernel, by decide +kernel⟩

/-! The whole machine. -/

theorem witness_StepKeepsInvariant : Inv State.reset ∧ ∃ t, step State.reset = .next t := by
  refine ⟨⟨tablesOk_of (by decide +kernel), bytesOk_nil (by decide +kernel), linesOk_nil rfl, fun e h => absurd h List.not_mem_nil,
    fun h => absurd h (by decide), fun e h => absurd h List.not_mem_nil⟩, ?_⟩
  exact ⟨_, rfl⟩
theorem witness_EncodeThenDecode : (Instr.add 8 7 (.reg 7)).wf = true ∧ wordless (.add 8 7 (.reg 7)) = false ∧ wordless .wfeWake = true ∧
    decode 0x02041CE000000000 = .ok (.add 8 7 (.reg 7)) := ⟨by decide, rfl, rfl, by decide +kernel⟩

/-- A context at a word, free to issue it. -/
def atWord (w : Nat) (f : Ctx → Ctx) : State :=
  let s := State.reset.placeWord 64 w
  { s with c := f s.c }
def issued (s : State) : State := nx (exec .fixedLatencyWriteback s)
def fetched (s : State) : State := ((issued s).fetchWord).1

theorem free_of {s : State} (h : s.agenda = [] ∧ s.c.status = .bound ∧ s.c.wait = .none ∧ s.c.ahead = none ∧ s.c.held = false ∧
    s.c.asked = ⟨none, false⟩ ∧ s.c.event = none) : Free s := h
theorem fetches_of {s u : State} {w : Word} (h : s.c.pc.toNat % 8 = 0 ∧
    (let r := s.translate s.view ((if s.c.hnd then 0 else s.c.vah.toNat * 2 ^ 64) + s.c.pc.toNat) Need.fetch .plain
     isOk r = true ∧ (r.1.checkRead (leafOf r).lay (leafOf r).pa 8).2 = none ∧ (r.1.checkRead (leafOf r).lay (leafOf r).pa 8).1 = u ∧
     w = BitVec.ofNat 64 (leNat (u.bytesAt (leafOf r).lay.raw (leafOf r).pa 8)))) : FetchesWord s u w :=
  ⟨h.1, _, _, ok_eq h.2.1, Prod.ext h.2.2.2.1 h.2.2.1, h.2.2.2.2⟩

/-- A nop; a word of zeros, which is no instruction; tstop. -/
theorem witness_StepRunsDecoded : (∀ w ∈ [0x200000001C000000, 0], let s := atWord w id
    Free s ∧ exec .fixedLatencyWriteback s = .next (issued s) ∧ FetchesWord (issued s) (fetched s) (BitVec.ofNat 64 w)) ∧
    (match decode 0 with
      | .ok _ => False
      | .error _ => True) ∧ decode 0x200000001C000000 = .ok .nop ∧ Accepted (fetched (atWord 0x200000001C000000 id)) .nop ∧
    (fetched (atWord 0x200000001C000000 id)).c.sbc = false ∧ (fetched (atWord 0x200000001C000000 id)).beats .nop = none ∧
    ¬ Accepted (fetched (atWord 0x200000001C000000 id)) .tstop := by
  refine ⟨?_, trivial, by decide +kernel, .inl (by decide +kernel), by decide +kernel, by decide +kernel, fun h => h⟩
  intro w hw
  simp only [List.mem_cons, List.not_mem_nil, or_false] at hw
  obtain rfl | rfl := hw <;>
    exact ⟨free_of (by decide +kernel), rfl, fetches_of (by decide +kernel)⟩

/-- The vadd of context 0, alone; and where context 1 stands at the same word with a smaller charge. -/
def strips (l : List (Nat × Ctx)) : State :=
  let s := atWord 0x4010874080000000 fun c => { c with vlive := true, vl := 16, vlg := 16, vfmt := Fmt.i32.code, ready := true, charge := 5 }
  { s with ctxs := l }
def rival : List (Nat × Ctx) := [(1, { (strips []).c with charge := 0 })]

theorem witness_StepRunsDecoded_strip : (∀ l ∈ [[], rival], Free (strips l) ∧ exec .fixedLatencyWriteback (strips l) = .next (issued (strips l)) ∧
      FetchesWord (issued (strips l)) (fetched (strips l)) 0x4010874080000000) ∧
    decode 0x4010874080000000 = .ok (.vadd ⟨1, 1, .sca 26, 0, .i32, ⟨0, false, .rne, false⟩⟩) ∧
    (∀ l ∈ [[], rival], let u := fetched (strips l)
      u.beats (.vadd ⟨1, 1, .sca 26, 0, .i32, ⟨0, false, .rne, false⟩⟩) = some 1 ∧
      (u.refreshReady u.readyHere).choose u.readyHere = some l.length) ∧
    (∀ g, g / 4 = (fetched (strips [])).here / 4 → g ≠ (fetched (strips [])).here → ((fetched (strips [])).ctxAt g).status ≠ .bound) := by
  refine ⟨?_, by decide +kernel, by decide +kernel, ?_⟩
  · intro l hl
    simp only [List.mem_cons, List.not_mem_nil, or_false] at hl
    obtain rfl | rfl := hl <;>
      exact ⟨free_of (by decide +kernel), rfl, fetches_of (by decide +kernel)⟩
  · have h : (fetched (strips [])).here = 0 := by decide +kernel
    rw [h]
    intro g hg hne
    obtain rfl | rfl | rfl : g = 1 ∨ g = 2 ∨ g = 3 := by omega
    all_goals decide +kernel

/-- x7 is not yet written, and STALL is asked for. -/
def early : State := atWord 0x02041CE000000000 fun c => { c with sbc := true, pending := [⟨7, 1, c.slot + 9, 0x40⟩] }

theorem witness_StepRunsDecoded_stall : Free early ∧ exec .fixedLatencyWriteback early = .next (issued early) ∧
    FetchesWord (issued early) (fetched early) 0x02041CE000000000 ∧ (fetched early).c.sbc = true ∧
    xreads (.add 8 7 (.reg 7)) = [] ++ 7 :: [7] ∧ (fetched early).c.pending = [] ++ ⟨7, 1, early.c.slot + 9, 0x40⟩ :: [] :=
  ⟨free_of (by decide +kernel), rfl, fetches_of (by decide +kernel), by decide +kernel, by decide, by decide +kernel⟩

end Sys2Proof.Machine
end

