-- ==== Sys2Proof/Proofs/Codes.lean ====
section
/-! What the decoder's monad and its field readers answer: each as an equivalence with the encoder's field. -/

namespace Sys2Proof

/-! Results of the decoder's monad. -/

section
variable {α β : Type}

@[simp] theorem ok_bind {a : α} {f : α → Dec β} : (Except.ok a : Dec α) >>= f = f a := rfl
@[simp] theorem ok_map {a : α} {f : α → β} : (f <$> (Except.ok a : Dec α)) = .ok (f a) := rfl
@[simp] theorem need_true {e : DecodeError} : need true e = .ok () := rfl
@[simp] theorem orErr_some {e : DecodeError} {a : α} : orErr e (some a) = .ok a := rfl
@[simp] theorem bind_eq_ok {x : Dec α} {f : α → Dec β} {b : β} : (x >>= f) = .ok b ↔ ∃ a, x = .ok a ∧ f a = .ok b := by
  cases x <;> simp [bind, Except.bind]
@[simp] theorem map_eq_ok {x : Dec α} {f : α → β} {b : β} : (f <$> x) = .ok b ↔ ∃ a, x = .ok a ∧ f a = b := by
  cases x <;> simp [Functor.map, Except.map]
@[simp] theorem pure_eq_ok {a b : α} : (pure a : Dec α) = .ok b ↔ a = b := by simp [pure, Except.pure]
@[simp] theorem need_eq_ok {c : Bool} {e : DecodeError} {u : Unit} : need c e = .ok u ↔ c = true := by cases c <;> simp [need]
@[simp] theorem orErr_eq_ok {e : DecodeError} {o : Option α} {a : α} : orErr e o = .ok a ↔ o = some a := by
  cases o <;> simp [orErr]

end

/-! Parts of a field. -/

theorem eq_ofNat {w n : Nat} {x : BitVec w} (h : x.toNat = n) : x = BitVec.ofNat w n := by
  rw [← h, BitVec.ofNat_toNat, BitVec.setWidth_eq]

/-- A field of two parts is its parts. -/
theorem eq_append_iff {m n : Nat} {x : BitVec (m + n)} {a : BitVec m} {b : BitVec n} :
    x = a ++ b ↔ x.extractLsb' n m = a ∧ x.extractLsb' 0 n = b := by
  constructor
  · rintro rfl
    simp (disch := omega) [BitVec.extractLsb'_append_eq_of_le, BitVec.extractLsb'_append_eq_of_add_le]
  · rintro ⟨rfl, rfl⟩
    rw [BitVec.extractLsb'_append_extractLsb'_eq_extractLsb' (by omega), BitVec.extractLsb'_eq_self]

/-- A field of three parts is its parts. -/
theorem eq_append_append_iff {l m n : Nat} {x : BitVec (l + m + n)} {a : BitVec l} {b : BitVec m} {c : BitVec n} :
    x = a ++ b ++ c ↔ x.extractLsb' (n + m) l = a ∧ x.extractLsb' n m = b ∧ x.extractLsb' 0 n = c := by
  constructor
  · rintro rfl
    simp (disch := omega) [BitVec.extractLsb'_append_eq_of_le, BitVec.extractLsb'_append_eq_of_add_le]
  · rintro ⟨rfl, rfl, rfl⟩
    rw [BitVec.extractLsb'_append_extractLsb'_eq_extractLsb' rfl, BitVec.extractLsb'_append_extractLsb'_eq_extractLsb' (by omega),
      BitVec.extractLsb'_eq_self]

/-- IMM32 of svl and of the atomics: two codes below zeros (R23). -/
theorem imm32_eq {x : BitVec 32} {a : BitVec 2} {b : BitVec 4} :
    x = 0#26 ++ a ++ b ↔ x.extractLsb' 6 26 = 0#26 ∧ x.extractLsb' 4 2 = a ∧ x.extractLsb' 0 4 = b :=
  eq_append_append_iff (l := 26) (m := 2) (n := 4)

/-- EXT16 of FORM 00 (R17). -/
theorem ext0_eq {x : BitVec 16} {vc : BitVec 5} {md : BitVec 3} :
    x = ext0 vc md ↔ x.extractLsb' 11 5 = vc ∧ x.extractLsb' 8 3 = md ∧ x.extractLsb' 0 8 = 0#8 :=
  eq_append_append_iff (l := 5) (m := 3) (n := 8)

/-! Field codes. -/

@[simp] theorem fld5_eq {b : BitVec 5} {r : Fin 32} : fld5 b = r ↔ b = bits5 r := ⟨fun h => h ▸ rfl, fun h => h ▸ rfl⟩
@[simp] theorem fld4_eq {b : BitVec 4} {r : Fin 16} : fld4 b = r ↔ b = bits4 r := ⟨fun h => h ▸ rfl, fun h => h ▸ rfl⟩
@[simp] theorem fld3_eq {b : BitVec 3} {r : Fin 8} : fld3 b = r ↔ b = bits3 r := ⟨fun h => h ▸ rfl, fun h => h ▸ rfl⟩
@[simp] theorem fld2_eq {b : BitVec 2} {r : Fin 4} : fld2 b = r ↔ b = bits2 r := ⟨fun h => h ▸ rfl, fun h => h ▸ rfl⟩
@[simp] theorem flag_eq {b : BitVec 1} {f : Bool} : flag b = f ↔ b = flagBit f := by revert b f; decide
@[simp] theorem bits5_fld5 (b : BitVec 5) : bits5 (fld5 b) = b := rfl
@[simp] theorem bits4_fld4 (b : BitVec 4) : bits4 (fld4 b) = b := rfl
@[simp] theorem bits3_fld3 (b : BitVec 3) : bits3 (fld3 b) = b := rfl
@[simp] theorem bits2_fld2 (b : BitVec 2) : bits2 (fld2 b) = b := rfl
@[simp] theorem flagBit_flag (b : BitVec 1) : flagBit (flag b) = b := (flag_eq.1 rfl).symm
@[simp] theorem fld5_bits5 (r : Fin 32) : fld5 (bits5 r) = r := rfl
@[simp] theorem fld4_bits4 (r : Fin 16) : fld4 (bits4 r) = r := rfl
@[simp] theorem fld3_bits3 (r : Fin 8) : fld3 (bits3 r) = r := rfl
@[simp] theorem fld2_bits2 (r : Fin 4) : fld2 (bits2 r) = r := rfl
@[simp] theorem bits5_zero : bits5 0 = 0#5 := rfl
@[simp] theorem flag_flagBit (f : Bool) : flag (flagBit f) = f := flag_eq.2 rfl

@[simp] theorem Fmt.ofCode_eq {c : BitVec 4} {f : Fmt} : Fmt.ofCode c = some f ↔ c = f.code := by revert c; cases f <;> decide
@[simp] theorem Rnd.ofCode_eq {c : BitVec 3} {r : Rnd} : Rnd.ofCode c = some r ↔ c = r.code := by revert c; cases r <;> decide
@[simp] theorem Scope.ofCode_eq {c : BitVec 4} {x : Scope} : Scope.ofCode c = some x ↔ c = x.code := by revert c; cases x <;> decide
@[simp] theorem Cls.ofCode_eq {c : BitVec 4} {x : Cls} : Cls.ofCode c = some x ↔ c = x.code := by revert c; cases x <;> decide
@[simp] theorem Iop.ofCode_eq {c : BitVec 4} {x : Iop} : Iop.ofCode c = some x ↔ c = x.code := by revert c; cases x <;> decide
@[simp] theorem DField.ofCode_eq {c : BitVec 4} {x : DField} : DField.ofCode c = some x ↔ c = x.code := by
  revert c; cases x <;> decide
@[simp] theorem Blk.ofCode_eq {c : BitVec 2} {x : Blk} : Blk.ofCode c = x ↔ c = x.code := by revert c; cases x <;> decide
@[simp] theorem Order.ofCode_eq {c : BitVec 2} {x : Order} : Order.ofCode c = x ↔ c = x.code := by revert c; cases x <;> decide
@[simp] theorem rankOf_eq {c : BitVec 4} {k : CellRank} : rankOf c = some k ↔ c = rankCode k := by revert c k; decide
@[simp] theorem axisOf_eq {c : BitVec 4} {k : Axis} : axisOf c = some k ↔ c = axisCode k := by revert c k; decide

@[simp] theorem Fmt.ofCode_code (f : Fmt) : Fmt.ofCode f.code = some f := Fmt.ofCode_eq.2 rfl
@[simp] theorem Rnd.ofCode_code (r : Rnd) : Rnd.ofCode r.code = some r := Rnd.ofCode_eq.2 rfl
@[simp] theorem Scope.ofCode_code (x : Scope) : Scope.ofCode x.code = some x := Scope.ofCode_eq.2 rfl
@[simp] theorem Cls.ofCode_code (x : Cls) : Cls.ofCode x.code = some x := Cls.ofCode_eq.2 rfl
@[simp] theorem Iop.ofCode_code (x : Iop) : Iop.ofCode x.code = some x := Iop.ofCode_eq.2 rfl
@[simp] theorem DField.ofCode_code (x : DField) : DField.ofCode x.code = some x := DField.ofCode_eq.2 rfl
@[simp] theorem Blk.ofCode_code (x : Blk) : Blk.ofCode x.code = x := Blk.ofCode_eq.2 rfl
@[simp] theorem Order.ofCode_code (x : Order) : Order.ofCode x.code = x := Order.ofCode_eq.2 rfl
@[simp] theorem rankOf_rankCode (k : CellRank) : rankOf (rankCode k) = some k := rankOf_eq.2 rfl
@[simp] theorem axisOf_axisCode (k : Axis) : axisOf (axisCode k) = some k := axisOf_eq.2 rfl

@[simp] theorem assayOf_eq {c : BitVec 12} {a : Fin 256} : assayOf c = some a ↔ c = BitVec.ofNat 12 a.val := by
  unfold assayOf
  constructor
  · intro h
    split at h <;> cases h
    exact eq_ofNat rfl
  · rintro rfl
    have ha : (BitVec.ofNat 12 a.val).toNat = a.val := by simp; omega
    simp [ha]

@[simp] theorem ClaspId.ofCode_eq {c : BitVec 12} {x : ClaspId} : ClaspId.ofCode c = some x ↔ c = x.code := by
  unfold ClaspId.ofCode
  constructor
  · intro h
    split at h
    · cases h
      exact eq_ofNat rfl
    · split at h <;> cases h
      next hc => exact eq_ofNat (by show _ = 256 + (c.toNat - 256); omega)
  · rintro rfl
    cases x with
    | cluster i =>
      have hi : (BitVec.ofNat 12 i.val).toNat = i.val := by simp; omega
      simp [ClaspId.code, hi]
    | die i =>
      have hi : (BitVec.ofNat 12 (256 + i.val)).toNat = 256 + i.val := by simp; omega
      rw [ClaspId.code, dif_neg (by omega), dif_pos (by omega)]
      simp [hi]

@[simp] theorem Csr.ofCode_eq {c : BitVec 12} {x : Csr} : Csr.ofCode c = some x ↔ c = x.code := by
  constructor
  · intro h
    unfold Csr.ofCode at h
    split at h <;> cases h <;> rename_i hc <;> exact eq_ofNat hc
  · rintro rfl
    cases x with
    | fmsk n => revert n; decide
    | watch n => revert n; decide
    | _ => rfl

@[simp] theorem assayOf_ofNat (a : Fin 256) : assayOf (BitVec.ofNat 12 a.val) = some a := assayOf_eq.2 rfl
@[simp] theorem ClaspId.ofCode_code (x : ClaspId) : ClaspId.ofCode x.code = some x := ClaspId.ofCode_eq.2 rfl
@[simp] theorem Csr.ofCode_code (x : Csr) : Csr.ofCode x.code = some x := Csr.ofCode_eq.2 rfl

/-- A mask in a five-bit field (R24). -/
@[simp] theorem maskOf_eq {b : BitVec 5} {m : MReg} : maskOf b = .ok m ↔ b = mbits m := by
  simp [maskOf, mbits, eq_append_iff (m := 2) (n := 3)]
@[simp] theorem maskOf_mbits (m : MReg) : maskOf (mbits m) = .ok m := maskOf_eq.2 rfl

/-! Formats (R17): a word's body is the fields of its record. -/

theorem RawS.ofBody_pack (r : RawS) : RawS.ofBody r.pack = r := by
  simp (disch := decide) only [RawS.ofBody, RawS.pack, BitVec.extractLsb'_append_eq_of_le, BitVec.extractLsb'_append_eq_of_add_le,
    BitVec.extractLsb'_eq_self, Nat.reduceSub]
theorem RawS.pack_ofBody (b : BitVec 52) : (RawS.ofBody b).pack = b := by
  simp (disch := decide) only [RawS.ofBody, RawS.pack, BitVec.extractLsb'_append_extractLsb'_eq_extractLsb', BitVec.extractLsb'_eq_self]
theorem RawB.ofBody_pack (r : RawB) : RawB.ofBody r.pack = r := by
  simp (disch := decide) only [RawB.ofBody, RawB.pack, BitVec.extractLsb'_append_eq_of_le, BitVec.extractLsb'_append_eq_of_add_le,
    BitVec.extractLsb'_eq_self, Nat.reduceSub]
theorem RawB.pack_ofBody (b : BitVec 52) : (RawB.ofBody b).pack = b := by
  simp (disch := decide) only [RawB.ofBody, RawB.pack, BitVec.extractLsb'_append_extractLsb'_eq_extractLsb', BitVec.extractLsb'_eq_self]
theorem RawM.ofBody_pack (r : RawM) : RawM.ofBody r.pack = r := by
  simp (disch := decide) only [RawM.ofBody, RawM.pack, BitVec.extractLsb'_append_eq_of_le, BitVec.extractLsb'_append_eq_of_add_le,
    BitVec.extractLsb'_eq_self, Nat.reduceSub]
theorem RawM.pack_ofBody (b : BitVec 52) : (RawM.ofBody b).pack = b := by
  simp (disch := decide) only [RawM.ofBody, RawM.pack, BitVec.extractLsb'_append_extractLsb'_eq_extractLsb', BitVec.extractLsb'_eq_self]
theorem RawV.ofBody_pack (r : RawV) : RawV.ofBody r.pack = r := by
  simp (disch := decide) only [RawV.ofBody, RawV.pack, BitVec.extractLsb'_append_eq_of_le, BitVec.extractLsb'_append_eq_of_add_le,
    BitVec.extractLsb'_eq_self, Nat.reduceSub]
theorem RawV.pack_ofBody (b : BitVec 52) : (RawV.ofBody b).pack = b := by
  simp (disch := decide) only [RawV.ofBody, RawV.pack, BitVec.extractLsb'_append_extractLsb'_eq_extractLsb', BitVec.extractLsb'_eq_self]
theorem RawVM.ofBody_pack (r : RawVM) : RawVM.ofBody r.pack = r := by
  simp (disch := decide) only [RawVM.ofBody, RawVM.pack, BitVec.extractLsb'_append_eq_of_le, BitVec.extractLsb'_append_eq_of_add_le,
    BitVec.extractLsb'_eq_self, Nat.reduceSub]
theorem RawVM.pack_ofBody (b : BitVec 52) : (RawVM.ofBody b).pack = b := by
  simp (disch := decide) only [RawVM.ofBody, RawVM.pack, BitVec.extractLsb'_append_extractLsb'_eq_extractLsb', BitVec.extractLsb'_eq_self]
theorem RawA.ofBody_pack (r : RawA) : RawA.ofBody r.pack = r := by
  simp (disch := decide) only [RawA.ofBody, RawA.pack, BitVec.extractLsb'_append_eq_of_le, BitVec.extractLsb'_append_eq_of_add_le,
    BitVec.extractLsb'_eq_self, Nat.reduceSub]
theorem RawA.pack_ofBody (b : BitVec 52) : (RawA.ofBody b).pack = b := by
  simp (disch := decide) only [RawA.ofBody, RawA.pack, BitVec.extractLsb'_append_extractLsb'_eq_extractLsb', BitVec.extractLsb'_eq_self]
theorem RawX.ofBody_pack (r : RawX) : RawX.ofBody r.pack = r := by
  simp (disch := decide) only [RawX.ofBody, RawX.pack, BitVec.extractLsb'_append_eq_of_le, BitVec.extractLsb'_append_eq_of_add_le,
    BitVec.extractLsb'_eq_self, Nat.reduceSub]
theorem RawX.pack_ofBody (b : BitVec 52) : (RawX.ofBody b).pack = b := by
  simp (disch := decide) only [RawX.ofBody, RawX.pack, BitVec.extractLsb'_append_extractLsb'_eq_extractLsb', BitVec.extractLsb'_eq_self]
theorem RawE.ofBody_pack (r : RawE) : RawE.ofBody r.pack = r := by
  simp (disch := decide) only [RawE.ofBody, RawE.pack, BitVec.extractLsb'_append_eq_of_le, BitVec.extractLsb'_append_eq_of_add_le,
    BitVec.extractLsb'_eq_self, Nat.reduceSub]
theorem RawE.pack_ofBody (b : BitVec 52) : (RawE.ofBody b).pack = b := by
  simp (disch := decide) only [RawE.ofBody, RawE.pack, BitVec.extractLsb'_append_extractLsb'_eq_extractLsb', BitVec.extractLsb'_eq_self]
theorem RawC.ofBody_pack (r : RawC) : RawC.ofBody r.pack = r := by
  simp (disch := decide) only [RawC.ofBody, RawC.pack, BitVec.extractLsb'_append_eq_of_le, BitVec.extractLsb'_append_eq_of_add_le,
    BitVec.extractLsb'_eq_self, Nat.reduceSub]
theorem RawC.pack_ofBody (b : BitVec 52) : (RawC.ofBody b).pack = b := by
  simp (disch := decide) only [RawC.ofBody, RawC.pack, BitVec.extractLsb'_append_extractLsb'_eq_extractLsb', BitVec.extractLsb'_eq_self]

/-- The common fields of a word (R13). -/
theorem Parts.ofWord_pack (p : Parts) : Parts.ofWord p.pack = p := by
  simp (disch := decide) only [Parts.ofWord, Parts.pack, BitVec.extractLsb'_append_eq_of_le, BitVec.extractLsb'_append_eq_of_add_le,
    BitVec.extractLsb'_eq_self, Nat.reduceSub]
theorem Parts.pack_ofWord (w : Word) : (Parts.ofWord w).pack = w := by
  simp (disch := decide) only [Parts.ofWord, Parts.pack, BitVec.extractLsb'_append_extractLsb'_eq_extractLsb', BitVec.extractLsb'_eq_self]

end Sys2Proof
end

