-- ==== Sys2Proof/Proofs/Operands.lean ====
section
/-! What each reader of operands answers: a record holds an operand if and only if the encoder writes that record for it. -/

namespace Sys2Proof

/-! A format's fields are determined by its word. -/

section
variable {op : BitVec 7} {f g : BitVec 2}

@[simp] theorem encS_inj {r q : RawS} : encS op f r = encS op g q ↔ f = g ∧ r = q := by
  simp [encS, (Function.LeftInverse.injective RawS.ofBody_pack).eq_iff]
@[simp] theorem encV_inj {r q : RawV} : encV op f r = encV op g q ↔ f = g ∧ r = q := by
  simp [encV, (Function.LeftInverse.injective RawV.ofBody_pack).eq_iff]
@[simp] theorem encA_inj {r q : RawA} : encA op f r = encA op g q ↔ f = g ∧ r = q := by
  simp [encA, (Function.LeftInverse.injective RawA.ofBody_pack).eq_iff]

end

/-! Format S (R23). -/

theorem xsrcOf_eq_ok {form : BitVec 2} {r : RawS} {b : XSrc} (op : BitVec 7) :
    xsrcOf form r = .ok b ↔ encS op form r = encXs op r.fn (fld5 r.xd) (fld5 r.xa) b := by
  obtain ⟨xd, xa, xb, fn, imm⟩ := r
  cases b <;> unfold xsrcOf <;> split_ifs <;> simp_all [encXs, and_comm]

/-! Format V (R24, R30). -/

theorem vmodsOf_eq_ok {r : RawV} {m : VMods} : vmodsOf r = .ok m ↔
    r.z = 0 ∧ r.grp = bits2 m.grp ∧ r.u = flagBit m.u ∧ r.rnd = m.rnd.code ∧ r.sat = flagBit m.sat := by
  obtain ⟨g, u, rnd, sat⟩ := m
  simp [vmodsOf]
  tauto

theorem vsrcOf_eq_ok {form : BitVec 2} {r : RawV} {b : VSrc} (op : BitVec 7) :
    vsrcOf form r = .ok b ↔ encV op form r = encVs op b { r with vb := 0, ext := 0 } := by
  obtain ⟨vd, va, vb, pm, fmt, fn, grp, ext, u, rnd, sat, z⟩ := r
  cases b <;> unfold vsrcOf <;> split_ifs <;> simp_all [encVs, and_comm]

theorem vcountOf_eq_ok {form : BitVec 2} {r : RawV} {n : VCount} (op : BitVec 7) :
    vcountOf form r = .ok n ↔ encV op form r = encVcount op n { r with vb := 0, ext := 0 } := by
  obtain ⟨vd, va, vb, pm, fmt, fn, grp, ext, u, rnd, sat, z⟩ := r
  cases n <;> unfold vcountOf <;> split_ifs <;> simp_all [encVcount, and_comm]

section
variable {form : BitVec 2} {r : RawV} (op : BitVec 7)

theorem binOf_eq_ok {o : VBinOp} : binOf form r = .ok o ↔ encV op form r = encBin op r.fn o := by
  obtain ⟨ovd, ova, b, opm, ofmt, om⟩ := o
  obtain ⟨vd, va, vb, pm, fmt, fn, grp, ext, u, rnd, sat, z⟩ := r
  cases b <;> simp [binOf, vmodsOf_eq_ok, vsrcOf_eq_ok op, encBin, encVs, RawV.withMods] <;> tauto

theorem ternOf_eq_ok {o : VTernOp} : ternOf form r = .ok o ↔ encV op form r = encTern op r.fn o := by
  obtain ⟨ovd, ova, ovb, ovc, opm, ofmt, om⟩ := o
  obtain ⟨vd, va, vb, pm, fmt, fn, grp, ext, u, rnd, sat, z⟩ := r
  simp [ternOf, vmodsOf_eq_ok, encTern, RawV.withMods, RawV.vc, RawV.md, RawV.lo, ext0_eq]
  tauto

theorem carryOf_eq_ok {o : VCarryOp} : carryOf form r = .ok o ↔ encV 0x20 form r = encCarry r.fn o := by
  obtain ⟨ovd, omd, ova, ovb, opm, ofmt, om⟩ := o
  obtain ⟨vd, va, vb, pm, fmt, fn, grp, ext, u, rnd, sat, z⟩ := r
  simp [carryOf, vmodsOf_eq_ok, encCarry, RawV.withMods, RawV.vc, RawV.md, RawV.lo, ext0_eq]
  tauto

theorem unOf_eq_ok {o : VUnOp} : unOf form r = .ok o ↔ encV op form r = encUn op r.fn o := by
  obtain ⟨ovd, ova, opm, ofmt, om⟩ := o
  obtain ⟨vd, va, vb, pm, fmt, fn, grp, ext, u, rnd, sat, z⟩ := r
  simp [unOf, vmodsOf_eq_ok, encUn, RawV.withMods]
  tauto

theorem pairOf_eq_ok {o : VPairOp} : pairOf form r = .ok o ↔ encV op form r = encPair op r.fn o := by
  obtain ⟨ovd, ova, ovb, opm, ofmt, om⟩ := o
  obtain ⟨vd, va, vb, pm, fmt, fn, grp, ext, u, rnd, sat, z⟩ := r
  simp [pairOf, vmodsOf_eq_ok, encPair, RawV.withMods]
  tauto

end

/-! Formats VM, A and X (R25 to R27). -/

theorem vmCheck_eq_ok {form : BitVec 2} {r : RawVM} {load planes : Bool} {f : Fmt} : vmCheck form r load planes = .ok f ↔
    form = 0 ∧ r.z = 0 ∧ (planes = true ∨ r.pl = 0) ∧ (load = true ∨ r.hm = 0) ∧ r.fmt = f.code := by
  simp [vmCheck, and_assoc]

theorem planeCheck_eq_ok {r : RawVM} {f : Fmt} {u : Unit} : planeCheck r f = .ok u ↔ f = .bp ∧ r.grp = 0 := by
  simp [planeCheck]

theorem arrPair_eq_ok {r : RawA} {o : ArrPairOp} : arrPair r = .ok o ↔
    r = { r with dd := bits4 o.dd, da := bits4 o.da, db := bits4 o.db, ka := rankCode o.ka, kb := rankCode o.kb } := by
  obtain ⟨odd, oda, odb, oka, okb⟩ := o
  obtain ⟨dd, da, db, ka, kb, ax, iop, imm, fn⟩ := r
  simp [arrPair]
  tauto

theorem acountOf_eq_ok {form : BitVec 2} {r : RawA} {n : ACount} (op : BitVec 7) :
    acountOf form r = .ok n ↔ encA op form r = encAcount op n { r with imm := 0 } := by
  obtain ⟨dd, da, db, ka, kb, ax, iop, imm, fn⟩ := r
  cases n <;> unfold acountOf <;> split_ifs <;> simp_all [encAcount, eq_append_iff (m := 5) (n := 15), and_comm]

/-- A tile index is never x0 (R27). -/
theorem idxOf_eq_ok {r : RawX} {ix : TileIdx} :
    idxOf r = .ok ix ↔ ix ≠ .reg 0 ∧ r = ({ r with xn := 0, idx := 0 }).withIdx ix := by
  obtain ⟨td, da, db, xn, vs, ts, fn, idx, col, fmt, rpt, z⟩ := r
  unfold idxOf
  cases ix with
  | imm v =>
    have hv : idx.toNat = v.val ↔ idx = BitVec.ofNat 8 v.val := by
      rw [← BitVec.toNat_inj, BitVec.toNat_ofNat, Nat.mod_eq_of_lt (by omega)]
    split_ifs with hx hi <;> simp_all [RawX.withIdx, Fin.ext_iff]
    exact fun h => by have := hv.2 h; omega
  | reg x =>
    have h0 : bits5 x = 0#5 ↔ x = 0 := by revert x; decide
    split_ifs with hx hi <;> simp_all [RawX.withIdx, eq_comm (a := 0#5)]
    exact fun h hx0 => hx (h.trans (h0.2 hx0))

end Sys2Proof
end

