-- ==== Sys2Proof/Proofs/Rows.lean ====
section
/-! The rows of R22: what FN picks from a table of the decoder is what the encoder writes under that FN. -/

namespace Sys2Proof

section
variable {fn : BitVec 5}

theorem xaluOp_row {c} (h : xaluOp fn = some c) (rd ra : XReg) (b : XSrc) : encBody (c rd ra b) = encXs 0x01 fn rd ra b := by
  unfold xaluOp at h
  split at h <;> cases h <;> rename_i hn <;> rw [eq_ofNat hn] <;> rfl
theorem xaluUn_row {c} (h : xaluUn fn = some c) (rd ra : XReg) : encBody (c rd ra) = encS 0x01 0 { xd := bits5 rd, xa := bits5 ra, fn := fn } := by
  unfold xaluUn at h
  split at h <;> cases h <;> rename_i hn <;> rw [eq_ofNat hn] <;> rfl
theorem xmemOp_row {c} (h : xmemOp fn = some c) (rd ra : XReg) (b : XSrc) : encBody (c rd ra b) = encXs 0x03 fn rd ra b := by
  unfold xmemOp at h
  split at h <;> cases h <;> rename_i hn <;> rw [eq_ofNat hn] <;> rfl
theorem xamoOp_row {c} (h : xamoOp fn = some c) (o : AmoOp) : encBody (c o) = encAmo fn o := by
  unfold xamoOp at h
  split at h <;> cases h <;> rename_i hn <;> rw [eq_ofNat hn] <;> rfl
theorem brOp_row {c} (h : brOp fn = some c) (ra rb : XReg) (off : BitVec 32) : encBody (c ra rb off) = encB 0x08 { xa := bits5 ra, xb := bits5 rb, fn := fn, off := off } := by
  unfold brOp at h
  split at h <;> cases h <;> rename_i hn <;> rw [eq_ofNat hn] <;> rfl

end

section
variable {fn : BitVec 4}

theorem viaOp_row {c} (h : viaOp fn = some c) (o : VBinOp) : encBody (c o) = encBin 0x20 fn o := by
  unfold viaOp at h
  split at h <;> cases h <;> rename_i hn <;> rw [eq_ofNat hn] <;> rfl
theorem viaCarry_row {c} (h : viaCarry fn = some c) (o : VCarryOp) : encBody (c o) = encCarry fn o := by
  unfold viaCarry at h
  split at h <;> cases h <;> rename_i hn <;> rw [eq_ofNat hn] <;> rfl
theorem vcmpOp_row {c} (h : vcmpOp fn = some c) (o : VCmpOp) : encBody (c o) = encCmp fn o := by
  unfold vcmpOp at h
  split at h <;> cases h <;> rename_i hn <;> rw [eq_ofNat hn] <;> rfl
theorem vfaBin_row {c} (h : vfaBin fn = some c) (o : VBinOp) : encBody (c o) = encBin 0x22 fn o := by
  unfold vfaBin at h
  split at h <;> cases h <;> rename_i hn <;> rw [eq_ofNat hn] <;> rfl
theorem vfaTern_row {c} (h : vfaTern fn = some c) (o : VTernOp) : encBody (c o) = encTern 0x22 fn o := by
  unfold vfaTern at h
  split at h <;> cases h <;> rename_i hn <;> rw [eq_ofNat hn] <;> rfl
theorem vfaUn_row {c} (h : vfaUn fn = some c) (o : VUnOp) : encBody (c o) = encUn 0x22 fn o := by
  unfold vfaUn at h
  split at h <;> cases h <;> rename_i hn <;> rw [eq_ofNat hn] <;> rfl
theorem vcvtOp_row {c} (h : vcvtOp fn = some c) (o : VCvtOp) : encBody (c o) = encCvt fn o := by
  unfold vcvtOp at h
  split at h <;> cases h <;> rename_i hn <;> rw [eq_ofNat hn] <;> rfl
theorem vqntOp_row {c} (h : vqntOp fn = some c) (o : VQntOp) : encBody (c o) = encQnt fn o := by
  unfold vqntOp at h
  split at h <;> cases h <;> rename_i hn <;> rw [eq_ofNat hn] <;> rfl
theorem vmskBin_row {c} (h : vmskBin fn = some c) (md ma mb : MReg) (m : VMods) : encBody (c md ma mb m) = encMsk fn (mbits md) (mbits ma) (mbits mb) m := by
  unfold vmskBin at h
  split at h <;> cases h <;> rename_i hn <;> rw [eq_ofNat hn] <;> rfl
theorem vmskUn_row {c} (h : vmskUn fn = some c) (md ma : MReg) (m : VMods) : encBody (c md ma m) = encMsk fn (mbits md) (mbits ma) 0 m := by
  unfold vmskUn at h
  split at h <;> cases h <;> rename_i hn <;> rw [eq_ofNat hn] <;> rfl
theorem vmskShift_row {c} (h : vmskShift fn = some c) (md ma : MReg) (n : VCount) (m : VMods) : encBody (c md ma n m) = encMskCount fn (mbits md) (mbits ma) n m := by
  unfold vmskShift at h
  split at h <;> cases h <;> rename_i hn <;> rw [eq_ofNat hn] <;> rfl
theorem vmskX_row {c} (h : vmskX fn = some c) (rd : XReg) (ma : MReg) (m : VMods) : encBody (c rd ma m) = encMsk fn (bits5 rd) (mbits ma) 0 m := by
  unfold vmskX at h
  split at h <;> cases h <;> rename_i hn <;> rw [eq_ofNat hn] <;> rfl
theorem vpermSlide_row {c} (h : vpermSlide fn = some c) (o : VSlideOp) : encBody (c o) = encSlide fn o := by
  unfold vpermSlide at h
  split at h <;> cases h <;> rename_i hn <;> rw [eq_ofNat hn] <;> rfl
theorem vpermUn_row {c} (h : vpermUn fn = some c) (o : VUnOp) : encBody (c o) = encUn 0x25 fn o := by
  unfold vpermUn at h
  split at h <;> cases h <;> rename_i hn <;> rw [eq_ofNat hn] <;> rfl
theorem vredOp_row {c} (h : vredOp fn = some c) (o : VUnOp) : encBody (c o) = encUn 0x26 fn o := by
  unfold vredOp at h
  split at h <;> cases h <;> rename_i hn <;> rw [eq_ofNat hn] <;> rfl
theorem vrngOp_row {c} (h : vrngOp fn = some c) (o : VRngOp) : encBody (c o) = encRng fn o := by
  unfold vrngOp at h
  split at h <;> cases h <;> rename_i hn <;> rw [eq_ofNat hn] <;> rfl
theorem vamoOp_row {c} (h : vamoOp fn = some c) (o : VmStxOp) : encBody (c o) = encStx 0x32 fn o := by
  unfold vamoOp at h
  split at h <;> cases h <;> rename_i hn <;> rw [eq_ofNat hn] <;> rfl
theorem aeltBin_row {c} (h : aeltBin fn = some c) (o : ArrPairOp) : encBody (c o) = encArrPair 0x40 fn o 0 0 := by
  unfold aeltBin at h
  split at h <;> cases h <;> rename_i hn <;> rw [eq_ofNat hn] <;> rfl
theorem aeltUn_row {c} (h : aeltUn fn = some c) (dd da : DReg) (k : CellRank) : encBody (c dd da k) = encArrUn fn dd da k := by
  unfold aeltUn at h
  split at h <;> cases h <;> rename_i hn <;> rw [eq_ofNat hn] <;> rfl
theorem astrRed_row {c} (h : astrRed fn = some c) (o : ArrRedOp) : encBody (c o) = encArrRed fn o := by
  unfold astrRed at h
  split at h <;> cases h <;> rename_i hn <;> rw [eq_ofNat hn] <;> rfl
theorem astrCount_row {c} (h : astrCount fn = some c) (o : ArrCountOp) : encBody (c o) = encArrCount fn o := by
  unfold astrCount at h
  split at h <;> cases h <;> rename_i hn <;> rw [eq_ofNat hn] <;> rfl
theorem astrPlain_row {c} (h : astrPlain fn = some c) (dd da db : DReg) : encBody (c dd da db) = encArrPlain fn dd da db := by
  unfold astrPlain at h
  split at h <;> cases h <;> rename_i hn <;> rw [eq_ofNat hn] <;> rfl
theorem astrAxis_row {c} (h : astrAxis fn = some c) (o : ArrPairOp) (ax : Axis) : encBody (c o ax) = encArrPair 0x41 fn o (axisCode ax) 0 := by
  unfold astrAxis at h
  split at h <;> cases h <;> rename_i hn <;> rw [eq_ofNat hn] <;> rfl
theorem csrOp_row {c} (h : csrOp fn = some c) (k : Csr) (ra : XReg) : encBody (c k ra) = encC 0x10 { xa := bits5 ra, csel := k.code, fn := fn } := by
  unfold csrOp at h
  split at h <;> cases h <;> rename_i hn <;> rw [eq_ofNat hn] <;> rfl

end

end Sys2Proof
end

