-- ==== Sys2Proof/Proofs/Decoded.lean ====
section
/-! A word that a family decodes is the word of the instruction it decodes to. In each row the fields that the instruction does not
name are zero, and the others are its operands (R23 to R28). -/

namespace Sys2Proof

section
variable {form : BitVec 2} {r : RawS} {i : Instr}

theorem encBody_of_decXalu (h : decXalu form r = .ok i) : encBody i = encS 0x01 form r := by
  unfold decXalu at h
  split at h
  next c hc =>
    simp only [bind_eq_ok, pure_eq_ok] at h
    obtain ⟨b, hb, rfl⟩ := h
    rw [xaluOp_row hc, (xsrcOf_eq_ok 0x01).1 hb]
  next =>
    split at h
    next c hc =>
      obtain ⟨xd, xa, xb, fn, imm⟩ := r
      simp at h
      obtain ⟨rfl, ⟨rfl, rfl⟩, rfl⟩ := h
      exact xaluUn_row hc _ _
    next => cases h

theorem encBody_of_decXmov (h : decXmov form r = .ok i) : encBody i = encS 0x02 form r := by
  obtain ⟨xd, xa, xb, fn, imm⟩ := r
  unfold decXmov at h
  dsimp only at h
  split at h
  case h_5 => cases h
  all_goals
    rename_i hn
    simp at h
    casesm* _ ∧ _
    subst_vars
    rw [eq_ofNat hn]
    rfl

theorem encBody_of_decXmem (h : decXmem form r = .ok i) : encBody i = encS 0x03 form r := by
  simp only [decXmem, bind_eq_ok, pure_eq_ok, orErr_eq_ok] at h
  obtain ⟨c, hc, b, hb, rfl⟩ := h
  rw [xmemOp_row hc, (xsrcOf_eq_ok 0x03).1 hb]

theorem encBody_of_decXamo (h : decXamo form r = .ok i) : encBody i = encS 0x04 form r := by
  obtain ⟨xd, xa, xb, fn, imm⟩ := r
  simp [decXamo] at h
  obtain ⟨c, hc, rfl, hz, sc, hsc, rfl⟩ := h
  rw [xamoOp_row hc, encAmo, ← imm32_eq.2 ⟨hz, Order.ofCode_eq.1 rfl, hsc⟩]
  rfl

theorem encBody_of_decVcfg (h : decVcfg form r = .ok i) : encBody i = encS 0x0E form r := by
  obtain ⟨xd, xa, xb, fn, imm⟩ := r
  unfold decVcfg at h
  dsimp only at h
  generalize hb : Blk.ofCode (imm.extractLsb' 4 2) = blk at h
  split at h
  case h_3 => cases h
  all_goals
    rename_i hn
    simp at h
  · obtain ⟨rfl, ⟨rfl, hz⟩, f, hf, rfl⟩ := h
    rw [eq_ofNat hn, imm32_eq.2 ⟨hz, Blk.ofCode_eq.1 hb, hf⟩]
    rfl
  · casesm* _ ∧ _
    subst_vars
    rw [eq_ofNat hn]
    rfl

end

section
variable {form : BitVec 2} {r : RawB} {i : Instr}

theorem encBody_of_decBr (h : decBr form r = .ok i) : encBody i = some ⟨0x08, form, r.pack⟩ := by
  obtain ⟨xa, xb, fn, z, pm, off⟩ := r
  simp [decBr] at h
  obtain ⟨c, hc, rfl, ⟨rfl, rfl⟩, rfl⟩ := h
  exact brOp_row hc _ _ _

theorem encBody_of_decJmp (h : decJmp form r = .ok i) : encBody i = some ⟨0x09, form, r.pack⟩ := by
  obtain ⟨xa, xb, fn, z, pm, off⟩ := r
  unfold decJmp at h
  dsimp only at h
  split at h
  case h_3 => cases h
  all_goals
    rename_i hn
    simp at h
    casesm* _ ∧ _
    subst_vars
    rw [eq_ofNat hn]
    rfl

theorem encBody_of_decVbr (h : decVbr form r = .ok i) : encBody i = some ⟨0x0B, form, r.pack⟩ := by
  obtain ⟨xa, xb, fn, z, pm, off⟩ := r
  unfold decVbr at h
  dsimp only at h
  split at h
  case h_3 => cases h
  all_goals
    rename_i hn
    simp at h
    casesm* _ ∧ _
    subst_vars
    rw [eq_ofNat hn]
    rfl

theorem encBody_of_decLtc (h : decLtc form r = .ok i) : encBody i = some ⟨0x0C, form, r.pack⟩ := by
  obtain ⟨xa, xb, fn, z, pm, off⟩ := r
  simp [decLtc] at h
  obtain ⟨rfl, rfl, ⟨⟨rfl, rfl⟩, rfl⟩, rfl⟩ := h
  rfl

theorem encBody_of_decVtf (h : decVtf form r = .ok i) : encBody i = some ⟨0x0D, form, r.pack⟩ := by
  obtain ⟨xa, xb, fn, z, pm, off⟩ := r
  unfold decVtf at h
  dsimp only at h
  split at h
  case h_5 => cases h
  all_goals
    rename_i hn
    simp at h
    casesm* _ ∧ _
    subst_vars
    rw [eq_ofNat hn]
    rfl

end

theorem encBody_of_decSmb {form : BitVec 2} {r : RawM} {i : Instr} (h : decSmb form r = .ok i) :
    encBody i = some ⟨0x0A, form, r.pack⟩ := by
  simp [decSmb] at h
  obtain ⟨rfl, rfl⟩ := h
  rfl

theorem encBody_of_decEng {form : BitVec 2} {r : RawE} {i : Instr} (h : decEng form r = .ok i) :
    encBody i = some ⟨0x0F, form, r.pack⟩ := by
  obtain ⟨vc, grp, pm, mr, cls, xq, fn, z⟩ := r
  unfold decEng at h
  dsimp only at h
  split at h
  case h_4 => cases h
  all_goals
    rename_i hn
    simp at h
    casesm* _ ∧ _, ∃ _, _
    subst_vars
    rw [eq_ofNat hn]
    rfl

section
variable {form : BitVec 2} {r : RawC} {i : Instr}

theorem encBody_of_decSys (h : decSys form r = .ok i) : encBody i = some ⟨0x10, form, r.pack⟩ := by
  obtain ⟨xd, xa, csel, fn, scope, cla, clb, imm⟩ := r
  simp only [decSys, bind_eq_ok, need_eq_ok, beq_iff_eq, exists_const] at h
  obtain ⟨rfl, h⟩ := h
  split at h
  next c hc =>
    simp [cZero] at h
    casesm* _ ∧ _, ∃ _, _
    subst_vars
    exact csrOp_row hc _ _
  next =>
    split at h
    case h_8 => cases h
    all_goals
      rename_i hn
      simp [cZero] at h
      casesm* _ ∧ _, ∃ _, _
      subst_vars
      rw [eq_ofNat hn]
      rfl

theorem encBody_of_decFence (h : decFence form r = .ok i) : encBody i = some ⟨0x11, form, r.pack⟩ := by
  obtain ⟨xd, xa, csel, fn, scope, cla, clb, imm⟩ := r
  simp only [decFence, bind_eq_ok, need_eq_ok, beq_iff_eq, exists_const] at h
  obtain ⟨rfl, h⟩ := h
  split at h
  case h_6 => cases h
  all_goals
    rename_i hn
    simp [cZero] at h
    casesm* _ ∧ _, ∃ _, _
    subst_vars
    rw [eq_ofNat hn]
    rfl

theorem encBody_of_decCls (h : decCls form r = .ok i) : encBody i = some ⟨0x50, form, r.pack⟩ := by
  obtain ⟨xd, xa, csel, fn, scope, cla, clb, imm⟩ := r
  simp only [decCls, bind_eq_ok, need_eq_ok, beq_iff_eq, exists_const] at h
  obtain ⟨rfl, h⟩ := h
  split at h
  case h_8 => cases h
  all_goals
    rename_i hn
    simp [cZero] at h
    casesm* _ ∧ _, ∃ _, _
    subst_vars
    rw [eq_ofNat hn]
    rfl

theorem encBody_of_decAsy (h : decAsy form r = .ok i) : encBody i = some ⟨0x51, form, r.pack⟩ := by
  obtain ⟨xd, xa, csel, fn, scope, cla, clb, imm⟩ := r
  simp only [decAsy, bind_eq_ok, need_eq_ok, beq_iff_eq, exists_const] at h
  obtain ⟨rfl, h⟩ := h
  split at h
  case h_4 => cases h
  all_goals
    rename_i hn
    simp [cZero] at h
    casesm* _ ∧ _, ∃ _, _
    subst_vars
    rw [eq_ofNat hn]
    rfl

end

section
variable {form : BitVec 2} {r : RawV} {i : Instr}

/-- vmac is what the other rows of VIA leave (R22). -/
theorem vmac_fn {fn : BitVec 4} : viaOp fn = none → viaCarry fn = none → fn = 15 := by revert fn; decide

theorem encBody_of_decVia (h : decVia form r = .ok i) : encBody i = encV 0x20 form r := by
  unfold decVia at h
  split at h
  next c hc =>
    obtain ⟨o, ho, rfl⟩ := map_eq_ok.1 h
    rw [viaOp_row hc, (binOf_eq_ok 0x20).1 ho]
  next hc =>
    split at h
    next c hc =>
      obtain ⟨o, ho, rfl⟩ := map_eq_ok.1 h
      rw [viaCarry_row hc, carryOf_eq_ok.1 ho]
    next hc' =>
      obtain ⟨o, ho, rfl⟩ := map_eq_ok.1 h
      rw [(ternOf_eq_ok 0x20).1 ho, vmac_fn hc hc']
      rfl

theorem encBody_of_decVcmp (h : decVcmp form r = .ok i) : encBody i = encV 0x21 form r := by
  obtain ⟨vd, va, vb, pm, fmt, fn, grp, ext, u, rnd, sat, z⟩ := r
  simp [decVcmp, vmodsOf_eq_ok, vsrcOf_eq_ok 0x21] at h
  obtain ⟨c, hc, m, ⟨rfl, rfl, rfl, rfl, rfl⟩, b, hb, md, rfl, f, rfl, rfl⟩ := h
  exact (vcmpOp_row hc _).trans hb.symm

theorem encBody_of_decVfa (h : decVfa form r = .ok i) : encBody i = encV 0x22 form r := by
  unfold decVfa at h
  split at h
  next c hc =>
    obtain ⟨o, ho, rfl⟩ := map_eq_ok.1 h
    rw [vfaBin_row hc, (binOf_eq_ok 0x22).1 ho]
  next =>
    split at h
    next c hc =>
      obtain ⟨o, ho, rfl⟩ := map_eq_ok.1 h
      rw [vfaTern_row hc, (ternOf_eq_ok 0x22).1 ho]
    next =>
      split at h
      next c hc =>
        obtain ⟨o, ho, rfl⟩ := map_eq_ok.1 h
        rw [vfaUn_row hc, (unOf_eq_ok 0x22).1 ho]
      next => cases h

theorem encBody_of_decVcvt (h : decVcvt form r = .ok i) : encBody i = encV 0x23 form r := by
  obtain ⟨vd, va, vb, pm, fmt, fn, grp, ext, u, rnd, sat, z⟩ := r
  simp only [decVcvt, bind_eq_ok, need_eq_ok, beq_iff_eq, exists_const, orErr_eq_ok, Fmt.ofCode_eq, vmodsOf_eq_ok] at h
  obtain ⟨rfl, m, ⟨rfl, rfl, rfl, rfl, rfl⟩, hz, dst, rfl, src, hs, h⟩ := h
  obtain rfl := (eq_append_iff (m := 1) (n := 4)).2 ⟨hz, hs⟩
  split at h
  next c hc =>
    simp at h
    obtain ⟨rfl, rfl⟩ := h
    exact vcvtOp_row hc _
  next =>
    split at h
    next c hc =>
      simp [RawV.md, RawV.lo, RawV.vc] at h
      obtain ⟨⟨hmd, hlo⟩, rfl⟩ := h
      generalize hvc : fld5 (ext.extractLsb' 11 5) = vc
      obtain rfl := ext0_eq.2 ⟨fld5_eq.1 hvc, hmd, hlo⟩
      exact vqntOp_row hc _
    next => cases h

theorem encBody_of_decVmsk (h : decVmsk form r = .ok i) : encBody i = encV 0x24 form r := by
  obtain ⟨vd, va, vb, pm, fmt, fn, grp, ext, u, rnd, sat, z⟩ := r
  simp only [decVmsk, bind_eq_ok, need_eq_ok, Bool.and_eq_true, beq_iff_eq, exists_const, vmodsOf_eq_ok] at h
  obtain ⟨m, ⟨rfl, rfl, rfl, rfl, rfl⟩, ⟨rfl, rfl⟩, h⟩ := h
  split at h
  next c hc =>
    simp at h
    obtain ⟨rfl, rfl, md, rfl, ma, rfl, mb, rfl, rfl⟩ := h
    exact vmskBin_row hc _ _ _ _
  next =>
  split at h
  next c hc =>
    simp at h
    obtain ⟨rfl, ⟨rfl, rfl⟩, md, rfl, ma, rfl, rfl⟩ := h
    exact vmskUn_row hc _ _ _
  next =>
  split at h
  next c hc =>
    simp [vcountOf_eq_ok 0x24] at h
    obtain ⟨n, hn, md, rfl, ma, rfl, rfl⟩ := h
    exact (vmskShift_row hc _ _ _ _).trans hn.symm
  next =>
  split at h
  next c hc =>
    simp at h
    obtain ⟨rfl, ⟨rfl, rfl⟩, ma, rfl, rfl⟩ := h
    exact vmskX_row hc _ _ _
  next =>
  split at h
  next hn =>
    simp [vcountOf_eq_ok 0x24] at h
    obtain ⟨rfl, n, hc, md, rfl, rfl⟩ := h
    subst hn
    exact hc.symm
  next => cases h

/-- A two-source operation's first source is VA (R17). -/
theorem binOf_va {o : VBinOp} (h : binOf form r = .ok o) : o.va = fld5 r.va := by
  simp only [binOf, bind_eq_ok, pure_eq_ok] at h
  obtain ⟨m, -, b, -, f, -, rfl⟩ := h
  rfl

theorem unOf_va {o : VUnOp} (h : unOf form r = .ok o) : o.va = fld5 r.va := by
  simp only [unOf, bind_eq_ok, pure_eq_ok] at h
  obtain ⟨-, -, m, -, -, -, f, -, rfl⟩ := h
  rfl

theorem encBody_of_decVperm (h : decVperm form r = .ok i) : encBody i = encV 0x25 form r := by
  unfold decVperm at h
  split at h
  next c hc =>
    obtain ⟨vd, va, vb, pm, fmt, fn, grp, ext, u, rnd, sat, z⟩ := r
    simp [vmodsOf_eq_ok, vcountOf_eq_ok 0x25] at h
    obtain ⟨m, ⟨rfl, rfl, rfl, rfl, rfl⟩, n, hn, f, rfl, rfl⟩ := h
    exact (vpermSlide_row hc _).trans hn.symm
  next =>
  split at h
  next c hc =>
    obtain ⟨o, ho, rfl⟩ := map_eq_ok.1 h
    rw [vpermUn_row hc, (unOf_eq_ok 0x25).1 ho]
  next =>
  split at h
  next hn =>
    obtain ⟨o, ho, rfl⟩ := map_eq_ok.1 h
    rw [(pairOf_eq_ok 0x25).1 ho, eq_ofNat hn]
    rfl
  next hn =>
    split_ifs at h with hf
    · obtain ⟨o, ho, rfl⟩ := map_eq_ok.1 h
      rw [(unOf_eq_ok 0x25).1 ho, eq_ofNat hn]
      rfl
    · simp only [bind_eq_ok, need_eq_ok, beq_iff_eq, exists_const, pure_eq_ok] at h
      obtain ⟨hva, o, ho, rfl⟩ := h
      have hr := (binOf_eq_ok 0x25).1 ho
      obtain ⟨vd, va, b, pm, fmt, m⟩ := o
      obtain rfl : va = 0 := (binOf_va ho).trans (congrArg fld5 hva)
      cases b with
      | vec vb => exact absurd (encV_inj.1 hr).1 hf
      | sca xb =>
        rw [hr, eq_ofNat hn]
        rfl
      | imm v =>
        rw [hr, eq_ofNat hn]
        rfl
  next hn =>
    obtain ⟨o, ho, rfl⟩ := map_eq_ok.1 h
    rw [(unOf_eq_ok 0x25).1 ho, eq_ofNat hn]
    rfl
  next hn =>
    simp only [bind_eq_ok, need_eq_ok, beq_iff_eq, exists_const, pure_eq_ok] at h
    obtain ⟨o, ho, hva, rfl⟩ := h
    have hr := (unOf_eq_ok 0x25).1 ho
    obtain ⟨vd, va, pm, fmt, m⟩ := o
    obtain rfl : va = 0 := (unOf_va ho).trans (congrArg fld5 hva)
    rw [hr, eq_ofNat hn]
    rfl
  next => cases h

theorem encBody_of_decVred (h : decVred form r = .ok i) : encBody i = encV 0x26 form r := by
  unfold decVred at h
  split at h
  next c hc =>
    obtain ⟨o, ho, rfl⟩ := map_eq_ok.1 h
    rw [vredOp_row hc, (unOf_eq_ok 0x26).1 ho]
  next =>
    split at h
    next hn =>
      obtain ⟨o, ho, rfl⟩ := map_eq_ok.1 h
      rw [(pairOf_eq_ok 0x26).1 ho, eq_ofNat hn]
      rfl
    next hn =>
      simp only [bind_eq_ok, need_eq_ok, beq_iff_eq, exists_const, orErr_eq_ok, Iop.ofCode_eq, pure_eq_ok] at h
      obtain ⟨o, ho, hz, op, hop, rfl⟩ := h
      obtain ⟨rfl, hr⟩ := encV_inj.1 ((pairOf_eq_ok 0x26).1 ho)
      have hvb : bits5 o.vb = 0#1 ++ op.code :=
        (congrArg RawV.vb hr).symm.trans ((eq_append_iff (m := 1) (n := 4)).2 ⟨hz, hop⟩)
      rw [hr, eq_ofNat hn, hvb]
      rfl
    next => cases h

theorem encBody_of_decVtop (h : decVtop form r = .ok i) : encBody i = encV 0x27 form r := by
  simp only [decVtop, bind_eq_ok, need_eq_ok, beq_iff_eq, exists_const, pure_eq_ok] at h
  obtain ⟨hn, o, ho, rfl⟩ := h
  rw [(binOf_eq_ok 0x27).1 ho, hn]
  rfl

theorem encBody_of_decVrng (h : decVrng form r = .ok i) : encBody i = encV 0x28 form r := by
  obtain ⟨vd, va, vb, pm, fmt, fn, grp, ext, u, rnd, sat, z⟩ := r
  simp [decVrng, vmodsOf_eq_ok] at h
  obtain ⟨c, hc, rfl, m, ⟨rfl, rfl, rfl, rfl, rfl⟩, rfl, rfl, rfl⟩ := h
  exact vrngOp_row hc _

end
section
variable {form : BitVec 2} {r : RawVM} {i : Instr}

theorem encBody_of_decVld (h : decVld form r = .ok i) : encBody i = some ⟨0x30, form, r.pack⟩ := by
  obtain ⟨vd, xa, xb, pm, fmt, fn, grp, off, hm, pl, z⟩ := r
  unfold decVld at h
  dsimp only at h
  split at h
  case h_5 => cases h
  all_goals
    rename_i hn
    simp [vmCheck_eq_ok, planeCheck_eq_ok] at h
    casesm* _ ∧ _, ∃ _, _
    subst_vars
    rw [eq_ofNat hn]
    simp [encBody, encVM]

theorem encBody_of_decVst (h : decVst form r = .ok i) : encBody i = some ⟨0x31, form, r.pack⟩ := by
  obtain ⟨vd, xa, xb, pm, fmt, fn, grp, off, hm, pl, z⟩ := r
  unfold decVst at h
  dsimp only at h
  split at h
  case h_5 => cases h
  all_goals
    rename_i hn
    simp [vmCheck_eq_ok, planeCheck_eq_ok] at h
    casesm* _ ∧ _, ∃ _, _
    subst_vars
    rw [eq_ofNat hn]
    rfl

theorem encBody_of_decVamo (h : decVamo form r = .ok i) : encBody i = some ⟨0x32, form, r.pack⟩ := by
  obtain ⟨vd, xa, xb, pm, fmt, fn, grp, off, hm, pl, z⟩ := r
  simp [decVamo, vmCheck_eq_ok] at h
  obtain ⟨c, hc, f, ⟨rfl, rfl, rfl, rfl, rfl⟩, rfl⟩ := h
  exact vamoOp_row hc _

end

section
variable {form : BitVec 2} {r : RawX} {i : Instr}

theorem encBody_of_decMx (h : decMx form r = .ok i) : encBody i = some ⟨0x48, form, r.pack⟩ := by
  obtain ⟨td, da, db, xn, vs, ts, fn, idx, col, fmt, rpt, z⟩ := r
  simp only [decMx, bind_eq_ok, need_eq_ok, beq_iff_eq, exists_const] at h
  obtain ⟨rfl, h⟩ := h
  split at h
  case h_10 => cases h
  all_goals
    rename_i hn
    simp [xZero, idxOf_eq_ok, -ne_eq] at h
  case h_6 | h_7 =>
    obtain ⟨hz, ix, ⟨-, hr⟩, rfl⟩ := h
    rw [hr, eq_ofNat hn]
    casesm* _ ∧ _
    subst_vars
    cases ix <;> simp [encBody, encX, RawX.withIdx]
  case h_9 =>
    obtain ⟨hz, rfl | rfl, rfl⟩ := h <;>
    · casesm* _ ∧ _
      subst_vars
      rw [eq_ofNat hn]
      rfl
  all_goals
    casesm* _ ∧ _, ∃ _, _
    subst_vars
    rw [eq_ofNat hn]
    simp [encBody, encX]

theorem encBody_of_decPl (h : decPl form r = .ok i) : encBody i = some ⟨0x49, form, r.pack⟩ := by
  obtain ⟨td, da, db, xn, vs, ts, fn, idx, col, fmt, rpt, z⟩ := r
  simp only [decPl, bind_eq_ok, need_eq_ok, beq_iff_eq, exists_const] at h
  obtain ⟨rfl, h⟩ := h
  split at h
  case h_7 => cases h
  case h_4 hn =>
    cases hc : flag col <;>
    · simp [hc, xZero] at h
      casesm* _ ∧ _
      subst_vars
      rw [eq_ofNat hn, flag_eq.1 hc]
      rfl
  all_goals
    rename_i hn
    simp [xZero] at h
    casesm* _ ∧ _, ∃ _, _
    subst_vars
    rw [eq_ofNat hn]
    rfl

end

section
variable {form : BitVec 2} {r : RawA} {i : Instr}

theorem encBody_of_decAelt (h : decAelt form r = .ok i) : encBody i = encA 0x40 form r := by
  simp only [decAelt, bind_eq_ok, need_eq_ok, beq_iff_eq, exists_const, Bool.and_eq_true] at h
  obtain ⟨rfl, ⟨⟨hax, hiop⟩, himm⟩, h⟩ := h
  split at h
  next c hc =>
    obtain ⟨o, ho, rfl⟩ := map_eq_ok.1 h
    rw [aeltBin_row hc, arrPair_eq_ok.1 ho, hax, hiop, himm]
    rfl
  next =>
    split at h
    next c hc =>
      obtain ⟨dd, da, db, ka, kb, ax, iop, imm, fn⟩ := r
      simp at h
      casesm* _ ∧ _, ∃ _, _
      subst_vars
      exact aeltUn_row hc _ _ _
    next => cases h

theorem encBody_of_decAstr (h : decAstr form r = .ok i) : encBody i = encA 0x41 form r := by
  obtain ⟨dd, da, db, ka, kb, ax, iop, imm, fn⟩ := r
  unfold decAstr at h
  dsimp only at h
  split at h
  next c hc =>
    simp at h
    casesm* _ ∧ _, ∃ _, _
    subst_vars
    exact astrRed_row hc _
  next =>
  split at h
  next c hc =>
    simp [acountOf_eq_ok 0x41] at h
    obtain ⟨⟨⟨rfl, rfl⟩, rfl⟩, k, rfl, x, rfl, n, hn, rfl⟩ := h
    exact (astrCount_row hc _).trans hn.symm
  next =>
  split at h
  next c hc =>
    simp at h
    casesm* _ ∧ _, ∃ _, _
    subst_vars
    exact astrPlain_row hc _ _ _
  next =>
  split at h
  next c hc =>
    simp [arrPair] at h
    casesm* _ ∧ _, ∃ _, _
    subst_vars
    exact astrAxis_row hc _ _
  next =>
  split at h
  case h_5 => cases h
  all_goals
    rename_i hn
    simp [arrPair, acountOf_eq_ok 0x41] at h
  case h_4 =>
    obtain ⟨⟨⟨⟨⟨⟨rfl, rfl⟩, rfl⟩, rfl⟩, rfl⟩, rfl⟩, n, hi, rfl⟩ := h
    rw [eq_ofNat hn] at hi ⊢
    exact hi.symm
  all_goals
    casesm* _ ∧ _, ∃ _, _
    subst_vars
    rw [eq_ofNat hn]
    rfl

theorem encBody_of_decAdsc (h : decAdsc form r = .ok i) : encBody i = encA 0x42 form r := by
  obtain ⟨dd, da, db, ka, kb, ax, iop, imm, fn⟩ := r
  simp only [decAdsc, bind_eq_ok, need_eq_ok, beq_iff_eq, exists_const, Bool.and_eq_true] at h
  obtain ⟨rfl, ⟨⟨⟨hz, rfl⟩, rfl⟩, rfl⟩, h⟩ := h
  generalize hx : fld5 (imm.extractLsb' 15 5) = x at h
  obtain rfl := (eq_append_iff (m := 5) (n := 15)).2 ⟨fld5_eq.1 hx, hz⟩
  split at h
  case h_5 => cases h
  all_goals
    rename_i hn
    simp at h
    casesm* _ ∧ _, ∃ _, _
    subst_vars
    rw [eq_ofNat hn]
    rfl

end

end Sys2Proof
end

