-- ==== Sys2Proof/Proofs/Encoded.lean ====
section
/-! The word of an instruction decodes to it. -/

namespace Sys2Proof
open Machine (wordless)

/-- The encoding stands for the instruction. -/
def Decodes (o : Option Enc) (i : Instr) : Prop := ∃ e, o = some e ∧ decodeBody e.op e.form e.body = .ok i

/-! A family of the opcode map reads the fields of its format. -/

section
variable {op : BitVec 7} {form : BitVec 2} {i : Instr}

theorem decodes_S {r : RawS} (dec : BitVec 2 → RawS → Dec Instr) (hd : ∀ f b, decodeBody op f b = dec f (RawS.ofBody b))
    (h : dec form r = .ok i) : Decodes (encS op form r) i := ⟨_, rfl, by rw [hd, RawS.ofBody_pack, h]⟩
theorem decodes_B {r : RawB} (dec : BitVec 2 → RawB → Dec Instr) (hd : ∀ f b, decodeBody op f b = dec f (RawB.ofBody b))
    (h : dec 0 r = .ok i) : Decodes (encB op r) i := ⟨_, rfl, by rw [hd, RawB.ofBody_pack, h]⟩
theorem decodes_C {r : RawC} (dec : BitVec 2 → RawC → Dec Instr) (hd : ∀ f b, decodeBody op f b = dec f (RawC.ofBody b))
    (h : dec 0 r = .ok i) : Decodes (encC op r) i := ⟨_, rfl, by rw [hd, RawC.ofBody_pack, h]⟩
theorem decodes_X {r : RawX} (dec : BitVec 2 → RawX → Dec Instr) (hd : ∀ f b, decodeBody op f b = dec f (RawX.ofBody b))
    (h : dec 0 r = .ok i) : Decodes (encX op r) i := ⟨_, rfl, by rw [hd, RawX.ofBody_pack, h]⟩
theorem decodes_VM {r : RawVM} (dec : BitVec 2 → RawVM → Dec Instr) (hd : ∀ f b, decodeBody op f b = dec f (RawVM.ofBody b))
    (h : dec 0 r = .ok i) : Decodes (encVM op r) i := ⟨_, rfl, by rw [hd, RawVM.ofBody_pack, h]⟩
theorem decodes_V {r : RawV} (dec : BitVec 2 → RawV → Dec Instr) (hd : ∀ f b, decodeBody op f b = dec f (RawV.ofBody b))
    (h : dec form r = .ok i) : Decodes (encV op form r) i := ⟨_, rfl, by rw [hd, RawV.ofBody_pack, h]⟩
theorem decodes_A {r : RawA} (dec : BitVec 2 → RawA → Dec Instr) (hd : ∀ f b, decodeBody op f b = dec f (RawA.ofBody b))
    (h : dec form r = .ok i) : Decodes (encA op form r) i := ⟨_, rfl, by rw [hd, RawA.ofBody_pack, h]⟩
theorem decodes_E {r : RawE} (h : decEng 0 r = .ok i) : Decodes (encE r) i :=
  ⟨_, rfl, by rw [← h]; exact congrArg (decEng 0) (RawE.ofBody_pack r)⟩

end

/-! The rows of R22, table by table. -/

section
variable {fn : BitVec 5}

theorem decodes_xalu {c} (h : xaluOp fn = some c) (rd ra : XReg) (b : XSrc) : Decodes (encXs 0x01 fn rd ra b) (c rd ra b) := by
  cases b <;> exact decodes_S decXalu (fun _ _ => rfl) (by simp [decXalu, h, xsrcOf])
theorem decodes_xaluUn {c} (h : xaluUn fn = some c) (h' : xaluOp fn = none) (rd ra : XReg) :
    Decodes (encS 0x01 0 { xd := bits5 rd, xa := bits5 ra, fn := fn }) (c rd ra) :=
  decodes_S decXalu (fun _ _ => rfl) (by simp [decXalu, h, h'])
theorem decodes_xmem {c} (h : xmemOp fn = some c) (rd ra : XReg) (b : XSrc) : Decodes (encXs 0x03 fn rd ra b) (c rd ra b) := by
  cases b <;> exact decodes_S decXmem (fun _ _ => rfl) (by simp [decXmem, h, xsrcOf])
theorem decodes_xamo {c} (h : xamoOp fn = some c) (o : AmoOp) : Decodes (encAmo fn o) (c o) := by
  obtain ⟨hz, ho, hs⟩ := imm32_eq.1 (rfl : 0#26 ++ o.order.code ++ o.scope.code = _)
  exact decodes_S decXamo (fun _ _ => rfl) (by simp [decXamo, h, hz, ho, hs])
theorem decodes_br {c} (h : brOp fn = some c) (ra rb : XReg) (off : BitVec 32) :
    Decodes (encB 0x08 { xa := bits5 ra, xb := bits5 rb, fn := fn, off := off }) (c ra rb off) :=
  decodes_B decBr (fun _ _ => rfl) (by simp [decBr, h])

end

theorem decodes_svl (rd ra : XReg) (f : Fmt) (blk : Blk) : Decodes (encBody (.svl rd ra f blk)) (.svl rd ra f blk) := by
  obtain ⟨hz, hb, hf⟩ := imm32_eq.1 (rfl : 0#26 ++ blk.code ++ f.code = _)
  exact decodes_S decVcfg (fun _ _ => rfl) (by simp [decVcfg, hz, hb, hf])

section
variable {fn : BitVec 4}

/-- The form and fields of a two-source operation (R24). -/
theorem binOf_encBin (op : BitVec 7) (fn : BitVec 4) (o : VBinOp) :
    ∃ form r, encBin op fn o = encV op form r ∧ r.fn = fn ∧ binOf form r = .ok o := by
  obtain ⟨form, r, he, rfl⟩ : ∃ form r, encBin op fn o = encV op form r ∧ r.fn = fn := by
    unfold encBin encVs
    cases o.b <;> exact ⟨_, _, rfl, rfl⟩
  exact ⟨form, r, he, rfl, (binOf_eq_ok op).2 he.symm⟩

theorem ternOf_encTern (op : BitVec 7) (fn : BitVec 4) (o : VTernOp) :
    ∃ r, encTern op fn o = encV op 0 r ∧ r.fn = fn ∧ ternOf 0#2 r = .ok o := ⟨_, rfl, rfl, (ternOf_eq_ok op).2 rfl⟩
theorem carryOf_encCarry (fn : BitVec 4) (o : VCarryOp) :
    ∃ r, encCarry fn o = encV 0x20 0 r ∧ r.fn = fn ∧ carryOf 0#2 r = .ok o := ⟨_, rfl, rfl, carryOf_eq_ok.2 rfl⟩
theorem unOf_encUn (op : BitVec 7) (fn : BitVec 4) (o : VUnOp) :
    ∃ r, encUn op fn o = encV op 0 r ∧ r.fn = fn ∧ unOf 0#2 r = .ok o := ⟨_, rfl, rfl, (unOf_eq_ok op).2 rfl⟩
theorem pairOf_encPair (op : BitVec 7) (fn : BitVec 4) (o : VPairOp) :
    ∃ r, encPair op fn o = encV op 0 r ∧ r.fn = fn ∧ pairOf 0#2 r = .ok o := ⟨_, rfl, rfl, (pairOf_eq_ok op).2 rfl⟩

theorem decodes_via {c} (h : viaOp fn = some c) (o : VBinOp) : Decodes (encBin 0x20 fn o) (c o) := by
  obtain ⟨form, r, he, rfl, ho⟩ := binOf_encBin 0x20 fn o
  exact he ▸ decodes_V decVia (fun _ _ => rfl) (by simp [decVia, h, ho])
theorem decodes_viaCarry {c} (h : viaCarry fn = some c) (h' : viaOp fn = none) (o : VCarryOp) : Decodes (encCarry fn o) (c o) := by
  obtain ⟨r, he, rfl, ho⟩ := carryOf_encCarry fn o
  exact he ▸ decodes_V decVia (fun _ _ => rfl) (by simp [decVia, h, h', ho])
theorem decodes_vmac (o : VTernOp) : Decodes (encTern 0x20 15 o) (.vmac o) := by
  obtain ⟨r, he, hn, ho⟩ := ternOf_encTern 0x20 15 o
  exact he ▸ decodes_V decVia (fun _ _ => rfl) (by simp [decVia, hn, viaOp, viaCarry, ho])

theorem decodes_vcmp {c} (h : vcmpOp fn = some c) (o : VCmpOp) : Decodes (encCmp fn o) (c o) := by
  obtain ⟨md, va, b, pm, fmt, m⟩ := o
  cases b <;>
  exact decodes_V decVcmp (fun _ _ => rfl) (by simp [decVcmp, h, RawV.withMods, vmodsOf, vsrcOf])

theorem decodes_vfaBin {c} (h : vfaBin fn = some c) (o : VBinOp) : Decodes (encBin 0x22 fn o) (c o) := by
  obtain ⟨form, r, he, rfl, ho⟩ := binOf_encBin 0x22 fn o
  exact he ▸ decodes_V decVfa (fun _ _ => rfl) (by simp [decVfa, h, ho])
theorem decodes_vfaTern {c} (h : vfaTern fn = some c) (h' : vfaBin fn = none) (o : VTernOp) : Decodes (encTern 0x22 fn o) (c o) := by
  obtain ⟨r, he, rfl, ho⟩ := ternOf_encTern 0x22 fn o
  exact he ▸ decodes_V decVfa (fun _ _ => rfl) (by simp [decVfa, h, h', ho])
theorem decodes_vfaUn {c} (h : vfaUn fn = some c) (h1 : vfaBin fn = none) (h2 : vfaTern fn = none) (o : VUnOp) :
    Decodes (encUn 0x22 fn o) (c o) := by
  obtain ⟨r, he, rfl, ho⟩ := unOf_encUn 0x22 fn o
  exact he ▸ decodes_V decVfa (fun _ _ => rfl) (by simp [decVfa, h, h1, h2, ho])

/-- A format in the low bits of VB (R24). -/
theorem vb_parts (c : BitVec 4) : (0#1 ++ c : BitVec 5).extractLsb' 4 1 = 0#1 ∧ (0#1 ++ c : BitVec 5).extractLsb' 0 4 = c :=
  (eq_append_iff (m := 1) (n := 4)).1 rfl

theorem decodes_vcvt {c} (h : vcvtOp fn = some c) (o : VCvtOp) : Decodes (encCvt fn o) (c o) :=
  decodes_V decVcvt (fun _ _ => rfl) (by simp [decVcvt, h, RawV.withMods, vmodsOf, vb_parts])
theorem decodes_vqnt {c} (h : vqntOp fn = some c) (h' : vcvtOp fn = none) (o : VQntOp) : Decodes (encQnt fn o) (c o) := by
  obtain ⟨hvc, hmd, hlo⟩ := ext0_eq.1 (rfl : ext0 (bits5 o.vc) 0#3 = _)
  exact decodes_V decVcvt (fun _ _ => rfl)
    (by simp [decVcvt, h, h', RawV.withMods, vmodsOf, vb_parts, RawV.vc, RawV.md, RawV.lo, hvc, hmd, hlo])

theorem decodes_vmskBin {c} (h : vmskBin fn = some c) (md ma mb : MReg) (m : VMods) :
    Decodes (encMsk fn (mbits md) (mbits ma) (mbits mb) m) (c md ma mb m) :=
  decodes_V decVmsk (fun _ _ => rfl) (by simp [decVmsk, h, RawV.withMods, vmodsOf])
theorem decodes_vmskUn {c} (h : vmskUn fn = some c) (h1 : vmskBin fn = none) (md ma : MReg) (m : VMods) :
    Decodes (encMsk fn (mbits md) (mbits ma) 0 m) (c md ma m) :=
  decodes_V decVmsk (fun _ _ => rfl) (by simp [decVmsk, h, h1, RawV.withMods, vmodsOf])
theorem decodes_vmskShift {c} (h : vmskShift fn = some c) (h1 : vmskBin fn = none) (h2 : vmskUn fn = none) (md ma : MReg)
    (n : VCount) (m : VMods) : Decodes (encMskCount fn (mbits md) (mbits ma) n m) (c md ma n m) := by
  cases n <;>
  exact decodes_V decVmsk (fun _ _ => rfl) (by simp [decVmsk, h, h1, h2, RawV.withMods, vmodsOf, vcountOf])
theorem decodes_vmskX {c} (h : vmskX fn = some c) (h1 : vmskBin fn = none) (h2 : vmskUn fn = none) (h3 : vmskShift fn = none)
    (rd : XReg) (ma : MReg) (m : VMods) : Decodes (encMsk fn (bits5 rd) (mbits ma) 0 m) (c rd ma m) :=
  decodes_V decVmsk (fun _ _ => rfl) (by simp [decVmsk, h, h1, h2, h3, RawV.withMods, vmodsOf])
theorem decodes_mset (md : MReg) (n : VCount) (m : VMods) : Decodes (encBody (.mset md n m)) (.mset md n m) := by
  cases n <;>
  exact decodes_V decVmsk (fun _ _ => rfl)
    (by simp [decVmsk, vmskBin, vmskUn, vmskShift, vmskX, RawV.withMods, vmodsOf, vcountOf])

theorem decodes_vpermSlide {c} (h : vpermSlide fn = some c) (o : VSlideOp) : Decodes (encSlide fn o) (c o) := by
  obtain ⟨vd, va, n, pm, fmt, m⟩ := o
  cases n <;>
  exact decodes_V decVperm (fun _ _ => rfl) (by simp [decVperm, h, RawV.withMods, vmodsOf, vcountOf])
theorem decodes_vpermUn {c} (h : vpermUn fn = some c) (h1 : vpermSlide fn = none) (o : VUnOp) : Decodes (encUn 0x25 fn o) (c o) := by
  obtain ⟨r, he, rfl, ho⟩ := unOf_encUn 0x25 fn o
  exact he ▸ decodes_V decVperm (fun _ _ => rfl) (by simp [decVperm, h, h1, ho])
theorem decodes_vgath (o : VPairOp) : Decodes (encPair 0x25 2 o) (.vgath o) := by
  obtain ⟨r, he, hn, ho⟩ := pairOf_encPair 0x25 2 o
  exact he ▸ decodes_V decVperm (fun _ _ => rfl) (by simp [decVperm, hn, vpermSlide, vpermUn, ho])
theorem decodes_vbcast (o : VBcastOp) : Decodes (encBody (.vbcast o)) (.vbcast o) := by
  obtain ⟨vd, b, pm, fmt, m⟩ := o
  cases b <;>
  exact decodes_V decVperm (fun _ _ => rfl)
    (by simp [decVperm, vpermSlide, vpermUn, RawV.withMods, unOf, binOf, vsrcOf, vmodsOf])
theorem decodes_vmvx (o : VMvxOp) : Decodes (encUn 0x25 6 { vd := o.rd, va := o.va, pm := o.pm, fmt := o.fmt, m := o.m }) (.vmvx o) := by
  obtain ⟨r, he, hn, ho⟩ := unOf_encUn 0x25 6 { vd := o.rd, va := o.va, pm := o.pm, fmt := o.fmt, m := o.m }
  exact he ▸ decodes_V decVperm (fun _ _ => rfl) (by simp [decVperm, hn, vpermSlide, vpermUn, ho])
theorem decodes_vid (o : VIdOp) : Decodes (encBody (.vid o)) (.vid o) :=
  decodes_V decVperm (fun _ _ => rfl) (by simp [decVperm, vpermSlide, vpermUn, RawV.withMods, unOf, vmodsOf])

theorem decodes_vred {c} (h : vredOp fn = some c) (o : VUnOp) : Decodes (encUn 0x26 fn o) (c o) := by
  obtain ⟨r, he, rfl, ho⟩ := unOf_encUn 0x26 fn o
  exact he ▸ decodes_V decVred (fun _ _ => rfl) (by simp [decVred, h, ho])
theorem decodes_vredbs (o : VPairOp) : Decodes (encPair 0x26 5 o) (.vredbs o) := by
  obtain ⟨r, he, hn, ho⟩ := pairOf_encPair 0x26 5 o
  exact he ▸ decodes_V decVred (fun _ _ => rfl) (by simp [decVred, hn, vredOp, ho])
theorem decodes_vscan (o : VScanOp) : Decodes (encBody (.vscan o)) (.vscan o) :=
  decodes_V decVred (fun _ _ => rfl) (by simp [decVred, vredOp, RawV.withMods, pairOf, vmodsOf, vb_parts])

theorem decodes_vcswi (o : VBinOp) : Decodes (encBin 0x27 0 o) (.vcswi o) := by
  obtain ⟨form, r, he, hn, ho⟩ := binOf_encBin 0x27 0 o
  exact he ▸ decodes_V decVtop (fun _ _ => rfl) (by simp [decVtop, hn, ho])
theorem decodes_vrng {c} (h : vrngOp fn = some c) (o : VRngOp) : Decodes (encRng fn o) (c o) :=
  decodes_V decVrng (fun _ _ => rfl) (by simp [decVrng, h, RawV.withMods, vmodsOf])
theorem decodes_vamo {c} (h : vamoOp fn = some c) (o : VmStxOp) : Decodes (encStx 0x32 fn o) (c o) :=
  decodes_VM decVamo (fun _ _ => rfl) (by simp [decVamo, h, vmCheck])

theorem decodes_aeltBin {c} (h : aeltBin fn = some c) (o : ArrPairOp) : Decodes (encArrPair 0x40 fn o 0 0) (c o) :=
  decodes_A decAelt (fun _ _ => rfl) (by simp [decAelt, h, arrPair])
theorem decodes_aeltUn {c} (h : aeltUn fn = some c) (h1 : aeltBin fn = none) (dd da : DReg) (k : CellRank) :
    Decodes (encArrUn fn dd da k) (c dd da k) :=
  decodes_A decAelt (fun _ _ => rfl) (by simp [decAelt, h, h1])
theorem decodes_astrRed {c} (h : astrRed fn = some c) (o : ArrRedOp) : Decodes (encArrRed fn o) (c o) :=
  decodes_A decAstr (fun _ _ => rfl) (by simp [decAstr, h])

/-- A register in IMM20 (R26). -/
theorem imm20_parts (x : XReg) : (bits5 x ++ 0#15 : BitVec 20).extractLsb' 15 5 = bits5 x ∧
    (bits5 x ++ 0#15 : BitVec 20).extractLsb' 0 15 = 0#15 := (eq_append_iff (m := 5) (n := 15)).1 rfl

theorem decodes_astrCount {c} (h : astrCount fn = some c) (h1 : astrRed fn = none) (o : ArrCountOp) :
    Decodes (encArrCount fn o) (c o) := by
  obtain ⟨dd, da, n, k, ax⟩ := o
  cases n <;>
  exact decodes_A decAstr (fun _ _ => rfl) (by simp [decAstr, h, h1, acountOf, imm20_parts])
theorem decodes_astrPlain {c} (h : astrPlain fn = some c) (h1 : astrRed fn = none) (h2 : astrCount fn = none) (dd da db : DReg) :
    Decodes (encArrPlain fn dd da db) (c dd da db) :=
  decodes_A decAstr (fun _ _ => rfl) (by simp [decAstr, h, h1, h2])
theorem decodes_astrAxis {c} (h : astrAxis fn = some c) (h1 : astrRed fn = none) (h2 : astrCount fn = none)
    (h3 : astrPlain fn = none) (o : ArrPairOp) (ax : Axis) : Decodes (encArrPair 0x41 fn o (axisCode ax) 0) (c o ax) :=
  decodes_A decAstr (fun _ _ => rfl) (by simp [decAstr, h, h1, h2, h3, arrPair])

theorem decodes_arrOuter (o : ArrPairOp) (iop : Iop) : Decodes (encArrPair 0x41 8 o 0 iop.code) (.arrOuter o iop) :=
  decodes_A decAstr (fun _ _ => rfl) (by simp [decAstr, astrRed, astrCount, astrPlain, astrAxis, arrPair])
theorem decodes_arrFrom (o : ArrPairOp) : Decodes (encArrPair 0x41 9 o 0 0) (.arrFrom o) :=
  decodes_A decAstr (fun _ _ => rfl) (by simp [decAstr, astrRed, astrCount, astrPlain, astrAxis, arrPair])

theorem decodes_csr {c} (h : csrOp fn = some c) (k : Csr) (ra : XReg) :
    Decodes (encC 0x10 { xa := bits5 ra, csel := k.code, fn := fn }) (c k ra) :=
  decodes_C decSys (fun _ _ => rfl) (by simp [decSys, h, cZero])
end

theorem decodes_arrIota (dd : DReg) (n : ACount) : Decodes (encBody (.arrIota dd n)) (.arrIota dd n) := by
  cases n <;>
  exact decodes_A decAstr (fun _ _ => rfl)
    (by simp [decAstr, astrRed, astrCount, astrPlain, astrAxis, acountOf, imm20_parts])

section
variable (ix : TileIdx) (h : ix ≠ .reg 0) (col : Bool)
include h

/-- IDX8 or XN of an index (R27). -/
theorem idxOf_withIdx (r : RawX) (hx : r.xn = 0) (hi : r.idx = 0) : idxOf (r.withIdx ix) = .ok ix := by
  obtain ⟨td, da, db, xn, vs, ts, fn, idx, col, fmt, rpt, z⟩ := r
  obtain rfl : xn = 0 := hx
  obtain rfl : idx = 0 := hi
  exact idxOf_eq_ok.2 ⟨h, by cases ix <;> rfl⟩

theorem decodes_mxrd (vs : VReg) (ts : TReg) : Decodes (encBody (.mxrd vs ts ix col)) (.mxrd vs ts ix col) := by
  have hi := idxOf_withIdx ix h { vs := bits5 vs, ts := bits3 ts, fn := 5, col := flagBit col } rfl rfl
  cases ix <;> exact decodes_X decMx (fun _ _ => rfl) (by simp_all [decMx, xZero, RawX.withIdx])
theorem decodes_mxwr (td : TReg) (vs : VReg) : Decodes (encBody (.mxwr td vs ix col)) (.mxwr td vs ix col) := by
  have hi := idxOf_withIdx ix h { td := bits3 td, vs := bits5 vs, fn := 6, col := flagBit col } rfl rfl
  cases ix <;> exact decodes_X decMx (fun _ _ => rfl) (by simp_all [decMx, xZero, RawX.withIdx])

end

theorem decodes_mxst (ts : TReg) (da : DReg) (bf : Bool) (rpt : Fin 8) : Decodes (encBody (.mxst ts da bf rpt)) (.mxst ts da bf rpt) := by
  cases bf <;> exact decodes_X decMx (fun _ _ => rfl) rfl

theorem decodes_plout (dst : PlDst) (ts : TReg) : Decodes (encBody (.plout dst ts)) (.plout dst ts) := by
  cases dst <;> exact decodes_X decPl (fun _ _ => rfl) rfl

/-- x0 is no tile index of a well-formed instruction (R27). -/
theorem index_ne_zero {ix : TileIdx} (h : (firstIll [(ix != .reg 0, .index)]).isNone = true) : ix ≠ .reg 0 := by
  rintro rfl
  exact absurd h (by decide)

/-- Every well-formed instruction that a word names has an encoding that stands for it. -/
theorem decodes_encBody (i : Instr) (hf : i.wf = true) (hw : wordless i = false) : Decodes (encBody i) i := by
  cases i with
  | add _ _ _ | sub _ _ _ | and _ _ _ | or _ _ _ | xor _ _ _ | sll _ _ _ | srl _ _ _ | sra _ _ _ | slt _ _ _ | sltu _ _ _
  | min _ _ _ | max _ _ _ | minu _ _ _ | maxu _ _ _ | mul _ _ _ | mulh _ _ _ | mulhu _ _ _ | div _ _ _ | divu _ _ _ | rem _ _ _
  | remu _ _ _ => exact decodes_xalu rfl _ _ _
  | clz _ _ | ctz _ _ | popc _ _ => exact decodes_xaluUn rfl rfl _ _
  | li _ _ | lui _ _ _ | mv _ _ | sel _ _ _ => exact decodes_S decXmov (fun _ _ => rfl) rfl
  | ld8 _ _ _ | ld16 _ _ _ | ld32 _ _ _ | ld64 _ _ _ | ldz8 _ _ _ | ldz16 _ _ _ | ldz32 _ _ _ | st8 _ _ _ | st16 _ _ _
  | st32 _ _ _ | st64 _ _ _ => exact decodes_xmem rfl _ _ _
  | amoAdd _ | amoAnd _ | amoOr _ | amoXor _ | amoMin _ | amoMax _ | amoSwap _ | amoCas _ => exact decodes_xamo rfl _
  | beq _ _ _ | bne _ _ _ | blt _ _ _ | bge _ _ _ | bltu _ _ _ | bgeu _ _ _ => exact decodes_br rfl _ _ _
  | jal _ _ | jalr _ _ _ => exact decodes_B decJmp (fun _ _ => rfl) rfl
  | smb o => exact ⟨_, rfl, congrArg (decSmb 0) (RawM.ofBody_pack _)⟩
  | vbany _ _ | vbnone _ _ => exact decodes_B decVbr (fun _ _ => rfl) rfl
  | ltc _ _ => exact decodes_B decLtc (fun _ _ => rfl) rfl
  | vfetch _ | tfetch _ _ | tstop | vjoin => exact decodes_B decVtf (fun _ _ => rfl) rfl
  | svl rd ra f blk => exact decodes_svl rd ra f blk
  | vrel => exact decodes_S decVcfg (fun _ _ => rfl) rfl
  | ebatch _ | ewait _ _ | epoll _ _ => exact decodes_E (by simp [decEng])
  | csrr _ _ => exact decodes_C decSys (fun _ _ => rfl) (by simp [decSys, csrOp, cZero])
  | csrw _ _ | csrs _ _ | csrc _ _ => exact decodes_csr rfl _ _
  | trap _ | tret | wfe | nop | halt | brk _ => exact decodes_C decSys (fun _ _ => rfl) rfl
  | fence _ | lsync | xfence _ _ _ | vfence | bfence _ _ => exact decodes_C decFence (fun _ _ => rfl) (by simp [decFence, cZero])
  | vadd _ | vsub _ | vmul _ | vmulh _ | vmin _ | vmax _ | vand _ | vor _ | vxor _ | vsll _ | vsrl _ | vsra _ | vabsd _ =>
    exact decodes_via rfl _
  | vaddc _ | vsubb _ => exact decodes_viaCarry rfl rfl _
  | vmac o => exact decodes_vmac o
  | vceq _ | vcne _ | vclt _ | vcle _ | vcgt _ | vcge _ => exact decodes_vcmp rfl _
  | vfadd _ | vfsub _ | vfmul _ | vfmin _ | vfmax _ | vfsgn _ | vfdiv _ => exact decodes_vfaBin rfl _
  | vffma _ | vffnma _ => exact decodes_vfaTern rfl rfl _
  | vfabs _ | vfneg _ | vfexp2 _ | vflog2 _ | vfrcp _ | vfrsq _ | vfsqrt _ => exact decodes_vfaUn rfl rfl rfl _
  | vcvt _ | vbpsplit _ | vbpjoin _ => exact decodes_vcvt rfl _
  | vqnt _ | vdqnt _ => exact decodes_vqnt rfl rfl _
  | mand _ _ _ _ | mor _ _ _ _ | mxor _ _ _ _ | mandn _ _ _ _ => exact decodes_vmskBin rfl _ _ _ _
  | mnot _ _ _ | mmv _ _ _ => exact decodes_vmskUn rfl rfl _ _ _
  | mshl _ _ _ _ | mshr _ _ _ _ => exact decodes_vmskShift rfl rfl rfl _ _ _ _
  | mpop _ _ _ | mfirst _ _ _ => exact decodes_vmskX rfl rfl rfl rfl _ _ _
  | mset md n m => exact decodes_mset md n m
  | vslup _ | vsldn _ => exact decodes_vpermSlide rfl _
  | vgath o => exact decodes_vgath o
  | vcomp _ | vexpd _ | vmvv _ => exact decodes_vpermUn rfl rfl _
  | vbcast o => exact decodes_vbcast o
  | vmvx o => exact decodes_vmvx o
  | vid o => exact decodes_vid o
  | vredsum _ | vredmax _ | vredmin _ | vredand _ | vredor _ => exact decodes_vred rfl _
  | vredbs o => exact decodes_vredbs o
  | vscan o => exact decodes_vscan o
  | vcswi o => exact decodes_vcswi o
  | vrng _ | vctr _ => exact decodes_vrng rfl _
  | vld _ | vlds _ | vldx _ | vldbp _ => exact decodes_VM decVld (fun _ _ => rfl) (by simp [decVld, vmCheck, planeCheck])
  | vst _ | vsts _ | vstx _ | vstbp _ => exact decodes_VM decVst (fun _ _ => rfl) (by simp [decVst, vmCheck, planeCheck])
  | vamoAdd _ | vamoMin _ | vamoMax _ => exact decodes_vamo rfl _
  | arrAdd _ | arrSub _ | arrMul _ | arrDiv _ | arrMax _ | arrMin _ | arrEq _ | arrLt _ | arrAnd _ | arrOr _ =>
    exact decodes_aeltBin rfl _
  | arrNeg _ _ _ | arrAbs _ _ _ | arrExp _ _ _ | arrLog _ _ _ | arrCvt _ _ _ | arrCopy _ _ _ => exact decodes_aeltUn rfl rfl _ _ _
  | arrRed _ | arrScan _ => exact decodes_astrRed rfl _
  | arrRot _ | arrTake _ | arrDrop _ => exact decodes_astrCount rfl rfl _
  | arrShape _ _ _ | arrTpose _ _ _ => exact decodes_astrPlain rfl rfl rfl _ _ _
  | arrComp _ _ | arrCat _ _ => exact decodes_astrAxis rfl rfl rfl rfl _ _
  | arrGrade _ _ _ _ => exact decodes_A decAstr (fun _ _ => rfl) (by simp [decAstr, astrRed, astrCount, astrPlain, astrAxis])
  | arrOuter o iop => exact decodes_arrOuter o iop
  | arrFrom o => exact decodes_arrFrom o
  | arrIota dd n => exact decodes_arrIota dd n
  | dld _ _ | dst _ _ | dset _ _ _ _ | dget _ _ _ _ => exact decodes_A decAdsc (fun _ _ => rfl) (by simp [decAdsc, imm20_parts])
  | mxrd vs ts ix col => exact decodes_mxrd ix (index_ne_zero hf) col vs ts
  | mxwr td vs ix col => exact decodes_mxwr ix (index_ne_zero hf) col td vs
  | mxst ts da bf rpt => exact decodes_mxst ts da bf rpt
  | mxon | mxoff | mxz _ _ | mxa _ | mxpred _ _ | mxld _ _ _ => exact decodes_X decMx (fun _ _ => rfl) (by simp [decMx, xZero])
  | plout dst ts => exact decodes_plout dst ts
  | plset _ _ | plmarg _ _ | bal _ | plcost _ _ | plscl _ _ => exact decodes_X decPl (fun _ _ => rfl) rfl
  | clasp _ | claspw _ _ | claspa _ _ | hmset _ _ | hmchk _ _ | spclaim _ _ _ | sprel _ _ =>
    exact decodes_C decCls (fun _ _ => rfl) (by simp [decCls, cZero])
  | asyopen _ | asyclose _ | asyrd _ _ => exact decodes_C decAsy (fun _ _ => rfl) (by simp [decAsy, cZero])
  | _ => cases hw

end Sys2Proof
end

