-- ==== Sys2Proof/Proofs/EncodeDecode.lean ====
section
/-! Decoding and encoding are inverse to each other (O58). -/

namespace Sys2Proof
open Machine (wordless)

section
variable {op : BitVec 7} {form : BitVec 2}

theorem body_ofRawS (b : BitVec 52) : some (Enc.mk op form (RawS.ofBody b).pack) = some ⟨op, form, b⟩ := by rw [RawS.pack_ofBody]
theorem body_ofRawB (b : BitVec 52) : some (Enc.mk op form (RawB.ofBody b).pack) = some ⟨op, form, b⟩ := by rw [RawB.pack_ofBody]
theorem body_ofRawM (b : BitVec 52) : some (Enc.mk op form (RawM.ofBody b).pack) = some ⟨op, form, b⟩ := by rw [RawM.pack_ofBody]
theorem body_ofRawE (b : BitVec 52) : some (Enc.mk op form (RawE.ofBody b).pack) = some ⟨op, form, b⟩ := by rw [RawE.pack_ofBody]
theorem body_ofRawC (b : BitVec 52) : some (Enc.mk op form (RawC.ofBody b).pack) = some ⟨op, form, b⟩ := by rw [RawC.pack_ofBody]
theorem body_ofRawV (b : BitVec 52) : some (Enc.mk op form (RawV.ofBody b).pack) = some ⟨op, form, b⟩ := by rw [RawV.pack_ofBody]
theorem body_ofRawVM (b : BitVec 52) : some (Enc.mk op form (RawVM.ofBody b).pack) = some ⟨op, form, b⟩ := by rw [RawVM.pack_ofBody]
theorem body_ofRawA (b : BitVec 52) : some (Enc.mk op form (RawA.ofBody b).pack) = some ⟨op, form, b⟩ := by rw [RawA.pack_ofBody]
theorem body_ofRawX (b : BitVec 52) : some (Enc.mk op form (RawX.ofBody b).pack) = some ⟨op, form, b⟩ := by rw [RawX.pack_ofBody]

/-- A body that decodes is the body of the instruction it decodes to. -/
theorem encBody_of_decodeBody {b : BitVec 52} {i : Instr} (h : decodeBody op form b = .ok i) :
    encBody i = some ⟨op, form, b⟩ := by
  unfold decodeBody at h
  split at h
  case h_1 ho => exact eq_ofNat ho ▸ (encBody_of_decXalu h).trans (body_ofRawS b)
  case h_2 ho => exact eq_ofNat ho ▸ (encBody_of_decXmov h).trans (body_ofRawS b)
  case h_3 ho => exact eq_ofNat ho ▸ (encBody_of_decXmem h).trans (body_ofRawS b)
  case h_4 ho => exact eq_ofNat ho ▸ (encBody_of_decXamo h).trans (body_ofRawS b)
  case h_5 ho => exact eq_ofNat ho ▸ (encBody_of_decBr h).trans (body_ofRawB b)
  case h_6 ho => exact eq_ofNat ho ▸ (encBody_of_decJmp h).trans (body_ofRawB b)
  case h_7 ho => exact eq_ofNat ho ▸ (encBody_of_decSmb h).trans (body_ofRawM b)
  case h_8 ho => exact eq_ofNat ho ▸ (encBody_of_decVbr h).trans (body_ofRawB b)
  case h_9 ho => exact eq_ofNat ho ▸ (encBody_of_decLtc h).trans (body_ofRawB b)
  case h_10 ho => exact eq_ofNat ho ▸ (encBody_of_decVtf h).trans (body_ofRawB b)
  case h_11 ho => exact eq_ofNat ho ▸ (encBody_of_decVcfg h).trans (body_ofRawS b)
  case h_12 ho => exact eq_ofNat ho ▸ (encBody_of_decEng h).trans (body_ofRawE b)
  case h_13 ho => exact eq_ofNat ho ▸ (encBody_of_decSys h).trans (body_ofRawC b)
  case h_14 ho => exact eq_ofNat ho ▸ (encBody_of_decFence h).trans (body_ofRawC b)
  case h_15 ho => exact eq_ofNat ho ▸ (encBody_of_decVia h).trans (body_ofRawV b)
  case h_16 ho => exact eq_ofNat ho ▸ (encBody_of_decVcmp h).trans (body_ofRawV b)
  case h_17 ho => exact eq_ofNat ho ▸ (encBody_of_decVfa h).trans (body_ofRawV b)
  case h_18 ho => exact eq_ofNat ho ▸ (encBody_of_decVcvt h).trans (body_ofRawV b)
  case h_19 ho => exact eq_ofNat ho ▸ (encBody_of_decVmsk h).trans (body_ofRawV b)
  case h_20 ho => exact eq_ofNat ho ▸ (encBody_of_decVperm h).trans (body_ofRawV b)
  case h_21 ho => exact eq_ofNat ho ▸ (encBody_of_decVred h).trans (body_ofRawV b)
  case h_22 ho => exact eq_ofNat ho ▸ (encBody_of_decVtop h).trans (body_ofRawV b)
  case h_23 ho => exact eq_ofNat ho ▸ (encBody_of_decVrng h).trans (body_ofRawV b)
  case h_24 ho => exact eq_ofNat ho ▸ (encBody_of_decVld h).trans (body_ofRawVM b)
  case h_25 ho => exact eq_ofNat ho ▸ (encBody_of_decVst h).trans (body_ofRawVM b)
  case h_26 ho => exact eq_ofNat ho ▸ (encBody_of_decVamo h).trans (body_ofRawVM b)
  case h_27 ho => exact eq_ofNat ho ▸ (encBody_of_decAelt h).trans (body_ofRawA b)
  case h_28 ho => exact eq_ofNat ho ▸ (encBody_of_decAstr h).trans (body_ofRawA b)
  case h_29 ho => exact eq_ofNat ho ▸ (encBody_of_decAdsc h).trans (body_ofRawA b)
  case h_30 ho => exact eq_ofNat ho ▸ (encBody_of_decMx h).trans (body_ofRawX b)
  case h_31 ho => exact eq_ofNat ho ▸ (encBody_of_decPl h).trans (body_ofRawX b)
  case h_32 ho => exact eq_ofNat ho ▸ (encBody_of_decCls h).trans (body_ofRawC b)
  case h_33 ho => exact eq_ofNat ho ▸ (encBody_of_decAsy h).trans (body_ofRawC b)
  case h_34 => cases h

end

/-- An instruction of the device itself has no encoding (R22). -/
theorem encBody_wordless {i : Instr} (h : wordless i = true) : encBody i = none := by cases i <;> cases h <;> rfl

/-- WellFormed is the absence of a reason why the instruction is ill-formed. -/
theorem wf_iff {i : Instr} : i.wf = true ↔ illFormed i = none := Option.isNone_iff_eq_none

/-- A word decodes to i when its body does and i is well-formed. -/
theorem decodeParts_eq_ok {p : Parts} {i : Instr} :
    decodeParts p = .ok i ↔ decodeBody p.op p.form p.body = .ok i ∧ i.wf = true := by
  unfold decodeParts
  rw [bind_eq_ok]
  constructor
  · rintro ⟨j, hj, h⟩
    split at h
    next hn =>
      obtain rfl := pure_eq_ok.1 h
      exact ⟨hj, wf_iff.2 hn⟩
    next => cases h
  · rintro ⟨hj, hf⟩
    exact ⟨i, hj, by rw [wf_iff.1 hf]; rfl⟩

theorem encode_of_encBody {i : Instr} {e : Enc} (stl : BitVec 3) (h : encBody i = some e) :
    encode i stl = some (Parts.pack ⟨e.op, stl, e.form, e.body⟩) := by rw [encode, h]

/-- STL stands in its field (R13). -/
theorem stlOf_pack (p : Parts) : stlOf p.pack = p.stl.toNat := congrArg (fun q => q.stl.toNat) (Parts.ofWord_pack p)

/-- Settles O58: the tables of the encoder and of the decoder agree row by row, each format is a permutation of the bits of its fields,
and the instructions without a word have no row. -/
theorem encodeThenDecode : Obligations.EncodeThenDecode := by
  refine ⟨fun i stl hf hw => ?_, fun i stl hw => by rw [encode, encBody_wordless hw], fun w i h => ?_⟩
  · obtain ⟨e, he, hd⟩ := decodes_encBody i hf hw
    refine ⟨_, encode_of_encBody stl he, ?_, stlOf_pack _⟩
    rw [decode, Parts.ofWord_pack]
    exact decodeParts_eq_ok.2 ⟨hd, hf⟩
  · obtain ⟨hd, hf⟩ := decodeParts_eq_ok.1 h
    exact ⟨hf, (encode_of_encBody _ (encBody_of_decodeBody hd)).trans (congrArg some (Parts.pack_ofWord w))⟩

end Sys2Proof
end

