-- ==== Sys2Proof/Proofs/Reset.lean ====
section
/-! What reset leaves (O56). -/

namespace Sys2Proof.Machine

/-- Memory is clear at reset, in both apertures. -/
theorem bytesAt_reset (raw : Bool) (pa : Nat) : State.reset.bytesAt raw pa 1 = [0] := by
  cases raw with
  | true => rw [State.bytesAt]; exact ite_self _
  | false =>
    rw [bytesAt_one]
    exact ite_self _

/-- Reset meets the invariant: its tables are empty, and no plan is bound. -/
theorem inv_reset : Inv State.reset :=
  ⟨⟨rfl, rfl, rfl, rfl, rfl⟩, ⟨rfl, rfl, fun _ => Nat.zero_le 5, rfl⟩, fun _ h => absurd h List.not_mem_nil,
    fun _ h => absurd h List.not_mem_nil, fun h => absurd h (by decide), fun _ h => absurd h List.not_mem_nil⟩

/-- Settles O56: the registers by evaluation; every table is empty and reads as its default. -/
theorem resetState : Obligations.ResetState := by
  have hresets : ∀ p ∈ csrResets, State.reset.csr p.1 = p.2 := by decide +kernel
  have hzeros : ∀ r ∈ csrZeros, State.reset.csr r = 0 := by decide +kernel
  have htiles : ∀ t : TReg, ∀ i : Fin 64, State.reset.k.tiles[t][i] = 0 := by decide +kernel
  have hmem (pa : Nat) : byteAt State.reset pa = 0 ∧ rawAt State.reset pa = 0 :=
    ⟨congrArg (List.headD · 0) (bytesAt_reset false pa), congrArg (List.headD · 0) (bytesAt_reset true pa)⟩
  have hpower : ∀ i : Fin 3, Die.reset.pwrctl[i] = 0x64000A0000 ∧ Die.reset.refcnt[i] = 0 := by decide
  exact ⟨rfl, hresets, hzeros, by decide, rfl, rfl, rfl, rfl, hmem, fun _ => rfl, htiles, fun _ _ => ⟨rfl, rfl, rfl⟩,
    fun _ _ => ⟨rfl, rfl, rfl, hpower⟩, fun _ => rfl, inv_reset⟩

end Sys2Proof.Machine
end

