-- ==== Sys2Proof/Proofs/Bytes.lean ====
section
/-! A byte of memory after bytes have been put into one line of it (R310, R311). -/

namespace Sys2Proof.Machine

/-! Lines. -/

/-- Lines are wholly of the HBM or wholly outside it. -/
theorem inHbm_line {a b : Nat} (h : a / 128 = b / 128) : inHbm a = inHbm b := by
  have e : Config.hbmBytes = 0xC000000000 := rfl
  simp only [inHbm, e, decide_eq_decide]
  omega

theorem rawBytes_congr {s t : State} (n : Nat) : ∀ pa, (∀ j, j < n → tabGet 0 t.mem (pa + j) = tabGet 0 s.mem (pa + j)) →
    t.rawBytes pa n = s.rawBytes pa n := by
  induction n with
  | zero => exact fun _ _ => rfl
  | succ n ih =>
    intro pa h
    have ht := ih (pa + 1) fun j hj => by simpa [Nat.add_assoc, Nat.add_comm 1] using h (j + 1) (by omega)
    have h0 : tabGet 0 t.mem pa = tabGet 0 s.mem pa := h 0 (Nat.succ_pos n)
    simp only [State.rawBytes, ht, h0]

theorem leBytes_length (n : Nat) : ∀ v, (leBytes n v).length = n := by
  induction n with
  | zero => exact fun _ => rfl
  | succ n ih => exact fun v => congrArg Nat.succ (ih _)

theorem expand_length (w0 w n : Nat) : ∀ img, (expand w0 w img n).length = 8 * n := by
  induction n with
  | zero => exact fun _ => rfl
  | succ n ih =>
    intro img
    rw [expand, List.length_append, leBytes_length, ih]
    omega

/-- A stored line decodes to 128 bytes (R310). -/
theorem decodeLine_length {g : Nat} {img bs : List Byte} (hi : img.length = 128) (h : decodeLine g img = some bs) : bs.length = 128 := by
  unfold decodeLine at h
  split at h
  case h_1 => exact Option.some.inj h ▸ hi
  case h_2 => exact Option.some.inj h ▸ List.length_replicate
  case h_3 =>
    obtain rfl := Option.some.inj h
    simp [leBytes_length]
  case h_4 | h_5 | h_6 => exact Option.some.inj h ▸ expand_length _ _ _ _
  case h_7 => cases h

/-- The line at an index as a write merges with it: zeros where it does not decode. -/
def State.lineOr0 (s : State) (line : Nat) : List Byte := (s.lineBytes line).getD (List.replicate 128 0)

theorem lineOr0_length (s : State) (line : Nat) : (s.lineOr0 line).length = 128 := by
  unfold State.lineOr0
  cases h : s.lineBytes line with
  | none => exact List.length_replicate
  | some bs => exact decodeLine_length (rawBytes_length _ _ _) h

/-! A byte, as it is stored. -/

theorem headD_eq_getD (l : List Byte) : l.headD 0 = l.getD 0 0 := by cases l <;> rfl

/-- A byte outside the HBM, or of a line that is not encoded, is the stored one. -/
theorem byteAt_stored {s : State} {a : Nat} (h : inHbm a = false ∨ s.tagOf (a / 128) = 0) : byteAt s a = tabGet 0 s.mem a := by
  rw [byteAt, bytesAt_one]
  cases hb : inHbm a with
  | false => rfl
  | true =>
    have ht : s.tagOf (a / 128) = 0 := by simpa [hb] using h
    rw [if_pos rfl, State.normalPart, if_pos ht]
    exact congrArg (tabGet 0 s.mem) (Nat.div_add_mod a 128)

/-- A byte of an encoded line is that of the line it decodes to. -/
theorem byteAt_encoded {s : State} {a : Nat} (hb : inHbm a = true) (ht : s.tagOf (a / 128) ≠ 0) :
    byteAt s a = (s.lineOr0 (a / 128)).getD (a % 128) 0 := by
  have ha : a % 128 < 128 := Nat.mod_lt _ (by decide)
  rw [byteAt, bytesAt_one, if_pos hb, State.normalPart, if_neg ht, State.lineOr0]
  cases s.lineBytes (a / 128) with
  | none => simp only [Option.getD_none, List.getD_replicate _ ha]; rfl
  | some bs =>
    rw [headD_eq_getD]
    simp [List.getD_eq_getElem?_getD]

/-- Where the tag and the stored bytes of a line are the same, so are its bytes. -/
theorem byteAt_congr {s t : State} {a : Nat} (ht : t.tagOf (a / 128) = s.tagOf (a / 128))
    (hm : ∀ b, b / 128 = a / 128 → tabGet 0 t.mem b = tabGet 0 s.mem b) : byteAt t a = byteAt s a := by
  by_cases h : inHbm a = false ∨ s.tagOf (a / 128) = 0
  · rw [byteAt_stored h, byteAt_stored (by rwa [ht]), hm a rfl]
  · obtain ⟨hb, hg⟩ := not_or.1 h
    have hl : t.lineOr0 (a / 128) = s.lineOr0 (a / 128) := by
      simp only [State.lineOr0, State.lineBytes, ht]
      rw [rawBytes_congr 128 _ fun j hj => hm _ (by omega)]
    rw [byteAt_encoded (by simpa using hb) hg, byteAt_encoded (by simpa using hb) (ht ▸ hg), hl]

/-- A byte depends on memory and its tags alone. -/
theorem byteAt_of_mem {s t : State} (hm : t.mem = s.mem) (hg : t.tags = s.tags) (a : Nat) : byteAt t a = byteAt s a :=
  byteAt_congr (by rw [State.tagOf, hg]; rfl) fun b _ => by rw [hm]

/-! Several bytes of one line. -/

theorem bytesAt_part (s : State) {pa n : Nat} (hn : pa % 128 + n ≤ 128) : s.bytesAt false pa n =
    if inHbm pa then s.normalPart (pa / 128) (pa % 128) n else s.rawBytes pa n := by
  have h : min n (128 - pa % 128) = n := by omega
  cases n with
  | zero =>
    have hz : s.normalPart (pa / 128) (pa % 128) 0 = [] := List.eq_nil_of_length_eq_zero (Nat.le_zero.1 (normalPart_length _ _ _ _))
    simp [State.bytesAt, State.normalBytes, State.rawBytes, hz]
  | succ n =>
    by_cases hb : inHbm pa = true
    · simp [State.bytesAt, hb, State.normalBytes, h]
    · simp [State.bytesAt, hb]

theorem bytesAt_getD (s : State) {pa n j : Nat} (hn : pa % 128 + n ≤ 128) (hj : j < n) :
    (s.bytesAt false pa n).getD j 0 = byteAt s (pa + j) := by
  have hl : (pa + j) / 128 = pa / 128 := by omega
  have ho : (pa + j) % 128 = pa % 128 + j := by omega
  rw [bytesAt_part s hn, byteAt, bytesAt_one, inHbm_line hl, hl, ho, headD_eq_getD]
  split
  · exact normalPart_getD _ _ _ _ _ hj
  · rw [rawBytes_getD _ _ _ _ hj, rawBytes_getD _ _ _ _ Nat.one_pos, Nat.add_zero]

/-- The value of bytes of one line. -/
theorem leNat_bytesAt (s : State) {pa n : Nat} (hn : pa % 128 + n ≤ 128) : leNat (s.bytesAt false pa n) = bigAt s pa n := by
  have len : (s.bytesAt false pa n).length ≤ n := by
    rw [bytesAt_part s hn]
    split
    · exact normalPart_length _ _ _ _
    · exact Nat.le_of_eq (rawBytes_length _ _ _)
  refine leNat_ext _ _ fun j => ?_
  by_cases hj : j < n
  · rw [bytesAt_getD s hn hj]
    simp [List.getD_eq_getElem?_getD, hj]
  · rw [List.getD_eq_default _ _ (by omega), List.getD_eq_default _ _ (by simpa using hj)]

/-- A read where no error stands, no pseudo-channel sleeps and every tag is one of the six finds no error. -/
theorem checkRead_quiet {s : State} (hb : s.bad = []) (hc : s.chans = []) (ht : ∀ line, s.tagOf line ≤ 5) (lay : Lay) (pa n : Nat) :
    s.checkRead lay pa n = (s, none) := by
  have parts (f : Nat) : ∀ pa n, s.readParts lay f pa n = (s, none) := by
    induction f with
    | zero => exact fun _ _ => rfl
    | succ f ih =>
      intro pa n
      have hg : ¬ 5 < s.tagOf (pa / 128) := Nat.not_lt.2 (ht _)
      simp [State.readParts, hg, hb, ih]
  simp [State.checkRead, State.wake, hc, hb, parts]

/-! Bytes put into one line. -/

theorem putBytes_line (s : State) {pa : Nat} {bs : List Byte} (hn : pa % 128 + bs.length ≤ 128) (h0 : bs ≠ []) (hb : s.bad = []) :
    ∃ u : State, u.mem = s.mem ∧ u.tags = s.tags ∧ u.bad = [] ∧ s.putBytes none Lay.plain pa bs =
      if inHbm pa then u.putLine none Lay.plain (pa / 128) (pa % 128) bs else u.putRaw pa bs := by
  obtain ⟨cs, hc⟩ := wake_chans s Lay.plain pa bs.length
  have ht : bs.take (128 - pa % 128) = bs := List.take_of_length_le (by omega)
  have hd : bs.drop (128 - pa % 128) = [] := List.drop_eq_nil_of_le (by omega)
  refine ⟨{ s with chans := cs }, rfl, rfl, hb, ?_⟩
  by_cases hh : inHbm pa = true
  · simp [State.putBytes, hc, hh, State.putLines, h0, ht, hd]
  · simp [State.putBytes, hc, hh, hb]

/-- A write to a line that is not encoded puts its bytes there. -/
theorem putLine_stored {s : State} {line : Nat} (o : Nat) (bs : List Byte) (hb : s.bad = []) (ht : s.tagOf line = 0) :
    s.putLine none Lay.plain line o bs = s.putRaw (128 * line + o) bs := by
  simp [State.putLine, Lay.plain, ht, hb]

/-- A write to an encoded line leaves the merged line, not encoded (R311). -/
theorem putLine_encoded {s : State} {line : Nat} (o : Nat) (bs : List Byte) (hb : s.bad = []) (ht : s.tagOf line ≠ 0) :
    ∃ t, s.putLine none Lay.plain line o bs = t ∧ t.tags = tabSet 0 s.tags line 0 ∧
      t.mem = (s.putRaw (128 * line) ((s.lineOr0 line).take o ++ bs ++ (s.lineOr0 line).drop (o + bs.length))).mem := by
  simp [State.putLine, Lay.plain, ht, hb, encodeLine, State.lineOr0]

theorem putRaw_tags (bs : List Byte) : ∀ (s : State) (pa : Nat), (s.putRaw pa bs).tags = s.tags := by
  induction bs with
  | nil => exact fun _ _ => rfl
  | cons b t ih => exact fun s pa => ih { s with mem := tabSet 0 s.mem pa b } (pa + 1)

/-- An item of a list into which others have been merged. -/
theorem getD_merge {l bs : List Byte} {o j : Nat} (h : o + bs.length ≤ l.length) :
    (l.take o ++ bs ++ l.drop (o + bs.length)).getD j 0 = if o ≤ j ∧ j < o + bs.length then bs.getD (j - o) 0 else l.getD j 0 := by
  have hl : (l.take o).length = o := List.length_take_of_le (by omega)
  simp only [List.getD_eq_getElem?_getD, List.append_assoc, List.getElem?_append, hl, List.getElem?_take, List.getElem?_drop]
  by_cases h1 : j < o
  · rw [if_pos h1, if_pos h1, if_neg (by omega)]
  · rw [if_neg h1]
    by_cases h2 : j - o < bs.length
    · rw [if_pos h2, if_pos (by omega)]
    · rw [if_neg h2, if_neg (by omega)]
      congr 2
      omega

/-- Bytes put where they are stored as they are read. -/
theorem byteAt_putRaw {s : State} {pa : Nat} {bs : List Byte} (hm : s.MemOk) (hn : pa % 128 + bs.length ≤ 128)
    (hk : inHbm pa = false ∨ s.tagOf (pa / 128) = 0) (a : Nat) :
    byteAt (s.putRaw pa bs) a = if pa ≤ a ∧ a < pa + bs.length then bs.getD (a - pa) 0 else byteAt s a := by
  have hg (l : Nat) : (s.putRaw pa bs).tagOf l = s.tagOf l := by rw [State.tagOf, putRaw_tags]; rfl
  by_cases hl : a / 128 = pa / 128
  · rw [← hl, ← inHbm_line hl] at hk
    rw [byteAt_stored (s := s) hk, byteAt_stored (by rwa [hg]), putRaw_byte _ _ _ _ hm]
  · rw [if_neg (by omega)]
    refine byteAt_congr (hg _) fun b hb => ?_
    rw [putRaw_byte _ _ _ _ hm, if_neg (by omega)]

/-- Bytes put into an encoded line. -/
theorem byteAt_putLine {s : State} {line o : Nat} {bs : List Byte} (hm : s.MemOk) (hw : tabWf 0 s.tags = true) (hb : s.bad = [])
    (hn : o + bs.length ≤ 128) (hh : inHbm (128 * line) = true) (ht : s.tagOf line ≠ 0) (a : Nat) :
    byteAt (s.putLine none Lay.plain line o bs) a =
      if 128 * line + o ≤ a ∧ a < 128 * line + o + bs.length then bs.getD (a - (128 * line + o)) 0 else byteAt s a := by
  have hlen := lineOr0_length s line
  obtain ⟨t, hp, htt, htm⟩ := putLine_encoded o bs hb ht
  rw [hp]
  generalize hx : (s.lineOr0 line).take o ++ bs ++ (s.lineOr0 line).drop (o + bs.length) = after at htm
  have hal : after.length = 128 := by simp [← hx, hlen]; omega
  have hg (l : Nat) : t.tagOf l = if l = line then 0 else s.tagOf l := by
    rw [State.tagOf, htt, tabGet_set _ _ _ _ _ hw]
    rfl
  have hb (b : Nat) : tabGet 0 t.mem b =
      if 128 * line ≤ b ∧ b < 128 * line + 128 then after.getD (b - 128 * line) 0 else tabGet 0 s.mem b := by
    rw [htm, putRaw_byte _ _ _ _ hm, hal]
  by_cases hl : a / 128 = line
  · have hha : inHbm a = true := by rw [← hh]; exact inHbm_line (by omega)
    rw [byteAt_stored (.inr (by rw [hg, if_pos hl])), hb, if_pos (by omega), byteAt_encoded hha (hl ▸ ht), hl, ← hx,
      getD_merge (by omega), show a - 128 * line = a % 128 by omega]
    by_cases hr : o ≤ a % 128 ∧ a % 128 < o + bs.length
    · rw [if_pos hr, if_pos (by omega)]
      congr 1
      omega
    · rw [if_neg hr, if_neg (by omega)]
  · rw [if_neg (by omega)]
    refine byteAt_congr (by rw [hg, if_neg hl]) fun b hbl => ?_
    rw [hb, if_neg (by omega)]

/-- Each byte after bytes have been put into one line: those put where they were put, else as before. -/
theorem byteAt_putBytes {s : State} {pa : Nat} {bs : List Byte} (hn : pa % 128 + bs.length ≤ 128) (h0 : bs ≠ []) (hb : s.bad = [])
    (hs : BytesOk s) (a : Nat) :
    byteAt (s.putBytes none Lay.plain pa bs) a = if pa ≤ a ∧ a < pa + bs.length then bs.getD (a - pa) 0 else byteAt s a := by
  obtain ⟨hmem, htags, -, -⟩ := hs
  obtain ⟨u, hum, hut, hub, hp⟩ := putBytes_line s hn h0 hb
  have hmem' : u.MemOk := by rwa [State.MemOk, hum]
  have hpa : 128 * (pa / 128) + pa % 128 = pa := Nat.div_add_mod pa 128
  rw [hp, ← byteAt_of_mem hum hut]
  by_cases hh : inHbm pa = true
  · rw [if_pos hh]
    by_cases ht : u.tagOf (pa / 128) = 0
    · rw [putLine_stored _ _ hub ht, hpa]
      exact byteAt_putRaw hmem' hn (.inr ht) a
    · have hl : inHbm (128 * (pa / 128)) = true := (inHbm_line (by omega)).trans hh
      have := byteAt_putLine hmem' (hut ▸ htags) hub hn hl ht a
      rwa [hpa] at this
  · rw [if_neg hh]
    exact byteAt_putRaw hmem' hn (.inl (by simpa using hh)) a

end Sys2Proof.Machine
end

