-- ==== Sys2Proof/Proofs/Launch.lean ====
section
/-! Launch records: completion, reading, firing, reserving, and the expiry of RCWIN (O52). -/

namespace Sys2Proof.Machine

/-! What the statements say of a queue context in its own fields. -/

theorem toNat_extract_five (x : BitVec 512) (n : Nat) : (x.extractLsb' n 5).toNat = x.toNat / 2 ^ n % 32 := by
  rw [BitVec.extractLsb'_toNat, Nat.shiftRight_eq_div_pow]

theorem qcSize_eq (q : BitVec 512) : qcSize q = 2 ^ (q.toNat / 2 ^ 384 % 32) := congrArg (2 ^ ·) (toNat_extract_five q 384)

theorem queueOpen_iff {s : State} {die q : Nat} : s.queueOpen die q = true ↔
    (s.pkgAt (die / 4)).boot = .running ∧ (s.dieAt die).down = false ∧ (s.queueAt die q).set = true := by
  simp [State.queueOpen, and_assoc]

theorem waitingOf_isNone {s : State} {die q : Nat} : (s.waitingOf die q).isNone = true ↔ ∀ v ∈ (s.dieAt die).waiting, v.queue ≠ q := by
  simp [State.waitingOf]

/-- The record's own bytes give 0xFD (R284). -/
theorem badLaunch_iff {r q : BitVec 512} : badLaunch r q = true ↔ RecordBad r q := by
  simp only [badLaunch, recZero, Bool.or_eq_true, bne_iff_ne, beq_iff_eq, Bool.not_eq_true', beq_eq_false_iff_ne, decide_eq_true_eq,
    or_assoc]
  exact Iff.rfl

/-! The completion record (R289, R291). -/

theorem MemStep.memoryOnly {s t : State} (h : MemStep s t) : MemoryOnly s t := by
  obtain ⟨⟨_, _, _, _, _, _, rfl⟩, -⟩ := h
  exact ⟨rfl, fun g => ⟨_, _, rfl⟩⟩

/-- Three flags as one number. -/
theorem flags_eq (a b : Bool) (n : Nat) : a.toNat + 2 * b.toNat + 128 * (n == 0).toNat =
    (if a then 1 else 0) + (if b then 2 else 0) + if n = 0 then 128 else 0 := by
  cases a <;> cases b <;> cases n <;> rfl

/-- The bytes that the model writes are those of the record. -/
theorem completionRecord_eq (s : State) (die : Nat) (n : BitVec 32) (image q : BitVec 512) (dig fire : Word) (st : BitVec 8)
    (late : Bool) (frozen : Nat) :
    let done := (s.dieAt die).tick
    let miss := decide (recN image 32 8 ≠ 0 ∧ recN image 32 8 < done.toNat)
    s.completionRecord die n image q dig fire st late frozen =
      (if miss then s.count (die / 4) .deadlineMiss die 1 else s).devPut
        (recN q 56 8 % 2 ^ 52 / 32 * 32 + 32 * (n.toNat % 2 ^ (q.toNat / 2 ^ 384 % 32)))
        (completionBytes n q dig fire done st miss late frozen) := by
  have hm : (lrDeadline image != 0 && decide (lrDeadline image < (s.dieAt die).tick.toNat)) =
      decide (recN image 32 8 ≠ 0 ∧ recN image 32 8 < (s.dieAt die).tick.toNat) := by
    rw [Bool.decide_and, bne, beq_eq_decide, decide_not]
    rfl
  simp only [State.completionRecord, hm, completionBytes, qcSize_eq, qcCring, flags_eq]

theorem completionBytes_length (n : BitVec 32) (q : BitVec 512) (dig fire done : Word) (st : BitVec 8) (miss late : Bool)
    (frozen : Nat) : (completionBytes n q dig fire done st miss late frozen).length = 32 := by
  simp only [completionBytes, List.length_append, leBytes_length, List.length_cons, List.length_nil]

/-- Where its ring is memory a completion record is its 32 bytes there, and a deadline missed is counted. -/
theorem completionRecord_spec (s : State) (die : Nat) (n : BitVec 32) (image q : BitVec 512) (dig fire : Word) (st : BitVec 8)
    (late : Bool) (frozen : Nat) :
    let at_ := recN q 56 8 % 2 ^ 52 / 32 * 32 + 32 * (n.toNat % 2 ^ (q.toNat / 2 ^ 384 % 32))
    let done := (s.dieAt die).tick
    let miss := decide (recN image 32 8 ≠ 0 ∧ recN image 32 8 < done.toNat)
    s.bad = [] → BytesOk s → (s.place at_).isMem = true → ∃ u,
      MemoryOnly (if miss then s.count (die / 4) .deadlineMiss die 1 else s) u ∧
      s.completionRecord die n image q dig fire st late frozen = u ∧
      ∀ a, byteAt u a = if at_ ≤ a ∧ a < at_ + 32 then (completionBytes n q dig fire done st miss late frozen).getD (a - at_) 0
        else byteAt s a := by
  intro at_ done miss hb hs hp
  have hw := completionRecord_eq s die n image q dig fire st late frozen
  have hlen : (completionBytes n q dig fire done st miss late frozen).length = 32 := completionBytes_length _ _ _ _ _ _ _ _ _
  have ht : ∃ t, (if miss then s.count (die / 4) .deadlineMiss die 1 else s) = t ∧ t.bad = [] ∧ BytesOk t ∧ t.place at_ = s.place at_ ∧
      ∀ a, byteAt t a = byteAt s a := by
    cases miss with
    | false => exact ⟨s, rfl, hb, hs, rfl, fun _ => rfl⟩
    | true => exact ⟨_, rfl, hb, hs, rfl, byteAt_of_mem rfl rfl⟩
  obtain ⟨t, hc, htb, hts, htp, hta⟩ := ht
  have hput : s.completionRecord die n image q dig fire st late frozen =
      t.putBytes none Lay.plain at_ (completionBytes n q dig fire done st miss late frozen) := by
    rw [hw, hc, State.devPut, if_pos (by rw [htp]; exact hp)]
  refine ⟨_, by rw [hc]; exact (putBytes_step t none Lay.plain at_ _).memoryOnly, hput, fun a => ?_⟩
  have hal : at_ % 128 + 32 ≤ 128 := by omega
  rw [byteAt_putBytes (by rw [hlen]; exact hal) (List.ne_nil_of_length_eq_add_one hlen) htb hts, hlen, hta]

/-! Reading a record (R279, R284). -/

theorem headRecord_eq (s : State) (die q : Nat) :
    BitVec.ofNat 512 (leNat (s.bytesAt false (qcRing (s.queueAt die q).image +
      64 * ((s.queueAt die q).head.toNat % qcSize (s.queueAt die q).image)) 64)) = headRecord s die q := by
  rw [leNat_bytesAt _ (by unfold qcRing; omega), headRecord, qcSize_eq]
  rfl

/-- The record at the head, where it can be read, as the model keeps it. -/
def headWaiting (s : State) (die q : Nat) : Waiting :=
  let h := s.queueAt die q
  let r := headRecord s die q
  let x := s.dieAt die
  ⟨q, h.head, r, h.image, x.prep, x.era, [], 0, decide (recN r 40 8 ≠ 0 ∧ recN r 40 8 < x.tick.toNat), false⟩

theorem readRecord_eq {s : State} {die q : Nat} (hb : s.bad = []) (hc : s.chans = []) (ht : ∀ line, s.tagOf line ≤ 5)
    (hp : (s.place (qcRing (s.queueAt die q).image +
      64 * ((s.queueAt die q).head.toNat % qcSize (s.queueAt die q).image))).isMem = true) :
    s.readRecord die q = match s.launchStatus die (headRecord s die q) (s.queueAt die q).image with
      | (t, some st) => (t.refuseRecord die { headWaiting s die q with late := false } st).advanceHead die q
      | (t, none) => t.onDie die fun x => { x with waiting := x.waiting ++ [headWaiting s die q] } := by
  have hl : (lrStart (headRecord s die q) != 0 && decide (lrStart (headRecord s die q) < (s.dieAt die).tick.toNat)) =
      decide (recN (headRecord s die q) 40 8 ≠ 0 ∧ recN (headRecord s die q) 40 8 < (s.dieAt die).tick.toNat) := by
    rw [Bool.decide_and, bne, beq_eq_decide, decide_not]
    rfl
  simp only [State.readRecord, checkRead_quiet hb hc ht, hp, headRecord_eq, hl]
  rfl

theorem launchStatus_of_bad {s : State} {die : Nat} {r q : BitVec 512} (h : RecordBad r q) :
    s.launchStatus die r q = (s, some 0xFD) := by rw [State.launchStatus, if_pos (badLaunch_iff.2 h)]

end Sys2Proof.Machine
end

