-- ==== Sys2Proof/Proofs/Reserve.lean ====
section
/-! Firing a record, and the record without images (O52). -/

namespace Sys2Proof.Machine

/-! Firing (R285). -/

theorem due_iff {w : Waiting} {x : Die} : (lrStart w.image == 0 || decide (lrStart w.image ≤ x.tick.toNat)) = true ↔
    (recN w.image 40 8 = 0 ∨ recN w.image 40 8 ≤ x.tick.toNat) := by
  rw [Bool.or_eq_true, beq_iff_eq, decide_eq_true_eq]
  exact Iff.rfl

/-- A record whose dig has ended completes where it would fire; another becomes a fired one. -/
theorem fire_eq (s : State) (die : Nat) {w : Waiting} (hr : w.reserved = []) : s.fire die w =
    let s1 := pastHead (s.onDie die fun x => { x with waiting := x.waiting.filter (·.queue != w.queue) }) die w.queue
    if w.ended then s1.completionRecord die w.n w.image w.qctx (digNumber die w.queue w.n w.image) (s1.dieAt die).tick 0xFE w.late 0
    else s1.onDie die fun x => { x with launches := x.launches ++
      [⟨w.queue, w.n, w.image, w.qctx, w.era, digNumber die w.queue w.n w.image, (s.dieAt die).tick, 0, 0, 0, 0, [], w.late⟩] } := by
  rw [State.fire, hr]
  rfl

/-! A record without an image table (R283). -/

theorem tableLen_zero (k : Nat) : tableLen 0 k = 0 := by
  rw [tableLen, recN, BitVec.ofNat_eq_ofNat, BitVec.toNat_zero, Nat.zero_div, Nat.zero_mod]

theorem loadImage_zero (s : State) (v : View) (k : Nat) (put : State → List Byte → State) (last : Option (BitVec 16 × Word))
    (table : BitVec 16 × Word) : s.loadImage v 0 k put last table = (s, true) := by
  rw [State.loadImage, tableLen_zero]
  rfl

section
variable {r : BitVec 512} (h : recN r 56 8 = 0) (s : State)
include h

theorem readTable_empty (v : View) : s.readTable v (lrImgt r) = (s, some 0) := by
  rw [State.readTable, if_pos (by rw [lrImgt, h]; rfl)]

theorem loadImages_empty (q : BitVec 512) (g : Nat) : s.loadImages r q g = (s, true) := by
  simp only [State.loadImages, readTable_empty h, loadImage_zero, Bool.and_self]

theorem loadCrew_empty (q : BitVec 512) (gs : List Nat) : s.loadCrew r q gs = (s, true) := by
  induction gs with
  | nil => rfl
  | cons g t ih => rw [State.loadCrew, loadImages_empty h]; exact ih

theorem recordImages_empty (die : Nat) (q : BitVec 512) : s.recordImages die r q = 0 := by
  rw [State.recordImages, readTable_empty h]
  simp only [tableImages, tableLen_zero]
  rfl

end

/-! Reserving contexts (R290). -/

theorem preparing_iff {w : Waiting} {x : Die} : w.preparing x = true ↔ w.ended = false ∧ x.tick.toNat < recN w.image 40 8 ∧
    recN w.image 40 8 ≤ x.tick.toNat + w.prep ∧ w.reserved.length ≤ recN w.image 18 2 := by
  rw [Waiting.preparing, Bool.and_eq_true, Bool.and_eq_true, Bool.and_eq_true, decide_eq_true_eq, decide_eq_true_eq,
    decide_eq_true_eq, Bool.not_eq_true', lrCrews, Nat.lt_succ_iff, and_assoc, and_assoc]
  exact Iff.rfl

end Sys2Proof.Machine
end

