-- ==== Sys2Proof/Proofs/Placement.lean ====
section
/-! Placing a crew (O52): each task takes a free save record of the record's pool and a context. -/

namespace Sys2Proof.Machine

/-! Writes of what an unlisted key does not read as are read back from any table. -/

theorem tabGet_set_of_ne {α : Type} [DecidableEq α] {d v : α} (t : Tab α) (k j : Nat) (h : v ≠ d) :
    tabGet d (tabSet d t k v) j = if j = k then v else tabGet d t j := by
  rw [tabSet, if_neg h]
  by_cases hj : j = k
  · rw [if_pos hj, hj, tabGet_put_same]
  · rw [if_neg hj, tabGet_put_other _ _ _ hj]

/-- A die that has fired records is read back as it was written. -/
theorem dieAt_onDie_launches {s : State} {n : Nat} {f : Die → Die} (h : (f (s.dieAt n)).launches ≠ []) :
    (s.onDie n f).dieAt n = f (s.dieAt n) :=
  (tabGet_set_of_ne _ _ _ fun he => h (congrArg Die.launches he)).trans (if_pos rfl)

/-- A context that is BOUND is read back as it was written. -/
theorem ctxAt_putCtx_bound (s : State) (g : Nat) {c : Ctx} (h : c.status = .bound) (n : Nat) :
    (s.putCtx g c).ctxAt n = if n = g then c else s.ctxAt n := by
  have hc : c ≠ Ctx.reset := fun he => absurd (h.symm.trans (congrArg Ctx.status he)) (by decide)
  unfold State.putCtx State.ctxAt
  by_cases hg : g = s.here
  · subst hg
    by_cases hn : n = s.here <;> simp [hn]
  · by_cases hn : n = g
    · subst hn
      simp [hg, tabGet_set_of_ne _ _ _ hc]
    · simp [hg, hn, tabGet_set_of_ne _ _ _ hc]

/-! Which crew is next (R288). -/

theorem mem_insertBy {α : Type} {le : α → α → Bool} {a b : α} {l : List α} : b ∈ insertBy le a l → b = a ∨ b ∈ l := by
  induction l with
  | nil => exact fun h => .inl (List.mem_singleton.1 h)
  | cons c t ih =>
    intro h
    rw [insertBy] at h
    split at h
    · exact List.mem_cons.1 h
    · obtain rfl | h := List.mem_cons.1 h
      · exact .inr (.head _)
      · exact (ih h).imp_right (.tail _)

theorem mem_of_mem_sortBy {α : Type} {le : α → α → Bool} {b : α} {l : List α} : b ∈ sortBy le l → b ∈ l := by
  induction l with
  | nil => exact id
  | cons a t ih =>
    intro h
    obtain rfl | h := mem_insertBy h
    · exact .head _
    · exact .tail _ (ih h)

theorem mem_launches_of_candidates {x : Die} {cls : Nat} {l : Launch} (h : l ∈ x.candidates cls) : l ∈ x.launches :=
  List.mem_of_mem_filter (mem_of_mem_sortBy h)

/-- The next crew is of a fired record, and its pool has a save record for each task. -/
theorem nextLaunch_some {s : State} {die : Nat} {l : Launch} (h : s.nextLaunch die = some l) :
    l ∈ (s.dieAt die).launches ∧ lrTasks l.image ≤ (s.dieAt die).freeSaves l.era := by
  unfold State.nextLaunch at h
  extract_lets x ok floor at h
  split at h
  · cases h
  · have hk : ok l = true := List.find?_some h
    have hm := List.mem_of_find?_eq_some h
    refine ⟨?_, of_decide_eq_true (Bool.and_eq_true _ _ ▸ hk).2⟩
    simp only [List.mem_append] at hm
    obtain ((hm | hm) | hm) | hm := hm
    · split at hm
      · exact mem_launches_of_candidates hm
      · cases hm
    all_goals exact mem_launches_of_candidates hm

/-! Save records (R239). -/

/-- The save records of an era are at different addresses. -/
def Die.SavesApart (x : Die) (era : Nat) : Prop := ((x.pool.filter (·.era == era)).map (·.pa)).Nodup

/-- A save record once that at an address has been taken. -/
def SaveRec.taken (pa : Nat) (r : SaveRec) : SaveRec := if r.pa = pa then { r with used := true } else r

@[simp] theorem SaveRec.taken_pa (pa : Nat) (r : SaveRec) : (r.taken pa).pa = r.pa := by unfold SaveRec.taken; split <;> rfl
@[simp] theorem SaveRec.taken_era (pa : Nat) (r : SaveRec) : (r.taken pa).era = r.era := by unfold SaveRec.taken; split <;> rfl
theorem SaveRec.taken_used (pa : Nat) (r : SaveRec) : (r.taken pa).used = (r.used || r.pa == pa) := by
  unfold SaveRec.taken
  by_cases h : r.pa = pa <;> simp [h]

theorem takeSave_of_find {x : Die} {era : Nat} {r : SaveRec} (h : x.pool.find? (fun r => r.era == era && !r.used) = some r) :
    x.takeSave era = some (r, { x with pool := x.pool.map (SaveRec.taken r.pa) }) := by
  rw [Die.takeSave, h]
  rfl

theorem countP_le_add {α : Type} {p q r : α → Bool} (h : ∀ a, p a = true → q a = true ∨ r a = true) (l : List α) :
    l.countP p ≤ l.countP q + l.countP r := by
  induction l with
  | nil => exact Nat.le_refl 0
  | cons a t ih =>
    have ha : (if p a then 1 else 0) ≤ (if q a then 1 else 0) + (if r a then 1 else 0) := by
      have := h a
      split_ifs <;> simp_all
    simp only [List.countP_cons]
    omega

/-- At most one save record of the era lies at the address taken. -/
theorem freeSaves_taken {pool : List SaveRec} {era : Nat} (pa : Nat)
    (hn : ((pool.filter (·.era == era)).map (·.pa)).Nodup) :
    (pool.filter fun r => r.era == era && !r.used).length ≤
      ((pool.map (SaveRec.taken pa)).filter fun r => r.era == era && !r.used).length + 1 := by
  have hone : pool.countP (fun r => r.era == era && r.pa == pa) ≤ 1 := by
    have h := List.nodup_iff_count_le_one.1 hn pa
    rw [List.count_eq_countP, List.countP_map, List.countP_filter] at h
    exact Nat.le_trans (List.countP_mono_left fun r _ hr => by simpa [and_comm] using hr) h
  have hsplit : ∀ r : SaveRec, (r.era == era && !r.used) = true →
      (r.era == era && !(r.used || r.pa == pa)) = true ∨ (r.era == era && r.pa == pa) = true := by
    intro r
    cases r.era == era <;> cases r.used <;> cases r.pa == pa <;> decide
  rw [← List.countP_eq_length_filter, ← List.countP_eq_length_filter, List.countP_map]
  have he : ((fun r : SaveRec => r.era == era && !r.used) ∘ SaveRec.taken pa) = fun r => r.era == era && !(r.used || r.pa == pa) := by
    funext r
    simp [SaveRec.taken_used]
  rw [he]
  exact Nat.le_trans (countP_le_add hsplit pool) (Nat.add_le_add_left hone _)

/-- Taking a save record of an era leaves the others of it free, and the fired records as they were. -/
theorem takeSave_spec {x : Die} {era : Nat} (hf : 0 < x.freeSaves era) (hn : x.SavesApart era) :
    ∃ r y, x.takeSave era = some (r, y) ∧ y.launches = x.launches ∧ y.SavesApart era ∧ x.freeSaves era ≤ y.freeSaves era + 1 := by
  have hfree : ∃ r, x.pool.find? (fun r => r.era == era && !r.used) = some r := by
    obtain ⟨r, hr⟩ := List.exists_mem_of_length_pos hf
    exact Option.isSome_iff_exists.1 (List.find?_isSome.2 ⟨r, List.mem_of_mem_filter hr, (List.mem_filter.1 hr).2⟩)
  obtain ⟨r, hr⟩ := hfree
  have hera : ((·.era == era) ∘ SaveRec.taken r.pa) = (·.era == era) := by funext q; simp
  have hpa : ((·.pa) ∘ SaveRec.taken r.pa) = (·.pa) := by funext q; simp
  refine ⟨r, _, takeSave_of_find hr, rfl, ?_, freeSaves_taken r.pa hn⟩
  rw [Die.SavesApart, List.filter_map, hera, List.map_map, hpa]
  exact hn

/-! A task bound to its context (R286). -/

/-- The task of place j of the next crew of a record. -/
def IsTask (l : Launch) (j : Nat) (t : Task) : Prop :=
  t.dig = l.dig ∧ t.queue = l.queue ∧ t.n = l.n ∧ t.crew = lrCrew0 l.image + l.placed ∧ t.member = memberOf l.image j ∧
    t.stage = stageOf l.image j ∧ t.began = false

/-- The context of that task as it starts, with the generation and the charge that the context has. -/
def Started (c old : Ctx) (l : Launch) (g j : Nat) : Prop :=
  ∃ t, IsTask l j t ∧ c = { startCtx g old.gen l t with charge := old.charge }

/-- CREWID and the place of a task, in x2 (R286). -/
theorem startCtx_x2 (g : Nat) (gen : BitVec 16) (l : Launch) (t : Task) : (startCtx g gen l t).x[2] =
    BitVec.ofNat 64 (t.crew + t.member * 2 ^ 16 + t.stage * 2 ^ 20 + dieOf g % 4 * 2 ^ 24 + pkgOf g * 2 ^ 26) := rfl

theorem startCtx_x_zero (g : Nat) (gen : BitVec 16) (l : Launch) (t : Task) (i : XReg) (h : i = 0 ∨ 6 < i) :
    (startCtx g gen l t).x[i] = 0 := by
  have hi : i.val = 0 ∨ 6 < i.val := h.imp (congrArg Fin.val) id
  simp only [startCtx, Fin.getElem_fin, Vector.getElem_set, Vector.getElem_replicate]
  rw [if_neg (by omega), if_neg (by omega), if_neg (by omega), if_neg (by omega), if_neg (by omega), if_neg (by omega)]
  rfl

theorem starts_of_started {c old : Ctx} {l : Launch} {g j : Nat} (h : Started c old l g j) : Starts c old l g j := by
  obtain ⟨t, ⟨hdig, hqueue, hn, hcrew, hmember, hstage, hbegan⟩, rfl⟩ := h
  have hprio : BitVec.ofNat 2 (lrClass l.image) = BitVec.ofNat 2 (recN l.image 23 1) :=
    BitVec.eq_of_toNat_eq (by simp [lrClass])
  have htsp := BitVec.ofNat_add (n := 64) (recN l.qctx 16 8) (recN l.qctx 24 4 * (g % 4))
  refine ⟨t, hdig, hqueue, hn, hcrew, hmember, hstage, hbegan, (startCtx g old.gen l t).x, rfl, ?_, rfl, rfl, rfl, rfl,
    startCtx_x_zero _ _ _ _, ?_⟩
  · rw [startCtx_x2, hcrew, hmember, hstage]
    rfl
  · simp only [startCtx, hprio, htsp]
    rfl

/-! The record of a crew. -/

/-- A fired record once tasks with these save records have been bound for the record l. -/
def Launch.bound (l : Launch) (saves : List Nat) (m : Launch) : Launch :=
  if m.queue = l.queue ∧ m.n = l.n then { m with live := m.live + saves.length, saves := m.saves ++ saves } else m

theorem Launch.bound_key (l : Launch) (saves : List Nat) (m : Launch) :
    (l.bound saves m).queue = m.queue ∧ (l.bound saves m).n = m.n := by
  unfold Launch.bound
  split <;> exact ⟨rfl, rfl⟩

theorem Launch.bound_self (l : Launch) (saves : List Nat) :
    l.bound saves l = { l with live := l.live + saves.length, saves := l.saves ++ saves } := if_pos ⟨rfl, rfl⟩

theorem Launch.bound_bound (l : Launch) (a b : List Nat) (m : Launch) : l.bound b (l.bound a m) = l.bound (a ++ b) m := by
  by_cases h : m.queue = l.queue ∧ m.n = l.n
  · simp [Launch.bound, h, Nat.add_assoc]
  · simp [Launch.bound, h]

/-! Binding the tasks of a crew. -/

/-- t is s with the tasks of the crew from the j-th on bound to the contexts gs. -/
structure Binds (s t : State) (die : Nat) (l : Launch) (j : Nat) (gs : List Nat) : Prop where
  mem : t.mem = s.mem
  here : t.here = s.here
  k : t.k = s.k
  launches : ∃ saves : List Nat, saves.length = gs.length ∧ (t.dieAt die).launches = (s.dieAt die).launches.map (l.bound saves)
  started : ∀ i g, gs[i]? = some g → Started (t.ctxAt g) (s.ctxAt g) l g (j + i)
  others : ∀ g, g ∉ gs → t.ctxAt g = s.ctxAt g

theorem Binds.nil (s : State) (die : Nat) (l : Launch) (j : Nat) : Binds s s die l j [] where
  mem := rfl
  here := rfl
  k := rfl
  launches := ⟨[], rfl, by
    have h : l.bound [] = id := by
      funext m
      simp [Launch.bound]
    rw [h, List.map_id]⟩
  started := fun _ _ h => by cases h
  others := fun _ _ => rfl

theorem Binds.cons {s u t : State} {die : Nat} {l : Launch} {j g : Nat} {gs : List Nat} (h : Binds s u die l j [g])
    (k : Binds u t die l (j + 1) gs) (hg : g ∉ gs) : Binds s t die l j (g :: gs) where
  mem := k.mem.trans h.mem
  here := k.here.trans h.here
  k := k.k.trans h.k
  launches := by
    obtain ⟨a, ha, hl⟩ := h.launches
    obtain ⟨b, hb, kl⟩ := k.launches
    refine ⟨a ++ b, by simp [ha, hb, Nat.add_comm], ?_⟩
    rw [kl, hl, List.map_map]
    exact List.map_congr_left fun m _ => l.bound_bound a b m
  started := by
    intro i g' hi
    cases i with
    | zero =>
      obtain rfl : g = g' := Option.some.inj hi
      rw [k.others g hg]
      exact h.started 0 g rfl
    | succ i =>
      have hm : g' ∈ gs := List.mem_of_getElem? hi
      have hne : g' ∉ [g] := fun he => hg (List.mem_singleton.1 he ▸ hm)
      rw [← h.others g' hne, show j + (i + 1) = j + 1 + i by omega]
      exact k.started i g' hi
  others := fun g' hg' => by
    obtain ⟨hne, hng⟩ := not_or.1 (mt List.mem_cons.2 hg')
    rw [k.others g' hng, h.others g' fun he => hne (List.mem_singleton.1 he)]

theorem bindTask_eq {s : State} {die : Nat} {l : Launch} {r : SaveRec} {y : Die} (h : (s.dieAt die).takeSave l.era = some (r, y))
    (images : BitVec 3) (j g : Nat) : ∃ t, IsTask l j t ∧ s.bindTask die l images j g =
      (State.putCtx { s.onDie die fun _ => y with tasks := s.tasks + 1 } g
        { startCtx g (s.ctxAt g).gen l t with charge := (s.ctxAt g).charge }).onDie die fun y =>
          { y with launches := y.launches.map (l.bound [r.pa]) } := by
  unfold State.bindTask
  rw [h]
  exact ⟨_, by exact ⟨rfl, rfl, rfl, rfl, rfl, rfl, rfl⟩, rfl⟩

theorem bindTask_spec {s : State} {die : Nat} {l : Launch} (hl : (s.dieAt die).launches ≠ [])
    (hf : 0 < (s.dieAt die).freeSaves l.era) (hn : (s.dieAt die).SavesApart l.era) (images : BitVec 3) (j g : Nat) :
    let t := s.bindTask die l images j g
    Binds s t die l j [g] ∧ (t.dieAt die).launches ≠ [] ∧ (t.dieAt die).SavesApart l.era ∧
      (s.dieAt die).freeSaves l.era ≤ (t.dieAt die).freeSaves l.era + 1 := by
  obtain ⟨r, y, hr, hyl, hyn, hyf⟩ := takeSave_spec hf hn
  obtain ⟨task, htask, ht⟩ := bindTask_eq hr images j g
  have hb : ({ startCtx g (s.ctxAt g).gen l task with charge := (s.ctxAt g).charge } : Ctx).status = .bound := rfl
  generalize hc : ({ startCtx g (s.ctxAt g).gen l task with charge := (s.ctxAt g).charge } : Ctx) = c at ht hb
  generalize hu : ({ s.onDie die fun _ => y with tasks := s.tasks + 1 } : State) = u at ht
  have hud : u.dieAt die = y := hu ▸ dieAt_onDie_launches (f := fun _ => y) (hyl ▸ hl)
  have huc (n : Nat) : u.ctxAt n = s.ctxAt n := hu ▸ rfl
  have hpd : (u.putCtx g c).dieAt die = y := by rw [State.dieAt, State.putCtx_dies]; exact hud
  have hpl : ((s.dieAt die).launches.map (l.bound [r.pa])) ≠ [] := by simpa using hl
  have htd : (s.bindTask die l images j g).dieAt die = { y with launches := y.launches.map (l.bound [r.pa]) } := by
    rw [ht, dieAt_onDie_launches (by rw [hpd, hyl]; exact hpl), hpd]
  have htc (n : Nat) : (s.bindTask die l images j g).ctxAt n = if n = g then c else s.ctxAt n := by
    rw [ht, ← huc]
    exact ctxAt_putCtx_bound u g hb n
  refine ⟨⟨?_, ?_, ?_, ⟨[r.pa], rfl, by rw [htd, ← hyl]⟩, fun i g' hi => ?_, fun g' hg' => ?_⟩, ?_, ?_, ?_⟩
  · rw [ht, State.onDie_mem, State.putCtx_mem, ← hu]; rfl
  · rw [ht, State.onDie_here, State.putCtx_here, ← hu]; rfl
  · rw [ht, State.onDie_k, State.putCtx_k, ← hu]; rfl
  · cases i with
    | succ i => cases hi
    | zero =>
      obtain rfl : g = g' := Option.some.inj hi
      exact ⟨task, htask, by rw [htc, if_pos rfl, hc]⟩
  · rw [htc, if_neg fun he => hg' (List.mem_singleton.2 he)]
  · rw [htd, hyl]; exact hpl
  · rw [htd]; exact hyn
  · rw [htd]; exact hyf

/-- While save records last, every task of a crew is bound. -/
theorem bindTasks_spec (die : Nat) (l : Launch) (images : BitVec 3) (gs : List Nat) : ∀ (s : State) (j : Nat),
    (s.dieAt die).launches ≠ [] → gs.length ≤ (s.dieAt die).freeSaves l.era → (s.dieAt die).SavesApart l.era → gs.Nodup →
    Binds s (s.bindTasks die l images j gs) die l j gs := by
  induction gs with
  | nil => exact fun s j _ _ _ _ => Binds.nil s die l j
  | cons g gs ih =>
    intro s j hl hf hn hd
    obtain ⟨hg, hd⟩ := List.nodup_cons.1 hd
    rw [List.length_cons] at hf
    obtain ⟨hb, hl', hn', hf'⟩ := bindTask_spec hl (by omega) hn images j g
    exact hb.cons (ih _ (j + 1) hl' (by omega) hn' hd) hg

/-! The record once the crew is placed. -/

/-- Changing a record that still has tasks settles nothing. -/
theorem onLaunch_live {s : State} {die q : Nat} {n : BitVec 32} {f : Launch → Launch} {l : Launch}
    (h : (s.dieAt die).launches.find? (fun m => m.queue == q && m.n == n) = some l) (hf : (f l).live ≠ 0) :
    s.onLaunch die q n f = s.onDie die fun x => { x with launches := x.launches.map fun m => if m.queue = q ∧ m.n = n then f l else m } := by
  rw [State.onLaunch, h]
  exact if_pos (.inr hf)

/-- The record is found again after tasks of it have been bound. -/
theorem find_bound {ls : List Launch} {l : Launch} (hl : l ∈ ls) (hu : ∀ m ∈ ls, m.queue = l.queue → m.n = l.n → m = l)
    (saves : List Nat) : (ls.map (l.bound saves)).find? (fun m => m.queue == l.queue && m.n == l.n) = some (l.bound saves l) := by
  have hsome : ((ls.map (l.bound saves)).find? fun m => m.queue == l.queue && m.n == l.n).isSome := by
    refine List.find?_isSome.2 ⟨_, List.mem_map_of_mem hl, ?_⟩
    rw [(l.bound_key saves l).1, (l.bound_key saves l).2, beq_self_eq_true, beq_self_eq_true]
    rfl
  obtain ⟨m, hm⟩ := Option.isSome_iff_exists.1 hsome
  obtain ⟨m', hm', rfl⟩ := List.mem_map.1 (List.mem_of_find?_eq_some hm)
  have hk := List.find?_some hm
  rw [(l.bound_key saves m').1, (l.bound_key saves m').2, Bool.and_eq_true, beq_iff_eq, beq_iff_eq] at hk
  rw [hm, hu m' hm' hk.1 hk.2]

/-- Contexts that a placement may name: as many as the crew has tasks, and all different. -/
theorem placesOk_spec {s : State} {die : Nat} {r q : BitVec 512} {takes : Ctx → Bool} {gs : List Nat}
    (h : s.placesOk die r q takes gs = true) : gs.length = tasksOf r ∧ gs.Nodup := by
  simp only [State.placesOk, Bool.and_eq_true, beq_iff_eq] at h
  obtain ⟨⟨⟨⟨⟨hlen, hd⟩, -⟩, -⟩, -⟩, -⟩ := h
  exact ⟨hlen, (List.dedup_sublist gs).eq_of_length hd ▸ List.nodup_dedup gs⟩

/-- A die once the placement of a crew of the record is noted (R288). -/
def Die.noted (l : Launch) (x : Die) : Die := { x with
  placements := (lrClass l.image :: x.placements).take 16
  turns := if lrClass l.image = 1 then (l.queue, x.turns.2) else if lrClass l.image = 2 then (x.turns.1, l.queue) else x.turns }

/-- A crew without images: its tasks are bound, the die notes the placement, and the record counts the crew. -/
theorem placeCrew_eq (s : State) (die : Nat) {l : Launch} (gs : List Nat) (hi : recN l.image 56 8 = 0) :
    let b := s.bindTasks die l (s.recordImages die l.image l.qctx) 0 gs
    ∃ u : State, ((b.dieAt die).launches ≠ [] → (u.dieAt die).launches = (b.dieAt die).launches) ∧ u.mem = b.mem ∧ u.here = b.here ∧
      u.k = b.k ∧ (∀ g, u.ctxAt g = b.ctxAt g) ∧
      s.placeCrew die l gs = u.onLaunch die l.queue l.n fun m => { m with placed := m.placed + 1 } := by
  rw [State.placeCrew, loadCrew_empty hi]
  exact ⟨(s.bindTasks die l _ 0 gs).onDie die (Die.noted l), fun h => by rw [dieAt_onDie_launches (f := Die.noted l) h]; rfl, rfl, rfl, rfl, fun _ => rfl, rfl⟩

/-- A crew without images, placed while save records last. -/
theorem placeCrew_spec {s : State} {die : Nat} {l : Launch} {gs : List Nat} (hi : recN l.image 56 8 = 0)
    (hl : l ∈ (s.dieAt die).launches) (hu : ∀ m ∈ (s.dieAt die).launches, m.queue = l.queue → m.n = l.n → m = l)
    (hf : gs.length ≤ (s.dieAt die).freeSaves l.era) (hn : (s.dieAt die).SavesApart l.era) (hd : gs.Nodup)
    (hlen : gs.length = tasksOf l.image) :
    let t := s.placeCrew die l gs
    t.mem = s.mem ∧ t.here = s.here ∧ t.k = s.k ∧
    (∀ j g, gs[j]? = some g → Starts (t.ctxAt g) (s.ctxAt g) l g j) ∧ (∀ g, g ∉ gs → t.ctxAt g = s.ctxAt g) ∧
    ∃ m ∈ (t.dieAt die).launches, m.queue = l.queue ∧ m.n = l.n ∧ m.placed = l.placed + 1 ∧
      m.live = l.live + tasksOf l.image ∧ m.saves.length = l.saves.length + tasksOf l.image := by
  have hb := bindTasks_spec die l (s.recordImages die l.image l.qctx) gs s 0 (List.ne_nil_of_mem hl) hf hn hd
  obtain ⟨u, hud, hum, huh, huk, huc, hp⟩ := placeCrew_eq s die gs hi
  rw [hp]
  generalize s.bindTasks die l (s.recordImages die l.image l.qctx) 0 gs = b at hb hud hum huh huk huc
  obtain ⟨saves, hsl, hbl⟩ := hb.launches
  have hul : (u.dieAt die).launches = (s.dieAt die).launches.map (l.bound saves) :=
    (hud (by simpa [hbl] using List.ne_nil_of_mem hl)).trans hbl
  have htasks : 0 < tasksOf l.image := Nat.mul_pos (Nat.succ_pos _) (Nat.succ_pos _)
  have hfind := hul ▸ find_bound hl hu saves
  obtain ⟨hq, hk⟩ := l.bound_key saves l
  have hplaced : (l.bound saves l).placed = l.placed := by rw [l.bound_self]
  have hlive : (l.bound saves l).live = l.live + tasksOf l.image := by rw [l.bound_self, ← hlen, ← hsl]
  have hsaves : (l.bound saves l).saves.length = l.saves.length + tasksOf l.image := by
    rw [l.bound_self, ← hlen, ← hsl]
    exact List.length_append
  rw [onLaunch_live hfind (by rw [hlive]; omega)]
  have hmem : { l.bound saves l with placed := (l.bound saves l).placed + 1 } ∈ (u.dieAt die).launches.map fun m =>
      if m.queue = l.queue ∧ m.n = l.n then { l.bound saves l with placed := (l.bound saves l).placed + 1 } else m :=
    List.mem_map.2 ⟨l.bound saves l, hul ▸ List.mem_map_of_mem hl, if_pos ⟨hq, hk⟩⟩
  refine ⟨hum.trans hb.mem, huh.trans hb.here, huk.trans hb.k, fun j g hj => ?_, fun g hg => (huc g).trans (hb.others g hg),
    { l.bound saves l with placed := (l.bound saves l).placed + 1 }, ?_, hq, hk, congrArg (· + 1) hplaced, hlive, hsaves⟩
  · have := hb.started j g hj
    rw [Nat.zero_add, ← huc] at this
    exact starts_of_started this
  · rw [dieAt_onDie_launches (List.ne_nil_of_mem hmem)]
    exact hmem

end Sys2Proof.Machine
end

