-- ==== Sys2Proof/Proofs/Launching.lean ====
section
/-! The five rows of launching, together (O52). -/

namespace Sys2Proof.Machine

/-- LAUNCH_RECORD_READ reads nothing unless the queue is open, has no record waiting and has one at its head. -/
theorem execLaunchRecordRead_eq (die q : Nat) (s : State) : execLaunchRecordRead die q s = .next
    (if ((s.pkgAt (die / 4)).boot = .running ∧ (s.dieAt die).down = false ∧ (s.queueAt die q).set = true) ∧
      (∀ v ∈ (s.dieAt die).waiting, v.queue ≠ q) ∧ (s.queueAt die q).head ≠ (s.queueAt die q).tail then s.readRecord die q else s) := by
  simp only [execLaunchRecordRead, Bool.and_eq_true, queueOpen_iff, waitingOf_isNone, bne_iff_ne, and_assoc]

theorem execRecordFire_eq {s : State} {die q : Nat} {w : Waiting} (h : s.waitingOf die q = some w) : execRecordFire die q s = .next
    (if ((s.pkgAt (die / 4)).boot = .running ∧ (s.dieAt die).down = false ∧ (s.queueAt die q).set = true) ∧
      (recN w.image 40 8 = 0 ∨ recN w.image 40 8 ≤ (s.dieAt die).tick.toNat) then s.fire die w else s) := by
  rw [execRecordFire, h]
  simp only [Bool.and_eq_true, queueOpen_iff, due_iff]

/-- What PREP_RESERVATION reserves, and when (R290). -/
theorem execPrepReservation_not {s : State} {die q : Nat} {places : List Nat} {w : Waiting} (h : s.waitingOf die q = some w)
    (hn : ¬ (w.preparing (s.dieAt die) = true ∧ s.queueOpen die q = true ∧
      s.placesOk die w.image w.qctx (s.takesFor die w.image w.qctx true) places = true)) :
    execPrepReservation die q places s = .next s := by
  rw [execPrepReservation, h]
  refine congrArg Host.Outcome.next (if_pos ?_)
  rw [Bool.or_eq_true, Bool.or_eq_true, Bool.not_eq_true', Bool.not_eq_true', Bool.not_eq_true']
  simpa only [not_and_or, Bool.not_eq_true, or_assoc] using hn

theorem execPrepReservation_empty {s : State} {die q : Nat} {places : List Nat} {w : Waiting} (h : s.waitingOf die q = some w)
    (hi : recN w.image 56 8 = 0) (hp : w.preparing (s.dieAt die) = true) (hq : s.queueOpen die q = true)
    (hk : s.placesOk die w.image w.qctx (s.takesFor die w.image w.qctx true) places = true) :
    execPrepReservation die q places s = .next (s.onDie die fun y => { y with
      waiting := y.waiting.map fun v => if v.queue = q then { v with reserved := v.reserved ++ [places], images := 0 } else v }) := by
  rw [execPrepReservation, h]
  simp only [hp, hq, hk, loadCrew_empty hi, recordImages_empty hi]
  rfl

theorem execCrewPlacement_eq {s : State} {die : Nat} (q crew : Nat) (places : List Nat) {l : Launch} (h : s.nextLaunch die = some l) :
    execCrewPlacement die q crew places s = .next
      (if l.queue = q ∧ recN l.image 20 2 + l.placed = crew ∧
          s.placesOk die l.image l.qctx (s.takesFor die l.image l.qctx (decide (recN l.image 23 1 % 4 = 0))) places = true then
        s.placeCrew die l places
      else s) := by
  rw [execCrewPlacement, h]
  have hc : (lrClass l.image == 0) = decide (recN l.image 23 1 % 4 = 0) := beq_eq_decide _ _
  simp only [Bool.and_eq_true, beq_iff_eq, and_assoc, State.takesOf, hc]
  rfl

/-- A victim at its grant point, and any other context (R288). -/
theorem execRcwinExpiry_eq (g : Nat) (s : State) : execRcwinExpiry g s = .next
    (if (s.ctxAt g).status = .bound ∧ (s.ctxAt g).pend = true ∧ (s.ctxAt g).next.toNat < (s.ctxAt g).cap.toNat ∧ (s.ctxAt g).prio ≠ 0 then
      s.onCtx g fun c => { c with asked := { c.asked with preempt := true }, next := c.cap, pend := false, taker := none }
    else s.onCtx g id) := by
  rw [execRcwinExpiry]
  simp only [State.onCtx]
  split <;> rfl

/-- Settles O52: by cases on the conditions of each row; a completion record by the bytes it puts in one line of its ring, a crew by
induction on the contexts it is bound to. -/
theorem launching : Obligations.Launching := by
  refine ⟨?read, ?fire, ?reserve, ?place, ?complete, ?expire⟩
  case read =>
    intro s die q h r tick pa x w open_ free
    have he : exec (.launchRecordRead die q) s = _ := execLaunchRecordRead_eq die q s
    refine ⟨fun hn => he.trans (by rw [if_neg hn]), fun ho hf hne hb hc hs hp _ => ?_⟩
    have hpa : qcRing h.image + 64 * (h.head.toNat % qcSize h.image) = pa := by rw [qcSize_eq]; rfl
    obtain ⟨-, -, ht, -⟩ := hs
    rw [if_pos ⟨ho, hf, hne⟩, readRecord_eq hb hc ht (by rw [hpa]; exact hp)] at he
    refine ⟨fun hbad => ?_, fun t => ⟨fun st hst => ?_, fun hst => ?_⟩⟩
    · rw [he, launchStatus_of_bad hbad]; rfl
    · rw [he, hst]; rfl
    · rw [he, hst]; rfl
  case fire =>
    intro s die q w hw hq hr h open_ due s1
    have he : exec (.recordFire die q) s = _ := execRecordFire_eq hw
    subst hq
    refine ⟨fun hn => he.trans (by rw [if_neg hn]), fun ho hd hend => ?_, fun ho hd hend => ?_⟩
    · rw [he, if_pos ⟨ho, hd⟩, fire_eq s die hr, hend]; rfl
    · rw [he, if_pos ⟨ho, hd⟩, fire_eq s die hr, hend]; rfl
  case reserve =>
    intro s die q places w hw x start may
    have hmay : may ↔ w.preparing x = true ∧ s.queueOpen die q = true ∧
        s.placesOk die w.image w.qctx (s.takesFor die w.image w.qctx true) places = true := by
      rw [preparing_iff]
      tauto
    refine ⟨fun hn => execPrepReservation_not hw (mt hmay.2 hn), fun hm hi => ?_⟩
    obtain ⟨hp, hq, hk⟩ := hmay.1 hm
    exact execPrepReservation_empty hw hi hp hq hk
  case place =>
    intro s die q crew places l hl ok
    have he : exec (.crewPlacement die q crew places) s = _ := execCrewPlacement_eq q crew places hl
    refine ⟨fun hn => he.trans (by rw [if_neg hn]), fun hok hi hu hn => ?_⟩
    obtain ⟨hmem, hsaves⟩ := nextLaunch_some hl
    obtain ⟨hlen, hd⟩ := placesOk_spec hok.2.2
    exact ⟨_, he.trans (by rw [if_pos hok]), placeCrew_spec hi hmem hu (hlen ▸ hsaves) hn hd hlen⟩
  case complete => exact fun s die n image q dig fire st late frozen hb hs hp _ =>
    completionRecord_spec s die n image q dig fire st late frozen hb hs hp
  case expire =>
    intro s g c
    have he : exec (.rcwinExpiry g) s = _ := execRcwinExpiry_eq g s
    exact ⟨fun hn => he.trans (by rw [if_neg hn]), fun hs hp hn hc => he.trans (by rw [if_pos ⟨hs, hp, hn, hc⟩])⟩

end Sys2Proof.Machine
end

