-- ==== Sys2Proof/Proofs/TrapWords.lean ====
section
/-! The words that the spec works out (O60), and the instructions that trap where they stand (O15). -/

namespace Sys2Proof.Machine

/-- Settles O60: the decoder evaluated at each word. -/
theorem decodeSanity : Obligations.DecodeSanity := by
  unfold Obligations.DecodeSanity
  decide +kernel

/-- SWTRAP and BRK carry IMM14 in the low bits of the detail (R227). -/
theorem softTrap_eq (c : Cause) (imm : BitVec 14) : softTrap c imm = { cause := c, detail := BitVec.ofNat 56 imm.toNat } := by
  rw [BitVec.ofNat_toNat]
  rfl

/-- The model and the statement give one reason for each illegal word. -/
theorem illegalReason_eq_whyIllegal (w : Word) : illegalReason w = whyIllegal w := by
  rw [illegalReason, whyIllegal]
  cases decode w with
  | error _ => rfl
  | ok i => cases i <;> rfl

theorem encode_tstop : Sys2Proof.encode .tstop 0 = some 0x1A00004000000000 := by decide +kernel
theorem encode_tret : Sys2Proof.encode .tret 0 = some 0x2000000014000000 := by decide +kernel

theorem execTfetch_of_scu {s : State} (h : InScu s) (pm : MReg) (off : BitVec 32) :
    execTfetch pm off s = .next (s.raise (illegalTrap 1 ((Sys2Proof.encode (.tfetch pm off) 0).getD 0))) := by rw [execTfetch, h]

theorem execTstop_of_scu {s : State} (h : InScu s) : execTstop s = .next (s.raise (illegalTrap 1 0x1A00004000000000)) := by
  rw [execTstop, h, encode_tstop]
  rfl

theorem execTret_of_task {s : State} (h : s.c.hnd = false) : execTret s = .next (s.raise (illegalTrap 4 0x2000000014000000)) := by
  rw [execTret, h, encode_tret]
  rfl

/-- Settles O15: trap, brk and an illegal word by what each reports; tfetch, tstop and tret by the word that encodes each. -/
theorem trapInstructions : Obligations.TrapInstructions := by
  intro s imm w hs ill
  have raised {t t' : Trap} (h : t = t') : (.next (s.raise t) : Out) = .next (s.raise t') := by rw [h]
  refine ⟨raised (softTrap_eq .swtrap imm), raised (softTrap_eq .brk imm), ?illegal, execTstop_of_scu hs, ?tfetch, execTret_of_task⟩
  case illegal => exact raised (congrArg (illegalTrap · w) (illegalReason_eq_whyIllegal w))
  case tfetch =>
    intro pm off v hv
    exact (execTfetch_of_scu hs pm off).trans (by rw [hv]; rfl)

end Sys2Proof.Machine
end

