-- ==== Sys2Proof/Proofs/StepRuns.lean ====
section
/-! A step of a context that is free to issue (O59): the word it fetches, what becomes of the word, and who runs it. -/

namespace Sys2Proof.Machine

/-! The fetch (R99, R108, R222). -/

theorem async_eq_none {s : State} (hasked : s.c.asked = ⟨none, false⟩) (hevent : s.c.event = none) : s.async = none := by
  simp [State.async, hasked, hevent]

/-- A context that is free writes the results that are due, and issues. -/
theorem step_of_free {s : State} (h : Free s) : step s = s.writeback.fetchIssue := by
  obtain ⟨hagenda, hstatus, hwait, hahead, hheld, hasked, hevent⟩ := h
  have hasync : s.writeback.async = none := async_eq_none hasked hevent
  have hheld' : ¬ s.writeback.c.held = true := Bool.eq_false_iff.1 hheld
  have hwait' : s.writeback.c.wait = .none := hwait
  calc step s = s.issue := by rw [step, State.advance, hagenda]
    _ = s.boundTurn := by rw [State.issue, hstatus]
    _ = s.writeback.goOn := by
      unfold State.boundTurn
      rw [hwait, hahead]
      simp only [if_true, hasync, if_neg hheld']
    _ = s.writeback.fetchIssue := by rw [State.goOn, hwait']

theorem fetchWord_of_fetches {s u : State} {w : Word} (h : FetchesWord s u w) : s.fetchWord = (u, .ok w) := by
  obtain ⟨hpc, s1, l, htranslate, hread, rfl⟩ := h
  have haligned : s.c.pc.extractLsb' 0 3 = 0#3 := BitVec.eq_of_toNat_eq (by simpa [BitVec.extractLsb'_toNat] using hpc)
  rw [State.fetchWord, if_neg (not_not.2 haligned), State.fetchVa, htranslate]
  simp only [hread]

theorem step_of_fetches {s t u : State} {w : Word} (hs : Free s) (ht : exec .fixedLatencyWriteback s = .next t)
    (hf : FetchesWord t u w) : step s = u.runWord w := by
  obtain rfl : s.writeback = t := Host.Outcome.next.inj ht
  rw [step_of_free hs, State.fetchIssue, fetchWord_of_fetches hf]

/-! What a reader of registers that are pending does, with CTL.SBC (R110). -/

theorem nonePending_iff {s : State} {r : XReg} :
    NonePending s r ↔ (if r = 0 then none else s.c.pending.find? (·.reg == r)) = none := by
  by_cases hr : r = 0
  · simp [NonePending, hr]
  · simp [NonePending, hr, List.find?_eq_none]

theorem tooEarly_eq_none {s : State} {i : Instr} (h : s.c.sbc = false ∨ ∀ r ∈ xreads i, NonePending s r) : s.tooEarly i = none := by
  rw [State.tooEarly]
  rcases h with hsbc | hnone
  · rw [hsbc]
    rfl
  · rw [List.findSome?_eq_none_iff.2 fun r hr => nonePending_iff.1 (hnone r hr)]
    exact ite_self _

/-- The first register read that has a result pending, and its first result, decide. -/
theorem tooEarly_eq_some {s : State} {i : Instr} {r : XReg} {p : Pending} {rs rs' : List XReg} {ps ps' : List Pending}
    (hsbc : s.c.sbc = true) (hreads : xreads i = rs ++ r :: rs') (hr : r ≠ 0) (hrs : ∀ q ∈ rs, NonePending s q)
    (hpending : s.c.pending = ps ++ p :: ps') (hps : ∀ q ∈ ps, q.reg ≠ r) (hp : p.reg = r) : s.tooEarly i = some p := by
  have hfind : s.c.pending.find? (·.reg == r) = some p :=
    List.find?_eq_some_iff_append.2 ⟨beq_iff_eq.2 hp, ps, ps', hpending, by simpa using hps⟩
  rw [State.tooEarly, if_pos hsbc]
  exact List.findSome?_eq_some_iff.2 ⟨rs, r, rs', hreads, by rw [if_neg hr, hfind], fun q hq => nonePending_iff.1 (hrs q hq)⟩

/-! What becomes of the word (R31, R110, R121, R125, R131). -/

theorem accepts_iff {s : State} {i : Instr} : s.accepts i = true ↔ Accepted s i := by
  have hregion : (!s.c.thr || regionAllows i) = true ↔ s.c.thr = false ∨ regionAllows i = true := by
    rw [Bool.or_eq_true, Bool.not_eq_true']
  cases i
  case tfetch | tstop => exact ⟨nofun, nofun⟩
  case tret => exact Iff.rfl
  all_goals exact hregion

theorem runWord_of_error {s : State} {w : Word} {e : DecodeError} (h : decode w = .error e) :
    s.runWord w = exec (.illegalInstruction w) s.begin := by rw [State.runWord, h]

section
variable {s : State} {w : Word} {i : Instr} (hi : decode w = .ok i)
include hi

theorem runWord_of_not_accepted (h : ¬ Accepted s i) : s.runWord w = exec (.illegalInstruction w) s.begin := by
  have ha : s.accepts i = false := Bool.eq_false_iff.2 (mt accepts_iff.1 h)
  rw [State.runWord, hi]
  simp only [ha, Bool.not_false, if_true]

theorem runWord_of_tooEarly {p : Pending} (h : Accepted s i) (hp : s.tooEarly i = some p) :
    s.runWord w = .next (s.begin.raise { cause := .stall, addr := p.pc }) := by
  rw [State.runWord, hi]
  simp [accepts_iff.2 h, hp]

theorem runWord_of_ready (h : Accepted s i) (hp : s.tooEarly i = none) :
    s.runWord w = s.running i fun t => onNext (exec i t.begin) fun u => u.settle (stlOf w) := by
  rw [State.runWord, hi]
  simp [accepts_iff.2 h, hp]

end

theorem settle_eq_slotted (t : State) (stl : Nat) : t.settle stl = slotted t stl := by
  unfold State.settle slotted
  cases t.c.wait <;> rfl

theorem onNext_settle {o : Out} {v : State} (h : o = .next v) (stl : Nat) :
    onNext o (fun u => u.settle stl) = .next (slotted v stl) := by
  rw [h, ← settle_eq_slotted]
  rfl

/-! Who runs a strip (R242, R243). -/

section
variable {s : State} {i : Instr} (run : State → Out)

theorem running_of_no_beats (h : s.beats i = none) : s.running i run = run s := by rw [State.running, h]

theorem running_of_chosen {b : Nat} (h : s.beats i = some b) (hc : (s.refreshReady s.readyHere).choose s.readyHere = some s.here) :
    s.running i run = run ((s.refreshReady s.readyHere).charged s.readyHere b) := by
  rw [State.running, h]
  simp only [State.dispatch, hc, if_true]

theorem running_of_rival {b g : Nat} (h : s.beats i = some b) (hc : (s.refreshReady s.readyHere).choose s.readyHere = some g)
    (hg : g ≠ s.here) : s.running i run = .next ((s.refreshReady s.readyHere).focus g) := by
  rw [State.running, h]
  simp only [State.dispatch, hc, if_neg hg]

end

/-- Where no other context of the core is BOUND, the one in hand alone is ready. -/
theorem readyHere_eq_singleton {s : State} (h : ∀ g, g / 4 = s.here / 4 → g ≠ s.here → (s.ctxAt g).status ≠ .bound) :
    s.readyHere = [s.here] := by
  have hmem : s.here ∈ (List.range 4).map (4 * coreOf s.here + ·) :=
    List.mem_map.2 ⟨s.here % 4, List.mem_range.2 (Nat.mod_lt _ (by decide)), Nat.div_add_mod _ _⟩
  have hnodup : ((List.range 4).map (4 * coreOf s.here + ·)).Nodup := List.nodup_range.map fun _ _ => Nat.add_left_cancel
  have hready : ∀ g ∈ (List.range 4).map (4 * coreOf s.here + ·),
      (g == s.here || ((s.ctxAt g).status == .bound && (s.focus g).strip.isSome)) = (g == s.here) := by
    intro g hg
    obtain ⟨j, hj, rfl⟩ := List.mem_map.1 hg
    have hcore : (4 * coreOf s.here + j) / 4 = s.here / 4 := by
      rw [Nat.mul_add_div (by decide), Nat.div_eq_of_lt (List.mem_range.1 hj)]
      rfl
    by_cases hh : 4 * coreOf s.here + j = s.here
    · simp [hh]
    · simp [beq_eq_false_iff_ne.2 (h _ hcore hh)]
  rw [State.readyHere, List.filter_congr hready, List.filter_beq, List.count_eq_one_of_mem hnodup hmem]
  rfl

theorem leastBy_filter_singleton (f : Nat → Nat) (p : Nat → Bool) (g : Nat) :
    leastBy f ([g].filter p) = if p g then some g else none := by
  cases h : p g <;> simp [h, leastBy]

/-- A context that alone is ready is chosen, in the background or not. -/
theorem choose_singleton (s : State) (g : Nat) : s.choose [g] = some g := by
  by_cases hbg : (s.ctxAt g).prio = 2#2
  · simp [State.choose, leastBy, hbg]
  · have hnone : ([g].filter fun g => (s.ctxAt g).prio == 2) = [] := by simp [hbg]
    have hself : ([g].filter fun g => (s.ctxAt g).prio != 2) = [g] := by simp [hbg]
    simp only [State.choose, leastBy_filter_singleton, hnone, hself, leastBy]
    rw [if_neg fun h => h.1 rfl]
    split <;> rfl

/-- Settles O59: the step runs the word it fetches; by cases on whether it decodes, is accepted, is too early, and is a strip. -/
theorem stepRunsDecoded : Obligations.StepRunsDecoded := by
  intro s t u w hs ht hf
  rw [step_of_fetches hs ht hf]
  refine ⟨fun _ => runWord_of_error, fun i hi => ⟨runWord_of_not_accepted hi, fun ha => ⟨fun hearly => ?runs, ?stall⟩⟩⟩
  case runs =>
    rw [runWord_of_ready hi ha (tooEarly_eq_none hearly)]
    refine ⟨fun hb v hv => ?atOnce, fun b hb => ⟨fun hc v hv => ?chosen, fun g => running_of_rival _ hb, fun halone => ?alone⟩⟩
    case atOnce => rw [running_of_no_beats _ hb, onNext_settle hv]
    case chosen => rw [running_of_chosen _ hb hc, onNext_settle hv]
    case alone =>
      rw [readyHere_eq_singleton halone]
      exact choose_singleton _ _
  case stall =>
    intro r p rs rs' ps ps' hsbc hreads hr hrs hpending hps hp
    exact runWord_of_tooEarly hi ha (tooEarly_eq_some hsbc hreads hr hrs hpending hps hp)

end Sys2Proof.Machine
end

