-- ==== Sys2Proof/Proofs/FloatPatterns.lean ====
section
/-! The patterns of the floating-point formats of the lanes, and the numbers they stand for (R60, R61). -/

namespace Sys2Proof.Machine

/-- Format f has the layout l, infinities, and above each finite pattern the next one up to infinity (R60, R61). -/
structure IsFloat (f : Fmt) (l : FpLayout) : Prop where
  layout : fpLayout f = some l
  width : f.width = l.ebits + l.mbits + 1
  ebits : 2 ≤ l.ebits
  mbits : l.mbits ≤ 23
  hasInf : hasInf f = true
  inf : infPattern f = (2 ^ l.ebits - 1) * 2 ^ l.mbits
  maxFinite : maxFinite f + 1 = infPattern f
  nan : canonicalNaN f = infPattern f + 2 ^ (l.mbits - 1)
  mpos : 1 ≤ l.mbits
  other : f ≠ .fp8a ∧ f ≠ .fp4

theorem exists_isFloat {f : Fmt} (h : f.isFp = true) : ∃ l, IsFloat f l := by
  cases f
  case fp16 | bf16 | fp32 => exact ⟨_, rfl, rfl, by decide, by decide, rfl, rfl, rfl, rfl, by decide, by decide⟩
  all_goals exact absurd h (by decide)

/-- The exponent of the least bit of the subnormal numbers. -/
def FpLayout.emin (l : FpLayout) : Int := 1 - (l.bias : Int) - l.mbits

/-- Significand and exponent of a finite pattern with sign 0 (R60). -/
def FpLayout.sig (l : FpLayout) (p : Nat) : Nat := if p / 2 ^ l.mbits = 0 then p else 2 ^ l.mbits + p % 2 ^ l.mbits
def FpLayout.exp (l : FpLayout) (p : Nat) : Int := if p / 2 ^ l.mbits = 0 then l.emin else l.emin + (p / 2 ^ l.mbits - 1 : Nat)

/-- The number that a finite pattern with sign 0 stands for. -/
noncomputable def FpLayout.mag (l : FpLayout) (p : Nat) : ℝ := l.sig p * (2 : ℝ) ^ l.exp p

/-! Magnitudes are in the order of their patterns. -/

section
variable (l : FpLayout)

/-- The pattern k 2^mbits + t stands for t in units of 2^(emin + k): a subnormal number, a normal one, or one that a carry has
brought to the next exponent. -/
theorem mag_eq {k t : Nat} (ht : t ≤ 2 ^ (l.mbits + 1)) (hk : k = 0 ∨ 2 ^ l.mbits ≤ t) :
    l.mag (k * 2 ^ l.mbits + t) = t * (2 : ℝ) ^ (l.emin + k) := by
  have hpos : 0 < 2 ^ l.mbits := Nat.two_pow_pos _
  have hdiv (b r : Nat) (hr : r < 2 ^ l.mbits) : (b * 2 ^ l.mbits + r) / 2 ^ l.mbits = b ∧ (b * 2 ^ l.mbits + r) % 2 ^ l.mbits = r := by
    constructor
    · rw [Nat.mul_comm, Nat.mul_add_div hpos, Nat.div_eq_of_lt hr, Nat.add_zero]
    · rw [Nat.mul_comm, Nat.mul_add_mod, Nat.mod_eq_of_lt hr]
  have h2 : 2 ^ (l.mbits + 1) = 2 ^ l.mbits + 2 ^ l.mbits := by ring
  by_cases h0 : t < 2 ^ l.mbits
  · obtain rfl : k = 0 := by omega
    have := hdiv 0 t h0
    simp only [FpLayout.mag, FpLayout.sig, FpLayout.exp, this.1, if_true]
    simp
  by_cases h1 : t < 2 ^ l.mbits + 2 ^ l.mbits
  · have he : k * 2 ^ l.mbits + t = (k + 1) * 2 ^ l.mbits + (t - 2 ^ l.mbits) := by rw [Nat.add_mul]; omega
    have := hdiv (k + 1) (t - 2 ^ l.mbits) (by omega)
    simp only [FpLayout.mag, FpLayout.sig, FpLayout.exp, he, this.1, this.2, if_neg (Nat.succ_ne_zero k)]
    rw [Nat.add_sub_cancel' (by omega), Nat.add_sub_cancel]
  · have ht' : t = 2 ^ l.mbits + 2 ^ l.mbits := by omega
    have he : k * 2 ^ l.mbits + t = (k + 2) * 2 ^ l.mbits + 0 := by rw [Nat.add_mul]; omega
    have := hdiv (k + 2) 0 hpos
    simp only [FpLayout.mag, FpLayout.sig, FpLayout.exp, he, this.1, this.2, if_neg (Nat.succ_ne_zero (k + 1))]
    rw [ht', show k + 2 - 1 = k + 1 from rfl]
    push_cast
    rw [← add_assoc, zpow_add_one₀ (by norm_num)]
    ring

/-- Every pattern is of that form. -/
theorem exists_pack (p : Nat) : ∃ k t, p = k * 2 ^ l.mbits + t ∧ t < 2 ^ (l.mbits + 1) ∧ (k = 0 ∨ 2 ^ l.mbits ≤ t) := by
  have h2 : 2 ^ (l.mbits + 1) = 2 ^ l.mbits + 2 ^ l.mbits := by ring
  have hm : p % 2 ^ l.mbits < 2 ^ l.mbits := Nat.mod_lt _ (Nat.two_pow_pos _)
  have hd : p / 2 ^ l.mbits * 2 ^ l.mbits + p % 2 ^ l.mbits = p := Nat.div_add_mod' p _
  cases hb : p / 2 ^ l.mbits with
  | zero => exact ⟨0, p, by simp, by rw [hb] at hd; omega, .inl rfl⟩
  | succ b => exact ⟨b, 2 ^ l.mbits + p % 2 ^ l.mbits, by rw [hb, Nat.add_mul] at hd; omega, by omega, .inr (by omega)⟩

theorem mag_nonneg (p : Nat) : 0 ≤ l.mag p := by unfold FpLayout.mag; positivity

theorem mag_mono : Monotone l.mag := by
  refine monotone_nat_of_le_succ fun p => ?_
  obtain ⟨k, t, rfl, ht, hk⟩ := exists_pack l p
  rw [add_assoc, mag_eq l ht.le hk, mag_eq l (by omega) (hk.imp_right fun h => by omega)]
  gcongr
  omega

/-- A number of the format is a multiple of 2^(emin + k), or below the binade that starts at 2^(emin + k + mbits). -/
theorem mag_grid (p k : Nat) : (∃ n : Nat, l.mag p = n * (2 : ℝ) ^ (l.emin + k)) ∨
    0 < k ∧ l.mag p < (2 ^ l.mbits : Nat) * (2 : ℝ) ^ (l.emin + k) := by
  obtain ⟨j, t, rfl, ht, hj⟩ := exists_pack l p
  rw [mag_eq l ht.le hj]
  rcases Nat.lt_or_ge j k with h | h
  · refine .inr ⟨by omega, ?_⟩
    obtain ⟨d, rfl⟩ := Nat.exists_eq_add_of_lt h
    have h2 : (t : ℝ) < (2 ^ l.mbits : Nat) * 2 := by
      rw [pow_succ] at ht
      exact_mod_cast ht
    calc (t : ℝ) * (2 : ℝ) ^ (l.emin + j) < (2 ^ l.mbits : Nat) * 2 * (2 : ℝ) ^ (l.emin + j) := by gcongr
      _ = (2 ^ l.mbits : Nat) * (2 : ℝ) ^ (l.emin + j + 1) := by rw [zpow_add_one₀ (by norm_num)]; ring
      _ ≤ _ := mul_le_mul_of_nonneg_left (zpow_le_zpow_right₀ (by norm_num) (by omega)) (Nat.cast_nonneg _)
  · obtain ⟨d, rfl⟩ := Nat.exists_eq_add_of_le h
    refine .inl ⟨t * 2 ^ d, ?_⟩
    push_cast
    rw [← add_assoc, zpow_add₀ (by norm_num : (2 : ℝ) ≠ 0) _ (d : ℤ), zpow_natCast]
    ring

end

/-! Patterns of a format. -/

section
variable {f : Fmt} {l : FpLayout} (hf : IsFloat f l)
include hf

theorem IsFloat.inf_lt : infPattern f < 2 ^ (f.width - 1) := by
  rw [hf.inf, hf.width, Nat.add_sub_cancel, pow_add]
  exact Nat.mul_lt_mul_of_pos_right (by have := Nat.two_pow_pos l.ebits; omega) (Nat.two_pow_pos _)

/-- A pattern is a sign over a pattern with sign 0. -/
theorem exists_withSign {p : Nat} (h : p < 2 ^ f.width) : ∃ neg q, q < 2 ^ (f.width - 1) ∧ p = withSign f neg q := by
  have hw : f.width = f.width - 1 + 1 := by rw [hf.width]; rfl
  have h2 : 2 ^ f.width = 2 ^ (f.width - 1) + 2 ^ (f.width - 1) := by
    conv_lhs => rw [hw, pow_succ]
    omega
  by_cases hp : p < 2 ^ (f.width - 1)
  · exact ⟨false, p, hp, rfl⟩
  · exact ⟨true, p - 2 ^ (f.width - 1), by omega, by simp only [withSign, if_true]; omega⟩

theorem withSign_lt (neg : Bool) {p : Nat} (h : p < 2 ^ (f.width - 1)) : withSign f neg p < 2 ^ f.width := by
  have hw : f.width = f.width - 1 + 1 := by rw [hf.width]; rfl
  have h2 : 2 ^ f.width = 2 ^ (f.width - 1) + 2 ^ (f.width - 1) := by
    conv_lhs => rw [hw, pow_succ]
    omega
  cases neg <;> simp only [withSign, if_true, Bool.false_eq_true, if_false] <;> omega

/-- What a signed pattern stands for, by its exponent field (R60, R61). -/
theorem fval_withSign (neg : Bool) {p : Nat} (h : p < 2 ^ (f.width - 1)) : fval f (withSign f neg p) =
    if p < infPattern f then .fin neg (l.sig p) (l.exp p) else if p = infPattern f then .inf neg else .nan := by
  have hw : f.width - 1 = l.ebits + l.mbits := by rw [hf.width]; rfl
  have hpos : 0 < 2 ^ l.mbits := Nat.two_pow_pos _
  rw [hw] at h
  have hs : withSign f neg p = neg.toNat * 2 ^ (l.ebits + l.mbits) + p := by
    cases neg <;> simp [withSign, hw, Nat.add_comm]
  have h1 : withSign f neg p / 2 ^ (l.ebits + l.mbits) % 2 = neg.toNat := by
    rw [hs, Nat.mul_comm, Nat.mul_add_div (Nat.two_pow_pos (l.ebits + l.mbits)), Nat.div_eq_of_lt h]
    cases neg <;> rfl
  have he : p / 2 ^ l.mbits < 2 ^ l.ebits := Nat.div_lt_of_lt_mul (by rwa [Nat.mul_comm, ← pow_add])
  have hs' : withSign f neg p = 2 ^ l.mbits * (2 ^ l.ebits * neg.toNat) + p := by rw [hs, pow_add]; ring
  have h2 : withSign f neg p / 2 ^ l.mbits % 2 ^ l.ebits = p / 2 ^ l.mbits := by
    rw [hs', Nat.mul_add_div hpos, Nat.mul_add_mod, Nat.mod_eq_of_lt he]
  have h3 : withSign f neg p % 2 ^ l.mbits = p % 2 ^ l.mbits := by rw [hs', Nat.mul_add_mod]
  have h4 : (neg.toNat == 1) = neg := by cases neg <;> rfl
  have hd : p / 2 ^ l.mbits * 2 ^ l.mbits + p % 2 ^ l.mbits = p := Nat.div_add_mod' p _
  have hm : p % 2 ^ l.mbits < 2 ^ l.mbits := Nat.mod_lt _ hpos
  have hlt : p < infPattern f ↔ p / 2 ^ l.mbits < 2 ^ l.ebits - 1 := by rw [hf.inf, Nat.div_lt_iff_lt_mul hpos]
  have heb : 2 ^ 2 ≤ 2 ^ l.ebits := Nat.pow_le_pow_right (by decide) hf.ebits
  simp only [fval, elemVal, hf.layout, fpDecode, h1, h2, h3, h4, hf.hasInf, and_true]
  by_cases h0 : p / 2 ^ l.mbits = 0
  · have hp : p % 2 ^ l.mbits = p := by rw [h0] at hd; omega
    rw [if_pos h0, if_pos (hlt.2 (by omega)), FpLayout.sig, FpLayout.exp, if_pos h0, if_pos h0, hp]
    rfl
  · rw [if_neg h0]
    by_cases hi : p / 2 ^ l.mbits = 2 ^ l.ebits - 1
    · have heq : p = infPattern f ↔ p % 2 ^ l.mbits = 0 := by
        rw [hf.inf]
        rw [hi] at hd
        omega
      rw [if_pos hi, if_neg (mt hlt.1 (by omega))]
      simp only [heq]
    · rw [if_neg hi, if_neg (fun h => hf.other.1 h.2.1), if_pos (hlt.2 (by omega)), FpLayout.sig, FpLayout.exp, if_neg h0, if_neg h0,
        FpLayout.emin]
      congr 1
      omega

theorem fval_of_finite (neg : Bool) {p : Nat} (h : p < infPattern f) : fval f (withSign f neg p) = .fin neg (l.sig p) (l.exp p) := by
  rw [fval_withSign hf neg (h.trans hf.inf_lt), if_pos h]

/-- The finite patterns are the signed patterns below infinity. -/
theorem finitePat_iff {p : Nat} : FinitePat f p ↔ ∃ neg q, q < infPattern f ∧ p = withSign f neg q := by
  constructor
  · rintro ⟨hp, neg, m, e, hv⟩
    obtain ⟨s, q, hq, rfl⟩ := exists_withSign hf hp
    refine ⟨s, q, ?_, rfl⟩
    rw [fval_withSign hf s hq] at hv
    by_contra h
    rw [if_neg h] at hv
    split at hv <;> cases hv
  · rintro ⟨neg, q, hq, rfl⟩
    exact ⟨withSign_lt hf neg (hq.trans hf.inf_lt), _, _, _, fval_of_finite hf neg hq⟩

theorem not_finitePat_inf (neg : Bool) : ¬ FinitePat f (withSign f neg (infPattern f)) := by
  rintro ⟨-, s, m, e, hv⟩
  rw [fval_withSign hf neg hf.inf_lt, if_neg (Nat.lt_irrefl _), if_pos rfl] at hv
  cases hv

theorem fval_canonicalNaN : fval f (canonicalNaN f) = .nan := by
  have h1 : 2 ^ (l.mbits - 1) < 2 ^ l.mbits := Nat.pow_lt_pow_right (by decide) (by have := hf.mpos; omega)
  have h2 : infPattern f + 2 ^ l.mbits = 2 ^ (f.width - 1) := by
    rw [hf.inf, hf.width, Nat.add_sub_cancel, pow_add, ← Nat.succ_mul, Nat.succ_eq_add_one,
      Nat.sub_add_cancel (Nat.two_pow_pos _)]
  have h3 := Nat.two_pow_pos (l.mbits - 1)
  have h := fval_withSign hf false (p := canonicalNaN f) (by rw [hf.nan]; omega)
  rw [if_neg (by rw [hf.nan]; omega), if_neg (by rw [hf.nan]; omega)] at h
  exact h

/-- The real number of a signed finite pattern. -/
theorem ratOf_withSign (neg : Bool) {p : Nat} (h : p < infPattern f) :
    ((ratOf (fval f (withSign f neg p)) : ℚ) : ℝ) = if neg then -l.mag p else l.mag p := by
  rw [fval_of_finite hf neg h, ratOf, FpLayout.mag]
  cases neg <;> simp

end

end Sys2Proof.Machine
end

