-- ==== Sys2Proof/Proofs/Rounding.lean ====
section
/-! Rounding to an integer and to a format, said of real numbers (R63, R64). -/

namespace Sys2Proof.Machine

/-! Rounding to an integer. -/

/-- The integers that a real ξ of sign neg may be rounded to under rnd (R63): ξ is a magnitude, and 'down' is toward zero. -/
def RoundsDown (ξ : ℝ) (t : ℕ) : Prop := (t : ℝ) ≤ ξ ∧ ξ < t + 1
def RoundsUp (ξ : ℝ) (t : ℕ) : Prop := (t : ℝ) - 1 < ξ ∧ ξ ≤ t
def RoundsNear (ξ : ℝ) (t : ℕ) : Prop := (t : ℝ) - 1 / 2 ≤ ξ ∧ ξ ≤ t + 1 / 2

def RoundsInt (rnd : Rnd) (neg : Bool) : ℝ → ℕ → Prop :=
  match rnd with
  | .rtz => RoundsDown
  | .rdn => if neg then RoundsUp else RoundsDown
  | .rup => if neg then RoundsDown else RoundsUp
  | .rne | .rna => RoundsNear

theorem roundsInt_of_all {rnd : Rnd} {neg : Bool} {ξ : ℝ} {t : ℕ} (hd : RoundsDown ξ t) (hu : RoundsUp ξ t) (hn : RoundsNear ξ t) :
    RoundsInt rnd neg ξ t := by
  cases rnd <;> cases neg <;> assumption

theorem roundsInt_natCast (rnd : Rnd) (neg : Bool) (t : ℕ) : RoundsInt rnd neg t t :=
  roundsInt_of_all ⟨le_rfl, by linarith⟩ ⟨by linarith, le_rfl⟩ ⟨by linarith, by linarith⟩

/-- The floor t of a real, kept or made one greater as a remainder r of it, one half of which is h, decides. -/
theorem roundsInt_of_remainder (rnd : Rnd) (neg : Bool) {ξ : ℝ} {t r h : ℕ} (h0 : (t : ℝ) ≤ ξ) (h1 : ξ < t + 1)
    (hz : r = 0 → ξ = t) (hnz : r ≠ 0 → ξ ≠ t) (hlo : r ≤ h → ξ ≤ t + 1 / 2) (hhi : h ≤ r → (t : ℝ) + 1 / 2 ≤ ξ) :
    RoundsInt rnd neg ξ (if (match rnd with
      | .rne => decide (r > h) || (decide (r = h) && t % 2 == 1)
      | .rtz => false
      | .rdn => neg && decide (r ≠ 0)
      | .rup => !neg && decide (r ≠ 0)
      | .rna => decide (r ≥ h)) = true then t + 1 else t) := by
  have down : RoundsDown ξ t := ⟨h0, h1⟩
  have up : r ≠ 0 → RoundsUp ξ (t + 1) := fun hr => ⟨by
    push_cast
    linarith [lt_of_le_of_ne h0 (hnz hr).symm], by push_cast; linarith⟩
  have level : ¬ r ≠ 0 → RoundsUp ξ t := fun hr => ⟨by linarith, (hz (not_not.1 hr)).le⟩
  have near : r ≤ h → RoundsNear ξ t := fun hr => ⟨by linarith, hlo hr⟩
  have near' : h ≤ r → RoundsNear ξ (t + 1) := fun hr => ⟨by push_cast; linarith [hhi hr], by push_cast; linarith⟩
  cases rnd
  case rtz => exact down
  case rdn =>
    cases neg
    · exact down
    · by_cases hr : r ≠ 0
      · simpa [RoundsInt, hr] using up hr
      · simpa [RoundsInt, hr] using level hr
  case rup =>
    cases neg
    · by_cases hr : r ≠ 0
      · simpa [RoundsInt, hr] using up hr
      · simpa [RoundsInt, hr] using level hr
    · exact down
  case rna =>
    dsimp only [RoundsInt]
    split <;> rename_i hr <;> simp only [decide_eq_true_eq, ge_iff_le, not_le] at hr
    · exact near' hr
    · exact near hr.le
  case rne =>
    dsimp only [RoundsInt]
    split <;> rename_i hr <;> simp only [Bool.or_eq_true, Bool.and_eq_true, decide_eq_true_eq, not_or] at hr
    · exact near' (by omega)
    · exact near (by omega)

/-- roundAt rounds m 2^e to a multiple of 2^q. -/
theorem roundAt_rounds (rnd : Rnd) (neg : Bool) (m : ℕ) (e q : ℤ) :
    RoundsInt rnd neg (m * (2 : ℝ) ^ (e - q)) (roundAt rnd neg m e q) := by
  unfold roundAt
  by_cases hq : q ≤ e
  · rw [if_pos hq]
    obtain ⟨d, hd⟩ := Int.eq_ofNat_of_zero_le (sub_nonneg.2 hq)
    have : (m : ℝ) * (2 : ℝ) ^ (e - q) = ((m * 2 ^ (e - q).toNat : ℕ) : ℝ) := by
      rw [hd, Int.toNat_natCast]
      push_cast
      rfl
    rw [this]
    exact roundsInt_natCast _ _ _
  · rw [if_neg hq]
    obtain ⟨s, hs⟩ := Int.eq_ofNat_of_zero_le (sub_nonneg.2 (not_le.1 hq).le)
    have hpos : (0 : ℝ) < 2 ^ s := by positivity
    have he : (2 : ℝ) ^ (e - q) = 1 / 2 ^ s := by rw [← neg_sub, hs, zpow_neg, zpow_natCast, one_div]
    rw [hs, Int.toNat_natCast, he, mul_one_div]
    have hs0 : s ≠ 0 := by omega
    by_cases hlong : s > Nat.log2 m + 2
    · have hm : m < 2 ^ (Nat.log2 m + 1) := Nat.lt_log2_self
      have hm4 : (m : ℝ) / 2 ^ s < 1 / 4 := by
        rw [div_lt_div_iff₀ hpos (by norm_num), one_mul]
        have : m * 4 < 2 ^ s := by
          calc m * 4 < 2 ^ (Nat.log2 m + 1) * 4 := by omega
            _ = 2 ^ (Nat.log2 m + 1 + 2) := by ring
            _ ≤ 2 ^ s := Nat.pow_le_pow_right (by decide) (by omega)
        exact_mod_cast this
      simp only [if_pos hlong]
      refine roundsInt_of_remainder rnd neg (by push_cast; positivity) (by push_cast; linarith) ?_ ?_ ?_ ?_
      · intro h
        have : m = 0 := by by_contra hm0; simp [hm0] at h
        simp [this]
      · intro h
        have : m ≠ 0 := by rintro rfl; simp at h
        have : (0 : ℝ) < m := by exact_mod_cast Nat.pos_of_ne_zero this
        push_cast
        positivity
      · intro _
        push_cast
        linarith
      · intro h
        split at h <;> omega
    · simp only [if_neg hlong]
      have hd : (2 ^ s * (m / 2 ^ s) + m % 2 ^ s : ℕ) = m := Nat.div_add_mod _ _
      have hr : m % 2 ^ s < 2 ^ s := Nat.mod_lt _ (Nat.two_pow_pos _)
      have hh : 2 ^ s = 2 * 2 ^ (s - 1) := by rw [← pow_succ', Nat.sub_add_cancel (Nat.pos_of_ne_zero hs0)]
      have hx : (m : ℝ) / 2 ^ s = (m / 2 ^ s : ℕ) + (m % 2 ^ s : ℕ) / 2 ^ s := by
        rw [div_eq_iff hpos.ne', add_mul, div_mul_cancel₀ _ hpos.ne', mul_comm]
        exact_mod_cast hd.symm
      have hhr : (2 : ℝ) ^ s = 2 * (2 ^ (s - 1) : ℕ) := by exact_mod_cast hh
      generalize m / 2 ^ s = t at *
      generalize m % 2 ^ s = r at *
      rw [hx]
      have hr0 : (0 : ℝ) ≤ r := Nat.cast_nonneg _
      refine roundsInt_of_remainder rnd neg (by simp; positivity) ?_ ?_ ?_ ?_ ?_
      · have : (r : ℝ) < 2 ^ s := by exact_mod_cast hr
        have := (div_lt_one hpos).2 this
        linarith
      · rintro rfl
        simp
      · intro h
        have : (0 : ℝ) < r := by exact_mod_cast Nat.pos_of_ne_zero h
        have : 0 < (r : ℝ) / 2 ^ s := by positivity
        linarith
      · intro h
        have h' : (r : ℝ) ≤ (2 ^ (s - 1) : ℕ) := by exact_mod_cast h
        have : (r : ℝ) / 2 ^ s ≤ 1 / 2 := by
          rw [div_le_div_iff₀ hpos (by norm_num)]
          linarith
        linarith
      · intro h
        have h' : ((2 ^ (s - 1) : ℕ) : ℝ) ≤ r := by exact_mod_cast h
        have : 1 / 2 ≤ (r : ℝ) / 2 ^ s := by
          rw [div_le_div_iff₀ (by norm_num) hpos]
          linarith
        linarith

/-! An inexact mark: a value strictly between two neighbours rounds as their midpoint does. -/

section
variable {M : ℕ} {x y : ℝ} (hx : (M : ℝ) < x ∧ x < M + 1) (hy : (M : ℝ) < y ∧ y < M + 1)
include hx hy

theorem intCast_le_between {n : ℤ} (h : (n : ℝ) ≤ x) : (n : ℝ) < y := by
  have : n < M + 1 := by exact_mod_cast h.trans_lt hx.2
  have : n ≤ M := by omega
  exact lt_of_le_of_lt (by exact_mod_cast this) hy.1

theorem between_le_intCast {n : ℤ} (h : x ≤ n) : y < (n : ℝ) := by
  have : (M : ℤ) < n := by exact_mod_cast hx.1.trans_le h
  have : (M : ℤ) + 1 ≤ n := by omega
  exact lt_of_lt_of_le hy.2 (by exact_mod_cast this)

/-- Nothing that decides a rounding to multiples of 2^s lies strictly between neighbours, s being at least 1. -/
theorem roundsInt_between {rnd : Rnd} {neg : Bool} {s t : ℕ} (hs : 1 ≤ s) (h : RoundsInt rnd neg (x / 2 ^ s) t) :
    RoundsInt rnd neg (y / 2 ^ s) t := by
  have hpos : (0 : ℝ) < 2 ^ s := by positivity
  have hhalf : (2 : ℝ) ^ s = 2 * 2 ^ (s - 1) := by rw [← pow_succ', Nat.sub_add_cancel hs]
  have le_iff (a : ℝ) : a ≤ y / 2 ^ s ↔ a * 2 ^ s ≤ y := le_div_iff₀ hpos
  have above {a : ℝ} (n : ℤ) (hn : (n : ℝ) = a * 2 ^ s) (h : a ≤ x / 2 ^ s) : a < y / 2 ^ s := by
    rw [lt_div_iff₀ hpos, ← hn]
    exact intCast_le_between hx hy (by rwa [hn, ← le_div_iff₀ hpos])
  have below {a : ℝ} (n : ℤ) (hn : (n : ℝ) = a * 2 ^ s) (h : x / 2 ^ s ≤ a) : y / 2 ^ s < a := by
    rw [div_lt_iff₀ hpos, ← hn]
    exact between_le_intCast hx hy (by rwa [hn, ← div_le_iff₀ hpos])
  have down (h : RoundsDown (x / 2 ^ s) t) : RoundsDown (y / 2 ^ s) t :=
    ⟨(above (t * 2 ^ s) (by push_cast; ring) h.1).le, below ((t + 1) * 2 ^ s) (by push_cast; ring) h.2.le⟩
  have up (h : RoundsUp (x / 2 ^ s) t) : RoundsUp (y / 2 ^ s) t :=
    ⟨above ((t - 1) * 2 ^ s) (by push_cast; ring) h.1.le, (below (t * 2 ^ s) (by push_cast; ring) h.2).le⟩
  have near (h : RoundsNear (x / 2 ^ s) t) : RoundsNear (y / 2 ^ s) t :=
    ⟨(above ((2 * t - 1) * 2 ^ (s - 1)) (by push_cast; rw [hhalf]; ring) h.1).le,
      (below ((2 * t + 1) * 2 ^ (s - 1)) (by push_cast; rw [hhalf]; ring) h.2).le⟩
  cases rnd <;> cases neg
  case rtz.false | rtz.true | rdn.false | rup.true => exact down h
  case rdn.true | rup.false => exact up h
  case rne.false | rne.true | rna.false | rna.true => exact near h

end

/-! No multiple is better, nor any number below a multiple that the value has passed. -/

/-- A candidate beside a value ξ: an integer, or less than an integer that ξ has passed. -/
def Candidate (ξ κ : ℝ) : Prop := (∃ n : ℕ, κ = n) ∨ ∃ n : ℕ, κ ≤ n ∧ (n : ℝ) ≤ ξ

section
variable {ξ κ : ℝ} {t : ℕ} (hκ : Candidate ξ κ)
include hκ

theorem RoundsDown.best (h : RoundsDown ξ t) (hle : κ ≤ ξ) : κ ≤ t := by
  have key (n : ℕ) (hn : (n : ℝ) ≤ ξ) : (n : ℝ) ≤ t := by
    have : n < t + 1 := by exact_mod_cast hn.trans_lt h.2
    exact_mod_cast Nat.lt_succ_iff.1 this
  obtain ⟨n, rfl⟩ | ⟨n, hn, hnξ⟩ := hκ
  · exact key n hle
  · exact hn.trans (key n hnξ)

theorem RoundsUp.best (h : RoundsUp ξ t) (hle : ξ ≤ κ) : (t : ℝ) ≤ κ := by
  have key (n : ℕ) (hn : ξ ≤ n) : (t : ℝ) ≤ n := by
    have : (t : ℤ) - 1 < n := by exact_mod_cast h.1.trans_le hn
    have : t ≤ n := by omega
    exact_mod_cast this
  obtain ⟨n, rfl⟩ | ⟨n, hn, hnξ⟩ := hκ
  · exact key n hle
  · exact (key n (hle.trans hn)).trans (hnξ.trans hle)

theorem RoundsNear.best (h : RoundsNear ξ t) : |ξ - t| ≤ |ξ - κ| := by
  have key (n : ℕ) : |ξ - t| ≤ |ξ - n| := by
    have ht : |ξ - t| ≤ 1 / 2 := abs_le.2 ⟨by linarith [h.1], by linarith [h.2]⟩
    rcases lt_trichotomy n t with hlt | rfl | hlt
    · have : (n : ℝ) + 1 ≤ t := by exact_mod_cast hlt
      exact ht.trans ((by linarith [h.1] : (1 : ℝ) / 2 ≤ ξ - n).trans (le_abs_self _))
    · exact le_rfl
    · have : (t : ℝ) + 1 ≤ n := by exact_mod_cast hlt
      exact ht.trans ((by linarith [h.2] : (1 : ℝ) / 2 ≤ -(ξ - n)).trans (neg_le_abs _))
  obtain ⟨n, rfl⟩ | ⟨n, hn, hnξ⟩ := hκ
  · exact key n
  · refine (key n).trans ?_
    rw [abs_of_nonneg (by linarith), abs_of_nonneg (by linarith)]
    linarith

end

end Sys2Proof.Machine
end

