-- ==== Sys2Proof/Proofs/FormatRounding.lean ====
section
/-! A finite exact value brought to a format: which pattern, and which number of the format it is (R63, R64). -/

namespace Sys2Proof.Machine

/-- How far above the subnormal numbers the numbers of the binade of m 2^e lie. -/
def FpLayout.scale (l : FpLayout) (m : Nat) (e : Int) : Nat := ((Nat.log2 m : Int) + e - l.mbits - l.emin).toNat

/-- The pattern of m 2^e, rounded with the exponent unbounded above. -/
def FpLayout.pack (l : FpLayout) (rnd : Rnd) (neg : Bool) (m : Nat) (e : Int) : Nat :=
  l.scale m e * 2 ^ l.mbits + roundAt rnd neg m e (l.emin + l.scale m e)

/-- What is said of an overflow: the largest finite number, or infinity (R64). -/
def stays (rnd : Rnd) (sat neg : Bool) : Bool :=
  sat || match rnd with
    | .rtz => true
    | .rdn => !neg
    | .rup => neg
    | .rne | .rna => false

section
variable (l : FpLayout) (rnd : Rnd) (neg : Bool) (m : Nat) (e : Int)

theorem max_emin_eq : max l.emin ((Nat.log2 m : Int) + e - l.mbits) = l.emin + l.scale m e := by
  unfold FpLayout.scale
  omega

theorem lt_two_zpow_log2 (hm : m ≠ 0) : (2 : ℝ) ^ ((Nat.log2 m : Int) + e) ≤ m * (2 : ℝ) ^ e ∧
    m * (2 : ℝ) ^ e < (2 : ℝ) ^ ((Nat.log2 m : Int) + e + 1) := by
  have h1 : (2 : ℝ) ^ Nat.log2 m ≤ m := by exact_mod_cast Nat.log2_self_le hm
  have h2 : (m : ℝ) < 2 ^ (Nat.log2 m + 1) := by exact_mod_cast Nat.lt_log2_self
  rw [add_right_comm, zpow_add₀ (by norm_num), zpow_add₀ (by norm_num) _ e]
  constructor
  · gcongr
    exact h1
  · gcongr
    exact_mod_cast h2

/-- In units of the binade the value lies from 2^mbits, or below it among the subnormal numbers, to 2^(mbits + 1). -/
theorem binade {X : ℝ} (hlo : (2 : ℝ) ^ ((Nat.log2 m : Int) + e) ≤ X) (hhi : X < (2 : ℝ) ^ ((Nat.log2 m : Int) + e + 1)) :
    X / (2 : ℝ) ^ (l.emin + l.scale m e) < (2 ^ (l.mbits + 1) : ℕ) ∧
    (0 < l.scale m e → (2 ^ l.mbits : ℕ) ≤ X / (2 : ℝ) ^ (l.emin + l.scale m e)) := by
  have hpos : (0 : ℝ) < (2 : ℝ) ^ (l.emin + l.scale m e) := by positivity
  push_cast
  rw [div_lt_iff₀ hpos, le_div_iff₀ hpos, ← zpow_natCast, ← zpow_natCast, ← zpow_add₀ (by norm_num), ← zpow_add₀ (by norm_num)]
  refine ⟨hhi.trans_le (zpow_le_zpow_right₀ (by norm_num) ?_), fun h => le_trans (zpow_le_zpow_right₀ (by norm_num) ?_) hlo⟩
  · unfold FpLayout.scale
    push_cast
    omega
  · unfold FpLayout.scale at *
    omega

theorem RoundsInt.le_of_lt {rnd : Rnd} {neg : Bool} {ξ : ℝ} {t n : ℕ} (h : RoundsInt rnd neg ξ t) (hn : ξ < n) : t ≤ n := by
  have key (hlt : (t : ℝ) - 1 < ξ) : t ≤ n := by
    have : (t : ℤ) - 1 < n := by exact_mod_cast hlt.trans hn
    omega
  cases rnd <;> cases neg <;> refine key ?_
  case rtz.false | rtz.true | rdn.false | rup.true => linarith [h.1]
  case rdn.true | rup.false => exact h.1
  case rne.false | rne.true | rna.false | rna.true => linarith [h.1]

theorem RoundsInt.le_of_le {rnd : Rnd} {neg : Bool} {ξ : ℝ} {t n : ℕ} (h : RoundsInt rnd neg ξ t) (hn : (n : ℝ) ≤ ξ) : n ≤ t := by
  have key (hlt : ξ < t + 1) : n ≤ t := by
    have : n < t + 1 := by exact_mod_cast hn.trans_lt hlt
    omega
  cases rnd <;> cases neg <;> refine key ?_
  case rtz.false | rtz.true | rdn.false | rup.true => exact h.2
  case rdn.true | rup.false => linarith [h.2]
  case rne.false | rne.true | rna.false | rna.true => linarith [h.2]

/-- The integer part of the pattern fills its binade, or the carry begins the next one. -/
theorem roundAt_range {X : ℝ} (hlo : (2 : ℝ) ^ ((Nat.log2 m : Int) + e) ≤ X) (hhi : X < (2 : ℝ) ^ ((Nat.log2 m : Int) + e + 1))
    {t : ℕ} (ht : RoundsInt rnd neg (X / (2 : ℝ) ^ (l.emin + l.scale m e)) t) :
    t ≤ 2 ^ (l.mbits + 1) ∧ (l.scale m e = 0 ∨ 2 ^ l.mbits ≤ t) := by
  obtain ⟨h1, h2⟩ := binade l m e hlo hhi
  exact ⟨ht.le_of_lt h1, (Nat.eq_zero_or_pos _).imp_right fun h => ht.le_of_le (h2 h)⟩

theorem roundAt_unit : RoundsInt rnd neg (m * (2 : ℝ) ^ e / (2 : ℝ) ^ (l.emin + l.scale m e))
    (roundAt rnd neg m e (l.emin + l.scale m e)) := by
  rw [mul_div_assoc, ← zpow_sub₀ (by norm_num)]
  exact roundAt_rounds rnd neg m e _

end

section
variable {f : Fmt} {l : FpLayout} (hf : IsFloat f l)
include hf

theorem overflow_eq (rnd : Rnd) (sat neg : Bool) :
    overflow f rnd sat neg = withSign f neg (if stays rnd sat neg then maxFinite f else infPattern f) := by
  have h4 : (f == .fp4) = false := beq_eq_false_iff_ne.2 hf.other.2
  simp only [overflow, h4, hf.hasInf, Bool.or_false, if_true]
  rw [Bool.or_comm]
  exact (apply_ite (withSign f neg) _ _ _).symm

/-- The result is the packed pattern, or what an overflow gives. -/
theorem fpRound_eq (rnd : Rnd) (sat neg : Bool) {m : Nat} (hm : m ≠ 0) (e : Int) : fpRound f l rnd sat neg m e = withSign f neg
    (if l.pack rnd neg m e < infPattern f then l.pack rnd neg m e else if stays rnd sat neg then maxFinite f else infPattern f) := by
  obtain ⟨hlo, hhi⟩ := lt_two_zpow_log2 m e hm
  obtain ⟨ht, hk⟩ := roundAt_range l rnd neg m e hlo hhi (roundAt_unit l rnd neg m e)
  have hq : max (1 - (l.bias : Int) - l.mbits) ((Nat.log2 m : Int) + e - l.mbits) = l.emin + l.scale m e := max_emin_eq l m e
  have h2 : 2 ^ (l.mbits + 1) = 2 ^ l.mbits + 2 ^ l.mbits := by ring
  have hmax := hf.maxFinite
  have hsub : 2 ^ l.mbits ≤ infPattern f := by
    rw [hf.inf]
    have : 2 ^ 2 ≤ 2 ^ l.ebits := Nat.pow_le_pow_right (by decide) hf.ebits
    exact Nat.le_mul_of_pos_left _ (by omega)
  have hbias : l.emin + l.mbits + l.bias = 1 := by unfold FpLayout.emin; omega
  generalize hrt : roundAt rnd neg m e (l.emin + l.scale m e) = t at ht hk
  simp only [fpRound, if_neg hm, hq, FpLayout.pack, hrt, overflow_eq hf]
  generalize l.scale m e = k at hk ⊢
  have hpos := Nat.two_pow_pos l.mbits
  have choose (p o : Nat) : (if p > maxFinite f then withSign f neg o else withSign f neg p) =
      withSign f neg (if p < infPattern f then p else o) := by
    by_cases h : p < infPattern f
    · rw [if_pos h, if_neg (by omega)]
    · rw [if_neg h, if_pos (by omega)]
  by_cases hc : t = 2 ^ (l.mbits + 1)
  · have hb : (l.emin + k + 1 + l.mbits + l.bias).toNat = k + 2 := by omega
    have hp : (k + 2) * 2 ^ l.mbits = k * 2 ^ l.mbits + t := by rw [Nat.add_mul]; omega
    have hhalf : t / 2 = 2 ^ l.mbits := by omega
    simp only [hc, decide_true, if_true] at hhalf ⊢
    rw [hhalf, if_neg (Nat.lt_irrefl _), hb, Nat.sub_self, Nat.add_zero, hp, hc]
    exact choose _ _
  · simp only [hc, decide_false, Bool.false_eq_true, if_false]
    by_cases hs : t < 2 ^ l.mbits
    · obtain rfl : k = 0 := by omega
      rw [if_pos hs, if_pos (by omega), Nat.zero_mul, Nat.zero_add]
    · have hb : (l.emin + k + l.mbits + l.bias).toNat = k + 1 := by omega
      have hp : (k + 1) * 2 ^ l.mbits + (t - 2 ^ l.mbits) = k * 2 ^ l.mbits + t := by rw [Nat.add_mul]; omega
      rw [if_neg hs, hb, hp]
      exact choose _ _

end

end Sys2Proof.Machine
end

