-- ==== Sys2Proof/Proofs/FormatNearest.lean ====
section
/-! The number of a format that a real number is rounded to: none is nearer, or none lies between (R63, R64). -/

namespace Sys2Proof.Machine

/-- A real number of magnitude X with its sign. -/
def signedReal (neg : Bool) (X : ℝ) : ℝ := if neg then -X else X

/-- What rounding a magnitude X may give among the magnitudes of format f. -/
def BestDown (f : Fmt) (l : FpLayout) (X T : ℝ) : Prop := T ≤ X ∧ ∀ p, p < infPattern f → l.mag p ≤ X → l.mag p ≤ T
def BestUp (f : Fmt) (l : FpLayout) (X T : ℝ) : Prop := X ≤ T ∧ ∀ p, p < infPattern f → X ≤ l.mag p → T ≤ l.mag p
def BestNear (f : Fmt) (l : FpLayout) (X T : ℝ) : Prop := ∀ p, p < infPattern f → |X - T| ≤ |X - l.mag p|

def Best (f : Fmt) (l : FpLayout) (rnd : Rnd) (neg : Bool) : ℝ → ℝ → Prop :=
  match rnd with
  | .rtz => BestDown f l
  | .rdn => if neg then BestUp f l else BestDown f l
  | .rup => if neg then BestDown f l else BestUp f l
  | .rne | .rna => BestNear f l

section
variable {f : Fmt} {l : FpLayout} (hf : IsFloat f l)
include hf

/-- The best magnitude with the value's sign is what R63 asks for. -/
theorem roundsTo_of_best {rnd : Rnd} {neg : Bool} {X : ℝ} (hX : 0 ≤ X) {p : Nat} (hp : p < infPattern f)
    (h : Best f l rnd neg X (l.mag p)) : RoundsTo f rnd (signedReal neg X) (withSign f neg p) := by
  intro _ q hfin
  obtain ⟨sg, q, hq, rfl⟩ := (finitePat_iff hf).1 hfin
  beta_reduce
  rw [ratOf_withSign hf neg hp, ratOf_withSign hf sg hq]
  have hT := mag_nonneg l p
  have hQ := mag_nonneg l q
  have abs_signed (b : Bool) {a : ℝ} (ha : 0 ≤ a) : |if b then -a else a| = a := by cases b <;> simp [abs_of_nonneg ha]
  have near (h : BestNear f l X (l.mag p)) :
      |signedReal neg X - if neg then -l.mag p else l.mag p| ≤ |signedReal neg X - if sg then -l.mag q else l.mag q| := by
    have h1 : |signedReal neg X - if neg then -l.mag p else l.mag p| = |X - l.mag p| := by
      cases neg
      · rfl
      · rw [signedReal, if_pos rfl, if_pos rfl, neg_sub_neg, abs_sub_comm]
    have h2 := abs_abs_sub_abs_le (signedReal neg X) (if sg then -l.mag q else l.mag q)
    rw [signedReal, abs_signed neg hX, abs_signed sg hQ] at h2
    exact h1 ▸ (h q hq).trans h2
  cases rnd
  case rne => exact near h
  case rna => exact near h
  case rtz =>
    dsimp only
    rw [signedReal, abs_signed neg hX, abs_signed neg hT, abs_signed sg hQ]
    exact ⟨h.1, h.2 q hq⟩
  case rdn =>
    cases neg
    · refine ⟨h.1, fun hle => ?_⟩
      cases sg
      · exact h.2 q hq hle
      · exact (neg_nonpos.2 hQ).trans hT
    · refine ⟨neg_le_neg h.1, fun hle => ?_⟩
      cases sg
      · have hle' : l.mag q ≤ -X := hle
        exact neg_le_neg (h.2 q hq (by linarith)) |>.trans' (by simp; linarith)
      · exact neg_le_neg (h.2 q hq (neg_le_neg_iff.1 hle))
  case rup =>
    cases neg
    · refine ⟨h.1, fun hle => ?_⟩
      cases sg
      · exact h.2 q hq hle
      · have hle' : X ≤ -l.mag q := hle
        exact (h.2 q hq (by linarith)).trans (by simp; linarith)
    · refine ⟨neg_le_neg h.1, fun hle => ?_⟩
      cases sg
      · exact (neg_nonpos.2 hT).trans hQ
      · exact neg_le_neg (h.2 q hq (neg_le_neg_iff.1 hle))

omit hf in
/-- In the units of its binade the value stands beside every number of the format as beside a candidate. -/
theorem candidate_mag {m : Nat} {e : Int} {X : ℝ} (hlo : (2 : ℝ) ^ ((Nat.log2 m : Int) + e) ≤ X)
    (hhi : X < (2 : ℝ) ^ ((Nat.log2 m : Int) + e + 1)) (p : Nat) :
    Candidate (X / (2 : ℝ) ^ (l.emin + l.scale m e)) (l.mag p / (2 : ℝ) ^ (l.emin + l.scale m e)) := by
  have hpos : (0 : ℝ) < (2 : ℝ) ^ (l.emin + l.scale m e) := by positivity
  obtain ⟨n, hn⟩ | ⟨hk, hlt⟩ := mag_grid l p (l.scale m e)
  · exact .inl ⟨n, by rw [hn, mul_div_cancel_right₀ _ hpos.ne']⟩
  · exact .inr ⟨_, (div_le_iff₀ hpos).2 hlt.le, (binade l m e hlo hhi).2 hk⟩

omit hf in
theorem best_of_roundsInt {rnd : Rnd} {neg : Bool} {m : Nat} {e : Int} {X : ℝ} (hlo : (2 : ℝ) ^ ((Nat.log2 m : Int) + e) ≤ X)
    (hhi : X < (2 : ℝ) ^ ((Nat.log2 m : Int) + e + 1)) {t : ℕ}
    (ht : RoundsInt rnd neg (X / (2 : ℝ) ^ (l.emin + l.scale m e)) t) :
    Best f l rnd neg X (t * (2 : ℝ) ^ (l.emin + l.scale m e)) := by
  have hc := candidate_mag (l := l) hlo hhi
  have hpos : (0 : ℝ) < (2 : ℝ) ^ (l.emin + l.scale m e) := by positivity
  generalize (2 : ℝ) ^ (l.emin + l.scale m e) = u at *
  have down (h : RoundsDown (X / u) t) : BestDown f l X (t * u) :=
    ⟨(le_div_iff₀ hpos).1 h.1, fun p _ hp => (div_le_iff₀ hpos).1 (h.best (hc p) ((div_le_div_iff_of_pos_right hpos).2 hp))⟩
  have up (h : RoundsUp (X / u) t) : BestUp f l X (t * u) :=
    ⟨(div_le_iff₀ hpos).1 h.2, fun p _ hp => (le_div_iff₀ hpos).1 (h.best (hc p) ((div_le_div_iff_of_pos_right hpos).2 hp))⟩
  have near (h : RoundsNear (X / u) t) : BestNear f l X (t * u) := by
    intro p _
    have hu (a : ℝ) : X - a = (X / u - a / u) * u := by rw [sub_mul, div_mul_cancel₀ _ hpos.ne', div_mul_cancel₀ _ hpos.ne']
    rw [hu (t * u), hu (l.mag p), abs_mul, abs_mul, mul_div_cancel_right₀ _ hpos.ne']
    exact mul_le_mul_of_nonneg_right (h.best (hc p)) (abs_nonneg u)
  cases rnd <;> cases neg
  case rtz.false | rtz.true | rdn.false | rup.true => exact down ht
  case rdn.true | rup.false => exact up ht
  case rne.false | rne.true | rna.false | rna.true => exact near ht

/-- A rounding that stays below an overflow gives the largest finite number. -/
theorem best_maxFinite {rnd : Rnd} {neg : Bool} {X T : ℝ} (h : Best f l rnd neg X T) (hs : stays rnd false neg = true)
    (hT : l.mag (maxFinite f) ≤ T) : Best f l rnd neg X (l.mag (maxFinite f)) := by
  have down (h : BestDown f l X T) : BestDown f l X (l.mag (maxFinite f)) :=
    ⟨hT.trans h.1, fun p hp _ => mag_mono l (by have := hf.maxFinite; omega)⟩
  cases rnd <;> cases neg
  case rtz.false | rtz.true | rdn.false | rup.true => exact down h
  case rdn.true | rup.false | rne.false | rne.true | rna.false | rna.true => exact absurd hs (by decide)

/-- A real number in the binade of m 2^e that rounds, in its units, as m 2^e does is rounded by fpRound. -/
theorem roundsTo_fpRound {rnd : Rnd} {neg : Bool} {m : Nat} {e : Int} (hm : m ≠ 0) {X : ℝ}
    (hlo : (2 : ℝ) ^ ((Nat.log2 m : Int) + e) ≤ X) (hhi : X < (2 : ℝ) ^ ((Nat.log2 m : Int) + e + 1))
    (ht : RoundsInt rnd neg (X / (2 : ℝ) ^ (l.emin + l.scale m e)) (roundAt rnd neg m e (l.emin + l.scale m e))) :
    RoundsTo f rnd (signedReal neg X) (fpRound f l rnd false neg m e) := by
  have hX : 0 ≤ X := le_trans (by positivity) hlo
  have hmax := hf.maxFinite
  obtain ⟨hle, hk⟩ := roundAt_range l rnd neg m e hlo hhi ht
  have hb : Best f l rnd neg X (l.mag (l.pack rnd neg m e)) := by
    rw [FpLayout.pack, mag_eq l hle hk]
    exact best_of_roundsInt hlo hhi ht
  rw [fpRound_eq hf rnd false neg hm]
  by_cases hp : l.pack rnd neg m e < infPattern f
  · rw [if_pos hp]
    exact roundsTo_of_best hf hX hp hb
  rw [if_neg hp]
  by_cases hs : stays rnd false neg = true
  · rw [if_pos hs]
    exact roundsTo_of_best hf hX (by omega) (best_maxFinite hf hb hs (mag_mono l (by omega)))
  · rw [if_neg hs]
    exact fun h => absurd h (not_finitePat_inf hf neg)

/-- Zero is rounded to zero. -/
theorem roundsTo_zero (rnd : Rnd) (neg : Bool) : RoundsTo f rnd 0 (withSign f neg 0) := by
  have h0 : 0 < infPattern f := by
    rw [hf.inf]
    have : 2 ^ 2 ≤ 2 ^ l.ebits := Nat.pow_le_pow_right (by decide) hf.ebits
    exact Nat.mul_pos (by omega) (Nat.two_pow_pos _)
  have hmag : l.mag 0 = 0 := by simp [FpLayout.mag, FpLayout.sig]
  have hv : ((ratOf (fval f (withSign f neg 0)) : ℚ) : ℝ) = 0 := by
    rw [ratOf_withSign hf neg h0, hmag]
    simp
  intro _ q _
  beta_reduce
  rw [hv]
  cases rnd
  case rne | rna => simp
  case rtz => exact ⟨le_rfl, id⟩
  case rdn => exact ⟨le_rfl, id⟩
  case rup => exact ⟨le_rfl, id⟩

theorem encode_fin (rnd : Rnd) (sat neg : Bool) (m : Nat) (e : Int) :
    Machine.encode f false rnd sat (.fin neg m e) = fpRound f l rnd sat neg m e := by
  rw [Machine.encode, hf.layout]
  rfl

/-- A finite exact value is rounded to the format (R63, R64). -/
theorem roundsTo_encode (rnd : Rnd) (neg : Bool) (m : Nat) (e : Int) :
    RoundsTo f rnd (signedReal neg (m * (2 : ℝ) ^ e)) (Machine.encode f false rnd false (.fin neg m e)) := by
  rw [encode_fin hf]
  by_cases hm : m = 0
  · have : signedReal neg (m * (2 : ℝ) ^ e) = 0 := by simp [hm, signedReal]
    rw [this, fpRound, if_pos hm]
    exact roundsTo_zero hf rnd neg
  · obtain ⟨hlo, hhi⟩ := lt_two_zpow_log2 m e hm
    exact roundsTo_fpRound hf hm hlo hhi (roundAt_unit l rnd neg m e)

/-- A real number between two neighbours that are too fine to tell apart is rounded as its inexact mark is. -/
theorem roundsTo_inexact (rnd : Rnd) (neg : Bool) {M : Nat} {e : Int} {x : ℝ} {whole : Bool} (hx : (M : ℝ) ≤ x) (hx' : x < M + 1)
    (he : whole = true ↔ x = M) (hM : whole = false → l.mbits < Nat.log2 M) :
    RoundsTo f rnd (signedReal neg (x * (2 : ℝ) ^ e)) (Machine.encode f false rnd false (inexact neg M e whole)) := by
  cases whole with
  | true =>
    rw [he.1 rfl]
    exact roundsTo_encode hf rnd neg M e
  | false =>
    have hne : x ≠ M := fun h => absurd (he.2 h) (by decide)
    have hfine := hM rfl
    have hM0 : M ≠ 0 := by rintro rfl; simp at hfine
    have hlog : Nat.log2 (2 * M + 1) = Nat.log2 M + 1 := by
      rw [Nat.log2_eq_iff (by omega)]
      have h1 := Nat.log2_self_le hM0
      have h2 : M < 2 ^ (Nat.log2 M + 1) := Nat.lt_log2_self
      rw [pow_succ] at h2
      constructor
      · rw [pow_succ]
        omega
      · rw [pow_succ, pow_succ]
        omega
    have hexp : ((Nat.log2 (2 * M + 1) : Nat) : Int) + (e - 1) = (Nat.log2 M : Int) + e := by rw [hlog]; push_cast; ring
    have hlt : (M : ℝ) < x := lt_of_le_of_ne hx (Ne.symm hne)
    obtain ⟨h1, -⟩ := lt_two_zpow_log2 M e hM0
    have h2 : (M : ℝ) + 1 ≤ 2 ^ (Nat.log2 M + 1) := by
      have : M < 2 ^ (Nat.log2 M + 1) := Nat.lt_log2_self
      exact_mod_cast this
    have hpe : (0 : ℝ) < (2 : ℝ) ^ e := by positivity
    rw [inexact, if_neg (by decide), encode_fin hf]
    refine roundsTo_fpRound hf (by omega) ?_ ?_ ?_
    · rw [hexp]
      exact h1.trans (mul_le_mul_of_nonneg_right hx hpe.le)
    · rw [hexp, add_right_comm, zpow_add₀ (by norm_num)]
      exact mul_lt_mul_of_pos_right (hx'.trans_le (by exact_mod_cast h2)) hpe
    · -- the unit of the format is a multiple of 2^(e + s), s at least 1
      obtain ⟨s, hs⟩ : ∃ s : ℕ, l.emin + l.scale (2 * M + 1) (e - 1) = e + s ∧ 1 ≤ s := by
        refine ⟨(l.emin + l.scale (2 * M + 1) (e - 1) - e).toNat, ?_, ?_⟩ <;> unfold FpLayout.scale <;> rw [hexp] <;> omega
      have hunit : (2 : ℝ) ^ (e + (s : ℤ)) = (2 : ℝ) ^ e * 2 ^ s := by rw [zpow_add₀ (by norm_num), zpow_natCast]
      have hr := roundAt_unit l rnd neg (2 * M + 1) (e - 1)
      rw [hs.1, hunit] at hr ⊢
      rw [zpow_sub₀ (by norm_num : (2 : ℝ) ≠ 0), show ((2 * M + 1 : ℕ) : ℝ) * (2 ^ e / 2 ^ (1 : ℤ)) / (2 ^ e * 2 ^ s) =
        ((M : ℝ) + 1 / 2) / 2 ^ s by push_cast; field_simp] at hr
      rw [show x * (2 : ℝ) ^ e / (2 ^ e * 2 ^ s) = x / 2 ^ s by field_simp]
      exact roundsInt_between ⟨by linarith, by linarith⟩ ⟨hlt, hx'⟩ hs.2 hr

end

end Sys2Proof.Machine
end

