-- ==== Sys2Proof/Proofs/ExactValues.lean ====
section
/-! Exact sums and products, and the values that quotients and roots are rounded from (R63, R82). -/

namespace Sys2Proof.Machine

/-! Sums and products. -/

theorem ratOf_fin (neg : Bool) (m : Nat) (e : Int) : ratOf (.fin neg m e) = (if neg then -(m : ℚ) else m) * (2 : ℚ) ^ e := by
  cases neg <;> simp [ratOf]

theorem ratOf_fin_eq_zero {neg : Bool} {m : Nat} {e : Int} : ratOf (.fin neg m e) = 0 ↔ m = 0 := by
  have : (2 : ℚ) ^ e ≠ 0 := zpow_ne_zero _ (by norm_num)
  rw [ratOf_fin, mul_eq_zero, or_iff_left this]
  cases neg <;> simp

/-- A finite value in units of 2^q. -/
theorem signedAt_mul (neg : Bool) (m : Nat) {e q : Int} (h : q ≤ e) :
    (signedAt neg m e q : ℚ) * (2 : ℚ) ^ q = ratOf (.fin neg m e) := by
  obtain ⟨d, rfl⟩ := Int.le.dest h
  have hd : (q + d - q).toNat = d := by omega
  rw [ratOf_fin, zpow_add₀ (by norm_num), zpow_natCast, signedAt, hd]
  cases neg
  · push_cast
    ring
  · push_cast
    rw [if_pos rfl, if_pos rfl]
    ring

theorem ratOf_ofInt_scaled (z q : Int) : ratOf (.fin (decide (z < 0)) z.natAbs q) = z * (2 : ℚ) ^ q := by
  have h : ((z.natAbs : ℕ) : ℚ) = |(z : ℚ)| := by rw [← Int.cast_abs, Int.abs_eq_natAbs]; rfl
  rw [ratOf_fin, h]
  by_cases hz : z < 0
  · have : (z : ℚ) < 0 := by exact_mod_cast hz
    simp [hz, abs_of_neg this]
  · have : (0 : ℚ) ≤ z := by exact_mod_cast not_lt.1 hz
    simp [hz, abs_of_nonneg this]

/-- The sum of finite values: finite and exact, a zero with the sign of R63. -/
theorem add_fin (rnd : Rnd) (sa sb : Bool) (m n : Nat) (e d : Int) :
    (∃ t k i, (FVal.fin sa m e).add rnd (.fin sb n d) = .fin t k i) ∧
    ratOf ((FVal.fin sa m e).add rnd (.fin sb n d)) = ratOf (.fin sa m e) + ratOf (.fin sb n d) ∧
    (ratOf (.fin sa m e) + ratOf (.fin sb n d) = 0 →
      ((FVal.fin sa m e).add rnd (.fin sb n d)).sign = if sa = sb then sa else decide (rnd = .rdn)) := by
  simp only [FVal.add]
  by_cases hmn : m = 0 ∧ n = 0
  · rw [if_pos hmn, ratOf_fin_eq_zero.2 hmn.1, ratOf_fin_eq_zero.2 hmn.2, ratOf_fin_eq_zero.2 rfl]
    exact ⟨⟨_, _, _, rfl⟩, by norm_num, fun _ => rfl⟩
  rw [if_neg hmn]
  by_cases hm : m = 0
  · rw [if_pos hm, ratOf_fin_eq_zero.2 hm, zero_add]
    exact ⟨⟨_, _, _, rfl⟩, rfl, fun h => absurd (ratOf_fin_eq_zero.1 h) fun hn => hmn ⟨hm, hn⟩⟩
  rw [if_neg hm]
  by_cases hn : n = 0
  · rw [if_pos hn, ratOf_fin_eq_zero.2 hn, add_zero]
    exact ⟨⟨_, _, _, rfl⟩, rfl, fun h => absurd (ratOf_fin_eq_zero.1 h) hm⟩
  rw [if_neg hn]
  have hsum : ((signedAt sa m e (min e d) + signedAt sb n d (min e d) : ℤ) : ℚ) * (2 : ℚ) ^ min e d =
      ratOf (.fin sa m e) + ratOf (.fin sb n d) := by
    rw [Int.cast_add, add_mul, signedAt_mul sa m (min_le_left e d), signedAt_mul sb n (min_le_right e d)]
  rw [← hsum]
  by_cases hz : signedAt sa m e (min e d) + signedAt sb n d (min e d) = 0
  · rw [if_pos hz, hz, ratOf_fin_eq_zero.2 rfl]
    refine ⟨⟨_, _, _, rfl⟩, by norm_num, fun _ => ?_⟩
    have hne : sa ≠ sb := by
      rintro rfl
      have h1 : 0 < m * 2 ^ (e - min e d).toNat := Nat.mul_pos (Nat.pos_of_ne_zero hm) (Nat.two_pow_pos _)
      have h2 : 0 < n * 2 ^ (d - min e d).toNat := Nat.mul_pos (Nat.pos_of_ne_zero hn) (Nat.two_pow_pos _)
      unfold signedAt at hz
      cases sa <;> simp only [Bool.false_eq_true, if_false, if_true] at hz <;> omega
    rw [if_neg hne]
    rfl
  · rw [if_neg hz, ratOf_ofInt_scaled]
    refine ⟨⟨_, _, _, rfl⟩, rfl, fun h => absurd h ?_⟩
    exact mul_ne_zero (Int.cast_ne_zero.2 hz) (zpow_ne_zero _ (by norm_num))

theorem mul_fin (sa sb : Bool) (m n : Nat) (e d : Int) :
    (FVal.fin sa m e).mul (.fin sb n d) = .fin (sa != sb) (m * n) (e + d) ∧
    ratOf ((FVal.fin sa m e).mul (.fin sb n d)) = ratOf (.fin sa m e) * ratOf (.fin sb n d) := by
  have h : (FVal.fin sa m e).mul (.fin sb n d) = .fin (sa != sb) (m * n) (e + d) := by cases sa <;> cases sb <;> rfl
  refine ⟨h, ?_⟩
  rw [h, ratOf_fin, ratOf_fin, ratOf_fin, zpow_add₀ (by norm_num)]
  cases sa <;> cases sb <;> push_cast <;> simp <;> ring

/-! Square roots of integers. -/

/-- The bits found so far and those still to find bracket the root. -/
theorem isqrt_bounds (k : Nat) : ∀ x r : Nat, r * r ≤ x → x < (r + 2 ^ k) * (r + 2 ^ k) →
    isqrt k x r * isqrt k x r ≤ x ∧ x < (isqrt k x r + 1) * (isqrt k x r + 1) := by
  induction k with
  | zero => exact fun x r h1 h2 => ⟨h1, h2⟩
  | succ k ih =>
    intro x r h1 h2
    simp only [isqrt]
    split
    · rename_i ht
      exact ih x _ ht (by rw [add_assoc, ← two_mul, ← pow_succ']; exact h2)
    · rename_i ht
      exact ih x r h1 (not_le.1 ht)

theorem isqrt_eq_sqrt {k x : Nat} (h : x < 2 ^ (2 * k)) : isqrt k x 0 = Nat.sqrt x := by
  refine Nat.eq_sqrt.2 (isqrt_bounds k x 0 (Nat.zero_le _) ?_)
  rwa [Nat.zero_add, ← pow_add, ← two_mul]

theorem le_log2_sqrt {x k : Nat} (h : 2 ^ (2 * k) ≤ x) : k ≤ Nat.log2 (Nat.sqrt x) := by
  have hs : 2 ^ k ≤ Nat.sqrt x := Nat.le_sqrt.2 (by rwa [← pow_add, ← two_mul])
  exact (Nat.le_log2 (Nat.one_le_iff_ne_zero.1 ((Nat.one_le_two_pow).trans hs))).2 hs

theorem even_exponent (m : Nat) (e : Int) : ∃ i : Int, (if e % 2 = 0 then e else e - 1) = 2 * i ∧
    (m : ℝ) * (2 : ℝ) ^ e = (if e % 2 = 0 then m else 2 * m : ℕ) * (2 : ℝ) ^ (2 * i) := by
  by_cases h : e % 2 = 0
  · exact ⟨e / 2, by rw [if_pos h]; omega, by rw [if_pos h, show 2 * (e / 2) = e by omega]⟩
  · refine ⟨(e - 1) / 2, by rw [if_neg h]; omega, ?_⟩
    rw [if_neg h, show 2 * ((e - 1) / 2) = e - 1 by omega, zpow_sub_one₀ (by norm_num)]
    push_cast
    ring

theorem sqrt_zpow_two_mul (i : Int) : Real.sqrt ((2 : ℝ) ^ (2 * i)) = (2 : ℝ) ^ i := by
  rw [mul_comm, zpow_mul]
  exact Real.sqrt_sq (by positivity)

/-! What a quotient or a root is rounded from: its integer part in fine units, and whether that is all of it (R82). -/

section
variable {f : Fmt} {l : FpLayout} (hf : IsFloat f l) (rnd : Rnd)
include hf

theorem roundsTo_div (sa sb : Bool) (m : Nat) {n : Nat} (e d : Int) (hn : n ≠ 0) :
    RoundsTo f rnd ((ratOf (.fin sa m e) / ratOf (.fin sb n d) : ℚ) : ℝ)
      (Machine.encode f false rnd false ((FVal.fin sa m e).div (.fin sb n d))) := by
  have hn' : (0 : ℝ) < n := by exact_mod_cast Nat.pos_of_ne_zero hn
  simp only [FVal.div, if_neg hn]
  generalize hk : 160 + Nat.log2 n = k
  have hval : ((ratOf (.fin sa m e) / ratOf (.fin sb n d) : ℚ) : ℝ) =
      signedReal (sa ^^ sb) (((m * 2 ^ k : ℕ) : ℝ) / n * (2 : ℝ) ^ (e - d - k)) := by
    rw [ratOf_fin, ratOf_fin, zpow_sub₀ (by norm_num), zpow_sub₀ (by norm_num), zpow_natCast]
    cases sa <;> cases sb <;> push_cast [signedReal] <;> simp <;> field_simp
  rw [hval]
  have hdm : ((m * 2 ^ k : ℕ) : ℝ) / n = (m * 2 ^ k / n : ℕ) + ((m * 2 ^ k % n : ℕ) : ℝ) / n := by
    rw [div_eq_iff hn'.ne', add_mul, div_mul_cancel₀ _ hn'.ne']
    exact_mod_cast (Nat.div_add_mod' (m * 2 ^ k) n).symm
  have hmod : (m * 2 ^ k % n : ℕ) < n := Nat.mod_lt _ (Nat.pos_of_ne_zero hn)
  refine roundsTo_inexact hf rnd (sa ^^ sb) ?_ ?_ ?_ ?_
  · rw [hdm]
    exact le_add_of_nonneg_right (by positivity)
  · rw [hdm]
    have : ((m * 2 ^ k % n : ℕ) : ℝ) / n < 1 := (div_lt_one hn').2 (by exact_mod_cast hmod)
    linarith
  · rw [hdm, beq_iff_eq, add_eq_left, div_eq_zero_iff, or_iff_left hn'.ne', Nat.cast_eq_zero]
  · intro hr
    have hm : m ≠ 0 := by rintro rfl; simp at hr
    have hlog : n < 2 ^ (Nat.log2 n + 1) := Nat.lt_log2_self
    have hle : 2 ^ 159 ≤ m * 2 ^ k / n := by
      rw [Nat.le_div_iff_mul_le (Nat.pos_of_ne_zero hn)]
      calc 2 ^ 159 * n ≤ 2 ^ 159 * 2 ^ (Nat.log2 n + 1) := Nat.mul_le_mul_left _ hlog.le
        _ = 2 ^ k := by rw [← hk, ← pow_add]; congr 1; omega
        _ ≤ m * 2 ^ k := Nat.le_mul_of_pos_left _ (Nat.pos_of_ne_zero hm)
    have hl := hf.mbits
    have := (Nat.le_log2 (by omega)).2 hle
    omega

theorem roundsTo_sqrt {m : Nat} (e : Int) (hm : m ≠ 0) :
    RoundsTo f rnd (Real.sqrt (ratOf (.fin false m e) : ℝ)) (Machine.encode f false rnd false (FVal.fin false m e).sqrt) := by
  obtain ⟨i, he, hv⟩ := even_exponent m e
  simp only [FVal.sqrt, if_neg hm, Bool.false_eq_true, if_false, sqrtVal, he]
  generalize hm2 : (if e % 2 = 0 then m else 2 * m) = m2 at hv
  have hm20 : m2 ≠ 0 := by rw [← hm2]; split <;> omega
  generalize hx : m2 * 2 ^ 160 = x
  have hlog : x < 2 ^ (2 * (Nat.log2 x / 2 + 1)) :=
    (Nat.lt_log2_self (n := x)).trans_le (Nat.pow_le_pow_right (by decide) (by omega))
  rw [isqrt_eq_sqrt hlog, show 2 * i / 2 = i by omega]
  have hval : Real.sqrt (ratOf (.fin false m e) : ℝ) = signedReal false (Real.sqrt x * (2 : ℝ) ^ (i - 80)) := by
    have : ((ratOf (.fin false m e) : ℚ) : ℝ) = x * (2 : ℝ) ^ (2 * (i - 80)) := by
      rw [ratOf_fin, ← hx]
      push_cast
      rw [hv, mul_sub, zpow_sub₀ (by norm_num)]
      ring
    rw [this, Real.sqrt_mul (Nat.cast_nonneg _), sqrt_zpow_two_mul, signedReal, if_neg (by decide)]
  rw [hval]
  refine roundsTo_inexact hf rnd false (Real.nat_sqrt_le_real_sqrt) (Real.real_sqrt_lt_nat_sqrt_succ) ?_ fun _ => ?_
  · rw [beq_iff_eq, Real.sqrt_eq_iff_mul_self_eq (Nat.cast_nonneg _) (Nat.cast_nonneg _), eq_comm]
    norm_cast
  · have hl := hf.mbits
    have : 80 ≤ Nat.log2 (Nat.sqrt x) := le_log2_sqrt (by rw [← hx]; exact Nat.le_mul_of_pos_left _ (Nat.pos_of_ne_zero hm20))
    omega

theorem roundsTo_rsq {m : Nat} (e : Int) (hm : m ≠ 0) :
    RoundsTo f rnd (1 / Real.sqrt (ratOf (.fin false m e) : ℝ)) (Machine.encode f false rnd false (FVal.fin false m e).rsq) := by
  obtain ⟨i, he, hv⟩ := even_exponent m e
  simp only [FVal.rsq, if_neg hm, Bool.false_eq_true, if_false, rsqrtVal, he]
  generalize hm2 : (if e % 2 = 0 then m else 2 * m) = m2 at hv
  have hm20 : m2 ≠ 0 := by rw [← hm2]; split <;> omega
  have hm2' : (0 : ℝ) < m2 := by exact_mod_cast Nat.pos_of_ne_zero hm20
  generalize hh : 100 + Nat.log2 m2 = h
  generalize hx : 2 ^ (2 * h) / m2 = x
  have hxle : x ≤ 2 ^ (2 * h) := hx ▸ Nat.div_le_self _ _
  have hlog : x < 2 ^ (2 * (2 * h / 2 + 1)) := hxle.trans_lt (Nat.pow_lt_pow_right (by decide) (by omega))
  rw [isqrt_eq_sqrt hlog, show 2 * i / 2 = i by omega, show 2 * h / 2 = h by omega]
  generalize hr : Nat.sqrt x = r
  have hr' := Nat.eq_sqrt.1 hr.symm
  have hlo : r * r * m2 ≤ 2 ^ (2 * h) := (Nat.le_div_iff_mul_le (Nat.pos_of_ne_zero hm20)).1 (hx ▸ hr'.1)
  have hhi : 2 ^ (2 * h) < (r + 1) * (r + 1) * m2 := (Nat.div_lt_iff_lt_mul (Nat.pos_of_ne_zero hm20)).1 (hx ▸ hr'.2)
  have hval : 1 / Real.sqrt (ratOf (.fin false m e) : ℝ) =
      signedReal false (Real.sqrt ((2 ^ (2 * h) : ℕ) / m2) * (2 : ℝ) ^ (-i - (h : ℤ))) := by
    have h2 : (((2 ^ (2 * h) : ℕ) : ℝ)) = (2 : ℝ) ^ (2 * (h : ℤ)) := by push_cast; rw [zpow_mul, pow_mul]; norm_cast
    have : ((ratOf (.fin false m e) : ℚ) : ℝ) = m2 * (2 : ℝ) ^ (2 * i) := by
      rw [ratOf_fin]
      push_cast
      exact hv
    rw [this, h2, Real.sqrt_mul hm2'.le, Real.sqrt_div (by positivity), sqrt_zpow_two_mul, sqrt_zpow_two_mul, signedReal,
      if_neg (by decide), zpow_sub₀ (by norm_num), zpow_neg]
    have : (2 : ℝ) ^ (h : ℤ) ≠ 0 := by positivity
    field_simp
  rw [hval]
  refine roundsTo_inexact hf rnd false ?_ ?_ ?_ fun _ => ?_
  · refine Real.le_sqrt_of_sq_le ?_
    rw [le_div_iff₀ hm2', pow_two]
    exact_mod_cast hlo
  · rw [Real.sqrt_lt' (by positivity), div_lt_iff₀ hm2', pow_two]
    exact_mod_cast hhi
  · rw [beq_iff_eq, Real.sqrt_eq_iff_mul_self_eq (by positivity) (Nat.cast_nonneg _), div_eq_iff hm2'.ne', eq_comm]
    norm_cast
  · have hl := hf.mbits
    have h80 : 80 ≤ Nat.log2 (Nat.sqrt x) := by
      refine le_log2_sqrt ?_
      rw [← hx, Nat.le_div_iff_mul_le (Nat.pos_of_ne_zero hm20)]
      have : m2 < 2 ^ (Nat.log2 m2 + 1) := Nat.lt_log2_self
      calc 2 ^ (2 * 80) * m2 ≤ 2 ^ (2 * 80) * 2 ^ (Nat.log2 m2 + 1) := Nat.mul_le_mul_left _ this.le
        _ = 2 ^ (2 * 80 + (Nat.log2 m2 + 1)) := (pow_add _ _ _).symm
        _ ≤ 2 ^ (2 * h) := Nat.pow_le_pow_right (by decide) (by omega)
    rw [hr] at h80
    omega

end

end Sys2Proof.Machine
end

