-- ==== Sys2Proof/Proofs/RoundingIsCorrect.lean ====
section
/-! Rounding, and the exact values that are rounded (O25). -/

namespace Sys2Proof.Machine

section
variable {f : Fmt} {l : FpLayout} (hf : IsFloat f l)

/-- A pattern that a carry-free significand fills is packed as it stands. -/
theorem pack_sig_exp (l : FpLayout) (rnd : Rnd) (neg : Bool) {p : Nat} (h0 : l.sig p ≠ 0) : l.pack rnd neg (l.sig p) (l.exp p) = p := by
  have hm : p % 2 ^ l.mbits < 2 ^ l.mbits := Nat.mod_lt _ (Nat.two_pow_pos _)
  have hd : p / 2 ^ l.mbits * 2 ^ l.mbits + p % 2 ^ l.mbits = p := Nat.div_add_mod' p _
  have hround (q : Int) (h : l.emin + l.scale (l.sig p) (l.exp p) = l.exp p) :
      roundAt rnd neg (l.sig p) (l.exp p) (l.emin + l.scale (l.sig p) (l.exp p)) = l.sig p := by
    rw [h, roundAt, if_pos (le_refl _), Int.sub_self]
    exact Nat.mul_one _
  by_cases hb : p / 2 ^ l.mbits = 0
  · have hsig : l.sig p = p := if_pos hb
    have hexp : l.exp p = l.emin := if_pos hb
    have hlog : Nat.log2 p < l.mbits := (Nat.log2_lt (hsig ▸ h0)).2 (by rw [hb] at hd; omega)
    have hscale : l.scale (l.sig p) (l.exp p) = 0 := by
      unfold FpLayout.scale
      rw [hsig, hexp]
      omega
    rw [FpLayout.pack, hround 0 (by rw [hscale, hexp]; exact add_zero _), hscale, hsig, Nat.zero_mul, Nat.zero_add]
  · have hsig : l.sig p = 2 ^ l.mbits + p % 2 ^ l.mbits := if_neg hb
    have hexp : l.exp p = l.emin + (p / 2 ^ l.mbits - 1 : Nat) := if_neg hb
    have hlog : Nat.log2 (l.sig p) = l.mbits := (Nat.log2_eq_iff h0).2 (by rw [hsig, pow_succ]; omega)
    have hscale : l.scale (l.sig p) (l.exp p) = p / 2 ^ l.mbits - 1 := by
      unfold FpLayout.scale
      rw [hlog, hexp]
      omega
    rw [FpLayout.pack, hround 0 (by rw [hscale, hexp]), hscale, hsig, Nat.sub_mul, ← Nat.add_assoc]
    have : 2 ^ l.mbits ≤ p / 2 ^ l.mbits * 2 ^ l.mbits := Nat.le_mul_of_pos_left _ (Nat.pos_of_ne_zero hb)
    omega

include hf

/-- A number of the format, or an infinity, is brought to its own pattern. -/
theorem encode_fval (rnd : Rnd) (sat : Bool) {p : Nat} (hp : p < 2 ^ f.width) (hnan : (fval f p).isNaN = false) :
    Machine.encode f false rnd sat (fval f p) = p := by
  obtain ⟨neg, p, hlow, rfl⟩ := exists_withSign hf hp
  rw [fval_withSign hf neg hlow] at hnan ⊢
  by_cases hlt : p < infPattern f
  · rw [if_pos hlt, encode_fin hf]
    by_cases h0 : l.sig p = 0
    · have : p = 0 := by
        have := Nat.two_pow_pos l.mbits
        unfold FpLayout.sig at h0
        split at h0 <;> omega
      rw [fpRound, if_pos h0, this]
    · rw [fpRound_eq hf _ _ _ h0, pack_sig_exp l rnd neg h0, if_pos hlt]
  · rw [if_neg hlt] at hnan ⊢
    by_cases heq : p = infPattern f
    · rw [if_pos heq, Machine.encode, hf.layout]
      simp only [fpEncode, hf.hasInf, if_true, heq]
    · rw [if_neg heq] at hnan
      cases hnan

/-- Rounding toward zero always gives a number of the format. -/
theorem finitePat_rtz (neg : Bool) (m : Nat) (e : Int) : FinitePat f (Machine.encode f false .rtz false (.fin neg m e)) := by
  have hmax := hf.maxFinite
  rw [encode_fin hf]
  by_cases hm : m = 0
  · rw [fpRound, if_pos hm]
    exact (finitePat_iff hf).2 ⟨neg, 0, by omega, rfl⟩
  · rw [fpRound_eq hf _ _ _ hm]
    refine (finitePat_iff hf).2 ⟨neg, _, ?_, rfl⟩
    split
    · assumption
    · have : stays .rtz false neg = true := rfl
      rw [if_pos this]
      omega

end

theorem signedReal_eq_ratOf (neg : Bool) (m : Nat) (e : Int) :
    signedReal neg (m * (2 : ℝ) ^ e) = ((ratOf (.fin neg m e) : ℚ) : ℝ) := by
  rw [ratOf_fin]
  cases neg <;> simp [signedReal]

/-- Settles O25: the pattern of the rounded number, compared with every number of the format in the units of its binade; quotients and
roots by an inexact mark finer than those units. -/
theorem roundingIsCorrect : Obligations.RoundingIsCorrect := by
  refine ⟨fun f hfp => ?_, ?_⟩
  · obtain ⟨l, hf⟩ := exists_isFloat hfp
    refine ⟨fun rnd sat p hp hn => encode_fval hf rnd sat hp hn, fun neg m e q hq => ?_⟩
    have h (rnd : Rnd) := roundsTo_encode hf rnd neg m e
    simp only [signedReal_eq_ratOf] at h
    refine ⟨?_, fun hp => ?_, fun hp => ?_, finitePat_rtz hf neg m e, ?_⟩
    · intro rnd hrnd hp
      have hnear := h rnd hp q hq
      rcases hrnd with rfl | rfl <;> dsimp only at hnear ⊢ <;> exact_mod_cast hnear
    · have hdown := h .rdn hp q hq
      dsimp only at hdown ⊢
      exact_mod_cast hdown
    · have hup := h .rup hp q hq
      dsimp only at hup ⊢
      exact_mod_cast hup
    · have hzero := h .rtz (finitePat_rtz hf neg m e) q hq
      dsimp only at hzero ⊢
      exact_mod_cast hzero
  · rintro a b sa sb m n e d rfl rfl
    obtain ⟨hmul, hprod⟩ := mul_fin sa sb m n e d
    refine ⟨fun rnd => add_fin rnd sa sb m n e d, hmul, hprod, fun f rnd hfp => ?_⟩
    obtain ⟨l, hf⟩ := exists_isFloat hfp
    refine ⟨roundsTo_div hf rnd sa sb m e d, ?_⟩
    rintro hm rfl
    exact ⟨roundsTo_sqrt hf rnd e hm, roundsTo_rsq hf rnd e hm⟩

end Sys2Proof.Machine
end

