-- ==== Sys2Proof/Proofs/LaneElements.lean ====
section
/-! Elements of register images, and what an instruction that writes a group of registers leaves (R50, R72, R76). -/

namespace Sys2Proof.Machine

/-! One element. -/

theorem elem_lt (w : Nat) (r : BitVec 4096) (i : Nat) : elem w r i < 2 ^ w := Nat.mod_lt _ (Nat.two_pow_pos w)

theorem testBit_elem (w : Nat) (r : BitVec 4096) (i b : Nat) : (elem w r i).testBit b = (decide (b < w) && r.getLsbD (w * i + b)) := by
  rw [elem, Nat.testBit_mod_two_pow, Nat.testBit_shiftRight]
  rfl

theorem getLsbD_setElem (w : Nat) (r : BitVec 4096) (i v : Nat) {k : Nat} (hk : k < 4096) : (setElem w r i v).getLsbD k =
    if w * i ≤ k ∧ k < w * i + w then v.testBit (k - w * i) else r.getLsbD k := by
  simp only [setElem, BitVec.getLsbD_or, BitVec.getLsbD_and, BitVec.getLsbD_not, BitVec.getLsbD_ofNat, Nat.testBit_shiftLeft,
    Nat.testBit_two_pow_sub_one, Nat.testBit_mod_two_pow, hk, decide_true, Bool.true_and]
  by_cases h1 : w * i ≤ k
  · by_cases h2 : k < w * i + w
    · have : k - w * i < w := by omega
      simp [h1, h2, this]
    · have : ¬ k - w * i < w := by omega
      simp [h2, this]
  · simp [h1]

/-- Elements of different index share no bit. -/
theorem elem_disjoint {w i j b : Nat} (hb : b < w) (h : w * i ≤ w * j + b ∧ w * j + b < w * i + w) : j = i := by
  have hj : (w * j + b) / w = j := by rw [Nat.mul_add_div (by omega), Nat.div_eq_of_lt hb, Nat.add_zero]
  have hi : (w * j + b) / w = i := Nat.div_eq_of_lt_le (by rw [Nat.mul_comm]; exact h.1) (by rw [Nat.succ_mul, Nat.mul_comm i]; exact h.2)
  exact hj.symm.trans hi

/-- An element after one has been replaced. -/
theorem elem_setElem {w : Nat} (hw : w ∣ 4096) (r : BitVec 4096) (i v : Nat) {j : Nat} (hj : w * j < 4096) :
    elem w (setElem w r i v) j = if j = i then v % 2 ^ w else elem w r j := by
  have hend : w * j + w ≤ 4096 := by
    obtain ⟨q, hq⟩ := hw
    rw [hq, ← Nat.mul_succ]
    exact Nat.mul_le_mul_left w (Nat.lt_of_mul_lt_mul_left (hq ▸ hj))
  refine Nat.eq_of_testBit_eq fun b => ?_
  rw [testBit_elem]
  by_cases hb : b < w
  · rw [getLsbD_setElem w r i v (by omega)]
    by_cases hji : j = i
    · subst hji
      simp [hb, Nat.testBit_mod_two_pow]
    · rw [if_neg fun h => hji (elem_disjoint hb h), if_neg hji, testBit_elem]
  · have hlow : (if j = i then v % 2 ^ w else elem w r j) < 2 ^ w := by
      split
      · exact Nat.mod_lt _ (Nat.two_pow_pos w)
      · exact elem_lt w r j
    rw [Nat.testBit_lt_two_pow (hlow.trans_le (Nat.pow_le_pow_right (by decide) (not_lt.1 hb)))]
    simp [hb]

/-! Several elements of one register: a write that gives each element of a list its value, or none. -/

/-- What is written of the elements of a list. -/
def writesOf (h : Nat → Option Nat) (l : List Nat) : List (Nat × Nat) := l.filterMap fun i => (h i).map (i, ·)

theorem elem_setElems {w : Nat} (hw : w ∣ 4096) (h : Nat → Option Nat) {i : Nat} (hi : w * i < 4096) (l : List Nat) :
    ∀ r : BitVec 4096, elem w (setElems w r (writesOf h l)) i = if i ∈ l then (h i).elim (elem w r i) (· % 2 ^ w) else elem w r i := by
  induction l with
  | nil => exact fun r => rfl
  | cons a l ih =>
    intro r
    cases ha : h a with
    | none =>
      have : writesOf h (a :: l) = writesOf h l := List.filterMap_cons_none (by rw [ha]; rfl)
      rw [this, ih]
      by_cases hia : i = a
      · subst hia
        simp [ha]
      · simp [hia]
    | some x =>
      have : writesOf h (a :: l) = (a, x) :: writesOf h l := List.filterMap_cons_some (by rw [ha]; rfl)
      have hcons : setElems w r ((a, x) :: writesOf h l) = setElems w (setElem w r a x) (writesOf h l) := rfl
      rw [this, hcons, ih, elem_setElem hw r a x hi]
      by_cases hia : i = a
      · subst hia
        simp [ha]
      · simp [hia]

/-! Groups of registers, no entry of them in error (R53). -/

theorem regAt_inj (r : VReg) {g h : Nat} (hg : g < 32) (hh : h < 32) (he : regAt r g = regAt r h) : g = h := by
  have := congrArg Fin.val he
  simp only [regAt, Fin.val_ofNat] at this
  omega

theorem grpSize_le (g : Fin 4) : grpSize g ≤ 8 := by decide +revert

/-- A state with other vector registers. -/
def State.withRegs (s : State) (v : Vector (BitVec 4096) 32) : State := { s with c := { s.c with v := v } }

theorem putElems_of_clean {s : State} (h : s.c.vbad = []) (r : VReg) (w : Nat) (ps : List (Nat × Nat)) :
    s.putElems r w ps = s.wv r (setElems w (s.rv r) ps) := by rw [State.putElems, if_pos h]

theorem putGroup_of_clean {s : State} (h : s.c.vbad = []) (vd : VReg) (w : Nat) (res : Nat → List (Nat × Nat)) {n : Nat}
    (hn : n ≤ 32) : ∃ v, s.putGroup vd n w res = s.withRegs v ∧ (∀ r : VReg, (∀ g, g < n → r ≠ regAt vd g) → v[r] = s.c.v[r]) ∧
      ∀ g, g < n → v[regAt vd g] = setElems w s.c.v[regAt vd g] (res g) := by
  induction n with
  | zero => exact ⟨s.c.v, rfl, fun _ _ => rfl, fun g hg => absurd hg (Nat.not_lt_zero g)⟩
  | succ n ih =>
    obtain ⟨v, hv, hout, hin⟩ := ih (by omega)
    have hne : ∀ g, g < n → regAt vd n ≠ regAt vd g := fun g hg he => by
      have := regAt_inj vd (by omega) (by omega) he
      omega
    have hstep : s.putGroup vd (n + 1) w res = (s.putGroup vd n w res).putElems (regAt vd n) w (res n) := by
      rw [State.putGroup, List.range_succ, List.foldl_append]
      rfl
    have hget (r : VReg) (x : BitVec 4096) : (v.set (regAt vd n) x)[r] = if r = regAt vd n then x else v[r] := by
      rw [Fin.getElem_fin, Vector.getElem_set]
      by_cases hr : r = regAt vd n
      · rw [if_pos (by rw [hr]), if_pos hr]
      · rw [if_neg (fun he => hr (Fin.ext he.symm)), if_neg hr]
        rfl
    refine ⟨v.set (regAt vd n) (setElems w s.c.v[regAt vd n] (res n)), ?_, fun r hr => ?_, fun g hg => ?_⟩
    · have hc : (s.withRegs v).c.vbad = [] := h
      have hrv : (s.withRegs v).rv (regAt vd n) = s.c.v[regAt vd n] := hout _ hne
      rw [hstep, hv, putElems_of_clean hc, hrv]
      rfl
    · rw [hget, if_neg (hr n (Nat.lt_succ_self n))]
      exact hout r fun g hg => hr g (by omega)
    · rw [hget]
      rcases Nat.lt_succ_iff_lt_or_eq.1 hg with hlt | rfl
      · rw [if_neg (hne g hlt).symm]
        exact hin g hlt
      · rw [if_pos rfl]

theorem readSlices_of_clean {s : State} (h : s.c.vbad = []) (rs : List Read) : s.readSlices rs = s := by
  rw [State.readSlices, if_pos h]

/-- Without a fault, and with no entry in error, a lane instruction has its whole effect. -/
theorem laneOp_of_clean {s : State} (h : s.c.vbad = []) (reads : List Read) {eff : Nat → State} (he : (eff noLimit).c.vbad = []) :
    s.laneOp none reads eff = (eff noLimit).adv := by
  have hstop : s.sliceStop reads = none := by rw [State.sliceStop, if_pos h]
  simp only [State.laneOp, hstop, readSlices_of_clean he]

theorem configTrap_of_ready {s : State} {w : Nat} (h : LanesReady s w) (u : Where) : s.configTrap u w s.vlg = none := by
  obtain ⟨hconfig, hmax, -⟩ := h
  rw [State.configTrap, hconfig, if_neg (by decide), if_neg (Nat.not_lt.2 hmax)]

/-! The elements an instruction acts on (R76, R124). -/

theorem width_dvd (f : Fmt) : f.width ∣ 64 := by cases f <;> decide
theorem width_pos (f : Fmt) : 0 < f.width := by cases f <;> decide
theorem dvd_image {w : Nat} (h : w ∣ 64) : w ∣ 4096 := h.trans (by decide)

theorem mem_laneElems {s : State} {w : Nat} (hw : w ∣ 64) {l i : Nat} :
    i ∈ s.laneElems l w ↔ 64 * l ≤ w * i ∧ w * i < 64 * (l + 1) ∧ i < s.c.vl.toNat := by
  obtain ⟨q, hq⟩ := hw
  have hw0 : 0 < w := Nat.pos_of_ne_zero fun h => by rw [h, Nat.zero_mul] at hq; omega
  have h1 : 64 / w = q := by rw [hq, Nat.mul_div_cancel_left q hw0]
  have h2 (k : Nat) : 64 * k = w * (q * k) := by rw [hq, Nat.mul_assoc]
  have h3 : 64 * l / w = q * l := by rw [h2, Nat.mul_div_cancel_left _ hw0]
  have hvl : s.vl = s.c.vl.toNat := rfl
  rw [h2 l, h2 (l + 1), Nat.mul_le_mul_left_iff hw0, Nat.mul_lt_mul_left hw0]
  simp only [State.laneElems, List.mem_filter, List.mem_map, List.mem_range, h1, h3, decide_eq_true_eq, hvl, Nat.mul_succ]
  constructor
  · rintro ⟨⟨j, hj, rfl⟩, hi⟩
    omega
  · rintro ⟨hlo, hhi, hi⟩
    exact ⟨⟨i - q * l, by omega, by omega⟩, hi⟩

theorem mem_reach {s : State} {w : Nat} (hw : w ∣ 64) {i : Nat} : i ∈ s.reach w ↔ inReach s w i = true := by
  unfold State.reach inReach
  cases s.laneSel with
  | none => simp only [List.mem_range, decide_eq_true_eq]; rfl
  | some l => simp only [mem_laneElems hw, decide_eq_true_eq]

/-- What is written of one element: its new value where it is active, +0 in padding. -/
def classWrite (s : State) (pm : MReg) (lim : Nat) (f : Nat → Option Nat) (i : Nat) : Option Nat :=
  if lim ≤ i then none else if s.vl ≤ i then some 0 else if s.maskBit pm i then f i else none

theorem results_eq (s : State) (w : Nat) (pm : MReg) (lim : Nat) (f : Nat → Option Nat) :
    s.results w pm lim f = writesOf (classWrite s pm lim f) (s.reach w) := by
  unfold State.results writesOf
  refine List.filterMap_congr fun i _ => ?_
  unfold classWrite
  split
  · rfl
  · split
    · rfl
    · split <;> rfl

/-- A group written with every element's result by its class. -/
theorem lanewise_putGroup {s : State} (h : s.c.vbad = []) {w n : Nat} (hw : w ∣ 64) (hn : n ≤ 32) (vd : VReg) (pm : MReg)
    {op : Nat → Nat → Option Nat} (hop : ∀ g i x, op g i = some x → x < 2 ^ w) :
    Lanewise (.next (s.putGroup vd n w fun g => s.results w pm noLimit (op g)).adv) s w n vd pm op := by
  obtain ⟨v, hv, hout, hin⟩ := putGroup_of_clean h vd w (fun g => s.results w pm noLimit (op g)) hn
  refine ⟨v, by rw [hv]; rfl, hout, fun g i hg hi => ?_⟩
  have hw0 : 0 < w := Nat.pos_of_dvd_of_pos hw (by decide)
  have hlim : ¬ noLimit ≤ i := fun hl => absurd (Nat.le_mul_of_pos_left i hw0) (by unfold noLimit at hl; omega)
  have hmask : s.maskBit pm i = (s.rm pm).getLsbD i := rfl
  have hvl : s.vl = s.c.vl.toNat := rfl
  rw [hin g hg, results_eq, elem_setElems (dvd_image hw) _ hi]
  simp only [mem_reach hw, classed, classWrite, if_neg hlim, hmask, hvl, Bool.not_eq_true']
  cases inReach s w i
  · rfl
  · simp only [if_true, Bool.true_eq_false, if_false]
    split
    · rfl
    · split
      · cases hx : op g i with
        | none => rfl
        | some x => exact Nat.mod_eq_of_lt (hop g i x hx)
      · rfl

/-- An element-wise instruction. -/
theorem elementwise_lanewise {s : State} {f : Fmt} (h : LanesReady s f.width) {n : Nat} (hn : n ≤ 32) (vd : VReg) (pm : MReg)
    (reads : List Read) {op : Nat → Nat → Option Nat} (hop : ∀ g i x, op g i = some x → x < 2 ^ f.width) :
    Lanewise (s.elementwise f n vd pm reads op) s f.width n vd pm op := by
  have hclean : s.c.vbad = [] := h.2.2
  obtain ⟨v, hv, -, -⟩ := putGroup_of_clean hclean vd f.width (fun g => s.results f.width pm noLimit (op g)) hn
  rw [State.elementwise, configTrap_of_ready h, laneOp_of_clean hclean reads (by rw [hv]; exact hclean)]
  exact lanewise_putGroup hclean (width_dvd f) hn vd pm hop

end Sys2Proof.Machine
end

