-- ==== Sys2Proof/Proofs/LaneIntegers.lean ====
section
/-! The integer operations of the lanes, each by its rule over the integers (R58, R59, R79; O21). -/

namespace Sys2Proof.Machine

/-! The model's integers and patterns are those of the statements. -/

theorem wrapInt_eq_pat (w : Nat) (z : Int) : wrapInt w z = pat w z := by rw [wrapInt, pat, Nat.cast_pow, Nat.cast_ofNat]

theorem pat_lt (w : Nat) (z : Int) : pat w z < 2 ^ w := by
  have h1 : 0 ≤ z % 2 ^ w := Int.emod_nonneg z (by positivity)
  have h2 : z % 2 ^ w < 2 ^ w := Int.emod_lt_of_pos z (by positivity)
  have h3 : ((2 ^ w : Nat) : Int) = 2 ^ w := by push_cast; rfl
  unfold pat
  omega

theorem fitInt_eq_fit (w : Nat) (m : VMods) (z : Int) : fitInt w m.u m.sat z = fit w m z := by
  have hclamp : clampInt w m.u z = max (if m.u then 0 else -2 ^ (w - 1)) (min (if m.u then 2 ^ w - 1 else 2 ^ (w - 1) - 1) z) := by
    simp only [clampInt, intMin, intMax, Nat.cast_pow, Nat.cast_ofNat]
  rw [fitInt, fit, wrapInt_eq_pat, wrapInt_eq_pat, hclamp]

theorem fit_lt (w : Nat) (m : VMods) (z : Int) : fit w m z < 2 ^ w := by
  rw [fit]
  split <;> exact pat_lt w _

theorem intOf_eq_num {w : Nat} (hw : 0 < w) (u : Bool) {p : Nat} (hp : p < 2 ^ w) : intOf w u p = num w u p := by
  have hm : p % 2 ^ w = p := Nat.mod_eq_of_lt hp
  have hhalf : 2 ^ w = 2 * 2 ^ (w - 1) := by rw [← pow_succ', Nat.sub_add_cancel hw]
  have hsigned : (BitVec.ofNat w p).toInt = if p < 2 ^ (w - 1) then (p : Int) else p - (2 ^ w : Nat) := by
    rw [BitVec.toInt_eq_toNat_cond, BitVec.toNat_ofNat, hm]
    by_cases h : p < 2 ^ (w - 1)
    · rw [if_pos (by omega), if_pos h]
    · rw [if_neg (by omega), if_neg h]
  rw [intOf, num, hm, hsigned]

/-- An immediate sign-extended and cut to the element is its integer, wrapped. -/
theorem signExtend_mod (v : BitVec 16) {w : Nat} (hw : w ≤ 64) : (v.signExtend 64).toNat % 2 ^ w = pat w v.toInt := by
  have h1 : ((v.signExtend 64).toNat : Int) = v.toInt % 2 ^ 64 := by
    rw [BitVec.signExtend, BitVec.toNat_ofInt, Int.toNat_of_nonneg (Int.emod_nonneg _ (by positivity))]
    rfl
  have h2 : ((2 ^ w : Nat) : Int) = 2 ^ w := by push_cast; rfl
  have h3 : (((v.signExtend 64).toNat % 2 ^ w : Nat) : Int) = v.toInt % 2 ^ w := by
    rw [Int.natCast_emod, h1, h2, Int.emod_emod_of_dvd _ (pow_dvd_pow 2 hw)]
  rw [pat, ← h3, Int.toNat_natCast]

theorem second_eq_sourceB (s : State) (f : Fmt) (b : VSrc) (g i : Nat) : s.second f b g i = sourceB s f b g i := by
  cases b with
  | vec r => rfl
  | sca x => rfl
  | imm v =>
    have hw : f.width ≤ 64 := Nat.le_of_dvd (by decide) (width_dvd f)
    rw [State.second, sourceB, immElem, signExtend_mod v hw]
    split <;> rfl

theorem sourceB_lt {s : State} {f : Fmt} (hf : f.isInt = true) (b : VSrc) (g i : Nat) : sourceB s f b g i < 2 ^ f.width := by
  cases b with
  | vec r => exact elem_lt _ _ _
  | sca x => exact Nat.mod_lt _ (Nat.two_pow_pos _)
  | imm v =>
    rw [sourceB, if_pos hf]
    exact pat_lt _ _

/-! One row at a time. -/

/-- What R79 says of an element operation: over the width of a format of integers, patterns to a pattern. -/
def IntegerRow (op : Fmt → VMods → Nat → Nat → Nat) (val : Nat → VMods → Nat → Nat → Nat) : Prop :=
  ∀ (f : Fmt) (m : VMods) (a b : Nat), a < 2 ^ f.width → b < 2 ^ f.width →
    op f m a b = val f.width m a b ∧ val f.width m a b < 2 ^ f.width

/-- A format that an accepted instruction names is one of its formats (R29). -/
theorem fmt_of_firstIll {ok : Bool} {e : IllFormed} {t : List (Bool × IllFormed)} (h : (firstIll ((ok, e) :: t)).isNone = true) :
    ok = true := by
  cases ok
  · cases h
  · rfl

theorem lane2_lanewise {op : Fmt → VMods → Nat → Nat → Nat} {val : Nat → VMods → Nat → Nat → Nat} (hop : IntegerRow op val)
    {s : State} {o : VBinOp} (hwf : (o.ill Fmt.isInt).isNone = true) (h : LanesReady s o.fmt.width) :
    Lanewise (lane2 op o s) s o.fmt.width (grpSize o.m.grp) o.vd o.pm fun g i =>
      some (val o.fmt.width o.m (elem o.fmt.width s.c.v[regAt o.va g] i) (sourceB s o.fmt o.b g i)) := by
  have hf : o.fmt.isInt = true := fmt_of_firstIll hwf
  have hrow (g i : Nat) := hop o.fmt o.m _ _ (elem_lt o.fmt.width s.c.v[regAt o.va g] i) (sourceB_lt (s := s) hf o.b g i)
  have hval : (fun g i => some (op o.fmt o.m (s.elemAt (regAt o.va g) o.fmt.width i) (s.second o.fmt o.b g i))) =
      fun g i => some (val o.fmt.width o.m (elem o.fmt.width s.c.v[regAt o.va g] i) (sourceB s o.fmt o.b g i)) := by
    funext g i
    rw [second_eq_sourceB]
    exact congrArg some (hrow g i).1
  have hg : grpSize o.m.grp ≤ 32 := (grpSize_le _).trans (by decide)
  rw [lane2, hval]
  refine elementwise_lanewise h hg _ _ _ fun g i x hx => ?_
  cases hx
  exact (hrow g i).2

theorem intOp_row (op : Int → Int → Int) :
    IntegerRow (intOp op) fun w m a b => fit w m (op (num w m.u a) (num w m.u b)) := fun f m a b ha hb => by
  rw [intOp, intOf_eq_num (width_pos f) _ ha, intOf_eq_num (width_pos f) _ hb, fitInt_eq_fit]
  exact ⟨rfl, fit_lt _ _ _⟩

theorem intWrap_row (op : Int → Int → Int) :
    IntegerRow (intWrap op) fun w m a b => pat w (op (num w m.u a) (num w m.u b)) := fun f m a b ha hb => by
  rw [intWrap, intOf_eq_num (width_pos f) _ ha, intOf_eq_num (width_pos f) _ hb, wrapInt_eq_pat]
  exact ⟨rfl, pat_lt _ _⟩

theorem bitOp_row {op : Nat → Nat → Nat} (h : ∀ {a b w : Nat}, a < 2 ^ w → b < 2 ^ w → op a b < 2 ^ w) :
    IntegerRow (bitOp op) fun _ _ a b => op a b := fun _ _ _ _ ha hb => ⟨rfl, h ha hb⟩

theorem vabsd_row : IntegerRow (intOp fun a b => ((a - b).natAbs : Int)) fun w m a b => fit w m |num w m.u a - num w m.u b| := by
  have h : (fun a b : Int => ((a - b).natAbs : Int)) = fun a b => |a - b| := by
    funext a b
    exact (Int.abs_eq_natAbs _).symm
  rw [h]
  exact intOp_row _

theorem mulHigh_row : IntegerRow mulHighElem fun w m a b => pat w (num w m.u a * num w m.u b / 2 ^ w) := fun f m a b ha hb => by
  rw [mulHighElem, intOf_eq_num (width_pos f) _ ha, intOf_eq_num (width_pos f) _ hb, wrapInt_eq_pat, Nat.cast_pow, Nat.cast_ofNat]
  exact ⟨rfl, pat_lt _ _⟩

theorem shiftLeft_row : IntegerRow shiftLeftElem fun w _ a b => a * 2 ^ (b % w) % 2 ^ w :=
  fun _ _ _ _ _ _ => ⟨rfl, Nat.mod_lt _ (Nat.two_pow_pos _)⟩

theorem shiftRight_row : IntegerRow shiftRightElem fun w _ a b => a / 2 ^ (b % w) :=
  fun _ _ _ _ ha _ => ⟨rfl, (Nat.div_le_self _ _).trans_lt ha⟩

theorem shiftArith_row : IntegerRow shiftArithElem fun w _ a b => pat w (num w false a / 2 ^ (b % w)) := fun f _ a b ha _ => by
  rw [shiftArithElem, intOf_eq_num (width_pos f) _ ha, wrapInt_eq_pat, Nat.cast_pow, Nat.cast_ofNat]
  exact ⟨rfl, pat_lt _ _⟩

/-- vmac: three sources of patterns (R79). -/
theorem vmac_lanewise {s : State} {o : VTernOp} (h : LanesReady s o.fmt.width) :
    Lanewise (exec (.vmac o) s) s o.fmt.width (grpSize o.m.grp) o.vd o.pm fun g i =>
      some (fit o.fmt.width o.m (num o.fmt.width o.m.u (elem o.fmt.width s.c.v[regAt o.va g] i) *
        num o.fmt.width o.m.u (elem o.fmt.width s.c.v[regAt o.vb g] i) +
        num o.fmt.width o.m.u (elem o.fmt.width s.c.v[regAt o.vc g] i))) := by
  have hnum (r : VReg) (g i : Nat) : intOf o.fmt.width o.m.u (s.elemAt (regAt r g) o.fmt.width i) =
      num o.fmt.width o.m.u (elem o.fmt.width s.c.v[regAt r g] i) := intOf_eq_num (width_pos _) _ (elem_lt _ _ _)
  have hg : grpSize o.m.grp ≤ 32 := (grpSize_le _).trans (by decide)
  have hexec : exec (.vmac o) s = lane3 macElem o s := rfl
  rw [hexec, lane3]
  simp only [macElem, hnum, fitInt_eq_fit]
  refine elementwise_lanewise h hg _ _ _ fun g i x hx => ?_
  cases hx
  exact fit_lt _ _ _

/-- What is claimed of a row of VIA. -/
def ViaHolds (p : (VBinOp → Instr) × (Nat → VMods → Nat → Nat → Nat)) : Prop :=
  ∀ (s : State) (o : VBinOp), (p.1 o).wf = true → LanesReady s o.fmt.width →
    Lanewise (exec (p.1 o) s) s o.fmt.width (grpSize o.m.grp) o.vd o.pm fun g i =>
      some (p.2 o.fmt.width o.m (elem o.fmt.width s.c.v[regAt o.va g] i) (sourceB s o.fmt o.b g i))

theorem viaHolds_of_row {instr : VBinOp → Instr} {op : Fmt → VMods → Nat → Nat → Nat} {val : Nat → VMods → Nat → Nat → Nat}
    (hexec : ∀ o s, exec (instr o) s = lane2 op o s) (hwf : ∀ o, (instr o).wf = (o.ill Fmt.isInt).isNone)
    (hop : IntegerRow op val) : ViaHolds (instr, val) := by
  intro s o hw h
  simp only [hexec]
  exact lane2_lanewise hop (hwf o ▸ hw) h

theorem viaRows_hold : ∀ p ∈ viaRows, ViaHolds p := by
  simp only [viaRows, List.forall_mem_cons]
  refine ⟨?add, ?sub, ?mul, ?mulh, ?min, ?max, ?and, ?or, ?xor, ?sll, ?srl, ?sra, ?absd, fun _ h => absurd h List.not_mem_nil⟩
  case add => exact viaHolds_of_row (fun _ _ => rfl) (fun _ => rfl) (intOp_row (· + ·))
  case sub => exact viaHolds_of_row (fun _ _ => rfl) (fun _ => rfl) (intOp_row (· - ·))
  case mul => exact viaHolds_of_row (fun _ _ => rfl) (fun _ => rfl) (intOp_row (· * ·))
  case mulh => exact viaHolds_of_row (fun _ _ => rfl) (fun _ => rfl) mulHigh_row
  case min => exact viaHolds_of_row (fun _ _ => rfl) (fun _ => rfl) (intWrap_row min)
  case max => exact viaHolds_of_row (fun _ _ => rfl) (fun _ => rfl) (intWrap_row max)
  case and => exact viaHolds_of_row (fun _ _ => rfl) (fun _ => rfl) (bitOp_row fun _ hb => Nat.and_lt_two_pow _ hb)
  case or => exact viaHolds_of_row (fun _ _ => rfl) (fun _ => rfl) (bitOp_row Nat.or_lt_two_pow)
  case xor => exact viaHolds_of_row (fun _ _ => rfl) (fun _ => rfl) (bitOp_row Nat.xor_lt_two_pow)
  case sll => exact viaHolds_of_row (fun _ _ => rfl) (fun _ => rfl) shiftLeft_row
  case srl => exact viaHolds_of_row (fun _ _ => rfl) (fun _ => rfl) shiftRight_row
  case sra => exact viaHolds_of_row (fun _ _ => rfl) (fun _ => rfl) shiftArith_row
  case absd => exact viaHolds_of_row (fun _ _ => rfl) (fun _ => rfl) vabsd_row

/-- Settles O21: each instruction is its element operation on every element of its class; the operation by its row. -/
theorem laneIntegerResults : Obligations.LaneIntegerResults := ⟨viaRows_hold, fun _ _ _ h => vmac_lanewise h⟩

end Sys2Proof.Machine
end

