-- ==== Sys2Proof/Proofs/Reductions.lean ====
section
/-! Reductions and scans (R62, R92 to R95; O29). -/

namespace Sys2Proof.Machine

/-! Trees: combining neighbours level by level is combining halves (R92). -/

section
variable (f : Nat → Nat → Nat) (node : Nat → Option Nat)

theorem treeOver_succ (k a : Nat) :
    treeOver f node (k + 1) a = joinNode f (treeOver f node k a) (treeOver f node k (a + 2 ^ k)) := by
  rw [treeOver]
  cases treeOver f node k a <;> cases treeOver f node k (a + 2 ^ k) <;> rfl

/-- The nodes one level up. -/
def pairNode (i : Nat) : Option Nat := joinNode f (node (2 * i)) (node (2 * i + 1))

theorem treeOver_pairNode (k : Nat) : ∀ a, treeOver f (pairNode f node) k a = treeOver f node (k + 1) (2 * a) := by
  induction k with
  | zero =>
    intro a
    rw [treeOver_succ]
    rfl
  | succ k ih =>
    intro a
    rw [treeOver_succ, ih, ih, treeOver_succ f node (k + 1), Nat.mul_add, ← pow_succ']

theorem treeLevel_map (n : Nat) : ∀ node : Nat → Option Nat,
    treeLevel f ((List.range (2 * n)).map node) = (List.range n).map (pairNode f node) := by
  induction n with
  | zero => exact fun _ => rfl
  | succ n ih =>
    intro node
    have h2 : (List.range (2 * (n + 1))).map node = node 0 :: node 1 :: (List.range (2 * n)).map fun i => node (i + 2) := by
      rw [Nat.mul_succ, List.range_succ_eq_map, List.range_succ_eq_map]
      simp [Function.comp_def]
    rw [h2, treeLevel, ih, List.range_succ_eq_map]
    simp [pairNode, Function.comp_def, Nat.mul_add]

theorem treeReduce_map (k : Nat) : ∀ node : Nat → Option Nat,
    treeReduce f k ((List.range (2 ^ k)).map node) = treeOver f node k 0 := by
  induction k with
  | zero => exact fun _ => rfl
  | succ k ih =>
    intro node
    rw [treeReduce, pow_succ', treeLevel_map, ih, treeOver_pairNode]

/-- A tree of values below a bound, under two operations that agree and stay below it. -/
theorem treeOver_bounded {f g : Nat → Nat → Nat} {node : Nat → Option Nat} {B : Nat}
    (hfg : ∀ a b, a < B → b < B → f a b = g a b ∧ g a b < B) (hnode : ∀ i x, node i = some x → x < B) (k : Nat) :
    ∀ a, treeOver f node k a = treeOver g node k a ∧ ∀ x, treeOver g node k a = some x → x < B := by
  induction k with
  | zero => exact fun a => ⟨rfl, hnode a⟩
  | succ k ih =>
    intro a
    obtain ⟨he1, hb1⟩ := ih a
    obtain ⟨he2, hb2⟩ := ih (a + 2 ^ k)
    rw [treeOver_succ, treeOver_succ, he1, he2]
    cases h1 : treeOver g node k a with
    | none => exact ⟨rfl, fun x hx => hb2 x hx⟩
    | some x1 =>
      cases h2 : treeOver g node k (a + 2 ^ k) with
      | none => exact ⟨rfl, fun x hx => hb1 x (h1.trans hx)⟩
      | some x2 =>
        obtain ⟨heq, hlt⟩ := hfg x1 x2 (hb1 x1 h1) (hb2 x2 h2)
        refine ⟨congrArg some heq, fun x hx => ?_⟩
        cases hx
        exact hlt

end

theorem log2Up_eq_clog (n : Nat) : log2Up n = Nat.clog 2 n := by
  unfold log2Up
  by_cases h : n ≤ 1
  · rw [if_pos h, Nat.clog_of_right_le_one h]
  · rw [if_neg h]
    have h0 : n - 1 ≠ 0 := by omega
    refine le_antisymm ?_ ?_
    · rw [Nat.lt_iff_add_one_le.symm, Nat.lt_clog_iff_pow_lt (by decide)]
      have := Nat.log2_self_le h0
      omega
    · refine (Nat.clog_le_iff_le_pow (by decide)).2 ?_
      have : n - 1 < 2 ^ (Nat.log2 (n - 1) + 1) := Nat.lt_log2_self
      omega

/-! Elements combined. -/

theorem canonicalNaN_lt {f : Fmt} (hf : f.isFp = true) : canonicalNaN f < 2 ^ f.width := by
  cases f
  case fp16 | bf16 | fp32 => decide
  all_goals exact absurd hf (by decide)

theorem encode_lt {f : Fmt} (hf : f.isFp = true) (rnd : Rnd) (sat : Bool) (v : FVal) : Machine.encode f false rnd sat v < 2 ^ f.width := by
  obtain ⟨l, hl⟩ := exists_isFloat hf
  have hmax := hl.maxFinite
  have hinf := hl.inf_lt
  cases v with
  | nan =>
    have h : Machine.encode f false rnd sat .nan = canonicalNaN f := by simp only [Machine.encode, hl.layout, fpEncode]
    exact h ▸ canonicalNaN_lt hf
  | inf neg =>
    rw [Machine.encode, hl.layout]
    simp only [fpEncode, hl.hasInf, if_true]
    exact withSign_lt hl neg hinf
  | fin neg m e =>
    rw [encode_fin hl]
    by_cases hm : m = 0
    · rw [fpRound, if_pos hm]
      exact withSign_lt hl neg (Nat.two_pow_pos _)
    · rw [fpRound_eq hl rnd sat neg hm]
      refine withSign_lt hl neg ?_
      split
      · omega
      · split <;> omega

theorem canonElem_eq (f : Fmt) (a : Nat) : canonElem f a = canonical f a := by
  simp only [canonElem, canonical, Bool.and_eq_true]
  rfl

theorem canonical_lt {f : Fmt} {a : Nat} (ha : a < 2 ^ f.width) : canonical f a < 2 ^ f.width := by
  rw [canonical]
  split
  · exact canonicalNaN_lt (by rename_i h; exact h.1)
  · exact ha

theorem canonical_of_isInt {f : Fmt} (hf : f.isInt = true) (a : Nat) : canonical f a = a := by
  have : ¬ f.isFp = true := by cases f <;> simp_all [Fmt.isInt, Fmt.isFp]
  exact if_neg fun h => this h.1

/-- A NaN made canonical has the value it had. -/
theorem fval_canonical (f : Fmt) (a : Nat) : fval f (canonical f a) = fval f a := by
  rw [canonical]
  split
  · rename_i h
    obtain ⟨l, hl⟩ := exists_isFloat h.1
    rw [fval_canonicalNaN hl]
    cases hv : fval f a with
    | nan => rfl
    | inf _ | fin _ _ _ => simp [hv, FVal.isNaN] at h
  · rfl

section
variable (op : Iop) {f : Fmt} (hf : f.isInt = true ∨ f.isFp = true) (m : VMods)
include hf

omit hf in
theorem combined_lt {a b : Nat} (ha : a < 2 ^ f.width) (hb : b < 2 ^ f.width) : combined op f m a b < 2 ^ f.width := by
  unfold combined
  split
  · rename_i h
    cases op <;> exact encode_lt h _ _ _
  · cases op
    case max | min => exact pat_lt _ _
    case and => exact Nat.and_lt_two_pow _ hb
    case or => exact Nat.or_lt_two_pow ha hb
    case xor => exact Nat.xor_lt_two_pow ha hb
    all_goals exact fit_lt _ _ _

omit hf in
theorem combineElem_eq {a b : Nat} (ha : a < 2 ^ f.width) (hb : b < 2 ^ f.width) : combineElem op f m a b = combined op f m a b := by
  unfold combineElem combined
  split
  · cases op <;> rfl
  · cases op <;> simp only [intOf_eq_num (width_pos f) m.u ha, intOf_eq_num (width_pos f) m.u hb, fitInt_eq_fit, wrapInt_eq_pat]

theorem combined_canonical (a b : Nat) : combined op f m a (canonical f b) = combined op f m a b := by
  rcases hf with h | h
  · rw [canonical_of_isInt h]
  · unfold combined
    simp only [h, if_true, fval_canonical]

theorem identElem_eq (u : Bool) (hop : op ∈ redRows.map Prod.snd) :
    identElem op f u = redIdent op f u ∧ redIdent op f u < 2 ^ f.width := by
  have two {a : Nat} (h : a < 2 ^ f.width) : a = a ∧ a < 2 ^ f.width := ⟨rfl, h⟩
  simp only [redRows, List.map_cons, List.map_nil, List.mem_cons, List.not_mem_nil, or_false] at hop
  rcases hop with rfl | rfl | rfl | rfl | rfl
  case inl => exact two (Nat.two_pow_pos _)
  case inr.inr.inr.inl => exact two (Nat.sub_lt (Nat.two_pow_pos _) Nat.one_pos)
  case inr.inr.inr.inr => exact two (Nat.two_pow_pos _)
  all_goals
    cases f
    case i8 | i16 | i32 | i64 => cases u <;> decide
    case fp16 | bf16 | fp32 => decide +revert
    all_goals exact absurd hf (by decide)

end

/-! Where the result lies (R93). -/

theorem vlg_eq_zero {s : State} : s.vlg = 0 ↔ s.c.vlg = 0 := by
  rw [State.vlg, ← BitVec.toNat_inj]
  rfl

theorem reduced_eq (s : State) (w rw v : Nat) :
    s.reduced w rw v = writesOf (fun j => some (v / 2 ^ (8 * j) % 256)) (List.range (max (rw / 8) ((s.vlg * w + 7) / 8))) := by
  exact (congrFun List.filterMap_eq_map' _).symm

theorem reduceOp_reduces {s : State} {f : Fmt} (h : LanesReady s f.width) {n : Nat} (hn : n ≤ 32) (vd : VReg) (reads : List Read)
    {rw : Nat} (hrw : 8 ∣ rw) {val : Nat → Nat} (hval : ∀ g, val g < 2 ^ rw) :
    Reduces (s.reduceOp f n vd none reads rw val) s f.width rw n vd val := by
  have hclean : s.c.vbad = [] := h.2.2
  rw [State.reduceOp, configTrap_of_ready h]
  by_cases h0 : s.vlg = 0
  · refine ⟨fun _ => ?_, fun hne => absurd (vlg_eq_zero.1 h0) hne⟩
    rw [Option.or_none, laneOp_of_clean hclean] <;> simp only [if_pos (Or.inl h0 : s.vlg = 0 ∨ noLimit < noLimit)]
    exact hclean
  · refine ⟨fun h => absurd (vlg_eq_zero.2 h) h0, fun _ => ?_⟩
    have hlim : ¬ (s.vlg = 0 ∨ noLimit < noLimit) := by simp [h0]
    obtain ⟨v, hv, hout, hin⟩ := putGroup_of_clean hclean vd 8 (fun g => s.reduced f.width rw (val g)) hn
    refine ⟨v, ?_, hout, fun g j hg hj => ?_⟩
    · rw [Option.or_none, laneOp_of_clean hclean] <;> simp only [if_neg hlim, hv]
      · rfl
      · exact hclean
    · have hvlg : s.vlg = s.c.vlg.toNat := rfl
      have h256 : 2 ^ (8 * j) = 256 ^ j := by rw [pow_mul]; rfl
      have hbyte (a : Nat) : a % 256 % 2 ^ 8 = a % 256 := Nat.mod_mod _ _
      rw [hin g hg, reduced_eq, elem_setElems (by decide) _ (by omega)]
      simp only [List.mem_range, lt_max_iff, hvlg, Option.elim, h256, hbyte]
      by_cases h1 : j < rw / 8
      · rw [if_pos (Or.inl h1), if_pos h1]
      · rw [if_neg h1]
        by_cases h2 : j < (s.c.vlg.toNat * f.width + 7) / 8
        · have hle : rw ≤ 8 * j := by omega
          have hzero : val g / 256 ^ j = 0 := Nat.div_eq_of_lt (h256 ▸ (hval g).trans_le (Nat.pow_le_pow_right (by decide) hle))
          rw [if_pos (Or.inr h2), if_pos h2, hzero]
        · rw [if_neg (by simp [h1, h2]), if_neg h2]

/-! Reductions by a tree. -/

/-- Elements of integer and floating-point formats take whole bytes. -/
theorem eight_dvd_width {f : Fmt} (h : f.isInt = true ∨ f.isFp = true) : 8 ∣ f.width := by
  revert h
  cases f <;> decide

theorem tree_reduces {s : State} {o : VUnOp} {op : Iop} (hop : op ∈ redRows.map Prod.snd) (hf : o.fmt.isInt = true ∨ o.fmt.isFp = true)
    (h : LanesReady s o.fmt.width) :
    Reduces (tree op o s) s o.fmt.width o.fmt.width (grpSize o.m.grp) o.vd fun g =>
      canonical o.fmt ((treeOver (combined op o.fmt o.m) (present s o.pm o.fmt.width (regAt o.va g)) (Nat.clog 2 s.c.vlg.toNat) 0).getD
        (redIdent op o.fmt o.m.u)) := by
  have hnode (g : Nat) : (fun i => if s.active o.pm i then some (s.elemAt (regAt o.va g) o.fmt.width i) else none) =
      present s o.pm o.fmt.width (regAt o.va g) := by
    funext i
    simp only [State.active, present, Bool.and_eq_true, decide_eq_true_eq]
    rfl
  have hpresent (g i x : Nat) (hx : present s o.pm o.fmt.width (regAt o.va g) i = some x) : x < 2 ^ o.fmt.width := by
    unfold present at hx
    split at hx
    · cases hx
      exact elem_lt _ _ _
    · cases hx
  have hident := identElem_eq op hf o.m.u hop
  have htree (g : Nat) := treeOver_bounded (fun a b ha hb => ⟨combineElem_eq op o.m ha hb, combined_lt op o.m ha hb⟩) (hpresent g)
    (Nat.clog 2 s.c.vlg.toNat) 0
  have hvlg : s.vlg = s.c.vlg.toNat := rfl
  simp only [tree, hnode, treeReduce_map, log2Up_eq_clog, canonElem_eq, hident.1, hvlg, (htree _).1]
  have h8 : 8 ∣ o.fmt.width := eight_dvd_width hf
  refine reduceOp_reduces h ((grpSize_le _).trans (by decide)) _ _ h8 fun g => canonical_lt ?_
  cases ht : treeOver (combined op o.fmt o.m) (present s o.pm o.fmt.width (regAt o.va g)) (Nat.clog 2 s.c.vlg.toNat) 0 with
  | none => exact hident.2
  | some x => exact (htree g).2 x ht

/-! Block-scaled sums (R94). -/

/-- One block added to the sum so far. -/
def addBlock (s : State) (o : VPairOp) (g : Nat) (acc : Option Nat) (b : Nat) : Option Nat :=
  let is := ((List.range s.blk).map (s.blk * b + ·)).filter fun i => decide (i < s.c.vl.toNat) && (s.rm o.pm).getLsbD i
  let v := scaledSum o.m (elem 8 s.c.v[regAt o.vb g] b) (is.map fun i => elemVal o.fmt o.m.u (elem o.fmt.width s.c.v[regAt o.va g] i))
  if is = [] then acc else match acc with
    | none => some v
    | some a => some (rounded .fp32 o.m ((fval .fp32 a).add o.m.rnd (fval .fp32 v)))

theorem blockSums_eq (s : State) (o : VPairOp) (g k : Nat) : ∀ b acc,
    blockSums s o g k b acc = ((List.range' b k).foldl (addBlock s o g) acc).getD 0 := by
  induction k with
  | zero => exact fun b acc => rfl
  | succ k ih =>
    intro b acc
    rw [List.range'_succ, List.foldl_cons, ← ih]
    rfl

theorem scaledSum_lt (m : VMods) (sc : Nat) (xs : List FVal) : scaledSum m sc xs < 2 ^ 32 := by
  rw [scaledSum]
  split
  · decide
  · exact encode_lt (f := .fp32) rfl _ _ _

theorem addBlock_lt {s : State} {o : VPairOp} {g : Nat} {acc : Option Nat} (h : ∀ x, acc = some x → x < 2 ^ 32) (b x : Nat)
    (hx : addBlock s o g acc b = some x) : x < 2 ^ 32 := by
  unfold addBlock at hx
  dsimp only at hx
  split at hx
  · exact h x hx
  · cases acc with
    | none => exact Option.some.inj hx ▸ scaledSum_lt _ _ _
    | some a => exact Option.some.inj hx ▸ encode_lt (f := .fp32) rfl _ _ _

theorem blockSums_lt (s : State) (o : VPairOp) (g k : Nat) : blockSums s o g k 0 none < 2 ^ 32 := by
  have fold (l : List Nat) : ∀ acc : Option Nat, (∀ x, acc = some x → x < 2 ^ 32) →
      ∀ x, l.foldl (addBlock s o g) acc = some x → x < 2 ^ 32 := by
    induction l with
    | nil => exact fun acc h x hx => h x hx
    | cons b l ih => exact fun acc h => ih _ (addBlock_lt h b)
  rw [blockSums_eq]
  cases hx : (List.range' 0 k).foldl (addBlock s o g) none with
  | none => decide
  | some x => exact fold _ none nofun x hx

theorem blockSum_eq (m : VMods) (sc : Nat) {xs : List FVal} (h : xs ≠ []) : blockSum m sc xs = scaledSum m sc xs := by
  cases xs with
  | nil => exact absurd rfl h
  | cons x t => rfl

theorem execVredbs_eq (s : State) (o : VPairOp) : ∃ reads, execVredbs o s =
    s.reduceOp o.fmt (grpSize o.m.grp) o.vd s.blockTrap reads 32 fun g => blockSums s o g (s.c.vlg.toNat / s.blk) 0 none := by
  refine ⟨_, congrArg (s.reduceOp _ _ _ _ _ _) (funext fun g => ?_)⟩
  rw [blockSums_eq, ← List.range_eq_range']
  refine congrArg (Option.getD · 0) (congrArg (List.foldl · _ _) (funext fun acc => funext fun b => ?_))
  by_cases hne : ((List.range s.blk).map (s.blk * b + ·)).filter (s.active o.pm) = []
  · exact (if_pos hne).trans (if_pos hne).symm
  · refine (if_neg hne).trans (Eq.trans ?_ (if_neg hne).symm)
    rw [blockSum_eq _ _ (mt List.map_eq_nil_iff.1 hne)]
    cases acc <;> rfl

theorem vredbs_reduces {s : State} {o : VPairOp} (h : LanesReady s o.fmt.width) (hb : s.blk ≠ 0) :
    Reduces (exec (.vredbs o) s) s o.fmt.width 32 (grpSize o.m.grp) o.vd fun g => blockSums s o g (s.c.vlg.toNat / s.blk) 0 none := by
  obtain ⟨reads, heq⟩ := execVredbs_eq s o
  have htrap : s.blockTrap = none := if_neg hb
  have hexec : exec (.vredbs o) s = execVredbs o s := rfl
  rw [hexec, heq, htrap]
  exact reduceOp_reduces h ((grpSize_le _).trans (by decide)) _ _ (by decide) fun g => blockSums_lt s o g _

/-! Scans (R95): the running result over what has come before. -/

/-- The running result once x has come. -/
def scanStep (f : Nat → Nat → Nat) (run : Option Nat) (x : Nat) : Option Nat :=
  some (match run with
    | none => x
    | some v => f v x)

theorem foldl_scanStep (f : Nat → Nat → Nat) (t : List Nat) : ∀ x, t.foldl (scanStep f) (some x) = some (t.foldl f x) := by
  induction t with
  | nil => exact fun _ => rfl
  | cons y t ih => exact fun x => ih (f x y)

theorem scanList_concat (f : Nat → Nat → Nat) (i x : Nat) (l : List (Nat × Nat)) : ∀ run,
    scanList f run (l ++ [(i, x)]) =
      scanList f run l ++ ((scanStep f (l.foldl (fun r p => scanStep f r p.2) run) x).map (i, ·)).toList := by
  induction l with
  | nil => exact fun run => rfl
  | cons p l ih =>
    intro run
    simp only [List.cons_append, scanList, ih, List.foldl_cons]
    rfl

theorem writesOf_concat (h : Nat → Option Nat) (l : List Nat) (i : Nat) :
    writesOf h (l ++ [i]) = writesOf h l ++ ((h i).map (i, ·)).toList := by
  rw [writesOf, List.filterMap_append]
  cases hi : h i <;> simp [hi, writesOf]

/-- The results of a scan of the elements that p picks. -/
theorem scanList_eq (f : Nat → Nat → Nat) (p : Nat → Bool) (a : Nat → Nat) (n : Nat) :
    scanList f none (((List.range n).filter p).map fun i => (i, a i)) =
      writesOf (fun i => (((List.range (i + 1)).filter p).map a).foldl (scanStep f) none) ((List.range n).filter p) := by
  induction n with
  | zero => rfl
  | succ n ih =>
    by_cases hp : p n = true
    · have hn : (List.range (n + 1)).filter p = (List.range n).filter p ++ [n] := by
        rw [List.range_succ, List.filter_append, List.filter_cons_of_pos hp, List.filter_nil]
      have hrun : (((List.range (n + 1)).filter p).map a).foldl (scanStep f) none =
          scanStep f ((((List.range n).filter p).map a).foldl (scanStep f) none) (a n) := by
        rw [hn, List.map_append, List.foldl_append, List.map_singleton, List.foldl_cons, List.foldl_nil]
      rw [hn, writesOf_concat, List.map_append, List.map_singleton, scanList_concat, ih, List.foldl_map, hrun, List.foldl_map]
    · have hn : (List.range (n + 1)).filter p = (List.range n).filter p := by
        rw [List.range_succ, List.filter_append, List.filter_cons_of_neg hp, List.filter_nil, List.append_nil]
      rw [hn, ih]

theorem filter_writesOf (h : Nat → Option Nat) (n : Nat) (l : List Nat) :
    (writesOf h l).filter (fun p => decide (p.1 < n)) = writesOf h (l.filter fun i => decide (i < n)) := by
  induction l with
  | nil => rfl
  | cons i l ih =>
    cases hi : h i with
    | none =>
      have h1 : writesOf h (i :: l) = writesOf h l := List.filterMap_cons_none (by rw [hi]; rfl)
      rw [h1, ih, List.filter_cons]
      split
      · exact (List.filterMap_cons_none (by rw [hi]; rfl)).symm
      · rfl
    | some x =>
      have h1 : writesOf h (i :: l) = (i, x) :: writesOf h l := List.filterMap_cons_some (by rw [hi]; rfl)
      rw [h1, List.filter_cons, List.filter_cons, ih]
      split
      · exact (List.filterMap_cons_some (by rw [hi]; rfl)).symm
      · rfl

/-- What element i of register g is after a scan, of the elements before it and itself (R95). -/
def scanned (s : State) (o : VScanOp) (g i : Nat) : Option Nat :=
  match ((List.range (i + 1)).filter fun j => (s.rm o.pm).getLsbD j).map fun j => elem o.fmt.width s.c.v[regAt o.va g] j with
  | [] => none
  | a :: t => some (t.foldl (combined o.op o.fmt o.m) (canonical o.fmt a))

section
variable {s : State} {o : VScanOp} (hf : o.fmt.isInt = true ∨ o.fmt.isFp = true)
include hf

/-- A running result of the model is that of R95: a NaN made canonical combines as it did. -/
theorem foldl_combine (t : List Nat) (ht : ∀ x ∈ t, x < 2 ^ o.fmt.width) : ∀ a, a < 2 ^ o.fmt.width →
    (t.map (canonElem o.fmt)).foldl (combineElem o.op o.fmt o.m) a = t.foldl (combined o.op o.fmt o.m) a ∧
    t.foldl (combined o.op o.fmt o.m) a < 2 ^ o.fmt.width := by
  induction t with
  | nil => exact fun a ha => ⟨rfl, ha⟩
  | cons x t ih =>
    intro a ha
    have hx := ht x (.head _)
    rw [List.map_cons, List.foldl_cons, List.foldl_cons, canonElem_eq, combineElem_eq o.op o.m ha (canonical_lt hx),
      combined_canonical o.op hf]
    exact ih (fun y hy => ht y (.tail _ hy)) _ (combined_lt o.op o.m ha hx)

theorem scanned_eq {g i : Nat} (hi : i < s.c.vl.toNat) :
    (((List.range (i + 1)).filter (s.active o.pm)).map fun j => canonElem o.fmt (s.elemAt (regAt o.va g) o.fmt.width j)).foldl
      (scanStep (combineElem o.op o.fmt o.m)) none = scanned s o g i := by
  have hact : (List.range (i + 1)).filter (s.active o.pm) = (List.range (i + 1)).filter fun j => (s.rm o.pm).getLsbD j := by
    refine List.filter_congr fun j hj => ?_
    have : j < s.vl := lt_of_lt_of_le (List.mem_range.1 hj) hi
    rw [State.active, decide_eq_true this]
    rfl
  have hmap : ((List.range (i + 1)).filter fun j => (s.rm o.pm).getLsbD j).map
        (fun j => canonElem o.fmt (s.elemAt (regAt o.va g) o.fmt.width j)) =
      (((List.range (i + 1)).filter fun j => (s.rm o.pm).getLsbD j).map
        fun j => elem o.fmt.width s.c.v[regAt o.va g] j).map (canonElem o.fmt) := by
    rw [List.map_map]
    rfl
  have hlt : ∀ x ∈ ((List.range (i + 1)).filter fun j => (s.rm o.pm).getLsbD j).map
      (fun j => elem o.fmt.width s.c.v[regAt o.va g] j), x < 2 ^ o.fmt.width := by
    intro x hx
    obtain ⟨j, -, rfl⟩ := List.mem_map.1 hx
    exact elem_lt _ _ _
  rw [hact, hmap, scanned]
  cases hl : ((List.range (i + 1)).filter fun j => (s.rm o.pm).getLsbD j).map
      (fun j => elem o.fmt.width s.c.v[regAt o.va g] j) with
  | nil => rfl
  | cons a t =>
    rw [hl] at hlt
    have ha := canonical_lt (hlt a (.head _))
    rw [List.map_cons, List.foldl_cons]
    exact (foldl_scanStep _ _ _).trans (congrArg some (canonElem_eq o.fmt a ▸
      (foldl_combine hf t (fun y hy => hlt y (.tail _ hy)) _ ha).1))

theorem scanned_lt {g i x : Nat} (hx : scanned s o g i = some x) : x < 2 ^ o.fmt.width := by
  have hlt : ∀ y ∈ ((List.range (i + 1)).filter fun j => (s.rm o.pm).getLsbD j).map
      (fun j => elem o.fmt.width s.c.v[regAt o.va g] j), y < 2 ^ o.fmt.width := by
    intro y hy
    obtain ⟨j, -, rfl⟩ := List.mem_map.1 hy
    exact elem_lt _ _ _
  unfold scanned at hx
  split at hx
  · cases hx
  · rename_i a t hl
    rw [hl] at hlt
    cases hx
    exact (foldl_combine hf t (fun y hy => hlt y (.tail _ hy)) _ (canonical_lt (hlt a (.head _)))).2

/-- A scan on the context's own stream writes each active element's running result, and +0 in padding. -/
theorem vscan_lanewise (h : LanesReady s o.fmt.width) (hscu : InScu s) :
    Lanewise (exec (.vscan o) s) s o.fmt.width (grpSize o.m.grp) o.vd o.pm (scanned s o) := by
  have hclean : s.c.vbad = [] := h.2.2
  have hexec : exec (.vscan o) s = execVscan o s := rfl
  have hreach : s.reach o.fmt.width = List.range s.vlg := by rw [State.reach, hscu]
  have hvl : s.vl = s.c.vl.toNat := rfl
  have hvlg : s.vlg = s.c.vlg.toNat := rfl
  have hle : s.vl ≤ s.vlg := by
    have := h.1
    simp only [State.badConfig, Bool.or_eq_false_iff, decide_eq_false_iff_not, not_lt] at this
    exact this.1.1
  have hw := dvd_image (width_dvd o.fmt)
  have hpad : ((List.range s.vlg).filter fun i => decide (s.vl ≤ i)).map (fun i => (i, 0)) =
      writesOf (fun _ => some 0) ((List.range s.vlg).filter fun i => decide (s.vl ≤ i)) := (congrFun List.filterMap_eq_map' _).symm
  rw [hexec, execVscan]
  simp only [State.actives, hreach, scanList_eq, hpad, List.filter_append, filter_writesOf, configTrap_of_ready h]
  obtain ⟨v, hv, hout, hin⟩ := putGroup_of_clean hclean o.vd o.fmt.width (fun g =>
    writesOf (fun i => (((List.range (i + 1)).filter (s.active o.pm)).map
        fun j => canonElem o.fmt (s.elemAt (regAt o.va g) o.fmt.width j)).foldl (scanStep (combineElem o.op o.fmt o.m)) none)
      (((List.range s.vlg).filter (s.active o.pm)).filter fun i => decide (i < noLimit)) ++
    writesOf (fun _ => some 0) (((List.range s.vlg).filter fun i => decide (s.vl ≤ i)).filter fun i => decide (i < noLimit)))
    ((grpSize_le o.m.grp).trans (by decide))
  rw [laneOp_of_clean hclean _ (by rw [hv]; exact hclean), hv]
  refine ⟨v, rfl, hout, fun g i hg hi => ?_⟩
  have hlim : i < noLimit := by
    have := Nat.le_mul_of_pos_left i (width_pos o.fmt)
    unfold noLimit
    omega
  have hact : s.active o.pm i = true ↔ i < s.vl ∧ s.maskBit o.pm i = true := by
    rw [State.active, Bool.and_eq_true, decide_eq_true_eq]
  rw [hin g hg, setElems, List.foldl_append]
  change elem o.fmt.width (setElems o.fmt.width (setElems o.fmt.width s.c.v[regAt o.vd g] _) _) i = _
  rw [elem_setElems hw _ hi, elem_setElems hw _ hi]
  simp only [List.mem_filter, List.mem_range, hlim, decide_true, and_true, decide_eq_true_eq, Option.elim, hact,
    classed, inReach, (show s.laneSel = none from hscu), Bool.not_eq_true', decide_eq_false_iff_not, ← hvlg, ← hvl]
  by_cases h1 : i < s.vlg
  · by_cases h2 : s.vl ≤ i
    · simp [h1, h2]
    · have h3 : i < s.vl := not_le.1 h2
      rw [if_neg (by simp [h2]), if_neg (not_not.2 h1), if_neg h2]
      by_cases h4 : s.maskBit o.pm i = true
      · have h4' : (s.rm o.pm).getLsbD i = true := h4
        have heq := scanned_eq hf (g := g) h3
        rw [if_pos ⟨h1, h3, h4⟩, if_pos h4', heq]
        cases hx : scanned s o g i with
        | none => rfl
        | some x => exact Nat.mod_eq_of_lt (scanned_lt hf hx)
      · have h4' : ¬ (s.rm o.pm).getLsbD i = true := h4
        rw [if_neg (by simp [h4]), if_neg h4']
  · rw [if_neg (by simp [h1]), if_neg (by simp [h1]), if_pos h1]

end

theorem isInt_or_isFp_of_wf {f : Fmt} {t : List (Bool × IllFormed)} (h : (firstIll ((f.isInt || f.isFp, .fmt) :: t)).isNone = true) :
    f.isInt = true ∨ f.isFp = true := by simpa using fmt_of_firstIll h

/-- What is claimed of a reduction by a tree. -/
def ReductionHolds (p : (VUnOp → Instr) × Iop) : Prop :=
  ∀ (s : State) (o : VUnOp), (p.1 o).wf = true → LanesReady s o.fmt.width →
    Reduces (exec (p.1 o) s) s o.fmt.width o.fmt.width (grpSize o.m.grp) o.vd fun g =>
      canonical o.fmt ((treeOver (combined p.2 o.fmt o.m) (present s o.pm o.fmt.width (regAt o.va g)) (Nat.clog 2 s.c.vlg.toNat) 0).getD
        (redIdent p.2 o.fmt o.m.u))

theorem reductionHolds_of_tree {instr : VUnOp → Instr} {op : Iop} (hexec : ∀ o s, exec (instr o) s = tree op o s)
    (hop : op ∈ redRows.map Prod.snd) (hf : ∀ o, (instr o).wf = true → o.fmt.isInt = true ∨ o.fmt.isFp = true) :
    ReductionHolds (instr, op) := by
  intro s o hw h
  simp only [hexec]
  exact tree_reduces hop (hf o hw) h

theorem redRows_hold : ∀ p ∈ redRows, ReductionHolds p := by
  have hops : redRows.map Prod.snd = [.add, .max, .min, .and, .or] := rfl
  simp only [redRows, List.forall_mem_cons]
  refine ⟨?sum, ?max, ?min, ?and, ?or, fun _ h => absurd h List.not_mem_nil⟩
  case sum => exact reductionHolds_of_tree (fun _ _ => rfl) (by simp [hops]) fun _ hw => isInt_or_isFp_of_wf hw
  case max => exact reductionHolds_of_tree (fun _ _ => rfl) (by simp [hops]) fun _ hw => isInt_or_isFp_of_wf hw
  case min => exact reductionHolds_of_tree (fun _ _ => rfl) (by simp [hops]) fun _ hw => isInt_or_isFp_of_wf hw
  case and => exact reductionHolds_of_tree (fun _ _ => rfl) (by simp [hops]) fun _ hw => .inl (fmt_of_firstIll hw)
  case or => exact reductionHolds_of_tree (fun _ _ => rfl) (by simp [hops]) fun _ hw => .inl (fmt_of_firstIll hw)

/-- Settles O29: a tree by levels is the tree by halves, blocks are added in order, a scan carries the running result. -/
theorem reductions : Obligations.Reductions :=
  ⟨redRows_hold, fun _ _ _ h hb => vredbs_reduces h hb, fun _ _ hw h hs => vscan_lanewise (isInt_or_isFp_of_wf hw) h hs⟩

end Sys2Proof.Machine
end

