-- ==== Sys2Proof/Proofs/RecordBytes.lean ====
section
/-! Bytes over several lines of memory, whatever errors stand in units, and their value (R240, R310, R340). -/

namespace Sys2Proof.Machine

/-! A write leaves the same bytes whatever errors stand in units. -/

/-- Memory and tags are as they were. -/
def SameBytes (s t : State) : Prop := t.mem = s.mem ∧ t.tags = s.tags

theorem SameBytes.refl (s : State) : SameBytes s s := ⟨rfl, rfl⟩

theorem SameBytes.trans {s t u : State} (h : SameBytes s t) (k : SameBytes t u) : SameBytes s u := ⟨k.1.trans h.1, k.2.trans h.2⟩

theorem readUnit_bytes (s : State) (lay : Lay) (u : Nat) : SameBytes s (s.readUnit lay u).1 := by
  simp only [State.readUnit]
  cases ((s.badAt u).read lay).2.2 <;> exact ⟨rfl, rfl⟩

theorem recode_bytes (s : State) (u : Nat) (poison : Bool) : SameBytes s (s.recode u poison) := by
  simp only [State.recode]
  split
  · exact .refl s
  · exact ⟨rfl, rfl⟩

theorem writeUnits_bytes (lay : Lay) (f : Nat) : ∀ (s : State) (pa n : Nat), SameBytes s (s.writeUnits lay f pa n) := by
  induction f with
  | zero => exact fun s _ _ => .refl s
  | succ f ih =>
    intro s pa n
    have h := readUnit_bytes s lay (unitOf pa)
    simp only [State.writeUnits]
    split
    · exact .refl s
    · refine SameBytes.trans ?_ (ih _ _ _)
      split
      · exact recode_bytes _ _ _
      · split
        · rename_i heq; rw [heq] at h; exact h.trans (recode_bytes _ _ _)
        · rename_i heq; rw [heq] at h; exact h

theorem recodeLine_bytes (s : State) (lay : Lay) (line n k : Nat) : SameBytes s (s.recodeLine lay line n k) := by
  have reads (l : List (Nat × Nat)) : ∀ a : State × Bool, SameBytes a.1
      (l.foldl (fun a u => ((a.1.readUnit lay u.1).1, a.2 || (a.1.readUnit lay u.1).2)) a).1 := by
    induction l with
    | nil => exact fun a => .refl a.1
    | cons u t ih => exact fun a => (readUnit_bytes a.1 lay u.1).trans (ih _)
  have codes (b : Bool) (l : List Nat) : ∀ t : State, SameBytes t (l.foldl (fun t j => t.recode (128 * line + 32 * j) b) t) := by
    induction l with
    | nil => exact fun t => .refl t
    | cons j l ih => exact fun t => (recode_bytes t _ _).trans (ih _)
  simp only [State.recodeLine]
  split
  · exact codes _ _ s
  · exact (reads _ (s, false)).trans (codes _ _ _)

theorem putRaw_bytes (bs : List Byte) : ∀ (s t : State) (pa : Nat), SameBytes s t → SameBytes (s.putRaw pa bs) (t.putRaw pa bs) := by
  induction bs with
  | nil => exact fun _ _ _ h => h
  | cons b bs ih => exact fun s t pa h => ih _ _ (pa + 1) ⟨congrArg (tabSet 0 · pa b) h.1, h.2⟩

/-- A line takes the bytes that it would take if no error stood. -/
theorem putLine_bytes (s : State) (line o : Nat) (bs : List Byte) :
    SameBytes (({ s with bad := [] } : State).putLine none Lay.plain line o bs) (s.putLine none Lay.plain line o bs) := by
  have hline : ({ s with bad := [] } : State).lineOr0 line = s.lineOr0 line := by
    have hraw : ({ s with bad := [] } : State).rawBytes (128 * line) 128 = s.rawBytes (128 * line) 128 :=
      rawBytes_congr 128 _ fun _ _ => rfl
    rw [State.lineOr0, State.lineBytes, hraw]
    rfl
  have units : SameBytes { s with bad := [] } (if s.bad = [] then s else s.writeUnits Lay.plain 5 (128 * line + o) bs.length) := by
    split
    · exact ⟨rfl, rfl⟩
    · exact writeUnits_bytes _ _ _ _ _
  by_cases ht : s.tagOf line = 0
  · rw [putLine_stored (s := { s with bad := [] }) o bs rfl ht]
    have h : s.putLine none Lay.plain line o bs =
        (if s.bad = [] then s else s.writeUnits Lay.plain 5 (128 * line + o) bs.length).putRaw (128 * line + o) bs := by
      simp [State.putLine, Lay.plain, ht]
    exact h ▸ putRaw_bytes bs _ _ _ units
  · obtain ⟨t, hp, htags, hmem⟩ := putLine_encoded (s := { s with bad := [] }) o bs rfl ht
    have codes (k : Nat) : SameBytes { s with bad := [] } (if s.bad = [] then s else s.recodeLine Lay.plain line bs.length k) := by
      split
      · exact ⟨rfl, rfl⟩
      · exact recodeLine_bytes _ _ _ _ _
    let after := (s.lineOr0 line).take o ++ bs ++ (s.lineOr0 line).drop (o + bs.length)
    have h : s.putLine none Lay.plain line o bs =
        { (if s.bad = [] then s else s.recodeLine Lay.plain line bs.length (after.length / 32)).putRaw (128 * line) after with
          tags := tabSet 0 s.tags line 0 } := if_neg (by simp [Lay.plain, ht])
    rw [hp, h]
    refine ⟨?_, htags.symm⟩
    rw [hmem, hline]
    exact (putRaw_bytes _ _ _ _ (codes _)).1

/-- Memory and tags stand in canonical form. -/
def BytesWf (s : State) : Prop := s.MemOk ∧ tabWf 0 s.tags = true

theorem MemStep.bytesWf {s t : State} (h : MemStep s t) (k : BytesWf s) : BytesWf t := ⟨h.2.1 k.1, h.2.2.1 k.2⟩

theorem byteAt_putLine_bad {s : State} {line o : Nat} {bs : List Byte} (hs : BytesWf s) (hn : o + bs.length ≤ 128)
    (hh : inHbm (128 * line) = true) (a : Nat) :
    byteAt (s.putLine none Lay.plain line o bs) a =
      if 128 * line + o ≤ a ∧ a < 128 * line + o + bs.length then bs.getD (a - (128 * line + o)) 0 else byteAt s a := by
  obtain ⟨hm, hw⟩ := hs
  obtain ⟨hmem, htags⟩ := putLine_bytes s line o bs
  have hold : byteAt { s with bad := [] } a = byteAt s a := byteAt_of_mem (s := s) (t := { s with bad := [] }) rfl rfl a
  rw [byteAt_of_mem hmem htags, ← hold]
  by_cases ht : s.tagOf line = 0
  · rw [putLine_stored (s := { s with bad := [] }) o bs rfl ht]
    have hl : (128 * line + o) / 128 = line ∨ bs.length = 0 := by omega
    rcases hl with hl | hl
    · exact byteAt_putRaw (s := { s with bad := [] }) (bs := bs) hm (by omega) (.inr (hl.symm ▸ ht)) a
    · rw [List.length_eq_zero_iff.1 hl, if_neg (by simp)]
      rfl
  · exact byteAt_putLine (s := { s with bad := [] }) hm hw rfl hn hh ht a

/-! Bytes put into several lines. -/

theorem byteAt_putLines (f : Nat) : ∀ (s : State) (pa : Nat) (bs : List Byte), BytesWf s → pa % 128 + bs.length ≤ 128 * f →
    (∀ k, k < bs.length → inHbm (pa + k) = true) → ∀ a, byteAt (s.putLines none Lay.plain f pa bs) a =
      if pa ≤ a ∧ a < pa + bs.length then bs.getD (a - pa) 0 else byteAt s a := by
  induction f with
  | zero =>
    intro s pa bs _ hn _ a
    rw [if_neg (by omega)]
    rfl
  | succ f ih =>
    intro s pa bs hs hn hh a
    rw [State.putLines]
    by_cases h0 : bs = []
    · subst h0
      rw [if_pos rfl, if_neg (by simp)]
    · have hpos : 0 < bs.length := List.length_pos_of_ne_nil h0
      have hpa : 128 * (pa / 128) + pa % 128 = pa := Nat.div_add_mod pa 128
      have hline : inHbm (128 * (pa / 128)) = true := (inHbm_line (by omega)).trans (hh 0 hpos)
      have hfirst := byteAt_putLine_bad (o := pa % 128) (bs := bs.take (128 - pa % 128)) hs
        (by rw [List.length_take]; omega) hline a
      simp only [if_neg h0]
      rw [ih _ _ _ ((putLine_step _ _ _ _ _ _).bytesWf hs) (by rw [List.length_drop]; omega)
        (fun k hk => by
          rw [List.length_drop] at hk
          simpa [Nat.add_assoc] using hh (128 - pa % 128 + k) (by omega)), hfirst, hpa, List.length_drop, List.length_take]
      by_cases h1 : pa ≤ a ∧ a < pa + bs.length
      · rw [if_pos h1]
        by_cases h2 : a < pa + (128 - pa % 128)
        · rw [if_neg (by omega), if_pos (by omega), List.getD_eq_getElem?_getD, List.getElem?_take, if_pos (by omega),
            List.getD_eq_getElem?_getD]
        · rw [if_pos (by omega), List.getD_eq_getElem?_getD, List.getElem?_drop, List.getD_eq_getElem?_getD]
          congr 2
          omega
      · rw [if_neg h1, if_neg (by omega), if_neg (by omega)]

theorem byteAt_putRaw_sram {s : State} (hs : BytesWf s) : ∀ {pa : Nat} {bs : List Byte},
    (∀ k, k < bs.length → inHbm (pa + k) = false) → ∀ a,
    byteAt (s.putRaw pa bs) a = if pa ≤ a ∧ a < pa + bs.length then bs.getD (a - pa) 0 else byteAt s a := by
  intro pa bs hh a
  by_cases h1 : pa ≤ a ∧ a < pa + bs.length
  · have ha : inHbm a = false := by simpa [Nat.add_sub_cancel' h1.1] using hh (a - pa) (by omega)
    rw [byteAt_stored (.inl ha), putRaw_byte _ _ _ _ hs.1, if_pos h1, if_pos h1]
  · rw [if_neg h1]
    have hg (l : Nat) : (s.putRaw pa bs).tagOf l = s.tagOf l := by rw [State.tagOf, putRaw_tags]; rfl
    by_cases ha : inHbm a = true
    · refine byteAt_congr (hg _) fun b hb => ?_
      rw [putRaw_byte _ _ _ _ hs.1, if_neg fun hr => ?_]
      have h2 := hh (b - pa) (by omega)
      rw [Nat.add_sub_cancel' hr.1, inHbm_line hb, ha] at h2
      cases h2
    · rw [byteAt_stored (.inl (by simpa using ha)), byteAt_stored (.inl (by simpa using ha)), putRaw_byte _ _ _ _ hs.1, if_neg h1]

/-- Each byte after bytes have been put into memory of one kind: those put where they were put, else as before. -/
theorem byteAt_putBytes_inOne {s : State} (hs : BytesWf s) {pa : Nat} {bs : List Byte} (hk : InOne pa bs.length) (a : Nat) :
    byteAt (s.putBytes none Lay.plain pa bs) a = if pa ≤ a ∧ a < pa + bs.length then bs.getD (a - pa) 0 else byteAt s a := by
  have hwake := wake_step s Lay.plain pa bs.length
  have hold : byteAt (s.wake Lay.plain pa bs.length) a = byteAt s a := byteAt_of_mem (by simp) (by simp) a
  have hs1 := hwake.bytesWf hs
  rw [State.putBytes, ← hold]
  generalize s.wake Lay.plain pa bs.length = u at hs1 ⊢
  by_cases hh : inHbm pa = true
  · simp only [if_pos hh]
    exact byteAt_putLines _ u pa bs hs1 (by omega) (fun k hlt => (hk k hlt).trans hh) a
  · simp only [if_neg hh]
    have hu : SameBytes u (if u.bad = [] then u else u.writeUnits Lay.plain (bs.length / 8 + 2) pa bs.length) := by
      split
      · exact .refl u
      · exact writeUnits_bytes _ _ _ _ _
    obtain ⟨hmem, htags⟩ := putRaw_bytes bs _ _ pa hu
    rw [byteAt_of_mem hmem htags]
    exact byteAt_putRaw_sram hs1 (fun k hlt => (hk k hlt).trans (by simpa using hh)) a

/-! Bytes read over several lines. -/

theorem normalPart_length_eq (s : State) (line : Nat) {o n : Nat} (h : o + n ≤ 128) : (s.normalPart line o n).length = n := by
  unfold State.normalPart
  split
  · exact rawBytes_length _ _ _
  · split
    · rename_i bs hbs
      have := decodeLine_length (rawBytes_length _ _ _) hbs
      rw [List.length_take, List.length_drop]
      omega
    · exact List.length_replicate

theorem normalBytes_getD (s : State) (f : Nat) : ∀ pa n j, pa % 128 + n ≤ 128 * f → (∀ k, k < n → inHbm (pa + k) = true) → j < n →
    (s.normalBytes f pa n).getD j 0 = byteAt s (pa + j) := by
  induction f with
  | zero =>
    intro pa n j hn _ hj
    omega
  | succ f ih =>
    intro pa n j hn hh hj
    have hlen := normalPart_length_eq s (pa / 128) (o := pa % 128) (n := min n (128 - pa % 128)) (by omega)
    simp only [State.normalBytes, if_neg (show n ≠ 0 by omega)]
    by_cases h1 : j < min n (128 - pa % 128)
    · rw [List.getD_append _ _ _ _ (hlen.symm ▸ h1), ← bytesAt_getD s (pa := pa) (n := min n (128 - pa % 128)) (by omega) h1,
        bytesAt_part s (by omega), if_pos (by simpa using hh 0 (by omega))]
    · rw [List.getD_append_right _ _ _ _ (hlen.symm ▸ not_lt.1 h1), hlen,
        ih (pa + min n (128 - pa % 128)) _ _ (by omega) (fun k hk => by
          simpa [Nat.add_assoc] using hh (min n (128 - pa % 128) + k) (by omega)) (by omega)]
      congr 1
      omega

theorem normalBytes_length (s : State) (f : Nat) : ∀ pa n, (s.normalBytes f pa n).length ≤ n := by
  induction f with
  | zero => exact fun _ _ => Nat.zero_le _
  | succ f ih =>
    intro pa n
    simp only [State.normalBytes]
    split
    · exact Nat.zero_le _
    · have h1 := normalPart_length s (pa / 128) (pa % 128) (min n (128 - pa % 128))
      have h2 := ih (pa + min n (128 - pa % 128)) (n - min n (128 - pa % 128))
      rw [List.length_append]
      omega

/-- Bytes read from memory of one kind. -/
theorem bytesAt_getD_inOne (s : State) {pa n j : Nat} (hk : InOne pa n) (hj : j < n) :
    (s.bytesAt false pa n).getD j 0 = byteAt s (pa + j) := by
  by_cases hh : inHbm pa = true
  · simp only [State.bytesAt, hh, Bool.not_true, Bool.false_eq_true, if_false]
    exact normalBytes_getD s _ pa n j (by omega) (fun k hlt => (hk k hlt).trans hh) hj
  · have h0 : inHbm pa = false := by simpa using hh
    simp only [State.bytesAt, h0, Bool.not_false, if_true]
    rw [rawBytes_getD _ _ _ _ hj, byteAt_stored (.inl ((hk j hj).trans h0))]

theorem bytesAt_length (s : State) (pa n : Nat) : (s.bytesAt false pa n).length ≤ n := by
  simp only [State.bytesAt, Bool.false_eq_true, if_false]
  split
  · exact Nat.le_of_eq (rawBytes_length _ _ _)
  · exact normalBytes_length _ _ _ _

/-! The bits of bytes and of their value. -/

theorem testBit_leNat (bs : List Byte) : ∀ i, (leNat bs).testBit i = (bs.getD (i / 8) 0).getLsbD (i % 8) := by
  induction bs with
  | nil => exact fun i => by simp [leNat]
  | cons b t ih =>
    intro i
    rw [leNat, Nat.add_comm, show (256 : Nat) = 2 ^ 8 from rfl, Nat.testBit_two_pow_mul_add _ b.isLt]
    by_cases h : i < 8
    · rw [if_pos h, Nat.div_eq_of_lt h, Nat.mod_eq_of_lt h]
      rfl
    · have h8 : i / 8 = (i - 8) / 8 + 1 := by omega
      have hm : i % 8 = (i - 8) % 8 := by omega
      rw [if_neg h, ih, h8, hm]
      rfl

theorem leBytes_getD (n : Nat) : ∀ v j, j < n → (leBytes n v).getD j 0 = BitVec.ofNat 8 (v / 256 ^ j) := by
  induction n with
  | zero => exact fun _ _ h => absurd h (Nat.not_lt_zero _)
  | succ n ih =>
    intro v j hj
    cases j with
    | zero => simp [leBytes]
    | succ j =>
      rw [leBytes, List.getD_cons_succ, ih _ _ (by omega), Nat.div_div_eq_div_mul, pow_succ']

/-- A byte of a register's image, shifted down by whole bytes. -/
theorem leBytes_shift_getD {n j : Nat} (hj : j < n) (x : BitVec 4096) (k : Nat) :
    (leBytes n (x.toNat >>> (8 * k))).getD j 0 = x.extractLsb' (8 * (k + j)) 8 := by
  rw [leBytes_getD _ _ _ hj]
  refine BitVec.eq_of_toNat_eq ?_
  rw [BitVec.toNat_ofNat, BitVec.extractLsb'_toNat, Nat.shiftRight_eq_div_pow, Nat.div_div_eq_div_mul,
    show (256 : Nat) = 2 ^ 8 from rfl, ← pow_mul, ← pow_add, ← Nat.mul_add, Nat.shiftRight_eq_div_pow]

end Sys2Proof.Machine
end

