-- ==== Sys2Proof/Proofs/Granting.lean ====
section
/-! What svl grants, the grant point and its caps and lifts, and letting lanes go (R70, R126, R127, R235 to R238; O12). -/

namespace Sys2Proof.Machine

/-- The same machine with another context in hand. -/
def State.withC (s : State) (c : Ctx) : State := { s with c := c }

/-! The grant (R70). -/

theorem len_eq_zero {b : Blk} : Blk.len b = 0 ↔ b = .none := by cases b <;> decide

theorem granted_le (wid request : Nat) (f : Fmt) (b : Blk) :
    (granted wid request f b).1 ≤ (granted wid request f b).2 ∧ (granted wid request f b).2 ≤ wid * 64 / f.width := by
  unfold granted
  by_cases hb : b = .none
  · rw [if_pos hb]
    exact ⟨le_refl _, min_le_right _ _⟩
  · rw [if_neg hb]
    exact ⟨min_le_right _ _, (min_le_right _ _).trans (Nat.div_mul_le_self _ _)⟩

theorem svlGrant_of_grantable {wid : Nat} {f : Fmt} {b : Blk} (h : Grantable wid f b) (request : Nat) :
    svlGrant wid request f b = .ok (granted wid request f b) := by
  unfold svlGrant granted
  by_cases hb : b = .none
  · simp only [len_eq_zero.2 hb, if_true, if_pos hb]
  · obtain ⟨hf, hlen⟩ := h.resolve_left hb
    have h0 : Blk.len b ≠ 0 := mt len_eq_zero.1 hb
    simp only [if_neg h0, if_neg hb, hf, Bool.not_true, Bool.false_eq_true, if_false, if_neg (not_lt.2 hlen)]

theorem svlGrant_of_notBlock {f : Fmt} {b : Blk} (hb : b ≠ .none) (hf : f.isBlock = false) (wid request : Nat) :
    svlGrant wid request f b = .error 0 := by
  simp [svlGrant, len_eq_zero, hb, hf]

theorem svlGrant_of_short {wid : Nat} {f : Fmt} {b : Blk} (hf : f.isBlock = true) (h : wid * 64 / f.width < Blk.len b) (request : Nat) :
    svlGrant wid request f b = .error 1 := by
  have h0 : Blk.len b ≠ 0 := (Nat.zero_lt_of_lt h).ne'
  simp [svlGrant, h0, hf, h]

/-- Writing a register and going on gives it the value. -/
theorem gives_wx {s : State} (h : InScu s) (rd : XReg) (v : Word) : Gives (.next (s.wx rd v).adv) s rd v := by
  unfold State.wx
  split
  · rename_i h0
    exact ⟨s.c.x, s.c.pending, ⟨fun _ => ⟨rfl, rfl⟩, fun h1 => absurd h0 h1, fun _ _ => rfl⟩, by rw [State.adv_of_scu s h]; rfl⟩
  · rename_i h0
    refine ⟨s.c.x.set rd v, s.c.pending.filter fun p => p.reg != rd, ⟨fun h1 => absurd h1 h0, fun _ => ⟨?_, rfl⟩, fun r hr => ?_⟩, ?_⟩
    · exact Vector.getElem_set_self ..
    · exact Vector.getElem_set_ne _ _ fun h1 => hr (Fin.ext h1.symm)
    · rw [State.adv_of_scu _ (by exact h)]
      rfl

section
variable {s : State} {rd ra : XReg} {f : Fmt} {b : Blk}

theorem rx_eq_xOf (h : InScu s) (r : XReg) : s.rx r = xOf s r := State.rx_of_scu s h r

/-- svl past its checks, by the grant (R70, R235). -/
theorem execSvl_eq (hd : ¬ (s.c.det = true ∧ s.k.active < s.c.detw.toNat)) (hv : s.c.vlive = true) :
    exec (.svl rd ra f b) s = .next (match svlGrant s.grantPoint.wid (s.rx ra).toNat f b with
      | .error r => s.raise (formatTrap .scu r)
      | .ok (vl, vlg) =>
        ({ s.grantPoint with c := { s.grantPoint.c with
            vl := BitVec.ofNat 13 vl, vlg := BitVec.ofNat 13 vlg, vfmt := f.code, vblk := b } }.wx rd (BitVec.ofNat 64 vl)).adv) := by
  refine congrArg Host.Outcome.next ((if_neg hd).trans (if_neg ?_))
  simp [hv]

/-- What svl is said to do where it grants over t: VL, VLG and VCFG of t, and VL to the register. -/
def Granted (s t : State) (rd ra : XReg) (f : Fmt) (b : Blk) (wid : Nat) : Prop :=
  let g := granted wid (xOf s ra).toNat f b
  g.1 ≤ g.2 ∧ g.2 ≤ wid * 64 / f.width ∧ Gives (exec (.svl rd ra f b) s)
    { t with c := { t.c with vl := BitVec.ofNat 13 g.1, vlg := BitVec.ofNat 13 g.2, vfmt := f.code, vblk := b } } rd (BitVec.ofNat 64 g.1)

/-- svl grants over what its grant point leaves. -/
theorem granted_of_grantPoint (hs : InScu s) (hd : ¬ (s.c.det = true ∧ s.k.active < s.c.detw.toNat)) (hv : s.c.vlive = true)
    {t : State} (ht : s.grantPoint = t) (hscu : t.laneSel = none) {wid : Nat} (hw : t.wid = wid) (hg : Grantable wid f b) :
    Granted s t rd ra f b wid := by
  obtain ⟨h1, h2⟩ := granted_le wid (xOf s ra).toNat f b
  refine ⟨h1, h2, ?_⟩
  rw [execSvl_eq hd hv, ht, hw, rx_eq_xOf hs, svlGrant_of_grantable hg]
  exact gives_wx (by exact hscu) rd _

/-! The grant point (R235). -/

theorem settled_eq_true (c : Ctx) : c.settled = true ↔ ¬ Pends c := by
  unfold Ctx.settled Pends
  cases c.ahead <;> simp

/-- A cap that stands leaves the context as it is. -/
theorem takeCap_of_stands (h : CapStands s.c) : s.takeCap = s := by
  refine if_pos ?_
  rcases h with h | h | ⟨hlt, h⟩
  · simp [h]
  · simp [h]
  · have hset : s.c.settled = false ↔ Pends s.c := by
      rw [← Bool.not_eq_true, settled_eq_true, not_not]
    simp only [Bool.or_eq_true, Bool.and_eq_true, Bool.not_eq_true', hset, decide_eq_true hlt, and_true]
    tauto

theorem regained_eq (s : State) : ∃ held back, regained s = s.withC { s.c with lanesHeld := held, lanesBack := back } := by
  unfold regained
  split
  · exact ⟨_, _, rfl⟩
  · exact ⟨s.c.lanesHeld, s.c.lanesBack, rfl⟩

theorem grantPoint_of_stands (h : CapStands s.c) : s.grantPoint = regained s := by
  obtain ⟨held, back, hr⟩ := regained_eq s
  have : CapStands (regained s).c := by rw [hr]; exact h
  exact takeCap_of_stands this

end

theorem borrows_eq_true (c : Ctx) : c.borrows = true ↔ Borrows c := by simp [Ctx.borrows, Borrows]

/-- A bound context with no lanes may run on reclaimed ones, a deterministic one on its whole width. -/
theorem takes_of_idle {c : Ctx} {k : Core} {n : Nat} (hbound : c.status = .bound) (hvlive : c.vlive = false) (hborrows : ¬ Borrows c)
    (hn : 0 < n) (hdet : c.det = true → c.laneWidth k ≤ n) : c.takes k n = true := by
  have hown : c.borrows = false := Bool.eq_false_iff.2 (mt (borrows_eq_true c).1 hborrows)
  rw [Ctx.takes, hbound, hvlive, hown]
  cases h : c.det
  · simp [hn]
  · simp [hn, hdet h]

/-! A cap falls: entries go to the save record, the lanes to the taker (R236, R237, R240). -/

theorem active_le (k : Core) : k.active ≤ 64 := (List.length_filter_le _ _).trans (by simp)

/-- The memory after the entries from lane cap on of the first k registers have gone to the record at pa. -/
def State.spillRows (s : State) (pa cap n k : Nat) (u : State) : State :=
  (List.range k).foldl (fun u r => u.putBytes none Lay.plain (pa + 0x4000 + 512 * r + 8 * cap)
    (leBytes n ((s.rv (Fin.ofNat 32 r)).toNat >>> (64 * cap)))) u

theorem spillRows_step (s u : State) (pa cap n k : Nat) : MemStep u (s.spillRows pa cap n k u) :=
  foldl_step _ (fun _ _ => putBytes_step _ _ _ _ _) _ u

theorem byteAt_spillRows {s u : State} {pa cap : Nat} (hu : BytesWf u) (hr : RecordAt pa) (hcap : cap < s.k.active) (k : Nat)
    (hk : k ≤ 32) {a o : Nat} (ho : o = a - (pa + 0x4000)) : byteAt (s.spillRows pa cap (8 * (s.k.active - cap)) k u) a =
      if pa + 0x4000 ≤ a ∧ o < 512 * k ∧ 8 * cap ≤ o % 512 ∧
          o % 512 < 8 * s.k.active then
        (s.c.v[Fin.ofNat 32 (o / 512)]).extractLsb' (8 * (o % 512)) 8
      else byteAt u a := by
  have hact := active_le s.k
  induction k with
  | zero =>
    rw [if_neg (by omega)]
    rfl
  | succ k ih =>
    have hone : InOne (pa + 0x4000 + 512 * k + 8 * cap)
        (leBytes (8 * (s.k.active - cap)) ((s.rv (Fin.ofNat 32 k)).toNat >>> (64 * cap))).length := by
      intro j hj
      rw [leBytes_length] at hj
      have h1 := hr.2 (0x4000 + 512 * k + 8 * cap + j) (by omega)
      have h2 := hr.2 (0x4000 + 512 * k + 8 * cap) (by omega)
      simp only [← Nat.add_assoc] at h1 h2
      exact h1.trans h2.symm
    have hwf : BytesWf (s.spillRows pa cap (8 * (s.k.active - cap)) k u) := (spillRows_step s u pa cap _ k).bytesWf hu
    have hrow : s.spillRows pa cap (8 * (s.k.active - cap)) (k + 1) u =
        (s.spillRows pa cap (8 * (s.k.active - cap)) k u).putBytes none Lay.plain (pa + 0x4000 + 512 * k + 8 * cap)
          (leBytes (8 * (s.k.active - cap)) ((s.rv (Fin.ofNat 32 k)).toNat >>> (64 * cap))) := by
      rw [State.spillRows, List.range_succ, List.foldl_append]
      rfl
    rw [hrow, byteAt_putBytes_inOne hwf hone, ih (by omega), leBytes_length]
    by_cases h1 : pa + 0x4000 + 512 * k + 8 * cap ≤ a ∧ a < pa + 0x4000 + 512 * k + 8 * cap + 8 * (s.k.active - cap)
    · have hdiv : o / 512 = k := by omega
      have hmod : o % 512 = 8 * cap + (a - (pa + 0x4000 + 512 * k + 8 * cap)) := by omega
      rw [if_pos h1, if_pos (by omega)]
      simp only [hdiv, hmod]
      rw [show 64 * cap = 8 * (8 * cap) by omega, leBytes_shift_getD (by omega)]
      rfl
    · rw [if_neg h1]
      by_cases h2 : pa + 0x4000 ≤ a ∧ o < 512 * k ∧ 8 * cap ≤ o % 512 ∧
          o % 512 < 8 * s.k.active
      · rw [if_pos h2, if_pos (by omega)]
      · rw [if_neg h2, if_neg (by omega)]

/-- Where a cap falls and its taker may run on the lanes, they pass to it, and the entries go to the record. -/
theorem takeCap_of_falls {s : State} (h : CapFalls s.c) {t : Task} {j : Fin 4} (ht : s.c.task = some t)
    (hlt : s.c.next.toNat < s.k.active) (hj : s.c.taker = some j) (hne : 4 * coreOf s.here + j.val ≠ s.here)
    (htakes : (s.ctxAt (4 * coreOf s.here + j.val)).takes s.k (s.k.active - s.c.next.toNat) = true) :
    s.takeCap = (s.spillRows t.save s.c.next.toNat (8 * (s.k.active - s.c.next.toNat)) 32
        { s with c := { s.c with cap := s.c.next, pend := false, spilled := true } }).onCtx (4 * coreOf s.here + j.val)
      fun c => { c with lanesHeld := BitVec.ofNat 8 (s.k.active - s.c.next.toNat), lanesBack := false } := by
  obtain ⟨hpend, hthr, hfall, hlpin, hset, hhnd⟩ := h
  have hset' := (settled_eq_true s.c).2 hset
  have hgo : ¬ (!s.c.pend || s.c.thr || ((s.c.lpin || !s.c.settled || s.c.hnd) && decide (s.c.next.toNat < s.c.cap.toNat))) = true := by
    simp [hpend, hthr, hlpin, hset', hhnd]
  have hspill : ({ s with c := { s.c with cap := s.c.next, pend := false } } : State).spill s.c.next.toNat =
      s.spillRows t.save s.c.next.toNat (8 * (s.k.active - s.c.next.toNat)) 32
        { s with c := { s.c with cap := s.c.next, pend := false, spilled := true } } := by
    simp only [State.spill, ht]
    rfl
  have hstep := spillRows_step s { s with c := { s.c with cap := s.c.next, pend := false, spilled := true } } t.save s.c.next.toNat
    (8 * (s.k.active - s.c.next.toNat)) 32
  generalize s.spillRows t.save s.c.next.toNat (8 * (s.k.active - s.c.next.toNat)) 32
    { s with c := { s.c with cap := s.c.next, pend := false, spilled := true } } = u at hstep hspill ⊢
  have hctx : u.ctxAt (4 * coreOf s.here + j.val) = s.ctxAt (4 * coreOf s.here + j.val) := by
    rw [State.ctxAt, State.ctxAt, hstep.here, hstep.ctxs, if_neg hne, if_neg hne]
  refine (if_neg hgo).trans ((if_neg (not_le.2 hfall)).trans ?_)
  rw [if_pos hlt, hj, hspill]
  exact if_pos ⟨hne, hctx ▸ htakes⟩

/-! A lift: the entries come back from the record (R236, R240). -/

section
variable (s : State) (c : Ctx)

theorem byteAt_withC (a : Nat) : byteAt (s.withC c) a = byteAt s a := byteAt_of_mem (s := s) (t := s.withC c) rfl rfl a

theorem wake_withC (lay : Lay) (pa n : Nat) : (s.withC c).wake lay pa n = (s.wake lay pa n).withC c := by
  unfold State.wake
  by_cases h : (s.chans = [] || !inHbm pa) = true
  · rw [if_pos h]
    exact if_pos h
  · rw [if_neg h]
    exact if_neg h

theorem classed_withC (u : ErrUnit) (k : Option Count) : (s.withC c).classed u k = (s.classed u k).withC c := by
  cases k <;> rfl

theorem readUnit_withC (lay : Lay) (u : Nat) :
    (s.withC c).readUnit lay u = ((s.readUnit lay u).1.withC c, (s.readUnit lay u).2) :=
  Prod.ext (classed_withC (s.setBad u _) c _ _) rfl

/-- A unit that the device reads: what stands after it, and how the device sees it. -/
def viewUnit (r : State × State) (u : Nat) : State × State :=
  match r.1.readUnit Lay.plain u with
  | (s1, false) => (s1, r.2)
  | (s1, true) => ({ s1 with fresh := s1.fresh + 128 }, r.2.freeUnit s1.fresh u)

theorem viewUnit_withC (r : State × State) (u : Nat) :
    viewUnit (r.1.withC c, r.2.withC c) u = ((viewUnit r u).1.withC c, (viewUnit r u).2.withC c) := by
  simp only [viewUnit, readUnit_withC]
  obtain ⟨t, b⟩ := r.1.readUnit Lay.plain u
  cases b <;> rfl

theorem deviceView_eq (pa n : Nat) : s.deviceView pa n =
    if (s.wake Lay.plain pa n).bad = [] then (s.wake Lay.plain pa n, s.wake Lay.plain pa n)
    else (((s.wake Lay.plain pa n).bad.map (·.1)).filter fun u => meetsUnit u pa n).foldl viewUnit
      (s.wake Lay.plain pa n, s.wake Lay.plain pa n) := rfl

/-- The context in hand has no part in the device's view of memory. -/
theorem deviceView_withC (pa n : Nat) :
    (s.withC c).deviceView pa n = ((s.deviceView pa n).1.withC c, (s.deviceView pa n).2.withC c) := by
  rw [deviceView_eq, deviceView_eq, wake_withC]
  by_cases h : (s.wake Lay.plain pa n).bad = []
  · rw [if_pos h]
    exact if_pos h
  · rw [if_neg h]
    refine (if_neg h).trans ?_
    exact List.foldl_hom (fun r : State × State => (r.1.withC c, r.2.withC c))
      (init := (s.wake Lay.plain pa n, s.wake Lay.plain pa n)) fun r u => viewUnit_withC c r u

/-- A read by the device changes no register. -/
theorem deviceView_fst_keeps (pa n : Nat) :
    (s.deviceView pa n).1.laneSel = s.laneSel ∧ (s.deviceView pa n).1.k = s.k := by
  have unit (r : State × State) (u : Nat) : (viewUnit r u).1.laneSel = r.1.laneSel ∧ (viewUnit r u).1.k = r.1.k := by
    obtain ⟨⟨_, _, _, _, _, _, h⟩, -⟩ := readUnit_step r.1 Lay.plain u
    unfold viewUnit
    split
    · rename_i heq
      rw [heq] at h
      have hsel := congrArg State.laneSel h
      have hk := congrArg State.k h
      exact ⟨hsel, hk⟩
    · rename_i heq
      rw [heq] at h
      have hsel := congrArg State.laneSel h
      have hk := congrArg State.k h
      exact ⟨hsel, hk⟩
  have fold (l : List Nat) : ∀ r : State × State, (l.foldl viewUnit r).1.laneSel = r.1.laneSel ∧ (l.foldl viewUnit r).1.k = r.1.k := by
    induction l with
    | nil => exact fun r => ⟨rfl, rfl⟩
    | cons u l ih => exact fun r => ⟨(ih _).1.trans (unit r u).1, (ih _).2.trans (unit r u).2⟩
  rw [deviceView_eq]
  split
  · exact ⟨State.wake_laneSel .., State.wake_k ..⟩
  · exact ⟨(fold _ _).1.trans (State.wake_laneSel ..), (fold _ _).2.trans (State.wake_k ..)⟩

theorem deviceView_of_good (h : s.bad = []) (pa n : Nat) :
    ∃ cs, s.deviceView pa n = ({ s with chans := cs }, { s with chans := cs }) := by
  obtain ⟨cs, hc⟩ := wake_chans s Lay.plain pa n
  refine ⟨cs, ?_⟩
  rw [deviceView_eq, hc]
  exact if_pos h

end

theorem getElem_setReg {α : Type} (v : Vector α 32) (r q : VReg) (x : α) : (v.set r x)[q] = if q = r then x else v[q] := by
  by_cases h : q = r
  · subst h
    rw [if_pos rfl]
    exact Vector.getElem_set_self ..
  · rw [if_neg h]
    exact Vector.getElem_set_ne _ _ fun h1 => h (Fin.ext h1.symm)

/-- What writing the first k registers leaves, each by what it held. -/
theorem foldl_wv (g : Nat → BitVec 4096 → BitVec 4096) (u : State) (k : Nat) (hk : k ≤ 32) : ∃ v : Vector (BitVec 4096) 32,
    (List.range k).foldl (fun u j => u.wv (Fin.ofNat 32 j) (g j (u.rv (Fin.ofNat 32 j)))) u = u.withC { u.c with v := v } ∧
    ∀ q : VReg, v[q] = if q.val < k then g q.val u.c.v[q] else u.c.v[q] := by
  induction k with
  | zero => exact ⟨u.c.v, rfl, fun q => (if_neg (Nat.not_lt_zero _)).symm⟩
  | succ k ih =>
    obtain ⟨v, hv, hq⟩ := ih (by omega)
    refine ⟨v.set (Fin.ofNat 32 k) (g k v[Fin.ofNat 32 k]), ?_, fun q => ?_⟩
    · rw [List.range_succ, List.foldl_append, hv]
      rfl
    · have hkv : (Fin.ofNat 32 k).val = k := Nat.mod_eq_of_lt (by omega)
      refine (getElem_setReg _ _ _ _).trans ?_
      by_cases h : q = Fin.ofNat 32 k
      · have hqk : q.val = k := by rw [h, hkv]
        have hold : v[q] = u.c.v[q] := (hq q).trans (if_neg (by omega))
        rw [if_pos h, if_pos (by omega), ← hold]
        obtain rfl := h
        exact congrArg (g · _) hqk.symm
      · have hne : q.val ≠ k := fun h1 => h (Fin.ext (h1.trans hkv.symm))
        rw [if_neg h, hq]
        by_cases h1 : q.val < k
        · rw [if_pos h1, if_pos (by omega)]
        · rw [if_neg h1, if_neg (by omega)]

/-- The bits of the lanes lo to lo + n - 1 of a register's image. -/
def lanesMask (lo n : Nat) : BitVec 4096 := BitVec.ofNat 4096 ((2 ^ (64 * n) - 1) * 2 ^ (64 * lo))

theorem getLsbD_lanesMask (lo n i : Nat) (hi : i < 4096) :
    (lanesMask lo n).getLsbD i = decide (64 * lo ≤ i ∧ i < 64 * (lo + n)) := by
  rw [lanesMask, BitVec.getLsbD_ofNat, Nat.testBit_mul_two_pow, Nat.testBit_two_pow_sub_one, decide_eq_true hi, Bool.true_and,
    ← Bool.decide_and]
  refine decide_eq_decide.2 ?_
  omega

/-- A byte of an image over whose lanes lo to lo + n - 1 bytes have been laid. -/
theorem extract_laid (x : BitVec 4096) {bs : List Byte} {lo n : Nat} (hlen : bs.length ≤ 8 * n) (j : Nat) (hj : j < 512) :
    ((x &&& ~~~lanesMask lo n) ||| BitVec.ofNat 4096 (leNat bs * 2 ^ (64 * lo))).extractLsb' (8 * j) 8 =
      if 8 * lo ≤ j ∧ j < 8 * (lo + n) then bs.getD (j - 8 * lo) 0 else x.extractLsb' (8 * j) 8 := by
  refine BitVec.eq_of_getLsbD_eq fun i hi => ?_
  have h4 : 8 * j + i < 4096 := by omega
  have hdiv : (8 * j + i - 64 * lo) / 8 = j - 8 * lo := by omega
  rw [BitVec.getLsbD_extractLsb', BitVec.getLsbD_or, BitVec.getLsbD_and, BitVec.getLsbD_not, getLsbD_lanesMask _ _ _ h4,
    BitVec.getLsbD_ofNat, Nat.testBit_mul_two_pow, testBit_leNat, hdiv]
  by_cases h : 8 * lo ≤ j ∧ j < 8 * (lo + n)
  · have hmod : (8 * j + i - 64 * lo) % 8 = i := by omega
    have h1 : 64 * lo ≤ 8 * j + i ∧ 8 * j + i < 64 * (lo + n) := by omega
    rw [if_pos h, hmod, decide_eq_true h1, decide_eq_true h1.1]
    simp [hi, h4]
  · have h1 : ¬ (64 * lo ≤ 8 * j + i ∧ 8 * j + i < 64 * (lo + n)) := by omega
    have h2 : (decide (64 * lo ≤ 8 * j + i) && (bs.getD (j - 8 * lo) 0).getLsbD ((8 * j + i - 64 * lo) % 8)) = false := by
      by_cases h3 : 64 * lo ≤ 8 * j + i
      · rw [List.getD_eq_default _ _ (by omega)]
        simp
      · rw [decide_eq_false h3]
        rfl
    rw [if_neg h, decide_eq_false h1, h2, BitVec.getLsbD_extractLsb']
    simp [hi, h4]

/-- What comes back into register j of the lanes from lo on, n of them, from the record at pa as the device sees it. -/
def laidRow (d : State) (pa lo n j : Nat) (x : BitVec 4096) : BitVec 4096 :=
  (x &&& ~~~lanesMask lo n) ||| BitVec.ofNat 4096 (leNat (d.bytesAt false (pa + 0x4000 + 512 * j + 8 * lo) (8 * n)) * 2 ^ (64 * lo))

theorem extract_laidRow (d : State) {pa lo n : Nat} (hr : RecordAt pa) (hn : lo + n ≤ 64) {q : Nat} (hq : q < 32) (x : BitVec 4096)
    {j : Nat} (hj : j < 512) : (laidRow d pa lo n q x).extractLsb' (8 * j) 8 =
      if 8 * lo ≤ j ∧ j < 8 * (lo + n) then byteAt d (pa + 0x4000 + 512 * q + j) else x.extractLsb' (8 * j) 8 := by
  have hone : InOne (pa + 0x4000 + 512 * q + 8 * lo) (8 * n) := by
    intro i hi
    have h1 := hr.2 (0x4000 + 512 * q + 8 * lo + i) (by omega)
    have h2 := hr.2 (0x4000 + 512 * q + 8 * lo) (by omega)
    simp only [← Nat.add_assoc] at h1 h2
    exact h1.trans h2.symm
  rw [laidRow, extract_laid x (bytesAt_length _ _ _) j hj]
  by_cases h : 8 * lo ≤ j ∧ j < 8 * (lo + n)
  · rw [if_pos h, if_pos h, bytesAt_getD_inOne d hone (by omega), Nat.add_assoc _ (8 * lo), Nat.add_sub_cancel' h.1]
  · rw [if_neg h, if_neg h]

theorem reload_eq {s : State} {t : Task} {lo hi : Nat} (ht : s.c.task = some t) (hsp : s.c.spilled = true)
    (hn : lo < min hi s.k.active) :
    let d := s.deviceView (t.save + 0x4000) 0x4000
    let u := (List.range 32).foldl (fun u j =>
      u.wv (Fin.ofNat 32 j) (laidRow d.2 t.save lo (min hi s.k.active - lo) j (u.rv (Fin.ofNat 32 j)))) d.1
    s.reload lo hi = u.withC { u.c with spilled := decide (hi < s.k.active) } := by
  have hgo : ¬ (!s.c.spilled || min hi s.k.active - lo == 0) = true := by
    have : min hi s.k.active - lo ≠ 0 := by omega
    simp [hsp, this]
  unfold State.reload
  rw [ht]
  exact if_neg hgo

/-- Where a cap lifts, the entries of the lanes above the old one come back from the record. -/
theorem takeCap_of_lift {s : State} {t : Task} (hpend : s.c.pend = true) (hthr : s.c.thr = false)
    (hlt : s.c.cap.toNat < min s.c.next.toNat s.k.active) (ht : s.c.task = some t) (hr : RecordAt t.save) (hsp : s.c.spilled = true) :
    ∃ v : Vector (BitVec 4096) 32, (∀ (q : VReg) j, j < 512 → (v[q]).extractLsb' (8 * j) 8 =
        if 8 * s.c.cap.toNat ≤ j ∧ j < 8 * min s.c.next.toNat s.k.active then
          byteAt (s.deviceView (t.save + 0x4000) 0x4000).2 (t.save + 0x4000 + 512 * q.val + j)
        else (s.c.v[q]).extractLsb' (8 * j) 8) ∧
      s.takeCap = (s.deviceView (t.save + 0x4000) 0x4000).1.withC
        { s.c with cap := s.c.next, pend := false, v := v, spilled := decide (s.c.next.toNat < s.k.active) } := by
  have hact := active_le s.k
  have hgo : ¬ (!s.c.pend || s.c.thr || ((s.c.lpin || !s.c.settled || s.c.hnd) && decide (s.c.next.toNat < s.c.cap.toNat))) = true := by
    have : ¬ s.c.next.toNat < s.c.cap.toNat := by omega
    simp [hpend, hthr, this]
  obtain ⟨c, hc⟩ : ∃ c : Ctx, c = { s.c with cap := s.c.next, pend := false } := ⟨_, rfl⟩
  have hreload := reload_eq (s := s.withC c) (hi := s.c.next.toNat) (by rw [hc]; exact ht) (by rw [hc]; exact hsp) hlt
  have htake : s.takeCap = (s.withC c).reload s.c.cap.toNat s.c.next.toNat := by
    rw [hc]
    exact (if_neg hgo).trans (if_pos (by omega))
  rw [deviceView_withC] at hreload
  generalize s.deviceView (t.save + 0x4000) 0x4000 = d at hreload ⊢
  have hk : (s.withC c).k = s.k := rfl
  obtain ⟨v, hv, hq⟩ := foldl_wv (laidRow (d.2.withC c) t.save s.c.cap.toNat (min s.c.next.toNat s.k.active - s.c.cap.toNat))
    (d.1.withC c) 32 (le_refl _)
  refine ⟨v, fun q j hj => ?_, ?_⟩
  · have hold : (d.1.withC c).c.v[q] = s.c.v[q] := by rw [hc]; rfl
    have hsum : s.c.cap.toNat + (min s.c.next.toNat s.k.active - s.c.cap.toNat) = min s.c.next.toNat s.k.active := by omega
    rw [hq, if_pos q.isLt, extract_laidRow _ hr (by omega) q.isLt _ hj, hsum, hold,
      byteAt_withC]
  · simp only [hk, hv] at hreload
    rw [htake, hreload, hc]
    rfl

/-! Letting lanes go (R127, R237). -/

theorem onCtx_other {s : State} {g : Nat} (h : g ≠ s.here) (f : Ctx → Ctx) :
    s.onCtx g f = { s with ctxs := tabSet Ctx.reset s.ctxs g (f (s.ctxAt g)) } := if_neg h

theorem wid_onCtx_other {s : State} {g : Nat} (h : g ≠ s.here) (f : Ctx → Ctx) : (s.onCtx g f).wid = s.wid :=
  (congrArg State.wid (onCtx_other h f)).trans rfl

theorem onCtx_self (s : State) (f : Ctx → Ctx) : s.onCtx s.here f = s.withC (f s.c) := by
  rw [State.onCtx, State.putCtx, State.ctxAt, if_pos rfl, if_pos rfl]
  rfl

/-- What context number h = 4 x core + j of the core of context g becomes once lanes of g have returned. -/
def giveBack (g : Nat) (u : State) (j : Nat) : State :=
  if 4 * coreOf g + j ≠ g ∧ (u.ctxAt (4 * coreOf g + j)).taker = some (Fin.ofNat 4 g) then
    u.onCtx (4 * coreOf g + j) fun c => { c with next := 64, pend := c.cap != 64, taker := none }
  else u

theorem foldl_giveBack {u : State} (hw : tabWf Ctx.reset u.ctxs = true) (k : Nat) (hk : k ≤ 4) :
    ∃ T, (List.range k).foldl (giveBack u.here) u = { u with ctxs := T } ∧ tabWf Ctx.reset T = true ∧
      ∀ h, h ≠ u.here → ({ u with ctxs := T } : State).ctxAt h =
        if h % 4 < k then lifted u.here h (u.ctxAt h) else u.ctxAt h := by
  induction k with
  | zero => exact ⟨u.ctxs, rfl, hw, fun h _ => (if_neg (Nat.not_lt_zero _)).symm⟩
  | succ k ih =>
    obtain ⟨T, hT, hwT, hat⟩ := ih (by omega)
    rw [List.range_succ, List.foldl_append, hT, List.foldl_cons, List.foldl_nil]
    have hcore : coreOf (4 * coreOf u.here + k) = coreOf u.here := by unfold coreOf; omega
    have hmod : (4 * coreOf u.here + k) % 4 = k := by omega
    have hold (hne : 4 * coreOf u.here + k ≠ u.here) := (hat _ hne).trans (if_neg (by omega))
    have hnext (h : Nat) (hh : h ≠ u.here) (hk : h % 4 = k → lifted u.here h (u.ctxAt h) = u.ctxAt h) :
        ({ u with ctxs := T } : State).ctxAt h = if h % 4 < k + 1 then lifted u.here h (u.ctxAt h) else u.ctxAt h := by
      rw [hat h hh]
      rcases lt_trichotomy (h % 4) k with h1 | h1 | h1
      · rw [if_pos h1, if_pos (by omega)]
      · rw [if_neg (by omega), if_pos (by omega), hk h1]
      · rw [if_neg (by omega), if_neg (by omega)]
    have hnum (h : Nat) (hc : coreOf h = coreOf u.here) (hm : h % 4 = k) : h = 4 * coreOf u.here + k := by
      unfold coreOf at *
      omega
    unfold giveBack
    split
    · rename_i hgo
      obtain ⟨hne, htaker⟩ := hgo
      refine ⟨tabSet Ctx.reset T (4 * coreOf u.here + k) _, if_neg hne, tabWf_set hwT, fun h hh => ?_⟩
      refine (if_neg hh).trans ((tabGet_set _ _ _ _ _ hwT).trans ?_)
      by_cases h1 : h = 4 * coreOf u.here + k
      · rw [hold hne] at htaker ⊢
        subst h1
        rw [if_pos rfl, if_pos (by omega), lifted, if_pos ⟨hcore, hne, htaker⟩]
      · rw [if_neg h1, ← hnext h hh fun hm => if_neg fun hl => h1 (hnum h hl.1 hm)]
        exact (if_neg hh).symm
    · rename_i hgo
      refine ⟨T, rfl, hwT, fun h hh => hnext h hh fun hm => if_neg fun hl => hgo ?_⟩
      obtain ⟨hc, -, htaker⟩ := hl
      obtain rfl := hnum h hc hm
      exact ⟨hh, by rw [hold hh]; exact htaker⟩

/-- Letting lanes go where none are borrowed. -/
theorem dropLanes_of_own {s : State} (h : ¬ Borrows s.c) : s.dropLanes s.here = s.withC (released s.c) := by
  have hown : (s.ctxAt s.here).borrows = false := by
    rw [State.ctxAt, if_pos rfl]
    exact Bool.eq_false_iff.2 (mt (borrows_eq_true s.c).1 h)
  have hret : s.returnLanes s.here = s := if_pos (by rw [hown]; rfl)
  rw [State.dropLanes, hret, onCtx_self]
  rfl

/-- Letting lanes go that are borrowed: their victim's cap is to lift. -/
theorem dropLanes_of_borrowed {s : State} (h : Borrows s.c) (hw : tabWf Ctx.reset s.ctxs = true) :
    ∃ T, s.dropLanes s.here = { s.onDie s.die (fun x => { x with out := x.out.map (loosed s.here) }) with
        c := { released s.c with lanesBack := true }, ctxs := T } ∧
      ∀ g, g ≠ s.here → ({ s with ctxs := T } : State).ctxAt g = lifted s.here g (s.ctxAt g) := by
  have hbor : ¬ (!(s.ctxAt s.here).borrows) = true := by
    rw [State.ctxAt, if_pos rfl, (borrows_eq_true s.c).2 h]
    decide
  obtain ⟨T, hT, -, hat⟩ := foldl_giveBack (u := s.withC { s.c with lanesBack := true }) hw 4 (le_refl _)
  have hret : s.returnLanes s.here = { s.onDie s.die (fun x => { x with out := x.out.map (loosed s.here) }) with
      c := { s.c with lanesBack := true }, ctxs := T } := by
    refine (if_neg hbor).trans ?_
    rw [onCtx_self]
    exact congrArg (fun u : State => u.onDie s.die fun x => { x with out := x.out.map (loosed s.here) }) hT
  refine ⟨T, ?_, fun g hg => ?_⟩
  · rw [State.dropLanes, hret]
    exact onCtx_self _ _
  · have hctx : (s.withC { s.c with lanesBack := true }).ctxAt g = s.ctxAt g := (if_neg hg).trans (if_neg hg).symm
    have := (hat g hg).trans (if_pos (Nat.mod_lt _ (by decide)))
    rw [hctx] at this
    exact (if_neg hg).trans ((if_neg hg).symm.trans this)

theorem execVrel_of_drained {s : State} (h : Drained s [.vq, .lq, .mq, .aq]) :
    exec .vrel s = .next (s.dropLanes s.here).adv :=
  if_pos (List.all_eq_true.2 h)

/-! What svl does, by its grant point. -/

section
variable {s : State} {rd ra : XReg} {f : Fmt} {b : Blk}

theorem svl_detw (hd : s.c.det = true ∧ s.k.active < s.c.detw.toNat) : exec (.svl rd ra f b) s = .next (s.raise
    { cause := .detw, detail := BitVec.ofNat 56 (s.c.detw.toNat * 2 ^ 49), addr := BitVec.ofNat 64 s.k.active }) := by
  have hdetail : s.c.detw.zeroExtend 56 <<< 49 = BitVec.ofNat 56 (s.c.detw.toNat * 2 ^ 49) := by
    refine BitVec.eq_of_toNat_eq ?_
    simp [Nat.shiftLeft_eq]
  rw [← hdetail]
  exact congrArg Host.Outcome.next (if_pos hd)

variable (hd : ¬ (s.c.det = true ∧ s.k.active < s.c.detw.toNat))
include hd

theorem svl_waits (hv : s.c.vlive = false) : Waits (exec (.svl rd ra f b) s) s .lanes .scu :=
  congrArg Host.Outcome.next ((if_neg hd).trans (if_pos (by simp [hv])))

variable (hs : InScu s) (hv : s.c.vlive = true)
include hv

theorem svl_format_of_stands (hcap : CapStands s.c) : 
    (b ≠ .none → f.isBlock = false → exec (.svl rd ra f b) s = .next (s.raise { cause := .format })) ∧
    (f.isBlock = true → (regained s).wid * 64 / f.width < Blk.len b → exec (.svl rd ra f b) s =
      .next (s.raise { cause := .format, detail := BitVec.ofNat 56 (2 ^ 48) })) := by
  rw [execSvl_eq hd hv, grantPoint_of_stands hcap]
  refine ⟨fun hb hf => ?_, fun hf hlen => ?_⟩
  · rw [svlGrant_of_notBlock hb hf]
    rfl
  · rw [svlGrant_of_short hf hlen]
    rfl

include hs

theorem svl_grants_of_stands (hcap : CapStands s.c) (hg : Grantable (regained s).wid f b) :
    Granted s (regained s) rd ra f b (regained s).wid :=
  granted_of_grantPoint hs hd hv (grantPoint_of_stands hcap) (by obtain ⟨_, _, hr⟩ := regained_eq s; rw [hr]; exact hs) rfl hg

theorem svl_grants_of_falls (hcap : CapFalls s.c) (hg : Grantable (nextWid (regained s)) f b) (hb : BytesOk s) {t : Task} {j : Fin 4}
    (ht : s.c.task = some t) (hr : RecordAt t.save) (hlt : s.c.next.toNat < s.k.active) (hj : s.c.taker = some j)
    (hne : 4 * coreOf s.here + j.val ≠ s.here)
    (htakes : (s.ctxAt (4 * coreOf s.here + j.val)).takes s.k (s.k.active - s.c.next.toNat) = true) :
    ∃ u, MemoryOnly (regained s) u ∧ u.ctxs = s.ctxs ∧ (∀ a, byteAt u a = spilledByte s t.save s.c.next.toNat a) ∧
      Granted s (({ u with c := { (regained s).c with cap := s.c.next, pend := false, spilled := true } }.onCtx
          (4 * coreOf s.here + j.val) fun c =>
            { c with lanesHeld := BitVec.ofNat 8 (s.k.active - s.c.next.toNat), lanesBack := false })) rd ra f b
        (nextWid (regained s)) := by
  obtain ⟨held, back, hreg⟩ := regained_eq s
  have hpoint : s.grantPoint = (regained s).takeCap := rfl
  rw [hreg] at hg hpoint ⊢
  have htakes' : ((s.withC { s.c with lanesHeld := held, lanesBack := back }).ctxAt (4 * coreOf s.here + j.val)).takes s.k
      (s.k.active - s.c.next.toNat) = true := by
    rw [← htakes, State.ctxAt, State.ctxAt, if_neg hne]
    exact congrArg (Ctx.takes · _ _) (if_neg hne)
  have htake := takeCap_of_falls (s := s.withC { s.c with lanesHeld := held, lanesBack := back }) hcap ht hlt hj hne htakes'
  have hbytes (a : Nat) := byteAt_spillRows (s := s.withC { s.c with lanesHeld := held, lanesBack := back })
    (u := s.withC { s.c with lanesHeld := held, lanesBack := back, cap := s.c.next, pend := false, spilled := true })
    (pa := t.save) ⟨hb.1, hb.2.1⟩ hr hlt 32 (le_refl _) (a := a) rfl
  have hstep := spillRows_step (s.withC { s.c with lanesHeld := held, lanesBack := back })
    (s.withC { s.c with lanesHeld := held, lanesBack := back, cap := s.c.next, pend := false, spilled := true })
    t.save s.c.next.toNat (8 * (s.k.active - s.c.next.toNat)) 32
  obtain ⟨⟨mem, tags, bad, assay, chans, pkgs, heq⟩, -⟩ := hstep
  refine ⟨{ s with
      c := { s.c with lanesHeld := held, lanesBack := back }
      mem := mem, tags := tags, bad := bad, assay := assay, chans := chans, pkgs := pkgs },
    ⟨rfl, fun g => ⟨_, _, rfl⟩⟩, rfl, fun a => ?_, ?_⟩
  · refine (byteAt_of_mem ?_ ?_ a).trans ((hbytes a).trans ?_)
    · exact (congrArg State.mem heq).symm
    · exact (congrArg State.tags heq).symm
    · rw [byteAt_withC]
      rfl
  · refine granted_of_grantPoint hs hd hv (hpoint.trans (htake.trans (congrArg (fun u : State => u.onCtx _ _) heq))) ?_ ?_ hg
    · exact (State.putCtx_laneSel _ _ _).trans hs
    · exact wid_onCtx_other (by exact hne) _

theorem svl_grants_of_lift (hpend : s.c.pend = true) (hthr : s.c.thr = false) (hlt : s.c.cap.toNat < min s.c.next.toNat s.k.active)
    (hg : Grantable (nextWid (regained s)) f b) {t : Task} (ht : s.c.task = some t) (hr : RecordAt t.save) (hsp : s.c.spilled = true) :
    ∃ v : Vector (BitVec 4096) 32, (∀ (q : VReg) j, j < 512 → (v[q]).extractLsb' (8 * j) 8 =
        if 8 * s.c.cap.toNat ≤ j ∧ j < 8 * min s.c.next.toNat s.k.active then
          byteAt ((regained s).deviceView (t.save + 0x4000) 0x4000).2 (t.save + 0x4000 + 512 * q.val + j)
        else (s.c.v[q]).extractLsb' (8 * j) 8) ∧
      Granted s { ((regained s).deviceView (t.save + 0x4000) 0x4000).1 with c := { (regained s).c with
          cap := s.c.next, pend := false, v := v, spilled := decide (s.c.next.toNat < s.k.active) } } rd ra f b
        (nextWid (regained s)) := by
  obtain ⟨held, back, hreg⟩ := regained_eq s
  have hpoint : s.grantPoint = (regained s).takeCap := rfl
  rw [hreg] at hg hpoint ⊢
  obtain ⟨v, hv', htake⟩ := takeCap_of_lift (s := s.withC { s.c with lanesHeld := held, lanesBack := back }) hpend hthr hlt ht hr hsp
  refine ⟨v, hv', granted_of_grantPoint hs hd hv (hpoint.trans htake) ?_ ?_ hg⟩
  · exact (deviceView_fst_keeps _ _ _).1.trans hs
  · have hk := (deviceView_fst_keeps (s.withC { s.c with lanesHeld := held, lanesBack := back }) (t.save + 0x4000) 0x4000).2
    exact congrArg (fun k : Core => min (s.c.laneWidth k) (min s.c.next.toNat (Ctx.laneCount { s.c with lanesHeld := held } k))) hk

end

/-- Settles O12: svl grants over what its grant point leaves, each cap and lift by what it moves; the lanes let go in their turn. -/
theorem grantingAndReleasingLanes : Obligations.GrantingAndReleasingLanes := by
  intro s rd ra f b hs
  refine ⟨fun hdet hw => svl_detw ⟨hdet, hw⟩, fun hd => ⟨svl_waits hd, fun hv => ⟨fun hcap => ⟨svl_grants_of_stands hd hs hv hcap, svl_format_of_stands hd hv hcap⟩,
    ?falls, ?lifts⟩⟩, ?binding, ?own, ?borrowed, ?completion⟩
  case falls =>
    intro hcap hg hb t j ht hr hlt hj g n hne hbound hvlive hborrows hdet
    refine svl_grants_of_falls hd hs hv hcap hg hb ht hr hlt hj hne ?_
    exact takes_of_idle hbound hvlive hborrows (by omega) hdet
  case lifts =>
    intro hpend hthr hlt hg t ht hr hsp
    exact ⟨fun hbad => deviceView_of_good _ (by obtain ⟨_, _, hreg⟩ := regained_eq s; rw [hreg]; exact hbad) _ _, svl_grants_of_lift hd hs hv hpend hthr hlt hg ht hr hsp⟩
  case binding => exact fun hw => congrArg Host.Outcome.next (if_pos hw)
  case own =>
    intro hown hdrained
    rw [execVrel_of_drained hdrained, dropLanes_of_own hown, State.adv_of_scu _ (by exact hs)]
    rfl
  case borrowed =>
    intro hbor hw hdrained
    obtain ⟨T, hT, hat⟩ := dropLanes_of_borrowed hbor hw
    refine ⟨_, execVrel_of_drained hdrained, ?_, fun h hh => ?_⟩
    · rw [hT, State.adv_of_scu _ (by exact hs)]
      rfl
    · rw [hT, State.adv_of_scu _ (by exact hs), ← hat h hh]
      exact (if_neg hh).trans (if_neg hh).symm
  case completion =>
    intro qs hw hdrained
    refine congrArg Host.Outcome.next ?_
    rw [hw]
    exact if_pos (List.all_eq_true.2 hdrained)

end Sys2Proof.Machine
end

