-- ==== Sys2Proof/Proofs/UnitsKept.lean ====
section
/-! What the parts of a supervisor's service leave of contexts and dies: nothing, or contexts but for a watch event and a lift. -/

namespace Sys2Proof.Machine

/-- The tables of contexts and of dies stand in canonical form. -/
def UnitsWf (s : State) : Prop := tabWf Ctx.reset s.ctxs = true ∧ tabWf Die.reset s.dies = true

/-! Operations that change no context and no die. -/

/-- Every context and every die is as it was, and the host has heard nothing. -/
structure SameUnits (s t : State) : Prop where
  here : t.here = s.here
  host : t.host = s.host
  dies : t.dies = s.dies
  wf : UnitsWf s → UnitsWf t
  ctxAt : UnitsWf s → ∀ g, t.ctxAt g = s.ctxAt g

theorem SameUnits.refl (s : State) : SameUnits s s := ⟨rfl, rfl, rfl, id, fun _ _ => rfl⟩

theorem SameUnits.trans {s t u : State} (h : SameUnits s t) (k : SameUnits t u) : SameUnits s u :=
  ⟨k.here.trans h.here, k.host.trans h.host, k.dies.trans h.dies, k.wf ∘ h.wf,
    fun hw g => (k.ctxAt (h.wf hw) g).trans (h.ctxAt hw g)⟩

theorem SameUnits.dieAt {s t : State} (h : SameUnits s t) (d : Nat) : t.dieAt d = s.dieAt d := by
  rw [State.dieAt, h.dies]
  rfl

/-- An operation that leaves the context in hand and the tables alone. -/
theorem SameUnits.of_fields {s t : State} (here : t.here = s.here) (host : t.host = s.host) (c : t.c = s.c) (ctxs : t.ctxs = s.ctxs)
    (dies : t.dies = s.dies) : SameUnits s t :=
  ⟨here, host, dies, fun hw => by rwa [UnitsWf, ctxs, dies], fun _ g => by rw [State.ctxAt, State.ctxAt, here, c, ctxs]⟩

theorem MemStep.sameUnits {s t : State} (h : MemStep s t) : SameUnits s t := by
  obtain ⟨⟨_, _, _, _, _, _, rfl⟩, -⟩ := h
  exact .of_fields rfl rfl rfl rfl rfl

theorem foldl_sameUnits {α : Type} {f : State → α → State} (hf : ∀ s a, SameUnits s (f s a)) (l : List α) :
    ∀ s : State, SameUnits s (l.foldl f s) := by
  induction l with
  | nil => exact .refl
  | cons a t ih => exact fun s => (hf s a).trans (ih _)

theorem onCluster_sameUnits (s : State) (n : Nat) (f : Cluster → Cluster) : SameUnits s (s.onCluster n f) :=
  .of_fields rfl rfl rfl rfl rfl

theorem putCore_sameUnits (s : State) (n : Nat) (k : Core) : SameUnits s (s.putCore n k) :=
  .of_fields (by simp) (by simp) (by simp) (by simp) (by simp)

theorem count_sameUnits (s : State) (p : Nat) (c : Count) (u n : Nat) : SameUnits s (s.count p c u n) := (count_step s p c u n).sameUnits

theorem withBad_sameUnits (s : State) (b : Tab Bad) : SameUnits s { s with bad := b } := .of_fields rfl rfl rfl rfl rfl

theorem clearBytes_sameUnits (s : State) (pa n : Nat) : SameUnits s (s.clearBytes pa n) :=
  SameUnits.trans ((wake_step s Lay.plain pa n).trans (writeUnits_if_step _ _ _ _ _)).sameUnits (.of_fields rfl rfl rfl rfl rfl)

theorem freeMatrix_sameUnits (s : State) (g : Nat) : SameUnits s (s.freeMatrix g) := putCore_sameUnits _ _ _

theorem settleCore_sameUnits (s : State) (k : Nat) : SameUnits s (s.settleCore k) := by
  have counts (p x : Nat) (l : List (Fin 64)) (t : State) :
      SameUnits t (l.foldl (fun t i => t.count p .laneRetired (laneKey k x i.val) 1) t) :=
    foldl_sameUnits (fun _ _ => count_sameUnits _ _ _ _ _) l t
  simp only [State.settleCore]
  split
  · exact .refl s
  · refine (counts (k / 512) (s.coreAt k).phys (s.coreAt k).retiring s).trans ?_
    split
    · exact putCore_sameUnits _ _ _
    · split
      · exact (putCore_sameUnits _ _ _).trans (count_sameUnits _ _ _ _ _)
      · refine SameUnits.trans ?_ (count_sameUnits _ _ _ _ _)
        exact (putCore_sameUnits _ _ _).trans ((onCluster_sameUnits _ _ _).trans
          ((withBad_sameUnits _ _).trans (clearBytes_sameUnits _ _ _)))

theorem devPut_sameUnits (s : State) (pa : Nat) (bs : List Byte) : SameUnits s (s.devPut pa bs) := by
  unfold State.devPut
  split
  · exact (putBytes_step _ _ _ _ _).sameUnits
  · exact .refl s

theorem completionRecord_sameUnits (s : State) (die : Nat) (n : BitVec 32) (image qctx : BitVec 512) (dig fire : Word) (st : BitVec 8)
    (late : Bool) (frozen : Nat) : SameUnits s (s.completionRecord die n image qctx dig fire st late frozen) := by
  simp only [State.completionRecord]
  refine SameUnits.trans ?_ (devPut_sameUnits _ _ _)
  split
  · exact count_sameUnits _ _ _ _ _
  · exact .refl s

/-- What the device reads for itself changes no context and no die. -/
theorem deviceView_sameUnits (s : State) (pa n : Nat) : SameUnits s (s.deviceView pa n).1 := by
  have unit (r : State × State) (u : Nat) : SameUnits r.1 (viewUnit r u).1 := by
    have h := (readUnit_step r.1 Lay.plain u).sameUnits
    unfold viewUnit
    split
    · rename_i heq
      rwa [heq] at h
    · rename_i heq
      rw [heq] at h
      exact h.trans (.of_fields rfl rfl rfl rfl rfl)
  have fold (l : List Nat) : ∀ r : State × State, SameUnits r.1 (l.foldl viewUnit r).1 := by
    induction l with
    | nil => exact fun r => .refl r.1
    | cons u l ih => exact fun r => (unit r u).trans (ih _)
  rw [deviceView_eq]
  split
  · exact (wake_step _ _ _ _).sameUnits
  · exact (wake_step s Lay.plain pa n).sameUnits.trans (fold _ (s.wake Lay.plain pa n, s.wake Lay.plain pa n))

theorem readLines_sameUnits (s : State) (o : OutTask) : SameUnits s (s.readLines o).1 := by
  simp only [State.readLines]
  split
  · exact .refl s
  · exact deviceView_sameUnits _ _ _

/-! Another context taken in hand. -/

theorem focus_here (s : State) (g : Nat) : (s.focus g).here = g := by
  unfold State.focus
  split
  · rename_i h
    exact h.symm
  · rfl

theorem focus_host (s : State) (g : Nat) : (s.focus g).host = s.host := by unfold State.focus; split <;> rfl
theorem focus_dies (s : State) (g : Nat) : (s.focus g).dies = s.dies := by unfold State.focus; split <;> rfl
theorem focus_mem (s : State) (g : Nat) : (s.focus g).mem = s.mem := by unfold State.focus; split <;> rfl

theorem focus_ctxs_wf {s : State} (h : tabWf Ctx.reset s.ctxs = true) (g : Nat) : tabWf Ctx.reset (s.focus g).ctxs = true := by
  unfold State.focus
  split
  · exact h
  · exact tabWf_del (tabWf_set h)

theorem focus_cores_wf {s : State} (h : tabWf Core.reset s.cores = true) (g : Nat) : tabWf Core.reset (s.focus g).cores = true := by
  unfold State.focus
  split
  · exact h
  · exact tabWf_del (tabWf_set h)

theorem ctxAt_focus {s : State} (h : tabWf Ctx.reset s.ctxs = true) (g n : Nat) : (s.focus g).ctxAt n = s.ctxAt n := by
  unfold State.focus
  split
  · rfl
  · rename_i hg
    have hget := tabGet_set Ctx.reset s.ctxs s.here n s.c h
    unfold State.ctxAt
    by_cases hn : n = g
    · subst hn
      rw [if_neg hg] at hget ⊢
      exact (if_pos rfl).trans hget
    · refine (if_neg hn).trans ((tabGet_del_other _ _ hn (tabWf_set h)).trans hget)

theorem coreAt_focus {s : State} (h : tabWf Core.reset s.cores = true) (g n : Nat) : (s.focus g).coreAt n = s.coreAt n := by
  unfold State.focus
  split
  · rfl
  · have hget := tabGet_set Core.reset s.cores (coreOf s.here) n s.k h
    unfold State.coreAt
    by_cases hn : n = coreOf g
    · subst hn
      exact (if_pos rfl).trans hget
    · exact (if_neg hn).trans ((tabGet_del_other _ _ hn (tabWf_set h)).trans hget)

theorem focus_units (s : State) (hw : UnitsWf s) (g : Nat) : UnitsWf (s.focus g) :=
  ⟨focus_ctxs_wf hw.1 g, by rw [focus_dies]; exact hw.2⟩

theorem save_sameUnits (s : State) (pa : Nat) (frozen : Bool) : SameUnits s (s.save pa frozen) :=
  ((clearBytes_sameUnits s _ _).trans (clearBytes_sameUnits _ _ _)).trans
    (foldl_sameUnits (fun _ _ => (putBytes_step _ _ _ _ _).sameUnits) _ _)

theorem saveCtx_sameUnits (s : State) (g : Nat) (frozen : Bool) : SameUnits s (s.saveCtx g frozen) := by
  unfold State.saveCtx
  split
  · exact .refl s
  · rename_i t ht
    have hsave := save_sameUnits (s.focus g) t.save frozen
    refine ⟨focus_here _ _, ?_, ?_, fun hw => focus_units _ (hsave.wf (focus_units s hw g)) _, fun hw n => ?_⟩
    · exact (focus_host _ _).trans (hsave.host.trans (focus_host _ _))
    · exact (focus_dies _ _).trans (hsave.dies.trans (focus_dies _ _))
    · have hw1 := focus_units s hw g
      rw [ctxAt_focus (hsave.wf hw1).1, hsave.ctxAt hw1, ctxAt_focus hw.1]

/-! Operations that leave contexts alone but for a watch event and a lift. -/

theorem LeftAlone.refl (c : Ctx) : LeftAlone c c := ⟨c.event, c.lost, c.next, c.pend, c.taker, rfl⟩

theorem LeftAlone.trans {a b c : Ctx} (h : LeftAlone a b) (k : LeftAlone b c) : LeftAlone a c := by
  obtain ⟨_, _, _, _, _, rfl⟩ := h
  obtain ⟨e, n, nx, p, tk, rfl⟩ := k
  exact ⟨e, n, nx, p, tk, rfl⟩

theorem LeftAlone.task {c d : Ctx} (h : LeftAlone c d) : d.task = c.task := by obtain ⟨_, _, _, _, _, rfl⟩ := h; rfl
theorem LeftAlone.status {c d : Ctx} (h : LeftAlone c d) : d.status = c.status := by obtain ⟨_, _, _, _, _, rfl⟩ := h; rfl
theorem LeftAlone.gen {c d : Ctx} (h : LeftAlone c d) : d.gen = c.gen := by obtain ⟨_, _, _, _, _, rfl⟩ := h; rfl
theorem LeftAlone.charge {c d : Ctx} (h : LeftAlone c d) : d.charge = c.charge := by obtain ⟨_, _, _, _, _, rfl⟩ := h; rfl
theorem LeftAlone.borrows {c d : Ctx} (h : LeftAlone c d) : d.borrows = c.borrows := by obtain ⟨_, _, _, _, _, rfl⟩ := h; rfl

/-- Every die is as it was, every context left alone, and the host has heard nothing. -/
structure CtxsAlone (s t : State) : Prop where
  here : t.here = s.here
  host : t.host = s.host
  dies : t.dies = s.dies
  wf : UnitsWf s → UnitsWf t
  ctxAt : UnitsWf s → ∀ g, LeftAlone (s.ctxAt g) (t.ctxAt g)

theorem SameUnits.ctxsAlone {s t : State} (h : SameUnits s t) : CtxsAlone s t :=
  ⟨h.here, h.host, h.dies, h.wf, fun hw g => h.ctxAt hw g ▸ LeftAlone.refl _⟩

theorem CtxsAlone.trans {s t u : State} (h : CtxsAlone s t) (k : CtxsAlone t u) : CtxsAlone s u :=
  ⟨k.here.trans h.here, k.host.trans h.host, k.dies.trans h.dies, k.wf ∘ h.wf,
    fun hw g => (h.ctxAt hw g).trans (k.ctxAt (h.wf hw) g)⟩

theorem foldl_ctxsAlone {α : Type} {f : State → α → State} (hf : ∀ s a, CtxsAlone s (f s a)) (l : List α) :
    ∀ s : State, CtxsAlone s (l.foldl f s) := by
  induction l with
  | nil => exact fun s => (SameUnits.refl s).ctxsAlone
  | cons a t ih => exact fun s => (hf s a).trans (ih _)

theorem noteWrite_leftAlone (c : Ctx) (g : Nat) (a : Agent) (pa len : Nat) : LeftAlone c (c.noteWrite g a pa len) := by
  obtain ⟨e, l, h⟩ := noteWrite_ctx c g a pa len
  exact ⟨e, l, _, _, _, h⟩

/-- A context that watches is not at reset after a watch event. -/
theorem noteWrite_ne_reset {c : Ctx} (hc : c ≠ Ctx.reset) (g : Nat) (a : Agent) (pa len : Nat) : c.noteWrite g a pa len ≠ Ctx.reset := by
  by_cases hw : c.watchctl = 0
  · have : c.noteWrite g a pa len = c := if_pos (by simp [hw])
    rwa [this]
  · obtain ⟨e, l, h⟩ := noteWrite_ctx c g a pa len
    intro he
    have hctl : c.watchctl = Ctx.reset.watchctl := by rw [← he, h]
    exact hw hctl

theorem noteWrite_reset (g : Nat) (a : Agent) (pa len : Nat) : Ctx.reset.noteWrite g a pa len = Ctx.reset := if_pos rfl

theorem tabWf_mapKeyed {α : Type} [DecidableEq α] {d : α} {f : Nat → α → α} (hf : ∀ k v, v ≠ d → f k v ≠ d) {t : Tab α}
    (h : tabWf d t = true) : tabWf d (t.map fun e => (e.1, f e.1 e.2)) = true := by
  induction t with
  | nil => rfl
  | cons p t ih =>
    simp only [tabWf, Bool.and_eq_true, decide_eq_true_eq, List.map_cons] at h ⊢
    exact ⟨⟨hf _ _ h.1.1, tabAbove_map (fun e => f e.1 e.2) h.1.2⟩, ih h.2⟩

theorem tabGet_mapKeyed {α : Type} {d : α} {f : Nat → α → α} (hf : ∀ k, f k d = d) (t : Tab α) (k : Nat) :
    tabGet d (t.map fun e => (e.1, f e.1 e.2)) k = f k (tabGet d t k) := by
  induction t with
  | nil => exact (hf k).symm
  | cons p t ih =>
    simp only [List.map_cons, tabGet]
    split
    · exact (hf k).symm
    · split
      · rename_i h
        rw [h]
      · exact ih

theorem write_ctxsAlone (s : State) (a : Agent) (lay : Lay) (pa : Nat) (bs : List Byte) : CtxsAlone s (s.write a lay pa bs) := by
  have hput := putBytes_step s (a.assayAt pa) lay pa bs
  have hsame := hput.sameUnits
  have hctxs : (s.write a lay pa bs).ctxs = s.ctxs.map fun e => (e.1, e.2.noteWrite e.1 (a.seenAt pa) pa bs.length) := by
    rw [← hput.ctxs]
    rfl
  have hc : (s.write a lay pa bs).c = s.c.noteWrite s.here (a.seenAt pa) pa bs.length := by
    rw [← hput.c, ← hput.here]
    rfl
  refine ⟨hput.here, hsame.host, hput.dies, fun hw => ⟨?_, ?_⟩, fun hw g => ?_⟩
  · rw [hctxs]
    exact tabWf_mapKeyed (f := fun k (c : Ctx) => c.noteWrite k (a.seenAt pa) pa bs.length) (fun k c hc => noteWrite_ne_reset hc _ _ _ _) hw.1
  · exact (congrArg (tabWf Die.reset) hput.dies).trans hw.2
  · have hhere : (s.write a lay pa bs).here = s.here := hput.here
    unfold State.ctxAt
    rw [hhere, hc, hctxs,
      tabGet_mapKeyed (f := fun k (c : Ctx) => c.noteWrite k (a.seenAt pa) pa bs.length) (fun k => noteWrite_reset _ _ _ _)]
    split <;> exact noteWrite_leftAlone _ _ _ _ _

theorem release_ctxsAlone (s : State) (g : Nat) (l : HeldLine) : CtxsAlone s (s.release g l) :=
  foldl_ctxsAlone (fun _ _ => write_ctxsAlone _ _ _ _ _) _ s

end Sys2Proof.Machine
end

