-- ==== Sys2Proof/Proofs/EndingTasks.lean ====
section
/-! Ending tasks: what freeing a context, the end of a record and the end of a dig leave, and leave alone (R230, R289, R298). -/

namespace Sys2Proof.Machine

theorem putCtx_units {s : State} (h : UnitsWf s) (g : Nat) (c : Ctx) : UnitsWf (s.putCtx g c) := by
  refine ⟨?_, by rw [State.putCtx_dies]; exact h.2⟩
  unfold State.putCtx
  split
  · exact h.1
  · exact tabWf_set h.1

theorem onDie_units {s : State} (h : UnitsWf s) (n : Nat) (f : Die → Die) : UnitsWf (s.onDie n f) := ⟨h.1, tabWf_set h.2⟩

/-! Operations that change one die and no context. -/

/-- One die alone has changed, as D says; no context has, and the host has heard nothing. -/
structure DieOnly (die : Nat) (D : Die → Die → Prop) (s t : State) : Prop where
  here : t.here = s.here
  host : t.host = s.host
  wf : UnitsWf s → UnitsWf t
  ctxAt : UnitsWf s → ∀ g, t.ctxAt g = s.ctxAt g
  changed : UnitsWf s → D (s.dieAt die) (t.dieAt die)
  others : UnitsWf s → ∀ d, d ≠ die → t.dieAt d = s.dieAt d

section
variable {die : Nat} {D : Die → Die → Prop}

theorem SameUnits.dieOnly {s t : State} (h : SameUnits s t) (hD : ∀ x, D x x) : DieOnly die D s t :=
  ⟨h.here, h.host, h.wf, h.ctxAt, fun _ => h.dieAt die ▸ hD _, fun _ d _ => h.dieAt d⟩

theorem DieOnly.trans {s t u : State} (h : DieOnly die D s t) (k : DieOnly die D t u) (hD : ∀ x y z, D x y → D y z → D x z) :
    DieOnly die D s u :=
  ⟨k.here.trans h.here, k.host.trans h.host, k.wf ∘ h.wf, fun hw g => (k.ctxAt (h.wf hw) g).trans (h.ctxAt hw g),
    fun hw => hD _ _ _ (h.changed hw) (k.changed (h.wf hw)), fun hw d hd => (k.others (h.wf hw) d hd).trans (h.others hw d hd)⟩

theorem onDie_dieOnly (s : State) {f : Die → Die} (hf : D (s.dieAt die) (f (s.dieAt die))) : DieOnly die D s (s.onDie die f) :=
  ⟨rfl, rfl, fun hw => onDie_units hw _ _, fun _ _ => rfl, fun hw => by rw [State.dieAt_onDie _ _ _ hw.2, if_pos rfl]; exact hf,
    fun hw d hd => by rw [State.dieAt_onDie _ _ _ hw.2, if_neg hd]⟩

theorem foldl_dieOnly (hD : ∀ x, D x x) (hT : ∀ x y z, D x y → D y z → D x z) {α : Type} {f : State → α → State} (l : List α)
    (hf : ∀ s, ∀ a ∈ l, DieOnly die D s (f s a)) : ∀ s : State, DieOnly die D s (l.foldl f s) := by
  induction l with
  | nil => exact fun s => (SameUnits.refl s).dieOnly hD
  | cons a t ih => exact fun s => (hf s a (.head _)).trans (ih (fun s b hb => hf s b (.tail _ hb)) _) hT

end

/-- A die of which fired records and save records alone have changed. -/
def SettledDie (x y : Die) : Prop := ∃ ls pool, y = { x with launches := ls, pool := pool }

theorem SettledDie.refl (x : Die) : SettledDie x x := ⟨x.launches, x.pool, rfl⟩

theorem SettledDie.trans (x y z : Die) (h : SettledDie x y) (k : SettledDie y z) : SettledDie x z := by
  obtain ⟨_, _, rfl⟩ := h
  obtain ⟨ls, pool, rfl⟩ := k
  exact ⟨ls, pool, rfl⟩

/-- A change of a fired record, and its end, change no other part of the die. -/
theorem onLaunch_dieOnly (s : State) (die q : Nat) (n : BitVec 32) (f : Launch → Launch) :
    DieOnly die SettledDie s (s.onLaunch die q n f) := by
  have settle (u : State) (l : Launch) : DieOnly die SettledDie u (u.settleLaunch die l) := by
    simp only [State.settleLaunch]
    split
    · exact (SameUnits.refl u).dieOnly .refl
    · exact (onDie_dieOnly u ⟨_, _, rfl⟩).trans ((completionRecord_sameUnits _ _ _ _ _ _ _ _ _ _).dieOnly .refl) SettledDie.trans
  simp only [State.onLaunch]
  split
  · exact (SameUnits.refl s).dieOnly .refl
  · exact (onDie_dieOnly s ⟨_, _, rfl⟩).trans (settle _ _) SettledDie.trans

/-- A die of which the COLL commands alone have changed. -/
def CollDie (x y : Die) : Prop := ∃ cl, y = { x with coll := cl } ∧ (x.coll = [] → cl = [])

theorem CollDie.refl (x : Die) : CollDie x x := ⟨x.coll, rfl, id⟩

theorem CollDie.trans (x y z : Die) (h : CollDie x y) (k : CollDie y z) : CollDie x z := by
  obtain ⟨_, rfl, h⟩ := h
  obtain ⟨cl, rfl, k⟩ := k
  exact ⟨cl, rfl, k ∘ h⟩

theorem finishColl_dieOnly (s : State) (c : Cmd) (r : Result) : DieOnly (dieOf c.ctx) CollDie s (s.finishCmd .coll c r) :=
  onDie_dieOnly s (f := fun x => { x with coll := putCmd (s.engine c.ctx .coll) { c with started := true, result := some r } })
    ⟨_, rfl, fun h => congrArg (putCmd · { c with started := true, result := some r }) (show s.engine c.ctx .coll = [] from h)⟩

/-! Letting lanes go, and the contexts of a die that are left. -/

theorem giveBack_ctxsAlone (g : Nat) (u : State) (j : Nat) : CtxsAlone u (giveBack g u j) := by
  unfold giveBack
  split
  · refine ⟨State.putCtx_here .., State.putCtx_host .., State.putCtx_dies .., fun hw => putCtx_units hw _ _, fun hw h => ?_⟩
    rw [State.onCtx, State.ctxAt_putCtx _ _ _ hw.1]
    split
    · rename_i heq
      rw [heq]
      exact ⟨_, _, _, _, _, rfl⟩
    · exact .refl _
  · exact (SameUnits.refl u).ctxsAlone

/-- What the return of the lanes of context g leaves of the tasks switched out (R236). -/
def returned (s : State) (g : Nat) : OutTask → OutTask := if (s.ctxAt g).borrows then loosed g else id

theorem returned_task (s : State) (g : Nat) (o : OutTask) : (returned s g o).task = o.task ∧ (returned s g o).ctx = o.ctx := by
  unfold returned
  split
  · unfold loosed
    split <;> exact ⟨rfl, rfl⟩
  · exact ⟨rfl, rfl⟩

/-- Context g alone may have changed in more than a watch event or a lift; of its die what D says has, of others nothing. -/
structure CtxAndDie (g die : Nat) (D : Die → Die → Prop) (s t : State) : Prop where
  here : t.here = s.here
  host : t.host = s.host
  wf : UnitsWf t
  alone : ∀ h, h ≠ g → LeftAlone (s.ctxAt h) (t.ctxAt h)
  changed : D (s.dieAt die) (t.dieAt die)
  others : ∀ d, d ≠ die → t.dieAt d = s.dieAt d

section
variable {g die : Nat} {D : Die → Die → Prop} {s t : State}

theorem CtxsAlone.ctxAndDie (h : CtxsAlone s t) (hw : UnitsWf s) (hD : ∀ x, D x x) : CtxAndDie g die D s t :=
  have hdie (d : Nat) : t.dieAt d = s.dieAt d := by rw [State.dieAt, h.dies]; rfl
  ⟨h.here, h.host, h.wf hw, fun n _ => h.ctxAt hw n, by rw [hdie]; exact hD _, fun d _ => hdie d⟩

theorem DieOnly.ctxAndDie (h : DieOnly die D s t) (hw : UnitsWf s) : CtxAndDie g die D s t :=
  ⟨h.here, h.host, h.wf hw, fun n _ => h.ctxAt hw n ▸ .refl _, h.changed hw, h.others hw⟩

theorem putCtx_ctxAndDie (hw : UnitsWf s) (hD : ∀ x, D x x) (c : Ctx) : CtxAndDie g die D s (s.putCtx g c) :=
  have hdie (d : Nat) : (s.putCtx g c).dieAt d = s.dieAt d := by rw [State.dieAt, State.putCtx_dies]; rfl
  ⟨State.putCtx_here .., State.putCtx_host .., putCtx_units hw _ _,
    fun h hh => by rw [State.ctxAt_putCtx _ _ _ hw.1, if_neg hh]; exact .refl _, by rw [hdie]; exact hD _, fun d _ => hdie d⟩

theorem CtxAndDie.trans {E F : Die → Die → Prop} {u : State} (h : CtxAndDie g die D s t) (k : CtxAndDie g die E t u)
    (hT : ∀ x y z, D x y → E y z → F x z) : CtxAndDie g die F s u :=
  ⟨k.here.trans h.here, k.host.trans h.host, k.wf, fun n hn => (h.alone n hn).trans (k.alone n hn), hT _ _ _ h.changed k.changed,
    fun d hd => (k.others d hd).trans (h.others d hd)⟩

end

/-- A die of which the tasks switched out alone have changed, as f says. -/
def OutDie (f : OutTask → OutTask) (x y : Die) : Prop := y = { x with out := x.out.map f }

theorem returnLanes_of_own {s : State} {g : Nat} (h : (s.ctxAt g).borrows = false) : s.returnLanes g = s :=
  if_pos (by rw [h]; rfl)

theorem returnLanes_of_borrows {s : State} {g : Nat} (h : (s.ctxAt g).borrows = true) : s.returnLanes g =
    ((List.range 4).foldl (giveBack g) (s.onCtx g fun c => { c with lanesBack := true })).onDie (dieOf g)
      fun x => { x with out := x.out.map (loosed g) } := if_neg (by rw [h]; decide)

theorem returnLanes_ctxAndDie {s : State} (hw : UnitsWf s) (g : Nat) :
    CtxAndDie g (dieOf g) (OutDie (returned s g)) s (s.returnLanes g) := by
  by_cases hb : (s.ctxAt g).borrows = true
  · rw [returnLanes_of_borrows hb, returned, if_pos hb]
    have hput := putCtx_ctxAndDie (g := g) (die := dieOf g) (D := Eq) hw (fun _ => rfl) { s.ctxAt g with lanesBack := true }
    have hgive := foldl_ctxsAlone (giveBack_ctxsAlone g) (List.range 4) (s.onCtx g fun c => { c with lanesBack := true })
    have hfold := hput.trans (hgive.ctxAndDie hput.wf (D := Eq) fun _ => rfl) fun _ _ _ h k => h.trans k
    have hloose (u : State) : DieOnly (dieOf g) (OutDie (loosed g)) u (u.onDie (dieOf g) fun x => { x with out := x.out.map (loosed g) }) :=
      onDie_dieOnly u rfl
    exact hfold.trans ((hloose _).ctxAndDie hfold.wf) fun _ _ _ h k => h ▸ k
  · rw [returnLanes_of_own (Bool.eq_false_iff.2 hb), returned, if_neg hb]
    exact (SameUnits.refl s).ctxsAlone.ctxAndDie hw fun x => by simp [OutDie]

/-! Context g freed (R230, R289). -/

/-- Held stores of context g that are performed leave it the other registers. -/
theorem releaseAll_spec {s : State} (hw : UnitsWf s) (g : Nat) :
    CtxAndDie g (dieOf g) Eq s (s.releaseAll g) ∧ ∃ ln, LeftAlone { s.ctxAt g with lines := ln } ((s.releaseAll g).ctxAt g) := by
  have hput := putCtx_ctxAndDie (g := g) (die := dieOf g) (D := Eq) hw (fun _ => rfl)
    { s.ctxAt g with lines := (s.ctxAt g).lines.filter fun _ => false }
  have hrel := foldl_ctxsAlone (fun t l => release_ctxsAlone t g l) ((s.ctxAt g).lines.filter fun _ => true)
    (s.onCtx g fun c => { c with lines := (s.ctxAt g).lines.filter fun _ => false })
  refine ⟨hput.trans (hrel.ctxAndDie hput.wf (D := Eq) fun _ => rfl) fun _ _ _ h k => h.trans k,
    (s.ctxAt g).lines.filter fun _ => false, ?_⟩
  have hself := hrel.ctxAt hput.wf g
  rwa [State.onCtx, State.ctxAt_putCtx _ _ _ hw.1, if_pos rfl] at hself

/-- A die from which the task of a context has gone: its records' accounts, and the tasks switched out as f says. -/
def LeftDie (f : OutTask → OutTask) (x y : Die) : Prop := ∃ ls pool, y = { x with launches := ls, pool := pool, out := x.out.map f }

theorem freeCtx_spec {s : State} (hw : UnitsWf s) (g : Nat) (frozen : Bool) (f : Launch → Launch) :
    CtxAndDie g (dieOf g) (LeftDie (returned s g)) s (s.freeCtx g frozen f) ∧
      (s.freeCtx g frozen f).ctxAt g = { Ctx.reset with gen := (s.ctxAt g).gen + 1, charge := (s.ctxAt g).charge } := by
  have hret := returnLanes_ctxAndDie hw g
  have hput := putCtx_ctxAndDie (g := g) (die := dieOf g) (D := Eq) hret.wf (fun _ => rfl)
    { Ctx.reset with gen := (s.ctxAt g).gen + 1, charge := (s.ctxAt g).charge }
  have hlaunch : DieOnly (dieOf g) SettledDie
      ((s.returnLanes g).putCtx g { Ctx.reset with gen := (s.ctxAt g).gen + 1, charge := (s.ctxAt g).charge }) (s.freeCtx g frozen f) := by
    simp only [State.freeCtx]
    refine DieOnly.trans ?_ ((settleCore_sameUnits _ _).dieOnly .refl) SettledDie.trans
    split
    · exact (SameUnits.refl _).dieOnly .refl
    · exact onLaunch_dieOnly _ _ _ _ _
  refine ⟨(hret.trans hput (F := OutDie (returned s g)) fun _ _ _ h k => k ▸ h).trans (hlaunch.ctxAndDie hput.wf) ?_, ?_⟩
  · rintro x y z rfl ⟨ls, pool, rfl⟩
    exact ⟨ls, pool, rfl⟩
  · rw [hlaunch.ctxAt hput.wf, State.ctxAt_putCtx _ _ _ hret.wf.1, if_pos rfl]

/-- The supervisor ends the task of a context: the context is freed, the others and the rest of its die are left. -/
theorem killCtx_spec {s : State} (hw : UnitsWf s) (g : Nat) (frozen : Bool) (f : Launch → Launch) :
    CtxAndDie g (dieOf g) (LeftDie (returned s g)) s (s.killCtx g frozen f) ∧
      (s.killCtx g frozen f).ctxAt g = { Ctx.reset with gen := (s.ctxAt g).gen + 1, charge := (s.ctxAt g).charge } := by
  have hsave := saveCtx_sameUnits s g frozen
  obtain ⟨hrel, ln, hself⟩ := releaseAll_spec (hsave.wf hw) g
  have hfree := freeMatrix_sameUnits ((s.saveCtx g frozen).releaseAll g) g
  obtain ⟨hend, hreset⟩ := freeCtx_spec (hfree.wf hrel.wf) g frozen f
  rw [hsave.ctxAt hw] at hself
  have hctx : (((s.saveCtx g frozen).releaseAll g).freeMatrix g).ctxAt g = ((s.saveCtx g frozen).releaseAll g).ctxAt g :=
    hfree.ctxAt hrel.wf g
  have hreturned : returned (((s.saveCtx g frozen).releaseAll g).freeMatrix g) g = returned s g := by
    rw [returned, hctx, hself.borrows]
    rfl
  have h1 := (hsave.ctxsAlone.ctxAndDie hw (g := g) (die := dieOf g) (D := Eq) fun _ => rfl).trans hrel (F := Eq)
    fun _ _ _ h k => h.trans k
  have h2 := h1.trans (hfree.ctxsAlone.ctxAndDie h1.wf (D := Eq) fun _ => rfl) (F := Eq) fun _ _ _ h k => h.trans k
  refine ⟨h2.trans (hreturned ▸ hend) fun _ _ _ h k => h ▸ k, ?_⟩
  exact hreset.trans (by rw [hctx, hself.gen, hself.charge])

/-! Tasks of a die ended (R298). -/

/-- Contexts that P picks may hold no task any more, the others are left alone; of the die its records' accounts have changed, and
tasks switched out have gone. -/
structure Ends (die : Nat) (P : Nat → Prop) (s t : State) : Prop where
  here : t.here = s.here
  host : t.host = s.host
  wf : UnitsWf t
  ctxs : ∀ g, LeftAlone (s.ctxAt g) (t.ctxAt g) ∨ P g ∧ (t.ctxAt g).task = none
  changed : ∃ ls out pool, t.dieAt die = { s.dieAt die with launches := ls, out := out, pool := pool }
  outs : ∀ o ∈ (t.dieAt die).out, ∃ o' ∈ (s.dieAt die).out, o'.task = o.task ∧ o'.ctx = o.ctx
  others : ∀ d, d ≠ die → t.dieAt d = s.dieAt d

section
variable {die : Nat} {P : Nat → Prop} {s t : State}

theorem Ends.refl (hw : UnitsWf s) : Ends die P s s :=
  ⟨rfl, rfl, hw, fun _ => .inl (.refl _), ⟨_, _, _, rfl⟩, fun o ho => ⟨o, ho, rfl, rfl⟩, fun _ _ => rfl⟩

theorem Ends.trans {u : State} (h : Ends die P s t) (k : Ends die P t u) : Ends die P s u where
  here := k.here.trans h.here
  host := k.host.trans h.host
  wf := k.wf
  ctxs g := by
    rcases h.ctxs g with h1 | ⟨hp, h1⟩
    · exact (k.ctxs g).imp_left h1.trans
    · rcases k.ctxs g with k1 | k1
      · exact .inr ⟨hp, k1.task.trans h1⟩
      · exact .inr k1
  changed := by
    obtain ⟨_, _, _, h1⟩ := h.changed
    obtain ⟨ls, out, pool, k1⟩ := k.changed
    exact ⟨ls, out, pool, by rw [k1, h1]⟩
  outs o ho := by
    obtain ⟨o1, ho1, ht1, hc1⟩ := k.outs o ho
    obtain ⟨o2, ho2, ht2, hc2⟩ := h.outs o1 ho1
    exact ⟨o2, ho2, ht2.trans ht1, hc2.trans hc1⟩
  others d hd := (k.others d hd).trans (h.others d hd)

/-- A context that holds no task is given none. -/
theorem Ends.task_none (h : Ends die P s t) {g : Nat} (hg : (s.ctxAt g).task = none) : (t.ctxAt g).task = none := by
  rcases h.ctxs g with h1 | h1
  · exact h1.task.trans hg
  · exact h1.2

theorem killCtx_ends (hw : UnitsWf s) {g : Nat} (hd : dieOf g = die) (hp : P g) (frozen : Bool) (f : Launch → Launch) :
    Ends die P s (s.killCtx g frozen f) ∧ ((s.killCtx g frozen f).ctxAt g).task = none := by
  obtain ⟨h, hreset⟩ := killCtx_spec hw g frozen f
  obtain ⟨ls, pool, hdie⟩ := h.changed
  rw [hd] at hdie
  have hnone : ((s.killCtx g frozen f).ctxAt g).task = none := by rw [hreset]; rfl
  refine ⟨⟨h.here, h.host, h.wf, fun n => ?_, ⟨_, _, _, hdie⟩, fun o ho => ?_, hd ▸ h.others⟩, hnone⟩
  · by_cases hn : n = g
    · exact .inr ⟨hn ▸ hp, hn ▸ hnone⟩
    · exact .inl (h.alone n hn)
  · rw [hdie] at ho
    obtain ⟨o', ho', rfl⟩ := List.mem_map.1 ho
    exact ⟨o', ho', (returned_task s g o').1.symm, (returned_task s g o').2.symm⟩

/-- Each of the contexts l loses its task. -/
theorem killCtxs_ends (f : Launch → Launch) (l : List Nat) : ∀ s : State, UnitsWf s → (∀ g ∈ l, dieOf g = die ∧ P g) →
    Ends die P s (l.foldl (fun t g => t.killCtx g ((t.ctxAt g).status == .frozen) f) s) ∧
    ∀ g ∈ l, ((l.foldl (fun t g => t.killCtx g ((t.ctxAt g).status == .frozen) f) s).ctxAt g).task = none := by
  induction l with
  | nil => exact fun s hw _ => ⟨.refl hw, nofun⟩
  | cons g l ih =>
    intro s hw hl
    obtain ⟨hd, hp⟩ := hl g (.head _)
    obtain ⟨h, hnone⟩ := killCtx_ends hw hd hp ((s.ctxAt g).status == .frozen) f
    obtain ⟨h2, hnone2⟩ := ih _ h.wf fun n hn => hl n (.tail _ hn)
    refine ⟨h.trans h2, fun n hn => ?_⟩
    rcases List.mem_cons.1 hn with rfl | hn
    · exact h2.task_none hnone
    · exact hnone2 n hn

theorem CtxsAlone.ends (h : CtxsAlone s t) (hw : UnitsWf s) : Ends die P s t := by
  have hdie (d : Nat) : t.dieAt d = s.dieAt d := by rw [State.dieAt, h.dies]; rfl
  exact ⟨h.here, h.host, h.wf hw, fun g => .inl (h.ctxAt hw g), ⟨_, _, _, hdie die⟩,
    fun o ho => ⟨o, hdie die ▸ ho, rfl, rfl⟩, fun d _ => hdie d⟩

/-- Some of the tasks switched out leave the task table. -/
theorem dropOut_ends (hw : UnitsWf s) (p : OutTask → Bool) :
    Ends die P s (s.onDie die fun x => { x with out := x.out.filter p }) := by
  have h : DieOnly die (fun x y => y = { x with out := x.out.filter p }) s (s.onDie die fun x => { x with out := x.out.filter p }) :=
    onDie_dieOnly s rfl
  have hdie := h.changed hw
  refine ⟨rfl, rfl, h.wf hw, fun g => .inl (h.ctxAt hw g ▸ .refl _), ⟨_, _, _, hdie⟩, fun o ho => ?_, h.others hw⟩
  rw [hdie] at ho
  exact ⟨o, List.mem_of_mem_filter ho, rfl, rfl⟩

theorem putCtx_ends (hw : UnitsWf s) {g : Nat} (hp : P g) {c : Ctx} (hc : c.task = none) : Ends die P s (s.putCtx g c) := by
  have hdie (d : Nat) : (s.putCtx g c).dieAt d = s.dieAt d := by rw [State.dieAt, State.putCtx_dies]; rfl
  refine ⟨State.putCtx_here .., State.putCtx_host .., putCtx_units hw _ _, fun n => ?_, ⟨_, _, _, hdie die⟩,
    fun o ho => ⟨o, hdie die ▸ ho, rfl, rfl⟩, fun d _ => hdie d⟩
  rw [State.ctxAt_putCtx _ _ _ hw.1]
  by_cases hn : n = g
  · rw [if_pos hn]
    exact .inr ⟨hn ▸ hp, hc⟩
  · rw [if_neg hn]
    exact .inl (.refl _)

theorem onLaunch_ends (hw : UnitsWf s) (q : Nat) (n : BitVec 32) (f : Launch → Launch) : Ends die P s (s.onLaunch die q n f) := by
  have h := onLaunch_dieOnly s die q n f
  obtain ⟨ls, pool, hdie⟩ := h.changed hw
  exact ⟨h.here, h.host, h.wf hw, fun g => .inl (h.ctxAt hw g ▸ .refl _), ⟨_, _, _, hdie⟩,
    fun o ho => ⟨o, by rw [hdie] at ho; exact ho, rfl, rfl⟩, h.others hw⟩

/-- Context g freed where it waits for a task that is switched out. -/
def freeWaiting (s : State) (g : Nat) : State :=
  if (s.ctxAt g).status = .out then s.onCtx g fun c => { Ctx.reset with gen := c.gen + 1, charge := c.charge } else s

/-- Matrix state of context g let go where it holds no task. -/
def freeIdleMatrix (s : State) (g : Nat) : State := if (s.ctxAt g).task.isNone then s.freeMatrix g else s

theorem killOut_eq (s : State) (die : Nat) (o : OutTask) (f : Launch → Launch) : s.killOut die o f =
    ((freeIdleMatrix (freeWaiting (((s.readLines o).2.foldl (fun t l => t.release o.ctx l) (s.readLines o).1).onDie die
      fun x => { x with out := x.out.filter (·.task.id != o.task.id) }) o.ctx) o.ctx).onLaunch die o.task.queue o.task.n
      fun l => { f l with live := l.live - 1 }).settleCore (coreOf o.ctx) := rfl

theorem freeWaiting_ends (hw : UnitsWf s) {g : Nat} (hp : P g) : Ends die P s (freeWaiting s g) := by
  unfold freeWaiting
  split
  · exact putCtx_ends hw hp rfl
  · exact .refl hw

theorem freeIdleMatrix_ends (hw : UnitsWf s) (g : Nat) : Ends die P s (freeIdleMatrix s g) := by
  unfold freeIdleMatrix
  split
  · exact (freeMatrix_sameUnits _ _).ctxsAlone.ends hw
  · exact .refl hw

/-- A task that is switched out ends: it has left the task table, and its context if that waits for it. -/
theorem killOut_ends (hw : UnitsWf s) {o : OutTask} (hp : P o.ctx) (f : Launch → Launch) :
    Ends die P s (s.killOut die o f) ∧ ∀ o' ∈ ((s.killOut die o f).dieAt die).out, o'.task.id ≠ o.task.id := by
  rw [killOut_eq]
  have hlines : Ends die P s ((s.readLines o).2.foldl (fun t l => t.release o.ctx l) (s.readLines o).1) :=
    ((readLines_sameUnits s o).ctxsAlone.trans (foldl_ctxsAlone (fun t l => release_ctxsAlone t o.ctx l) _ _)).ends hw
  have hdrop := dropOut_ends (die := die) (P := P) hlines.wf fun o' => o'.task.id != o.task.id
  have hctx := freeWaiting_ends (die := die) hdrop.wf hp
  have hmatrix := freeIdleMatrix_ends (die := die) (P := P) hctx.wf o.ctx
  have hlaunch := onLaunch_ends (die := die) (P := P) hmatrix.wf o.task.queue o.task.n fun l => { f l with live := l.live - 1 }
  have hsettle := (settleCore_sameUnits _ (coreOf o.ctx)).ctxsAlone.ends (die := die) (P := P) hlaunch.wf
  have htail := (hctx.trans hmatrix).trans (hlaunch.trans hsettle)
  refine ⟨(hlines.trans hdrop).trans htail, fun o' ho' => ?_⟩
  obtain ⟨o2, ho2, ht, -⟩ := htail.outs o' ho'
  rw [State.dieAt_onDie _ _ _ hlines.wf.2, if_pos rfl] at ho2
  have hne := (List.mem_filter.1 ho2).2
  rw [ht] at hne
  simpa using hne

/-- Each of the tasks l that are switched out ends. -/
theorem killOuts_ends (f : Launch → Launch) (l : List OutTask) : ∀ s : State, UnitsWf s → (∀ o ∈ l, P o.ctx) →
    Ends die P s (l.foldl (fun t o => t.killOut die o f) s) ∧
    ∀ o ∈ l, ∀ o' ∈ ((l.foldl (fun t o => t.killOut die o f) s).dieAt die).out, o'.task.id ≠ o.task.id := by
  induction l with
  | nil => exact fun s hw _ => ⟨.refl hw, fun _ ho => absurd ho List.not_mem_nil⟩
  | cons o l ih =>
    intro s hw hl
    obtain ⟨h, hgone⟩ := killOut_ends hw (hl o (.head _)) f
    obtain ⟨h2, hgone2⟩ := ih _ h.wf fun n hn => hl n (.tail _ hn)
    refine ⟨h.trans h2, fun n hn o' ho' => ?_⟩
    rcases List.mem_cons.1 hn with rfl | hn
    · obtain ⟨o1, ho1, ht, -⟩ := h2.outs o' ho'
      exact ht ▸ hgone o1 ho1
    · exact hgone2 n hn o' ho'

end

/-- The contexts of a die that the end of the tasks that p picks may free. -/
def Struck (s : State) (die : Nat) (p : Task → Bool) (g : Nat) : Prop :=
  dieOf g = die ∧ ((∃ k, (s.ctxAt g).task = some k ∧ p k = true) ∨ ∃ o ∈ (s.dieAt die).out, o.ctx = g ∧ p o.task = true)

/-- The task switched out is one that p picks, of a context from lo on, of n. -/
def picksOut (lo n : Nat) (p : Task → Bool) (o : OutTask) : Bool := p o.task && decide (lo ≤ o.ctx) && decide (o.ctx < lo + n)

theorem picksOut_iff (lo n : Nat) (p : Task → Bool) (o : OutTask) :
    picksOut lo n p o = true ↔ p o.task = true ∧ lo ≤ o.ctx ∧ o.ctx < lo + n := by
  simp [picksOut, and_assoc]

/-- Those of contexts lo to lo + n - 1 that hold a task p picks end it. -/
def killHeld (s : State) (lo n : Nat) (p : Task → Bool) (f : Launch → Launch) : State :=
  (s.victims lo n p).foldl (fun t g => t.killCtx g ((t.ctxAt g).status == .frozen) f) s

theorem killTasks_eq (s : State) (lo n : Nat) (p : Task → Bool) (f : Launch → Launch) : s.killTasks lo n p f =
    (((killHeld s lo n p f).dieAt (dieOf lo)).out.filter (picksOut lo n p)).foldl (fun t o => t.killOut (dieOf lo) o f)
      (killHeld s lo n p f) := rfl

theorem mem_victims (s : State) (lo n : Nat) (p : Task → Bool) (g : Nat) : g ∈ s.victims lo n p ↔ (∃ j, j < n ∧ lo + j = g) ∧
    ((s.ctxAt g).status = .bound ∨ (s.ctxAt g).status = .frozen) ∧ ∃ k, (s.ctxAt g).task = some k ∧ p k = true := by
  simp only [State.victims, List.mem_filter, List.mem_map, List.mem_range, Bool.and_eq_true, Bool.or_eq_true, beq_iff_eq,
    Option.any_eq_true]

/-- Every task of contexts of one die that p picks has ended, in its context or switched out. -/
theorem killTasks_spec {s : State} (hw : UnitsWf s) {lo n : Nat} (hdie : ∀ g, lo ≤ g → g < lo + n → dieOf g = dieOf lo)
    (p : Task → Bool) (f : Launch → Launch) :
    Ends (dieOf lo) (Struck s (dieOf lo) p) s (s.killTasks lo n p f) ∧
    (∀ j, j < n → ∀ k, ((s.killTasks lo n p f).ctxAt (lo + j)).task = some k → p k = true →
      ((s.killTasks lo n p f).ctxAt (lo + j)).status ≠ .bound ∧ ((s.killTasks lo n p f).ctxAt (lo + j)).status ≠ .frozen) ∧
    ∀ o ∈ ((s.killTasks lo n p f).dieAt (dieOf lo)).out, lo ≤ o.ctx → o.ctx < lo + n → p o.task = false := by
  obtain ⟨h1, hnone⟩ := killCtxs_ends (die := dieOf lo) (P := Struck s (dieOf lo) p) f (s.victims lo n p) s hw fun g hg => by
    obtain ⟨⟨j, hj, rfl⟩, -, hk⟩ := (mem_victims s lo n p g).1 hg
    have hd := hdie (lo + j) (by omega) (by omega)
    exact ⟨hd, hd, .inl hk⟩
  have hpick : ∀ o ∈ ((killHeld s lo n p f).dieAt (dieOf lo)).out.filter (picksOut lo n p), Struck s (dieOf lo) p o.ctx := by
    intro o ho
    obtain ⟨ho, hpo⟩ := List.mem_filter.1 ho
    obtain ⟨hp, hlo, hhi⟩ := (picksOut_iff lo n p o).1 hpo
    obtain ⟨o', ho', ht, hc⟩ := h1.outs o ho
    exact ⟨hdie _ hlo hhi, .inr ⟨o', ho', hc, ht ▸ hp⟩⟩
  obtain ⟨h2, hgone⟩ := killOuts_ends (die := dieOf lo) f _ (killHeld s lo n p f) h1.wf hpick
  rw [← killTasks_eq] at h2 hgone
  have h := Ends.trans h1 h2
  refine ⟨h, fun j hj k hk hp => ?_, fun o ho hlo hhi => ?_⟩
  · rcases h.ctxs (lo + j) with hleft | ⟨-, hn⟩
    · by_contra hst
      have hvict : lo + j ∈ s.victims lo n p := by
        refine (mem_victims s lo n p _).2 ⟨⟨j, hj, rfl⟩, ?_, k, hleft.task ▸ hk, hp⟩
        rw [← hleft.status]
        tauto
      exact nomatch hk.symm.trans (h2.task_none (hnone _ hvict))
    · exact nomatch hk.symm.trans hn
  · by_contra hp
    obtain ⟨o1, ho1, ht, hc⟩ := h2.outs o ho
    have hpo1 : p o1.task = true := by
      rw [ht]
      exact Bool.of_not_eq_false hp
    exact hgone o1 (List.mem_filter.2 ⟨ho1, (picksOut_iff lo n p o1).2 ⟨hpo1, hc ▸ hlo, hc ▸ hhi⟩⟩) o ho (congrArg Task.id ht.symm)

end Sys2Proof.Machine
end

