-- ==== Sys2Proof/Proofs/EndedDig.lean ====
section
/-! END_DIG and END_FROZEN_TASK (R230, R298): what they end, and what they leave alone. -/

namespace Sys2Proof.Machine

theorem TablesOk.units {s : State} (h : TablesOk s) : UnitsWf s := by
  obtain ⟨-, -, hctxs, hdies, -⟩ := h
  exact ⟨hctxs, hdies⟩

/-! Management messages (R333). -/

theorem managed_of_up {s : State} {pkg : Nat} (h : Up s pkg) (t : State) : s.managed pkg t = told t .ack := if_pos h

theorem managed_of_not_up {s : State} {pkg : Nat} (h : ¬ Up s pkg) (t : State) : s.managed pkg t = s := if_neg h

theorem managed_whenUp (s : State) (pkg : Nat) (t : State) : WhenUp (.next (s.managed pkg t)) s pkg (told t .ack) :=
  ⟨fun h => congrArg _ (managed_of_up h t), fun h => congrArg _ (managed_of_not_up h t)⟩

/-! END_DIG (R298). -/

theorem endColl_dieOnly {s : State} {die : Nat} (hc : ∀ c ∈ (s.dieAt die).coll, dieOf c.ctx = die) (p : Cmd → Bool) (code : Nat) :
    DieOnly die CollDie s (s.endColl die p code) :=
  foldl_dieOnly CollDie.refl CollDie.trans _
    (fun t c hm => hc c (List.mem_of_mem_filter hm) ▸ finishColl_dieOnly t c ⟨statusWord 0 code, []⟩) s

/-- A record that waits, once the dig has ended. -/
def endedRecord (die : Nat) (dig : Word) (w : Waiting) : Waiting :=
  if digOf die w.queue w.n w.image = dig then { w with ended := true, reserved := [] } else w

/-- Is the command one of a task of the dig? -/
def ofDig (s : State) (die : Nat) (dig : Word) (c : Cmd) : Bool :=
  (((s.tasksIn (512 * die) 512).filter (·.dig == dig)).map (·.id)).contains c.task

/-- s once the COLL commands of the dig's tasks have ended, and then its records that wait. -/
def waitingEnded (s : State) (die : Nat) (dig : Word) : State :=
  (s.endColl die (ofDig s die dig) 8).onDie die fun x => { x with waiting := x.waiting.map (endedRecord die dig) }

/-- The fired records of a dig end. -/
def firedEnded (s : State) (die : Nat) (dig : Word) : State :=
  ((s.dieAt die).launches.filter (·.dig == dig)).foldl (fun t l => t.onLaunch die l.queue l.n fun m => m.stop 0xFE) s

theorem endDig_eq (s : State) (die : Nat) (dig : Word) : s.endDig die dig =
    (firedEnded (waitingEnded s die dig) die dig).killTasks (512 * die) 512 (fun t => t.dig == dig) fun l => l.stop 0xFE := rfl

theorem firedEnded_dieOnly (s : State) (die : Nat) (dig : Word) : DieOnly die SettledDie s (firedEnded s die dig) :=
  foldl_dieOnly .refl SettledDie.trans _ (fun _ _ _ => onLaunch_dieOnly _ _ _ _ _) s

/-- A die of which COLL commands, waiting records, fired records and save records alone have changed. -/
def RecordsEnded (die : Nat) (dig : Word) (x y : Die) : Prop :=
  ∃ cl ls pool, y = { x with coll := cl, waiting := x.waiting.map (endedRecord die dig), launches := ls, pool := pool }

theorem recordsEnded_dieOnly {s : State} {die : Nat} (hc : ∀ c ∈ (s.dieAt die).coll, dieOf c.ctx = die) (dig : Word) :
    DieOnly die (RecordsEnded die dig) s (firedEnded (waitingEnded s die dig) die dig) := by
  have hcoll := endColl_dieOnly hc (ofDig s die dig) 8
  have hwait := onDie_dieOnly (die := die) (D := fun x y => y = { x with waiting := x.waiting.map (endedRecord die dig) })
    (s.endColl die (ofDig s die dig) 8) (f := fun x => { x with waiting := x.waiting.map (endedRecord die dig) }) rfl
  have hfired := firedEnded_dieOnly (waitingEnded s die dig) die dig
  refine ⟨hfired.here.trans (hwait.here.trans hcoll.here), hfired.host.trans (hwait.host.trans hcoll.host),
    fun hw => hfired.wf (hwait.wf (hcoll.wf hw)), fun hw g => ?_, fun hw => ?_, fun hw d hd => ?_⟩
  · exact (hfired.ctxAt (hwait.wf (hcoll.wf hw)) g).trans ((hwait.ctxAt (hcoll.wf hw) g).trans (hcoll.ctxAt hw g))
  · obtain ⟨cl, h1, -⟩ := hcoll.changed hw
    have h2 := hwait.changed (hcoll.wf hw)
    obtain ⟨ls, pool, h3⟩ := hfired.changed (hwait.wf (hcoll.wf hw))
    refine ⟨cl, ls, pool, h3.trans ?_⟩
    rw [waitingEnded, h2, h1]
  · exact (hfired.others (hwait.wf (hcoll.wf hw)) d hd).trans ((hwait.others (hcoll.wf hw) d hd).trans (hcoll.others hw d hd))

theorem endedRecord_ended {die : Nat} {dig : Word} {w : Waiting}
    (h : digNumber die (endedRecord die dig w).queue (endedRecord die dig w).n (endedRecord die dig w).image = dig) :
    (endedRecord die dig w).ended = true ∧ (endedRecord die dig w).reserved = [] := by
  unfold endedRecord at h ⊢
  split
  · exact ⟨rfl, rfl⟩
  · rename_i hne
    rw [if_neg hne] at h
    exact absurd h hne

/-- Every task and record of the dig on the die has ended, and of its contexts only those that held a task of it have changed. -/
theorem endDig_spec {s : State} {die : Nat} (hw : UnitsWf s) (hc : ∀ c ∈ (s.dieAt die).coll, dieOf c.ctx = die) (dig : Word) :
    let t := s.endDig die dig
    (∀ j, j < 512 → ∀ k, (t.ctxAt (512 * die + j)).task = some k → k.dig = dig →
      (t.ctxAt (512 * die + j)).status ≠ .bound ∧ (t.ctxAt (512 * die + j)).status ≠ .frozen) ∧
    (∀ o ∈ (t.dieAt die).out, 512 * die ≤ o.ctx → o.ctx < 512 * die + 512 → o.task.dig ≠ dig) ∧
    (∃ ls out pool cl, t.dieAt die = { s.dieAt die with
      waiting := (s.dieAt die).waiting.map (endedRecord die dig), launches := ls, out := out, pool := pool, coll := cl }) ∧
    (∀ d, d ≠ die → t.dieAt d = s.dieAt d) ∧ t.here = s.here ∧ t.host = s.host ∧
    ∀ g, ¬ Struck s die (fun k => k.dig == dig) g → LeftAlone (s.ctxAt g) (t.ctxAt g) := by
  have hrec := recordsEnded_dieOnly hc dig
  obtain ⟨cl, ls1, pool1, h1⟩ := hrec.changed hw
  have hlo : dieOf (512 * die) = die := by unfold dieOf; omega
  obtain ⟨hends, hctx, hout⟩ := killTasks_spec (hrec.wf hw) (lo := 512 * die) (n := 512)
    (fun g h1 h2 => by unfold dieOf; omega) (fun k => k.dig == dig) fun l => l.stop 0xFE
  rw [hlo, ← endDig_eq] at hends hout
  rw [← endDig_eq] at hctx
  obtain ⟨ls, out, pool, h2⟩ := hends.changed
  refine ⟨fun j hj k hk hd => hctx j hj k hk (beq_iff_eq.2 hd), fun o ho h1 h2 hd => ?_, ⟨ls, out, pool, cl, ?_⟩,
    fun d hd => (hends.others d hd).trans (hrec.others hw d hd), hends.here.trans hrec.here, hends.host.trans hrec.host, fun g hg => ?_⟩
  · exact absurd hd (beq_eq_false_iff_ne.1 (hout o ho h1 h2))
  · rw [h2, h1]
  · rcases hends.ctxs g with hleft | ⟨⟨hd, hstruck⟩, -⟩
    · rwa [hrec.ctxAt hw] at hleft
    · refine absurd ⟨hd, ?_⟩ hg
      rw [hrec.ctxAt hw, h1] at hstruck
      exact hstruck

/-! END_FROZEN_TASK (R230). -/

open Classical in
theorem returned_eq (s : State) (g : Nat) :
    returned s g = if Borrows (s.ctxAt g) then loosed g else id := by
  unfold returned
  exact if_congr (borrows_eq_true _) rfl rfl

/-- A frozen context is freed; its die keeps all but its records' accounts and the lanes that its task had reclaimed. -/
theorem execEndFrozenTask_of_frozen {s : State} (hw : UnitsWf s) {g : Nat} (h : (s.ctxAt g).status = .frozen) :
    ∃ t, execEndFrozenTask g s = .next t ∧ CtxAndDie g (dieOf g) (LeftDie (returned s g)) s t ∧
      t.ctxAt g = { Ctx.reset with gen := (s.ctxAt g).gen + 1, charge := (s.ctxAt g).charge } :=
  ⟨s.killCtx g true id, congrArg _ (if_pos h), killCtx_spec hw g true id⟩

end Sys2Proof.Machine
end

