-- ==== Sys2Proof/Proofs/DieGone.lean ====
section
/-! A die leaves service (R299): it holds nothing any more, and contexts of other dies are as they were. -/

namespace Sys2Proof.Machine

/-! Contexts dropped. -/

/-- The contexts l hold nothing; the other contexts, and every die, are as they were. -/
structure Dropped (l : List Nat) (s t : State) : Prop where
  wf : UnitsWf t
  gone : ∀ g ∈ l, (t.ctxAt g).status = .free
  kept : ∀ g, g ∉ l → t.ctxAt g = s.ctxAt g
  dieAt : ∀ d, t.dieAt d = s.dieAt d

theorem dropCtx_of_free {s : State} {g : Nat} (h : (s.ctxAt g).status = .free) : s.dropCtx g = s := if_pos h

theorem dropCtx_of_held {s : State} {g : Nat} (h : (s.ctxAt g).status ≠ .free) : s.dropCtx g =
    (s.freeMatrix g).onCtx g fun c => { Ctx.reset with gen := c.gen + 1, charge := c.charge } := if_neg h

theorem dropCtx_dropped {s : State} (hw : UnitsWf s) (g : Nat) : Dropped [g] s (s.dropCtx g) := by
  by_cases h : (s.ctxAt g).status = .free
  · rw [dropCtx_of_free h]
    exact ⟨hw, fun n hn => List.mem_singleton.1 hn ▸ h, fun _ _ => rfl, fun _ => rfl⟩
  · have hfree := freeMatrix_sameUnits s g
    have hctx (n : Nat) : (s.dropCtx g).ctxAt n = if n = g then
        { Ctx.reset with gen := ((s.freeMatrix g).ctxAt g).gen + 1, charge := ((s.freeMatrix g).ctxAt g).charge } else s.ctxAt n := by
      rw [dropCtx_of_held h, State.onCtx, State.ctxAt_putCtx _ _ _ (hfree.wf hw).1, hfree.ctxAt hw n]
    refine ⟨by rw [dropCtx_of_held h]; exact putCtx_units (hfree.wf hw) _ _, fun n hn => ?_, fun n hn => ?_, fun d => ?_⟩
    · rw [hctx, if_pos (List.mem_singleton.1 hn)]
      rfl
    · rw [hctx, if_neg (mt List.mem_singleton.2 hn)]
    · rw [dropCtx_of_held h, State.dieAt, State.onCtx, State.putCtx_dies]
      exact hfree.dieAt d

theorem foldl_dropCtx (l : List Nat) : ∀ s : State, UnitsWf s → Dropped l s (l.foldl State.dropCtx s) := by
  induction l with
  | nil => exact fun s hw => ⟨hw, fun _ h => absurd h List.not_mem_nil, fun _ _ => rfl, fun _ => rfl⟩
  | cons g l ih =>
    intro s hw
    have h := dropCtx_dropped hw g
    have k := ih _ h.wf
    refine ⟨k.wf, fun n hn => ?_, fun n hn => ?_, fun d => (k.dieAt d).trans (h.dieAt d)⟩
    · by_cases hl : n ∈ l
      · exact k.gone n hl
      · have hg : n = g := (List.mem_cons.1 hn).resolve_right hl
        rw [List.foldl_cons, k.kept n hl]
        exact h.gone n (hg ▸ .head _)
    · obtain ⟨hg, hl⟩ := not_or.1 (mt List.mem_cons.2 hn)
      exact (k.kept n hl).trans (h.kept n (mt List.mem_singleton.1 hg))

/-! COLL commands ended on every die. -/

/-- Of each die the COLL commands alone may have changed, and of contexts none. -/
structure CollsOnly (s t : State) : Prop where
  wf : UnitsWf s → UnitsWf t
  ctxAt : UnitsWf s → ∀ g, t.ctxAt g = s.ctxAt g
  dieAt : UnitsWf s → ∀ d, CollDie (s.dieAt d) (t.dieAt d)

theorem SameUnits.collsOnly {s t : State} (h : SameUnits s t) : CollsOnly s t :=
  ⟨h.wf, h.ctxAt, fun _ d => h.dieAt d ▸ .refl _⟩

theorem CollsOnly.trans {s t u : State} (h : CollsOnly s t) (k : CollsOnly t u) : CollsOnly s u :=
  ⟨fun hw => k.wf (h.wf hw), fun hw g => (k.ctxAt (h.wf hw) g).trans (h.ctxAt hw g),
    fun hw d => CollDie.trans _ _ _ (h.dieAt hw d) (k.dieAt (h.wf hw) d)⟩

theorem foldl_collsOnly {α : Type} {f : State → α → State} (hf : ∀ s a, CollsOnly s (f s a)) (l : List α) :
    ∀ s : State, CollsOnly s (l.foldl f s) := by
  induction l with
  | nil => exact fun s => (SameUnits.refl s).collsOnly
  | cons a t ih => exact fun s => (hf s a).trans (ih _)

theorem endColl_collsOnly (s : State) (die : Nat) (p : Cmd → Bool) (code : Nat) : CollsOnly s (s.endColl die p code) := by
  refine foldl_collsOnly (fun t c => ?_) _ s
  have h := finishColl_dieOnly t c ⟨statusWord 0 code, []⟩
  refine ⟨h.wf, h.ctxAt, fun hw d => ?_⟩
  by_cases hd : d = dieOf c.ctx
  · exact hd ▸ h.changed hw
  · exact h.others hw d hd ▸ .refl _

/-! The die. -/

/-- A die that has left service: it holds no record, no command and no request. -/
def Emptied (x : Die) : Prop :=
  x.down = true ∧ x.waiting = [] ∧ x.launches = [] ∧ x.out = [] ∧ x.dcopy = [] ∧ x.enc = [] ∧ x.seam = [] ∧ x.coll = [] ∧ x.disp = [] ∧
    x.requests = []

theorem Emptied.of_collDie {x y : Die} (hx : Emptied x) (h : CollDie x y) : Emptied y := by
  obtain ⟨cl, rfl, hcl⟩ := h
  obtain ⟨h1, h2, h3, h4, h5, h6, h7, h8, h9, h10⟩ := hx
  exact ⟨h1, h2, h3, h4, h5, h6, h7, hcl h8, h9, h10⟩

/-- What a die that leaves service keeps (R299). -/
def Die.left (x : Die) : Die :=
  { x with down := true, waiting := [], launches := [], out := [], dcopy := [], enc := [], seam := [], micro := [], coll := [],
           disp := [], strays := [], requests := [], pool := x.pool.map fun r => { r with used := false } }

/-- s once a die has left service and its contexts hold nothing. -/
def contextsDropped (s : State) (die : Nat) : State :=
  ((List.range 512).map (512 * die + ·)).foldl State.dropCtx (s.onDie die Die.left)

/-- The copies of a die's clusters are lost, and its fired records complete. -/
def recordsFailed (s : State) (die : Nat) (ls : List Launch) : State :=
  ls.foldl (fun t l =>
    t.completionRecord die l.n l.image l.qctx l.dig l.fire (if l.status = 0 then 0xFF else l.status) l.late l.frozen)
    ((List.range 8).foldl (fun t c => t.onCluster (8 * die + c) fun x => { x with ccopy := [] }) s)

/-- Collectives that name a die end on every other. -/
def collsFailed (s : State) (die : Nat) : State :=
  (s.dies.map (·.1)).foldl (fun t d => t.endColl d (fun c => c.started && (c.table.map tableDie).contains die) 7) s

theorem dieFails_of_down {s : State} {die : Nat} (h : (s.dieAt die).down = true) : s.dieFails die = s := if_pos h

theorem dieFails_of_not_down {s : State} {die : Nat} (h : (s.dieAt die).down = false) : s.dieFails die =
    told ((collsFailed (recordsFailed (contextsDropped s die) die (s.dieAt die).launches) die).count (die / 4) .dieDown die 1)
      (.dieDown die) := by
  rw [contextsDropped, List.foldl_map]
  exact if_neg (by rw [h]; exact Bool.false_ne_true)

theorem recordsFailed_sameUnits (s : State) (die : Nat) (ls : List Launch) : SameUnits s (recordsFailed s die ls) :=
  (foldl_sameUnits (fun _ _ => onCluster_sameUnits _ _ _) _ _).trans
    (foldl_sameUnits (fun _ _ => completionRecord_sameUnits _ _ _ _ _ _ _ _ _ _) _ _)

theorem contextsDropped_dropped {s : State} (hw : UnitsWf s) (die : Nat) :
    Dropped ((List.range 512).map (512 * die + ·)) (s.onDie die Die.left) (contextsDropped s die) :=
  foldl_dropCtx _ _ (onDie_units hw _ _)

/-- A die that was in service has left it, empty; its contexts are free and all others are as they were. -/
theorem dieFails_spec {s : State} (hw : UnitsWf s) {die : Nat} (hdown : (s.dieAt die).down = false) :
    ∃ t, s.dieFails die = told t (.dieDown die) ∧ Emptied (t.dieAt die) ∧
      (∀ j, j < 512 → (t.ctxAt (512 * die + j)).status = .free) ∧ ∀ g, g / 512 ≠ die → t.ctxAt g = s.ctxAt g := by
  refine ⟨_, dieFails_of_not_down hdown, ?_⟩
  have hdrop := contextsDropped_dropped hw die
  have hrest : CollsOnly (contextsDropped s die)
      ((collsFailed (recordsFailed (contextsDropped s die) die (s.dieAt die).launches) die).count (die / 4) .dieDown die 1) :=
    (recordsFailed_sameUnits _ die _).collsOnly.trans
      ((foldl_collsOnly (fun _ _ => endColl_collsOnly _ _ _ _) _ _).trans (count_sameUnits _ _ _ _ _).collsOnly)
  have hleft : (contextsDropped s die).dieAt die = Die.left (s.dieAt die) := by
    rw [hdrop.dieAt, State.dieAt_onDie _ _ _ hw.2, if_pos rfl]
  refine ⟨Emptied.of_collDie ?_ (hrest.dieAt hdrop.wf die), fun j hj => ?_, fun g hg => ?_⟩
  · rw [hleft]
    exact ⟨rfl, rfl, rfl, rfl, rfl, rfl, rfl, rfl, rfl, rfl⟩
  · rw [hrest.ctxAt hdrop.wf]
    exact hdrop.gone _ (List.mem_map.2 ⟨j, List.mem_range.2 hj, rfl⟩)
  · rw [hrest.ctxAt hdrop.wf]
    refine hdrop.kept g fun hmem => ?_
    obtain ⟨j, hj, rfl⟩ := List.mem_map.1 hmem
    have := List.mem_range.1 hj
    omega

end Sys2Proof.Machine
end

