-- ==== Sys2Proof/Proofs/CoreServices.lean ====
section
/-! LANE_RETIREMENT and CORE_SUBSTITUTION (R54, R271): a core closes, and is settled once it holds no task. -/

namespace Sys2Proof.Machine

theorem count_eq_counted (s : State) (pkg : Nat) (c : Count) (u : Nat) : s.count pkg c u 1 = counted s pkg c u := rfl

theorem coreAt_putCore_same (s : State) (n : Nat) {k : Core} (h : k ≠ Core.reset) : (s.putCore n k).coreAt n = k := by
  unfold State.coreAt State.putCore
  by_cases hn : n = coreOf s.here
  · rw [if_pos hn]
    exact if_pos hn
  · rw [if_neg hn]
    exact (if_neg hn).trans ((tabGet_set_of_ne _ _ _ h).trans (if_pos rfl))

theorem ne_reset_of_closed {k : Core} (h : k.closed = true) : k ≠ Core.reset := by
  rintro rfl
  exact Bool.false_ne_true h

theorem tasksIn_putCore (s : State) (n : Nat) (k : Core) (lo m : Nat) : (s.putCore n k).tasksIn lo m = s.tasksIn lo m := by
  unfold State.putCore
  split <;> rfl

theorem coreBusy_iff (s : State) (n : Nat) : s.coreBusy n = true ↔ s.tasksIn (4 * n) 4 ≠ [] := by
  rw [State.coreBusy, bne_iff_ne]

/-! A closed core settled, case by case. -/

section
variable {s : State} {n : Nat}

theorem settleCore_of_busy (hbusy : s.tasksIn (4 * n) 4 ≠ []) : s.settleCore n = s :=
  if_pos (by rw [(coreBusy_iff s n).2 hbusy, Bool.or_true])

variable (hclosed : (s.coreAt n).closed = true) (hidle : s.tasksIn (4 * n) 4 = [])
include hclosed hidle

/-- The core is closed and holds no task. -/
theorem not_open_or_busy : ¬ (!(s.coreAt n).closed || s.coreBusy n) = true := by
  have hbusy : s.coreBusy n = false := Bool.eq_false_iff.2 fun h => (coreBusy_iff s n).1 h hidle
  rw [hclosed, hbusy]
  decide

theorem settleCore_lane {lane : Fin 64} (hret : (s.coreAt n).retiring = [lane]) (hrepl : (s.coreAt n).replacing = false) :
    s.settleCore n = (counted s (n / 512) .laneRetired (laneKey n (s.coreAt n).phys lane.val)).putCore n
      { s.coreAt n with lmap := (s.coreAt n).lmap &&& ~~~(1#64 <<< lane.val), retiring := [], closed := false } := by
  rw [State.settleCore]
  refine (if_neg (not_open_or_busy hclosed hidle)).trans ?_
  simp only [hret, hrepl, List.foldl_cons, List.foldl_nil, Bool.not_false, if_true, count_eq_counted]

theorem settleCore_absent (hret : (s.coreAt n).retiring = []) (hrepl : (s.coreAt n).replacing = true)
    (hspare : (s.clusterAt (n / 16)).spareUsed = true) :
    s.settleCore n = counted (s.putCore n
      { s.coreAt n with retiring := [], closed := false, absent := true, replacing := false }) (n / 512) .coreSwapped (absentKey n) := by
  rw [State.settleCore]
  refine (if_neg (not_open_or_busy hclosed hidle)).trans ?_
  simp only [hret, hrepl, hspare, List.foldl_nil, Bool.not_true, if_true, Bool.false_eq_true, if_false, count_eq_counted]

theorem settleCore_spare (hret : (s.coreAt n).retiring = []) (hrepl : (s.coreAt n).replacing = true)
    (hspare : (s.clusterAt (n / 16)).spareUsed = false) :
    s.settleCore n =
      let v := (s.putCore n { Core.reset with phys := 16 }).onCluster (n / 16) fun x => { x with spareUsed := true }
      counted (({ v with bad := tabClear v.bad (tcmBase n) 0x100000 } : State).clearBytes (tcmBase n) 0x100000) (n / 512)
        .coreSwapped n := by
  rw [State.settleCore]
  refine (if_neg (not_open_or_busy hclosed hidle)).trans ?_
  simp only [hret, hrepl, hspare, List.foldl_nil, Bool.not_true, Bool.false_eq_true, if_false, count_eq_counted]

end

/-! The two services. -/

section
variable {s : State} {core : Nat}

theorem execLaneRetirement_of_live {lane : Fin 64} (hlive : (s.coreAt core).lmap.getLsbD lane.val = true)
    (hnew : lane ∉ (s.coreAt core).retiring) : execLaneRetirement core lane s =
      .next ((s.putCore core { s.coreAt core with closed := true, retiring := (s.coreAt core).retiring ++ [lane] }).settleCore core) :=
  congrArg _ (if_pos (by simp [hlive, hnew]))

theorem execLaneRetirement_of_held {lane : Fin 64} (hheld : s.tasksIn (4 * core) 4 ≠ [])
    (hlive : (s.coreAt core).lmap.getLsbD lane.val = true) (hnew : lane ∉ (s.coreAt core).retiring) :
    execLaneRetirement core lane s =
      .next (s.putCore core { s.coreAt core with closed := true, retiring := (s.coreAt core).retiring ++ [lane] }) := by
  rw [execLaneRetirement_of_live hlive hnew, settleCore_of_busy (by rwa [tasksIn_putCore])]

theorem execLaneRetirement_of_idle {lane : Fin 64} (hidle : s.tasksIn (4 * core) 4 = [])
    (hlive : (s.coreAt core).lmap.getLsbD lane.val = true) (hret : (s.coreAt core).retiring = [])
    (hrepl : (s.coreAt core).replacing = false) : execLaneRetirement core lane s =
      .next ((counted (s.putCore core { s.coreAt core with closed := true, retiring := [lane] }) (core / 512) .laneRetired
        (laneKey core (s.coreAt core).phys lane.val)).putCore core
          { s.coreAt core with lmap := (s.coreAt core).lmap &&& ~~~(1#64 <<< lane.val), closed := false }) := by
  have hat := coreAt_putCore_same s core (ne_reset_of_closed (k := { s.coreAt core with closed := true, retiring := [lane] }) rfl)
  rw [execLaneRetirement_of_live hlive (by rw [hret]; exact List.not_mem_nil), hret, List.nil_append,
    settleCore_lane (lane := lane) (by rw [hat]) (by rwa [tasksIn_putCore]) (by rw [hat]) (by rw [hat]; exact hrepl), hat]
  simp only [← hret]

theorem execCoreSubstitution_of_absent (h : (s.coreAt core).absent = true) : execCoreSubstitution core s = .next s := by
  have hfails : s.coreFails core = s := by
    simp only [State.coreFails, h, Bool.or_true, if_true]
  exact congrArg _ hfails

/-- s with a core's lasting error counted, once for each replacement. -/
def coreCounted (s : State) (core : Nat) : State :=
  if (s.coreAt core).replacing = true then s else counted s (core / 512) .lasting (2 ^ 52 + core)

/-- s with a core that waits to be replaced. -/
def coreClosed (s : State) (core : Nat) : State :=
  (coreCounted s core).putCore core { s.coreAt core with closed := true, replacing := true }

theorem execCoreSubstitution_of_present (h : (s.coreAt core).absent = false) :
    execCoreSubstitution core s = .next ((coreClosed s core).settleCore core) := by
  have hfails : s.coreFails core = (coreClosed s core).settleCore core := by
    have hguard : ((s.coreAt core).replacing || (s.coreAt core).absent) = (s.coreAt core).replacing := by rw [h, Bool.or_false]
    rw [State.coreFails]
    refine (if_neg (by rw [h]; exact Bool.false_ne_true)).trans ?_
    simp only [hguard]
    rfl
  exact congrArg _ hfails

theorem coreAt_coreClosed (s : State) (core : Nat) :
    (coreClosed s core).coreAt core = { s.coreAt core with closed := true, replacing := true } :=
  coreAt_putCore_same _ _ (ne_reset_of_closed rfl)

theorem tasksIn_coreClosed (s : State) (core lo n : Nat) : (coreClosed s core).tasksIn lo n = s.tasksIn lo n := by
  rw [coreClosed, tasksIn_putCore, coreCounted]
  split <;> rfl

theorem clusterAt_coreClosed (s : State) (core n : Nat) : (coreClosed s core).clusterAt n = s.clusterAt n := by
  rw [State.clusterAt, coreClosed, State.putCore_clusters, coreCounted]
  split <;> rfl

theorem execCoreSubstitution_of_held (h : (s.coreAt core).absent = false) (hheld : s.tasksIn (4 * core) 4 ≠ []) :
    execCoreSubstitution core s = .next (coreClosed s core) := by
  rw [execCoreSubstitution_of_present h, settleCore_of_busy (by rwa [tasksIn_coreClosed])]

theorem execCoreSubstitution_of_spareUsed (h : (s.coreAt core).absent = false) (hidle : s.tasksIn (4 * core) 4 = [])
    (hret : (s.coreAt core).retiring = []) (hspare : (s.clusterAt (core / 16)).spareUsed = true) :
    execCoreSubstitution core s = .next (counted ((coreClosed s core).putCore core
      { s.coreAt core with closed := false, replacing := false, absent := true }) (core / 512) .coreSwapped (absentKey core)) := by
  have hat := coreAt_coreClosed s core
  rw [execCoreSubstitution_of_present h, settleCore_absent (by rw [hat]) (by rwa [tasksIn_coreClosed]) (by rw [hat]; exact hret)
    (by rw [hat]) (by rwa [clusterAt_coreClosed]), hat]
  simp only [← hret]

theorem execCoreSubstitution_of_spare (h : (s.coreAt core).absent = false) (hidle : s.tasksIn (4 * core) 4 = [])
    (hret : (s.coreAt core).retiring = []) (hspare : (s.clusterAt (core / 16)).spareUsed = false) :
    let v := ((coreClosed s core).putCore core { Core.reset with phys := 16 }).onCluster (core / 16) fun x => { x with spareUsed := true }
    execCoreSubstitution core s = .next (counted
      (({ v with bad := tabClear v.bad (tcmBase core) 0x100000 } : State).clearBytes (tcmBase core) 0x100000) (core / 512)
      .coreSwapped core) := by
  have hat := coreAt_coreClosed s core
  rw [execCoreSubstitution_of_present h, settleCore_spare (by rw [hat]) (by rwa [tasksIn_coreClosed]) (by rw [hat]; exact hret)
    (by rw [hat]) (by rwa [clusterAt_coreClosed])]

end

end Sys2Proof.Machine
end

