-- ==== Sys2Proof/Proofs/Rereads.lean ====
section
/-! SUPERVISOR_REREAD (R340): the retry of a read that failed, in memory, in a hallmark, in a register slice and in a tile. -/

namespace Sys2Proof.Machine

/-! How one read leaves an error. -/

section
variable {b : Bad} {lay : Lay}

theorem read_of_lasting (h : b.lasting = true) : b.read lay = (b, true, none) := if_pos h

theorem read_of_retry (hl : b.lasting = false) (hp : b.poison = false) (h0 : b.left = some 0) (he : b.erred.isSome = true) :
    b.read lay = ({ b with erred := none }, false, some .transient) := by
  simp [Bad.read, Bad.failing, hl, hp, h0, he]

theorem read_of_failing (hl : b.lasting = false) (hf : b.poison = true ∨ b.left ≠ some 0) (he : b.erred.isSome = true) :
    b.read lay = ({ b with lasting := true }, true, some .lasting) := by
  have hfail : b.failing = true := by
    rw [Bad.failing, hl, Bool.false_or, Bool.or_eq_true, bne_iff_ne]
    exact hf
  simp [Bad.read, hl, hfail, he]

end

/-- An error that the supervisor reads again where a read has met it. -/
def retried (b : Bad) : Bad := if b.erred.isSome then (b.read Lay.plain).1 else b

theorem Retried.of_ne_clean {b : Bad} (hb : b ≠ Bad.clean) : Retried b (([b].map retried).filter (· != Bad.clean)) := by
  have keep {c : Bad} (hc : c ≠ Bad.clean) : [c].filter (· != Bad.clean) = [c] :=
    List.filter_eq_self.2 fun x hx => bne_iff_ne.2 (List.mem_singleton.1 hx ▸ hc)
  refine ⟨fun he => ?_, fun he hfail => ?_, fun he hok => ?_⟩
  · have : retried b = b := if_neg (by rw [he]; exact Bool.false_ne_true)
    rw [List.map_singleton, this, keep hb]
  · have hsome := Option.isSome_iff_ne_none.2 he
    have hread : retried b = { b with lasting := true } := by
      rw [retried, if_pos hsome]
      by_cases hl : b.lasting = true
      · rw [read_of_lasting hl, ← hl]
      · rw [read_of_failing (Bool.eq_false_iff.2 hl) (hfail.resolve_left hl) hsome]
    rw [List.map_singleton, hread, keep fun h => absurd (congrArg Bad.lasting h) Bool.false_ne_true.symm]
  · obtain ⟨hl, hok⟩ := not_or.1 hok
    obtain ⟨hp, h0⟩ := not_or.1 hok
    have hclean : retried b = Bad.clean := by
      rw [retried, if_pos (Option.isSome_iff_ne_none.2 he), read_of_retry (Bool.eq_false_iff.2 hl) (Bool.eq_false_iff.2 hp)
        (not_not.1 h0) (Option.isSome_iff_ne_none.2 he), Bool.eq_false_iff.2 hl, Bool.eq_false_iff.2 hp, not_not.1 h0]
      rfl
    rw [List.map_singleton, hclean]
    rfl

/-! Memory and hallmarks. -/

theorem wake_eq (s : State) (lay : Lay) (pa n : Nat) : ∃ cs, s.wake lay pa n = { s with chans := cs } := by
  unfold State.wake
  split <;> exact ⟨_, rfl⟩

theorem classed_some (s : State) (u : ErrUnit) (c : Count) : s.classed u (some c) = counted s u.pkg c u.key := rfl

theorem reread_memory_of_none {s : State} {pa : Nat} (h : (s.badAt (Machine.unitOf pa)).erred = none) :
    s.reread (.memory pa) = s := by
  simp only [State.reread, h]

theorem reread_memory_of_some {s : State} {pa : Nat} {lay : Lay} (h : (s.badAt (Machine.unitOf pa)).erred = some lay) : ∃ cs,
    s.reread (.memory pa) = ((({ s with chans := cs } : State).setBad (Machine.unitOf pa)
      ((s.badAt (Machine.unitOf pa)).read lay).1).classed (errUnitAt lay (Machine.unitOf pa))
        ((s.badAt (Machine.unitOf pa)).read lay).2.2) := by
  obtain ⟨cs, hwake⟩ := wake_eq s lay (Machine.unitOf pa) 1
  refine ⟨cs, ?_⟩
  simp only [State.reread, h, hwake]
  rfl

theorem reread_hallmark_of_none {s : State} {clu g : Nat} (h : (s.hallError clu g).erred = none) :
    s.reread (.hallmark clu g) = s := if_neg (by rw [h]; exact Bool.false_ne_true)

theorem reread_hallmark_of_some {s : State} {clu g : Nat} (h : (s.hallError clu g).erred.isSome = true) :
    s.reread (.hallmark clu g) = (withHall s clu g ((s.hallError clu g).read Lay.plain).1).classed
      (errUnitAt Lay.plain (spadBase clu + 4096 * g)) ((s.hallError clu g).read Lay.plain).2.2 := by
  have hne : s.hallError clu g ≠ Bad.clean := fun hc => by
    rw [hc] at h
    exact Bool.false_ne_true h
  have hread : s.readHall clu g = ((withHall s clu g ((s.hallError clu g).read Lay.plain).1).classed
      (errUnitAt Lay.plain (spadBase clu + 4096 * g)) ((s.hallError clu g).read Lay.plain).2.2,
      ((s.hallError clu g).read Lay.plain).2.1) := if_neg hne
  exact (if_pos h).trans (congrArg Prod.fst hread)

/-! Register slices and tiles. -/

theorem classed_pkgs (s : State) (u : ErrUnit) (c : Option Count) : ∃ ps, s.classed u c = { s with pkgs := ps } := by
  cases c with
  | none => exact ⟨_, rfl⟩
  | some c => exact ⟨_, rfl⟩

theorem foldl_classed_pkgs {α : Type} (u : α → ErrUnit) (c : α → Option Count) (l : List α) :
    ∀ s : State, ∃ ps, l.foldl (fun t a => t.classed (u a) (c a)) s = { s with pkgs := ps } := by
  induction l with
  | nil => exact fun s => ⟨_, rfl⟩
  | cons a t ih =>
    intro s
    obtain ⟨_, h⟩ := classed_pkgs s (u a) (c a)
    obtain ⟨ps, k⟩ := ih (s.classed (u a) (c a))
    exact ⟨ps, by rw [List.foldl_cons, k, h]⟩

/-- One entry, read if p picks it. -/
def readSliceIf (p : BadSlice → Bool) (b : BadSlice) : BadSlice :=
  { b with bad := (if p b then b.bad.read Lay.plain else (b.bad, false, none)).1 }

/-- What is left of the entries that hold an error once those that p picks have been read. -/
def slicesLeft (p : BadSlice → Bool) (l : List BadSlice) : List BadSlice :=
  (l.map (readSliceIf p)).filter fun b => b.bad != Bad.clean

theorem readEntriesIf_eq (s : State) (p : BadSlice → Bool) : ∃ ps,
    s.readEntriesIf p = { s with pkgs := ps, c := { s.c with vbad := slicesLeft p s.c.vbad } } := by
  obtain ⟨ps, h⟩ := foldl_classed_pkgs (fun b : BadSlice => .lane (coreOf s.here) s.k.phys b.lane.val)
    (fun b => (if p b then b.bad.read Lay.plain else (b.bad, false, none)).2.2) s.c.vbad s
  refine ⟨ps, ?_⟩
  simp only [State.readEntriesIf, h]
  rfl

/-- One tile element, read if p picks it. -/
def readTileIf (p : BadTile → Bool) (b : BadTile) : BadTile :=
  { b with bad := (if p b then b.bad.read Lay.plain else (b.bad, false, none)).1 }

/-- What is left of the tile elements that hold an error once those that p picks have been read. -/
def tilesLeft (p : BadTile → Bool) (l : List BadTile) : List BadTile :=
  (l.map (readTileIf p)).filter fun b => b.bad != Bad.clean

theorem readTiles_eq (s : State) (p : BadTile → Bool) : ∃ ps,
    (s.readTiles p).1 = { s with pkgs := ps, k := { s.k with tbad := tilesLeft p s.k.tbad } } := by
  obtain ⟨ps, h⟩ := foldl_classed_pkgs (fun _ : BadTile => .core (coreOf s.here))
    (fun b => (if p b then b.bad.read Lay.plain else (b.bad, false, none)).2.2) s.k.tbad s
  by_cases hnil : s.k.tbad = []
  · refine ⟨s.pkgs, ?_⟩
    have hread : (s.readTiles p).1 = s := congrArg Prod.fst (if_pos hnil)
    have hleft : tilesLeft p s.k.tbad = s.k.tbad := by rw [hnil]; rfl
    rw [hread, hleft]
  · refine ⟨ps, (congrArg Prod.fst (if_neg hnil)).trans ?_⟩
    simp only [h]
    rfl

/-- Reading the errors at one place again retries those. -/
theorem filter_reread {α : Type} {here : α → Bool} {bad : α → Bad} {f : α → α} (hhere : ∀ x, here (f x) = here x)
    (hbad : ∀ x, here x = true → bad (f x) = retried (bad x)) (l : List α) :
    (((l.map f).filter fun x => bad x != Bad.clean).filter here).map bad =
      (((l.filter here).map bad).map retried).filter (· != Bad.clean) := by
  have hkeep : here ∘ f = here := funext hhere
  have hmap : (l.filter here).map (bad ∘ f) = (l.filter here).map (retried ∘ bad) :=
    List.map_congr_left fun x hx => hbad x (List.mem_filter.1 hx).2
  calc (((l.map f).filter fun x => bad x != Bad.clean).filter here).map bad
      = (((l.map f).filter here).filter fun x => bad x != Bad.clean).map bad := by rw [List.filter_comm]
    _ = (((l.map f).filter here).map bad).filter (· != Bad.clean) := (List.filter_map (p := (· != Bad.clean))).symm
    _ = (((l.filter here).map bad).map retried).filter (· != Bad.clean) := by
        rw [List.filter_map (p := here), hkeep, List.map_map, hmap, List.map_map]

theorem readOnce_eq_retried {p : Bool} (hp : p = true) (b : Bad) :
    (if (p && b.erred.isSome) = true then b.read Lay.plain else (b, false, none)).1 = retried b := by
  rw [hp, Bool.true_and]
  exact apply_ite Prod.fst _ _ _

theorem filter_slicesLeft (r : VReg) (lane : Fin 64) (l : List BadSlice) :
    ((slicesLeft (fun b => b.isAt r lane && b.bad.erred.isSome) l).filter (BadSlice.isAt r lane)).map (·.bad) =
      (((l.filter (BadSlice.isAt r lane)).map (·.bad)).map retried).filter (· != Bad.clean) :=
  filter_reread (f := readSliceIf _) (fun _ => rfl) (fun b hb => readOnce_eq_retried hb b.bad) l

theorem filter_tilesLeft (q : TReg) (row col : Fin 64) (l : List BadTile) :
    ((tilesLeft (fun b => b.isAt q row col && b.bad.erred.isSome) l).filter (BadTile.isAt q row col)).map (·.bad) =
      (((l.filter (BadTile.isAt q row col)).map (·.bad)).map retried).filter (· != Bad.clean) :=
  filter_reread (f := readTileIf _) (fun _ => rfl) (fun b hb => readOnce_eq_retried hb b.bad) l

/-- An error in a register slice, read again. -/
theorem reread_slice {s : State} {b : Bad} (hctxs : tabWf Ctx.reset s.ctxs = true) (hb : b ≠ Bad.clean) (g : Nat) (r : VReg)
    (lane : Fin 64) (hat : ((s.ctxAt g).vbad.filter (BadSlice.isAt r lane)).map (·.bad) = [b]) :
    let t := s.reread (.slice g r lane)
    Retried b (((t.ctxAt g).vbad.filter (BadSlice.isAt r lane)).map (·.bad)) ∧ t.mem = s.mem ∧ t.here = s.here := by
  obtain ⟨ps, hread⟩ := readEntriesIf_eq (s.focus g) fun b => b.isAt r lane && b.bad.erred.isSome
  have hwf := focus_ctxs_wf hctxs g
  have hold : (s.focus g).c = s.ctxAt g := (if_pos (focus_here s g).symm).symm.trans (ctxAt_focus hctxs g g)
  have hnew : ((s.reread (.slice g r lane)).ctxAt g).vbad = slicesLeft (fun b => b.isAt r lane && b.bad.erred.isSome) (s.ctxAt g).vbad := by
    rw [State.reread, hread, ctxAt_focus (by exact hwf), ← hold]
    exact congrArg Ctx.vbad (if_pos (focus_here s g).symm)
  refine ⟨?_, ?_, focus_here _ _⟩
  · rw [hnew, filter_slicesLeft, hat]
    exact .of_ne_clean hb
  · rw [State.reread, hread, focus_mem]
    exact focus_mem s g

/-- An error in a tile, read again. -/
theorem reread_tile {s : State} {b : Bad} (hcores : tabWf Core.reset s.cores = true) (hb : b ≠ Bad.clean) (k : Nat) (q : TReg)
    (row col : Fin 64) (hat : ((s.coreAt k).tbad.filter (BadTile.isAt q row col)).map (·.bad) = [b]) :
    let t := s.reread (.tile k q row col)
    Retried b (((t.coreAt k).tbad.filter (BadTile.isAt q row col)).map (·.bad)) ∧ t.mem = s.mem ∧ t.here = s.here := by
  obtain ⟨ps, hread⟩ := readTiles_eq (s.focus (4 * k)) fun b => b.isAt q row col && b.bad.erred.isSome
  have hwf := focus_cores_wf hcores (4 * k)
  have hcore : k = coreOf (s.focus (4 * k)).here := by rw [focus_here, coreOf, Nat.mul_div_cancel_left _ (by decide)]
  have hold : (s.focus (4 * k)).k = s.coreAt k := (if_pos hcore).symm.trans (coreAt_focus hcores (4 * k) k)
  have hnew : ((s.reread (.tile k q row col)).coreAt k).tbad =
      tilesLeft (fun b => b.isAt q row col && b.bad.erred.isSome) (s.coreAt k).tbad := by
    rw [State.reread, hread, coreAt_focus (by exact hwf), ← hold]
    exact congrArg Core.tbad (if_pos hcore)
  refine ⟨?_, ?_, focus_here _ _⟩
  · rw [hnew, filter_tilesLeft, hat]
    exact .of_ne_clean hb
  · rw [State.reread, hread, focus_mem]
    exact focus_mem s (4 * k)

end Sys2Proof.Machine
end

