-- ==== Sys2Proof/Proofs/Services.lean ====
section
/-! What each service of a die supervisor leaves, and leaves alone (R54, R230, R271, R272, R278, R298, R299, R340). -/

namespace Sys2Proof.Machine

/-! CONFIGURE (R278, R279, R298). -/

theorem badQueueContext_iff (pkg : Nat) (q : BitVec 512) : badQueueContext pkg q = true ↔ ForeignQueue pkg q := by
  rw [badQueueContext, Bool.or_eq_true, Bool.or_eq_true, bne_iff_ne, bne_iff_ne, bne_iff_ne, or_assoc]
  exact Iff.rfl

theorem configure_queue (s : State) (die q : Nat) (image : BitVec 512) :
    s.configure (.queue die q image) = queueGiven s die q image := by
  rw [State.configure, State.setQueue, queueGiven]
  simp only [Bool.true_and, decide_eq_true_eq, qcSize_eq]

theorem execConfigure_queue {s : State} {die q : Nat} {image : BitVec 512} (h : ¬ ForeignQueue (die / 4) image) :
    WhenUp (execConfigure (.queue die q image) s) s (die / 4) (told (queueGiven s die q image) .ack) := by
  have heq : execConfigure (.queue die q image) s = .next (s.managed (die / 4) (queueGiven s die q image)) := by
    rw [← configure_queue]
    exact congrArg _ (if_neg (mt (badQueueContext_iff _ _).1 h))
  rw [heq]
  exact managed_whenUp _ _ _

theorem execConfigure_foreign {s : State} {die q : Nat} {image : BitVec 512} (h : ForeignQueue (die / 4) image) :
    WhenUp (execConfigure (.queue die q image) s) s (die / 4) (told s .refused) := by
  have hbad : badQueueContext (die / 4) image = true := (badQueueContext_iff _ _).2 h
  exact ⟨fun hup => congrArg _ ((if_pos hbad).trans (if_pos hup)), fun hdown => congrArg _ ((if_pos hbad).trans (if_neg hdown))⟩

/-! Each clause of the services. -/

theorem endDig_clause {s : State} {die : Nat} (hok : TablesOk s) (hc : ∀ c ∈ (s.dieAt die).coll, c.ctx / 512 = die) (dig : Word)
    (hup : Up s (die / 4)) : ∃ t, execEndDig die dig s = .next (told t .ack) ∧
      (∀ j, j < 512 → ∀ k, (t.ctxAt (512 * die + j)).task = some k → k.dig = dig →
        (t.ctxAt (512 * die + j)).status ≠ .bound ∧ (t.ctxAt (512 * die + j)).status ≠ .frozen) ∧
      (∀ o ∈ (t.dieAt die).out, 512 * die ≤ o.ctx → o.ctx < 512 * die + 512 → o.task.dig ≠ dig) ∧
      (∀ w ∈ (t.dieAt die).waiting, digNumber die w.queue w.n w.image = dig → w.ended = true ∧ w.reserved = []) ∧
      (let x := t.dieAt die
       x = { s.dieAt die with waiting := x.waiting, launches := x.launches, out := x.out, pool := x.pool, coll := x.coll }) ∧
      (∀ d, d ≠ die → t.dieAt d = s.dieAt d) ∧ t.here = s.here ∧ t.host = s.host ∧
      ∀ g, g / 512 ≠ die ∨ ((∀ k, (s.ctxAt g).task = some k → k.dig ≠ dig) ∧
        ∀ o ∈ (s.dieAt die).out, o.ctx = g → o.task.dig ≠ dig) → LeftAlone (s.ctxAt g) (t.ctxAt g) := by
  obtain ⟨hctx, hout, ⟨ls, out, pool, cl, hdie⟩, hothers, hhere, hhost, hleft⟩ := endDig_spec hok.units hc dig
  refine ⟨s.endDig die dig, by rw [execEndDig, managed_of_up hup], hctx, hout, fun w hwait => ?_, ?_, hothers, hhere, hhost,
    fun g hg => hleft g ?_⟩
  · rw [hdie] at hwait
    obtain ⟨w', -, rfl⟩ := List.mem_map.1 hwait
    exact endedRecord_ended
  · rw [hdie]
  · rintro ⟨hd, htask⟩
    obtain ⟨hnone, hnot⟩ := hg.resolve_left fun h => h hd
    rcases htask with ⟨k, hk, hp⟩ | ⟨o, ho, hc, hp⟩
    · exact hnone k hk (beq_iff_eq.1 hp)
    · exact hnot o ho hc (beq_iff_eq.1 hp)

open Classical in
theorem endFrozenTask_clause {s : State} (hok : TablesOk s) {g : Nat} (h : (s.ctxAt g).status = .frozen) :
    ∃ t, execEndFrozenTask g s = .next t ∧
      t.ctxAt g = { Ctx.reset with gen := (s.ctxAt g).gen + 1, charge := (s.ctxAt g).charge } ∧
      (let x := t.dieAt (g / 512)
       x = { s.dieAt (g / 512) with
        launches := x.launches, pool := x.pool
        out := (s.dieAt (g / 512)).out.map (if Borrows (s.ctxAt g) then loosed g else id) }) ∧
      (∀ d, d ≠ g / 512 → t.dieAt d = s.dieAt d) ∧ t.here = s.here ∧ t.host = s.host ∧
      ∀ h, h ≠ g → LeftAlone (s.ctxAt h) (t.ctxAt h) := by
  obtain ⟨t, hexec, hrest, hfreed⟩ := execEndFrozenTask_of_frozen hok.units h
  obtain ⟨ls, pool, hdie⟩ := hrest.changed
  rw [returned_eq] at hdie
  refine ⟨t, hexec, hfreed, ?_, hrest.others, hrest.here, hrest.host, hrest.alone⟩
  exact hdie.trans (by rw [show t.dieAt (g / 512) = _ from hdie]; rfl)

/-- An error of memory, read again: nothing but how it stands, its count and the channel that was read have changed. -/
theorem reread_memory_clause {s : State} {pa : Nat} {lay : Lay} (h : (s.badAt (Machine.unitOf pa)).erred = some lay) : ∃ cs,
    let b := s.badAt (Machine.unitOf pa)
    let k := errUnitAt lay (Machine.unitOf pa)
    let left (b : Bad) : State := ({ s with chans := cs } : State).setBad (Machine.unitOf pa) b
    (b.lasting = true → s.reread (.memory pa) = left b) ∧
    (b.lasting = false → b.poison = false → b.left = some 0 →
      s.reread (.memory pa) = counted (left { b with erred := none }) k.pkg .transient k.key) ∧
    (b.lasting = false → b.poison = true ∨ b.left ≠ some 0 →
      s.reread (.memory pa) = counted (left { b with lasting := true }) k.pkg .lasting k.key) := by
  obtain ⟨cs, hread⟩ := reread_memory_of_some h
  have hsome : (s.badAt (Machine.unitOf pa)).erred.isSome = true := by rw [h]; rfl
  refine ⟨cs, fun hl => ?_, fun hl hp h0 => ?_, fun hl hf => ?_⟩
  · rw [hread, read_of_lasting hl]
    rfl
  · rw [hread, read_of_retry hl hp h0 hsome, classed_some]
  · rw [hread, read_of_failing hl hf hsome, classed_some]

/-- An error of a hallmark, read again. -/
theorem reread_hallmark_clause {s : State} {clu g : Nat} (h : (s.hallError clu g).erred ≠ none)
    (hl : (s.hallError clu g).lasting = false) :
    let b := s.hallError clu g
    let k := errUnitAt Lay.plain (spadBase clu + 4096 * g)
    (b.poison = false → b.left = some 0 →
      s.reread (.hallmark clu g) = counted (withHall s clu g { b with erred := none }) k.pkg .transient k.key) ∧
    (b.poison = true ∨ b.left ≠ some 0 →
      s.reread (.hallmark clu g) = counted (withHall s clu g { b with lasting := true }) k.pkg .lasting k.key) := by
  have hsome := Option.isSome_iff_ne_none.2 h
  refine ⟨fun hp h0 => ?_, fun hf => ?_⟩
  · rw [reread_hallmark_of_some hsome, read_of_retry hl hp h0 hsome, classed_some]
  · rw [reread_hallmark_of_some hsome, read_of_failing hl hf hsome, classed_some]

/-- Settles O53, service by service: the management messages, END_DIG, END_FROZEN_TASK, the two services of a core, a die that leaves
service, and the rereads. -/
theorem supervisorServices : Obligations.SupervisorServices := by
  unfold Obligations.SupervisorServices
  refine ⟨fun s die _ _ _ session => ?_, fun s die dig hok hc => ?_, fun s g hok => ?_, fun s core lane => ?_, fun s die hok => ?_,
    fun s pa => ?_, fun s clu g => ?_, fun s b hok hcores hb => ?_⟩
  · exact ⟨managed_whenUp s (die / 4) s, managed_whenUp s (die / 4) (s.unpin die session), fun _ _ => execConfigure_queue,
      fun _ _ => execConfigure_foreign, fun _ => ⟨managed_whenUp s (die / 4) _, managed_whenUp s (die / 4) _⟩,
      fun recs => managed_whenUp s (die / 4) (s.onDie die fun x => x.setPool recs)⟩
  · exact ⟨fun hdown => congrArg _ (managed_of_not_up hdown _), endDig_clause hok hc dig⟩
  · exact ⟨fun h => congrArg _ (if_neg h), endFrozenTask_clause hok⟩
  · exact ⟨execLaneRetirement_of_held, fun hidle => execLaneRetirement_of_idle (not_not.1 hidle), execCoreSubstitution_of_absent,
      fun h => ⟨execCoreSubstitution_of_held h, fun hidle hret => ⟨execCoreSubstitution_of_spareUsed h (not_not.1 hidle) hret,
        execCoreSubstitution_of_spare h (not_not.1 hidle) hret⟩⟩⟩
  · refine ⟨fun hdown => congrArg _ (dieFails_of_down hdown), fun hdown => ?_⟩
    obtain ⟨t, heq, hdie, hfree, hothers⟩ := dieFails_spec hok.units hdown
    exact ⟨t, congrArg _ heq, hdie, hfree, hothers⟩
  · refine ⟨fun h => congrArg _ (reread_memory_of_none h), fun lay h => ?_⟩
    obtain ⟨cs, hlasting, hretry, hfails⟩ := reread_memory_clause h
    exact ⟨cs, fun hl => congrArg _ (hlasting hl), fun hl hp h0 => congrArg _ (hretry hl hp h0), fun hl hf => congrArg _ (hfails hl hf)⟩
  · exact ⟨fun h => congrArg _ (reread_hallmark_of_none h), fun he hl hp h0 => congrArg _ ((reread_hallmark_clause he hl).1 hp h0),
      fun he hl hf => congrArg _ ((reread_hallmark_clause he hl).2 hf)⟩
  · exact ⟨fun g r lane hat => ⟨_, rfl, reread_slice hok.units.1 hb g r lane hat⟩,
      fun k q row col hat => ⟨_, rfl, reread_tile hcores hb k q row col hat⟩⟩

end Sys2Proof.Machine
end

