-- ==== Sys2Proof/Proofs/LaneMasks.lean ====
section
/-! Bits of masks that an instruction writes (R51, R76, R90). -/

namespace Sys2Proof.Machine

/-- An element index within a register image stays below noLimit. -/
theorem not_noLimit_le {i : Nat} (hi : i < 4096) : ¬ noLimit ≤ i := Nat.not_le.2 hi

/-- What is written of the bits of a list. -/
def maskWrites (h : Nat → Option Bool) (l : List Nat) : List (Nat × Bool) := l.filterMap fun i => (h i).map (i, ·)

theorem mem_maskWrites {h : Nat → Option Bool} {l : List Nat} {i : Nat} {b : Bool} :
    (i, b) ∈ maskWrites h l ↔ i ∈ l ∧ h i = some b := by
  simp only [maskWrites, List.mem_filterMap, Option.map_eq_some_iff, Prod.mk.injEq]
  constructor
  · rintro ⟨j, hj, c, hc, rfl, rfl⟩
    exact ⟨hj, hc⟩
  · exact fun ⟨hi, hb⟩ => ⟨i, hi, b, hb, rfl, rfl⟩

/-- A number into which the bits that p picks have been put. -/
theorem testBit_foldl_or (p : Nat × Bool → Bool) (i : Nat) (ps : List (Nat × Bool)) : ∀ a : Nat,
    (ps.foldl (fun v q => if p q then v ||| 2 ^ q.1 else v) a).testBit i = (a.testBit i || ps.any fun q => p q && q.1 == i) := by
  induction ps with
  | nil => exact fun a => (Bool.or_false _).symm
  | cons q ps ih =>
    intro a
    rw [List.foldl_cons, ih, List.any_cons]
    cases p q
    · simp
    · simp [Nat.testBit_or, Nat.testBit_two_pow, Bool.or_assoc, beq_eq_decide]

theorem getLsbD_setBits (m : BitVec 4096) (h : Nat → Option Bool) (l : List Nat) {i : Nat} (hi : i < 4096) :
    (setBits m (maskWrites h l)).getLsbD i = if i ∈ l then (h i).getD (m.getLsbD i) else m.getLsbD i := by
  have hsel := testBit_foldl_or (fun _ => true) i (maskWrites h l) 0
  have hon := testBit_foldl_or Prod.snd i (maskWrites h l) 0
  simp only [if_true, Nat.zero_testBit, Bool.false_or, Bool.true_and] at hsel hon
  have hany (p : Bool → Bool) : ((maskWrites h l).any fun q => p q.2 && q.1 == i) =
      decide (i ∈ l ∧ ∃ b, h i = some b ∧ p b = true) := by
    rw [Bool.eq_iff_iff, List.any_eq_true, decide_eq_true_eq]
    constructor
    · rintro ⟨⟨j, b⟩, hq, hp⟩
      simp only [Bool.and_eq_true, beq_iff_eq] at hp
      obtain ⟨hp, rfl⟩ := hp
      exact ⟨(mem_maskWrites.1 hq).1, b, (mem_maskWrites.1 hq).2, hp⟩
    · rintro ⟨hl, b, hb, hp⟩
      exact ⟨(i, b), mem_maskWrites.2 ⟨hl, hb⟩, by simp [hp]⟩
  have hsel' := hany fun _ => true
  have hon' := hany id
  simp only [Bool.true_and] at hsel'
  rw [hsel'] at hsel
  rw [show (fun q : Nat × Bool => q.2 && q.1 == i) = fun q => id q.2 && q.1 == i from rfl, hon'] at hon
  simp only [setBits, BitVec.getLsbD_or, BitVec.getLsbD_and, BitVec.getLsbD_not, BitVec.getLsbD_ofNat, hi, decide_true, Bool.true_and,
    hsel, hon]
  by_cases hl : i ∈ l
  · cases hb : h i with
    | none => simp [hl]
    | some b => cases b <;> simp [hl]
  · simp [hl]

/-- A state with other masks. -/
def State.withMasks (s : State) (m : Vector (BitVec 4096) 8) : State := { s with c := { s.c with m := m } }

/-- A mask with some of its bits written; m0 discards. -/
theorem putMask_maskWrites (s : State) (md : MReg) (h : Nat → Option Bool) (l : List Nat) : ∃ m,
    s.putMask md (maskWrites h l) = s.withMasks m ∧ (∀ r : MReg, r ≠ md ∨ r = 0 → m[r] = s.c.m[r]) ∧
    (md ≠ 0 → ∀ i, i < 4096 → (m[md]).getLsbD i =
      if i ∈ l then (h i).getD ((s.c.m[md]).getLsbD i) else (s.c.m[md]).getLsbD i) := by
  refine ⟨(s.putMask md (maskWrites h l)).c.m, ?_, fun r hr => ?_, fun hmd i hi => ?_⟩
  · unfold State.putMask State.wm
    split <;> rfl
  · rw [State.putMask, State.wm_m, if_neg]
    rintro ⟨rfl, h0⟩
    exact hr.elim (· rfl) h0
  · have hrm : s.rm md = s.c.m[md] := if_neg hmd
    rw [State.putMask, State.wm_m, if_pos ⟨rfl, hmd⟩, hrm, getLsbD_setBits _ h l hi]

theorem putMask_vbad (s : State) (md : MReg) (ps : List (Nat × Bool)) : (s.putMask md ps).c.vbad = s.c.vbad := by
  unfold State.putMask State.wm
  split <;> rfl

end Sys2Proof.Machine
end

