-- ==== Sys2Proof/Proofs/LaneComparisons.lean ====
section
/-! Comparisons of the lanes into a mask (R78, R81; O23). -/

namespace Sys2Proof.Machine

/-- Integers compare as U reads them; the values of floating-point patterns do not depend on U (R81). -/
theorem compareElem_eq_outcome {f : Fmt} (hf : f.isInt = true ∨ f.isFp = true) (u : Bool) {a b : Nat} (ha : a < 2 ^ f.width)
    (hb : f.isInt = true → b < 2 ^ f.width) : compareElem f u a b = outcome f u a b := by
  unfold compareElem outcome
  by_cases hfp : f.isFp = true
  · obtain ⟨l, hl⟩ := exists_isFloat hfp
    rw [if_pos hfp, if_pos hfp]
    simp only [elemVal, hl.layout]
  · rw [if_neg hfp, if_neg hfp, intOf_eq_num (width_pos f) u ha, intOf_eq_num (width_pos f) u (hb (hf.resolve_right hfp))]

/-- What a comparison writes of mask bit i: whether rel holds in every register of the group, 0 in padding (R81). -/
def compareBit (rel : Option Ordering → Bool) (s : State) (o : VCmpOp) (i : Nat) : Option Bool :=
  if s.c.vl.toNat ≤ i then some false
  else if (s.rm o.pm).getLsbD i then
    some ((List.range (grpSize o.m.grp)).all fun g =>
      rel (outcome o.fmt o.m.u (elem o.fmt.width s.c.v[regAt o.va g] i) (sourceB s o.fmt o.b g i)))
  else none

theorem compareOp_eq {r : Rel} {s : State} {o : VCmpOp} (hf : o.fmt.isInt = true ∨ o.fmt.isFp = true)
    (h : LanesReady s o.fmt.width) :
    compareOp r o s = .next (s.putMask o.md (maskWrites (fun i => if noLimit ≤ i then none else compareBit r.holds s o i)
      (s.reach o.fmt.width))).adv := by
  have hclean : s.c.vbad = [] := h.2.2
  have hout (g i : Nat) : compareElem o.fmt o.m.u (s.elemAt (regAt o.va g) o.fmt.width i) (s.second o.fmt o.b g i) =
      outcome o.fmt o.m.u (elem o.fmt.width s.c.v[regAt o.va g] i) (sourceB s o.fmt o.b g i) := by
    rw [second_eq_sourceB]
    exact compareElem_eq_outcome hf o.m.u (elem_lt _ _ _) fun hi => sourceB_lt hi o.b g i
  have hbits : ((s.reach o.fmt.width).filterMap fun i =>
      if noLimit ≤ i then none
      else if s.vl ≤ i then some (i, false)
      else if s.maskBit o.pm i then some (i, (List.range (grpSize o.m.grp)).all fun g =>
        r.holds (compareElem o.fmt o.m.u (s.elemAt (regAt o.va g) o.fmt.width i) (s.second o.fmt o.b g i)))
      else none) = maskWrites (fun i => if noLimit ≤ i then none else compareBit r.holds s o i) (s.reach o.fmt.width) := by
    refine List.filterMap_congr fun i _ => ?_
    have hvl : s.vl = s.c.vl.toNat := rfl
    have hmask : s.maskBit o.pm i = (s.rm o.pm).getLsbD i := rfl
    simp only [hout, hvl, hmask, compareBit]
    split_ifs <;> rfl
  rw [compareOp, configTrap_of_ready h, laneOp_of_clean hclean _ ((putMask_vbad _ _ _).trans hclean), hbits]

/-- What is claimed of a comparison. -/
def CmpHolds (p : (VCmpOp → Instr) × (Option Ordering → Bool)) : Prop :=
  ∀ (s : State) (o : VCmpOp), (p.1 o).wf = true → LanesReady s o.fmt.width →
    ∃ m, exec (p.1 o) s = .next (withM s m) ∧ (∀ r : MReg, r ≠ o.md ∨ r = 0 → m[r] = s.c.m[r]) ∧
      (o.md ≠ 0 → ∀ i, i < 4096 → (m[o.md]).getLsbD i =
        if !inReach s o.fmt.width i then (s.c.m[o.md]).getLsbD i
        else if s.c.vl.toNat ≤ i then false
        else if (s.rm o.pm).getLsbD i then
          (List.range (grpSize o.m.grp)).all fun g =>
            p.2 (outcome o.fmt o.m.u (elem o.fmt.width s.c.v[regAt o.va g] i) (sourceB s o.fmt o.b g i))
        else (s.c.m[o.md]).getLsbD i)

theorem cmpHolds_of_rel {instr : VCmpOp → Instr} {r : Rel} (hexec : ∀ o s, exec (instr o) s = compareOp r o s)
    (hwf : ∀ o, (instr o).wf = true → o.fmt.isInt = true ∨ o.fmt.isFp = true) : CmpHolds (instr, r.holds) := by
  intro s o hw h
  obtain ⟨m, hm, hother, hbit⟩ := putMask_maskWrites s o.md (fun i => if noLimit ≤ i then none else compareBit r.holds s o i)
    (s.reach o.fmt.width)
  refine ⟨m, ?_, hother, fun hmd i hi => ?_⟩
  · simp only [hexec, compareOp_eq (hwf o hw) h, hm]
    rfl
  · rw [hbit hmd i hi, if_neg (not_noLimit_le hi)]
    simp only [mem_reach (width_dvd _), compareBit, Bool.not_eq_true']
    cases inReach s o.fmt.width i
    · rfl
    · by_cases hvl : s.c.vl.toNat ≤ i
      · simp [hvl]
      · by_cases hmask : (s.rm o.pm).getLsbD i = true <;> simp [hvl, hmask]

/-- Settles O23: each comparison is its relation over the outcomes of R81. -/
theorem laneComparisons : Obligations.LaneComparisons := by
  have hfmt {o : VCmpOp} (hw : (o.ill).isNone = true) : o.fmt.isInt = true ∨ o.fmt.isFp = true := isInt_or_isFp_of_wf hw
  have hrows : ∀ p ∈ cmpRows, CmpHolds p := by
    simp only [cmpRows, List.forall_mem_cons]
    refine ⟨?eq, ?ne, ?lt, ?le, ?gt, ?ge, fun _ h => absurd h List.not_mem_nil⟩
    case eq => exact cmpHolds_of_rel (r := .eq) (fun _ _ => rfl) fun _ hw => hfmt hw
    case ne => exact cmpHolds_of_rel (r := .ne) (fun _ _ => rfl) fun _ hw => hfmt hw
    case lt => exact cmpHolds_of_rel (r := .lt) (fun _ _ => rfl) fun _ hw => hfmt hw
    case le => exact cmpHolds_of_rel (r := .le) (fun _ _ => rfl) fun _ hw => hfmt hw
    case gt => exact cmpHolds_of_rel (r := .gt) (fun _ _ => rfl) fun _ hw => hfmt hw
    case ge => exact cmpHolds_of_rel (r := .ge) (fun _ _ => rfl) fun _ hw => hfmt hw
  exact hrows

end Sys2Proof.Machine
end

