-- ==== Sys2Proof/Proofs/CarryChains.lean ====
section
/-! Carry chains (R80; O22). -/

namespace Sys2Proof.Machine

/-! The limbs of a result. -/

theorem limbs_succ (w n : Nat) (v : Vector (BitVec 4096) 32) (r : VReg) (i : Nat) :
    limbs w (n + 1) v r i = limbs w n v r i + elem w v[regAt r n] i * 2 ^ (w * n) := by
  simp [limbs, List.range_succ]

/-- A limb, and the carry out of it as a bit above it. -/
theorem addCarry_spec {w a b : Nat} (ha : a < 2 ^ w) (hb : b < 2 ^ w) (c : Bool) :
    (addCarry w a b c).1 + 2 ^ w * (addCarry w a b c).2.toNat = a + b + c.toNat := by
  have hc := c.toNat_le
  simp only [addCarry]
  by_cases h : 2 ^ w ≤ a + b + c.toNat
  · rw [Nat.mod_eq_sub_mod h, Nat.mod_eq_of_lt (by omega), decide_eq_true h, Bool.toNat_true]
    omega
  · rw [Nat.mod_eq_of_lt (by omega), decide_eq_false h, Bool.toNat_false]
    omega

theorem subBorrow_spec {w a b : Nat} (ha : a < 2 ^ w) (hb : b < 2 ^ w) (c : Bool) :
    ((subBorrow w a b c).1 : Int) - 2 ^ w * (subBorrow w a b c).2.toNat = a - b - c.toNat := by
  have hc := c.toNat_le
  have h2 : 2 ^ (w + 1) = 2 ^ w + 2 ^ w := by ring
  have hcast : ((2 ^ w : Nat) : Int) = 2 ^ w := by push_cast; rfl
  simp only [subBorrow]
  by_cases h : a < b + c.toNat
  · rw [show a + 2 ^ (w + 1) - b - c.toNat = (a + 2 ^ w - b - c.toNat) + 2 ^ w by omega, Nat.add_mod_right,
      Nat.mod_eq_of_lt (by omega), decide_eq_true h, Bool.toNat_true]
    omega
  · rw [show a + 2 ^ (w + 1) - b - c.toNat = (a - b - c.toNat) + 2 ^ w + 2 ^ w by omega, Nat.add_mod_right, Nat.add_mod_right,
      Nat.mod_eq_of_lt (by omega), decide_eq_false h, Bool.toNat_false]
    omega

theorem addCarry_lt (w a b : Nat) (c : Bool) : (addCarry w a b c).1 < 2 ^ w := Nat.mod_lt _ (Nat.two_pow_pos w)
theorem subBorrow_lt (w a b : Nat) (c : Bool) : (subBorrow w a b c).1 < 2 ^ w := Nat.mod_lt _ (Nat.two_pow_pos w)

/-- Limb g of the result of the chain of element i. -/
def State.chainLimb (s : State) (step : Nat → Nat → Nat → Bool → Nat × Bool) (o : VCarryOp) (i g : Nat) : Nat :=
  (step o.fmt.width (s.elemAt (regAt o.va g) o.fmt.width i) (s.elemAt (regAt o.vb g) o.fmt.width i) (s.chain step o i g).2).1

theorem chain_limbs (s : State) (step : Nat → Nat → Nat → Bool → Nat × Bool) (o : VCarryOp) (i n : Nat) :
    (s.chain step o i n).1 = (List.range n).map (s.chainLimb step o i) := by
  induction n with
  | zero => rfl
  | succ n ih =>
    rw [State.chain, ih, List.range_succ, List.map_append]
    rfl

section
variable {s : State} {o : VCarryOp} {v : Vector (BitVec 4096) 32} {i n : Nat}

/-- Registers that hold the limbs of a chain of additions, with its carry: the sum (R80). -/
theorem addCarry_sum (hv : ∀ g, g < n → elem o.fmt.width v[regAt o.vd g] i = s.chainLimb addCarry o i g) :
    limbs o.fmt.width n v o.vd i + 2 ^ (o.fmt.width * n) * (s.chain addCarry o i n).2.toNat =
      limbs o.fmt.width n s.c.v o.va i + limbs o.fmt.width n s.c.v o.vb i + ((s.rm o.pm).getLsbD i).toNat := by
  induction n with
  | zero => simp [limbs, State.chain, State.maskBit]
  | succ n ih =>
    have hlimb := addCarry_spec (elem_lt o.fmt.width s.c.v[regAt o.va n] i) (elem_lt o.fmt.width s.c.v[regAt o.vb n] i)
      (s.chain addCarry o i n).2
    have hsum := ih fun g hg => hv g (by omega)
    rw [limbs_succ, limbs_succ, limbs_succ, hv n (Nat.lt_succ_self n), Nat.mul_succ, pow_add]
    have hnext : (s.chain addCarry o i (n + 1)).2 = (addCarry o.fmt.width (elem o.fmt.width s.c.v[regAt o.va n] i)
      (elem o.fmt.width s.c.v[regAt o.vb n] i) (s.chain addCarry o i n).2).2 := rfl
    have hhere : s.chainLimb addCarry o i n = (addCarry o.fmt.width (elem o.fmt.width s.c.v[regAt o.va n] i)
      (elem o.fmt.width s.c.v[regAt o.vb n] i) (s.chain addCarry o i n).2).1 := rfl
    rw [hnext, hhere]
    linear_combination hsum + 2 ^ (o.fmt.width * n) * hlimb

/-- Registers that hold the limbs of a chain of subtractions, with its borrow: the difference (R80). -/
theorem subBorrow_sum (hv : ∀ g, g < n → elem o.fmt.width v[regAt o.vd g] i = s.chainLimb subBorrow o i g) :
    (limbs o.fmt.width n v o.vd i : Int) - 2 ^ (o.fmt.width * n) * (s.chain subBorrow o i n).2.toNat =
      limbs o.fmt.width n s.c.v o.va i - limbs o.fmt.width n s.c.v o.vb i - ((s.rm o.pm).getLsbD i).toNat := by
  induction n with
  | zero => simp [limbs, State.chain, State.maskBit]
  | succ n ih =>
    have hlimb := subBorrow_spec (elem_lt o.fmt.width s.c.v[regAt o.va n] i) (elem_lt o.fmt.width s.c.v[regAt o.vb n] i)
      (s.chain subBorrow o i n).2
    have hsum := ih fun g hg => hv g (by omega)
    rw [limbs_succ, limbs_succ, limbs_succ, hv n (Nat.lt_succ_self n), Nat.mul_succ, pow_add]
    have hnext : (s.chain subBorrow o i (n + 1)).2 = (subBorrow o.fmt.width (elem o.fmt.width s.c.v[regAt o.va n] i)
      (elem o.fmt.width s.c.v[regAt o.vb n] i) (s.chain subBorrow o i n).2).2 := rfl
    have hhere : s.chainLimb subBorrow o i n = (subBorrow o.fmt.width (elem o.fmt.width s.c.v[regAt o.va n] i)
      (elem o.fmt.width s.c.v[regAt o.vb n] i) (s.chain subBorrow o i n).2).1 := rfl
    rw [hnext, hhere]
    push_cast
    linear_combination hsum + 2 ^ (o.fmt.width * n) * hlimb

end

/-! What the instruction leaves. -/

/-- What a carry chain writes of element i of register g: the limb, 0 in padding. -/
def carryElem (s : State) (step : Nat → Nat → Nat → Bool → Nat × Bool) (o : VCarryOp) (g i : Nat) : Option Nat :=
  if noLimit ≤ i then none else some (if i < s.vl then s.chainLimb step o i g else 0)

/-- What it writes of mask bit i: the carry out, 0 in padding. -/
def carryBit (s : State) (step : Nat → Nat → Nat → Bool → Nat × Bool) (o : VCarryOp) (i : Nat) : Option Bool :=
  if noLimit ≤ i then none else some (if i < s.vl then (s.chain step o i (grpSize o.m.grp)).2 else false)

theorem filterMap_noLimit {α : Type} (x : Nat → α) (l : List Nat) :
    (l.filter fun i => decide (i < noLimit)).map (fun i => (i, x i)) =
      l.filterMap fun i => (if noLimit ≤ i then none else some (x i)).map (i, ·) := by
  induction l with
  | nil => rfl
  | cons i l ih =>
    by_cases h : i < noLimit
    · rw [List.filter_cons_of_pos (by simp [h]), List.map_cons, ih, List.filterMap_cons_some]
      rw [if_neg (Nat.not_le.2 h)]
      rfl
    · rw [List.filter_cons_of_neg (by simp [h]), ih, List.filterMap_cons_none]
      rw [if_pos (Nat.not_lt.1 h)]
      rfl

/-- The results of the elements within reach, and of padding: all limbs with the carry out. -/
def carryRows (s : State) (step : Nat → Nat → Nat → Bool → Nat × Bool) (o : VCarryOp) : List (Nat × List Nat × Bool) :=
  ((s.reach o.fmt.width).filter fun i => decide (i < noLimit)).map fun i =>
    if i < s.vl then (i, s.chain step o i (grpSize o.m.grp)) else (i, (List.replicate (grpSize o.m.grp) 0, false))

section
variable {s : State} {step : Nat → Nat → Nat → Bool → Nat × Bool} {o : VCarryOp}

theorem carryRows_bits : (carryRows s step o).map (fun r => (r.1, r.2.2)) = maskWrites (carryBit s step o) (s.reach o.fmt.width) := by
  refine Eq.trans ?_ (filterMap_noLimit (fun i => if i < s.vl then (s.chain step o i (grpSize o.m.grp)).2 else false) _)
  rw [carryRows, List.map_map]
  refine List.map_congr_left fun i _ => ?_
  by_cases hi : i < s.vl <;> simp [hi]

theorem carryRows_elems {g : Nat} (hg : g < grpSize o.m.grp) :
    (carryRows s step o).map (fun r => (r.1, r.2.1.getD g 0)) = writesOf (carryElem s step o g) (s.reach o.fmt.width) := by
  refine Eq.trans ?_ (filterMap_noLimit (fun i => if i < s.vl then s.chainLimb step o i g else 0) _)
  rw [carryRows, List.map_map]
  refine List.map_congr_left fun i _ => ?_
  by_cases hi : i < s.vl <;> simp [hi, chain_limbs, hg]

theorem carryOp_eq (h : LanesReady s o.fmt.width) :
    ∃ v, carryOp step o s = .next ((s.withRegs v).putMask o.md (maskWrites (carryBit s step o) (s.reach o.fmt.width))).adv ∧
      (∀ r : VReg, (∀ g, g < grpSize o.m.grp → r ≠ regAt o.vd g) → v[r] = s.c.v[r]) ∧
      ∀ g, g < grpSize o.m.grp → v[regAt o.vd g] =
        setElems o.fmt.width s.c.v[regAt o.vd g] (writesOf (carryElem s step o g) (s.reach o.fmt.width)) := by
  have hclean : s.c.vbad = [] := h.2.2
  obtain ⟨v, hv, hout, hin⟩ := putGroup_of_clean hclean o.vd o.fmt.width
    (fun g => (carryRows s step o).map fun r => (r.1, r.2.1.getD g 0)) ((grpSize_le o.m.grp).trans (by decide))
  refine ⟨v, ?_, hout, fun g hg => by rw [hin g hg, carryRows_elems hg]⟩
  have heff : ((s.putGroup o.vd (grpSize o.m.grp) o.fmt.width fun g => (carryRows s step o).map fun r => (r.1, r.2.1.getD g 0)).putMask o.md
      ((carryRows s step o).map fun r => (r.1, r.2.2))) =
      (s.withRegs v).putMask o.md (maskWrites (carryBit s step o) (s.reach o.fmt.width)) := by
    rw [hv, carryRows_bits]
  rw [carryOp, configTrap_of_ready h, laneOp_of_clean hclean]
  · exact congrArg (fun t : State => Host.Outcome.next t.adv) heff
  · exact (congrArg (fun t : State => t.c.vbad) heff).trans ((putMask_vbad _ _ _).trans hclean)

end

/-- What is claimed of a carry chain that makes of the limbs and the carry out of element i what R80 says. -/
def CarryHolds (out : Out) (s : State) (o : VCarryOp) (made : Vector (BitVec 4096) 32 → Nat → Bool → Prop) : Prop :=
  let w := o.fmt.width
  let n := grpSize o.m.grp
  ∃ v m, out = .next (({ s with c := { s.c with v := v, m := m } }).adv) ∧
    (∀ r : VReg, (∀ g, g < n → r ≠ regAt o.vd g) → v[r] = s.c.v[r]) ∧
    (∀ r : MReg, r ≠ o.md ∨ r = 0 → m[r] = s.c.m[r]) ∧
    (∀ i, i < 4096 → inReach s w i = false → (m[o.md]).getLsbD i = (s.c.m[o.md]).getLsbD i) ∧
    ∀ i, w * i < 4096 →
      if !inReach s w i then (∀ g, g < n → elem w v[regAt o.vd g] i = elem w s.c.v[regAt o.vd g] i) ∧
        (o.md ≠ 0 → (m[o.md]).getLsbD i = (s.c.m[o.md]).getLsbD i)
      else if s.c.vl.toNat ≤ i then (∀ g, g < n → elem w v[regAt o.vd g] i = 0) ∧ (o.md ≠ 0 → (m[o.md]).getLsbD i = false)
      else ∃ carry : Bool, (o.md ≠ 0 → (m[o.md]).getLsbD i = carry) ∧ made v i carry

theorem carryOp_holds {s : State} {step : Nat → Nat → Nat → Bool → Nat × Bool} {o : VCarryOp} (h : LanesReady s o.fmt.width)
    (hlt : ∀ a b c, (step o.fmt.width a b c).1 < 2 ^ o.fmt.width) {made : Vector (BitVec 4096) 32 → Nat → Bool → Prop}
    (hmade : ∀ v i, (∀ g, g < grpSize o.m.grp → elem o.fmt.width v[regAt o.vd g] i = s.chainLimb step o i g) →
      made v i (s.chain step o i (grpSize o.m.grp)).2) :
    CarryHolds (carryOp step o s) s o made := by
  obtain ⟨v, hv, hout, hin⟩ := carryOp_eq (step := step) h
  obtain ⟨m, hm, hother, hbit⟩ := putMask_maskWrites (s.withRegs v) o.md (carryBit s step o) (s.reach o.fmt.width)
  have hvl : s.vl = s.c.vl.toNat := rfl
  have hunreached {i : Nat} (hi : i < 4096) (hr : inReach s o.fmt.width i = false) :
      (m[o.md]).getLsbD i = (s.c.m[o.md]).getLsbD i := by
    by_cases hmd : o.md = 0
    · exact congrArg (BitVec.getLsbD · i) (hother o.md (.inr hmd))
    · rw [hbit hmd i hi, if_neg (by rw [mem_reach (width_dvd _), hr]; decide)]
      rfl
  refine ⟨v, m, by rw [hv, hm]; rfl, hout, hother, fun i hi hr => hunreached hi hr, fun i hi => ?_⟩
  have hi' : i < 4096 := (Nat.le_mul_of_pos_left i (width_pos _)).trans_lt hi
  have helem (g : Nat) (hg : g < grpSize o.m.grp) : elem o.fmt.width v[regAt o.vd g] i =
      if inReach s o.fmt.width i then if i < s.vl then s.chainLimb step o i g else 0 else elem o.fmt.width s.c.v[regAt o.vd g] i := by
    rw [hin g hg, elem_setElems (dvd_image (width_dvd _)) _ hi]
    simp only [mem_reach (width_dvd _), carryElem, if_neg (not_noLimit_le hi'), Option.elim]
    refine if_congr Iff.rfl (Nat.mod_eq_of_lt ?_) rfl
    split
    · exact hlt _ _ _
    · exact Nat.two_pow_pos _
  have hmask (hmd : o.md ≠ 0) (hr : inReach s o.fmt.width i = true) :
      (m[o.md]).getLsbD i = if i < s.vl then (s.chain step o i (grpSize o.m.grp)).2 else false := by
    rw [hbit hmd i hi', if_pos ((mem_reach (width_dvd _)).2 hr), carryBit, if_neg (not_noLimit_le hi')]
    rfl
  cases hr : inReach s o.fmt.width i
  · refine ⟨fun g hg => ?_, fun _ => hunreached hi' hr⟩
    rw [helem g hg, hr]
    rfl
  · by_cases hpad : s.c.vl.toNat ≤ i
    · simp only [Bool.not_true, Bool.false_eq_true, if_false, if_pos hpad]
      refine ⟨fun g hg => ?_, fun hmd => ?_⟩
      · rw [helem g hg, hr, if_pos rfl, if_neg (by omega)]
      · rw [hmask hmd hr, if_neg (by omega)]
    · simp only [Bool.not_true, Bool.false_eq_true, if_false, if_neg hpad]
      refine ⟨(s.chain step o i (grpSize o.m.grp)).2, fun hmd => ?_, hmade v i fun g hg => ?_⟩
      · rw [hmask hmd hr, if_pos (by omega)]
      · rw [helem g hg, hr, if_pos rfl, if_pos (by omega)]

/-- Settles O22: limb by limb, a chain carries what its limbs cannot hold. -/
theorem carryChains : Obligations.CarryChains := by
  intro sub s o _ h
  cases sub with
  | false => exact carryOp_holds h (addCarry_lt _) fun v i hv => addCarry_sum hv
  | true => exact carryOp_holds h (subBorrow_lt _) fun v i hv => subBorrow_sum hv

end Sys2Proof.Machine
end

