-- ==== Sys2Proof/Proofs/LaneWidths.lean ====
section
/-! Values brought to a format stay within its width, in every format (R56, R63 to R65, R74). -/

namespace Sys2Proof.Machine

theorem two_pow_width (f : Fmt) : 2 ^ f.width = 2 ^ (f.width - 1) + 2 ^ (f.width - 1) := by
  rw [← Nat.two_mul, ← pow_succ', Nat.sub_add_cancel (width_pos f)]

theorem withSign_lt_width (f : Fmt) (neg : Bool) {p : Nat} (h : p < 2 ^ (f.width - 1)) : withSign f neg p < 2 ^ f.width := by
  have h2 := two_pow_width f
  cases neg <;> simp only [withSign, if_true, Bool.false_eq_true, if_false] <;> omega

/-- The special patterns of a floating-point format, and its largest finite one, with sign 0 (R61). -/
theorem specials_lt (f : Fmt) : canonicalNaN f < 2 ^ f.width ∧ maxFinite f < 2 ^ (f.width - 1) ∧ infPattern f < 2 ^ (f.width - 1) := by
  cases f <;> decide

theorem mbits_le {f : Fmt} {l : FpLayout} (hl : fpLayout f = some l) : l.mbits ≤ f.width - 1 := by
  cases f <;> cases hl <;> decide

theorem overflow_lt (f : Fmt) (rnd : Rnd) (sat neg : Bool) : overflow f rnd sat neg < 2 ^ f.width := by
  obtain ⟨hnan, hmax, hinf⟩ := specials_lt f
  unfold overflow
  dsimp only
  split_ifs
  · exact withSign_lt_width f neg hmax
  · exact withSign_lt_width f neg hinf
  · exact hnan

theorem fpRound_lt {f : Fmt} {l : FpLayout} (hl : fpLayout f = some l) (rnd : Rnd) (sat neg : Bool) (m : Nat) (e : Int) :
    fpRound f l rnd sat neg m e < 2 ^ f.width := by
  have hsub : 2 ^ l.mbits ≤ 2 ^ (f.width - 1) := Nat.pow_le_pow_right (by decide) (mbits_le hl)
  have hmax := (specials_lt f).2.1
  by_cases hm : m = 0
  · rw [fpRound, if_pos hm]
    exact withSign_lt_width f neg (Nat.two_pow_pos _)
  · rw [fpRound, if_neg hm]
    extract_lets emin q t carry t' q' b p
    split
    · exact withSign_lt_width f neg (by omega)
    · split
      · exact overflow_lt f rnd sat neg
      · exact withSign_lt_width f neg (by omega)

theorem wrapInt_lt (w : Nat) (z : Int) : wrapInt w z < 2 ^ w := wrapInt_eq_pat w z ▸ pat_lt w z

/-- An exact value brought to a format is a pattern of that format. -/
theorem encode_lt_width (f : Fmt) (u : Bool) (rnd : Rnd) (sat : Bool) (v : FVal) : Machine.encode f u rnd sat v < 2 ^ f.width := by
  obtain ⟨hnan, hmax, hinf⟩ := specials_lt f
  unfold Machine.encode
  cases hl : fpLayout f with
  | none =>
    cases v with
    | nan => exact Nat.two_pow_pos _
    | inf neg => exact wrapInt_lt _ _
    | fin neg m e => exact wrapInt_lt _ _
  | some l =>
    cases v with
    | nan => exact hnan
    | inf neg =>
      simp only [fpEncode]
      split_ifs
      · exact withSign_lt_width f neg hinf
      · exact hnan
      · exact withSign_lt_width f neg hmax
    | fin neg m e => exact fpRound_lt hl rnd sat neg m e

theorem bfImm_lt {f : Fmt} (he8 : f ≠ .e8) (v : BitVec 16) : bfImm f v < 2 ^ f.width := by
  have hv := v.isLt
  by_cases h32 : f = .fp32
  · subst h32
    exact Nat.mul_lt_mul_of_pos_right (k := 2 ^ 16) hv (by decide)
  by_cases h16 : f = .bf16
  · subst h16
    exact hv
  unfold bfImm
  split
  · contradiction
  · contradiction
  · split
    · cases f
      case fp32 | bf16 | e8 => contradiction
      all_goals exact withSign_lt_width _ _ (by decide)
    · dsimp only
      split
      · exact encode_lt_width _ _ _ _ _
      · exact Nat.mod_lt _ (Nat.two_pow_pos _)

theorem immElem_lt (f : Fmt) (v : BitVec 16) : immElem f v < 2 ^ f.width := by
  unfold immElem
  split_ifs with hint he8
  · exact Nat.mod_lt _ (Nat.two_pow_pos _)
  · subst he8
    exact Nat.mod_lt _ (by decide)
  · exact bfImm_lt he8 v

theorem sourceB_lt_width (s : State) (f : Fmt) (b : VSrc) (g i : Nat) : sourceB s f b g i < 2 ^ f.width := by
  cases b with
  | vec r => exact elem_lt _ _ _
  | sca x => exact Nat.mod_lt _ (Nat.two_pow_pos _)
  | imm v =>
    unfold sourceB
    dsimp only
    split
    · exact pat_lt _ _
    · exact immElem_lt f v

/-! Instructions of one, two and three sources, element by element. -/

section
variable {s : State}

theorem lane1_lanewise {op : Fmt → VMods → Nat → Nat} {o : VUnOp} {val : Nat → Nat} (h : LanesReady s o.fmt.width)
    (hop : ∀ a, a < 2 ^ o.fmt.width → op o.fmt o.m a = val a ∧ val a < 2 ^ o.fmt.width) :
    Lanewise (lane1 op o s) s o.fmt.width (grpSize o.m.grp) o.vd o.pm fun g i => some (val (elem o.fmt.width s.c.v[regAt o.va g] i)) := by
  have hrow (g i : Nat) := hop _ (elem_lt o.fmt.width s.c.v[regAt o.va g] i)
  have hval : (fun g i => some (op o.fmt o.m (s.elemAt (regAt o.va g) o.fmt.width i))) =
      fun g i => some (val (elem o.fmt.width s.c.v[regAt o.va g] i)) := by
    funext g i
    exact congrArg some (hrow g i).1
  rw [lane1, hval]
  refine elementwise_lanewise h ((grpSize_le _).trans (by decide)) _ _ _ fun g i x hx => ?_
  cases hx
  exact (hrow g i).2

theorem lane2_lanewise_of {op : Fmt → VMods → Nat → Nat → Nat} {o : VBinOp} {val : Nat → Nat → Nat}
    (h : LanesReady s o.fmt.width)
    (hop : ∀ a b, a < 2 ^ o.fmt.width → b < 2 ^ o.fmt.width → op o.fmt o.m a b = val a b ∧ val a b < 2 ^ o.fmt.width) :
    Lanewise (lane2 op o s) s o.fmt.width (grpSize o.m.grp) o.vd o.pm fun g i =>
      some (val (elem o.fmt.width s.c.v[regAt o.va g] i) (sourceB s o.fmt o.b g i)) := by
  have hrow (g i : Nat) := hop _ _ (elem_lt o.fmt.width s.c.v[regAt o.va g] i) (sourceB_lt_width s o.fmt o.b g i)
  have hval : (fun g i => some (op o.fmt o.m (s.elemAt (regAt o.va g) o.fmt.width i) (s.second o.fmt o.b g i))) =
      fun g i => some (val (elem o.fmt.width s.c.v[regAt o.va g] i) (sourceB s o.fmt o.b g i)) := by
    funext g i
    rw [second_eq_sourceB]
    exact congrArg some (hrow g i).1
  rw [lane2, hval]
  refine elementwise_lanewise h ((grpSize_le _).trans (by decide)) _ _ _ fun g i x hx => ?_
  cases hx
  exact (hrow g i).2

end

end Sys2Proof.Machine
end

