-- ==== Sys2Proof/Proofs/LaneFloats.lean ====
section
/-! The floating-point operations of the lanes, each by its rule over exact values (R82 to R84; O24). -/

namespace Sys2Proof.Machine

/-! Signs of patterns. -/

theorem withSign_signOf_magOf {f : Fmt} {a : Nat} (ha : a < 2 ^ f.width) : withSign f (signOf f a) (magOf f a) = a := by
  have h2 := two_pow_width f
  have hdiv := Nat.div_add_mod a (2 ^ (f.width - 1))
  rw [signOf, Nat.testBit_eq_decide_div_mod_eq]
  by_cases h : a < 2 ^ (f.width - 1)
  · simp [withSign, magOf, Nat.div_eq_of_lt h, Nat.mod_eq_of_lt h]
  · have hq : a / 2 ^ (f.width - 1) = 1 := Nat.div_eq_of_lt_le (by omega) (by omega)
    rw [hq] at hdiv ⊢
    simp [withSign, magOf]
    omega

theorem magOf_lt (f : Fmt) (a : Nat) : magOf f a < 2 ^ (f.width - 1) := Nat.mod_lt _ (Nat.two_pow_pos _)

/-- The sign bit of a pattern, in its place. -/
theorem sign_in_place {f : Fmt} {a : Nat} (ha : a < 2 ^ f.width) :
    a / 2 ^ (f.width - 1) * 2 ^ (f.width - 1) = if signOf f a then 2 ^ (f.width - 1) else 0 := by
  have hdiv := Nat.div_add_mod' a (2 ^ (f.width - 1))
  have hsign : withSign f (signOf f a) (magOf f a) = a := withSign_signOf_magOf ha
  unfold withSign magOf at hsign
  split at hsign
  · rw [if_pos (by assumption)]
    omega
  · rw [if_neg (by assumption)]
    omega

theorem withSign_not {f : Fmt} {a : Nat} (ha : a < 2 ^ f.width) :
    withSign f (!signOf f a) (magOf f a) = (a + 2 ^ (f.width - 1)) % 2 ^ f.width := by
  have h2 := two_pow_width f
  have hmag := magOf_lt f a
  have hsign := withSign_signOf_magOf ha
  cases hs : signOf f a <;> rw [hs] at hsign <;> simp only [withSign, Bool.not_false, Bool.not_true, if_true, Bool.false_eq_true,
    if_false] at hsign ⊢
  · rw [hsign, Nat.mod_eq_of_lt (by omega)]
  · rw [← hsign, Nat.add_assoc, ← h2, Nat.add_mod_right, Nat.mod_eq_of_lt (by omega), hsign]

/-! One row at a time. -/

/-- What R82 to R84 say of an element operation: over a floating-point format, patterns to a pattern. -/
def FloatRow (op val : Fmt → VMods → Nat → Nat → Nat) : Prop :=
  ∀ (f : Fmt) (m : VMods) (a b : Nat), f.isFp = true → a < 2 ^ f.width → b < 2 ^ f.width →
    op f m a b = val f m a b ∧ val f m a b < 2 ^ f.width

def FloatRow1 (op val : Fmt → VMods → Nat → Nat) : Prop :=
  ∀ (f : Fmt) (m : VMods) (a : Nat), f.isFp = true → a < 2 ^ f.width → op f m a = val f m a ∧ val f m a < 2 ^ f.width

theorem fpOp_row (op : Rnd → FVal → FVal → FVal) : FloatRow (fpOp op) fun f m a b => rounded f m (op m.rnd (fval f a) (fval f b)) :=
  fun _ _ _ _ _ _ _ => ⟨rfl, encode_lt_width _ _ _ _ _⟩

theorem fpOp1_row (op : FVal → FVal) : FloatRow1 (fpOp1 op) fun f m a => rounded f m (op (fval f a)) :=
  fun _ _ _ _ _ => ⟨rfl, encode_lt_width _ _ _ _ _⟩

/-- The value of a pattern, brought to its format again. -/
theorem rounded_fval {f : Fmt} (hf : f.isFp = true) (m : VMods) {p : Nat} (hp : p < 2 ^ f.width) :
    rounded f m (fval f p) = if (fval f p).isNaN then canonicalNaN f else p := by
  obtain ⟨l, hl⟩ := exists_isFloat hf
  by_cases h : (fval f p).isNaN = true
  · have hv : fval f p = .nan := by
      cases hv : fval f p with
      | nan => rfl
      | inf _ | fin _ _ _ => rw [hv] at h; cases h
    rw [if_pos h, hv, rounded, Machine.encode, hl.layout]
    rfl
  · rw [if_neg h]
    exact encode_fval hl m.rnd m.sat hp (by simpa using h)

/-- One of two patterns, by which of their values is taken (R84). -/
theorem select_row {op : FVal → FVal → FVal} {second : FVal → FVal → Bool}
    (hop : ∀ x y, op x y = if x.isNaN then y else if y.isNaN then x else if second x y then y else x) :
    FloatRow (fpOp fun _ => op) fun f _ a b =>
      if (fval f a).isNaN then if (fval f b).isNaN then canonicalNaN f else b
      else if (fval f b).isNaN then a else if second (fval f a) (fval f b) then b else a := by
  intro f m a b hf ha hb
  have hra := rounded_fval hf m ha
  have hrb := rounded_fval hf m hb
  have heq : fpOp (fun _ => op) f m a b = rounded f m (op (fval f a) (fval f b)) := rfl
  have hnan := (specials_lt f).1
  dsimp only
  rw [heq, hop]
  by_cases hna : (fval f a).isNaN = true
  · rw [if_pos hna, if_pos hna, hrb]
    refine ⟨rfl, ?_⟩
    split
    · exact hnan
    · exact hb
  · rw [if_neg hna, if_neg hna]
    rw [if_neg hna] at hra
    by_cases hnb : (fval f b).isNaN = true
    · rw [if_pos hnb, if_pos hnb]
      exact ⟨hra, ha⟩
    · rw [if_neg hnb, if_neg hnb]
      rw [if_neg hnb] at hrb
      split
      · exact ⟨hrb, hb⟩
      · exact ⟨hra, ha⟩

theorem minNum_row : FloatRow (fpOp fun _ => FVal.minNum) fun f _ a b =>
    if (fval f a).isNaN then if (fval f b).isNaN then canonicalNaN f else b
    else if (fval f b).isNaN then a else if (fval f b).ltTotal (fval f a) then b else a :=
  select_row (second := fun x y => y.ltTotal x) fun _ _ => rfl

theorem maxNum_row : FloatRow (fpOp fun _ => FVal.maxNum) fun f _ a b =>
    if (fval f a).isNaN then if (fval f b).isNaN then canonicalNaN f else b
    else if (fval f b).isNaN then a else if (fval f a).ltTotal (fval f b) then b else a :=
  select_row (second := fun x y => x.ltTotal y) fun _ _ => rfl

theorem signOp_lt {f : Fmt} {op : Nat → Nat} {a : Nat} (h : op a < 2 ^ f.width) : signOp op f a < 2 ^ f.width := by
  unfold signOp
  split
  · exact (specials_lt f).1
  · exact h

theorem vfsgn_row : FloatRow (fun f _ a b => signOp (fun a => withSign f (signOf f b) (magOf f a)) f a) fun f _ a b =>
    if (fval f a).isNaN then canonicalNaN f else a % 2 ^ (f.width - 1) + b / 2 ^ (f.width - 1) * 2 ^ (f.width - 1) := by
  intro f m a b _ _ hb
  have heq : withSign f (signOf f b) (magOf f a) = a % 2 ^ (f.width - 1) + b / 2 ^ (f.width - 1) * 2 ^ (f.width - 1) := by
    rw [sign_in_place hb, withSign, magOf]
    split
    · rfl
    · exact (Nat.add_zero _).symm
  dsimp only
  rw [← heq]
  exact ⟨rfl, signOp_lt (op := fun a => withSign f (signOf f b) (magOf f a)) (withSign_lt_width f _ (magOf_lt f a))⟩

theorem vfabs_row : FloatRow1 (fun f _ => signOp (magOf f) f) fun f _ a =>
    if (fval f a).isNaN then canonicalNaN f else a % 2 ^ (f.width - 1) := fun f _ a _ _ =>
  ⟨rfl, signOp_lt (op := magOf f) (withSign_lt_width f false (magOf_lt f a))⟩

theorem vfneg_row : FloatRow1 (fun f _ => signOp (fun a => withSign f (!signOf f a) (magOf f a)) f) fun f _ a =>
    if (fval f a).isNaN then canonicalNaN f else (a + 2 ^ (f.width - 1)) % 2 ^ f.width := by
  intro f m a _ ha
  dsimp only
  rw [← withSign_not ha]
  exact ⟨rfl, signOp_lt (op := fun a => withSign f (!signOf f a) (magOf f a)) (withSign_lt_width f _ (magOf_lt f a))⟩

/-- What is claimed of a row of VFA with two sources, and with one. -/
def VfaHolds (p : (VBinOp → Instr) × (Fmt → VMods → Nat → Nat → Nat)) : Prop :=
  ∀ (s : State) (o : VBinOp), (p.1 o).wf = true → LanesReady s o.fmt.width →
    Lanewise (exec (p.1 o) s) s o.fmt.width (grpSize o.m.grp) o.vd o.pm fun g i =>
      some (p.2 o.fmt o.m (elem o.fmt.width s.c.v[regAt o.va g] i) (sourceB s o.fmt o.b g i))

def VfaHolds1 (p : (VUnOp → Instr) × (Fmt → VMods → Nat → Nat)) : Prop :=
  ∀ (s : State) (o : VUnOp), (p.1 o).wf = true → LanesReady s o.fmt.width →
    Lanewise (exec (p.1 o) s) s o.fmt.width (grpSize o.m.grp) o.vd o.pm fun g i =>
      some (p.2 o.fmt o.m (elem o.fmt.width s.c.v[regAt o.va g] i))

theorem vfaHolds_of_row {instr : VBinOp → Instr} {op val : Fmt → VMods → Nat → Nat → Nat}
    (hop : FloatRow op val) (hexec : ∀ o s, exec (instr o) s = lane2 op o s) (hwf : ∀ o, (instr o).wf = (o.ill Fmt.isFp).isNone) :
    VfaHolds (instr, val) := by
  intro s o hw h
  simp only [hexec]
  exact lane2_lanewise_of h fun a b ha hb => hop o.fmt o.m a b (fmt_of_firstIll (hwf o ▸ hw)) ha hb

theorem vfaHolds1_of_row {instr : VUnOp → Instr} {op val : Fmt → VMods → Nat → Nat}
    (hop : FloatRow1 op val) (hexec : ∀ o s, exec (instr o) s = lane1 op o s) (hwf : ∀ o, (instr o).wf = (o.ill Fmt.isFp).isNone) :
    VfaHolds1 (instr, val) := by
  intro s o hw h
  simp only [hexec]
  exact lane1_lanewise h fun a ha => hop o.fmt o.m a (fmt_of_firstIll (hwf o ▸ hw)) ha

theorem vfaRows_hold : ∀ p ∈ vfaRows, VfaHolds p := by
  simp only [vfaRows, List.forall_mem_cons]
  refine ⟨?add, ?sub, ?mul, ?div, ?min, ?max, ?sgn, fun _ h => absurd h List.not_mem_nil⟩
  case add => exact vfaHolds_of_row (fpOp_row FVal.add) (fun _ _ => rfl) fun _ => rfl
  case sub => exact vfaHolds_of_row (fpOp_row FVal.sub) (fun _ _ => rfl) fun _ => rfl
  case mul => exact vfaHolds_of_row (fpOp_row fun _ => FVal.mul) (fun _ _ => rfl) fun _ => rfl
  case div => exact vfaHolds_of_row (fpOp_row fun _ => FVal.div) (fun _ _ => rfl) fun _ => rfl
  case min => exact vfaHolds_of_row minNum_row (fun _ _ => rfl) fun _ => rfl
  case max => exact vfaHolds_of_row maxNum_row (fun _ _ => rfl) fun _ => rfl
  case sgn => exact vfaHolds_of_row vfsgn_row (fun _ _ => rfl) fun _ => rfl

theorem vfaRows1_hold : ∀ p ∈ vfaRows1, VfaHolds1 p := by
  simp only [vfaRows1, List.forall_mem_cons]
  refine ⟨?abs, ?neg, ?exp2, ?log2, ?rcp, ?rsq, ?sqrt, fun _ h => absurd h List.not_mem_nil⟩
  case abs => exact vfaHolds1_of_row vfabs_row (fun _ _ => rfl) fun _ => rfl
  case neg => exact vfaHolds1_of_row vfneg_row (fun _ _ => rfl) fun _ => rfl
  case exp2 => exact vfaHolds1_of_row (fpOp1_row FVal.exp2) (fun _ _ => rfl) fun _ => rfl
  case log2 => exact vfaHolds1_of_row (fpOp1_row FVal.log2) (fun _ _ => rfl) fun _ => rfl
  case rcp => exact vfaHolds1_of_row (fpOp1_row FVal.rcp) (fun _ _ => rfl) fun _ => rfl
  case rsq => exact vfaHolds1_of_row (fpOp1_row FVal.rsq) (fun _ _ => rfl) fun _ => rfl
  case sqrt => exact vfaHolds1_of_row (fpOp1_row FVal.sqrt) (fun _ _ => rfl) fun _ => rfl

/-- vffma and vffnma: one rounding of the exact product and sum (R82). -/
theorem fma_lanewise (neg : Bool) {s : State} {o : VTernOp} (h : LanesReady s o.fmt.width) :
    Lanewise (exec (if neg then .vffnma o else .vffma o) s) s o.fmt.width (grpSize o.m.grp) o.vd o.pm fun g i =>
      let x := (fval o.fmt (elem o.fmt.width s.c.v[regAt o.va g] i)).mul (fval o.fmt (elem o.fmt.width s.c.v[regAt o.vb g] i))
      some (rounded o.fmt o.m ((if neg then x.neg else x).add o.m.rnd (fval o.fmt (elem o.fmt.width s.c.v[regAt o.vc g] i)))) := by
  have hexec : exec (if neg then .vffnma o else .vffma o) s = lane3 (fmaElem neg) o s := by cases neg <;> rfl
  rw [hexec]
  refine elementwise_lanewise h ((grpSize_le _).trans (by decide)) _ _ _ fun g i x hx => ?_
  cases hx
  exact encode_lt_width _ _ _ _ _

/-! The special functions where they are exact (R83). -/

/-- A value of small magnitude has few bits before its point. -/
theorem log2_lt_of_abs {neg : Bool} {m : Nat} {e k : Int} (hm : m ≠ 0) (hk : |k| < 512) (h : ratOf (.fin neg m e) = k) :
    (Nat.log2 m : Int) + e < 10 := by
  have habs : (m : ℚ) * 2 ^ e = |(k : ℚ)| := by
    rw [← h, ratOf_fin, abs_mul, abs_of_pos (a := (2 : ℚ) ^ e) (by positivity)]
    cases neg <;> simp
  have hlt : (m : ℚ) * 2 ^ e < 2 ^ (10 : Int) := by
    have : (|k| : ℚ) < 512 := by exact_mod_cast hk
    rw [habs]
    norm_num
    linarith
  have hlog : (2 : ℚ) ^ ((Nat.log2 m : Int) + e) ≤ m * 2 ^ e := by
    rw [zpow_add₀ (by norm_num), zpow_natCast]
    have : ((2 ^ Nat.log2 m : Nat) : ℚ) ≤ m := by exact_mod_cast Nat.log2_self_le hm
    push_cast at this
    gcongr
  exact (zpow_lt_zpow_iff_right₀ (by norm_num)).1 (hlog.trans_lt hlt)

/-- 2^k of an integer k, of at most 2^9 in magnitude and given to at most fracBits fraction bits. -/
theorem exp2_of_integer {neg : Bool} {m : Nat} {e k : Int} (hk : |k| < 512) (he : -320 ≤ e) (h : ratOf (.fin neg m e) = k) :
    ∃ n d, FVal.exp2 (.fin neg m e) = .fin false n d ∧ ratOf (FVal.exp2 (.fin neg m e)) = (2 : ℚ) ^ k := by
  have hpow (n : Int) : ratOf (.fin false 1 n) = (2 : ℚ) ^ n := by rw [ratOf_fin]; simp
  suffices hone : FVal.exp2 (.fin neg m e) = .fin false 1 k from ⟨1, k, hone, hone ▸ hpow k⟩
  have hexp : FVal.exp2 (.fin neg m e) = exp2Val neg m e := rfl
  rw [hexp, exp2Val]
  by_cases hm : m = 0
  · have hk0 : (k : ℚ) = 0 := h ▸ ratOf_fin_eq_zero.2 hm
    rw [if_pos hm, Int.cast_eq_zero.1 hk0]
  · have hsmall : ¬ (Nat.log2 m : Int) + e ≥ 10 := not_le.2 (log2_lt_of_abs hm hk h)
    have hfrac : -(fracBits : Int) ≤ e := he
    have hz : signedAt neg m e (-(fracBits : Int)) = k * (2 ^ fracBits : Nat) := by
      have := signedAt_mul neg m hfrac
      rw [h, zpow_neg, zpow_natCast, mul_inv_eq_iff_eq_mul₀ (by positivity)] at this
      exact_mod_cast this
    have hpos : ((2 ^ fracBits : Nat) : Int) ≠ 0 := by positivity
    have hge : e + fracBits ≥ 0 := by omega
    rw [if_neg hm, if_neg hsmall]
    simp only [if_pos hge, hz, Int.mul_emod_left, Int.mul_ediv_cancel _ hpos, Int.toNat_zero, if_true]

/-- log2 of a power of two. -/
theorem log2_of_power {neg : Bool} {m : Nat} {e k : Int} (h : ratOf (.fin neg m e) = (2 : ℚ) ^ k) :
    FVal.log2 (.fin neg m e) = FVal.ofInt k := by
  have hk : (0 : ℚ) < 2 ^ k := by positivity
  have hm : m ≠ 0 := fun h0 => hk.ne' (h ▸ ratOf_fin_eq_zero.2 h0)
  rw [ratOf_fin] at h
  cases neg with
  | true =>
    have : (0 : ℚ) ≤ m * 2 ^ e := by positivity
    rw [if_pos rfl, neg_mul] at h
    linarith
  | false =>
    rw [if_neg (by decide)] at h
    have hme : (m : ℚ) = 2 ^ (k - e) := by
      rw [zpow_sub₀ (by norm_num), ← h, mul_div_cancel_right₀ _ (by positivity)]
    have hge : 0 ≤ k - e := by
      by_contra hlt
      have h1 : (1 : ℚ) ≤ m := by exact_mod_cast Nat.one_le_iff_ne_zero.2 hm
      have h2 : (2 : ℚ) ^ (k - e) < 1 := zpow_lt_one_of_neg₀ (by norm_num) (not_le.1 hlt)
      linarith
    obtain ⟨j, hj⟩ := Int.eq_ofNat_of_zero_le hge
    rw [hj, zpow_natCast] at hme
    obtain rfl : m = 2 ^ j := by exact_mod_cast hme
    have hlog : FVal.log2 (.fin false (2 ^ j) e) = log2Val (2 ^ j) e := by rw [FVal.log2, if_neg hm, if_neg Bool.false_ne_true]
    rw [hlog, log2Val, Nat.log2_two_pow, if_pos rfl, show (j : Int) + e = k by omega]

/-- The special functions at the inputs of R83. -/
theorem special_inputs (a : FVal) : let one : FVal := .fin false 1 0
    (a = .inf true → a.exp2 = .fin false 0 0 ∧ a.log2 = .nan ∧ one.div a = .fin true 0 0 ∧ a.rsq = .nan ∧ a.sqrt = .nan) ∧
    (a = .inf false → a.exp2 = a ∧ a.log2 = a ∧ one.div a = .fin false 0 0 ∧ a.rsq = .fin false 0 0 ∧ a.sqrt = a) ∧
    (a = .nan → a.exp2 = .nan ∧ a.log2 = .nan ∧ one.div a = .nan ∧ a.rsq = .nan ∧ a.sqrt = .nan) ∧
    ∀ (neg : Bool) (m : Nat) (e : Int), a = .fin neg m e →
      (m = 0 → a.exp2 = one ∧ a.log2 = .inf true ∧ one.div a = .inf neg ∧ a.rsq = .inf neg ∧ a.sqrt = .fin neg 0 0) ∧
      (m ≠ 0 → neg = true → a.log2 = .nan ∧ a.rsq = .nan ∧ a.sqrt = .nan) := by
  refine ⟨?_, ?_, ?_, ?_⟩
  · rintro rfl
    exact ⟨rfl, rfl, rfl, rfl, rfl⟩
  · rintro rfl
    exact ⟨rfl, rfl, rfl, rfl, rfl⟩
  · rintro rfl
    exact ⟨rfl, rfl, rfl, rfl, rfl⟩
  · rintro neg m e rfl
    refine ⟨?_, fun hm hneg => ?_⟩
    · rintro rfl
      cases neg <;> exact ⟨rfl, rfl, rfl, rfl, rfl⟩
    · simp [FVal.log2, FVal.rsq, FVal.sqrt, hm, hneg]

/-- Settles O24: each instruction is its operation on exact values, rounded once; the special functions case by case. -/
theorem laneFloatResults : Obligations.LaneFloatResults := by
  refine ⟨vfaRows_hold, vfaRows1_hold, fun neg s o _ h => ⟨fma_lanewise neg h, fun a => ?_⟩⟩
  obtain ⟨hneg, hpos, hnan, hfin⟩ := special_inputs a
  refine ⟨hneg, hpos, hnan, fun neg m e ha => ⟨(hfin neg m e ha).1, (hfin neg m e ha).2, fun k => ?_⟩⟩
  subst ha
  exact ⟨fun hk he h => exp2_of_integer hk he h, fun h => log2_of_power h⟩

end Sys2Proof.Machine
end

