-- ==== Sys2Proof/Proofs/Permutes.lean ====
section
/-! Permutes and moves: the source of each element (R91, R107; O28). -/

namespace Sys2Proof.Machine

/-! Draining (R107). -/

theorem draining_of_drained {s : State} {qs : List Queue} (h : Drained s qs) (act : Out) : s.draining qs act = act :=
  if_pos (List.all_eq_true.2 h)

theorem draining_waits {s : State} {qs : List Queue} (h : ¬ Drained s qs) (act : Out) :
    Waits (s.draining qs act) s (.drain qs) .scu := by
  have hq : ¬ qs.all s.c.queues.isEmpty = true := fun hall => h (List.all_eq_true.1 hall)
  rw [State.draining, if_neg hq]
  rfl

/-! Element by element. -/

section
variable {s : State}

theorem Lanewise.congr {out : Out} {w n : Nat} {vd : VReg} {pm : MReg} {op op' : Nat → Nat → Option Nat}
    (h : Lanewise out s w n vd pm op) (heq : ∀ g i, op g i = op' g i) : Lanewise out s w n vd pm op' := by
  have hop : op = op' := funext fun g => funext (heq g)
  exact hop ▸ h

/-- What an element is that has the source x: none leaves it, none within writes +0. -/
def sourced (s : State) (w : Nat) (r : VReg) (x : Option (Option Nat)) : Option Nat := x.map fun j => j.elim 0 (elem w s.c.v[r])

theorem sourced_lt {w : Nat} {r : VReg} {x : Option (Option Nat)} {y : Nat} (h : sourced s w r x = some y) : y < 2 ^ w := by
  rcases x with _ | _ | j <;> cases h
  · exact Nat.two_pow_pos w
  · exact elem_lt w _ j

theorem permute_eq (f : Fmt) (n : Nat) (vd va : VReg) (pm : MReg) (extra : List Read) (src : Nat → Nat → Option (Option Nat)) :
    ∃ reads, s.permute f n vd va pm extra src =
      s.elementwise f n vd pm reads fun g i => sourced s f.width (regAt va g) (src g i) :=
  ⟨_, congrArg (s.elementwise f n vd pm _) (funext fun g => funext fun i => by rcases src g i with _ | _ | j <;> rfl)⟩

theorem permute_lanewise {f : Fmt} (h : LanesReady s f.width) (g : Fin 4) (vd va : VReg) (pm : MReg) (extra : List Read)
    (src : Nat → Nat → Option (Option Nat)) :
    Lanewise (s.permute f (grpSize g) vd va pm extra src) s f.width (grpSize g) vd pm
      fun g i => sourced s f.width (regAt va g) (src g i) := by
  obtain ⟨reads, heq⟩ := permute_eq (s := s) f (grpSize g) vd va pm extra src
  rw [heq]
  exact elementwise_lanewise h ((grpSize_le g).trans (by decide)) vd pm reads fun _ _ _ => sourced_lt

/-- vcomp and vexpd write every element: MK selects (R91). -/
theorem selectOp_eq (o : VUnOp) (src : Nat → Option Nat) : ∃ reads, s.selectOp o src =
    s.elementwise o.fmt (grpSize o.m.grp) o.vd 0 reads fun g i => sourced s o.fmt.width (regAt o.va g) (some (src i)) :=
  ⟨_, congrArg (s.elementwise o.fmt _ o.vd 0 _) (funext fun g => funext fun i => by cases src i <;> rfl)⟩

theorem selectOp_lanewise {o : VUnOp} (h : LanesReady s o.fmt.width) (src : Nat → Option Nat) :
    Lanewise (s.selectOp o src) s o.fmt.width (grpSize o.m.grp) o.vd 0
      fun g i => sourced s o.fmt.width (regAt o.va g) (some (src i)) := by
  obtain ⟨reads, heq⟩ := selectOp_eq (s := s) o src
  rw [heq]
  exact elementwise_lanewise h ((grpSize_le _).trans (by decide)) o.vd 0 reads fun _ _ _ => sourced_lt

end

/-! One instruction at a time. -/

section
variable {s : State}

theorem vslup_lanewise {o : VSlideOp} (h : LanesReady s o.fmt.width) :
    Lanewise (exec (.vslup o) s) s o.fmt.width (grpSize o.m.grp) o.vd o.pm
      fun g i => if vecCount s o.n ≤ i then some (elem o.fmt.width s.c.v[regAt o.va g] (i - vecCount s o.n)) else none := by
  refine Lanewise.congr (permute_lanewise h o.m.grp o.vd o.va o.pm [] fun _ i =>
    if s.vcount o.n ≤ i then some (some (i - s.vcount o.n)) else none) fun g i => ?_
  have hn : s.vcount o.n = vecCount s o.n := rfl
  rw [hn]
  split <;> rfl

theorem vsldn_lanewise {o : VSlideOp} (h : LanesReady s o.fmt.width) :
    Lanewise (exec (.vsldn o) s) s o.fmt.width (grpSize o.m.grp) o.vd o.pm fun g i =>
      some (if i + vecCount s o.n < s.c.vl.toNat then elem o.fmt.width s.c.v[regAt o.va g] (i + vecCount s o.n) else 0) := by
  refine Lanewise.congr (permute_lanewise h o.m.grp o.vd o.va o.pm [] fun _ i =>
    some (if i + s.vcount o.n < s.vl then some (i + s.vcount o.n) else none)) fun g i => ?_
  have hn : s.vcount o.n = vecCount s o.n := rfl
  have hvl : s.vl = s.c.vl.toNat := rfl
  rw [hn, hvl]
  split <;> rfl

theorem vgath_lanewise {o : VPairOp} (h : LanesReady s o.fmt.width) :
    Lanewise (exec (.vgath o) s) s o.fmt.width (grpSize o.m.grp) o.vd o.pm fun g i =>
      some (if elem o.fmt.width s.c.v[regAt o.vb g] i < s.c.vl.toNat then
        elem o.fmt.width s.c.v[regAt o.va g] (elem o.fmt.width s.c.v[regAt o.vb g] i) else 0) := by
  refine Lanewise.congr (permute_lanewise h o.m.grp o.vd o.va o.pm
    (groupReads o.vb (grpSize o.m.grp) o.fmt.width (s.actives o.fmt.width o.pm)) fun g i =>
      some (if s.elemAt (regAt o.vb g) o.fmt.width i < s.vl then some (s.elemAt (regAt o.vb g) o.fmt.width i) else none)) fun g i => ?_
  have he : s.elemAt (regAt o.vb g) o.fmt.width i = elem o.fmt.width s.c.v[regAt o.vb g] i := rfl
  have hvl : s.vl = s.c.vl.toNat := rfl
  rw [he, hvl]
  split <;> rfl

theorem vmvv_lanewise {o : VUnOp} (h : LanesReady s o.fmt.width) :
    Lanewise (exec (.vmvv o) s) s o.fmt.width (grpSize o.m.grp) o.vd o.pm fun g i => some (elem o.fmt.width s.c.v[regAt o.va g] i) :=
  lane1_lanewise (op := fun _ _ a => a) (val := fun a => a) h fun _ ha => ⟨rfl, ha⟩

theorem vcomp_lanewise {o : VUnOp} (h : LanesReady s o.fmt.width) :
    Lanewise (exec (.vcomp o) s) s o.fmt.width (grpSize o.m.grp) o.vd 0
      fun g i => sourced s o.fmt.width (regAt o.va g) (some (setBelow s o.pm)[i]?) :=
  selectOp_lanewise h fun i => (setBelow s o.pm)[i]?

theorem vexpd_lanewise {o : VUnOp} (h : LanesReady s o.fmt.width) :
    Lanewise (exec (.vexpd o) s) s o.fmt.width (grpSize o.m.grp) o.vd 0 fun g i =>
      some (if (s.rm o.pm).getLsbD i then
        elem o.fmt.width s.c.v[regAt o.va g] ((List.range i).filter fun j => (s.rm o.pm).getLsbD j).length else 0) := by
  refine Lanewise.congr (selectOp_lanewise h fun i =>
    if s.maskBit o.pm i then some ((List.range i).filter (s.maskBit o.pm)).length else none) fun g i => ?_
  have hm : s.maskBit o.pm i = (s.rm o.pm).getLsbD i := rfl
  rw [hm]
  split <;> rfl

theorem vbcast_lanewise {o : VBcastOp} (h : LanesReady s o.fmt.width) :
    Lanewise (exec (.vbcast o) s) s o.fmt.width (grpSize o.m.grp) o.vd o.pm fun g _ => some (sourceB s o.fmt o.b g 0) := by
  have hexec : exec (.vbcast o) s = execVbcast o s := rfl
  rw [hexec, execVbcast]
  simp only [second_eq_sourceB]
  refine elementwise_lanewise h ((grpSize_le _).trans (by decide)) _ _ _ fun g i x hx => ?_
  cases hx
  exact sourceB_lt_width s o.fmt o.b g 0

theorem vid_lanewise {o : VIdOp} (h : LanesReady s o.fmt.width) :
    Lanewise (exec (.vid o) s) s o.fmt.width (grpSize o.m.grp) o.vd o.pm fun _ i => some (i % 2 ^ o.fmt.width) := by
  refine elementwise_lanewise h ((grpSize_le _).trans (by decide)) _ _ _ fun g i x hx => ?_
  cases hx
  exact Nat.mod_lt _ (Nat.two_pow_pos _)

/-- A pattern of w bits, sign-extended to a word. -/
theorem sext64_eq_word {w : Nat} (hw : 0 < w) (hw' : w ≤ 64) {p : Nat} (hp : p < 2 ^ w) :
    BitVec.ofNat 64 (sext64 w p) = word (BitVec.ofNat w p).toInt := by
  have hnum : (BitVec.ofNat w p).toInt = intOf w false p := (intOf_eq_num hw false hp).symm
  have hle : 2 ^ w ≤ 2 ^ 64 := Nat.pow_le_pow_right (by decide) hw'
  have hm : p % 2 ^ w = p := Nat.mod_eq_of_lt hp
  have hcast : ((2 ^ w : Nat) : Int) = 2 ^ w := by push_cast; rfl
  refine BitVec.eq_of_toNat_eq ?_
  rw [word, BitVec.toNat_ofNat, BitVec.toNat_ofInt, hnum, sext64, intOf, hm]
  by_cases h : p < 2 ^ (w - 1)
  · simp only [if_pos h, Bool.false_eq_true, if_false]
    omega
  · simp only [if_neg h, Bool.false_eq_true, if_false]
    omega

theorem vmvx_gives {o : VMvxOp} (hscu : InScu s) (hq : Drained s [.vq, .lq]) (hconfig : s.badConfig = false) (hclean : s.c.vbad = []) :
    Gives (exec (.vmvx o) s) s o.rd
      (if o.fmt.isInt ∧ o.m.u = false then word (BitVec.ofNat o.fmt.width (elem o.fmt.width s.c.v[o.va] 0)).toInt
       else BitVec.ofNat 64 (elem o.fmt.width s.c.v[o.va] 0)) := by
  have hexec : exec (.vmvx o) s = execVmvx o s := rfl
  have hstop (rs : List Read) : s.sliceStop rs = none := if_pos hclean
  have hw : o.fmt.width ≤ 64 := Nat.le_of_dvd (by decide) (width_dvd _)
  have hval : BitVec.ofNat 64 (if o.fmt.isInt && !o.m.u then sext64 o.fmt.width (s.elemAt o.va o.fmt.width 0)
      else s.elemAt o.va o.fmt.width 0) =
      if o.fmt.isInt ∧ o.m.u = false then word (BitVec.ofNat o.fmt.width (elem o.fmt.width s.c.v[o.va] 0)).toInt
      else BitVec.ofNat 64 (elem o.fmt.width s.c.v[o.va] 0) := by
    by_cases hs : o.fmt.isInt = true ∧ o.m.u = false
    · rw [if_pos hs, if_pos (by simp [hs])]
      exact sext64_eq_word (width_pos _) hw (elem_lt _ _ _)
    · rw [if_neg hs, if_neg (by simpa using hs)]
      rfl
  rw [hexec, execVmvx, show drainLanes = [.vq, .lq] from rfl, draining_of_drained hq]
  simp only [hconfig, Bool.false_eq_true, if_false, hstop, readSlices_of_clean hclean, hval]
  exact gives_wx hscu _ _

end

/-- Settles O28: each permute by the source it gives every element; vmvx drains first. -/
theorem permutes : Obligations.Permutes := by
  refine ⟨fun s o _ h => ⟨vslup_lanewise h, vsldn_lanewise h⟩, fun s o _ h => vgath_lanewise h,
    fun s o _ h => ⟨vmvv_lanewise h, ?comp, vexpd_lanewise h⟩, fun s o _ h => vbcast_lanewise h, fun s o _ h => vid_lanewise h,
    fun s o hscu => ⟨fun hq hc hv => vmvx_gives hscu hq hc hv, fun hq => draining_waits hq _⟩⟩
  case comp =>
    refine Lanewise.congr (vcomp_lanewise h) fun g i => ?_
    cases (setBelow s o.pm)[i]? <;> rfl

end Sys2Proof.Machine
end

