-- ==== Sys2Proof/Proofs/RandomNumbers.lean ====
section
/-! Random numbers: the counter words of a quad, and Philox over them (R97, R98). -/

namespace Sys2Proof.Machine

/-! Words of 32 bits. -/

/-- The four words of a quad, each of 32 bits. -/
def QuadOk (c : Nat × Nat × Nat × Nat) : Prop := c.1 < 2 ^ 32 ∧ c.2.1 < 2 ^ 32 ∧ c.2.2.1 < 2 ^ 32 ∧ c.2.2.2 < 2 ^ 32

theorem quadWord_lt {c : Nat × Nat × Nat × Nat} (h : QuadOk c) (t : Nat) : quadWord c t < 2 ^ 32 := by
  obtain ⟨h0, h1, h2, h3⟩ := h
  unfold quadWord
  split <;> assumption

/-- The words of a quad in their order. -/
theorem getElem?_quad (c : Nat × Nat × Nat × Nat) {t : Nat} (ht : t < 4) :
    [c.1, c.2.1, c.2.2.1, c.2.2.2][t]? = some (quadWord c t) := by
  match t, ht with
  | 0, _ | 1, _ | 2, _ | 3, _ => rfl

theorem philoxRound_ok {c : Nat × Nat × Nat × Nat} (h : QuadOk c) {k0 k1 : Nat} (hk0 : k0 < 2 ^ 32) (hk1 : k1 < 2 ^ 32) :
    QuadOk (philoxRound c k0 k1) := by
  obtain ⟨h0, h1, h2, h3⟩ := h
  have high {a b : Nat} (ha : a < 2 ^ 32) (hb : b < 2 ^ 32) : a * b / 2 ^ 32 < 2 ^ 32 :=
    Nat.div_lt_of_lt_mul (Nat.mul_lt_mul'' ha hb)
  refine ⟨?_, Nat.mod_lt _ (by decide), ?_, Nat.mod_lt _ (by decide)⟩
  · exact Nat.xor_lt_two_pow (Nat.xor_lt_two_pow (high (by decide) h2) h1) hk0
  · exact Nat.xor_lt_two_pow (Nat.xor_lt_two_pow (high (by decide) h0) h3) hk1

/-- One round, then the others under the next key (R97). -/
theorem philox_succ (n : Nat) : philox (n + 1) = fun c k0 k1 =>
    philox n (philoxRound c k0 k1) ((k0 + 0x9E3779B9) % 2 ^ 32) ((k1 + 0xBB67AE85) % 2 ^ 32) := rfl

theorem philox_ok (n : Nat) : ∀ {c : Nat × Nat × Nat × Nat} {k0 k1 : Nat}, QuadOk c → k0 < 2 ^ 32 → k1 < 2 ^ 32 →
    QuadOk (philox n c k0 k1) := by
  induction n with
  | zero => exact fun h _ _ => h
  | succ n ih =>
    intro c k0 k1 h hk0 hk1
    rw [philox_succ]
    exact ih (philoxRound_ok h hk0 hk1) (Nat.mod_lt _ (Nat.two_pow_pos 32)) (Nat.mod_lt _ (Nat.two_pow_pos 32))

theorem key_high_lt (x : Word) : x.toNat / 2 ^ 32 < 2 ^ 32 := Nat.div_lt_of_lt_mul x.isLt

/-- The first element of the quad of element i. -/
theorem quad_start (i : Nat) : 4 * (i / 4) = i - i % 4 := by omega

/-- The counter words of quad j of register g, over the state in XB (R98). -/
def ctrQuad (s : State) (o : VRngOp) (g j : Nat) : Nat × Nat × Nat × Nat :=
  (elem 32 s.c.v[regAt o.va g] (4 * j), 0, (s.rx o.xb).toNat % 2 ^ 32, (s.rx o.xb).toNat / 2 ^ 32)

/-- Philox over quad j of register g, under the key in XB (R97). -/
def rngQuad (s : State) (o : VRngOp) (g j : Nat) : Nat × Nat × Nat × Nat :=
  philox 10 (elem 32 s.c.v[regAt o.va g] (4 * j), elem 32 s.c.v[regAt o.va g] (4 * j + 1), elem 32 s.c.v[regAt o.va g] (4 * j + 2),
    elem 32 s.c.v[regAt o.va g] (4 * j + 3)) ((s.rx o.xb).toNat % 2 ^ 32) ((s.rx o.xb).toNat / 2 ^ 32)

theorem ctrQuad_ok (s : State) (o : VRngOp) (g j : Nat) : QuadOk (ctrQuad s o g j) :=
  ⟨elem_lt _ _ _, Nat.two_pow_pos _, Nat.mod_lt _ (Nat.two_pow_pos _), key_high_lt _⟩

theorem rngQuad_ok (s : State) (o : VRngOp) (g j : Nat) : QuadOk (rngQuad s o g j) :=
  philox_ok 10 ⟨elem_lt _ _ _, elem_lt _ _ _, elem_lt _ _ _, elem_lt _ _ _⟩ (Nat.mod_lt _ (Nat.two_pow_pos _)) (key_high_lt _)

theorem execVctr_eq (s : State) (o : VRngOp) : ∃ used, exec (.vctr o) s = s.quadOp o used (ctrQuad s o) := ⟨_, rfl⟩
theorem execVrng_eq (s : State) (o : VRngOp) : ∃ used, exec (.vrng o) s = s.quadOp o used (rngQuad s o) := ⟨_, rfl⟩

/-! The instructions. -/

section
variable {s : State} {o : VRngOp} (h : LanesReady s 32)
include h

/-- On quads of granted elements, each element takes its word of its quad. -/
theorem quadOp_lanewise (hvl : s.c.vl = s.c.vlg) (h4 : s.c.vl.toNat % 4 = 0) (used : List (Nat × Nat))
    {quad : Nat → Nat → Nat × Nat × Nat × Nat} (hquad : ∀ g j, QuadOk (quad g j)) :
    Lanewise (s.quadOp o used quad) s 32 (grpSize o.m.grp) o.vd o.pm fun g i => some (quadWord (quad g (i / 4)) (i % 4)) := by
  have hclean : s.c.vbad = [] := h.2.2
  have hn : grpSize o.m.grp ≤ 32 := (grpSize_le _).trans (by decide)
  have hquads : ¬ (s.vl % 4 ≠ 0 ∨ s.vlg ≠ s.vl) := by
    have hle : s.vlg = s.vl := congrArg BitVec.toNat hvl.symm
    exact not_or.2 ⟨not_not.2 h4, not_not.2 hle⟩
  obtain ⟨v, hv, -, -⟩ := putGroup_of_clean hclean o.vd 32
    (fun g => s.results 32 o.pm noLimit fun i => some (quadWord (quad g (i / 4)) (i % 4))) hn
  rw [State.quadOp, configTrap_of_ready h]
  simp only [if_neg hquads, Option.or_none]
  rw [laneOp_of_clean hclean _ (by rw [hv]; exact hclean)]
  refine lanewise_putGroup hclean (by decide) hn o.vd o.pm fun g i x hx => ?_
  cases hx
  exact quadWord_lt (hquad g _) _

/-- Otherwise FORMAT, reason 5, before anything changes. -/
theorem quadOp_format (hbad : s.c.vl ≠ s.c.vlg ∨ s.c.vl.toNat % 4 ≠ 0) (used : List (Nat × Nat))
    (quad : Nat → Nat → Nat × Nat × Nat × Nat) :
    s.quadOp o used quad = .next (s.raise { cause := .format, detail := BitVec.ofNat 56 (5 * 2 ^ 48), unit := .vq }) := by
  have hquads : s.vl % 4 ≠ 0 ∨ s.vlg ≠ s.vl :=
    hbad.symm.imp_right fun hne he => hne (BitVec.eq_of_toNat_eq (Eq.symm he))
  rw [State.quadOp, configTrap_of_ready h]
  simp only [if_pos hquads, Option.none_or]
  rfl

theorem vctr_lanewise (hvl : s.c.vl = s.c.vlg) (h4 : s.c.vl.toNat % 4 = 0) :
    Lanewise (exec (.vctr o) s) s 32 (grpSize o.m.grp) o.vd o.pm fun g i =>
      [elem 32 s.c.v[regAt o.va g] (i - i % 4), 0, (s.rx o.xb).toNat % 2 ^ 32, (s.rx o.xb).toNat / 2 ^ 32][i % 4]? := by
  obtain ⟨used, heq⟩ := execVctr_eq s o
  have hquads := quadOp_lanewise (o := o) h hvl h4 used (ctrQuad_ok s o)
  simp only [← getElem?_quad _ (Nat.mod_lt _ (show 4 > 0 by decide)), ctrQuad, quad_start] at hquads
  rw [heq]
  exact hquads

theorem vrng_lanewise (hvl : s.c.vl = s.c.vlg) (h4 : s.c.vl.toNat % 4 = 0) :
    Lanewise (exec (.vrng o) s) s 32 (grpSize o.m.grp) o.vd o.pm fun g i =>
      let va (g i : Nat) := elem 32 s.c.v[regAt o.va g] i
      let j := i - i % 4
      let q := philox 10 (va g j, va g (j + 1), va g (j + 2), va g (j + 3)) ((s.rx o.xb).toNat % 2 ^ 32) ((s.rx o.xb).toNat / 2 ^ 32)
      [q.1, q.2.1, q.2.2.1, q.2.2.2][i % 4]? := by
  obtain ⟨used, heq⟩ := execVrng_eq s o
  have hquads := quadOp_lanewise (o := o) h hvl h4 used (rngQuad_ok s o)
  simp only [← getElem?_quad _ (Nat.mod_lt _ (show 4 > 0 by decide)), rngQuad, quad_start] at hquads
  rw [heq]
  exact hquads

end

end Sys2Proof.Machine
end

