-- ==== Sys2Proof/Proofs/Swaps.lean ====
section
/-! Compare and swap with indices (R96), and the statement it shares with the random numbers (O30). -/

namespace Sys2Proof.Machine

/-! Registers written one after the other. -/

theorem getElem_set_reg (v : Vector (BitVec 4096) 32) (r q : VReg) (x : BitVec 4096) : (v.set r x)[q] = if q = r then x else v[q] := by
  rw [Fin.getElem_fin, Vector.getElem_set]
  by_cases hq : q = r
  · rw [if_pos (by rw [hq]), if_pos hq]
  · rw [if_neg (fun he => hq (Fin.ext he.symm)), if_neg hq]
    rfl

theorem putElems_withRegs {s : State} (h : s.c.vbad = []) (v : Vector (BitVec 4096) 32) (r : VReg) (w : Nat) (ps : List (Nat × Nat)) :
    (s.withRegs v).putElems r w ps = s.withRegs (v.set r (setElems w v[r] ps)) :=
  putElems_of_clean (s := s.withRegs v) h r w ps

/-! One register of every group. -/

/-- The elements of register g where the candidate wins, and the padding. -/
def swapWins (s : State) (o : VBinOp) (g : Nat) : List Nat :=
  (s.actives o.fmt.width o.pm).filter fun i => decide (i < noLimit) &&
    keyAbove o.fmt o.m.u (s.elemAt (regAt o.va g) o.fmt.width i) (s.elemAt (regAt o.vd g) o.fmt.width i)
def swapPad (s : State) (o : VBinOp) : List Nat := (s.reach o.fmt.width).filter fun i => decide (s.vl ≤ i) && decide (i < noLimit)

/-- What is written of a register that receives x where the candidate wins. -/
def swapWrites (s : State) (o : VBinOp) (g : Nat) (x : Nat → Nat) : List (Nat × Nat) :=
  (swapWins s o g).map (fun i => (i, x i)) ++ (swapPad s o).map fun i => (i, 0)

theorem keyAbove_eq (f : Fmt) (u : Bool) {a b : Nat} (ha : a < 2 ^ f.width) (hb : b < 2 ^ f.width) : keyAbove f u a b =
    if f.isFp then !(fval f a).isNaN && ((fval f b).isNaN || (fval f b).lt (fval f a)) else decide (num f.width u b < num f.width u a) := by
  rw [keyAbove, intOf_eq_num (width_pos f) u ha, intOf_eq_num (width_pos f) u hb]
  rfl

theorem mem_swapWins {s : State} {o : VBinOp} {g i : Nat} (hi : i < 4096) : i ∈ swapWins s o g ↔ beats s o g i = true := by
  have hlim : i < noLimit := hi
  simp only [swapWins, State.actives, List.mem_filter, mem_reach (width_dvd _), hlim, decide_true, Bool.true_and, beats,
    Bool.and_eq_true, ← keyAbove_eq o.fmt o.m.u (elem_lt o.fmt.width s.c.v[regAt o.va g] i) (elem_lt o.fmt.width s.c.v[regAt o.vd g] i),
    State.active, and_assoc]
  rfl

theorem mem_swapPad {s : State} {o : VBinOp} {i : Nat} (hi : i < 4096) :
    i ∈ swapPad s o ↔ (inReach s o.fmt.width i && decide (s.c.vl.toNat ≤ i)) = true := by
  have hlim : i < noLimit := hi
  simp only [swapPad, List.mem_filter, mem_reach (width_dvd _), hlim, decide_true, Bool.and_true, Bool.and_eq_true]
  rfl

theorem elem_swapWrites (s : State) (o : VBinOp) (g : Nat) (x : Nat → Nat) (r : BitVec 4096) {i : Nat} (hi : o.fmt.width * i < 4096)
    (hx : x i < 2 ^ o.fmt.width) :
    elem o.fmt.width (setElems o.fmt.width r (swapWrites s o g x)) i = swapped s o g i (elem o.fmt.width r i) (x i) := by
  have hi' : i < 4096 := (Nat.le_mul_of_pos_left i (width_pos _)).trans_lt hi
  have hw := dvd_image (width_dvd o.fmt)
  have hwins : (swapWins s o g).map (fun i => (i, x i)) = writesOf (fun i => some (x i)) (swapWins s o g) :=
    (congrFun List.filterMap_eq_map' _).symm
  have hpad : (swapPad s o).map (fun i => (i, 0)) = writesOf (fun _ => some 0) (swapPad s o) := (congrFun List.filterMap_eq_map' _).symm
  have happ : setElems o.fmt.width r (swapWrites s o g x) = setElems o.fmt.width
      (setElems o.fmt.width r (writesOf (fun i => some (x i)) (swapWins s o g))) (writesOf (fun _ => some 0) (swapPad s o)) := by
    rw [swapWrites, hwins, hpad]
    exact List.foldl_append
  rw [happ, elem_setElems hw _ hi, elem_setElems hw _ hi, swapped]
  simp only [mem_swapPad hi', mem_swapWins hi', Option.elim, Nat.zero_mod, Nat.mod_eq_of_lt hx]

/-- The candidate index of element i (R96). -/
def candOf (s : State) (o : VBinOp) (g i : Nat) : Nat :=
  match o.b with
  | .vec b => elem o.fmt.width s.c.v[regAt b g] i
  | .sca x => (s.rx x).toNat % 2 ^ o.fmt.width
  | .imm k => k.toNat

/-- The registers that step g of vcswi reads, and those it writes. -/
def swapRegs (o : VBinOp) (g : Nat) : List VReg :=
  [regAt o.vd g, regAt o.vd (grpSize o.m.grp + g), regAt o.va g] ++ match o.b with
    | .vec b => [regAt b g]
    | _ => []
def swapWritten (o : VBinOp) (g : Nat) : List VReg :=
  [regAt o.vd g, regAt o.vd (grpSize o.m.grp + g)] ++ match o.b with
    | .vec b => [regAt o.va g, regAt b g]
    | _ => []

/-- What vcswi leaves of register g of every group in the registers v (R96). -/
structure SwapLeaves (s : State) (o : VBinOp) (g : Nat) (v : Vector (BitVec 4096) 32) : Prop where
  key : ∀ i, o.fmt.width * i < 4096 → elem o.fmt.width v[regAt o.vd g] i =
    swapped s o g i (elem o.fmt.width s.c.v[regAt o.vd g] i) (elem o.fmt.width s.c.v[regAt o.va g] i)
  index : ∀ i, o.fmt.width * i < 4096 → elem o.fmt.width v[regAt o.vd (grpSize o.m.grp + g)] i =
    swapped s o g i (elem o.fmt.width s.c.v[regAt o.vd (grpSize o.m.grp + g)] i) (candOf s o g i)
  cand : ∀ b, o.b = .vec b → ∀ i, o.fmt.width * i < 4096 →
    elem o.fmt.width v[regAt o.va g] i =
      swapped s o g i (elem o.fmt.width s.c.v[regAt o.va g] i) (elem o.fmt.width s.c.v[regAt o.vd g] i) ∧
    elem o.fmt.width v[regAt b g] i =
      swapped s o g i (candOf s o g i) (elem o.fmt.width s.c.v[regAt o.vd (grpSize o.m.grp + g)] i)

section
variable {s : State} {o : VBinOp}

/-- An element format of vcswi holds every index that the immediate names (R24). -/
theorem candOf_lt (hw : 16 ≤ o.fmt.width) (g i : Nat) : candOf s o g i < 2 ^ o.fmt.width := by
  unfold candOf
  split
  · exact elem_lt _ _ _
  · exact Nat.mod_lt _ (Nat.two_pow_pos _)
  · exact (BitVec.isLt _).trans_le (Nat.pow_le_pow_right (by decide) hw)

/-- The running keys and indices after step g. -/
def swapRun (s : State) (o : VBinOp) (g : Nat) : Vector (BitVec 4096) 32 :=
  (s.c.v.set (regAt o.vd g) (setElems o.fmt.width s.c.v[regAt o.vd g]
    (swapWrites s o g fun i => s.elemAt (regAt o.va g) o.fmt.width i))).set (regAt o.vd (grpSize o.m.grp + g))
      (setElems o.fmt.width s.c.v[regAt o.vd (grpSize o.m.grp + g)] (swapWrites s o g (candOf s o g)))

theorem getElem_swapRun (s : State) (o : VBinOp) (g : Nat) (r : VReg) : (swapRun s o g)[r] =
    if r = regAt o.vd (grpSize o.m.grp + g) then
      setElems o.fmt.width s.c.v[regAt o.vd (grpSize o.m.grp + g)] (swapWrites s o g (candOf s o g))
    else if r = regAt o.vd g then
      setElems o.fmt.width s.c.v[regAt o.vd g] (swapWrites s o g fun i => s.elemAt (regAt o.va g) o.fmt.width i)
    else s.c.v[r] := by
  rw [swapRun, getElem_set_reg, getElem_set_reg]

/-- The running keys and indices are written first. -/
theorem swapRun_eq (h : s.c.vbad = []) {g : Nat} (hne : regAt o.vd (grpSize o.m.grp + g) ≠ regAt o.vd g) :
    (s.putElems (regAt o.vd g) o.fmt.width (swapWrites s o g fun i => s.elemAt (regAt o.va g) o.fmt.width i)).putElems
      (regAt o.vd (grpSize o.m.grp + g)) o.fmt.width (swapWrites s o g (s.candIndex o.fmt o.b g)) = s.withRegs (swapRun s o g) := by
  have hfirst := putElems_withRegs h s.c.v (regAt o.vd g) o.fmt.width (swapWrites s o g fun i => s.elemAt (regAt o.va g) o.fmt.width i)
  have hself : s.withRegs s.c.v = s := rfl
  rw [hself] at hfirst
  rw [hfirst, putElems_withRegs h, getElem_set_reg, if_neg hne]
  rfl

/-- Where the candidates stay, their indices being no registers, that is all. -/
theorem swapStep_of_keep (h : s.c.vbad = []) (hb : ∀ b, o.b ≠ .vec b) {g : Nat}
    (hne : regAt o.vd (grpSize o.m.grp + g) ≠ regAt o.vd g) : s.swapStep o noLimit g = s.withRegs (swapRun s o g) := by
  rw [← swapRun_eq h hne]
  unfold State.swapStep
  cases hob : o.b with
  | vec b => exact absurd hob (hb b)
  | sca x | imm k => rfl

/-- Where they change places, the candidates and their indices follow. -/
def swapBoth (s : State) (o : VBinOp) (b : VReg) (g : Nat) : Vector (BitVec 4096) 32 :=
  ((swapRun s o g).set (regAt o.va g) (setElems o.fmt.width s.c.v[regAt o.va g]
    (swapWrites s o g fun i => s.elemAt (regAt o.vd g) o.fmt.width i))).set (regAt b g)
      (setElems o.fmt.width s.c.v[regAt b g] (swapWrites s o g fun i => s.elemAt (regAt o.vd (grpSize o.m.grp + g)) o.fmt.width i))

theorem swapStep_of_vec (h : s.c.vbad = []) {b : VReg} (hb : o.b = .vec b) {g : Nat}
    (hd : [regAt o.vd g, regAt o.vd (grpSize o.m.grp + g), regAt o.va g, regAt b g].Nodup) :
    s.swapStep o noLimit g = s.withRegs (swapBoth s o b g) := by
  simp only [List.nodup_cons, List.mem_cons, List.not_mem_nil, or_false, not_or] at hd
  obtain ⟨⟨hki, hkc, hkb⟩, ⟨hic, hib⟩, hcb, -⟩ := hd
  have hstep : s.swapStep o noLimit g = ((s.withRegs (swapRun s o g)).putElems (regAt o.va g) o.fmt.width
      (swapWrites s o g fun i => s.elemAt (regAt o.vd g) o.fmt.width i)).putElems (regAt b g) o.fmt.width
        (swapWrites s o g fun i => s.elemAt (regAt o.vd (grpSize o.m.grp + g)) o.fmt.width i) := by
    rw [← swapRun_eq h (Ne.symm hki)]
    unfold State.swapStep
    simp only [hb]
    rfl
  rw [hstep, putElems_withRegs h, putElems_withRegs h, getElem_set_reg, if_neg (Ne.symm hcb), getElem_swapRun, if_neg (Ne.symm hic),
    if_neg (Ne.symm hkc), getElem_swapRun, if_neg (Ne.symm hib), if_neg (Ne.symm hkb)]
  rfl

/-- One step, over distinct registers: what it leaves of them. -/
theorem swapStep_leaves (h : s.c.vbad = []) (hw : 16 ≤ o.fmt.width) {g : Nat} (hd : (swapRegs o g).Nodup) :
    ∃ v, s.swapStep o noLimit g = s.withRegs v ∧ SwapLeaves s o g v ∧ ∀ r, r ∉ swapWritten o g → v[r] = s.c.v[r] := by
  have hkey (i : Nat) (hi : o.fmt.width * i < 4096) := elem_swapWrites s o g (fun i => s.elemAt (regAt o.va g) o.fmt.width i)
    s.c.v[regAt o.vd g] hi (elem_lt o.fmt.width s.c.v[regAt o.va g] i)
  have hindex (i : Nat) (hi : o.fmt.width * i < 4096) := elem_swapWrites s o g (candOf s o g)
    s.c.v[regAt o.vd (grpSize o.m.grp + g)] hi (candOf_lt hw g i)
  by_cases hb : ∃ b, o.b = .vec b
  · obtain ⟨b, hb⟩ := hb
    have hd' : [regAt o.vd g, regAt o.vd (grpSize o.m.grp + g), regAt o.va g, regAt b g].Nodup := by
      simpa only [swapRegs, hb, List.cons_append, List.nil_append] using hd
    refine ⟨swapBoth s o b g, swapStep_of_vec h hb hd', ?_⟩
    simp only [List.nodup_cons, List.mem_cons, List.not_mem_nil, or_false, not_or] at hd'
    obtain ⟨⟨hki, hkc, hkb⟩, ⟨hic, hib⟩, hcb, -⟩ := hd'
    refine ⟨⟨fun i hi => ?_, fun i hi => ?_, fun q hq i hi => ?_⟩, fun r hr => ?_⟩
    · rw [swapBoth, getElem_set_reg, if_neg hkb, getElem_set_reg, if_neg hkc, getElem_swapRun, if_neg hki, if_pos rfl]
      exact hkey i hi
    · rw [swapBoth, getElem_set_reg, if_neg hib, getElem_set_reg, if_neg hic, getElem_swapRun, if_pos rfl]
      exact hindex i hi
    · obtain rfl : b = q := VSrc.vec.inj (hb.symm.trans hq)
      have hci : candOf s o g i = elem o.fmt.width s.c.v[regAt b g] i := by simp only [candOf, hb]
      rw [hci, swapBoth, getElem_set_reg, if_neg hcb, getElem_set_reg, if_pos rfl, getElem_set_reg, if_pos rfl]
      exact ⟨elem_swapWrites s o g _ _ hi (elem_lt _ _ _), elem_swapWrites s o g _ _ hi (elem_lt _ _ _)⟩
    · simp only [swapWritten, hb, List.mem_append, List.mem_cons, List.not_mem_nil, or_false, not_or] at hr
      obtain ⟨⟨hk, hi⟩, hc, hb'⟩ := hr
      rw [swapBoth, getElem_set_reg, if_neg hb', getElem_set_reg, if_neg hc, getElem_swapRun, if_neg hi, if_neg hk]
  · have hkeep : ∀ b, o.b ≠ .vec b := fun b hob => hb ⟨b, hob⟩
    have hstart : [regAt o.vd g, regAt o.vd (grpSize o.m.grp + g), regAt o.va g].Nodup := hd.sublist (List.sublist_append_left _ _)
    simp only [List.nodup_cons, List.mem_cons, List.not_mem_nil, or_false, not_or] at hstart
    obtain ⟨⟨hki, -⟩, -⟩ := hstart
    refine ⟨swapRun s o g, swapStep_of_keep h hkeep (Ne.symm hki),
      ⟨fun i hi => ?_, fun i hi => ?_, fun b hob => absurd hob (hkeep b)⟩, fun r hr => ?_⟩
    · rw [getElem_swapRun, if_neg hki, if_pos rfl]
      exact hkey i hi
    · rw [getElem_swapRun, if_pos rfl]
      exact hindex i hi
    · have hrun : r ∉ [regAt o.vd g, regAt o.vd (grpSize o.m.grp + g)] := fun hm => hr (List.mem_append_left _ hm)
      simp only [List.mem_cons, List.not_mem_nil, or_false, not_or] at hrun
      obtain ⟨hk, hi⟩ := hrun
      rw [getElem_swapRun, if_neg hi, if_neg hk]

/-! All registers of the groups. -/

theorem mem_swapRegs_of_written {g : Nat} {r : VReg} (h : r ∈ swapWritten o g) : r ∈ swapRegs o g := by
  cases hb : o.b <;> simp only [swapWritten, swapRegs, hb, List.mem_append, List.mem_cons, List.not_mem_nil, or_false] at h ⊢ <;> tauto

/-- What a step leaves, said of the registers it wrote. -/
theorem SwapLeaves.of_written {g : Nat} {v v' : Vector (BitVec 4096) 32} (h : SwapLeaves s o g v)
    (heq : ∀ r, r ∈ swapWritten o g → v'[r] = v[r]) : SwapLeaves s o g v' where
  key i hi := by rw [heq _ (by simp [swapWritten])]; exact h.key i hi
  index i hi := by rw [heq _ (by simp [swapWritten])]; exact h.index i hi
  cand b hb i hi := by
    rw [heq (regAt o.va g) (by simp [swapWritten, hb]), heq (regAt b g) (by simp [swapWritten, hb])]
    exact h.cand b hb i hi

/-- What a step leaves depends on the registers it reads. -/
theorem SwapLeaves.of_read {g : Nat} {v v' : Vector (BitVec 4096) 32} (h : SwapLeaves (s.withRegs v) o g v')
    (heq : ∀ r, r ∈ swapRegs o g → v[r] = s.c.v[r]) : SwapLeaves s o g v' := by
  have hv : (s.withRegs v).c.v = v := rfl
  have hk : v[regAt o.vd g] = s.c.v[regAt o.vd g] := heq _ (by simp [swapRegs])
  have hi : v[regAt o.vd (grpSize o.m.grp + g)] = s.c.v[regAt o.vd (grpSize o.m.grp + g)] := heq _ (by simp [swapRegs])
  have hc : v[regAt o.va g] = s.c.v[regAt o.va g] := heq _ (by simp [swapRegs])
  have hbeats (i old new : Nat) : swapped (s.withRegs v) o g i old new = swapped s o g i old new := by
    have : beats (s.withRegs v) o g i = beats s o g i := by
      simp only [beats, hv, hk, hc]
      rfl
    unfold swapped
    rw [this]
    rfl
  have hcand (i : Nat) : candOf (s.withRegs v) o g i = candOf s o g i := by
    unfold candOf
    cases hb : o.b with
    | vec b => exact congrArg (elem _ · i) (heq (regAt b g) (by simp [swapRegs, hb]))
    | sca x | imm k => rfl
  obtain ⟨hkey, hindex, hmove⟩ := h
  simp only [hv, hk, hi, hc, hbeats, hcand] at hkey hindex hmove
  exact ⟨hkey, hindex, hmove⟩

section
variable (hva : Apart o.va (grpSize o.m.grp) o.vd (2 * grpSize o.m.grp))
  (hvb : ∀ r, o.b = .vec r → Apart r (grpSize o.m.grp) o.vd (2 * grpSize o.m.grp) ∧ Apart r (grpSize o.m.grp) o.va (grpSize o.m.grp))
include hva hvb

/-- Where the groups are apart, the registers of a step are distinct. -/
theorem swapRegs_nodup {g : Nat} (hg : g < grpSize o.m.grp) : (swapRegs o g).Nodup := by
  have hn := grpSize_le o.m.grp
  have hki : regAt o.vd g ≠ regAt o.vd (grpSize o.m.grp + g) := fun he => by
    have := regAt_inj o.vd (by omega) (by omega) he
    omega
  have hc (j : Nat) (hj : j < 2 * grpSize o.m.grp) : regAt o.vd j ≠ regAt o.va g := (hva g j hg hj).symm
  cases hb : o.b with
  | vec b =>
    have hb' (j : Nat) (hj : j < 2 * grpSize o.m.grp) : regAt o.vd j ≠ regAt b g := ((hvb b hb).1 g j hg hj).symm
    simp [swapRegs, hb, hki, hc g (by omega), hc (grpSize o.m.grp + g) (by omega), hb' g (by omega),
      hb' (grpSize o.m.grp + g) (by omega), ((hvb b hb).2 g g hg hg).symm]
  | sca x | imm k => simp [swapRegs, hb, hki, hc g (by omega), hc (grpSize o.m.grp + g) (by omega)]

omit hva hvb in
/-- The registers of a step, by their groups. -/
theorem mem_swapRegs {g : Nat} {r : VReg} : r ∈ swapRegs o g ↔
    (r = regAt o.vd g ∨ r = regAt o.vd (grpSize o.m.grp + g)) ∨ r = regAt o.va g ∨ ∃ b, o.b = .vec b ∧ r = regAt b g := by
  cases hb : o.b <;> simp [swapRegs, hb, or_assoc]

/-- A register belongs to one step. -/
theorem swapRegs_disjoint {g k : Nat} (hg : g < grpSize o.m.grp) (hk : k < grpSize o.m.grp) {r : VReg} (h : r ∈ swapRegs o g)
    (h' : r ∈ swapRegs o k) : g = k := by
  have hn := grpSize_le o.m.grp
  have inVd {g : Nat} (hg : g < grpSize o.m.grp) (h : r = regAt o.vd g ∨ r = regAt o.vd (grpSize o.m.grp + g)) :
      ∃ j, j < 2 * grpSize o.m.grp ∧ (j = g ∨ j = grpSize o.m.grp + g) ∧ r = regAt o.vd j :=
    h.elim (fun h => ⟨g, by omega, .inl rfl, h⟩) fun h => ⟨_, by omega, .inr rfl, h⟩
  rcases mem_swapRegs.1 h with h | h | ⟨b, hb, h⟩ <;> rcases mem_swapRegs.1 h' with h' | h' | ⟨c, hc, h'⟩
  · obtain ⟨i, hi, hig, rfl⟩ := inVd hg h
    obtain ⟨j, hj, hjk, he⟩ := inVd hk h'
    have := regAt_inj o.vd (by omega) (by omega) he
    omega
  · obtain ⟨i, hi, -, rfl⟩ := inVd hg h
    exact absurd h'.symm (hva k i hk hi)
  · obtain ⟨i, hi, -, rfl⟩ := inVd hg h
    exact absurd h'.symm ((hvb c hc).1 k i hk hi)
  · obtain ⟨j, hj, -, rfl⟩ := inVd hk h'
    exact absurd h.symm (hva g j hg hj)
  · exact regAt_inj o.va (by omega) (by omega) (h.symm.trans h')
  · exact absurd (h'.symm.trans h) ((hvb c hc).2 k g hk hg)
  · obtain ⟨j, hj, -, rfl⟩ := inVd hk h'
    exact absurd h.symm ((hvb b hb).1 g j hg hj)
  · exact absurd (h.symm.trans h') ((hvb b hb).2 g k hg hk)
  · obtain rfl : b = c := VSrc.vec.inj (hb.symm.trans hc)
    exact regAt_inj b (by omega) (by omega) (h.symm.trans h')

/-- The first n steps. -/
theorem swapSteps_leave (h : s.c.vbad = []) (hw : 16 ≤ o.fmt.width) {n : Nat} (hn : n ≤ grpSize o.m.grp) :
    ∃ v, (List.range n).foldl (fun t g => t.swapStep o noLimit g) s = s.withRegs v ∧ (∀ g, g < n → SwapLeaves s o g v) ∧
      ∀ r, (∀ g, g < n → r ∉ swapWritten o g) → v[r] = s.c.v[r] := by
  induction n with
  | zero => exact ⟨s.c.v, rfl, fun g hg => absurd hg (Nat.not_lt_zero g), fun _ _ => rfl⟩
  | succ n ih =>
    obtain ⟨v, hv, hdone, hother⟩ := ih (by omega)
    obtain ⟨v', hv', hleaves, hkeep⟩ := swapStep_leaves (s := s.withRegs v) (o := o) h hw (swapRegs_nodup hva hvb (g := n) (by omega))
    refine ⟨v', ?_, fun g hg => ?_, fun r hr => ?_⟩
    · rw [List.range_succ, List.foldl_append, hv]
      exact hv'
    · rcases Nat.lt_succ_iff_lt_or_eq.1 hg with hlt | rfl
      · refine (hdone g hlt).of_written fun r hr => hkeep r fun hr' => ?_
        have := swapRegs_disjoint hva hvb (by omega) (by omega) (mem_swapRegs_of_written hr) (mem_swapRegs_of_written hr')
        omega
      · refine hleaves.of_read fun r hr => hother r fun k hk hr' => ?_
        have := swapRegs_disjoint hva hvb (by omega) (by omega) hr (mem_swapRegs_of_written hr')
        omega
    · rw [hkeep r (hr n (Nat.lt_succ_self n))]
      exact hother r fun g hg => hr g (by omega)

end

/-- The formats of vcswi: INT32, FP16, BF16, FP32 (R96). -/
theorem width_of_illSwap (h : (o.illSwap).isNone = true) : 16 ≤ o.fmt.width := by
  have hf := fmt_of_firstIll h
  revert hf
  cases o.fmt <;> decide

end

theorem vcswi_swaps (s : State) (o : VBinOp) (hwf : (Instr.vcswi o).wf = true) (h : LanesReady s o.fmt.width)
    (hva : Apart o.va (grpSize o.m.grp) o.vd (2 * grpSize o.m.grp))
    (hvb : ∀ r, o.b = .vec r →
      Apart r (grpSize o.m.grp) o.vd (2 * grpSize o.m.grp) ∧ Apart r (grpSize o.m.grp) o.va (grpSize o.m.grp)) :
    ∃ v, exec (.vcswi o) s = .next (withV s v) ∧ (∀ g, g < grpSize o.m.grp → SwapLeaves s o g v) ∧
      ∀ r, (∀ g, g < grpSize o.m.grp → r ∉ swapWritten o g) → v[r] = s.c.v[r] := by
  have hclean : s.c.vbad = [] := h.2.2
  obtain ⟨v, hv, hleaves, hother⟩ := swapSteps_leave hva hvb hclean (width_of_illSwap hwf) (le_refl _)
  have hexec : exec (.vcswi o) s = execVcswi o s := rfl
  refine ⟨v, ?_, hleaves, hother⟩
  rw [hexec, execVcswi, configTrap_of_ready h, laneOp_of_clean hclean _ (by rw [hv]; exact hclean), hv]
  rfl

/-- Settles O30: vcswi register by register, each step in registers of its own; the random numbers word by word of a quad. -/
theorem swapsAndRandomNumbers : Obligations.SwapsAndRandomNumbers := by
  refine ⟨fun s o hwf h => ?_, fun s o _ h => ⟨fun hvl h4 => ⟨vctr_lanewise h hvl h4, vrng_lanewise h hvl h4⟩, fun hbad => ?_⟩⟩
  · intro w n hva hvb
    obtain ⟨v, hv, hleaves, hother⟩ := vcswi_swaps s o hwf h hva hvb
    refine ⟨v, hv, fun r hvd hmoved => hother r fun g hg hr => ?_, fun g i hg hi => ?_⟩
    · have hd (j : Nat) (hj : j < 2 * n) : r ≠ regAt o.vd j := hvd j hj
      cases hb : o.b <;> simp only [swapWritten, hb, List.mem_append, List.mem_cons, List.not_mem_nil, or_false] at hr
      case vec b =>
        rcases hr with (hr | hr) | hr | hr
        · exact hd g (by omega) hr
        · exact hd (n + g) (by omega) hr
        · exact (hmoved b hb g hg).1 hr
        · exact (hmoved b hb g hg).2 hr
      all_goals
        rcases hr with hr | hr
        · exact hd g (by omega) hr
        · exact hd (n + g) (by omega) hr
    · obtain ⟨hkey, hindex, hmove⟩ := hleaves g hg
      exact ⟨hkey i hi, hindex i hi, fun b hb => hmove b hb i hi⟩
  · obtain ⟨used, hctr⟩ := execVctr_eq s o
    obtain ⟨used', hrng⟩ := execVrng_eq s o
    rw [hctr, hrng]
    exact ⟨quadOp_format h hbad _ _, quadOp_format h hbad _ _⟩

end Sys2Proof.Machine
end

