-- ==== Sys2Proof/Proofs/Conversions.lean ====
section
/-! vqnt changes more than registers: each block with an active element takes a free value, though only a failing entry makes its
scale one (R53, R87; O26). -/

namespace Sys2Proof.Machine

/-- From reset: one block of 16 elements of FP8A, all of them below VL. -/
def oneBlock : State :=
  { State.reset with c := { State.reset.c with vlive := true, vl := 16, vlg := 16, vfmt := Fmt.fp8a.code, vblk := .b16 } }

/-- vqnt of the FP32 elements in v4 to v7 into codes in v9 and a scale in v8, under m0. -/
def quantOne : VQntOp := ⟨9, 4, 8, .fp8a, .fp32, 0, ⟨0, false, .rne, false⟩⟩

/-- How many free values have been taken in the state that an instruction answers. -/
def freshAfter : Out → Nat
  | .next s => s.fresh
  | .fault _ => 0
  | .refused _ => 0

theorem oneBlock_ready : LanesReady oneBlock (min quantOne.dst.width quantOne.src.width) :=
  ⟨by decide +kernel, by decide +kernel, rfl⟩

theorem quantOne_apart : Apart quantOne.vd (grpSize quantOne.m.grp * (quantOne.dst.width / min quantOne.dst.width quantOne.src.width))
    quantOne.vc (grpSize quantOne.m.grp) := by
  intro i j hi hj
  have hi0 : i = 0 := Nat.lt_one_iff.1 hi
  have hj0 : j = 0 := Nat.lt_one_iff.1 hj
  rw [hi0, hj0]
  decide

/-- The scale of its block is written from the values, and a free value is counted all the same. -/
theorem freshAfter_quantOne : freshAfter (exec (.vqnt quantOne) oneBlock) = oneBlock.fresh + 1 := by decide +kernel

/-- Other registers, and the next address, leave that count. -/
theorem withV_fresh (s : State) (v : Vector (BitVec 4096) 32) : (withV s v).fresh = s.fresh := by rw [withV, State.adv_fresh]

/-- Refutes O26: from oneBlock, quantOne answers a state that differs in the count of free values. -/
theorem not_conversions : ¬ Obligations.Conversions := by
  rintro ⟨-, -, hvqnt, -⟩
  obtain ⟨v, hv, -⟩ := hvqnt oneBlock quantOne (by decide) oneBlock_ready (by decide +kernel) rfl (by decide +kernel) quantOne_apart
  have hfresh := freshAfter_quantOne
  rw [hv, freshAfter, withV_fresh] at hfresh
  exact absurd hfresh (Nat.ne_of_lt (Nat.lt_succ_self _))

end Sys2Proof.Machine
end

