-- ==== Sys2Proof/Proofs/MaskInstructions.lean ====
section
/-! Mask instructions (R90, R107, R124). O27 stays unsettled: in a lane of a thread region the bits are counted by the width of the
region's VCFG.FMT, which for a code that names no format is a constant without a body (log 9), and the statement holds if and only if
every such width divides 64, the bits of a lane's row. -/

namespace Sys2Proof.Machine

/-- Where the region's width divides a lane's row, the bits of the model are those of the statement. -/
theorem mem_maskReach {s : State} (hw : s.c.regionWidth ∣ 64) {i : Nat} : i ∈ s.maskReach ↔ maskOn s i = true :=
  mem_reach (s := s) hw

/-- A mask instruction on the bits of its reach; nothing with VL = 0. -/
theorem maskOp_writes {s : State} (h : LanesReady s 1) (md : MReg) (bit : Nat → Bool) : ∃ m,
    s.maskOp md bit = .next (withM s m) ∧ (∀ r : MReg, r ≠ md ∨ r = 0 → m[r] = s.c.m[r]) ∧
    (md ≠ 0 → ∀ i, i < 4096 → (m[md]).getLsbD i =
      if s.c.vl ≠ 0 ∧ i ∈ s.maskReach then decide (i < s.c.vl.toNat) && bit i else (s.c.m[md]).getLsbD i) := by
  have hclean : s.c.vbad = [] := h.2.2
  have hvl : s.vl = s.c.vl.toNat := rfl
  have hvl0 : s.vl = 0 ↔ s.c.vl = 0 := ⟨fun h0 => BitVec.eq_of_toNat_eq h0, fun h0 => by rw [hvl, h0]; rfl⟩
  rw [State.maskOp, configTrap_of_ready (w := 1) h]
  by_cases h0 : s.c.vl = 0
  · refine ⟨s.c.m, ?_, fun _ _ => rfl, fun _ i _ => by rw [if_neg fun hne => hne.1 h0]⟩
    rw [laneOp_of_clean hclean] <;> rw [if_pos (hvl0.2 h0)]
    · rfl
    · exact hclean
  · have hwrites : s.maskReach.map (fun i => (i, decide (i < s.vl) && bit i)) =
        maskWrites (fun i => some (decide (i < s.vl) && bit i)) s.maskReach := (congrFun List.filterMap_eq_map' _).symm
    obtain ⟨m, hm, hother, hbit⟩ := putMask_maskWrites s md (fun i => some (decide (i < s.vl) && bit i)) s.maskReach
    refine ⟨m, ?_, hother, fun hmd i hi => ?_⟩
    · rw [laneOp_of_clean hclean] <;> rw [if_neg (mt hvl0.1 h0), hwrites, hm]
      · rfl
      · exact hclean
    · rw [hbit hmd i hi]
      simp only [Option.getD_some, ne_eq, h0, not_false_eq_true, true_and, hvl]

/-- What is claimed of a mask instruction. -/
def MaskHolds (p : (MReg → MReg → MReg → VCount → VMods → Instr) ×
    (Nat → Nat → (Nat → Bool) → (Nat → Bool) → Nat → Bool)) : Prop :=
  ∀ (s : State) (md ma mb : MReg) (n : VCount) (k : VMods), LanesReady s 1 →
    ∃ m, exec (p.1 md ma mb n k) s = .next (withM s m) ∧ (∀ r : MReg, r ≠ md ∨ r = 0 → m[r] = s.c.m[r]) ∧
      (md ≠ 0 → ∀ i, i < 4096 → (m[md]).getLsbD i =
        if s.c.vl = 0 ∨ maskOn s i = false then (s.c.m[md]).getLsbD i
        else decide (i < s.c.vl.toNat) && p.2 s.c.vl.toNat (vecCount s n) ((s.rm ma).getLsbD ·) ((s.rm mb).getLsbD ·) i)

theorem maskHolds_of_bit (hwidth : ∀ f, codeWidth f ∣ 64) {instr : MReg → MReg → MReg → VCount → VMods → Instr}
    {bit : Nat → Nat → (Nat → Bool) → (Nat → Bool) → Nat → Bool}
    (hexec : ∀ md ma mb n k s, exec (instr md ma mb n k) s =
      s.maskOp md (bit s.c.vl.toNat (vecCount s n) ((s.rm ma).getLsbD ·) ((s.rm mb).getLsbD ·))) : MaskHolds (instr, bit) := by
  intro s md ma mb n k h
  obtain ⟨m, hm, hother, hbit⟩ := maskOp_writes h md (bit s.c.vl.toNat (vecCount s n) ((s.rm ma).getLsbD ·) ((s.rm mb).getLsbD ·))
  refine ⟨m, (hexec md ma mb n k s).trans hm, hother, fun hmd i hi => ?_⟩
  rw [hbit hmd i hi]
  simp only [mem_maskReach (hwidth _)]
  by_cases h0 : s.c.vl = 0
  · rw [if_neg fun hne => hne.1 h0, if_pos (.inl h0)]
  · cases hon : maskOn s i
    · rw [if_neg (by simp), if_pos (.inr rfl)]
    · rw [if_pos ⟨h0, rfl⟩, if_neg (not_or.2 ⟨h0, Bool.false_ne_true.symm⟩)]

theorem maskRows_hold (hwidth : ∀ f, codeWidth f ∣ 64) : ∀ p ∈ maskRows, MaskHolds p := by
  simp only [maskRows, List.forall_mem_cons]
  refine ⟨?and, ?or, ?xor, ?andn, ?not, ?shl, ?shr, ?set, ?mv, fun _ h => absurd h List.not_mem_nil⟩
  all_goals exact maskHolds_of_bit hwidth fun _ _ _ _ _ _ => rfl

/-! The counts that go to a scalar register (R90, R107). -/

section
variable {s : State} (hscu : InScu s) (hq : Drained s [.vq, .lq]) (h : LanesReady s 1)
include hscu hq h

theorem maskScalar_gives (rd : XReg) (v : Word) : Gives (s.maskScalar rd v) s rd v := by
  rw [State.maskScalar, show drainLanes = [.vq, .lq] from rfl, draining_of_drained hq, configTrap_of_ready (w := 1) h]
  exact gives_wx hscu rd v

theorem mfirst_gives (rd : XReg) (ma : MReg) (k : VMods) : Gives (exec (.mfirst rd ma k) s) s rd (match setBelow s ma with
    | i :: _ => BitVec.ofNat 64 i
    | [] => 0xFFFFFFFFFFFFFFFF) := by
  have hgives := maskScalar_gives hscu hq h rd (match (List.range s.vl).find? (s.maskBit ma) with
    | some i => BitVec.ofNat 64 i
    | none => BitVec.allOnes 64)
  have hset : (setBelow s ma).head? = (List.range s.vl).find? (s.maskBit ma) := List.head?_filter ..
  refine Eq.mp (congrArg (Gives _ s rd) ?_) hgives
  rw [← hset]
  cases setBelow s ma <;> rfl

end

/-! What the statement says of the width by which a region counts. -/

/-- Lane 0 of a region under the format code f, 64 bits granted. -/
def laneZero (f : BitVec 4) : State :=
  { State.reset with
    laneSel := some 0
    c := { State.reset.c with vlive := true, vl := 64, vlg := 64, thrFmt := f } }

theorem laneZero_ready (f : BitVec 4) : LanesReady (laneZero f) 1 := ⟨by decide +kernel +revert, by decide +kernel +revert, rfl⟩

theorem withM_m (s : State) (m : Vector (BitVec 4096) 8) : (withM s m).c.m = m := by
  unfold withM State.adv
  split <;> rfl

theorem withM_inj {s : State} {m m' : Vector (BitVec 4096) 8} (h : (.next (withM s m) : Out) = .next (withM s m')) : m = m' := by
  rw [← withM_m s m, Host.Outcome.next.inj h, withM_m]

theorem codeWidth_pos (f : BitVec 4) : 0 < codeWidth f := by
  unfold codeWidth
  split
  · exact width_pos _
  · exact Nat.succ_pos _

/-- By a width that does not divide a lane's row, the bit astride its end begins in lane 0, and the model does not write it. -/
theorem astride_lane {f : BitVec 4} (h : ¬ codeWidth f ∣ 64) : 64 / codeWidth f < 64 ∧
    maskOn (laneZero f) (64 / codeWidth f) = true ∧ 64 / codeWidth f ∉ (laneZero f).maskReach := by
  have hw := codeWidth_pos f
  have hlt : codeWidth f * (64 / codeWidth f) < 64 := by
    refine lt_of_le_of_ne (Nat.mul_div_le 64 _) fun he => h ⟨_, he.symm⟩
  have hi : 64 / codeWidth f < 64 := (Nat.le_mul_of_pos_left _ hw).trans_lt hlt
  refine ⟨hi, ?_, ?_⟩
  · have hreach : maskOn (laneZero f) (64 / codeWidth f) = decide (64 * 0 ≤ codeWidth f * (64 / codeWidth f) ∧
        codeWidth f * (64 / codeWidth f) < 64 * (0 + 1) ∧ 64 / codeWidth f < 64) := rfl
    rw [hreach, decide_eq_true_eq]
    omega
  · have hreach : (laneZero f).maskReach =
        ((List.range (64 / codeWidth f)).map fun j => 64 * 0 / codeWidth f + j).filter fun i => decide (i < 64) := rfl
    rw [hreach, Nat.mul_zero, Nat.zero_div]
    simp

/-- What the statement of the mask instructions comes to: it holds if and only if every format code counts by a divisor of 64, which
is no fact of the model where the code names no format. -/
theorem maskInstructions_iff : Obligations.MaskInstructions ↔ ∀ f, codeWidth f ∣ 64 := by
  constructor
  · rintro ⟨hrows, -⟩ f
    by_contra hf
    obtain ⟨hi, hon, hout⟩ := astride_lane hf
    obtain ⟨m, hm, -, hbit⟩ := hrows _ (List.getElem_mem (show 7 < maskRows.length by decide)) (laneZero f) 1 0 0 (.imm 64)
      ⟨0, false, .rne, false⟩ (laneZero_ready f)
    obtain ⟨m', hm', -, hbit'⟩ := maskOp_writes (laneZero_ready f) 1 fun i => decide (i < 64)
    have hexec : exec (.mset 1 (.imm 64) ⟨0, false, .rne, false⟩) (laneZero f) = (laneZero f).maskOp 1 fun i => decide (i < 64) := rfl
    obtain rfl : m = m' := withM_inj (hm.symm.trans (hexec.trans hm'))
    have hset := hbit (by decide) (64 / codeWidth f) (by omega)
    have hkept := hbit' (by decide) (64 / codeWidth f) (by omega)
    have hvl : ¬ ((laneZero f).c.vl = 0 ∨ maskOn (laneZero f) (64 / codeWidth f) = false) :=
      not_or.2 ⟨show ¬ (64 : BitVec 13) = 0 by decide, hon ▸ Bool.false_ne_true.symm⟩
    have hbelow : (decide (64 / codeWidth f < 64) && decide (64 / codeWidth f < 64)) = true := by rw [decide_eq_true hi]; rfl
    have hclear : ((laneZero f).c.m[(1 : MReg)]).getLsbD (64 / codeWidth f) = false := BitVec.getLsbD_zero
    rw [if_neg hvl] at hset
    rw [if_neg fun hne => hout hne.2, hclear] at hkept
    exact Bool.false_ne_true (hkept.symm.trans (hset.trans hbelow))
  · refine fun hwidth => ⟨maskRows_hold hwidth, fun s rd ma k hscu => ⟨fun hq h => ⟨?_, mfirst_gives hscu hq h rd ma k⟩,
      fun hq => ⟨draining_waits hq _, draining_waits hq _⟩⟩⟩
    exact maskScalar_gives hscu hq h rd _

end Sys2Proof.Machine
end

