-- ==== Sys2Proof/Proofs/ScalarResults.lean ====
section
/-! Scalar results: the ALU and the moves, fixed-latency results, branches and jumps (R108, R111, R112, R115, R116; O1, O2, O3). -/

namespace Sys2Proof.Machine

/-! Operands. -/

theorem xsrc_eq_bOf {s : State} (h : InScu s) (b : XSrc) : s.xsrc b = bOf s b := by
  cases b with
  | reg r => exact rx_eq_xOf h r
  | imm v => rfl

theorem signExtend_eq_word {n : Nat} (v : BitVec n) : v.signExtend 64 = word v.toInt := rfl

theorem word_toInt (v : Word) : word v.toInt = v := BitVec.ofInt_toInt

theorem word_natCast (n : Nat) : word n = BitVec.ofNat 64 n := BitVec.ofInt_natCast 64 n

theorem word_toNat (v : Word) : word v.toNat = v := by rw [word_natCast, BitVec.ofNat_toNat, BitVec.setWidth_eq]

/-- A word is the two's complement of an integer it has as its signed value. -/
theorem eq_word_of_toInt {v : Word} {z : Int} (h : v.toInt = z) : v = word z := h ▸ (word_toInt v).symm

/-- A word is the two's complement of a number it has as its unsigned value. -/
theorem eq_word_of_toNat {v : Word} {n : Nat} (h : v.toNat = n) : v = word n := h ▸ (word_toNat v).symm

/-! The ALU, row by row, over the integers (R111). -/

theorem add_eq_word (a b : Word) : a + b = word (a.toInt + b.toInt) := by
  rw [word, BitVec.ofInt_add, BitVec.ofInt_toInt, BitVec.ofInt_toInt]

theorem sub_eq_word (a b : Word) : a - b = word (a.toInt - b.toInt) := by
  rw [word, Int.sub_eq_add_neg, BitVec.ofInt_add, BitVec.ofInt_neg, BitVec.ofInt_toInt, BitVec.ofInt_toInt, BitVec.sub_eq_add_neg]

theorem mul_eq_word (a b : Word) : a * b = word (a.toInt * b.toInt) := by
  rw [word, BitVec.ofInt_mul, BitVec.ofInt_toInt, BitVec.ofInt_toInt]

theorem sll_eq_word (a b : Word) : a <<< shamt b = word (a.toNat * 2 ^ (b.toNat % 64)) := by
  have h := word_natCast (a.toNat * 2 ^ (b.toNat % 64))
  push_cast at h
  rw [h]
  refine BitVec.eq_of_toNat_eq ?_
  rw [BitVec.toNat_shiftLeft, BitVec.toNat_ofNat, Nat.shiftLeft_eq, shamt]

theorem srl_eq_word (a b : Word) : a >>> shamt b = word (a.toNat / 2 ^ (b.toNat % 64)) := by
  have h : (a >>> shamt b).toNat = a.toNat / 2 ^ (b.toNat % 64) := by
    rw [BitVec.toNat_ushiftRight, Nat.shiftRight_eq_div_pow, shamt]
  have := eq_word_of_toNat h
  push_cast at this
  exact this

theorem sra_eq_word (a b : Word) : a.sshiftRight (shamt b) = word (a.toInt / 2 ^ (b.toNat % 64)) := by
  refine eq_word_of_toInt ?_
  rw [BitVec.toInt_sshiftRight, Int.shiftRight_eq_div_pow, shamt]
  push_cast
  rfl

theorem slt_eq (a b : Word) : bool64 (a.slt b) = if a.toInt < b.toInt then 1 else 0 := by
  unfold bool64
  exact if_congr BitVec.slt_iff_toInt_lt rfl rfl

theorem sltu_eq (a b : Word) : bool64 (a.ult b) = if a.toNat < b.toNat then 1 else 0 := by
  unfold bool64
  exact if_congr BitVec.ult_iff_toNat_lt rfl rfl

theorem minS_eq_word (a b : Word) : minS a b = word (min a.toInt b.toInt) := by
  unfold minS
  by_cases h : a.toInt ≤ b.toInt
  · rw [if_pos (BitVec.sle_iff_toInt_le.2 h), min_eq_left h, word_toInt]
  · rw [if_neg (mt BitVec.sle_iff_toInt_le.1 h), min_eq_right (le_of_not_ge h), word_toInt]

theorem maxS_eq_word (a b : Word) : maxS a b = word (max a.toInt b.toInt) := by
  unfold maxS
  by_cases h : a.toInt ≤ b.toInt
  · rw [if_pos (BitVec.sle_iff_toInt_le.2 h), max_eq_right h, word_toInt]
  · rw [if_neg (mt BitVec.sle_iff_toInt_le.1 h), max_eq_left (le_of_not_ge h), word_toInt]

theorem minU_eq_word (a b : Word) : minU a b = word (min a.toNat b.toNat) := by
  unfold minU
  by_cases h : a.toNat ≤ b.toNat
  · rw [if_pos (BitVec.ule_iff_toNat_le.2 h), min_eq_left (Int.ofNat_le.2 h), word_toNat]
  · rw [if_neg (mt BitVec.ule_iff_toNat_le.1 h), min_eq_right (Int.ofNat_le.2 (le_of_not_ge h)), word_toNat]

theorem maxU_eq_word (a b : Word) : maxU a b = word (max a.toNat b.toNat) := by
  unfold maxU
  by_cases h : a.toNat ≤ b.toNat
  · rw [if_pos (BitVec.ule_iff_toNat_le.2 h), max_eq_right (Int.ofNat_le.2 h), word_toNat]
  · rw [if_neg (mt BitVec.ule_iff_toNat_le.1 h), max_eq_left (Int.ofNat_le.2 (le_of_not_ge h)), word_toNat]

theorem divS_eq_word (a b : Word) : divS a b = if b = 0 then 0xFFFFFFFFFFFFFFFF else word (a.toInt.tdiv b.toInt) := by
  refine if_congr Iff.rfl rfl (BitVec.eq_of_toInt_eq ?_)
  rw [BitVec.toInt_sdiv, word, BitVec.toInt_ofInt]

theorem divU_eq_word (a b : Word) : divU a b = if b = 0 then 0xFFFFFFFFFFFFFFFF else word ((a.toNat / b.toNat : Nat) : Int) :=
  if_congr Iff.rfl rfl (eq_word_of_toNat BitVec.toNat_udiv)

theorem remS_eq_word (a b : Word) : remS a b = if b = 0 then a else word (a.toInt.tmod b.toInt) :=
  if_congr Iff.rfl rfl (eq_word_of_toInt (BitVec.toInt_srem a b))

theorem remU_eq_word (a b : Word) : remU a b = if b = 0 then a else word ((a.toNat % b.toNat : Nat) : Int) :=
  if_congr Iff.rfl rfl (eq_word_of_toNat BitVec.toNat_umod)

/-- lui: the immediate above, the low half of the source below (R112). -/
theorem lui_eq_word (a : Word) (imm : BitVec 32) :
    (imm.zeroExtend 64 <<< 32) ||| (a.extractLsb' 0 32).zeroExtend 64 = word (imm.toNat * 2 ^ 32 + a.toNat % 2 ^ 32) := by
  have hnat : (imm.zeroExtend 64 <<< 32) ||| (a.extractLsb' 0 32).zeroExtend 64 =
      BitVec.ofNat 64 (imm.toNat * 2 ^ 32 + a.toNat % 2 ^ 32) := by
    have himm : imm.toNat < 2 ^ 32 := imm.isLt
    have hhi : (imm.zeroExtend 64 <<< 32).toNat = 2 ^ 32 * imm.toNat := by
      rw [BitVec.toNat_shiftLeft, BitVec.toNat_setWidth, Nat.shiftLeft_eq]
      omega
    have hlo : ((a.extractLsb' 0 32).zeroExtend 64).toNat = a.toNat % 2 ^ 32 := by
      rw [BitVec.toNat_setWidth, BitVec.extractLsb'_toNat, Nat.shiftRight_zero]
      omega
    refine BitVec.eq_of_toNat_eq ?_
    rw [BitVec.toNat_or, hhi, hlo, ← Nat.two_pow_add_eq_or_of_lt (Nat.mod_lt _ (by decide)), BitVec.toNat_ofNat]
    omega
  rw [hnat, ← word_natCast]
  push_cast
  rfl

/-! What the ALU and the moves give (O1). -/

theorem put_gives {s : State} (h : InScu s) (rd : XReg) {v w : Word} (hv : v = w) : Gives (s.put rd v) s rd w := hv ▸ gives_wx h rd v

/-- An instruction that puts a function of its operands as they are read gives that function of the operands of the statement. -/
theorem alu_gives {s : State} (h : InScu s) (rd ra : XReg) (b : XSrc) {f g : Word → Word → Word} (hfg : ∀ x y, f x y = g x y) :
    Gives (s.put rd (f (s.rx ra) (s.xsrc b))) s rd (g (xOf s ra) (bOf s b)) := by
  rw [rx_eq_xOf h, xsrc_eq_bOf h, hfg]
  exact put_gives h rd rfl

theorem aluRows_give (p : (XReg → XReg → XSrc → Instr) × (Word → Word → Word)) (hp : p ∈ aluRows) {s : State} (h : InScu s)
    (rd ra : XReg) (b : XSrc) : Gives (exec (p.1 rd ra b) s) s rd (p.2 (xOf s ra) (bOf s b)) := by
  simp only [aluRows, List.mem_cons, List.not_mem_nil, or_false] at hp
  rcases hp with rfl | rfl | rfl | rfl | rfl | rfl | rfl | rfl | rfl | rfl | rfl | rfl | rfl | rfl | rfl | rfl | rfl | rfl
  · exact alu_gives h rd ra b add_eq_word
  · exact alu_gives h rd ra b sub_eq_word
  · exact alu_gives h rd ra b fun _ _ => rfl
  · exact alu_gives h rd ra b fun _ _ => rfl
  · exact alu_gives h rd ra b fun _ _ => rfl
  · exact alu_gives h rd ra b sll_eq_word
  · exact alu_gives h rd ra b srl_eq_word
  · exact alu_gives h rd ra b sra_eq_word
  · exact alu_gives h rd ra b slt_eq
  · exact alu_gives h rd ra b sltu_eq
  · exact alu_gives h rd ra b minS_eq_word
  · exact alu_gives h rd ra b maxS_eq_word
  · exact alu_gives h rd ra b minU_eq_word
  · exact alu_gives h rd ra b maxU_eq_word
  · exact alu_gives h rd ra b divS_eq_word
  · exact alu_gives h rd ra b divU_eq_word
  · exact alu_gives h rd ra b remS_eq_word
  · exact alu_gives h rd ra b remU_eq_word

/-- Settles O1: each row of the ALU is its operation over the integers; what a write of a register leaves is the frame. -/
theorem scalarArithmeticResults : Obligations.ScalarArithmeticResults := by
  refine ⟨fun p hp s rd ra b h => aluRows_give p hp h rd ra b, fun s rd ra rb imm h => ⟨?li, ?lui, ?mv, ?sel⟩⟩
  case li => exact put_gives h rd (signExtend_eq_word imm)
  case lui => exact put_gives h rd (by rw [lui_eq_word, rx_eq_xOf h])
  case mv => exact put_gives h rd (rx_eq_xOf h ra)
  case sel => exact put_gives h rd (by rw [rx_eq_xOf h, rx_eq_xOf h, rx_eq_xOf h])

/-! Fixed-latency results (R108, R111; O2). -/

theorem toInt_product (a b : Word) : (a.signExtend 128 * b.signExtend 128).toInt = a.toInt * b.toInt := by
  have ha := BitVec.le_toInt a
  have ha' := BitVec.toInt_lt (x := a)
  have hb := BitVec.le_toInt b
  have hb' := BitVec.toInt_lt (x := b)
  norm_num at ha ha' hb hb'
  have hlo : -2 ^ 126 ≤ a.toInt * b.toInt := by nlinarith
  have hhi : a.toInt * b.toInt ≤ 2 ^ 126 := by nlinarith
  rw [BitVec.toInt_mul, BitVec.toInt_signExtend_of_le (by decide), BitVec.toInt_signExtend_of_le (by decide)]
  exact Int.bmod_eq_of_le (by omega) (by omega)

theorem toNat_product (a b : Word) : (a.zeroExtend 128 * b.zeroExtend 128).toNat = a.toNat * b.toNat := by
  have hlt : a.toNat * b.toNat < 2 ^ 64 * 2 ^ 64 := Nat.mul_lt_mul'' a.isLt b.isLt
  rw [BitVec.toNat_mul, BitVec.toNat_setWidth, BitVec.toNat_setWidth, Nat.mod_eq_of_lt (a := a.toNat) (by omega),
    Nat.mod_eq_of_lt (a := b.toNat) (by omega), Nat.mod_eq_of_lt (by omega)]

/-- The high half of 128 bits is the quotient of their signed value. -/
theorem extract_high_eq_word (x : BitVec 128) : x.extractLsb' 64 64 = word (x.toInt / 2 ^ 64) := by
  refine BitVec.eq_of_toNat_eq ?_
  rw [BitVec.extractLsb'_toNat, word, BitVec.toNat_ofInt, BitVec.toInt_eq_toNat_cond, Nat.shiftRight_eq_div_pow]
  have := x.isLt
  split <;> omega

theorem mulHigh_eq_word (a b : Word) : mulHigh a b = word (a.toInt * b.toInt / 2 ^ 64) := by
  rw [mulHigh, extract_high_eq_word, toInt_product]

theorem mulHighU_eq_word (a b : Word) : mulHighU a b = word (a.toNat * b.toNat / 2 ^ 64) := by
  have hquot : ((a.toNat : Int) * b.toNat / 2 ^ 64) = ((a.toNat * b.toNat / 2 ^ 64 : Nat) : Int) := by push_cast; rfl
  rw [hquot, word_natCast]
  refine BitVec.eq_of_toNat_eq ?_
  rw [mulHighU, BitVec.extractLsb'_toNat, toNat_product, Nat.shiftRight_eq_div_pow, BitVec.toNat_ofNat]

/-- The place that firstBelow answers is the first where p holds. -/
theorem firstBelow_spec (p : Nat → Bool) (n : Nat) :
    firstBelow p n ≤ n ∧ (∀ k, k < firstBelow p n → p k = false) ∧ (firstBelow p n < n → p (firstBelow p n) = true) := by
  induction n with
  | zero => exact ⟨Nat.le_refl 0, fun k h => absurd h (Nat.not_lt_zero k), fun h => absurd h (Nat.lt_irrefl 0)⟩
  | succ n ih =>
    obtain ⟨hle, hbelow, hat⟩ := ih
    simp only [firstBelow]
    by_cases h : firstBelow p n < n
    · rw [if_pos h]
      exact ⟨by omega, hbelow, fun _ => hat h⟩
    · have hn : firstBelow p n = n := by omega
      rw [if_neg h]
      cases hp : p n with
      | true => exact ⟨by simp, by simpa [hn] using hbelow, fun _ => by simpa using hp⟩
      | false =>
        refine ⟨by simp, fun k hk => ?_, fun hlt => by simp at hlt⟩
        simp only [Bool.false_eq_true, if_false] at hk
        rcases Nat.lt_succ_iff_lt_or_eq.1 hk with hk | rfl
        · exact hbelow k (by omega)
        · exact hp

theorem leadingZeros_leadZeros (a : Word) : LeadingZeros a (leadZeros a) := by
  obtain ⟨hle, hbelow, hat⟩ := firstBelow_spec (fun k => a.getLsbD (63 - k)) 64
  have hv : (leadZeros a).toNat = firstBelow (fun k => a.getLsbD (63 - k)) 64 := by
    rw [leadZeros, BitVec.toNat_ofNat]
    omega
  refine ⟨by omega, ?_, fun hlt => ?_⟩
  · rw [hv]
    refine Nat.lt_pow_two_of_testBit _ fun i hi => ?_
    by_cases h64 : i < 64
    · have := hbelow (63 - i) (by omega)
      rwa [show 63 - (63 - i) = i by omega] at this
    · exact BitVec.getLsbD_of_ge a i (by omega)
  · rw [hv] at hlt ⊢
    exact Nat.ge_two_pow_of_testBit (hat hlt)

theorem two_pow_dvd_iff_testBit (x n : Nat) : 2 ^ n ∣ x ↔ ∀ k, k < n → x.testBit k = false := by
  rw [Nat.dvd_iff_mod_eq_zero]
  constructor
  · intro h k hk
    have := Nat.testBit_mod_two_pow x n k
    simpa [h, hk] using this.symm
  · intro h
    refine Nat.zero_of_testBit_eq_false fun k => ?_
    rw [Nat.testBit_mod_two_pow]
    by_cases hk : k < n
    · simp [h k hk]
    · simp [hk]

theorem trailingZeros_trailZeros (a : Word) : TrailingZeros a (trailZeros a) := by
  obtain ⟨hle, hbelow, hat⟩ := firstBelow_spec (fun k => a.getLsbD k) 64
  have hv : (trailZeros a).toNat = firstBelow (fun k => a.getLsbD k) 64 := by
    rw [trailZeros, BitVec.toNat_ofNat]
    omega
  rw [← hv] at hle hbelow hat
  refine ⟨hle, (two_pow_dvd_iff_testBit _ _).2 hbelow, fun h0 hd => ?_, fun h0 => ?_⟩
  · have hbits := (two_pow_dvd_iff_testBit _ _).1 hd
    by_cases hlt : (trailZeros a).toNat < 64
    · exact Bool.false_ne_true ((hbits _ (Nat.lt_succ_self _)).symm.trans (hat hlt))
    · exact h0 (BitVec.eq_of_getLsbD_eq fun i hi => (hbits i (by omega)).trans BitVec.getLsbD_zero.symm)
  · refine BitVec.eq_of_toNat_eq (Nat.le_antisymm hle (Nat.le_of_not_lt fun hlt => ?_))
    have := hat hlt
    rw [h0] at this
    exact Bool.false_ne_true (BitVec.getLsbD_zero.symm.trans this)

theorem setBits_popCount (a : Word) : SetBits a (popCount a) := by
  have hrange : List.range 64 = (List.finRange 64).map Fin.val := by decide
  have hcard : popcount a = (Finset.univ.filter fun i : Fin 64 => a.getLsbD i.val = true).card := by
    rw [popcount, hrange, List.filter_map, List.length_map]
    change _ = ((List.finRange 64).filter fun i => decide (a.getLsbD i.val = true)).length
    congr 2
    funext i
    exact Bool.decide_eq_true.symm
  have hle : popcount a ≤ 64 := (List.length_filter_le _ _).trans (by simp)
  rw [SetBits, popCount, BitVec.toNat_ofNat, ← hcard]
  omega

theorem putLate_sends {s : State} (h : InScu s) (rd : XReg) {v w : Word} (lat : Nat) (hv : v = w) :
    Sends (s.putLate rd v lat) s rd w lat := by
  subst hv
  exact congrArg Host.Outcome.next (State.adv_of_scu _ (by exact h))

theorem mulRows_send (p : (XReg → XReg → XSrc → Instr) × (Word → Word → Word)) (hp : p ∈ mulRows) {s : State} (h : InScu s)
    (rd ra : XReg) (b : XSrc) : Sends (exec (p.1 rd ra b) s) s rd (p.2 (xOf s ra) (bOf s b)) 3 := by
  rw [← rx_eq_xOf h, ← xsrc_eq_bOf h]
  simp only [mulRows, List.mem_cons, List.not_mem_nil, or_false] at hp
  rcases hp with rfl | rfl | rfl
  · exact putLate_sends h rd mulLatency (mul_eq_word _ _)
  · exact putLate_sends h rd mulLatency (mulHigh_eq_word _ _)
  · exact putLate_sends h rd mulLatency (mulHighU_eq_word _ _)

/-- The registers after the results ps that p picks have been written in order: each holds the last that is its own. -/
theorem getElem_foldl_results (p : Pending → Bool) (ps : List Pending) (r : XReg) : ∀ x : Vector Word 32,
    (ps.foldl (fun x q => if p q = true ∧ q.reg ≠ 0 then x.set q.reg q.val else x) x)[r] =
      if r = 0 then x[r] else (((ps.filter fun q => q.reg == r && p q).getLast?).map (·.val)).getD x[r] := by
  induction ps with
  | nil => exact fun x => by simp
  | cons q ps ih =>
    intro x
    rw [List.foldl_cons, ih, List.filter_cons]
    by_cases hr : r = 0
    · subst hr
      rw [if_pos rfl, if_pos rfl]
      split
      · rename_i hq
        exact (getElem_setReg _ _ _ _).trans (if_neg (Ne.symm hq.2))
      · rfl
    · rw [if_neg hr, if_neg hr]
      by_cases hq : q.reg = r
      · cases hp : p q with
        | true =>
          rw [if_pos ⟨rfl, hq ▸ hr⟩, if_pos (by simp [hq]), getElem_setReg, if_pos hq.symm, List.getLast?_cons]
          cases (ps.filter fun q => q.reg == r && p q).getLast? <;> rfl
        | false => simp [hq]
      · rw [if_neg (c := (q.reg == r && p q) = true) (by simp [hq])]
        congr 1
        split
        · exact (getElem_setReg _ _ _ _).trans (if_neg (Ne.symm hq))
        · rfl

/-- Settles O2: each result over the integers, and the later of two results for one register by the order they are written in. -/
theorem fixedLatencyResults : Obligations.FixedLatencyResults := by
  refine ⟨⟨fun p hp s rd ra b h => mulRows_send p hp h rd ra b, fun s rd ra h => ?_⟩, fun s => ⟨s.writeback.c.x, fun r => ?_, rfl⟩⟩
  · rw [← rx_eq_xOf h]
    exact ⟨⟨_, leadingZeros_leadZeros _, putLate_sends h rd bitLatency rfl⟩,
      ⟨_, trailingZeros_trailZeros _, putLate_sends h rd bitLatency rfl⟩, ⟨_, setBits_popCount _, putLate_sends h rd bitLatency rfl⟩⟩
  · have := getElem_foldl_results (fun q => decide (q.due ≤ s.c.slot)) s.c.pending r s.c.x
    simp only [decide_eq_true_eq] at this
    exact this

/-! Branches and jumps (R115, R116; O3). -/

theorem taken_eq (a b : Word) : Branch.eq.taken a b = decide (a.toNat = b.toNat) :=
  (beq_eq_decide a b).trans (decide_eq_decide.2 BitVec.toNat_inj.symm)

theorem taken_ne (a b : Word) : Branch.ne.taken a b = decide (a.toNat ≠ b.toNat) := by
  rw [decide_not, ← taken_eq]
  rfl

theorem taken_ge (a b : Word) : Branch.ge.taken a b = decide (b.toInt ≤ a.toInt) := by
  rw [← decide_eq_decide.2 not_lt, decide_not]
  rfl

theorem taken_geu (a b : Word) : Branch.geu.taken a b = decide (b.toNat ≤ a.toNat) := by
  rw [← decide_eq_decide.2 not_lt, decide_not]
  rfl

theorem branch_goes {s : State} (h : InScu s) (b : Branch) (ra rb : XReg) (off : BitVec 32) {taken : Bool}
    (hb : b.taken (xOf s ra) (xOf s rb) = taken) :
    Goes (branch b ra rb off s) s (if taken then s.c.pc + word off.toInt else s.c.pc + 8) := by
  rw [branch, rx_eq_xOf h, rx_eq_xOf h, hb]
  cases taken
  · exact congrArg Host.Outcome.next (State.adv_of_scu s h)
  · rfl

theorem branchRows_go (p : (XReg → XReg → BitVec 32 → Instr) × (Word → Word → Bool)) (hp : p ∈ branchRows) {s : State} (h : InScu s)
    (ra rb : XReg) (off : BitVec 32) :
    Goes (exec (p.1 ra rb off) s) s (if p.2 (xOf s ra) (xOf s rb) then s.c.pc + word off.toInt else s.c.pc + 8) := by
  simp only [branchRows, List.mem_cons, List.not_mem_nil, or_false] at hp
  rcases hp with rfl | rfl | rfl | rfl | rfl | rfl
  · exact branch_goes h .eq ra rb off (taken_eq _ _)
  · exact branch_goes h .ne ra rb off (taken_ne _ _)
  · exact branch_goes h .lt ra rb off rfl
  · exact branch_goes h .ge ra rb off (taken_ge _ _)
  · exact branch_goes h .ltu ra rb off rfl
  · exact branch_goes h .geu ra rb off (taken_geu _ _)

/-- What a write of a register leaves, as the statements say it. -/
theorem wrote_wx (s : State) (rd : XReg) (v : Word) :
    ∃ x p, Wrote s.c rd v x p ∧ s.wx rd v = { s with c := { s.c with x := x, pending := p } } := by
  unfold State.wx
  by_cases h0 : rd = 0
  · exact ⟨s.c.x, s.c.pending, ⟨fun _ => ⟨rfl, rfl⟩, fun h => absurd h0 h, fun _ _ => rfl⟩, if_pos h0⟩
  · refine ⟨s.c.x.set rd v, s.c.pending.filter fun p => p.reg != rd,
      ⟨fun h => absurd h h0, fun _ => ⟨?_, rfl⟩, fun r hr => ?_⟩, if_neg h0⟩
    · exact (getElem_setReg _ _ _ _).trans (if_pos rfl)
    · exact (getElem_setReg _ _ _ _).trans (if_neg hr)

/-- A jump that is taken: the link, then the target. -/
theorem jump_links (s : State) (rd : XReg) (pc : Word) : ∃ x p, Wrote s.c rd (s.c.pc + 8) x p ∧
    (.next ((s.wx rd (s.c.pc + 8)).goto pc) : Out) = .next { s with c := { s.c with x := x, pending := p, pc := pc } } := by
  obtain ⟨x, p, hw, hs⟩ := wrote_wx s rd (s.c.pc + 8)
  exact ⟨x, p, hw, by rw [hs]; rfl⟩

theorem extract_low3_eq_zero (t : Word) : t.extractLsb' 0 3 = 0#3 ↔ t.toNat % 8 = 0 := by
  rw [← BitVec.toNat_inj, BitVec.extractLsb'_toNat, Nat.shiftRight_zero]
  rfl

/-- Settles O3: a branch by its relation, a jump by the link and the target it reads before. -/
theorem branchesAndJumps : Obligations.BranchesAndJumps := by
  refine ⟨fun p hp s ra rb off h => branchRows_go p hp h ra rb off, fun s rd rb off h => ⟨jump_links s rd _, fun ha => ?_, fun ha => ?_⟩⟩
  · obtain ⟨x, p, hw, hs⟩ := jump_links s rd (xOf s rb + word off.toInt)
    refine ⟨x, p, hw, hs ▸ ?_⟩
    rw [← rx_eq_xOf h] at ha ⊢
    exact congrArg Host.Outcome.next (if_pos ((extract_low3_eq_zero _).2 ha))
  · rw [← rx_eq_xOf h] at ha ⊢
    exact congrArg Host.Outcome.next (if_neg (mt (extract_low3_eq_zero _).1 ha))

end Sys2Proof.Machine
end

