-- ==== Sys2Proof/Proofs/StripLoops.lean ====
section
/-! Strip loops, vector branches and lane walks (R107, R117, R119, R120; O11). -/

namespace Sys2Proof.Machine

/-! smb (R117). -/

/-- The same machine with other scalar registers, and other results on their way to them. -/
def State.withScalars (s : State) (x : Vector Word 32) (ps : List Pending) : State := { s with c := { s.c with x := x, pending := ps } }

/-- A pointer in use advances, and a result on its way to it is discarded (R108, R117). -/
theorem advancePointer_withScalars {s : State} (h : InScu s) (x : Vector Word 32) (ps : List Pending) (vl : Nat) (p : XReg) (sh : Fin 8) :
    (s.withScalars x ps).advancePointer vl p sh =
      s.withScalars (bumped vl x p sh) (ps.filter fun q => p == 0 || q.reg != p) := by
  have hscu : (s.withScalars x ps).laneSel = none := h
  unfold State.advancePointer bumped
  by_cases h0 : p = 0
  · subst h0
    have hall : (ps.filter fun q => (0 : XReg) == 0 || q.reg != 0) = ps := List.filter_eq_self.2 fun _ _ => rfl
    rw [if_pos rfl, if_pos rfl, hall]
  · have hp : (fun q : Pending => p == 0 || q.reg != p) = fun q => q.reg != p := by
      funext q
      rw [beq_false_of_ne h0, Bool.false_or]
    rw [if_neg h0, if_neg h0, hp, State.rx_of_scu _ hscu, if_neg h0, State.wx, if_neg h0]
    rfl

theorem shiftLeft3_eq_word (off : BitVec 15) : off.signExtend 64 <<< 3 = word (8 * off.toInt) := by
  have hext : off.signExtend 64 = BitVec.ofInt 64 off.toInt := rfl
  rw [word, BitVec.ofInt_mul, ← hext]
  refine BitVec.eq_of_toNat_eq ?_
  rw [BitVec.toNat_shiftLeft, BitVec.toNat_mul, Nat.shiftLeft_eq, Nat.mul_comm]
  rfl

/-- The results that the updates of smb leave on their way, one update after the other. -/
theorem filter_updated {xc a b c d : XReg} (hxc : xc ≠ 0) (ps : List Pending) :
    ((((ps.filter fun p => p.reg != xc).filter fun p => a == 0 || p.reg != a).filter fun p => b == 0 || p.reg != b).filter
      fun p => c == 0 || p.reg != c).filter (fun p => d == 0 || p.reg != d) =
    ps.filter fun p => p.reg == 0 || !([xc, a, b, c, d].contains p.reg) := by
  simp only [List.filter_filter]
  refine List.filter_congr fun p _ => ?_
  by_cases h0 : p.reg = 0
  · have hx0 : ((0 : XReg) != xc) = true := bne_iff_ne.2 hxc.symm
    have hused (r : XReg) : (r == 0 || (0 : XReg) != r) = true := by
      by_cases hr : r = 0
      · simp [hr]
      · simp [bne_iff_ne.2 (Ne.symm hr)]
    simp only [h0, hx0, hused, beq_self_eq_true, Bool.and_self, Bool.true_or]
  · have hused (r : XReg) : (r == 0 || p.reg != r) = (p.reg != r) := by
      by_cases hr : r = 0
      · simp [hr, h0]
      · simp [hr]
    simp only [hused]
    simp only [bne, beq_false_of_ne h0, Bool.false_or, List.contains_cons, List.contains_nil, Bool.or_false, Bool.not_or]
    ac_rfl

theorem smb_next {s : State} (h : InScu s) (o : SmbOp) (hok : o.ok = true) :
    exec (.smb o) s = .next { s with c := { s.c with
      x := smbRegs s o
      pending := s.c.pending.filter fun p => p.reg == 0 || !([o.xc, o.xp0, o.xp1, o.xp2, o.xp3].contains p.reg)
      pc := if 0 < (s.c.x[o.xc] - BitVec.ofNat 64 s.c.vl.toNat).toInt then s.c.pc + word (8 * o.off.toInt) else s.c.pc + 8 } } := by
  have hxc : o.xc ≠ 0 := by
    intro h0
    simp [SmbOp.ok, h0] at hok
  obtain ⟨n, hn⟩ : ∃ n, n = s.c.x[o.xc] - BitVec.ofNat 64 s.c.vl.toNat := ⟨_, rfl⟩
  have hcount : s.wx o.xc (s.rx o.xc - BitVec.ofNat 64 s.vl) =
      s.withScalars (s.c.x.set o.xc n) (s.c.pending.filter fun p => p.reg != o.xc) := by
    rw [State.rx_of_scu s h, if_neg hxc, State.wx, if_neg hxc, hn]
    rfl
  have hread : (s.withScalars (s.c.x.set o.xc n) (s.c.pending.filter fun p => p.reg != o.xc)).rx o.xc = n := by
    rw [State.rx_of_scu _ (by exact h), if_neg hxc]
    exact (getElem_setReg _ _ _ _).trans (if_pos rfl)
  have hpos : (0#64).slt n = true ↔ 0 < n.toInt := BitVec.slt_iff_toInt_lt
  have hregs : bumped s.vl (bumped s.vl (bumped s.vl (bumped s.vl (s.c.x.set o.xc n) o.xp0 o.sh0) o.xp1 o.sh1) o.xp2 o.sh2)
      o.xp3 o.sh3 = smbRegs s o := by rw [hn]; rfl
  refine congrArg Host.Outcome.next ?_
  dsimp only
  rw [hcount, hread, advancePointer_withScalars h, advancePointer_withScalars h, advancePointer_withScalars h,
    advancePointer_withScalars h, filter_updated hxc, hregs, shiftLeft3_eq_word, State.adv_of_scu _ (by exact h), ← hn]
  by_cases hgo : 0 < n.toInt
  · rw [if_pos (hpos.2 hgo), if_pos hgo]
    rfl
  · rw [if_neg (mt hpos.1 hgo), if_neg hgo]
    rfl

/-! Mask bits below VL (R119, R120). -/

theorem testBit_lowMask (s : State) (m : MReg) (i : Nat) :
    (s.lowMask m).testBit i = (decide (i < s.c.vl.toNat) && (s.rm m).getLsbD i) := Nat.testBit_mod_two_pow _ _ _

theorem mem_setBelow {s : State} {m : MReg} {i : Nat} : i ∈ setBelow s m ↔ (s.lowMask m).testBit i = true := by
  rw [testBit_lowMask, Bool.and_eq_true, decide_eq_true_eq, setBelow, List.mem_filter, List.mem_range]

theorem lowMask_eq_zero (s : State) (m : MReg) : s.lowMask m = 0 ↔ setBelow s m = [] := by
  rw [List.eq_nil_iff_forall_not_mem]
  constructor
  · intro h i hi
    rw [mem_setBelow, h, Nat.zero_testBit] at hi
    cases hi
  · exact fun h => Nat.zero_of_testBit_eq_false fun i => Bool.eq_false_iff.2 (mt mem_setBelow.2 (h i))

/-- The lowest bit that is set is the first of those below VL, and it is the only one where no other is left. -/
theorem lowest_of_setBelow {s : State} {m : MReg} {i : Nat} {rest : List Nat} (h : setBelow s m = i :: rest) :
    lowestBit (s.lowMask m) s.vl = i ∧ (s.lowMask m = 2 ^ i ↔ rest = []) := by
  have hsorted : (i :: rest).Pairwise (· < ·) := h ▸ List.pairwise_lt_range.filter _
  have hbelow : ∀ j ∈ rest, i < j := (List.pairwise_cons.1 hsorted).1
  have hset {j : Nat} : (s.lowMask m).testBit j = true ↔ j = i ∨ j ∈ rest := by rw [← mem_setBelow, h, List.mem_cons]
  have hi : i < s.vl := by
    have := hset.2 (.inl rfl)
    rw [testBit_lowMask, Bool.and_eq_true, decide_eq_true_eq] at this
    exact this.1
  refine ⟨?_, fun hv => ?_, fun hrest => ?_⟩
  · obtain ⟨-, hfirst, hat⟩ := firstBelow_spec (fun j => (s.lowMask m).testBit j) s.vl
    have hle : lowestBit (s.lowMask m) s.vl ≤ i :=
      Nat.le_of_not_lt fun hlt => Bool.false_ne_true ((hfirst i hlt).symm.trans (hset.2 (.inl rfl)))
    rcases hset.1 (hat (hle.trans_lt hi)) with he | hmem
    · exact he
    · exact absurd (hbelow _ hmem) (Nat.not_lt.2 hle)
  · refine List.eq_nil_iff_forall_not_mem.2 fun j hj => ?_
    have := hset.2 (.inr hj)
    rw [hv, Nat.testBit_two_pow, decide_eq_true_eq] at this
    exact absurd (hbelow j hj) (by omega)
  · refine Nat.eq_of_testBit_eq fun j => ?_
    rw [Nat.testBit_two_pow, Bool.eq_iff_iff, hset, hrest, decide_eq_true_eq]
    simp [eq_comm]

/-! The branches, once the queues have drained. -/

section
variable {s : State} (h : InScu s) (hd : Drained s [.vq, .lq]) (pm : MReg) (off : BitVec 32)
include h hd

/-- A branch on what the mask holds, past its draining. -/
theorem vectorBranch_goes {p q : Prop} [Decidable p] [Decidable q] (hpq : p ↔ q) :
    Goes (s.draining drainLanes (.next (if p then s.goto (s.target off) else s.adv))) s
      (if q then s.c.pc + word off.toInt else s.c.pc + 8) := by
  rw [draining_of_drained (qs := drainLanes) hd, State.adv_of_scu s h]
  by_cases hp : p
  · rw [if_pos hp, if_pos (hpq.1 hp)]
    rfl
  · rw [if_neg hp, if_neg (mt hpq.2 hp)]
    rfl

theorem ltc_ends (hn : pm = 0 ∨ setBelow s pm = []) : Goes (exec (.ltc pm off) s) s (s.c.pc + 8) := by
  have hend : pm = 0 ∨ s.lowMask pm = 0 := hn.imp_right (lowMask_eq_zero s pm).2
  exact (draining_of_drained (qs := drainLanes) hd _).trans
    (congrArg Host.Outcome.next ((if_pos hend).trans (State.adv_of_scu s h)))

theorem ltc_takes (hpm : pm ≠ 0) {i : Nat} {rest : List Nat} (hset : setBelow s pm = i :: rest) :
    ∃ m : Vector (BitVec 4096) 8, (∀ r : MReg, r ≠ pm → m[r] = s.c.m[r]) ∧
      (∀ j, (m[pm]).getLsbD j = ((s.c.m[pm]).getLsbD j && j != i)) ∧
      exec (.ltc pm off) s = .next { s with c := { s.c with
        m := m, pc := if rest = [] then s.c.pc + 8 else s.c.pc + word off.toInt } } := by
  obtain ⟨hlow, hlast⟩ := lowest_of_setBelow hset
  have hgo : ¬ (pm = 0 ∨ s.lowMask pm = 0) := not_or.2 ⟨hpm, fun h0 => by
    rw [(lowMask_eq_zero s pm).1 h0] at hset
    cases hset⟩
  have hexec : exec (.ltc pm off) s = .next (if s.lowMask pm ≠ 2 ^ i
      then (s.wm pm (s.rm pm &&& ~~~BitVec.ofNat 4096 (2 ^ i))).goto (s.target off)
      else (s.wm pm (s.rm pm &&& ~~~BitVec.ofNat 4096 (2 ^ i))).adv) := by
    rw [← hlow]
    exact (draining_of_drained (qs := drainLanes) hd _).trans (congrArg Host.Outcome.next (if_neg hgo))
  have hwm (v : BitVec 4096) : s.wm pm v = { s with c := { s.c with m := s.c.m.set pm v } } := if_neg hpm
  refine ⟨s.c.m.set pm (s.rm pm &&& ~~~BitVec.ofNat 4096 (2 ^ i)), fun r hr => ?_, fun j => ?_, ?_⟩
  · exact Vector.getElem_set_ne _ _ fun he => hr (Fin.ext he.symm)
  · have hself : (s.c.m.set pm (s.rm pm &&& ~~~BitVec.ofNat 4096 (2 ^ i)))[pm] = s.c.m[pm] &&& ~~~BitVec.ofNat 4096 (2 ^ i) := by
      refine (Vector.getElem_set_self ..).trans ?_
      rw [show s.rm pm = s.c.m[pm] from if_neg hpm]
    rw [hself, BitVec.getLsbD_and, BitVec.getLsbD_not, BitVec.getLsbD_ofNat, Nat.testBit_two_pow]
    by_cases hj : j < 4096
    · simp [hj, bne, beq_eq_decide, eq_comm]
    · rw [BitVec.getLsbD_of_ge _ j (by omega), Bool.false_and, Bool.false_and]
  · rw [hexec, hwm, State.adv_of_scu _ (by exact h)]
    by_cases hr : rest = []
    · rw [if_neg (not_not.2 (hlast.2 hr)), if_pos hr]
      rfl
    · rw [if_pos (mt hlast.1 hr), if_neg hr]
      rfl

end

/-- Settles O11: smb by the order of its updates; the branches by the bits below VL, of which ltc clears the lowest. -/
theorem stripMineAndVectorBranches : Obligations.StripMineAndVectorBranches := by
  refine ⟨fun s o h hok => smb_next h o hok, fun s pm off h =>
    ⟨fun hd => ⟨?_, ?_, ltc_ends h hd pm off, fun hpm i rest hset => ?_⟩, fun hd => ?_⟩⟩
  · exact vectorBranch_goes h hd off (not_congr (lowMask_eq_zero s pm))
  · exact vectorBranch_goes h hd off (lowMask_eq_zero s pm)
  · exact ltc_takes h hd pm off hpm hset
  · exact ⟨draining_waits hd _, draining_waits hd _, draining_waits hd _⟩

end Sys2Proof.Machine
end

