-- ==== Sys2Proof/Proofs/CsrAccess.lean ====
section
/-! CSR instructions (R101, R107, R131, R155, R197, R201; O18). -/

namespace Sys2Proof.Machine

/-! Fields of a word. -/

theorem getLsbD_lowOnes (n i : Nat) : (BitVec.ofNat 64 (2 ^ n - 1)).getLsbD i = (decide (i < 64) && decide (i < n)) := by
  rw [BitVec.getLsbD_ofNat, Nat.testBit_two_pow_sub_one]

/-- The low n bits of a word, as a mask keeps them. -/
theorem zeroExtend_extract_low (v : Word) {n : Nat} (hn : n ≤ 64) :
    (v.extractLsb' 0 n).zeroExtend 64 = v &&& BitVec.ofNat 64 (2 ^ n - 1) := by
  refine BitVec.eq_of_toNat_eq ?_
  have hpow : 2 ^ n ≤ 2 ^ 64 := Nat.pow_le_pow_right (by decide) hn
  have hlt := Nat.mod_lt v.toNat (Nat.two_pow_pos n)
  rw [BitVec.toNat_setWidth, BitVec.extractLsb'_toNat, Nat.shiftRight_zero, BitVec.toNat_and, BitVec.toNat_ofNat,
    Nat.mod_eq_of_lt (by omega), Nat.mod_eq_of_lt (a := 2 ^ n - 1) (by omega), Nat.and_two_pow_sub_one_eq_mod]

theorem and_ones (v : Word) : v = v &&& 0xFFFFFFFFFFFFFFFF := BitVec.and_allOnes.symm

theorem vcfg_fields (v : Word) : 0#58 ++ v.extractLsb' 4 2 ++ v.extractLsb' 0 4 = v &&& 0x3F := by
  refine BitVec.eq_of_getLsbD_eq fun i hi => ?_
  rw [show (0x3F : Word) = BitVec.ofNat 64 (2 ^ 6 - 1) from rfl]
  simp only [BitVec.getLsbD_append, BitVec.getLsbD_extractLsb', BitVec.getLsbD_and, getLsbD_lowOnes, BitVec.getLsbD_zero]
  grind

theorem eidx_fields (v : Word) : 0#45 ++ v.extractLsb' 16 3 ++ 0#3 ++ v.extractLsb' 0 13 = v &&& 0x71FFF := by
  refine BitVec.eq_of_getLsbD_eq fun i hi => ?_
  rw [show (0x71FFF : Word) = BitVec.ofNat 64 (2 ^ 3 - 1) <<< 16 ||| BitVec.ofNat 64 (2 ^ 13 - 1) from rfl]
  simp only [BitVec.getLsbD_append, BitVec.getLsbD_extractLsb', BitVec.getLsbD_and, BitVec.getLsbD_or, BitVec.getLsbD_shiftLeft,
    getLsbD_lowOnes, BitVec.getLsbD_zero]
  grind

/-- CTL after a write: DET stays as it was (R102). -/
theorem ctl_fields (v : Word) (a b c d : Bool) :
    0#60 ++ BitVec.ofBool (v.getLsbD 3) ++ BitVec.ofBool (v.getLsbD 2) ++ BitVec.ofBool (v.getLsbD 1) ++ BitVec.ofBool d =
      (v &&& 0xE) ||| ((0#60 ++ BitVec.ofBool a ++ BitVec.ofBool b ++ BitVec.ofBool c ++ BitVec.ofBool d) &&& 1) := by
  refine BitVec.eq_of_getLsbD_eq fun i hi => ?_
  rw [show (0xE : Word) = BitVec.ofNat 64 (2 ^ 3 - 1) <<< 1 from rfl, show (1 : Word) = BitVec.ofNat 64 (2 ^ 1 - 1) from rfl]
  simp only [BitVec.getLsbD_append, BitVec.getLsbD_and, BitVec.getLsbD_or, BitVec.getLsbD_shiftLeft, getLsbD_lowOnes,
    BitVec.getLsbD_zero, BitVec.getLsbD_ofBool]
  grind

theorem plst_fields (v : Word) : (v.extractLsb' 0 32 &&& 0xFFFF000F).zeroExtend 64 = v &&& 0xFFFF000F := by
  have hlow := zeroExtend_extract_low v (n := 32) (by decide)
  have hsplit (x y : BitVec 32) : (x &&& y).zeroExtend 64 = x.zeroExtend 64 &&& y.zeroExtend 64 := BitVec.setWidth_and
  rw [hsplit, hlow, BitVec.and_assoc]
  rfl

/-- A doubleword of FMSK after one has been replaced. -/
theorem extract_putFmsk (f : BitVec 1024) (n m : Fin 16) (v : Word) :
    (putFmsk f n v).extractLsb' (64 * m.val) 64 = if m = n then v else f.extractLsb' (64 * m.val) 64 := by
  refine BitVec.eq_of_getLsbD_eq fun i hi => ?_
  have hm := m.isLt
  rw [putFmsk, BitVec.getLsbD_extractLsb', BitVec.getLsbD_or, BitVec.getLsbD_and, BitVec.getLsbD_not, BitVec.getLsbD_ofNat,
    BitVec.getLsbD_ofNat, Nat.testBit_mul_two_pow, Nat.testBit_mul_two_pow, Nat.testBit_two_pow_sub_one]
  by_cases h : m = n
  · subst h
    have hlt : 64 * m.val + i < 1024 := by omega
    simp only [if_true, Nat.le_add_right, Nat.add_sub_cancel_left, hi, hlt, decide_true, Bool.true_and, Bool.not_true,
      Bool.and_false, Bool.false_or]
    rfl
  · have hne : ¬ (64 * n.val ≤ 64 * m.val + i ∧ 64 * m.val + i - 64 * n.val < 64) := fun hr => h (Fin.ext (by omega))
    rw [if_neg h, BitVec.getLsbD_extractLsb']
    by_cases hle : 64 * n.val ≤ 64 * m.val + i
    · have hge : 64 ≤ 64 * m.val + i - 64 * n.val := by omega
      have hzero : v.toNat.testBit (64 * m.val + i - 64 * n.val) = false := BitVec.getLsbD_of_ge v _ hge
      have hlt : 64 * m.val + i < 1024 := by omega
      simp [hi, hle, hge, hzero, hlt]
    · have hlt : 64 * m.val + i < 1024 := by omega
      simp [hi, hle, hlt]

/-! What a write of a CSR leaves in each CSR. -/

theorem masked {v m x : Word} (h : x = v &&& m) : x = (v &&& m) ||| 0 := h.trans BitVec.or_zero.symm

/-- A CSR that is written reads as its own bits of the value (R101). -/
theorem csr_putCsr_same (s : State) {r : Csr} (hb : csrBits r ≠ 0) (v : Word) :
    (s.putCsr r v).csr r = (v &&& csrBits r) ||| (if r = .ctl then s.csr r &&& 1 else 0) := by
  cases r
  case ctl => exact ctl_fields v s.c.lpin s.c.hmchk s.c.sbc s.c.det
  case vcfg =>
    refine masked (Eq.trans ?_ (vcfg_fields v))
    have hblk : Blk.code (Blk.ofCode (v.extractLsb' 4 2)) = v.extractLsb' 4 2 := (Blk.ofCode_eq.1 rfl).symm
    exact congrArg (fun b => 0#58 ++ b ++ v.extractLsb' 0 4) hblk
  case eidx => exact masked (eidx_fields v)
  case plst => exact masked (plst_fields v)
  case fmsk n => exact masked (((extract_putFmsk _ _ _ _).trans (if_pos rfl)).trans (and_ones v))
  case watch n => exact masked (Vector.getElem_set_self ..)
  case scnt | taddr | dfaddr | mxrowp | mxcolp | dlwin => exact masked (and_ones v)
  case vl | vlg => exact masked (zeroExtend_extract_low v (n := 13) (by decide))
  case vah | tcause => exact masked (zeroExtend_extract_low v (n := 8) (by decide))
  case dfcause => exact masked (zeroExtend_extract_low v (n := 12) (by decide))
  case mxprog => exact masked (zeroExtend_extract_low v (n := 10) (by decide))
  case hmexp => exact masked (zeroExtend_extract_low v (n := 18) (by decide))
  case eptlim | pltol | pleps => exact masked (zeroExtend_extract_low v (n := 32) (by decide))
  case eptport | swlim | plsw | asid => exact masked (zeroExtend_extract_low v (n := 16) (by decide))
  case tpc | tvec | tsp | tinfo | watchctl | ptroot => exact masked rfl
  all_goals exact absurd rfl hb

/-- A write of a CSR changes what no other CSR reads. -/
theorem csr_putCsr_other (s : State) {r q : Csr} (hr : r ≠ .mxctl) (hq : q ≠ r) (v : Word) : (s.putCsr r v).csr q = s.csr q := by
  have hrow (hf : ∀ n, r ≠ .fmsk n) (hw : ∀ n, r ≠ .watch n) :
      (s.putCsr r v).csr q = if q = r then (s.putCsr r v).csr r else s.csr q := by
    cases r
    case mxctl => exact absurd rfl hr
    case fmsk n => exact absurd rfl (hf n)
    case watch n => exact absurd rfl (hw n)
    all_goals cases q <;> rfl
  cases r
  case fmsk n =>
    cases q
    case fmsk m => exact (extract_putFmsk _ _ _ _).trans (if_neg fun he => hq (congrArg _ he))
    all_goals rfl
  case watch n =>
    cases q
    case watch m => exact Vector.getElem_set_ne n.isLt m.isLt fun he => hq (congrArg _ (Fin.ext he.symm))
    all_goals rfl
  all_goals exact (hrow (fun _ => Csr.noConfusion) fun _ => Csr.noConfusion).trans (if_neg hq)

/-- A write of a CSR other than MXCTL changes fields of the context that hold CSRs alone. -/
theorem putCsr_frame (s : State) {r : Csr} (hr : r ≠ .mxctl) (v : Word) : ∃ c : Ctx, s.putCsr r v = s.withC c ∧
    c.pc = s.c.pc ∧ c.x = s.c.x ∧ c.v = s.c.v ∧ c.m = s.c.m ∧ c.d = s.c.d ∧ c.counts = s.c.counts := by
  refine ⟨(s.putCsr r v).c, ?_⟩
  cases r
  case mxctl => exact absurd rfl hr
  all_goals exact ⟨rfl, rfl, rfl, rfl, rfl, rfl, rfl⟩

/-- Going on to the next instruction changes no CSR. -/
theorem csr_goto (s : State) (pc : Word) (q : Csr) : (s.goto pc).csr q = s.csr q := by cases q <;> rfl

/-! Modes (R101). -/

theorem csrBits_watch_ne_zero (n : Fin 4) : csrBits (.watch n) ≠ 0 := by
  revert n
  decide

theorem csrMode_of_taskWritable {r : Csr} (h : taskWritable r = true) : csrMode r = .rw ∧ csrBits r ≠ 0 ∧ r ≠ .mxctl := by
  cases r
  case ctl | vah | mxrowp | mxcolp | swlim | pltol | pleps | hmexp | watchctl => exact ⟨rfl, by decide, Csr.noConfusion⟩
  case watch n => exact ⟨rfl, csrBits_watch_ne_zero n, Csr.noConfusion⟩
  all_goals cases h

theorem csrMode_of_bits {r : Csr} (h : csrBits r ≠ 0) : csrMode r ≠ .ro ∧ r ≠ .mxctl := by
  cases r
  case stat | detw | lmap | vlmax | lgrant | tick | deadln | prio | session | mxctl => exact absurd rfl h
  all_goals exact ⟨CsrMode.noConfusion, Csr.noConfusion⟩

theorem csrMode_of_taskReadOnly {r : Csr} (h : taskReadOnly r = true) : csrMode r = .ro ∨ csrMode r = .handler := by
  cases r
  case stat | detw | lmap | vlmax | lgrant | tick | deadln | prio | session => exact .inl rfl
  case vl | vlg | vcfg | plst | plsw => exact .inr rfl
  all_goals cases h

theorem csrMode_of_neither {r : Csr} (hw : taskWritable r = false) (hr : taskReadOnly r = false) : csrMode r = .h := by
  cases r
  case scnt | eidx | fmsk | tcause | taddr | tpc | tvec | tsp | tinfo | dfcause | dfaddr | eptlim | eptport | mxctl | mxprog | dlwin
    | ptroot | asid => rfl
  case ctl | vah | mxrowp | mxcolp | swlim | pltol | pleps | hmexp | watch | watchctl => cases hw
  all_goals cases hr

/-! A write, by the mode of its CSR. -/

theorem writeCsr_writes {s : State} {r : Csr} (v : Word) (h : taskWritable r = true ∨ (s.c.hnd = true ∧ csrMode r ≠ .ro)) :
    s.writeCsr r v = (s.putCsr r v).adv := by
  unfold State.writeCsr
  rcases h with hw | ⟨hh, hm⟩
  · rw [(csrMode_of_taskWritable hw).1]
  · cases hmode : csrMode r with
    | rw => rfl
    | ro => exact absurd hmode hm
    | handler => exact if_pos hh
    | h => exact if_pos hh

theorem writeCsr_ignored {s : State} {r : Csr} (v : Word) (hh : s.c.hnd = false) (h : taskReadOnly r = true) : s.writeCsr r v = s.adv := by
  unfold State.writeCsr
  rcases csrMode_of_taskReadOnly h with hm | hm
  · rw [hm]
  · rw [hm]
    exact if_neg (by simp [hh])

theorem writeCsr_access {s : State} {r : Csr} (v : Word) (hh : s.c.hnd = false) (hw : taskWritable r = false)
    (hr : taskReadOnly r = false) : s.writeCsr r v = s.raise
      { cause := .access, detail := BitVec.ofNat 56 (4 * 2 ^ 52 + 2 ^ 50), addr := (Csr.code r).zeroExtend 64 } := by
  unfold State.writeCsr
  rw [csrMode_of_neither hw hr]
  exact if_neg (by simp [hh])

theorem putCsr_mxctl (s : State) (v : Word) : s.putCsr .mxctl v = mxctlSet s v := by
  have howns : s.owns = true ↔ s.k.owner = some (Fin.ofNat 4 s.here) := beq_iff_eq
  unfold State.putCsr State.setRes mxctlSet
  by_cases h1 : v.getLsbD 1 = true
  · rw [if_pos h1]
    simp only [h1, if_true]
    rfl
  · rw [if_neg h1]
    simp only [h1, if_false, Bool.false_eq_true]
    by_cases h2 : s.k.owner = some (Fin.ofNat 4 s.here)
    · rw [if_pos (howns.2 h2), if_pos h2]
    · rw [if_neg (mt howns.1 h2), if_neg h2]

section
variable {s : State} (h : InScu s)
include h

/-- A write that the mode of the CSR admits, and its frame. -/
theorem writeCsr_leaves {r : Csr} (v : Word) (hw : taskWritable r = true ∨ (s.c.hnd = true ∧ csrBits r ≠ 0)) :
    ∃ t, s.writeCsr r v = t ∧ t.c.pc = s.c.pc + 8 ∧
      t.csr r = (v &&& csrBits r) ||| (if r = .ctl then s.csr r &&& 1 else 0) ∧ (∀ q, q ≠ r → t.csr q = s.csr q) ∧
      (∀ i : XReg, t.c.x[i] = s.c.x[i]) ∧ t.c.v = s.c.v ∧ t.c.m = s.c.m ∧ t.c.d = s.c.d ∧ t.c.counts = s.c.counts ∧
      t.mem = s.mem ∧ t.ctxs = s.ctxs ∧ t.k = s.k := by
  have hbits : csrBits r ≠ 0 := hw.elim (fun hw => (csrMode_of_taskWritable hw).2.1) And.right
  obtain ⟨hmode, hr⟩ := csrMode_of_bits hbits
  obtain ⟨c, hc, hpc, hx, hv, hm, hd, hn⟩ := putCsr_frame s hr v
  have hput : s.writeCsr r v = (s.putCsr r v).goto (c.pc + 8) := by
    rw [writeCsr_writes v (hw.imp_right fun hb => ⟨hb.1, hmode⟩), hc]
    exact State.adv_of_scu _ (by exact h)
  refine ⟨_, hput, by rw [← hpc]; rfl, (csr_goto _ _ _).trans (csr_putCsr_same s hbits v),
    fun q hq => (csr_goto _ _ _).trans (csr_putCsr_other s hr hq v), ?_⟩
  rw [hc]
  exact ⟨fun i => congrArg (·[i]) hx, hv, hm, hd, hn, rfl, rfl, rfl⟩

/-- What is claimed of an instruction that writes w to CSR r, past its draining. -/
theorem csrWrite_holds (r : Csr) (w : Word) :
    (taskWritable r = true ∨ (s.c.hnd = true ∧ csrBits r ≠ 0) →
      ∃ t, (.next (s.writeCsr r w) : Out) = .next t ∧ t.c.pc = s.c.pc + 8 ∧
      t.csr r = (w &&& csrBits r) ||| (if r = .ctl then s.csr r &&& 1 else 0) ∧ (∀ q, q ≠ r → t.csr q = s.csr q) ∧
      (∀ i : XReg, t.c.x[i] = s.c.x[i]) ∧ t.c.v = s.c.v ∧ t.c.m = s.c.m ∧ t.c.d = s.c.d ∧ t.c.counts = s.c.counts ∧
      t.mem = s.mem ∧ t.ctxs = s.ctxs ∧ t.k = s.k) ∧
    (s.c.hnd = true → r = .mxctl → (.next (s.writeCsr r w) : Out) = .next (next (mxctlSet s w))) ∧
    (s.c.hnd = false → taskReadOnly r = true → Goes (.next (s.writeCsr r w)) s (s.c.pc + 8)) ∧
    (s.c.hnd = false → taskWritable r = false → taskReadOnly r = false → (.next (s.writeCsr r w) : Out) =
      .next (s.raise { cause := .access, detail := BitVec.ofNat 56 (4 * 2 ^ 52 + 2 ^ 50), addr := (Csr.code r).zeroExtend 64 })) := by
  refine ⟨fun hw => ?_, fun hh hr => ?_, fun hh hr => ?_, fun hh hw hr => congrArg Host.Outcome.next (writeCsr_access w hh hw hr)⟩
  · obtain ⟨t, ht, hleaves⟩ := writeCsr_leaves h w hw
    exact ⟨t, congrArg Host.Outcome.next ht, hleaves⟩
  · subst hr
    rw [writeCsr_writes w (.inr ⟨hh, CsrMode.noConfusion⟩), putCsr_mxctl, State.adv_of_scu _ (by exact h)]
    rfl
  · rw [writeCsr_ignored w hh hr, State.adv_of_scu s h]
    rfl

theorem csrr_gives (rd : XReg) {r : Csr} (hr : r = .tick ∨ Drained s [.vq, .lq, .mq, .aq]) :
    Gives (exec (.csrr rd r) s) s rd (s.csr r) := by
  have hexec : exec (.csrr rd r) s = s.put rd (s.csr r) := by
    rcases hr with hr | hd
    · exact if_pos hr
    · exact (congrArg (fun o => if r = .tick then s.put rd (s.csr r) else o) (draining_of_drained (qs := drainAll) hd _)).trans
        (ite_self _)
  rw [hexec]
  exact put_gives h rd rfl

end

theorem csrr_waits {s : State} (rd : XReg) {r : Csr} (hr : r ≠ .tick) (hd : ¬ Drained s [.vq, .lq, .mq, .aq]) :
    Waits (exec (.csrr rd r) s) s (.drain [.vq, .lq, .mq, .aq]) .scu := by
  have hexec : exec (.csrr rd r) s = s.draining drainAll (s.put rd (s.csr r)) := if_neg hr
  rw [hexec]
  exact draining_waits hd _

/-- The three instructions that write a CSR write what their row says (R131). -/
theorem csrRows_write (p : (Csr → XReg → Instr) × (Word → Word → Word)) (hp : p ∈ csrRows) {s : State} (h : InScu s)
    (r : Csr) (ra : XReg) :
    exec (p.1 r ra) s = s.draining drainAll (.next (s.writeCsr r (p.2 (s.csr r) (xOf s ra)))) := by
  rw [← rx_eq_xOf h]
  simp only [csrRows, List.mem_cons, List.not_mem_nil, or_false] at hp
  rcases hp with rfl | rfl | rfl <;> rfl

/-- Settles O18: a CSR reads as its own bits of what was written, and no other CSR changes; who may write it by its mode. -/
theorem csrInstructions : Obligations.CsrInstructions := by
  refine ⟨fun s rd ra r h => ⟨csrr_gives h rd, csrr_waits rd, fun p hp => ?_⟩, fun s v => ⟨fun hh => ?handler, fun hh b => ?task⟩⟩
  · rw [csrRows_write p hp h]
    refine ⟨fun hd => draining_waits hd _, fun hd => ?_⟩
    rw [draining_of_drained (qs := drainAll) hd]
    exact csrWrite_holds h r _
  case handler =>
    have howns : s.owns = true ↔ s.k.owner = some (Fin.ofNat 4 s.here) := beq_iff_eq
    refine ⟨congrArg Host.Outcome.next (if_pos hh), congrArg Host.Outcome.next ((if_pos hh).trans ?_),
      congrArg Host.Outcome.next (if_pos hh), congrArg Host.Outcome.next ((if_pos hh).trans ?_)⟩
    · by_cases ho : s.k.owner = some (Fin.ofNat 4 s.here)
      · rw [if_pos ho]
        exact if_pos (howns.2 ho)
      · rw [if_neg ho]
        exact if_neg (mt howns.1 ho)
    · have hlow : v.extractLsb' 0 16 = BitVec.ofNat 16 v.toNat := rfl
      rw [← hlow]
      rfl
  case task => exact ⟨congrArg Host.Outcome.next (if_neg (by simp [hh])), congrArg Host.Outcome.next (if_neg (by simp [hh]))⟩

end Sys2Proof.Machine
end

