-- ==== Sys2Proof/Proofs/EngineBatches.lean ====
section
/-! Engine batches: the records that an engine takes from a group of registers, and the counts of commands completed (R129, R130; O43). -/

namespace Sys2Proof.Machine

/-! One record (R129). -/

/-- The machine after an engine has taken a record. -/
def State.taken (s : State) (cls : Cls) (r : BitVec 512) : State :=
  { s.putEngine s.here cls (s.engine s.here cls ++ [freshCmd s r]) with serial := s.serial + 1 }

/-- The commands that stand in the way of a record: those of its class, or of its encoder. -/
theorem filter_mine (s : State) (cls : Cls) (r : BitVec 512) :
    (if cls = .enc then (s.engine s.here cls).filter (·.second == s.encoderFor s.die s.c.asid r) else s.engine s.here cls) =
      (s.engine s.here cls).filter fun c => cls != .enc || c.second == s.encoderFor s.die s.c.asid r := by
  by_cases h : cls = .enc
  · rw [if_pos h, h]
    rfl
  · rw [if_neg h, List.filter_eq_self.2 fun c _ => by rw [bne_iff_ne.2 h, Bool.true_or]]

theorem offer_eq (s : State) (cls : Cls) (r : BitVec 512) :
    s.offer cls r = if hasRoom s cls r = true then some (s.taken cls r) else none := by
  have hfull : ((s.capacity s.here cls).1 ≤ ((s.engine s.here cls).filter fun c =>
        cls != .enc || c.second == s.encoderFor s.die s.c.asid r).length ∨
      (s.capacity s.here cls).2 ≤ (((s.engine s.here cls).filter fun c =>
        cls != .enc || c.second == s.encoderFor s.die s.c.asid r).filter (·.ctx == s.here)).length) ↔ ¬ hasRoom s cls r = true := by
    simp only [hasRoom, Bool.and_eq_true, decide_eq_true_eq]
    omega
  unfold State.offer
  simp only [filter_mine]
  by_cases h : hasRoom s cls r = true
  · rw [if_neg fun hf => hfull.1 hf h, if_pos h]
    unfold State.taken freshCmd
    cases s.c.task <;> rfl
  · rw [if_pos (hfull.2 h), if_neg h]

theorem taken_c (s : State) (cls : Cls) (r : BitVec 512) : (s.taken cls r).c = s.c := by cases cls <;> rfl
theorem taken_scu (s : State) (cls : Cls) (r : BitVec 512) : (s.taken cls r).laneSel = s.laneSel := by cases cls <;> rfl
theorem taken_k (s : State) (cls : Cls) (r : BitVec 512) : (s.taken cls r).k = s.k := by cases cls <;> rfl

theorem offered_cons (cls : Cls) (rec_ : Nat → BitVec 512) (i : Nat) (l : List Nat) (s : State) :
    offered cls rec_ (i :: l) s = if hasRoom s cls (rec_ i) = true then
      ((offered cls rec_ l (s.taken cls (rec_ i))).1, i :: (offered cls rec_ l (s.taken cls (rec_ i))).2) else (s, []) := rfl

/-- The slots that an engine accepts are among those offered, and the offers leave the context and the core. -/
theorem offered_frame (cls : Cls) (rec_ : Nat → BitVec 512) (l : List Nat) : ∀ s : State,
    (offered cls rec_ l s).1.c = s.c ∧ (offered cls rec_ l s).1.k = s.k ∧ (offered cls rec_ l s).1.laneSel = s.laneSel ∧
      (offered cls rec_ l s).2 ⊆ l := by
  induction l with
  | nil => exact fun s => ⟨rfl, rfl, rfl, fun _ h => h⟩
  | cons i l ih =>
    intro s
    rw [offered_cons]
    split
    · obtain ⟨hc, hk, hl, hsub⟩ := ih (s.taken cls (rec_ i))
      exact ⟨hc.trans (taken_c ..), hk.trans (taken_k ..), hl.trans (taken_scu ..), List.cons_subset_cons i hsub⟩
    · exact ⟨rfl, rfl, rfl, List.nil_subset _⟩

/-! The slots of a batch in order (R129). -/

/-- The slots of a list that the predicate selects. -/
def chosen (s : State) (o : BatchOp) (l : List Nat) : List Nat := l.filter fun i => (s.rm o.pm).getLsbD i

/-- The machine after the selected slots of a list, and those accepted; an engine found full takes no more. -/
def batchUp (s : State) (o : BatchOp) (l : List Nat) (u : State) (open_ : Bool) : State × List Nat :=
  if open_ then offered o.cls (slotRec s o) (chosen s o l) u else (u, [])

theorem batchUp_frame (s : State) (o : BatchOp) (l : List Nat) (u : State) (b : Bool) :
    (batchUp s o l u b).1.c = u.c ∧ (batchUp s o l u b).1.k = u.k ∧ (batchUp s o l u b).2 ⊆ l := by
  unfold batchUp
  split
  · obtain ⟨hc, hk, -, hsub⟩ := offered_frame o.cls (slotRec s o) (chosen s o l) u
    exact ⟨hc, hk, fun _ hi => (List.mem_filter.1 (hsub hi)).1⟩
  · exact ⟨rfl, rfl, List.nil_subset _⟩

theorem batchUp_unchosen {s : State} {o : BatchOp} {i : Nat} (h : ¬ (s.rm o.pm).getLsbD i = true) (l : List Nat) (u : State) (b : Bool) :
    batchUp s o (i :: l) u b = batchUp s o l u b := by
  rw [batchUp, batchUp, chosen, List.filter_cons_of_neg h]
  rfl

/-- A slot accepted. -/
theorem batchUp_accepts {s : State} {o : BatchOp} {i : Nat} {u : State} (h : (s.rm o.pm).getLsbD i = true)
    (hroom : hasRoom u o.cls (slotRec s o i) = true) (l : List Nat) : batchUp s o (i :: l) u true =
      ((batchUp s o l (u.taken o.cls (slotRec s o i)) true).1, i :: (batchUp s o l (u.taken o.cls (slotRec s o i)) true).2) := by
  rw [batchUp, chosen, List.filter_cons_of_pos h, if_pos rfl, offered_cons, if_pos hroom]
  rfl

/-- A slot refused: the engine takes none of the others. -/
theorem batchUp_refuses {s : State} {o : BatchOp} {i : Nat} {u : State} {b : Bool} (h : (s.rm o.pm).getLsbD i = true)
    (hroom : b = true → ¬ hasRoom u o.cls (slotRec s o i) = true) (l : List Nat) : batchUp s o (i :: l) u b = (u, []) := by
  cases b with
  | false => rfl
  | true => rw [batchUp, chosen, List.filter_cons_of_pos h, if_pos rfl, offered_cons, if_neg (hroom rfl)]

/-- The bits of MR after the slots of a list. -/
def batchBits (acc l : List Nat) : List (Nat × Bool) := maskWrites (fun i => some (acc.contains i)) l

theorem batchBits_cons (acc : List Nat) (i : Nat) (l : List Nat) :
    batchBits acc (i :: l) = (i, acc.contains i) :: batchBits acc l := rfl

theorem batchBits_congr {acc acc' l : List Nat} (h : ∀ i ∈ l, acc.contains i = acc'.contains i) : batchBits acc l = batchBits acc' l :=
  List.filterMap_congr fun i hi => congrArg (fun b => some (i, b)) (h i hi)

/-- The slot that an engine takes from a context whose registers hold no error (R53, R129). -/
theorem run_cons {s u : State} {o : BatchOp} (hs : s.c.vbad = []) (hc : u.c = s.c) (hk : u.k = s.k) (i : Nat) (l : List Nat)
    (b : Bool) (acc : List (Nat × Bool)) : Batch.run o (i :: l) ⟨u, b, acc⟩ =
      if (s.rm o.pm).getLsbD i = true then
        match badRecord o.cls (slotRec s o i) with
        | some why => (⟨u, b, acc⟩, some (engineTrap o.cls why i))
        | none => match (if b = true then u.offer o.cls (slotRec s o i) else none) with
          | some u1 => Batch.run o l ⟨u1, true, acc ++ [(i, true)]⟩
          | none => Batch.run o l ⟨u, false, acc ++ [(i, false)]⟩
      else Batch.run o l ⟨u, b, acc ++ [(i, false)]⟩ := by
  have hv : u.c.vbad = [] := hc ▸ hs
  have hbit : u.maskBit o.pm i = (s.rm o.pm).getLsbD i := by rw [State.maskBit, State.rm, State.rm, hc]
  have hbad : u.slotBad o.vc i = false := by simp [State.slotBad, hv]
  have hread : u.readSlot o.vc i = u := if_pos hv
  have hrec : u.slotRecord o.vc i = slotRec s o i := by
    have hslots : u.slots = s.wid / 8 := by rw [State.slots, State.wid, State.wid, hc, hk]
    rw [State.slotRecord, hslots, State.rv, hc]
    rfl
  rw [Batch.run, hbit]
  cases (s.rm o.pm).getLsbD i with
  | false => rfl
  | true =>
    simp only [hbad, hread, hrec, Bool.not_true, Bool.false_eq_true, if_false, if_true] <;> rfl

/-- Slots whose records are all good. -/
theorem run_good {s : State} {o : BatchOp} (hs : s.c.vbad = []) (l : List Nat) (hnd : l.Nodup)
    (hgood : ∀ i ∈ l, (s.rm o.pm).getLsbD i = true → badRecord o.cls (slotRec s o i) = none) (rest : List Nat) :
    ∀ (u : State) (b : Bool) (acc : List (Nat × Bool)), u.c = s.c → u.k = s.k → ∃ b',
      Batch.run o (l ++ rest) ⟨u, b, acc⟩ =
        Batch.run o rest ⟨(batchUp s o l u b).1, b', acc ++ batchBits (batchUp s o l u b).2 l⟩ := by
  induction l with
  | nil =>
    intro u b acc _ _
    have hnone : batchUp s o [] u b = (u, []) := by cases b <;> rfl
    exact ⟨b, by rw [hnone]; simp [batchBits, maskWrites]⟩
  | cons i l ih =>
    intro u b acc hc hk
    obtain ⟨hil, hnd'⟩ := List.nodup_cons.1 hnd
    have ih' := ih hnd' fun j hj => hgood j (List.mem_cons_of_mem i hj)
    have hbits (a : List Nat) (x : Bool) : acc ++ [(i, x)] ++ batchBits a l = acc ++ (i, x) :: batchBits a l := by simp
    have hnot (v : State) (b : Bool) : (batchUp s o l v b).2.contains i = false := by
      rw [Bool.eq_false_iff, Ne, List.contains_iff_mem]
      exact fun hi => hil ((batchUp_frame s o l v b).2.2 hi)
    rw [List.cons_append, run_cons hs hc hk]
    by_cases hsel : (s.rm o.pm).getLsbD i = true
    · rw [if_pos hsel, hgood i List.mem_cons_self hsel]
      by_cases hroom : b = true ∧ hasRoom u o.cls (slotRec s o i) = true
      · obtain ⟨rfl, hroom⟩ := hroom
        obtain ⟨b', hrun⟩ := ih' (u.taken o.cls (slotRec s o i)) true (acc ++ [(i, true)])
          ((taken_c ..).trans hc) ((taken_k ..).trans hk)
        refine ⟨b', ?_⟩
        have hrest (a : List Nat) : batchBits (i :: a) l = batchBits a l := batchBits_congr fun j hj => by
          rw [List.contains_cons, beq_false_of_ne (fun h : j = i => hil (h ▸ hj)), Bool.false_or]
        rw [batchUp_accepts hsel hroom, batchBits_cons, List.contains_cons, beq_self_eq_true, Bool.true_or, hrest, ← hbits, ← hrun]
        simp only [offer_eq, hroom, if_true]
      · obtain ⟨b', hrun⟩ := ih' u false (acc ++ [(i, false)]) hc hk
        refine ⟨b', ?_⟩
        have hfull : (if b = true then u.offer o.cls (slotRec s o i) else none) = none := by
          rw [offer_eq]
          by_cases hb : b = true
          · rw [if_pos hb, if_neg fun h => hroom ⟨hb, h⟩]
          · rw [if_neg hb]
        rw [batchUp_refuses hsel (fun hb h => hroom ⟨hb, h⟩), batchBits_cons, ← hbits]
        simp only [hfull]
        exact hrun
    · rw [if_neg hsel, batchUp_unchosen hsel, batchBits_cons, hnot, ← hbits]
      exact ih' u b _ hc hk

/-- The machine and the bits of MR after the first n slots, all good. -/
theorem run_range {s : State} {o : BatchOp} (hs : s.c.vbad = []) (n : Nat)
    (hgood : ∀ i, i < n → (s.rm o.pm).getLsbD i = true → badRecord o.cls (slotRec s o i) = none) (rest : List Nat) :
    ∃ b u acc, Batch.run o (List.range n ++ rest) ⟨s, true, []⟩ = Batch.run o rest ⟨u, b, acc⟩ ∧ u.c = s.c ∧ u.k = s.k ∧
      BatchUpTo s (u.putMask o.mr acc) o n := by
  obtain ⟨b, hrun⟩ := run_good hs (List.range n) List.nodup_range (fun i hi => hgood i (List.mem_range.1 hi)) rest s true [] rfl rfl
  obtain ⟨hc, hk, -⟩ := batchUp_frame s o (List.range n) s true
  refine ⟨b, _, _, hrun, hc, hk, ?_⟩
  obtain ⟨m, hm, hother, hbit⟩ := putMask_maskWrites (batchUp s o (List.range n) s true).1 o.mr
    (fun i => some ((batchUp s o (List.range n) s true).2.contains i)) (List.range n)
  rw [hc] at hother hbit
  refine ⟨m, ?_, hother, fun h0 i hi => ?_⟩
  · rw [List.nil_append, batchBits, hm, State.withMasks, hc]
    rfl
  · rw [hbit h0 i hi]
    simp only [List.mem_range, Option.getD_some]
    rfl

/-- The machine after a batch still stands in its SCU. -/
theorem BatchUpTo.inScu {s t : State} {o : BatchOp} {n : Nat} (h : InScu s) (ht : BatchUpTo s t o n) : InScu t := by
  obtain ⟨m, rfl, -, -⟩ := ht
  obtain ⟨-, -, hl, -⟩ := offered_frame o.cls (slotRec s o) ((List.range n).filter fun i => (s.rm o.pm).getLsbD i) s
  exact hl.trans h

/-! ewait and epoll (R130). -/

theorem reached_iff (s : State) (cls : Cls) (q : Word) : s.reached cls q = true ↔ 0 ≤ (s.c.counts[countOf cls] - q).toInt := by
  rw [State.reached, BitVec.sle, decide_eq_true_eq]
  rfl

/-- ebatch of good records. -/
theorem ebatch_accepts {s : State} (h : InScu s) {o : BatchOp} (hs : s.c.vbad = [])
    (hgood : ∀ i, i < s.wid / 8 * 2 ^ o.grp.val → (s.rm o.pm).getLsbD i = true → badRecord o.cls (slotRec s o i) = none) :
    ∃ t, BatchUpTo s t o (s.wid / 8 * 2 ^ o.grp.val) ∧ exec (.ebatch o) s = .next (next t) := by
  obtain ⟨b, u, acc, hrun, -, -, hup⟩ := run_range hs _ hgood []
  rw [List.append_nil] at hrun
  refine ⟨u.putMask o.mr acc, hup, ?_⟩
  have hexec : exec (.ebatch o) s = .next (u.putMask o.mr acc).adv := by
    change execEbatch o s = _
    rw [execEbatch, State.slots, hrun]
    rfl
  exact hexec.trans (congrArg Host.Outcome.next (State.adv_of_scu _ (hup.inScu h)))

/-- ebatch up to the first bad record. -/
theorem ebatch_bad {s : State} {o : BatchOp} (hs : s.c.vbad = []) {i why : Nat} (hi : i < s.wid / 8 * 2 ^ o.grp.val)
    (hgood : ∀ j, j < i → (s.rm o.pm).getLsbD j = true → badRecord o.cls (slotRec s o j) = none)
    (hsel : (s.rm o.pm).getLsbD i = true) (hbad : badRecord o.cls (slotRec s o i) = some why) :
    ∃ t, BatchUpTo s t o i ∧ exec (.ebatch o) s = .next (t.raise (engineTrap o.cls why i)) := by
  obtain ⟨b, u, acc, hrun, hc, hk, hup⟩ := run_range hs i hgood (i :: (List.range (s.wid / 8 * 2 ^ o.grp.val)).drop (i + 1))
  refine ⟨u.putMask o.mr acc, hup, ?_⟩
  have hsplit : List.range (s.wid / 8 * 2 ^ o.grp.val) =
      List.range i ++ i :: (List.range (s.wid / 8 * 2 ^ o.grp.val)).drop (i + 1) := by
    have hlen : i < (List.range (s.wid / 8 * 2 ^ o.grp.val)).length := by rwa [List.length_range]
    conv_lhs => rw [← List.take_append_drop i (List.range _), List.drop_eq_getElem_cons hlen]
    rw [List.take_range, Nat.min_eq_left hi.le, List.getElem_range]
  change execEbatch o s = _
  rw [execEbatch, State.slots, hsplit, hrun, run_cons hs hc hk, if_pos hsel, hbad]

/-- Settles O43: a batch is run slot by slot, each offered while the engine has room; the counts are compared as signed
differences. -/
theorem engineIssue : Obligations.EngineIssue := by
  unfold Obligations.EngineIssue
  intro s h
  refine ⟨fun o hs => ⟨ebatch_accepts h hs, fun i why hi hgood hsel hbad => ebatch_bad hs hi hgood hsel hbad⟩, fun cls xq => ?_⟩
  refine ⟨fun hd => ⟨draining_waits hd _, draining_waits hd _⟩, fun hd => ⟨fun hr => ?_, fun hr => ?_, ?_⟩,
    fun q hw => ⟨fun hr => ?_, fun hr => ?_⟩⟩
  · have hexec : exec (.ewait cls xq) s = .next s.adv := by
      refine (draining_of_drained hd _).trans ?_
      rw [rx_eq_xOf h, if_pos ((reached_iff s cls _).2 hr)]
    exact hexec.trans (congrArg Host.Outcome.next (State.adv_of_scu s h))
  · refine (draining_of_drained hd _).trans ?_
    rw [rx_eq_xOf h, if_neg (mt (reached_iff s cls _).1 hr)]
    rfl
  · exact (congrArg (Gives · s xq _) (draining_of_drained hd _)).mpr (put_gives h xq rfl)
  · change Host.Outcome.next (match s.c.wait with | .engine c target => _ | _ => s) = _
    rw [hw]
    refine congrArg Host.Outcome.next ((if_pos ((reached_iff s cls q).2 hr)).trans ?_)
    exact State.adv_of_scu _ h
  · change Host.Outcome.next (match s.c.wait with | .engine c target => _ | _ => s) = _
    rw [hw]
    exact congrArg Host.Outcome.next (if_neg (mt (reached_iff s cls q).1 hr))

end Sys2Proof.Machine
end

