-- ==== Sys2Proof/Proofs/LineCodec.lean ====
section
/-! The line codec: a line decodes to what was encoded (R310, R311). -/

namespace Sys2Proof.Machine

/-! Values and their bytes. -/

theorem leNat_leBytes (n : Nat) : ∀ v, leNat (leBytes n v) = v % 256 ^ n := by
  induction n with
  | zero => exact fun v => (Nat.mod_one v).symm
  | succ n ih =>
    intro v
    rw [leBytes, leNat, ih, BitVec.toNat_ofNat, pow_succ' 256 n]
    exact Nat.mod_mul.symm

theorem leBytes_leNat (bs : List Byte) : leBytes bs.length (leNat bs) = bs := by
  induction bs with
  | nil => rfl
  | cons b t ih =>
    have hb : (b.toNat + 256 * leNat t) % 256 = b.toNat := by
      have := b.isLt
      omega
    have ht : (b.toNat + 256 * leNat t) / 256 = leNat t := by
      have := b.isLt
      omega
    have hhead : BitVec.ofNat 8 (b.toNat + 256 * leNat t) = b := by
      apply BitVec.eq_of_toNat_eq
      rw [BitVec.toNat_ofNat]
      exact hb
    rw [List.length_cons, leBytes, leNat, hhead, ht, ih]

theorem leNat_lt (bs : List Byte) : leNat bs < 256 ^ bs.length := by
  have h := congrArg leNat (leBytes_leNat bs)
  rw [leNat_leBytes] at h
  exact h ▸ Nat.mod_lt _ (by positivity)

/-! The words of a line. -/

theorem flatMap_lineWords (n : Nat) : ∀ bs : List Byte, bs.length = 8 * n → (lineWords bs n).flatMap (leBytes 8) = bs := by
  induction n with
  | zero => exact fun bs h => (List.eq_nil_of_length_eq_zero h).symm
  | succ n ih =>
    intro bs h
    have hlen : (bs.take 8).length = 8 := List.length_take_of_le (by omega)
    have hw : leBytes 8 (leNat (bs.take 8)) = bs.take 8 := by
      have hround := leBytes_leNat (bs.take 8)
      rwa [hlen] at hround
    rw [lineWords, List.flatMap_cons, hw, ih _ (by rw [List.length_drop]; omega), List.take_append_drop]

theorem lineWords_lt (n : Nat) : ∀ (bs : List Byte), ∀ w ∈ lineWords bs n, w < 2 ^ 64 := by
  induction n with
  | zero => exact fun _ _ h => absurd h List.not_mem_nil
  | succ n ih =>
    intro bs w hw
    rcases List.mem_cons.1 hw with rfl | hw
    · exact (leNat_lt _).trans_le (Nat.pow_le_pow_right (by decide) (List.length_take_le 8 bs))
    · exact ih _ w hw

theorem lineWords_length (n : Nat) : ∀ bs : List Byte, (lineWords bs n).length = n := by
  induction n with
  | zero => exact fun _ => rfl
  | succ n ih => exact fun bs => congrArg Nat.succ (ih _)

/-! Deltas (R310). -/

/-- The widths of a delta. -/
def DeltaWidth (w : Nat) : Prop := w = 1 ∨ w = 2 ∨ w = 4

/-- A word is restored from a delta that fits. -/
theorem restore_delta {w w0 wi : Nat} (hw : DeltaWidth w) (h0 : w0 < 2 ^ 64) (hi : wi < 2 ^ 64) (hfit : fitsDelta w w0 wi = true) :
    (w0 + sext64 (8 * w) (leNat (leBytes w ((wi + 2 ^ 64 - w0) % 2 ^ 64)))) % 2 ^ 64 = wi := by
  simp only [fitsDelta, Bool.or_eq_true, decide_eq_true_eq] at hfit
  rw [leNat_leBytes, sext64]
  rcases hw with rfl | rfl | rfl <;> split <;> omega

/-- The deltas of words restore them. -/
theorem expand_deltas {w w0 : Nat} (hw : DeltaWidth w) (h0 : w0 < 2 ^ 64) (ws : List Nat) (hws : ∀ wi ∈ ws, wi < 2 ^ 64)
    (hfit : ws.all (fitsDelta w w0) = true) : ∀ rest : List Byte,
    expand w0 w ((ws.map fun wi => leBytes w ((wi + 2 ^ 64 - w0) % 2 ^ 64)).flatten ++ rest) ws.length = ws.flatMap (leBytes 8) := by
  induction ws with
  | nil => exact fun _ => rfl
  | cons wi ws ih =>
    intro rest
    obtain ⟨hi, hfits⟩ := List.forall_mem_cons.1 (List.all_eq_true.1 hfit)
    have hlen : (leBytes w ((wi + 2 ^ 64 - w0) % 2 ^ 64)).length = w := leBytes_length _ _
    rw [List.length_cons, expand, List.map_cons, List.flatten_cons, List.append_assoc, List.take_left' hlen, List.drop_left' hlen,
      restore_delta hw h0 (hws wi List.mem_cons_self) hi, List.flatMap_cons,
      ih (fun w hw => hws w (List.mem_cons_of_mem wi hw)) (List.all_eq_true.2 hfits)]

/-! Images. -/

/-- A list that begins with an image. -/
theorem eq_append_of_take {img e : List Byte} (h : img.take e.length = e) : img = e ++ img.drop e.length :=
  (List.take_append_drop e.length img).symm.trans (congrArg (· ++ img.drop e.length) h)

/-- A line that holds one word throughout. -/
theorem flatMap_const {ws : List Nat} {w : Nat} (h : ws.all (· == w) = true) :
    ws.flatMap (leBytes 8) = (List.replicate ws.length (leBytes 8 w)).flatten := by
  induction ws with
  | nil => rfl
  | cons wi ws ih =>
    obtain ⟨rfl, ht⟩ : wi = w ∧ ws.all (· == w) = true := by simpa using h
    rw [List.flatMap_cons, ih ht, List.length_cons, List.replicate_succ, List.flatten_cons]

/-- An image of deltas decodes to its line. -/
theorem expand_image {w : Nat} (hw : DeltaWidth w) {bs img pad : List Byte} {ws : List Nat} {w0 : Nat} (hlen : bs.length = 128)
    (hws : ws = lineWords bs 16) (h0 : w0 < 2 ^ 64) (hfit : ws.all (fitsDelta w w0) = true)
    (himg : img.take (leBytes 8 w0 ++ (ws.map fun wi => leBytes w ((wi + 2 ^ 64 - w0) % 2 ^ 64)).flatten ++ pad).length =
      leBytes 8 w0 ++ (ws.map fun wi => leBytes w ((wi + 2 ^ 64 - w0) % 2 ^ 64)).flatten ++ pad) :
    expand (leNat (img.take 8)) w (img.drop 8) 16 = bs := by
  have h8 : (leBytes 8 w0).length = 8 := leBytes_length _ _
  have hhead : leNat (leBytes 8 w0) = w0 := by
    rw [leNat_leBytes]
    exact Nat.mod_eq_of_lt h0
  rw [eq_append_of_take himg]
  simp only [List.append_assoc]
  rw [List.take_left' h8, List.drop_left' h8, hhead]
  have hrest := expand_deltas hw h0 ws (fun wi hwi => lineWords_lt 16 bs wi (hws ▸ hwi)) hfit
  have hn : ws.length = 16 := hws ▸ lineWords_length 16 bs
  rw [hn, hws, flatMap_lineWords 16 bs hlen, ← hws] at hrest
  exact hrest _

/-- The first word of a line of sixteen. -/
theorem lineWords_headD_lt (bs : List Byte) : (lineWords bs 16).headD 0 < 2 ^ 64 := lineWords_lt 16 bs _ List.mem_cons_self

theorem encodeLine_tag_le (cz : Bool) (bs : List Byte) : (encodeLine cz bs).1 ≤ 5 := by
  unfold encodeLine
  simp only
  split_ifs <;> exact Nat.le_of_ble_eq_true rfl

/-- A line decodes to what was encoded, whatever lies past its image (R310, R311). -/
theorem decodeLine_encodeLine (cz : Bool) {bs img : List Byte} (hlen : bs.length = 128) (hi : img.length = 128)
    (himg : img.take (encodeLine cz bs).2.length = (encodeLine cz bs).2) : decodeLine (encodeLine cz bs).1 img = some bs := by
  have h0 := lineWords_headD_lt bs
  have hwords := flatMap_lineWords 16 bs hlen
  have hn := lineWords_length 16 bs
  have hraw (h : img.take bs.length = bs) : img = bs := by rwa [hlen, ← hi, List.take_length] at h
  unfold encodeLine at himg ⊢
  simp only at himg ⊢
  split_ifs at himg ⊢ with hcz hz hc h1 h2 h4
  · exact congrArg some (hraw himg)
  · rw [flatMap_const hz, hn] at hwords
    exact congrArg some hwords
  · rw [flatMap_const hc, hn] at hwords
    refine congrArg some (Eq.trans ?_ hwords)
    rw [eq_append_of_take himg, List.append_assoc, List.take_left' (leBytes_length _ _), leNat_leBytes,
      Nat.mod_eq_of_lt (by exact h0)]
  · exact congrArg some (expand_image (.inl rfl) hlen rfl h0 h1 himg)
  · exact congrArg some (expand_image (.inr (.inl rfl)) hlen rfl h0 h2 himg)
  · exact congrArg some (expand_image (.inr (.inr rfl)) hlen rfl h0 h4 himg)
  · exact congrArg some (hraw himg)

theorem flatten_deltas_length (ws : List Nat) (w w0 : Nat) :
    (ws.map fun wi => leBytes w ((wi + 2 ^ 64 - w0) % 2 ^ 64)).flatten.length = ws.length * w := by
  induction ws with
  | nil => exact (Nat.zero_mul w).symm
  | cons wi ws ih => rw [List.map_cons, List.flatten_cons, List.length_append, ih, leBytes_length, List.length_cons, Nat.succ_mul, Nat.add_comm]

/-- An image is no longer than its line. -/
theorem encodeLine_length_le (cz : Bool) {bs : List Byte} (hlen : bs.length = 128) : (encodeLine cz bs).2.length ≤ 128 := by
  have hn := lineWords_length 16 bs
  unfold encodeLine
  simp only
  split_ifs <;>
    simp only [List.length_append, leBytes_length, flatten_deltas_length, List.length_replicate, List.length_nil, hn, hlen] <;> decide

end Sys2Proof.Machine
end

