-- ==== Sys2Proof/Proofs/MemoryWrites.lean ====
section
/-! Bytes of memory after a write of any agent, under any layout, whatever errors stand in units (R310 to R313, R340). -/

namespace Sys2Proof.Machine

/-! Bytes of a line, encoded or not (R310). -/

/-- A byte of the HBM is that of the line it decodes to. -/
theorem byteAt_line {s : State} {a : Nat} (hb : inHbm a = true) : byteAt s a = (s.lineOr0 (a / 128)).getD (a % 128) 0 := by
  by_cases ht : s.tagOf (a / 128) = 0
  · have hline : s.lineOr0 (a / 128) = s.rawBytes (128 * (a / 128)) 128 := by rw [State.lineOr0, State.lineBytes, ht]; rfl
    rw [byteAt_stored (.inr ht), hline, rawBytes_getD _ _ _ _ (Nat.mod_lt _ (by decide)), Nat.div_add_mod]
  · exact byteAt_encoded hb ht

/-- A line into which bytes from offset o have been merged. -/
def State.merged (s : State) (line o : Nat) (bs : List Byte) : List Byte :=
  (s.lineOr0 line).take o ++ bs ++ (s.lineOr0 line).drop (o + bs.length)

theorem merged_length (s : State) (line : Nat) {o : Nat} {bs : List Byte} (hn : o + bs.length ≤ 128) :
    (s.merged line o bs).length = 128 := by
  have hlen := lineOr0_length s line
  rw [State.merged, List.length_append, List.length_append, List.length_take_of_le (by omega), List.length_drop]
  omega

/-- What stands of a line after a write: the bytes as given, or the line's encoding anew (R311, R312). -/
theorem putLine_writes (s : State) (id : Option (Fin 256)) (lay : Lay) (line o : Nat) (bs : List Byte) :
    if lay.raw = true ∨ lay.cz = false ∧ s.tagOf line = 0 then SameBytes (s.putRaw (128 * line + o) bs) (s.putLine id lay line o bs)
    else (s.putLine id lay line o bs).tags = tabSet 0 s.tags line (encodeLine lay.cz (s.merged line o bs)).1 ∧
      (s.putLine id lay line o bs).mem = (s.putRaw (128 * line) (encodeLine lay.cz (s.merged line o bs)).2).mem := by
  have hcond : (lay.raw || (!lay.cz && s.tagOf line == 0)) = true ↔ lay.raw = true ∨ lay.cz = false ∧ s.tagOf line = 0 := by simp
  by_cases h : lay.raw = true ∨ lay.cz = false ∧ s.tagOf line = 0
  · have hunits : SameBytes s (if s.bad = [] then s else s.writeUnits lay 5 (128 * line + o) bs.length) := by
      split
      · exact .refl s
      · exact writeUnits_bytes _ _ _ _ _
    rw [if_pos h]
    refine (putRaw_bytes bs _ _ _ hunits).trans ?_
    simp only [State.putLine, if_pos (hcond.2 h)]
    cases id <;> exact ⟨rfl, rfl⟩
  · have hcodes (k : Nat) : SameBytes s (if s.bad = [] then s else s.recodeLine lay line bs.length k) := by
      split
      · exact .refl s
      · exact recodeLine_bytes _ _ _ _ _
    have hmem := (putRaw_bytes (encodeLine lay.cz (s.merged line o bs)).2 _ _ (128 * line)
      (hcodes ((encodeLine lay.cz (s.merged line o bs)).2.length / 32))).1
    rw [if_neg h]
    simp only [State.putLine, if_neg (mt hcond.1 h)]
    cases id <;> exact ⟨rfl, hmem⟩

/-- Each byte after a write of part of a line, read as it decodes. -/
theorem byteAt_putLine_lay {s : State} (hs : BytesWf s) (id : Option (Fin 256)) {lay : Lay} (hraw : lay.raw = false) {line o : Nat}
    {bs : List Byte} (hn : o + bs.length ≤ 128) (hh : inHbm (128 * line) = true) (a : Nat) :
    byteAt (s.putLine id lay line o bs) a =
      if 128 * line + o ≤ a ∧ a < 128 * line + o + bs.length then bs.getD (a - (128 * line + o)) 0 else byteAt s a := by
  obtain ⟨hm, hw⟩ := hs
  have hput := putLine_writes s id lay line o bs
  split at hput
  · rename_i h
    have ht : s.tagOf line = 0 := h.elim (fun h => absurd h (by simp [hraw])) And.right
    rw [byteAt_of_mem hput.1 hput.2]
    have hl : (128 * line + o) / 128 = line ∨ bs.length = 0 := by omega
    rcases hl with hl | hl
    · exact byteAt_putRaw hm (by omega) (.inr (hl.symm ▸ ht)) a
    · rw [List.length_eq_zero_iff.1 hl, if_neg (by simp)]
      rfl
  · obtain ⟨htags, hmem⟩ := hput
    generalize s.putLine id lay line o bs = t at htags hmem
    have hal := merged_length s line hn
    have hlen := encodeLine_length_le lay.cz hal
    have hg (l : Nat) : t.tagOf l = if l = line then (encodeLine lay.cz (s.merged line o bs)).1 else s.tagOf l := by
      rw [State.tagOf, htags, tabGet_set _ _ _ _ _ hw]
      rfl
    have hb (b : Nat) : tabGet 0 t.mem b = if 128 * line ≤ b ∧ b < 128 * line + (encodeLine lay.cz (s.merged line o bs)).2.length then
        (encodeLine lay.cz (s.merged line o bs)).2.getD (b - 128 * line) 0 else tabGet 0 s.mem b := by
      rw [hmem, putRaw_byte _ _ _ _ hm]
    by_cases hl : a / 128 = line
    · have hha : inHbm a = true := by rw [← hh]; exact inHbm_line (by omega)
      have himg : (t.rawBytes (128 * line) 128).take (encodeLine lay.cz (s.merged line o bs)).2.length =
          (encodeLine lay.cz (s.merged line o bs)).2 := by
        refine List.ext_getElem (by rw [List.length_take, rawBytes_length]; omega) fun j hj1 hj2 => ?_
        have hj : j < 128 := by omega
        have hraw := rawBytes_getD t 128 (128 * line) j hj
        rw [List.getD_eq_getElem _ _ (by rwa [rawBytes_length]), hb, if_pos (by omega), Nat.add_sub_cancel_left,
          List.getD_eq_getElem _ _ hj2] at hraw
        rw [List.getElem_take]
        exact hraw
      have hline : t.lineOr0 line = s.merged line o bs := by
        rw [State.lineOr0, State.lineBytes, hg, if_pos rfl, decodeLine_encodeLine lay.cz hal (rawBytes_length _ _ _) himg]
        rfl
      rw [byteAt_line hha, hl, hline, byteAt_line hha, hl, State.merged, getD_merge (by rw [lineOr0_length]; exact hn)]
      by_cases hr : o ≤ a % 128 ∧ a % 128 < o + bs.length
      · rw [if_pos hr, if_pos (by omega)]
        congr 1
        omega
      · rw [if_neg hr, if_neg (by omega)]
    · rw [if_neg (by omega)]
      refine byteAt_congr (by rw [hg, if_neg hl]) fun b hbl => ?_
      rw [hb, if_neg (by omega)]

/-! Several lines. -/

/-- A list of bytes put in two pieces. -/
theorem placed_split (bs : List Byte) (pa m a : Nat) (x : Byte) :
    (if pa + m ≤ a ∧ a < pa + m + (bs.drop m).length then (bs.drop m).getD (a - (pa + m)) 0
      else if pa ≤ a ∧ a < pa + (bs.take m).length then (bs.take m).getD (a - pa) 0 else x) =
    if pa ≤ a ∧ a < pa + bs.length then bs.getD (a - pa) 0 else x := by
  rw [List.length_drop, List.length_take]
  by_cases h1 : pa ≤ a ∧ a < pa + bs.length
  · rw [if_pos h1]
    by_cases h2 : a < pa + m
    · rw [if_neg (by omega), if_pos (by omega), List.getD_eq_getElem?_getD, List.getElem?_take, if_pos (by omega),
        List.getD_eq_getElem?_getD]
    · rw [if_pos (by omega), List.getD_eq_getElem?_getD, List.getElem?_drop, List.getD_eq_getElem?_getD]
      congr 2
      omega
  · rw [if_neg h1, if_neg (by omega), if_neg (by omega)]

/-- The HBM holds whole lines from one of its bytes on. -/
theorem inHbm_lineStart {pa : Nat} (h : inHbm pa = true) : inHbm (128 * (pa / 128)) = true := (inHbm_line (by omega)).trans h

theorem byteAt_putLines_lay (id : Option (Fin 256)) {lay : Lay} (hraw : lay.raw = false) (f : Nat) : ∀ (s : State) (pa : Nat)
    (bs : List Byte), BytesWf s → pa % 128 + bs.length ≤ 128 * f → (∀ k, k < bs.length → inHbm (pa + k) = true) → ∀ a,
    byteAt (s.putLines id lay f pa bs) a = if pa ≤ a ∧ a < pa + bs.length then bs.getD (a - pa) 0 else byteAt s a := by
  induction f with
  | zero =>
    intro s pa bs _ hn _ a
    rw [if_neg (by omega)]
    rfl
  | succ f ih =>
    intro s pa bs hs hn hh a
    rw [State.putLines]
    by_cases h0 : bs = []
    · subst h0
      rw [if_pos rfl, if_neg (by simp)]
    · have hpos : 0 < bs.length := List.length_pos_of_ne_nil h0
      have hpa : 128 * (pa / 128) + pa % 128 = pa := Nat.div_add_mod pa 128
      have hfirst := byteAt_putLine_lay hs id hraw (o := pa % 128) (bs := bs.take (128 - pa % 128))
        (by rw [List.length_take]; omega) (inHbm_lineStart (pa := pa) (hh 0 hpos)) a
      have hrest (k : Nat) (hk : k < (bs.drop (128 - pa % 128)).length) : inHbm (pa + (128 - pa % 128) + k) = true := by
        rw [List.length_drop] at hk
        simpa [Nat.add_assoc] using hh (128 - pa % 128 + k) (by omega)
      rw [hpa] at hfirst
      simp only [if_neg h0]
      rw [ih _ _ _ ((putLine_step _ _ _ _ _ _).bytesWf hs) (by rw [List.length_drop]; omega) hrest, hfirst]
      exact placed_split bs pa _ a _

theorem putRaw_append (bs cs : List Byte) : ∀ (s : State) (pa : Nat),
    s.putRaw pa (bs ++ cs) = (s.putRaw pa bs).putRaw (pa + bs.length) cs := by
  induction bs with
  | nil => exact fun s pa => rfl
  | cons b t ih =>
    intro s pa
    rw [List.cons_append, State.putRaw, State.putRaw, ih, List.length_cons]
    congr 1
    omega

/-- Through the raw aperture bytes are put as they stand (R312). -/
theorem putLines_raw (id : Option (Fin 256)) {lay : Lay} (hraw : lay.raw = true) (f : Nat) : ∀ (s : State) (pa : Nat) (bs : List Byte),
    pa % 128 + bs.length ≤ 128 * f → SameBytes (s.putRaw pa bs) (s.putLines id lay f pa bs) := by
  induction f with
  | zero =>
    intro s pa bs hn
    rw [List.eq_nil_of_length_eq_zero (by omega : bs.length = 0)]
    exact .refl s
  | succ f ih =>
    intro s pa bs hn
    rw [State.putLines]
    by_cases h0 : bs = []
    · subst h0
      exact .refl s
    · have hpos : 0 < bs.length := List.length_pos_of_ne_nil h0
      have hpa : 128 * (pa / 128) + pa % 128 = pa := Nat.div_add_mod pa 128
      have hfirst := putLine_writes s id lay (pa / 128) (pa % 128) (bs.take (128 - pa % 128))
      rw [if_pos (.inl hraw), hpa] at hfirst
      simp only [if_neg h0]
      have hrest := ih (s.putLine id lay (pa / 128) (pa % 128) (bs.take (128 - pa % 128))) (pa + (128 - pa % 128))
        (bs.drop (128 - pa % 128)) (by rw [List.length_drop]; omega)
      refine SameBytes.trans ?_ hrest
      by_cases hm : 128 - pa % 128 ≤ bs.length
      · have hsplit := putRaw_append (bs.take (128 - pa % 128)) (bs.drop (128 - pa % 128)) s pa
        rw [List.take_append_drop, List.length_take_of_le hm] at hsplit
        rw [hsplit]
        exact putRaw_bytes _ _ _ _ hfirst
      · rw [List.drop_eq_nil_of_le (by omega)]
        rw [List.take_of_length_le (by omega)] at hfirst ⊢
        exact hfirst

/-! Bytes of any memory. -/

theorem wake_bytes (s : State) (lay : Lay) (pa n : Nat) : SameBytes s (s.wake lay pa n) := ⟨by simp, by simp⟩

theorem unitsOrNot_bytes (s : State) (lay : Lay) (f pa n : Nat) : SameBytes s (if s.bad = [] then s else s.writeUnits lay f pa n) := by
  split
  · exact .refl s
  · exact writeUnits_bytes _ _ _ _ _

theorem SameBytes.byteAt {s t : State} (h : SameBytes s t) (a : Nat) : byteAt t a = byteAt s a := byteAt_of_mem h.1 h.2 a

/-- Outside the HBM, and through the raw aperture, bytes are put as they stand. -/
theorem putBytes_direct (s : State) (id : Option (Fin 256)) {lay : Lay} {pa : Nat} (h : lay.raw = true ∨ inHbm pa = false)
    (bs : List Byte) : SameBytes (s.putRaw pa bs) (s.putBytes id lay pa bs) := by
  have hwake := wake_bytes s lay pa bs.length
  unfold State.putBytes
  by_cases hh : inHbm pa = true
  · simp only [if_pos hh]
    exact (putRaw_bytes bs _ _ pa hwake).trans
      (putLines_raw id (h.resolve_right (by simp [hh])) _ _ _ _ (by omega))
  · simp only [if_neg hh]
    exact putRaw_bytes bs _ _ pa (hwake.trans (unitsOrNot_bytes _ _ _ _ _))

/-- Each byte after a write through the normal aperture: those put where they were put, else as before. -/
theorem byteAt_putBytes_lay {s : State} (hs : BytesWf s) (id : Option (Fin 256)) {lay : Lay} (hraw : lay.raw = false) {pa : Nat}
    {bs : List Byte} (hk : InOne pa bs.length) (a : Nat) :
    byteAt (s.putBytes id lay pa bs) a = if pa ≤ a ∧ a < pa + bs.length then bs.getD (a - pa) 0 else byteAt s a := by
  by_cases hh : inHbm pa = true
  · have hwake := wake_step s lay pa bs.length
    simp only [State.putBytes, if_pos hh]
    rw [byteAt_putLines_lay id hraw _ _ pa bs (hwake.bytesWf hs) (by omega) (fun k hlt => (hk k hlt).trans hh) a,
      (wake_bytes s lay pa bs.length).byteAt]
  · have h0 : inHbm pa = false := by simpa using hh
    rw [(putBytes_direct s id (.inr h0) bs).byteAt]
    exact byteAt_putRaw_sram hs (fun k hlt => (hk k hlt).trans h0) a

/-! The raw aperture (R312, R313). -/

theorem rawAt_eq (s : State) (a : Nat) : rawAt s a = if inHbm a = true then s.rawByte a else tabGet 0 s.mem a := by
  unfold rawAt State.bytesAt
  by_cases h : inHbm a = true
  · rw [if_pos h, h]
    rfl
  · rw [if_neg h, eq_false_of_ne_true h]
    rfl

/-- Writers of a sector are as they were after a raw write. -/
theorem patchRaw_writers (bs : List Byte) : ∀ (u : Tab Unencoded) (pa k : Nat), tabWf Unencoded.none u = true →
    (tabGet Unencoded.none (patchRaw u pa bs) k).writers = (tabGet Unencoded.none u k).writers := by
  induction bs with
  | nil => exact fun _ _ _ _ => rfl
  | cons b t ih =>
    intro u pa k hu
    rw [patchRaw]
    by_cases h : (tabGet Unencoded.none u (pa / 32)).writers = []
    · simp only [if_pos h]
      exact ih u _ k hu
    · simp only [if_neg h]
      rw [ih _ _ k (tabWf_set hu), tabGet_set _ _ _ _ _ hu]
      split
      · rename_i hk
        rw [hk]
      · rfl

/-- A byte of a buffered sector into which one byte has been patched. -/
theorem extract_patch (old : BitVec 256) (b : Byte) {o p : Nat} (ho : o < 32) (hp : p < 32) :
    ((old &&& ~~~(255#256 <<< (8 * o))) ||| (b.zeroExtend 256 <<< (8 * o))).extractLsb' (8 * p) 8 =
      if p = o then b else old.extractLsb' (8 * p) 8 := by
  refine BitVec.eq_of_getLsbD_eq fun i hi => ?_
  have h255 (j : Nat) : (255#256).getLsbD j = decide (j < 8) := by
    rw [show (255#256) = (BitVec.allOnes 8).zeroExtend 256 by decide, BitVec.getLsbD_setWidth, BitVec.getLsbD_allOnes]
    by_cases hj : j < 8
    · simp [hj, show j < 256 by omega]
    · simp [hj]
  simp only [BitVec.getLsbD_extractLsb', BitVec.getLsbD_or, BitVec.getLsbD_and, BitVec.getLsbD_not, BitVec.getLsbD_shiftLeft, h255,
    BitVec.getLsbD_setWidth, hi, decide_true, Bool.true_and]
  by_cases hpo : p = o
  · subst hpo
    simp [show 8 * p + i < 256 by omega, show 8 * p + i - 8 * p = i by omega, hi, show i < 256 by omega]
  · rw [if_neg hpo, BitVec.getLsbD_extractLsb']
    by_cases hlt : 8 * p + i < 8 * o
    · simp [hlt, hi, show 8 * p + i < 256 by omega]
    · have h8 : ¬ 8 * p + i - 8 * o < 8 := by omega
      simp [hlt, hi, h8, show 8 * p + i < 256 by omega, BitVec.getLsbD_of_ge b _ (not_lt.1 h8)]

/-- What raw reads find of a buffered byte after a raw write. -/
theorem patchRaw_old (bs : List Byte) : ∀ (u : Tab Unencoded) (pa a : Nat), tabWf Unencoded.none u = true →
    (tabGet Unencoded.none u (a / 32)).writers ≠ [] →
    (tabGet Unencoded.none (patchRaw u pa bs) (a / 32)).old.extractLsb' (8 * (a % 32)) 8 =
      if pa ≤ a ∧ a < pa + bs.length then bs.getD (a - pa) 0 else (tabGet Unencoded.none u (a / 32)).old.extractLsb' (8 * (a % 32)) 8 := by
  induction bs with
  | nil =>
    intro u pa a _ _
    rw [if_neg (by simp)]
    rfl
  | cons b t ih =>
    intro u pa a hu hw
    have hshift (x : Byte) : (if pa + 1 ≤ a ∧ a < pa + 1 + t.length then t.getD (a - (pa + 1)) 0 else if a = pa then b else x) =
        if pa ≤ a ∧ a < pa + (b :: t).length then (b :: t).getD (a - pa) 0 else x := by
      rw [List.length_cons]
      by_cases ha : a = pa
      · subst ha
        rw [if_neg (by omega), if_pos rfl, if_pos (by omega), Nat.sub_self]
        rfl
      · by_cases hr : pa + 1 ≤ a ∧ a < pa + 1 + t.length
        · rw [if_pos hr, if_pos (by omega), show a - pa = a - (pa + 1) + 1 by omega, List.getD_cons_succ]
        · rw [if_neg hr, if_neg ha, if_neg (by omega)]
    rw [patchRaw, ← hshift]
    by_cases h : (tabGet Unencoded.none u (pa / 32)).writers = []
    · have hne : a ≠ pa := fun he => hw (he ▸ h)
      simp only [if_pos h, if_neg hne]
      exact ih u _ a hu hw
    · simp only [if_neg h]
      by_cases hk : a / 32 = pa / 32
      · have hnew := tabGet_set Unencoded.none u (pa / 32) (a / 32)
          { tabGet Unencoded.none u (pa / 32) with
            old := ((tabGet Unencoded.none u (pa / 32)).old &&& ~~~(255#256 <<< (8 * (pa % 32)))) ||| (b.zeroExtend 256 <<< (8 * (pa % 32))) } hu
        rw [if_pos hk] at hnew
        rw [ih _ _ a (tabWf_set hu) (by rw [hnew]; exact h), hnew]
        simp only [extract_patch _ b (Nat.mod_lt pa (by decide : 0 < 32)) (Nat.mod_lt a (by decide : 0 < 32)), hk]
        have hap : a % 32 = pa % 32 ↔ a = pa := by omega
        simp only [hap]
      · have hne : a ≠ pa := fun he => hk (by rw [he])
        rw [ih _ _ a (tabWf_set hu) (by rwa [tabGet_set _ _ _ _ _ hu, if_neg hk]), tabGet_set _ _ _ _ _ hu, if_neg hk, if_neg hne]

/-- Each byte that a raw read finds after a raw write. -/
theorem rawAt_patched {s t : State} (hs : BytesOk s) {pa : Nat} {bs : List Byte} (hk : InOne pa bs.length)
    (hm : t.mem = (s.putRaw pa bs).mem) (hu : t.unencoded = if inHbm pa = true then patchRaw s.unencoded pa bs else s.unencoded)
    (a : Nat) : rawAt t a = if pa ≤ a ∧ a < pa + bs.length then bs.getD (a - pa) 0 else rawAt s a := by
  obtain ⟨hmem, -, -, hwf⟩ := hs
  have hb := putRaw_byte bs s pa a hmem
  have hin (hr : pa ≤ a ∧ a < pa + bs.length) : inHbm a = inHbm pa := by
    have := hk (a - pa) (by omega)
    rwa [Nat.add_sub_cancel' hr.1] at this
  rw [rawAt_eq, rawAt_eq]
  by_cases ha : inHbm a = true
  · rw [if_pos ha, if_pos ha]
    by_cases hp : inHbm pa = true
    · rw [if_pos hp] at hu
      have hwr := patchRaw_writers bs s.unencoded pa (a / 32) hwf
      simp only [State.rawByte, hu, hwr]
      by_cases h0 : (tabGet Unencoded.none s.unencoded (a / 32)).writers = []
      · simp only [if_pos h0]
        rw [hm, hb]
      · simp only [if_neg h0]
        exact patchRaw_old bs _ pa a hwf h0
    · have hout : ¬ (pa ≤ a ∧ a < pa + bs.length) := fun hr => hp ((hin hr).symm.trans ha)
      rw [if_neg hp] at hu
      simp only [State.rawByte, hu, if_neg hout]
      rw [hm, hb, if_neg hout]
  · rw [if_neg ha, if_neg ha, hm, hb]

/-! A write of an agent. -/

/-- A write puts its bytes where they are read, through either aperture (R310 to R313). -/
theorem write_stored {s : State} (hs : BytesOk s) (a : Agent) (lay : Lay) {pa : Nat} {bs : List Byte} (hk : InOne pa bs.length) :
    Stored s (s.write a lay pa bs) lay.raw pa bs := by
  refine ⟨fun hraw b => ?_, fun hraw b => ?_⟩
  · rw [← byteAt_putBytes_lay ⟨hs.1, hs.2.1⟩ (a.assayAt pa) hraw hk b]
    exact byteAt_of_mem (s := s.putBytes (a.assayAt pa) lay pa bs) (t := s.write a lay pa bs) rfl rfl b
  · refine rawAt_patched (t := s.write a lay pa bs) hs hk (putBytes_direct s (a.assayAt pa) (.inl hraw) bs).1 ?_ b
    change s.waiting a lay pa bs = _
    unfold State.waiting
    by_cases hp : inHbm pa = true
    · simp [hp, hraw]
    · simp [hp]

/-- Every tag is one of the six (R310). -/
def TagsOk (s : State) : Prop := tabWf 0 s.tags = true ∧ ∀ line, s.tagOf line ≤ 5

theorem SameBytes.tagsOk {s t : State} (h : SameBytes s t) (k : TagsOk s) : TagsOk t := by
  obtain ⟨hw, hle⟩ := k
  exact ⟨by rw [h.2]; exact hw, fun line => by rw [State.tagOf, h.2]; exact hle line⟩

theorem putRaw_tagsOk (bs : List Byte) {s : State} (pa : Nat) (h : TagsOk s) : TagsOk (s.putRaw pa bs) := by
  obtain ⟨hw, hle⟩ := h
  exact ⟨by rw [putRaw_tags]; exact hw, fun line => by rw [State.tagOf, putRaw_tags]; exact hle line⟩

theorem putLine_tagsOk (id : Option (Fin 256)) (lay : Lay) (line o : Nat) (bs : List Byte) {s : State} (h : TagsOk s) :
    TagsOk (s.putLine id lay line o bs) := by
  have hput := putLine_writes s id lay line o bs
  split at hput
  · exact hput.tagsOk (putRaw_tagsOk bs _ h)
  · obtain ⟨hw, hle⟩ := h
    refine ⟨by rw [hput.1]; exact tabWf_set hw, fun l => ?_⟩
    rw [State.tagOf, hput.1, tabGet_set _ _ _ _ _ hw]
    split
    · exact encodeLine_tag_le _ _
    · exact hle l

theorem putLines_tagsOk (id : Option (Fin 256)) (lay : Lay) (f : Nat) : ∀ (s : State) (pa : Nat) (bs : List Byte), TagsOk s →
    TagsOk (s.putLines id lay f pa bs) := by
  induction f with
  | zero => exact fun _ _ _ h => h
  | succ f ih =>
    intro s pa bs h
    rw [State.putLines]
    split
    · exact h
    · exact ih _ _ _ (putLine_tagsOk _ _ _ _ _ h)

theorem putBytes_tagsOk {s : State} (h : TagsOk s) (id : Option (Fin 256)) (lay : Lay) (pa : Nat) (bs : List Byte) :
    TagsOk (s.putBytes id lay pa bs) := by
  have hw := (wake_bytes s lay pa bs.length).tagsOk h
  unfold State.putBytes
  by_cases hh : inHbm pa = true
  · simp only [if_pos hh]
    exact putLines_tagsOk _ _ _ _ _ _ hw
  · simp only [if_neg hh]
    exact putRaw_tagsOk _ _ ((unitsOrNot_bytes _ _ _ _ _).tagsOk hw)

theorem bytesOk_iff {s : State} : BytesOk s ↔ s.MemOk ∧ TagsOk s ∧ tabWf Unencoded.none s.unencoded = true := by
  simp only [BytesOk, TagsOk, and_assoc]

theorem write_bytesOk {s : State} (hs : BytesOk s) (a : Agent) (lay : Lay) (pa : Nat) (bs : List Byte) : BytesOk (s.write a lay pa bs) := by
  obtain ⟨hm, ht, hu⟩ := bytesOk_iff.1 hs
  exact bytesOk_iff.2 ⟨write_memOk s a lay pa bs hm, putBytes_tagsOk ht _ _ _ _, waiting_wf s a lay pa bs hu⟩

theorem putBytes_bytesOk {s : State} (hs : BytesOk s) (id : Option (Fin 256)) (lay : Lay) (pa : Nat) (bs : List Byte) :
    BytesOk (s.putBytes id lay pa bs) := by
  obtain ⟨hm, ht, hu⟩ := bytesOk_iff.1 hs
  have hstep := putBytes_step s id lay pa bs
  refine bytesOk_iff.2 ⟨hstep.2.1 hm, putBytes_tagsOk ht _ _ _ _, ?_⟩
  obtain ⟨⟨_, _, _, _, _, _, he⟩, -⟩ := hstep
  rw [he]
  exact hu

/-! What else a write changes (R233). -/

/-- A write by a context that does not watch itself changes memory and the watch events of others. -/
theorem write_memoryOnly (s : State) {a : Agent} (lay : Lay) {pa : Nat} {bs : List Byte}
    (hown : s.c.noteWrite s.here (a.seenAt pa) pa bs.length = s.c) : MemoryOnly s (s.write a lay pa bs) := by
  have hput := putBytes_step s (a.assayAt pa) lay pa bs
  refine ⟨?_, fun g => ?_⟩
  · simp only [State.write, State.noteWrite, hput.c, hput.here, hown]
    obtain ⟨⟨_, _, _, _, _, _, he⟩, -⟩ := hput
    rw [he]
  · have hg := tabGet_mapKeyed (f := fun g c => Ctx.noteWrite c g (a.seenAt pa) pa bs.length)
      (fun k => noteWrite_reset k _ _ _) s.ctxs g
    obtain ⟨e, l, hn⟩ := noteWrite_ctx (tabGet Ctx.reset s.ctxs g) g (a.seenAt pa) pa bs.length
    refine ⟨e, l, ?_⟩
    rw [← hn, ← hg, ← hput.ctxs]
    rfl

theorem noteWrite_own (c : Ctx) {g : Nat} {a : Agent} (h : a.ownOf g = true) (pa len : Nat) : c.noteWrite g a pa len = c :=
  if_pos (by rw [h, Bool.or_true])

theorem seenAt_ownOf (a : Agent) (pa g : Nat) : (a.seenAt pa).ownOf g = a.ownOf g := by
  unfold Agent.seenAt
  split
  · split <;> rfl
  · rfl

/-- A context's own load or store. -/
theorem write_own_memoryOnly (s : State) {a : Agent} (h : a.ownOf s.here = true) (lay : Lay) (pa : Nat) (bs : List Byte) :
    MemoryOnly s (s.write a lay pa bs) :=
  write_memoryOnly s lay (noteWrite_own _ ((seenAt_ownOf a pa s.here).trans h) _ _)

theorem MemoryOnly.refl (s : State) : MemoryOnly s s := ⟨rfl, fun _ => ⟨_, _, rfl⟩⟩

theorem MemoryOnly.trans {s t u : State} (h : MemoryOnly s t) (k : MemoryOnly t u) : MemoryOnly s u := by
  obtain ⟨h1, h2⟩ := h
  obtain ⟨k1, k2⟩ := k
  refine ⟨k1.trans (by rw [h1]), fun g => ?_⟩
  obtain ⟨e, n, hg⟩ := h2 g
  obtain ⟨e', n', kg⟩ := k2 g
  exact ⟨e', n', by rw [kg, hg]⟩

theorem MemoryOnly.c {s t : State} (h : MemoryOnly s t) : t.c = s.c := by rw [h.1]
theorem MemoryOnly.k {s t : State} (h : MemoryOnly s t) : t.k = s.k := by rw [h.1]
theorem MemoryOnly.here {s t : State} (h : MemoryOnly s t) : t.here = s.here := by rw [h.1]
theorem MemoryOnly.laneSel {s t : State} (h : MemoryOnly s t) : t.laneSel = s.laneSel := by rw [h.1]

end Sys2Proof.Machine
end

