-- ==== Sys2Proof/Proofs/Translating.lean ====
section
/-! Translations that succeed: the address and the aperture of the leaf, and the bytes they leave (R195 to R200). -/

namespace Sys2Proof.Machine

/-! Reads leave the bytes (R307, R340). -/

theorem readUnits_bytes (lay : Lay) (l : List (Nat × Nat)) : ∀ s : State, SameBytes s (s.readUnits lay l).1 := by
  induction l with
  | nil => exact fun s => .refl s
  | cons u t ih =>
    obtain ⟨u, pa⟩ := u
    intro s
    have h := readUnit_bytes s lay u
    rw [State.readUnits]
    split
    · rename_i heq
      rw [heq] at h
      exact h
    · rename_i heq
      rw [heq] at h
      exact h.trans (ih _)

theorem readParts_bytes (lay : Lay) (f : Nat) : ∀ (s : State) (pa n : Nat), SameBytes s (s.readParts lay f pa n).1 := by
  induction f with
  | zero => exact fun s _ _ => .refl s
  | succ f ih =>
    intro s pa n
    have h : SameBytes s
        (if s.bad = [] then (s, none) else s.readUnits lay (s.partUnits lay.raw pa (min n (128 - pa % 128)))).1 := by
      split
      · exact .refl s
      · exact readUnits_bytes _ _ _
    simp only [State.readParts]
    split
    · exact .refl s
    · split
      · exact .refl s
      · split
        · rename_i heq
          rw [heq] at h
          exact h
        · rename_i heq
          rw [heq] at h
          exact h.trans (ih _ _ _)

theorem checkRead_bytes (s : State) (lay : Lay) (pa n : Nat) : SameBytes s (s.checkRead lay pa n).1 := by
  have hwake := wake_bytes s lay pa n
  simp only [State.checkRead]
  split
  · exact hwake.trans (readParts_bytes _ _ _ _ _)
  · split
    · exact hwake
    · exact hwake.trans (readUnits_bytes _ _ _)

theorem readEntry_bytes (s : State) (e : Nat) : SameBytes s (s.readEntry e).1 := by
  have hwake := wake_bytes s Lay.plain e 16
  simp only [State.readEntry]
  split
  · exact hwake
  · exact hwake.trans (readUnits_bytes _ _ _)

theorem readEntries_bytes (l : List Nat) : ∀ s : State, SameBytes s (s.readEntries l).1 := by
  induction l with
  | nil => exact fun s => .refl s
  | cons e t ih =>
    intro s
    have h := readEntry_bytes s e
    rw [State.readEntries]
    split
    · rename_i heq
      rw [heq] at h
      exact h
    · rename_i heq
      rw [heq] at h
      exact h.trans (ih _)

theorem readWalk_bytes (s : State) (v : View) (va : Nat) : SameBytes s (s.readWalk v va).1 := by
  simp only [State.readWalk]
  split
  · exact .refl s
  · exact readEntries_bytes _ _

theorem MemStep.unencoded {s t : State} (h : MemStep s t) : t.unencoded = s.unencoded := by
  obtain ⟨⟨_, _, _, _, _, _, rfl⟩, _⟩ := h
  rfl

theorem MemStep.laneSel {s t : State} (h : MemStep s t) : t.laneSel = s.laneSel := by
  obtain ⟨⟨_, _, _, _, _, _, rfl⟩, _⟩ := h
  rfl

/-- A step that leaves the bytes leaves them in canonical form. -/
theorem MemStep.bytesOk {s t : State} (h : MemStep s t) (hb : SameBytes s t) (k : BytesOk s) : BytesOk t := by
  obtain ⟨hm, ht, hu⟩ := bytesOk_iff.1 k
  exact bytesOk_iff.2 ⟨h.2.1 hm, hb.tagsOk ht, h.unencoded ▸ hu⟩

/-! The leaf of a walk (R195). -/

/-- What a leaf has of the address walked and of its own entry. -/
structure LeafOf (l : Leaf) (va : Nat) : Prop where
  page : l.pa % 2 ^ 16 = va % 2 ^ 16
  raw : l.lay.raw = (l.ap == 1)
  entry : l.entry % 16 = 0

theorem page_offset (pa va : Nat) {lo : Nat} (hl : 16 ≤ lo) : (pa / 2 ^ lo * 2 ^ lo + va % 2 ^ lo) % 2 ^ 16 = va % 2 ^ 16 := by
  obtain ⟨k, rfl⟩ := Nat.exists_eq_add_of_le hl
  rw [Nat.add_mod, Nat.mod_mod_of_dvd _ (pow_dvd_pow 2 hl),
    (Nat.modEq_zero_iff_dvd.2 ((pow_dvd_pow 2 hl).mul_left _)), Nat.zero_mod, Nat.zero_add,
    Nat.mod_mod]

theorem walkFrom_leafOf {s : State} {pkg va : Nat} {l : Leaf} (ls : List (Nat × Nat × Nat)) : ∀ base, base % 16 = 0 →
    (∀ p ∈ ls, 16 ≤ p.2.1) → s.walkFrom pkg va base ls = .ok l → LeafOf l va := by
  induction ls with
  | nil => exact fun _ _ _ h => absurd h (by simp [State.walkFrom])
  | cons p ls ih =>
    obtain ⟨lev, lo, wd⟩ := p
    intro base hb hl h
    have hlo : 16 ≤ lo := hl _ List.mem_cons_self
    simp only [State.walkFrom] at h
    split at h
    · cases h
    · split at h
      · cases h
      · split at h
        · obtain rfl := Except.ok.inj h
          exact ⟨page_offset _ va hlo, rfl, by dsimp only; omega⟩
        · exact ih _ (by omega) (fun p hp => hl p (List.mem_cons_of_mem _ hp)) h

theorem walk_leafOf {s : State} {pkg va : Nat} {root : Word} {l : Leaf} (h : s.walk pkg root va = .ok l) : LeafOf l va := by
  unfold State.walk at h
  simp only at h
  split at h
  · cases h
  · exact walkFrom_leafOf walkLevels _ (by omega) (by decide) h

/-- The address that a local window stands for has the same offset in a granule of 64 KiB (R367). -/
theorem resolve_page (ctx : Option Nat) (pa : Nat) : resolve ctx pa % 2 ^ 16 = pa % 2 ^ 16 := by
  cases ctx with
  | none => rfl
  | some g =>
    have htcm : tcmBase (coreOf g) % 2 ^ 16 = 0 := by unfold tcmBase dsramBase; omega
    have hspad : spadBase (clusterOf g) % 2 ^ 16 = 0 := by unfold spadBase dsramBase; omega
    have hdsram : dsramBase (dieOf g) % 2 ^ 16 = 0 := by unfold dsramBase; omega
    unfold resolve
    dsimp only
    split_ifs <;> omega

/-! A translation that succeeds. -/

/-- The walk and the checks behind a translation that succeeds. -/
theorem translate_ok {s t : State} {v : View} {va : Nat} {n : Need} {ap : Ap} {l : Leaf} (h : s.translate v va n ap = (t, .ok l)) :
    ∃ u l0 rl, s.readWalk v va = (u, none) ∧ u.walk v.pkg v.root va = .ok l0 ∧
      u.leafMiss v.pkg v.root l0 (resolve v.ctx l0.pa) n ap = none ∧
      t = u.setUsed l0 n.wr ∧ l = { l0 with pa := resolve v.ctx l0.pa, lay := { l0.lay with rl := rl } } := by
  unfold State.translate at h
  split at h
  · cases h
  · rename_i u hread
    split at h
    · cases h
    · rename_i l0 hwalk
      simp only at h
      split at h
      · cases h
      · rename_i hmiss
        obtain ⟨rfl, hl⟩ := Prod.mk.inj h
        exact ⟨u, l0, _, hread, hwalk, hmiss, rfl, (Except.ok.inj hl).symm⟩

theorem translate_leafOf {s t : State} {v : View} {va : Nat} {n : Need} {ap : Ap} {l : Leaf} (h : s.translate v va n ap = (t, .ok l)) :
    LeafOf l va := by
  obtain ⟨u, l0, rl, -, hwalk, -, -, rfl⟩ := translate_ok h
  obtain ⟨hpage, hraw, hentry⟩ := walk_leafOf hwalk
  exact ⟨(resolve_page _ _).trans hpage, hraw, hentry⟩

/-- An atomic reaches its bytes through the plain aperture (R199). -/
theorem translate_atomic {s t : State} {v : View} {va : Nat} {n : Need} {l : Leaf} (h : s.translate v va n .atomic = (t, .ok l)) :
    l.ap = 0 := by
  obtain ⟨u, l0, rl, -, -, hmiss, -, rfl⟩ := translate_ok h
  by_contra h0
  have hap : (l0.ap == 0) = false := beq_false_of_ne h0
  simp only [State.leafMiss, hap, Bool.false_and, Bool.not_false, if_true] at hmiss
  split at hmiss <;> cases hmiss

/-- The used bits are written, or stand already. -/
theorem setUsed_cases (s : State) (l : Leaf) (wr : Bool) :
    s.setUsed l wr = s ∨ ∃ w, s.setUsed l wr = s.putBytes none Lay.plain l.entry (leBytes 8 w) := by
  by_cases h : (l.w0 ||| 0x80 ||| if wr = true then 0x100 else 0) = l.w0
  · exact .inl (if_pos h)
  · exact .inr ⟨_, if_neg h⟩

theorem setUsed_bytesOk {s : State} (hs : BytesOk s) (l : Leaf) (wr : Bool) : BytesOk (s.setUsed l wr) := by
  obtain h | ⟨w, h⟩ := setUsed_cases s l wr
  · rwa [h]
  · rw [h]
    exact putBytes_bytesOk hs _ _ _ _

/-- Bytes of one line stand in memory of one kind. -/
theorem inOne_of_line {pa n : Nat} (h : pa % 128 + n ≤ 128) : InOne pa n := fun _ _ => inHbm_line (by omega)

theorem setUsed_byteAt {s : State} (hs : BytesWf s) {l : Leaf} (hl : l.entry % 16 = 0) (wr : Bool) {a : Nat}
    (ha : ¬ (l.entry ≤ a ∧ a < l.entry + 8)) : byteAt (s.setUsed l wr) a = byteAt s a := by
  obtain h | ⟨w, h⟩ := setUsed_cases s l wr
  · rw [h]
  · have hlen := leBytes_length 8 w
    rw [h, byteAt_putBytes_inOne hs (inOne_of_line (by omega)), hlen, if_neg ha]

/-- A translation leaves bytes and tags in canonical form. -/
theorem translate_bytesOk {s t : State} {v : View} {va : Nat} {n : Need} {ap : Ap} {r : Except Miss Leaf} (hs : BytesOk s)
    (h : s.translate v va n ap = (t, r)) : BytesOk t := by
  have hwalk := (readWalk_step s v va).bytesOk (readWalk_bytes s v va) hs
  cases r with
  | error e =>
    rw [translate_error h]
    exact hwalk
  | ok l =>
    obtain ⟨u, l0, rl, hread, -, -, rfl, -⟩ := translate_ok h
    rw [hread] at hwalk
    exact setUsed_bytesOk hwalk _ _

/-- A translation changes no byte outside its leaf's entry (R200). -/
theorem translate_byteAt {s t : State} {v : View} {va : Nat} {n : Need} {ap : Ap} {l : Leaf} (hs : BytesWf s)
    (h : s.translate v va n ap = (t, .ok l)) {a : Nat} (ha : ¬ (l.entry ≤ a ∧ a < l.entry + 8)) : byteAt t a = byteAt s a := by
  obtain ⟨u, l0, rl, hread, hleaf, -, rfl, rfl⟩ := translate_ok h
  have hwalk := readWalk_step s v va
  have hbytes := readWalk_bytes s v va
  rw [hread] at hwalk hbytes
  rw [setUsed_byteAt (hwalk.bytesWf hs) (walk_leafOf hleaf).entry _ ha, hbytes.byteAt]

/-- The state that a translation leaves, but for memory. -/
theorem translate_memStep {s t : State} {v : View} {va : Nat} {n : Need} {ap : Ap} {r : Except Miss Leaf}
    (h : s.translate v va n ap = (t, r)) : MemStep s t := by
  have := translate_step s v va n ap
  rwa [h] at this

theorem checkRead_memStep {s t : State} {lay : Lay} {pa n : Nat} {r : Option Nat} (h : s.checkRead lay pa n = (t, r)) : MemStep s t := by
  have := checkRead_step s lay pa n
  rwa [h] at this

theorem checkRead_sameBytes {s t : State} {lay : Lay} {pa n : Nat} {r : Option Nat} (h : s.checkRead lay pa n = (t, r)) : SameBytes s t := by
  have := checkRead_bytes s lay pa n
  rwa [h] at this

end Sys2Proof.Machine
end

