-- ==== Sys2Proof/Proofs/HeldStores.lean ====
section
/-! Held stores: the runs of a line, its performance, and what is read over the lines held (R213, R270). -/

namespace Sys2Proof.Machine

/-! The runs of held bytes. -/

/-- Byte o of a line lies in one of the runs. -/
def InRuns (rs : List (Nat × Nat)) (o : Nat) : Prop := ∃ r ∈ rs, r.1 ≤ o ∧ o < r.1 + r.2

theorem inRuns_cons (r : Nat × Nat) (rs : List (Nat × Nat)) (o : Nat) :
    InRuns (r :: rs) o ↔ (r.1 ≤ o ∧ o < r.1 + r.2) ∨ InRuns rs o := by
  simp [InRuns]

/-- The runs of the bytes below n, newest first. -/
def runsBelow (sel : BitVec 64) (n : Nat) : List (Nat × Nat) :=
  (List.range n).foldl (fun rs o =>
    if sel.getLsbD o then
      match rs with
      | (b, n) :: t => if b + n = o then (b, n + 1) :: t else (o, 1) :: (b, n) :: t
      | [] => [(o, 1)]
    else rs) []

theorem inRuns_extend (rs : List (Nat × Nat)) (k o : Nat) : InRuns (match rs with
      | (b, n) :: t => if b + n = k then (b, n + 1) :: t else (k, 1) :: (b, n) :: t
      | [] => [(k, 1)]) o ↔ InRuns rs o ∨ o = k := by
  cases rs with
  | nil =>
    rw [inRuns_cons]
    simp only [InRuns, List.not_mem_nil, false_and, exists_false, false_or, or_false]
    omega
  | cons r t =>
    obtain ⟨b, n⟩ := r
    dsimp only
    split
    · rw [inRuns_cons, inRuns_cons]
      by_cases ht : InRuns t o
      · simp [ht]
      · simp only [ht, or_false]
        omega
    · rw [inRuns_cons]
      have : (k ≤ o ∧ o < k + 1) ↔ o = k := by omega
      rw [this, or_comm]

theorem inRuns_below (sel : BitVec 64) (n o : Nat) : InRuns (runsBelow sel n) o ↔ o < n ∧ sel.getLsbD o = true := by
  induction n with
  | zero => simp [runsBelow, InRuns]
  | succ n ih =>
    have hstep : runsBelow sel (n + 1) = if sel.getLsbD n then
        match runsBelow sel n with
        | (b, m) :: t => if b + m = n then (b, m + 1) :: t else (n, 1) :: (b, m) :: t
        | [] => [(n, 1)]
      else runsBelow sel n := by
      rw [runsBelow, List.range_succ, List.foldl_append]
      rfl
    rw [hstep]
    by_cases hn : sel.getLsbD n = true
    · rw [if_pos hn, inRuns_extend, ih]
      constructor
      · rintro (⟨hlt, hs⟩ | rfl)
        · exact ⟨by omega, hs⟩
        · exact ⟨Nat.lt_succ_self _, hn⟩
      · rintro ⟨hlt, hs⟩
        by_cases ho : o = n
        · exact .inr ho
        · exact .inl ⟨by omega, hs⟩
    · rw [if_neg hn, ih]
      refine and_congr_left fun hs => ?_
      have hne : o ≠ n := fun he => hn (he ▸ hs)
      omega

theorem inRuns_heldRuns (sel : BitVec 64) (o : Nat) : InRuns (heldRuns sel) o ↔ o < 64 ∧ sel.getLsbD o = true := by
  rw [← inRuns_below]
  change InRuns (runsBelow sel 64).reverse o ↔ _
  simp [InRuns]

/-- A run lies within its line. -/
theorem run_le {sel : BitVec 64} {r : Nat × Nat} (hr : r ∈ heldRuns sel) : r.1 + r.2 ≤ 64 ∨ r.2 = 0 := by
  by_contra h
  have := (inRuns_heldRuns sel (r.1 + r.2 - 1)).1 ⟨r, hr, by omega, by omega⟩
  omega

/-! Performing a line. -/

/-- The byte at a after one held line has been performed over b. -/
def heldStep (l : HeldLine) (a : Nat) (b : Byte) : Byte :=
  if l.pa ≤ a ∧ a < l.pa + 64 ∧ l.sel.getLsbD (a - l.pa) = true then l.bytes.extractLsb' (8 * (a - l.pa)) 8 else b

theorem heldOver_cons (l : HeldLine) (ls : List HeldLine) (a : Nat) (b : Byte) :
    heldOver (l :: ls) a b = heldOver ls a (heldStep l a b) := rfl

theorem heldOver_concat (ls : List HeldLine) (l : HeldLine) (a : Nat) (b : Byte) :
    heldOver (ls ++ [l]) a b = heldStep l a (heldOver ls a b) := List.foldl_append

theorem slice_getD (l : HeldLine) {o n j : Nat} (hj : j < n) : (l.slice o n).getD j 0 = l.bytes.extractLsb' (8 * (o + j)) 8 := by
  simp [HeldLine.slice, List.getD_eq_getElem?_getD, hj]

/-- What a step of context g in hand leaves that performs stores of its own. -/
structure Performs (s t : State) : Prop where
  memory : MemoryOnly s t
  bytes : BytesOk t

theorem Performs.trans {s t u : State} (h : Performs s t) (k : Performs t u) : Performs s u := ⟨h.memory.trans k.memory, k.bytes⟩

/-- One run of a held line is one store. -/
theorem performs_run {s : State} (hs : BytesOk s) {g : Nat} (hg : s.here = g) (l : HeldLine) (r : Nat × Nat) :
    Performs s (s.write (s.agentOf g .ls l.assay) l.lay (l.pa + r.1) (l.slice r.1 r.2)) := by
  subst hg
  exact ⟨write_own_memoryOnly s (by simp [Agent.ownOf, State.agentOf]) _ _ _, write_bytesOk hs _ _ _ _⟩

/-- The runs of a held line, one after the other. -/
theorem performs_runs (l : HeldLine) (g : Nat) (rs : List (Nat × Nat)) : ∀ s : State, BytesOk s → s.here = g →
    Performs s (rs.foldl (fun t r => t.write (t.agentOf g .ls l.assay) l.lay (l.pa + r.1) (l.slice r.1 r.2)) s) := by
  induction rs with
  | nil => exact fun s hs _ => ⟨.refl s, hs⟩
  | cons r rs ih =>
    intro s hs hg
    have h := performs_run hs hg l r
    exact h.trans (ih _ h.bytes (h.memory.here.trans hg))

theorem byteAt_runs {l : HeldLine} (hpa : l.pa % 64 = 0) (hraw : l.lay.raw = false) (g : Nat) (rs : List (Nat × Nat))
    (hrs : ∀ r ∈ rs, r.1 + r.2 ≤ 64 ∨ r.2 = 0) : ∀ s : State, BytesOk s → ∀ a : Nat,
    byteAt (rs.foldl (fun t r => t.write (t.agentOf g .ls l.assay) l.lay (l.pa + r.1) (l.slice r.1 r.2)) s) a =
      open Classical in if l.pa ≤ a ∧ InRuns rs (a - l.pa) then l.bytes.extractLsb' (8 * (a - l.pa)) 8 else byteAt s a := by
  induction rs with
  | nil =>
    intro s _ a
    rw [if_neg fun h => by simpa [InRuns] using h.2]
    rfl
  | cons r rs ih =>
    intro s hs a
    have hr := hrs r List.mem_cons_self
    have hlen : (l.slice r.1 r.2).length = r.2 := by simp [HeldLine.slice]
    have hstored := (write_stored hs (s.agentOf g .ls l.assay) l.lay (pa := l.pa + r.1) (bs := l.slice r.1 r.2)
      (inOne_of_line (by rw [hlen]; omega))).1 hraw a
    rw [List.foldl_cons, ih (fun r hr => hrs r (List.mem_cons_of_mem _ hr)) _ (write_bytesOk hs _ _ _ _), hstored, hlen]
    have hcons := inRuns_cons r rs (a - l.pa)
    by_cases hin : l.pa ≤ a ∧ InRuns rs (a - l.pa)
    · rw [if_pos hin, if_pos ⟨hin.1, hcons.2 (.inr hin.2)⟩]
    · rw [if_neg hin]
      by_cases hthis : l.pa + r.1 ≤ a ∧ a < l.pa + r.1 + r.2
      · rw [if_pos hthis, if_pos ⟨by omega, hcons.2 (.inl ⟨by omega, by omega⟩)⟩, slice_getD l (by omega)]
        congr 2
        omega
      · rw [if_neg hthis, if_neg]
        rintro ⟨hle, hr⟩
        obtain hr | hr := hcons.1 hr
        · omega
        · exact hin ⟨hle, hr⟩

/-- A held line performed. -/
theorem release_performs {s : State} (hs : BytesOk s) {g : Nat} (hg : s.here = g) (l : HeldLine) : Performs s (s.release g l) :=
  performs_runs l g _ s hs hg

theorem byteAt_release {s : State} (hs : BytesOk s) {l : HeldLine} (hpa : l.pa % 64 = 0) (hraw : l.lay.raw = false) (g a : Nat) :
    byteAt (s.release g l) a = heldStep l a (byteAt s a) := by
  rw [State.release, byteAt_runs hpa hraw g _ (fun r hr => run_le hr) s hs a, heldStep]
  simp only [inRuns_heldRuns]
  by_cases h : l.pa ≤ a ∧ a < l.pa + 64 ∧ l.sel.getLsbD (a - l.pa) = true
  · rw [if_pos h, if_pos ⟨h.1, by omega, h.2.2⟩]
  · rw [if_neg h, if_neg fun hc => h ⟨hc.1, by omega, hc.2.2⟩]

/-- Held lines performed one after the other. -/
theorem releases_performs (g : Nat) (ls : List HeldLine) : ∀ s : State, BytesOk s → s.here = g →
    Performs s (ls.foldl (fun t l => t.release g l) s) := by
  induction ls with
  | nil => exact fun s hs _ => ⟨.refl s, hs⟩
  | cons l ls ih =>
    intro s hs hg
    have h := release_performs hs hg l
    exact h.trans (ih _ h.bytes (h.memory.here.trans hg))

theorem byteAt_releases (g : Nat) (ls : List HeldLine) (hls : ∀ l ∈ ls, l.pa % 64 = 0 ∧ l.lay.raw = false) : ∀ s : State, BytesOk s →
    s.here = g → ∀ a, byteAt (ls.foldl (fun t l => t.release g l) s) a = heldOver ls a (byteAt s a) := by
  induction ls with
  | nil => exact fun _ _ _ _ => rfl
  | cons l ls ih =>
    intro s hs hg a
    obtain ⟨hpa, hraw⟩ := hls l List.mem_cons_self
    have h := release_performs hs hg l
    rw [List.foldl_cons, ih (fun l hl => hls l (List.mem_cons_of_mem _ hl)) _ h.bytes (h.memory.here.trans hg), byteAt_release hs hpa hraw,
      heldOver_cons]

/-- The held lines that a predicate picks are performed, oldest first, and held no longer (R270). -/
theorem releaseIf_performed {s : State} (hs : BytesOk s) (hp : PlainLines s.c) (p : HeldLine → Bool) :
    Performed s (s.releaseIf s.here p) p ∧ BytesOk (s.releaseIf s.here p) := by
  obtain ⟨hlines, hraw⟩ := hp
  have hown : s.ctxAt s.here = s.c := if_pos rfl
  have hrel : s.releaseIf s.here p = (s.c.lines.filter p).foldl (fun t l => t.release s.here l)
      (s.withC { s.c with lines := s.c.lines.filter fun l => !p l }) := by
    rw [State.releaseIf, onCtx_self, hown]
  have hs' : BytesOk (s.withC { s.c with lines := s.c.lines.filter fun l => !p l }) := hs
  have hfold := releases_performs s.here (s.c.lines.filter p) _ hs' rfl
  have hbytes := byteAt_releases s.here (s.c.lines.filter p)
    (fun l hl => ⟨hlines l (List.mem_filter.1 hl).1, hraw l (List.mem_filter.1 hl).1⟩) _ hs' rfl
  rw [← hrel] at hfold hbytes
  refine ⟨⟨hfold.memory.c, ⟨?_, hfold.memory.2⟩, fun a => ?_⟩, hfold.bytes⟩
  · rw [hfold.memory.1]
    rfl
  · rw [hbytes, byteAt_withC]

/-! Reading over the lines held (R213). -/

theorem overlay_length (ls : List HeldLine) (pa : Nat) (bs : List Byte) : (overlay ls pa bs).length = bs.length := by
  unfold overlay
  split
  · rfl
  · simp

theorem overlay_getD (ls : List HeldLine) (pa : Nat) (bs : List Byte) {j : Nat} (hj : j < bs.length) :
    (overlay ls pa bs).getD j 0 = heldOver ls (pa + j) (bs.getD j 0) := by
  unfold overlay
  split
  · rename_i h
    rw [h]
    rfl
  · rw [List.getD_eq_getElem _ _ (by simpa using hj), List.getElem_map, List.getElem_range]
    rfl

/-- Lines that hold none of the bytes are not seen. -/
theorem heldOver_of_none {ls : List HeldLine} {a : Nat} (h : ∀ l ∈ ls, ¬ (l.pa ≤ a ∧ a < l.pa + 64)) (b : Byte) :
    heldOver ls a b = b := by
  induction ls with
  | nil => rfl
  | cons l ls ih =>
    have hl := h l List.mem_cons_self
    rw [heldOver_cons, heldStep, if_neg fun hc => hl ⟨hc.1, hc.2.1⟩, ih fun l hl => h l (List.mem_cons_of_mem _ hl)]

theorem overlay_of_none {ls : List HeldLine} {pa : Nat} {bs : List Byte} (h : ∀ l ∈ ls, touches pa bs.length l = false) :
    overlay ls pa bs = bs := by
  refine List.ext_getElem (overlay_length _ _ _) fun j hj1 hj2 => ?_
  have hj := overlay_getD ls pa bs hj2
  rw [heldOver_of_none fun l hl hc => ?_, List.getD_eq_getElem _ _ hj1, List.getD_eq_getElem _ _ hj2] at hj
  · exact hj
  · have := of_decide_eq_false (h l hl)
    omega

/-! Holding bytes (R270). -/

theorem getLsbD_ones (n o i : Nat) (w : Nat) (hi : i < w) :
    (BitVec.ofNat w ((2 ^ n - 1) * 2 ^ o)).getLsbD i = decide (o ≤ i ∧ i < o + n) := by
  rw [BitVec.getLsbD_ofNat, Nat.testBit_mul_two_pow, Nat.testBit_two_pow_sub_one]
  by_cases ho : o ≤ i <;> simp [hi, ho]
  omega

/-- The bytes of a line that a merge puts into it. -/
theorem merge_sel (l : HeldLine) {o j : Nat} {bs : List Byte} (hn : o + bs.length ≤ 64) (hj : j < bs.length) :
    (l.merge o bs).sel.getLsbD (o + j) = true := by
  simp only [HeldLine.merge, BitVec.getLsbD_or, getLsbD_ones _ _ _ _ (show o + j < 64 by omega), Bool.or_eq_true, decide_eq_true_eq]
  exact .inr (by omega)

theorem merge_bytes (l : HeldLine) {o j : Nat} {bs : List Byte} (hn : o + bs.length ≤ 64) (hj : j < bs.length) :
    (l.merge o bs).bytes.extractLsb' (8 * (o + j)) 8 = bs.getD j 0 := by
  refine BitVec.eq_of_getLsbD_eq fun i hi => ?_
  have hlt : 8 * (o + j) + i < 512 := by omega
  have hin : decide (8 * o ≤ 8 * (o + j) + i ∧ 8 * (o + j) + i < 8 * o + 8 * bs.length) = true := decide_eq_true (by omega)
  have hval : (BitVec.ofNat 512 (leNat bs * 2 ^ (8 * o))).getLsbD (8 * (o + j) + i) = (bs.getD j 0).getLsbD i := by
    rw [BitVec.getLsbD_ofNat, Nat.testBit_mul_two_pow, testBit_leNat, show (8 * (o + j) + i - 8 * o) / 8 = j by omega,
      show (8 * (o + j) + i - 8 * o) % 8 = i by omega]
    simp [hlt, show 8 * o ≤ 8 * (o + j) + i by omega]
  simp only [HeldLine.merge, BitVec.getLsbD_extractLsb', BitVec.getLsbD_or, BitVec.getLsbD_and, BitVec.getLsbD_not,
    getLsbD_ones _ _ _ _ hlt, hin, hval, hi, hlt, decide_true, Bool.not_true, Bool.and_false, Bool.true_and, Bool.false_or]

/-- A byte merged into a line is read from it. -/
theorem heldStep_merge (l : HeldLine) {o j a : Nat} {bs : List Byte} (hn : o + bs.length ≤ 64) (hj : j < bs.length)
    (ha : a = l.pa + o + j) (b : Byte) : heldStep (l.merge o bs) a b = bs.getD j 0 := by
  have hpa : (l.merge o bs).pa = l.pa := rfl
  have hoff : a - l.pa = o + j := by omega
  rw [heldStep, hpa, hoff, if_pos ⟨by omega, by omega, merge_sel l hn hj⟩, merge_bytes l hn hj]

/-- Bytes merged into the newest line of their address are read back: no newer line holds them. -/
theorem heldOver_mergeHeld {base o j a : Nat} {lay : Lay} {id : Option (Fin 256)} {bs : List Byte} (hn : o + bs.length ≤ 64)
    (hj : j < bs.length) (hbase : base % 64 = 0) (ha : a = base + o + j) (ls : List HeldLine) (hls : ∀ l ∈ ls, l.pa % 64 = 0) :
    ∀ {ms : List HeldLine}, mergeHeld base lay id o bs ls = some ms → ∀ b, heldOver ms.reverse a b = bs.getD j 0 := by
  induction ls with
  | nil => exact fun h => absurd h (by simp [mergeHeld])
  | cons l ls ih =>
    intro ms h b
    have hl := hls l List.mem_cons_self
    rw [mergeHeld] at h
    split at h
    · rename_i hpa
      split at h
      · obtain rfl := Option.some.inj h
        rw [List.reverse_cons, heldOver_concat, heldStep_merge l hn hj (by omega)]
      · cases h
    · rename_i hpa
      obtain ⟨ms', hms, rfl⟩ := Option.map_eq_some_iff.1 h
      rw [List.reverse_cons, heldOver_concat, heldStep, if_neg (by omega), ih (fun l hl => hls l (List.mem_cons_of_mem _ hl)) hms]

/-- Held bytes of one line, while there is room for one more: memory stands, and the bytes are read back. -/
theorem holdPart_holds {s : State} (hl : LinesOk s.c) (hroom : s.c.lines.length < 1024) {pa : Nat} (lay : Lay) {bs : List Byte}
    (hn : pa % 64 + bs.length ≤ 64) : ∃ ls, s.holdPart pa lay bs = s.withC { s.c with lines := ls } ∧
      ∀ j, j < bs.length → ∀ b, heldOver ls (pa + j) b = bs.getD j 0 := by
  unfold State.holdPart
  dsimp only
  cases hm : mergeHeld (pa - pa % 64) lay s.c.assay (pa % 64) bs s.c.lines.reverse with
  | some ms => exact ⟨ms.reverse, rfl, fun j hj b => heldOver_mergeHeld hn hj (by omega) (by omega) s.c.lines.reverse
      (fun l h => hl l (List.mem_reverse.1 h)) hm b⟩
  | none =>
    have hlast (ls : List HeldLine) (j : Nat) (hj : j < bs.length) (b : Byte) :
        heldOver (ls ++ [HeldLine.merge ⟨pa - pa % 64, 0, 0, lay, s.c.assay⟩ (pa % 64) bs]) (pa + j) b = bs.getD j 0 := by
      have hat : pa + j = (⟨pa - pa % 64, 0, 0, lay, s.c.assay⟩ : HeldLine).pa + pa % 64 + j := by
        change pa + j = pa - pa % 64 + pa % 64 + j
        omega
      rw [heldOver_concat, heldStep_merge _ hn hj hat]
    refine ⟨_, ?_, hlast s.c.lines⟩
    cases hlines : s.c.lines with
    | nil => simp only [hlines]; rfl
    | cons l t =>
      rw [hlines] at hroom
      simp only [if_neg (Nat.not_le.2 hroom), hlines]
      rfl

end Sys2Proof.Machine
end

