-- ==== Sys2Proof/Proofs/ScalarLoads.lean ====
section
/-! Scalar accesses that reach their bytes, loads, and the registers of the MMIO range (R113, R199, R213; O7). -/

namespace Sys2Proof.Machine

/-! Computations that end or raise a trap, step by step. -/

theorem run_bind_ok {ε α β : Type} {m : ExceptT ε (StateM State) α} {f : α → ExceptT ε (StateM State) β} {s t : State} {a : α}
    (h : m.run s = (.ok a, t)) : (m >>= f).run s = (f a).run t := by
  change (match m.run s with | (r, u) => (ExceptT.bindCont f r) u) = _
  rw [h]
  rfl

theorem run_bind_error {ε α β : Type} {m : ExceptT ε (StateM State) α} {f : α → ExceptT ε (StateM State) β} {s t : State} {e : ε}
    (h : m.run s = (.error e, t)) : (m >>= f).run s = (.error e, t) := by
  change (match m.run s with | (r, u) => (ExceptT.bindCont f r) u) = _
  rw [h]
  rfl

theorem carry_of_ok {s t : State} {m : Act Unit} (h : m.run s = (.ok (), t)) : s.carry m = t := by rw [State.carry, h]

theorem carry_of_error {s t : State} {m : Act Unit} {e : Trap} (h : m.run s = (.error e, t)) : s.carry m = t.raise e := by
  rw [State.carry, h]

theorem xlate_run {s s1 : State} {u : Where} {va : Nat} {n : Need} {ap : Ap} {l : Leaf} (h : s.translate s.view va n ap = (s1, .ok l))
    (hpin : s1.pinOk s1.pkg s1.c.session l.pa = true) : (xlate u va n ap).run s = (.ok l, s1) := by
  change ExceptT.run (match s.translate s.view va n ap with
    | (s1, .error e) => do
      set s1
      throw (missTrap u va n e)
    | (s1, .ok l) => do
      set s1
      if s1.pinOk s1.pkg s1.c.session l.pa then pure l else throw (accessTrap u 0 n (BitVec.ofNat 64 va)) : Act Leaf) s = _
  rw [h]
  change ExceptT.run (if _ then pure l else throw _ : Act Leaf) s1 = _
  rw [if_pos hpin]
  rfl

theorem checkWatch_run {s : State} {u : Where} {cls : Cls} {n : Need} {pa len : Nat} (h : s.watched cls n pa len = []) :
    (checkWatch u cls n pa len).run s = (.ok (), s) := by
  change ExceptT.run (match s.watched cls n pa len with
    | [] => pure ()
    | ms => throw (watchTrap u ms n.wr pa) : Act Unit) s = _
  rw [h]
  rfl

theorem readOwn_run {s s1 : State} {u : Where} {cls : Cls} {l : Leaf} {n : Nat} (h : s.checkRead l.lay l.pa n = (s1, none)) :
    (readOwn u cls l n).run s = (.ok (s1.ownBytes cls l n), s1) := by
  change ExceptT.run (match s.checkRead l.lay l.pa n with
    | (s1, some pa) => do
      set s1
      throw (memueTrap s1 u pa)
    | (s1, none) => do
      set s1
      pure (s1.ownBytes cls l n) : Act (List Byte)) s = _
  rw [h]
  rfl

/-! Accesses that reach their bytes. -/

section
variable {s s1 : State} {a : Word} {n : Nat} {k : Need} {ap : Ap} {l : Leaf} (h : Reaches s s1 a n k ap l)
include h

theorem Reaches.memStep : MemStep s s1 := translate_memStep h.2.1

theorem Reaches.leafOf : LeafOf l (s.c.vah.toNat * 2 ^ 64 + a.toNat) := translate_leafOf h.2.1

theorem Reaches.bytesOk (hs : BytesOk s) : BytesOk s1 := translate_bytesOk hs h.2.1

theorem Reaches.inScu (hs : InScu s) : InScu s1 := h.memStep.laneSel.trans hs

/-- The address of a scalar access is a multiple of its size (R113, R192). -/
theorem Reaches.aligned (hn : n ∣ 2 ^ 16) : l.pa % n = 0 := by
  have hpage := h.leafOf.page
  have hva : (s.c.vah.toNat * 2 ^ 64 + a.toNat) % n = 0 := by
    rw [Nat.add_mod, h.1, Nat.add_zero, Nat.mod_mod]
    exact Nat.mod_eq_zero_of_dvd ((hn.trans (pow_dvd_pow 2 (by decide))).mul_left _)
  rw [← Nat.mod_mod_of_dvd _ hn, hpage, Nat.mod_mod_of_dvd _ hn, hva]

/-- An access that reaches its bytes goes on with its own step. -/
theorem Reaches.carry {bad : Act Unit} {rest : Leaf → Act Unit} {t : State} (ht : (rest l).run s1 = (.ok (), t)) :
    s.carry (if a.toNat % n ≠ 0 then bad else do
      let l ← xlate .lq (s.va72 a) k ap
      checkWatch .lq .ls k l.pa n
      rest l) = t := by
  obtain ⟨hal, htr, hpin, hwatch⟩ := h
  have hx : (xlate .lq (s.va72 a) k ap).run s = (.ok l, s1) := xlate_run htr hpin
  rw [if_neg (not_not.2 hal)]
  refine carry_of_ok ?_
  rw [run_bind_ok hx, run_bind_ok (checkWatch_run hwatch), ht]

end

/-- A misaligned access raises its trap before anything else. -/
theorem carry_misaligned {s : State} {a n : Nat} (h : a % n ≠ 0) (t : Trap) (f : PUnit → Act Unit) (rest : Act Unit) :
    s.carry (if a % n ≠ 0 then throw t >>= f else rest) = s.raise t := by
  rw [if_pos h]
  exact carry_of_error (run_bind_error rfl)

/-! Loads (R113). -/

/-- The sizes of a scalar access. -/
def ScalarSize (n : Nat) : Prop := n = 1 ∨ n = 2 ∨ n = 4 ∨ n = 8

theorem ScalarSize.dvd {n : Nat} (h : ScalarSize n) : n ∣ 2 ^ 16 := by rcases h with rfl | rfl | rfl | rfl <;> decide

theorem ScalarSize.le {n : Nat} (h : ScalarSize n) : n ≤ 8 := by rcases h with rfl | rfl | rfl | rfl <;> decide

theorem ScalarSize.pos {n : Nat} (h : ScalarSize n) : 0 < n := by rcases h with rfl | rfl | rfl | rfl <;> decide

/-- A value as a load extends it. -/
theorem extend_eq_loaded {n : Nat} (hn : ScalarSize n) (signed : Bool) (v : Nat) : extend n signed v = loaded n signed v := by
  cases signed with
  | false => rfl
  | true =>
    have hle := hn.le
    have hmod : sext64 (8 * n) v = sext64 (8 * n) (v % 2 ^ (8 * n)) := by simp only [sext64, Nat.mod_mod]
    have hword := sext64_eq_word (Nat.mul_pos (by decide : 0 < 8) hn.pos) (by omega) (Nat.mod_lt v (by positivity : 0 < 2 ^ (8 * n)))
    have hnat : BitVec.ofNat (8 * n) (v % 2 ^ (8 * n)) = BitVec.ofNat (8 * n) v :=
      BitVec.eq_of_toNat_eq (by rw [BitVec.toNat_ofNat, BitVec.toNat_ofNat, Nat.mod_mod])
    rw [← hmod, hnat] at hword
    exact hword

theorem loadRows_exec {p : (XReg → XReg → XSrc → Instr) × Nat × Bool} (hp : p ∈ loadRows) :
    ScalarSize p.2.1 ∧ ∀ rd ra b s, exec (p.1 rd ra b) s = loadScalar p.2.1 p.2.2 rd ra b s := by
  simp only [loadRows, List.mem_cons, List.not_mem_nil, or_false] at hp
  rcases hp with rfl | rfl | rfl | rfl | rfl | rfl | rfl <;> exact ⟨by simp [ScalarSize], fun _ _ _ _ => rfl⟩

theorem storeRows_exec {p : (XReg → XReg → XSrc → Instr) × Nat} (hp : p ∈ storeRows) :
    ScalarSize p.2 ∧ ∀ rs ra b s, exec (p.1 rs ra b) s = storeScalar p.2 rs ra b s := by
  simp only [storeRows, List.mem_cons, List.not_mem_nil, or_false] at hp
  rcases hp with rfl | rfl | rfl | rfl <;> exact ⟨by simp [ScalarSize], fun _ _ _ _ => rfl⟩

/-- What a load of memory or of a register gives once it is read. -/
theorem loadScalar_gives {s s1 s2 : State} (hs : InScu s) {rd ra : XReg} {b : XSrc} {n : Nat} {l : Leaf} {v : Nat} (signed : Bool)
    (h : Reaches s s1 (xOf s ra + bOf s b) n Need.read (apOf n) l) (hv : (readAt l n).run s1 = (.ok v, s2)) (h2 : InScu s2) :
    Gives (loadScalar n signed rd ra b s) s2 rd (extend n signed v) := by
  have hcarry : loadScalar n signed rd ra b s = s2.put rd (extend n signed v) := by
    unfold loadScalar
    rw [rx_eq_xOf hs, xsrc_eq_bOf hs]
    refine congrArg Host.Outcome.next (h.carry ?_)
    rw [run_bind_ok hv]
    rfl
  rw [hcarry]
  exact put_gives h2 rd rfl

/-! Registers of the MMIO range (R199, R257, R279, R303, R330, R331). -/

theorem claspWord_eq (c : Clasp) : c.word = BitVec.ofNat 64 (claspValue c) := by
  refine BitVec.eq_of_toNat_eq ?_
  have ht := c.target.isLt
  have ha := c.arrived.isLt
  have hp : c.phase.toNat ≤ 1 := by cases c.phase <;> decide
  rw [Clasp.word, claspValue, BitVec.toNat_append, ← Nat.shiftLeft_add_eq_or_of_lt ht, BitVec.toNat_append,
    ← Nat.shiftLeft_add_eq_or_of_lt ha, BitVec.toNat_append, ← Nat.shiftLeft_add_eq_or_of_lt (BitVec.isLt _), BitVec.toNat_ofBool,
    BitVec.toNat_ofNat, BitVec.toNat_ofNat]
  omega

/-- A register's place names one that there is: a clasp of its unit, one of three power registers. -/
def Place.Numbered : Place → Prop
  | .dieClasp _ i => i < 256
  | .clasp _ i => i < 64
  | .pwrctl _ j | .refcnt _ j => j < 3
  | _ => True

theorem mmioPlace_numbered (d o : Nat) : (mmioPlace d o).Numbered := by
  unfold mmioPlace
  split_ifs <;> simp only [Place.Numbered] <;> omega

theorem place_numbered (s : State) (pa : Nat) : (s.place pa).Numbered := by
  unfold State.place
  dsimp only
  split_ifs
  any_goals exact trivial
  exact mmioPlace_numbered _ _

theorem ofNat_toNat_word (v : Word) : BitVec.ofNat 64 v.toNat = v := by rw [BitVec.ofNat_toNat, BitVec.setWidth_eq]

theorem toList_getD_three (v : Vector Word 3) {j : Nat} (hj : j < 3) :
    v[j % 3]'(Nat.mod_lt _ (by decide)) = BitVec.ofNat 64 (v.toList.getD j 0).toNat := by
  have hget : v.toList.getD j 0 = v[j] := by simp [List.getD_eq_getElem?_getD, hj]
  simp only [hget, BitVec.ofNat_toNat, BitVec.setWidth_eq, Nat.mod_eq_of_lt hj]

/-- A load of a register of the MMIO range reads its value. -/
theorem mmioRead_eq (s : State) {p : Place} (h : p.Numbered) : s.mmioRead p = BitVec.ofNat 64 (registerValue s p) := by
  cases p with
  | doorbell d q => exact (BitVec.ofNat_toNat 64 _).symm
  | dieClasp d i =>
    have hi : (Fin.ofNat 256 i).val = i := Nat.mod_eq_of_lt h
    simp only [State.mmioRead, State.claspAt, registerValue, hi]
    exact claspWord_eq _
  | clasp c i =>
    have hi : (Fin.ofNat 64 i).val = i := Nat.mod_eq_of_lt h
    simp only [State.mmioRead, State.claspAt, registerValue, hi]
    exact claspWord_eq _
  | asyclr d => exact (BitVec.ofNat_toNat 64 _).symm
  | pgreq d => exact (ofNat_toNat_word _).symm
  | lateans d => exact (BitVec.ofNat_toNat 64 _).symm
  | pwrctl d j => exact toList_getD_three _ h
  | refcnt d j => exact toList_getD_three _ h
  | hbm _ | dsram _ _ | spad _ _ | tcm _ _ | nothing => rfl

theorem extend_eight (signed : Bool) (v : Word) : extend 8 signed v.toNat = v := by
  rw [extend_eq_loaded (.inr (.inr (.inr rfl)))]
  cases signed with
  | false => exact ofNat_toNat_word _
  | true => exact (congrArg (fun x : Word => word x.toInt) (ofNat_toNat_word v)).trans (word_toInt v)

/-- Settles O7: an aligned access that translates, passes its pin and its watches reads its bytes, or its register. -/
theorem scalarLoads : Obligations.ScalarLoads := by
  unfold Obligations.ScalarLoads
  intro p hp s s1 s2 rd ra b l hs hr
  obtain ⟨hsize, hexec⟩ := loadRows_exec hp
  have h1 : InScu s1 := hr.inScu hs
  rw [hexec]
  refine ⟨fun hmem hread => ?_, fun hmem h8 => ⟨hr.memStep.c, ?_⟩⟩
  · have hstep := checkRead_memStep hread
    have hv : (readAt l p.2.1).run s1 = (.ok (leNat (s2.ownBytes .ls l p.2.1)), s2) := by
      change ExceptT.run (if (s1.place l.pa).isMem then _ else _ : Act Nat) s1 = _
      rw [if_pos hmem, run_bind_ok (readOwn_run hread)]
      rfl
    refine ⟨hstep.c.trans hr.memStep.c, ?_⟩
    rw [← extend_eq_loaded hsize]
    exact loadScalar_gives hs p.2.2 hr hv (hstep.laneSel.trans h1)
  · have hv : (readAt l p.2.1).run s1 = (.ok (s1.mmioRead (s1.place l.pa)).toNat, s1) := by
      change ExceptT.run (if (s1.place l.pa).isMem then _ else _ : Act Nat) s1 = _
      rw [if_neg (by simp [hmem])]
      rfl
    have hgives := loadScalar_gives (rd := rd) hs p.2.2 hr hv h1
    rwa [h8, extend_eight, mmioRead_eq s1 (place_numbered s1 l.pa), ← h8] at hgives

end Sys2Proof.Machine
end

