-- ==== Sys2Proof/Proofs/ScalarStores.lean ====
section
/-! Scalar stores (R113, R270; O8). -/

namespace Sys2Proof.Machine

theorem storeScalar_reaches {s s1 : State} (hs : InScu s) {rs ra : XReg} {b : XSrc} {n : Nat} {l : Leaf}
    (h : Reaches s s1 (xOf s ra + bOf s b) n Need.write (apOf n) l) :
    storeScalar n rs ra b s = .next (s1.storeScalar l n (xOf s rs)) := by
  unfold storeScalar
  rw [rx_eq_xOf hs, rx_eq_xOf hs, xsrc_eq_bOf hs]
  exact congrArg Host.Outcome.next (h.carry rfl)

theorem adv_eq_next {s : State} (h : InScu s) : s.adv = next s := State.adv_of_scu s h

theorem rawSeen_length (s : State) (n : Nat) : ∀ pa, (s.rawSeen pa n).length = n := by
  induction n with
  | zero => exact fun _ => rfl
  | succ n ih => exact fun pa => congrArg Nat.succ (ih _)

theorem bytesAt_length_eq (s : State) (raw : Bool) {pa n : Nat} (hn : pa % 128 + n ≤ 128) : (s.bytesAt raw pa n).length = n := by
  cases raw with
  | false =>
    rw [bytesAt_part s hn]
    split
    · exact normalPart_length_eq _ _ hn
    · exact rawBytes_length _ _ _
  | true =>
    unfold State.bytesAt
    split
    · exact rawBytes_length _ _ _
    · exact rawSeen_length _ _ _

/-- Bytes of one line, held while there is room. -/
theorem hold_holds {s : State} (hl : LinesOk s.c) (hroom : s.c.lines.length < 1024) {pa : Nat} (lay : Lay) {bs : List Byte}
    (h0 : bs ≠ []) (hn : pa % 64 + bs.length ≤ 64) (f : Nat) : ∃ ls, s.hold (f + 2) pa lay bs = s.withC { s.c with lines := ls } ∧
      ∀ j, j < bs.length → ∀ b, heldOver ls (pa + j) b = bs.getD j 0 := by
  obtain ⟨ls, hhold, hread⟩ := holdPart_holds hl hroom lay hn
  refine ⟨ls, ?_, hread⟩
  have htake : bs.take (64 - pa % 64) = bs := List.take_of_length_le (by omega)
  have hdrop : bs.drop (64 - pa % 64) = [] := List.drop_eq_nil_of_le (by omega)
  rw [State.hold, if_neg h0]
  simp only [htake, hdrop, hhold]
  rfl

/-- A scalar access lies within one line of held stores. -/
theorem Reaches.inLine {s s1 : State} {a : Word} {n : Nat} {k : Need} {ap : Ap} {l : Leaf} (h : Reaches s s1 a n k ap l)
    (hsize : ScalarSize n) : l.pa % 64 + n ≤ 64 := by
  have hal := h.aligned hsize.dvd
  rcases hsize with rfl | rfl | rfl | rfl <;> omega

section
variable {s s1 : State} {rs ra : XReg} {b : XSrc} {n : Nat} {l : Leaf} (hs : InScu s) (hsize : ScalarSize n)
  (h : Reaches s s1 (xOf s ra + bOf s b) n Need.write (apOf n) l) (hmem : (s1.place l.pa).isMem = true)
include hs hsize h hmem

/-- A store that is not held. -/
theorem store_performed (hok : BytesOk s) (hdet : s.c.det = false) (hap : l.ap ≠ 2) : ∃ u, MemoryOnly s1 u ∧
    Stored s1 u l.lay.raw l.pa (leBytes n (xOf s rs).toNat) ∧ storeScalar n rs ra b s = .next (next u) := by
  have hline := h.inLine hsize
  have hlen := leBytes_length n (xOf s rs).toNat
  have hown := write_own_memoryOnly s1 (a := s1.self .ls) (by simp [Agent.ownOf, State.self]) l.lay l.pa (leBytes n (xOf s rs).toNat)
  refine ⟨_, hown, write_stored (h.bytesOk hok) _ _ (inOne_of_line (by omega)), ?_⟩
  rw [storeScalar_reaches hs h, State.storeScalar, if_pos hmem, if_neg hap, State.storeOwn, h.memStep.c, hdet]
  exact congrArg Host.Outcome.next (adv_eq_next (hown.laneSel.trans (h.inScu hs)))

/-- A store that is held is read back. -/
theorem store_held (hdet : s.c.det = true) (hap : l.ap ≠ 2) (hl : LinesOk s.c) (hroom : s.c.lines.length < 1024) : ∃ ls,
    storeScalar n rs ra b s = .next (next { s1 with c := { s1.c with lines := ls } }) ∧
      ({ s1 with c := { s1.c with lines := ls } } : State).ownBytes .ls l n = leBytes n (xOf s rs).toNat := by
  have hline := h.inLine hsize
  have hlen := leBytes_length n (xOf s rs).toNat
  have hc := h.memStep.c
  have hpos := hsize.pos
  obtain ⟨ls, hhold, hread⟩ := hold_holds (s := s1) (hc ▸ hl) (hc ▸ hroom) (pa := l.pa) l.lay (bs := leBytes n (xOf s rs).toNat)
    (List.ne_nil_of_length_pos (by omega)) (by omega) ((leBytes n (xOf s rs).toNat).length / 64)
  refine ⟨ls, ?_, ?_⟩
  · have hdet1 : s1.c.det = true := hc ▸ hdet
    rw [storeScalar_reaches hs h, State.storeScalar, if_pos hmem, if_neg hap, State.storeOwn, hdet1]
    have hstore : (if (true && Cls.ls == Cls.ls) = true then
          s1.hold ((leBytes n (xOf s rs).toNat).length / 64 + 2) l.pa l.lay (leBytes n (xOf s rs).toNat)
        else s1.write (s1.self .ls) l.lay l.pa (leBytes n (xOf s rs).toNat)) = s1.withC { s1.c with lines := ls } := hhold
    rw [hstore]
    exact congrArg Host.Outcome.next (adv_eq_next (h.inScu hs))
  · have hblen := bytesAt_length_eq { s1 with c := { s1.c with lines := ls } } l.lay.raw (pa := l.pa) (n := n) (by omega)
    change overlay ls l.pa (({ s1 with c := { s1.c with lines := ls } } : State).bytesAt l.lay.raw l.pa n) = _
    refine List.ext_getElem (by rw [overlay_length, hblen, hlen]) fun j hj1 hj2 => ?_
    have hj : j < (({ s1 with c := { s1.c with lines := ls } } : State).bytesAt l.lay.raw l.pa n).length := by omega
    have hget := overlay_getD ls l.pa _ hj
    rw [hread j hj2, List.getD_eq_getElem _ _ hj1, List.getD_eq_getElem _ _ hj2] at hget
    exact hget

/-- A store through the device aperture follows the held stores to its bytes. -/
theorem store_device (hok : BytesOk s) (hap : l.ap = 2) (hl : PlainLines s.c) :
    Performed s1 (s1.releaseBytes s1.here l.pa n) (touches l.pa n) ∧ ∃ u, MemoryOnly (s1.releaseBytes s1.here l.pa n) u ∧
      Stored (s1.releaseBytes s1.here l.pa n) u false l.pa (leBytes n (xOf s rs).toNat) ∧ storeScalar n rs ra b s = .next (next u) := by
  have hline := h.inLine hsize
  have hlen := leBytes_length n (xOf s rs).toNat
  have hraw : l.lay.raw = false := h.leafOf.raw.trans (by rw [hap]; rfl)
  have hrel : s1.releaseBytes s1.here l.pa n = s1.releaseIf s1.here (touches l.pa n) :=
    congrArg (s1.releaseIf s1.here) (funext fun l => (Bool.decide_and _ _).symm)
  obtain ⟨hperf, hbytes⟩ := releaseIf_performed (h.bytesOk hok) (h.memStep.c ▸ hl) (touches l.pa n)
  have hexec : storeScalar n rs ra b s = .next ((s1.releaseBytes s1.here l.pa n).write
      ((s1.releaseBytes s1.here l.pa n).self .ls) l.lay l.pa (leBytes n (xOf s rs).toNat)).adv := by
    rw [storeScalar_reaches hs h, State.storeScalar, if_pos hmem, if_pos hap]
  rw [hrel] at hexec ⊢
  generalize s1.releaseIf s1.here (touches l.pa n) = r at hperf hbytes hexec
  have hown := write_own_memoryOnly r (a := r.self .ls) (by simp [Agent.ownOf, State.self]) l.lay l.pa (leBytes n (xOf s rs).toNat)
  have hscu : r.laneSel = none := (congrArg State.laneSel hperf.2.1.1).trans (h.inScu hs)
  have hstored := write_stored hbytes (r.self .ls) l.lay (pa := l.pa) (bs := leBytes n (xOf s rs).toNat) (inOne_of_line (by omega))
  rw [hraw] at hstored
  exact ⟨hperf, _, hown, hstored, hexec.trans (congrArg Host.Outcome.next (adv_eq_next (hown.laneSel.trans hscu)))⟩

end

/-- Settles O8: a store that is not held is one write of memory; one that is held is merged into a line or makes a new one; one through
the device aperture comes after the lines that touch its bytes. -/
theorem scalarStores : Obligations.ScalarStores := by
  unfold Obligations.ScalarStores
  intro p hp s s1 rs ra b l hs hok hr hmem
  obtain ⟨hsize, hexec⟩ := storeRows_exec hp
  rw [hexec]
  exact ⟨fun hdet hap _ => store_performed hs hsize hr hmem hok hdet hap,
    fun hdet hap hl hroom => store_held hs hsize hr hmem hdet hap hl hroom,
    fun hap hl => store_device hs hsize hr hmem hok hap hl⟩

end Sys2Proof.Machine
end

