-- ==== Sys2Proof/Proofs/Atomics.lean ====
section
/-! Atomics (R114, R219, R270; O10). -/

namespace Sys2Proof.Machine

/-- What an atomic that reaches its bytes does. -/
theorem amoRows_exec {p : (AmoOp → Instr) × (Word → Word → Word → Option Word)} (hp : p ∈ amoRows) (o : AmoOp) {s : State}
    (hs : InScu s) : exec (p.1 o) s = atomic (fun old => p.2 old (xOf s o.rb) (xOf s o.rd)) o s := by
  rw [← rx_eq_xOf hs, ← rx_eq_xOf hs]
  simp only [amoRows, List.mem_cons, List.not_mem_nil, or_false] at hp
  rcases hp with rfl | rfl | rfl | rfl | rfl | rfl | rfl | rfl
  · change execAmoAdd o s = _
    simp only [execAmoAdd, add_eq_word]
  · rfl
  · rfl
  · rfl
  · change execAmoMin o s = _
    simp only [execAmoMin, minS_eq_word]
  · change execAmoMax o s = _
    simp only [execAmoMax, maxS_eq_word]
  · rfl
  · rfl

theorem actsAtPackage_iff (sc : Scope) : actsAtPackage sc = true ↔ sc ∈ actsWhole := by cases sc <;> decide

/-- Raw reads find the stores that a release performs at a scope that holds the package (R219, R313). -/
theorem performedFor_eq (s : State) (o : AmoOp) : s.performedFor o =
    if o.order = .rel ∨ o.order = .acqrel then performedAt s actsWhole o.scope [.ls] else s := by
  have hfind : s.encoded s.here (· == .ls) = rawFinds s s.here [.ls] := by
    have hpred (e : Nat × Unencoded) : (!e.2.writers.any fun w => w.1 == s.here && w.2 == .ls) =
        decide (∀ w ∈ e.2.writers, w.1 ≠ s.here ∨ w.2 ∉ [Cls.ls]) := by
      rw [Bool.eq_iff_iff, decide_eq_true_eq, Bool.not_eq_true', List.any_eq_false]
      refine forall₂_congr fun w _ => ?_
      simp [imp_iff_not_or]
    unfold State.encoded rawFinds
    simp only [hpred]
  unfold State.performedFor performedAt
  rw [hfind]
  by_cases ho : o.order = .rel ∨ o.order = .acqrel
  · by_cases hsc : actsAtPackage o.scope = true
    · rw [if_pos ⟨ho, hsc⟩, if_pos ho, if_pos ((actsAtPackage_iff _).1 hsc)]
    · rw [if_neg fun h => hsc h.2, if_pos ho, if_neg (mt (actsAtPackage_iff _).2 hsc)]
  · rw [if_neg fun h => ho h.1, if_neg ho]

theorem performedAt_bytesOk {s : State} (hs : BytesOk s) (scs : List Scope) (sc : Scope) (cs : List Cls) :
    BytesOk (performedAt s scs sc cs) := by
  unfold performedAt
  split
  · obtain ⟨hm, ht, hu⟩ := bytesOk_iff.1 hs
    exact bytesOk_iff.2 ⟨hm, ht, tabWf_filter _ hu⟩
  · exact hs

theorem performedAt_c (s : State) (scs : List Scope) (sc : Scope) (cs : List Cls) : (performedAt s scs sc cs).c = s.c := by
  unfold performedAt
  split <;> rfl

theorem performedAt_laneSel (s : State) (scs : List Scope) (sc : Scope) (cs : List Cls) : (performedAt s scs sc cs).laneSel = s.laneSel := by
  unfold performedAt
  split <;> rfl

theorem releaseFor_eq (s : State) (o : Order) (pa : Nat) : s.releaseFor o pa = s.releaseIf s.here (letsGo o pa) := by
  have htouch : s.releaseBytes s.here pa 8 = s.releaseIf s.here (touches pa 8) :=
    congrArg (s.releaseIf s.here) (funext fun l => (Bool.decide_and _ _).symm)
  cases o with
  | rel | acqrel => rfl
  | rlx | acq => exact htouch

/-- No line that stays held has a byte of the atomic's. -/
theorem letsGo_of_touches {o : Order} {pa : Nat} {l : HeldLine} (h : letsGo o pa l = false) : touches pa 8 l = false := by
  cases o with
  | rel | acqrel => cases h
  | rlx | acq => exact h

/-- What an atomic that reaches its bytes gives, and the state it leaves before its result is written. -/
theorem atomic_gives {s s1 s2 : State} (hs : InScu s) {o : AmoOp} {l : Leaf} (f : Word → Option Word)
    (h : Reaches s s1 (xOf s o.ra) 8 Need.both .atomic l)
    (hread : ((s1.releaseFor o.order l.pa).performedFor o).checkRead l.lay l.pa 8 = (s2, none)) (h2 : InScu s2) :
    let old : Word := BitVec.ofNat 64 (leNat (s2.ownBytes .ls l 8))
    match f old with
    | some v => Gives (atomic f o s) (s2.write (s2.self .ls) l.lay l.pa (leBytes 8 v.toNat)) o.rd old
    | none => Gives (atomic f o s) s2 o.rd old := by
  intro old
  have hcarry (t : State) (ht : ExceptT.run (match f old with
        | some v => do
          modify fun t => t.write (t.self .ls) l.lay l.pa (leBytes 8 v.toNat)
          modify fun t => (t.wx o.rd old).adv
        | none => modify fun t => (t.wx o.rd old).adv : Act Unit) s2 = (.ok (), t)) : atomic f o s = .next t := by
    unfold atomic
    rw [rx_eq_xOf hs]
    refine congrArg Host.Outcome.next (h.carry ?_)
    have hmod : ExceptT.run (modify fun t => (t.releaseFor o.order l.pa).performedFor o : Act Unit) s1 =
        (.ok (), (s1.releaseFor o.order l.pa).performedFor o) := rfl
    rw [run_bind_ok hmod, run_bind_ok (readOwn_run hread)]
    exact ht
  cases hf : f old with
  | none =>
    rw [hcarry (s2.wx o.rd old).adv (by rw [hf]; rfl)]
    exact put_gives h2 o.rd rfl
  | some v =>
    have hown := write_own_memoryOnly s2 (a := s2.self .ls) (by simp [Agent.ownOf, State.self]) l.lay l.pa (leBytes 8 v.toNat)
    rw [hcarry ((s2.write (s2.self .ls) l.lay l.pa (leBytes 8 v.toNat)).wx o.rd old).adv (by rw [hf]; rfl)]
    exact put_gives (hown.laneSel.trans h2) o.rd rfl

/-- An atomic that reaches its bytes, after the held stores that it lets go. -/
theorem atomic_reaches {s s1 s2 : State} (hs : InScu s) (hok : BytesOk s) (hl : PlainLines s.c) {o : AmoOp} {l : Leaf}
    (f : Word → Option Word) (h : Reaches s s1 (xOf s o.ra) 8 Need.both .atomic l) :
    let r := s1.releaseFor o.order l.pa
    let q := if o.order = .rel ∨ o.order = .acqrel then performedAt r actsWhole o.scope [.ls] else r
    Performed s1 r (letsGo o.order l.pa) ∧ (q.checkRead l.lay l.pa 8 = (s2, none) →
      let old : Word := BitVec.ofNat 64 (leNat (s2.bytesAt false l.pa 8))
      match f old with
      | some v => ∃ u, MemoryOnly s2 u ∧ Stored s2 u false l.pa (leBytes 8 v.toNat) ∧ Gives (atomic f o s) u o.rd old
      | none => Gives (atomic f o s) s2 o.rd old) := by
  intro r q
  obtain ⟨hperf, hrok⟩ := releaseIf_performed (h.bytesOk hok) (h.memStep.c ▸ hl) (letsGo o.order l.pa)
  have hrel : r = s1.releaseIf s1.here (letsGo o.order l.pa) := releaseFor_eq s1 o.order l.pa
  have hq : q = r.performedFor o := (performedFor_eq r o).symm
  rw [← hrel] at hperf hrok
  refine ⟨hperf, fun hread => ?_⟩
  have hline := h.inLine (.inr (.inr (.inr rfl)))
  have hraw : l.lay.raw = false := h.leafOf.raw.trans (by rw [translate_atomic h.2.1]; rfl)
  have hrscu : r.laneSel = none := (congrArg State.laneSel hperf.2.1.1).trans (h.inScu hs)
  have hqscu : q.laneSel = none := by
    change (if _ then _ else _ : State).laneSel = none
    split
    · exact (performedAt_laneSel _ _ _ _).trans hrscu
    · exact hrscu
  have hqok : BytesOk q := by
    change BytesOk (if _ then _ else _)
    split
    · exact performedAt_bytesOk hrok _ _ _
    · exact hrok
  have hqlines : q.c.lines = s1.c.lines.filter fun l' => !letsGo o.order l.pa l' := by
    have hrlines : r.c.lines = s1.c.lines.filter fun l' => !letsGo o.order l.pa l' := congrArg Ctx.lines hperf.1
    change (if _ then _ else _ : State).c.lines = _
    split
    · rw [performedAt_c]
      exact hrlines
    · exact hrlines
  have hstep := checkRead_memStep hread
  have h2ok : BytesOk s2 := hstep.bytesOk (checkRead_sameBytes hread) hqok
  have h2scu : InScu s2 := hstep.laneSel.trans hqscu
  have hown : s2.ownBytes .ls l 8 = s2.bytesAt false l.pa 8 := by
    have hlen := bytesAt_length_eq s2 false (pa := l.pa) (n := 8) (by omega)
    change overlay s2.c.lines l.pa (s2.bytesAt l.lay.raw l.pa 8) = _
    rw [hraw, hstep.c, hqlines]
    refine overlay_of_none fun l' hl' => ?_
    rw [hlen]
    exact letsGo_of_touches (by simpa using (List.mem_filter.1 hl').2)
  rw [hq] at hread
  have hgives := atomic_gives hs f h hread h2scu
  rw [hown] at hgives
  intro old
  cases hf : f old with
  | none =>
    dsimp only at hgives
    rw [hf] at hgives
    exact hgives
  | some v =>
    dsimp only at hgives
    rw [hf] at hgives
    have hmem := write_own_memoryOnly s2 (a := s2.self .ls) (by simp [Agent.ownOf, State.self]) l.lay l.pa (leBytes 8 v.toNat)
    have hstored := write_stored h2ok (s2.self .ls) l.lay (pa := l.pa) (bs := leBytes 8 v.toNat)
      (inOne_of_line (by rw [leBytes_length]; omega))
    rw [hraw] at hstored
    exact ⟨_, hmem, hstored, hgives⟩

/-- Settles O10: the held stores an atomic lets go are performed, none that stays has a byte of its eight, so it reads memory and writes
there; a misaligned access is caught before it translates. -/
theorem atomics : Obligations.Atomics := by
  unfold Obligations.Atomics
  refine ⟨fun p hp s s1 s2 o l hs hok hl hr => ?_, fun s rd ra b o hs => ⟨fun p hp hmis => ?_, fun p hp hmis => ?_, fun p hp hmis => ?_⟩⟩
  · rw [amoRows_exec hp o hs]
    exact atomic_reaches hs hok hl (fun old => p.2 old (xOf s o.rb) (xOf s o.rd)) hr
  · rw [(loadRows_exec hp).2, loadScalar, rx_eq_xOf hs, xsrc_eq_bOf hs]
    exact congrArg Host.Outcome.next (carry_misaligned hmis _ _ _)
  · rw [(storeRows_exec hp).2, storeScalar, rx_eq_xOf hs, xsrc_eq_bOf hs]
    exact congrArg Host.Outcome.next (carry_misaligned hmis _ _ _)
  · rw [amoRows_exec hp o hs, atomic, rx_eq_xOf hs]
    exact congrArg Host.Outcome.next (carry_misaligned hmis _ _ _)

end Sys2Proof.Machine
end

