-- ==== Sys2Proof/Proofs/TrapEntry.lean ====
section
/-! What taking a trap leaves: the trap registers, and the two device writes of memory (R109, R224, R226; O14). -/

namespace Sys2Proof.Machine

/-! The trap registers (R109, R226). -/

/-- Every result still on its way has arrived (R109). -/
theorem flush_eq (s : State) : s.flush = s.withC { s.c with x := settledRegs s.c, pending := [] } := by
  have hx : s.c.pending.foldl (fun x p => if p.reg = 0 then x else x.set p.reg p.val) s.c.x = settledRegs s.c := by
    refine Vector.ext fun i hi => ?_
    have hfold := getElem_foldl_results (fun _ => true) s.c.pending ⟨i, hi⟩ s.c.x
    simp only [true_and, Bool.and_true, ne_eq, ite_not] at hfold
    rw [settledRegs, Vector.getElem_ofFn]
    exact hfold
  rw [State.flush, hx]
  rfl

theorem toNat_append_add {n m : Nat} (x : BitVec n) (y : BitVec m) : (x ++ y).toNat = x.toNat * 2 ^ m + y.toNat := by
  rw [BitVec.toNat_append, ← Nat.shiftLeft_add_eq_or_of_lt y.isLt, Nat.shiftLeft_eq]

/-- TINFO as one number (R226). -/
theorem tinfo_eq (a p h : Bool) (u : BitVec 3) (d : BitVec 56) :
    (1#1 ++ BitVec.ofBool a ++ u ++ BitVec.ofBool p ++ BitVec.ofBool h ++ 0#1 ++ d : BitVec 64) =
      BitVec.ofNat 64 (2 ^ 63 + a.toNat * 2 ^ 62 + u.toNat * 2 ^ 59 + p.toNat * 2 ^ 58 + h.toNat * 2 ^ 57 + d.toNat) := by
  refine BitVec.eq_of_toNat_eq ?_
  have hu := u.isLt
  have hd := d.isLt
  have ha : a.toNat ≤ 1 := Bool.toNat_le a
  have hp : p.toNat ≤ 1 := Bool.toNat_le p
  have hh : h.toNat ≤ 1 := Bool.toNat_le h
  simp only [toNat_append_add, BitVec.toNat_ofBool, BitVec.toNat_ofNat]
  omega

theorem keepPage_eq {s : State} {c : Ctx} (hh : c.hnd = s.c.hnd) (hp : c.paged = s.c.paged) (t : Trap) : c.keepPage t = pagesTaken s t := by
  unfold Ctx.keepPage pagesTaken
  rw [hh, hp]

theorem progressed_eq {s : State} {c : Ctx} {t : Trap} (h1 : c.scnt = s.c.scnt) (h2 : c.mxprog = s.c.mxprog)
    (h3 : c.plsw = s.c.plsw) (h4 : c.fmsk = t.fmsk.getD s.c.fmsk) : c.progressed t.point = atProgress s t := by
  unfold Ctx.progressed atProgress
  cases t.point <;> simp only [h1, h2, h3, h4]

/-- The context after steps 1 to 3 of R224; steps 4 to 6 write x31 and the pc. -/
theorem latch_eq (s : State) (t : Trap) :
    s.latch t = s.withC { trapped s t with x := settledRegs s.c, pc := s.c.pc } := by
  unfold State.latch trapped
  rw [flush_eq]
  dsimp only [State.withC]
  have hk := keepPage_eq (s := s) (c := { s.c with x := settledRegs s.c, pending := [] }) rfl rfl t
  rw [tinfo_eq, hk, progressed_eq (s := s)]
  all_goals dsimp only

/-- Another context in hand, on both sides. -/
theorem MemoryOnly.withC {s t : State} (h : MemoryOnly s t) (c : Ctx) : MemoryOnly (s.withC c) (t.withC c) := by
  obtain ⟨h1, h2⟩ := h
  exact ⟨by rw [h1]; rfl, h2⟩

/-! A device write, page by page (R224). -/

/-- Bytes of one page stand in memory of one kind. -/
theorem inOne_of_page {pa n : Nat} (h : pa % 2 ^ 16 + n ≤ 2 ^ 16) : InOne pa n := by
  intro k hk
  have e : Config.hbmBytes = 0xC000000000 := rfl
  simp only [inHbm, e, decide_eq_decide]
  omega

/-- One page of a device write. -/
theorem deviceWrite_page {s s1 : State} (hs : BytesOk s) {va : Nat} {l : Leaf} {bs : List Byte}
    (h : s.translate s.view va Need.write .plain = (s1, .ok l)) (hn : va % 2 ^ 16 + bs.length ≤ 2 ^ 16) :
    StoredAt s1 (s1.write { s1.self .ls with assay := none } l.lay l.pa bs) l bs ∧
      BytesOk (s1.write { s1.self .ls with assay := none } l.lay l.pa bs) := by
  have h1 := translate_bytesOk hs h
  have hpage := (translate_leafOf h).page
  exact ⟨⟨write_own_memoryOnly s1 (by simp [Agent.ownOf, State.self]) _ _ _, write_stored h1 _ _ (inOne_of_page (by omega))⟩,
    write_bytesOk h1 _ _ _ _⟩

theorem translate_memoryOnly {s t : State} {v : View} {va : Nat} {n : Need} {ap : Ap} {r : Except Miss Leaf}
    (h : s.translate v va n ap = (t, r)) : MemoryOnly s t := (translate_memStep h).memoryOnly

/-- A page of a device write that goes through. -/
theorem devWrite_step {s t : State} {f : Nat} {va : Word} {bs : List Byte} (h0 : bs ≠ []) (h : s.devWrite (f + 1) va bs = (t, none)) :
    ∃ s1 l, s.translate s.view va.toNat Need.write .plain = (s1, .ok l) ∧
      (s1.write { s1.self .ls with assay := none } l.lay l.pa (bs.take (2 ^ 16 - va.toNat % 2 ^ 16))).devWrite f
        (va + BitVec.ofNat 64 (2 ^ 16 - va.toNat % 2 ^ 16)) (bs.drop (2 ^ 16 - va.toNat % 2 ^ 16)) = (t, none) := by
  rw [State.devWrite, if_neg h0] at h
  dsimp only at h
  split at h
  · cases h
  · rename_i s1 l htr
    exact ⟨s1, l, htr, h⟩

/-- A device write of at most a page of bytes that goes through (R224). -/
theorem devWrite_stored {s t : State} (hs : BytesOk s) {va : Word} {bs : List Byte} (hlen : bs.length ≤ 2 ^ 16)
    (h : s.devWrite 2 va bs = (t, none)) : DeviceStored s t va bs ∧ MemoryOnly s t ∧ BytesOk t := by
  by_cases h0 : bs = []
  · subst h0
    obtain rfl : s = t := (Prod.mk.inj h).1
    exact ⟨.inl ⟨rfl, rfl⟩, .refl s, hs⟩
  · have hm : 0 < 2 ^ 16 - va.toNat % 2 ^ 16 := by omega
    obtain ⟨s1, l, htr, hrest⟩ := devWrite_step h0 h
    obtain ⟨hst, hok⟩ := deviceWrite_page (bs := bs.take (2 ^ 16 - va.toNat % 2 ^ 16)) hs htr (by rw [List.length_take]; omega)
    generalize hm' : 2 ^ 16 - va.toNat % 2 ^ 16 = m at hrest hst hok hm
    generalize s1.write { s1.self .ls with assay := none } l.lay l.pa (bs.take m) = t1 at hrest hst hok
    have hmem : MemoryOnly s t1 := (translate_memoryOnly htr).trans hst.1
    by_cases hle : bs.length ≤ m
    · rw [List.drop_eq_nil_of_le hle, State.devWrite, if_pos rfl] at hrest
      obtain rfl : t1 = t := (Prod.mk.inj hrest).1
      exact ⟨.inr ⟨s1, t1, l, htr, by rw [hm']; exact hst, .inl ⟨by rw [hm']; exact hle, rfl⟩⟩, hmem, hok⟩
    · have hne : bs.drop m ≠ [] := fun he => hle (List.drop_eq_nil_iff.1 he)
      have hva : (va + BitVec.ofNat 64 m).toNat % 2 ^ 16 = 0 := by
        rw [BitVec.toNat_add, BitVec.toNat_ofNat]
        omega
      obtain ⟨s2, k, htr2, hlast⟩ := devWrite_step hne hrest
      have hdrop : (bs.drop m).length ≤ 2 ^ 16 := by rw [List.length_drop]; omega
      rw [hva, Nat.sub_zero, List.take_of_length_le hdrop, State.devWrite] at hlast
      obtain ⟨hst2, hok2⟩ := deviceWrite_page (bs := bs.drop m) hok htr2 (by omega)
      obtain rfl := (Prod.mk.inj hlast).1
      exact ⟨.inr ⟨s1, t1, l, htr, by rw [hm']; exact hst,
        .inr ⟨by rw [hm']; omega, s2, k, by rw [hm']; exact htr2, by rw [hm']; exact hst2⟩⟩,
        (hmem.trans (translate_memoryOnly htr2)).trans hst2.1, hok2⟩

/-! Entry (R224). -/

/-- Steps 4 to 6 of R224, where they succeed. -/
theorem enter_of_handler {s s2 s4 u : State} {t : Trap} {l : Leaf} (hc2 : s2.c = (s.latch t).c) (h : Handler s t s2 s4 u l)
    (hc4 : s4.c = (s2.wx 31 (stackTop s - 8)).c) (hhere : s4.here = s.here) : s.enter t = u := by
  obtain ⟨-, hw1, hw2, s6, htr, hread⟩ := h
  have hlatch := latch_eq s t
  have hsp : (s.latch t).c.tsp = s.c.tsp := by rw [hlatch]; dsimp only [State.withC, trapped]
  have hx31 : (s.latch t).c.x[31] = (settledRegs s.c)[31] := by rw [hlatch]; dsimp only [State.withC]
  have hwx : s2.wx 31 (stackTop s - 8) = s2.withC { s2.c with
      x := s2.c.x.set 31 (stackTop s - 8), pending := s2.c.pending.filter fun p => p.reg != 31 } := rfl
  have htvec : s4.c.tvec = s.c.tvec := by rw [hc4, hwx, hc2, hlatch]; dsimp only [State.withC, trapped]
  have hroot : s4.c.ptroot = s.c.ptroot := by rw [hc4, hwx, hc2, hlatch]; dsimp only [State.withC, trapped]
  have hview : (s4.goto (s.c.tvec &&& ~~~7#64)).view = s.view := by
    change (⟨some s4.here, pkgOf s4.here, s4.c.ptroot⟩ : View) = ⟨some s.here, pkgOf s.here, s.c.ptroot⟩
    rw [hhere, hroot]
  unfold State.enter
  dsimp only
  rw [hsp, hx31, ← show stackTop s = s.c.tsp &&& ~~~15#64 from rfl, hw1]
  dsimp only
  rw [hw2]
  dsimp only
  rw [htvec, hview, htr]
  dsimp only
  rw [hread]

theorem withC_withC (s : State) (c d : Ctx) : (s.withC c).withC d = s.withC d := rfl

theorem withC_self (s : State) : s.withC s.c = s := rfl

theorem wx_withC (s : State) (r : XReg) (v : Word) (c : Ctx) : (s.wx r v).withC c = s.withC c := by
  unfold State.wx
  split <;> rfl

theorem goto_withC (s : State) (pc : Word) (c : Ctx) : (s.goto pc).withC c = s.withC c := rfl

theorem BytesOk.withC {s : State} (h : BytesOk s) (c : Ctx) : BytesOk (s.withC c) := h

/-- The state before the handler's first instruction is fetched, and the fetch (R224). -/
theorem handler_steps {s s2 s4 u : State} {t : Trap} {l : Leaf} (hs : BytesOk s) (hlen : t.record.length ≤ 2 ^ 16)
    (h : Handler s t s2 s4 u l) :
    (DeviceStored (s.latch t) s2 (stackTop s - 8) (leBytes 8 ((settledRegs s.c)[31]).toNat) ∧ MemoryOnly (s.latch t) s2) ∧
    (DeviceStored (s2.wx 31 (stackTop s - 8)) s4 (stackTop s) t.record ∧ MemoryOnly (s2.wx 31 (stackTop s - 8)) s4) ∧
    MemoryOnly (s4.goto (s.c.tvec &&& ~~~7#64)) u ∧ ∀ a, ¬ (l.entry ≤ a ∧ a < l.entry + 8) → byteAt u a = byteAt s4 a := by
  obtain ⟨-, hw1, hw2, s6, htr, hread⟩ := h
  have hlatch : BytesOk (s.latch t) := by
    rw [latch_eq]
    exact hs.withC _
  obtain ⟨hd1, hm1, hok1⟩ := devWrite_stored hlatch (by rw [leBytes_length]; decide) hw1
  have hwx : BytesOk (s2.wx 31 (stackTop s - 8)) := hok1.withC _
  obtain ⟨hd2, hm2, hok2⟩ := devWrite_stored hwx hlen hw2
  have hgoto : BytesOk (s4.goto (s.c.tvec &&& ~~~7#64)) := hok2.withC _
  refine ⟨⟨hd1, hm1⟩, ⟨hd2, hm2⟩, (translate_memoryOnly htr).trans (checkRead_memStep hread).memoryOnly, fun a ha => ?_⟩
  rw [(checkRead_sameBytes hread).byteAt, translate_byteAt ⟨hgoto.1, hgoto.2.1⟩ htr ha]
  exact byteAt_withC s4 _ a

/-- The context that entry leaves: x31 and the pc come last (R224). -/
theorem entered_c (s : State) (t : Trap) (c : Ctx) (hc : c = (s.latch t).c) :
    { c with x := c.x.set 31 (stackTop s - 8), pending := c.pending.filter fun p => p.reg != 31, pc := s.c.tvec &&& ~~~7#64 } =
      trapped s t := by
  rw [hc, latch_eq]
  dsimp only [State.withC, trapped, List.filter_nil]

/-- Settles O14: the trap registers are latched, then x31 and the record are stored by device writes of at most two pages, and the fetch
marks its leaf alone. -/
theorem trapEntryState : Obligations.TrapEntryState := by
  unfold Obligations.TrapEntryState
  intro s s2 s4 u t l hscu hs hrec h
  obtain ⟨⟨hd1, hm1⟩, ⟨hd2, hm2⟩, hm3, hbytes⟩ := handler_steps hs (hrec.trans (by decide)) h
  have henter := enter_of_handler hm1.c h hm2.c (by
    rw [hm2.here]
    change s2.here = s.here
    rw [hm1.here, latch_eq]
    simp only [State.withC])
  have hraise : s.raise t = s.enter t := by
    have hbusy : s.busy = false := h.1
    have hsel : s.laneSel = none := hscu
    simp only [State.raise, hsel, hbusy, Bool.false_eq_true, if_false]
  have huc : u.c = trapped s t := by
    rw [hm3.c, State.goto_c, hm2.c, ← entered_c s t s2.c hm1.c]
    rfl
  have hmem : MemoryOnly s (u.withC s.c) := by
    have h1 := hm1.withC s.c
    have h2 := hm2.withC s.c
    have h3 := hm3.withC s.c
    rw [latch_eq, withC_withC, withC_self] at h1
    rw [wx_withC] at h2
    rw [goto_withC] at h3
    exact (h1.trans h2).trans h3
  exact ⟨hraise.trans henter, ⟨huc, hmem⟩, hd1, hd2, hbytes⟩

end Sys2Proof.Machine
end

