-- ==== Sys2Proof/Proofs/TaskEnds.lean ====
section
/-! nop, wfe, halt and the end of a task (R100, R107, R131, R132, R212; O19). -/

namespace Sys2Proof.Machine

/-! halt (R132). -/

/-- Only the matrix state changes, and its owner. -/
theorem matrixOff_eq (u : State) : (if u.c.mxen then u.matrixOff else u) = { u with
    c := { u.c with mxen := false, mxprog := if u.c.mxen ∧ u.c.hnd = false then 0 else u.c.mxprog }
    k := if u.c.mxen = true ∧ u.k.owner = some (Fin.ofNat 4 u.here) then { u.k with owner := none } else u.k } := by
  cases hm : u.c.mxen with
  | false =>
    have hc : u.c = { u.c with mxen := false } := by rw [← hm]
    simp only [Bool.false_eq_true, if_false, false_and]
    rw [← hc]
  | true =>
    have howns : ∀ c : Ctx, (u.withC c).owns = true ↔ u.k.owner = some (Fin.ofNat 4 u.here) := fun c => beq_iff_eq
    have hprog : (if u.c.hnd = true then u.c.mxprog else 0) = if u.c.hnd = false then 0 else u.c.mxprog := by
      cases u.c.hnd <;> rfl
    rw [if_pos rfl]
    simp only [true_and]
    rw [← hprog]
    by_cases ho : u.k.owner = some (Fin.ofNat 4 u.here)
    · rw [if_pos ho]
      exact if_pos ((howns _).2 ho)
    · rw [if_neg ho]
      exact if_neg (mt (howns _).1 ho)

/-- The held stores of a context that holds none. -/
theorem releaseAll_of_none {u : State} (h : u.c.lines = []) : u.releaseAll u.here = u := by
  have hown : (u.ctxAt u.here).lines = [] := (congrArg Ctx.lines (if_pos rfl : u.ctxAt u.here = u.c)).trans h
  rw [State.releaseAll, State.releaseIf, hown, onCtx_self]
  have hc : { u.c with lines := [] } = u.c := by rw [← h]
  exact (congrArg u.withC hc).trans rfl

theorem execHalt_of_drained {s : State} (h : Drained s [.vq, .lq, .mq, .aq]) :
    let u := if (s.dropLanes s.here).c.mxen then (s.dropLanes s.here).matrixOff else s.dropLanes s.here
    exec .halt s = .next ((u.releaseAll u.here).withC { (u.releaseAll u.here).c with status := .drain }).adv :=
  draining_of_drained h _

/-- halt of a context that neither borrows lanes nor holds stores. -/
theorem halt_of_own {s : State} (hs : InScu s) (hd : Drained s [.vq, .lq, .mq, .aq]) (hb : ¬ Borrows s.c) (hl : s.c.lines = []) :
    exec .halt s = .next (next { s with
      c := { released s.c with status := .drain, mxen := false, mxprog := if s.c.mxen ∧ s.c.hnd = false then 0 else s.c.mxprog }
      k := if s.c.mxen = true ∧ s.k.owner = some (Fin.ofNat 4 s.here) then { s.k with owner := none } else s.k }) := by
  have hexec := execHalt_of_drained hd
  rw [dropLanes_of_own hb, matrixOff_eq] at hexec
  dsimp only at hexec
  rw [releaseAll_of_none (by exact hl), adv_eq_next (by exact hs)] at hexec
  exact hexec

/-- What halt leaves before it performs the held stores: the lanes let go, the matrix state off. -/
def halting (s : State) (T : Tab Ctx) : State :=
  { (if s.c.lanesHeld ≠ 0 ∧ s.c.lanesBack = false then s.onDie s.die fun x => { x with out := x.out.map (loosed s.here) } else s) with
    ctxs := T
    c := { released s.c with
      lanesBack := s.c.lanesBack || s.c.lanesHeld != 0, mxen := false, mxprog := if s.c.mxen ∧ s.c.hnd = false then 0 else s.c.mxprog }
    k := if s.c.mxen = true ∧ s.k.owner = some (Fin.ofNat 4 s.here) then { s.k with owner := none } else s.k }

theorem halting_eq {s : State} (hw : tabWf Ctx.reset s.ctxs = true) : ∃ T,
    (if (s.dropLanes s.here).c.mxen then (s.dropLanes s.here).matrixOff else s.dropLanes s.here) = halting s T ∧
      ∀ g, g ≠ s.here → ({ s with ctxs := T } : State).ctxAt g =
        if s.c.lanesHeld ≠ 0 ∧ s.c.lanesBack = false then lifted s.here g (s.ctxAt g) else s.ctxAt g := by
  by_cases hb : Borrows s.c
  · obtain ⟨T, hT, hat⟩ := dropLanes_of_borrowed hb hw
    refine ⟨T, ?_, fun g hg => (hat g hg).trans (if_pos hb).symm⟩
    have hback : (s.c.lanesBack || s.c.lanesHeld != 0) = true := by rw [bne_iff_ne.2 hb.1, Bool.or_true]
    rw [matrixOff_eq, hT, halting, if_pos (show s.c.lanesHeld ≠ 0 ∧ s.c.lanesBack = false from hb), hback]
    rfl
  · refine ⟨s.ctxs, ?_, fun g _ => (if_neg hb).symm⟩
    have hback : (s.c.lanesBack || s.c.lanesHeld != 0) = s.c.lanesBack := by
      by_cases h0 : s.c.lanesHeld = 0
      · rw [h0]
        simp
      · have hback : s.c.lanesBack = true := by
          by_contra hf
          exact hb ⟨h0, eq_false_of_ne_true hf⟩
        rw [hback]
        rfl
    rw [matrixOff_eq, dropLanes_of_own hb, halting, if_neg (show ¬ (s.c.lanesHeld ≠ 0 ∧ s.c.lanesBack = false) from hb), hback]
    rfl

/-- What a step that changes memory alone leaves. -/
theorem MemoryOnly.fields {s t : State} (h : MemoryOnly s t) : ∃ ctxs mem tags unencoded bad chans assay pkgs,
    t = { s with ctxs := ctxs, mem := mem, tags := tags, unencoded := unencoded, bad := bad, chans := chans, assay := assay, pkgs := pkgs } :=
  ⟨_, _, _, _, _, _, _, _, h.1⟩

/-- halt performs the held stores, oldest first. -/
theorem halt_performs {s : State} (hs : InScu s) (hd : Drained s [.vq, .lq, .mq, .aq]) (hok : BytesOk s) (hl : PlainLines s.c)
    (hw : tabWf Ctx.reset s.ctxs = true) : ∃ t, exec .halt s = .next t ∧
      let d := if s.c.lanesHeld ≠ 0 ∧ s.c.lanesBack = false then s.onDie s.die fun x => { x with out := x.out.map (loosed s.here) } else s
      t = { d with ctxs := t.ctxs, mem := t.mem, tags := t.tags, unencoded := t.unencoded, bad := t.bad, chans := t.chans
                   assay := t.assay, pkgs := t.pkgs
                   c := { released s.c with status := .drain, lanesBack := s.c.lanesBack || s.c.lanesHeld != 0, lines := []
                                            mxen := false, pc := s.c.pc + 8
                                            mxprog := if s.c.mxen ∧ s.c.hnd = false then 0 else s.c.mxprog }
                   k := if s.c.mxen = true ∧ s.k.owner = some (Fin.ofNat 4 s.here) then { s.k with owner := none } else s.k } ∧
      (∀ a, byteAt t a = heldOver s.c.lines a (byteAt s a)) ∧
      ∀ h, h ≠ s.here → ∃ e n, t.ctxAt h =
        { (if s.c.lanesHeld ≠ 0 ∧ s.c.lanesBack = false then lifted s.here h (s.ctxAt h) else s.ctxAt h) with event := e, lost := n } := by
  obtain ⟨T, hu, hat⟩ := halting_eq hw
  have hexec := execHalt_of_drained hd
  dsimp only at hexec
  rw [hu] at hexec
  have hfield {α : Type} (f : State → α) (hf : f (s.onDie s.die fun x => { x with out := x.out.map (loosed s.here) }) = f s) :
      f (if s.c.lanesHeld ≠ 0 ∧ s.c.lanesBack = false then s.onDie s.die fun x => { x with out := x.out.map (loosed s.here) } else s) =
        f s := by
    split
    · exact hf
    · rfl
  have hhere : (halting s T).here = s.here := hfield State.here rfl
  have hscu : (halting s T).laneSel = none := (hfield State.laneSel rfl).trans hs
  have hmem : (halting s T).mem = s.mem := hfield State.mem rfl
  have htags : (halting s T).tags = s.tags := hfield State.tags rfl
  have hunenc : (halting s T).unencoded = s.unencoded := hfield State.unencoded rfl
  have huok : BytesOk (halting s T) := by
    obtain ⟨hm, htags', hle, hun⟩ := hok
    exact ⟨by rw [State.MemOk, hmem]; exact hm, by rw [htags]; exact htags', fun line => by rw [State.tagOf, htags]; exact hle line,
      by rw [hunenc]; exact hun⟩
  obtain ⟨⟨hc, hmo, hbytes⟩, -⟩ := releaseIf_performed huok (by exact hl) fun _ => true
  have hnone : (halting s T).c.lines.filter (fun _ => !true) = [] := List.filter_false _
  have hall : (halting s T).c.lines.filter (fun _ => true) = s.c.lines := List.filter_true _
  rw [hnone] at hc
  rw [hall] at hbytes
  change exec .halt s = .next (((halting s T).releaseIf (halting s T).here fun _ => true).withC
    { ((halting s T).releaseIf (halting s T).here fun _ => true).c with status := .drain }).adv at hexec
  generalize (halting s T).releaseIf (halting s T).here (fun _ => true) = r at hexec hc hmo hbytes
  have hrscu : r.laneSel = none := hmo.laneSel.trans hscu
  rw [adv_eq_next (show InScu (r.withC { r.c with status := .drain }) from hrscu)] at hexec
  refine ⟨_, hexec, ?_, fun a => ?_, fun h hh => ?_⟩
  · obtain ⟨ctxs, mem, tags, unencoded, bad, chans, assay, pkgs, he⟩ := hmo.fields
    have hr : r = { halting s T with
        ctxs := ctxs, mem := mem, tags := tags, unencoded := unencoded, bad := bad, chans := chans, assay := assay, pkgs := pkgs
        c := { (halting s T).c with lines := [] } } := by
      rw [← hc]
      exact congrArg (fun t : State => t.withC r.c) he
    rw [hr]
    rfl
  · have hb : byteAt (halting s T) a = byteAt s a := byteAt_of_mem hmem htags a
    rw [← hb, ← hbytes]
    exact byteAt_withC r _ a
  · obtain ⟨e, n, hg⟩ := hmo.2 h
    have hrhere : r.here = s.here := hmo.here.trans hhere
    refine ⟨e, n, ?_⟩
    have hT : (halting s T).ctxs = T := rfl
    rw [← hat h hh, State.ctxAt, if_neg (by exact fun hx => hh (hx.trans hrhere)), State.ctxAt, if_neg hh]
    rw [hT] at hg
    exact hg

/-! The end of a task (R132, R212). -/

/-- The context in hand and the table of the others stand. -/
structure SameContexts (s t : State) : Prop where
  c : t.c = s.c
  ctxs : t.ctxs = s.ctxs

theorem SameContexts.refl (s : State) : SameContexts s s := ⟨rfl, rfl⟩

theorem SameContexts.trans {s t u : State} (h : SameContexts s t) (k : SameContexts t u) : SameContexts s u :=
  ⟨k.c.trans h.c, k.ctxs.trans h.ctxs⟩

theorem MemStep.sameContexts {s t : State} (h : MemStep s t) : SameContexts s t := ⟨h.c, h.ctxs⟩

theorem count_sameContexts (s : State) (p : Nat) (c : Count) (u n : Nat) : SameContexts s (s.count p c u n) := ⟨rfl, rfl⟩

theorem putCore_sameContexts (s : State) (n : Nat) (k : Core) : SameContexts s (s.putCore n k) := by
  unfold State.putCore
  split <;> exact ⟨rfl, rfl⟩

theorem clearBytes_sameContexts (s : State) (pa n : Nat) : SameContexts s (s.clearBytes pa n) :=
  have h := ((wake_step s Lay.plain pa n).trans (writeUnits_if_step _ Lay.plain (n / 8 + 2) pa n)).sameContexts
  ⟨h.c, h.ctxs⟩

theorem onDie_sameContexts (s : State) (n : Nat) (f : Die → Die) : SameContexts s (s.onDie n f) := ⟨rfl, rfl⟩

theorem onCluster_sameContexts (s : State) (n : Nat) (f : Cluster → Cluster) : SameContexts s (s.onCluster n f) := ⟨rfl, rfl⟩

theorem withBad_sameContexts (s : State) (b : Tab Bad) : SameContexts s { s with bad := b } := ⟨rfl, rfl⟩

theorem devPut_sameContexts (s : State) (pa : Nat) (bs : List Byte) : SameContexts s (s.devPut pa bs) := by
  unfold State.devPut
  split
  · exact (putBytes_step _ _ _ _ _).sameContexts
  · exact .refl s

theorem completionRecord_sameContexts (s : State) (die : Nat) (n : BitVec 32) (image qctx : BitVec 512) (dig fire : Word) (st : BitVec 8)
    (late : Bool) (frozen : Nat) : SameContexts s (s.completionRecord die n image qctx dig fire st late frozen) := by
  simp only [State.completionRecord]
  refine SameContexts.trans ?_ (devPut_sameContexts _ _ _)
  split
  · exact count_sameContexts _ _ _ _ _
  · exact .refl s

theorem onLaunch_sameContexts (s : State) (die q : Nat) (n : BitVec 32) (f : Launch → Launch) : SameContexts s (s.onLaunch die q n f) := by
  unfold State.onLaunch
  split
  · exact .refl s
  · simp only [State.settleLaunch]
    split
    · exact onDie_sameContexts _ _ _
    · exact (onDie_sameContexts _ _ _).trans ((onDie_sameContexts _ _ _).trans (completionRecord_sameContexts _ _ _ _ _ _ _ _ _ _))

theorem settleCore_sameContexts (s : State) (k : Nat) : SameContexts s (s.settleCore k) := by
  have counts (l : List (Fin 64)) (x : Fin 64 → Nat) : ∀ t : State,
      SameContexts t (l.foldl (fun t i => t.count (k / 512) .laneRetired (x i) 1) t) := by
    induction l with
    | nil => exact .refl
    | cons i l ih => exact fun t => (count_sameContexts t _ _ _ _).trans (ih _)
  simp only [State.settleCore]
  split
  · exact .refl s
  · refine (counts (s.coreAt k).retiring (fun l => laneKey k (s.coreAt k).phys l.val) s).trans ?_
    split
    · exact putCore_sameContexts _ _ _
    · split
      · exact (putCore_sameContexts _ _ _).trans (count_sameContexts _ _ _ _ _)
      · refine SameContexts.trans ?_ (count_sameContexts _ _ _ _ _)
        exact (putCore_sameContexts _ _ _).trans ((onCluster_sameContexts _ _ _).trans
          ((withBad_sameContexts _ _).trans (clearBytes_sameContexts _ _ _)))

/-- A task ends whose engine commands have completed and whose stores are performed. -/
theorem taskEnd_frees {s : State} (hst : s.c.status = .drain) (hcmds : s.allCmds s.here = []) (hl : s.c.lines = []) (hb : ¬ Borrows s.c) :
    ∃ t, exec .taskEnd s = .next t ∧ t.c = { Ctx.reset with gen := s.c.gen + 1, charge := s.c.charge } ∧ t.ctxs = s.ctxs := by
  have hown : s.ctxAt s.here = s.c := if_pos rfl
  have hbor : s.c.borrows = false := Bool.eq_false_iff.2 (mt (borrows_eq_true s.c).1 hb)
  have hret : s.returnLanes s.here = s := if_pos (by rw [hown, hbor]; rfl)
  have hput (c : Ctx) : s.putCtx s.here c = s.withC c := if_pos rfl
  have hexec : exec .taskEnd s = .next (s.freeCtx s.here false id) := by
    change Host.Outcome.next (if _ then _ else _) = _
    rw [if_pos ⟨hst, hcmds⟩, releaseAll_of_none hl]
  have hsame : SameContexts (s.withC { Ctx.reset with gen := s.c.gen + 1, charge := s.c.charge }) (s.freeCtx s.here false id) := by
    simp only [State.freeCtx, hret, hown, hput]
    refine SameContexts.trans ?_ (settleCore_sameContexts _ _)
    cases s.c.task with
    | none => exact .refl _
    | some t => exact onLaunch_sameContexts _ _ _ _ _
  exact ⟨_, hexec, hsame.c, hsame.ctxs⟩

/-- Settles O19: each instruction by what it waits for; halt lets lanes and matrix state go, then performs the held stores; the end of a
task changes its own context, and no other. -/
theorem waitingAndEnding : Obligations.WaitingAndEnding := by
  unfold Obligations.WaitingAndEnding
  intro s hs
  refine ⟨congrArg Host.Outcome.next (State.adv_of_scu s hs), rfl, fun hw => ?_, fun hd => draining_waits hd _,
    fun hd hb hl => halt_of_own hs hd hb hl, fun hd hok hl hw => halt_performs hs hd hok hl hw,
    fun hst hcmds hl hb => taskEnd_frees hst hcmds hl hb⟩
  refine congrArg Host.Outcome.next ((if_pos hw).trans ?_)
  exact State.adv_of_scu _ hs

end Sys2Proof.Machine
end

