-- ==== Sys2Proof/Proofs/EngineCompletion.lean ====
section
/-! The completion of an engine command (R130, R266): its clasp, its status word, the common steps, and the rows of the
classes. -/

namespace Sys2Proof.Machine

/-! The clasp and the count (R256, R258). -/

theorem arrive_oneMore (c : Clasp) : c.arrive = oneMore c := by
  have hcount : BitVec.ofNat 16 (c.arrived.toNat + 1) = c.arrived + 1 := by bv_omega
  simp only [Clasp.arrive, oneMore, hcount]

/-- The phase flips at the target alone. -/
theorem oneMore_phase (c : Clasp) : (oneMore c).phase = c.phase ↔ ¬ c.target.toNat ≤ c.arrived.toNat + 1 := by
  unfold oneMore
  split <;> simp [*]

theorem arrive_eq (s : State) (p : ClaspAt) : s.arrive p = afterArrival s p := by
  simp only [State.arrive, arrive_oneMore, oneMore_phase, ite_not]
  cases p with
  | cluster k i => exact ite_self _
  | die d i => simp only [afterArrival, State.flipReplica, Bool.and_eq_true, beq_iff_eq]

theorem claspStep_eq (s : State) (c : Cmd) : (match c.clasp with
    | some p => s.arrive p
    | none => s) = claspStep s c := by
  simp only [Cmd.clasp, claspStep, ← arrive_eq]
  split_ifs <;> rfl

/-- Steps 2 to 5 of R266. -/
theorem complete_eq (s : State) (cls : Cls) (c : Cmd) (sta : Nat) (r : Result) : s.complete cls c sta r =
    letGo (countStep (claspStep (State.writeStatus (r.marks.foldl (fun u m => u.onCluster (m.1 / 2048) fun x => { x with
      hall := tabSet 0 x.hall (m.1 % 2048) m.2 }) s) cls c sta r.word) c) cls c) cls c := by
  rw [← claspStep_eq]
  rfl

/-! Bytes put at a run of places. -/

theorem putAt_append {p q : List Nat} {bs cs : List Byte} (h : p.length = bs.length) (f : Nat → Byte) :
    putAt (p ++ q) (bs ++ cs) f = putAt q cs (putAt p bs f) := by
  rw [putAt, List.zip_append h, List.foldl_append]
  rfl

/-- At places in a row the bytes read back in order. -/
theorem putAt_run (bs : List Byte) : ∀ (pa : Nat) (f : Nat → Byte) (a : Nat), putAt ((List.range bs.length).map (pa + ·)) bs f a =
    if pa ≤ a ∧ a < pa + bs.length then bs.getD (a - pa) 0 else f a := by
  induction bs with
  | nil =>
    intro pa f a
    rw [if_neg (by simp only [List.length_nil]; omega)]
    rfl
  | cons b bs ih =>
    intro pa f a
    have hplaces : (List.range (b :: bs).length).map (pa + ·) = pa :: (List.range bs.length).map (pa + 1 + ·) := by
      rw [List.length_cons, List.range_succ_eq_map, List.map_cons, List.map_map]
      exact congrArg _ (List.map_congr_left fun j _ => by simp only [Function.comp_apply]; omega)
    rw [hplaces]
    refine (ih (pa + 1) _ a).trans ?_
    simp only [List.length_cons]
    by_cases h1 : pa + 1 ≤ a ∧ a < pa + 1 + bs.length
    · rw [if_pos h1, if_pos (by omega), show a - pa = a - (pa + 1) + 1 by omega, List.getD_cons_succ]
    · by_cases h2 : a = pa
      · rw [if_neg h1, if_pos h2, if_pos (by omega), h2, Nat.sub_self, List.getD_cons_zero]
      · rw [if_neg h1, if_neg h2, if_neg (by omega)]

/-! Where a command's bytes stand (R195, R367). -/

/-- A local window keeps the order of the bytes of a granule of 64 KiB (R367). -/
theorem resolve_add (ctx : Option Nat) {pa j : Nat} (h : pa % 2 ^ 16 + j < 2 ^ 16) : resolve ctx (pa + j) = resolve ctx pa + j := by
  cases ctx with
  | none => rfl
  | some g =>
    have h1 : (pa + j) / 2 ^ 46 = pa / 2 ^ 46 := by omega
    have h2 : (pa + j) % 2 ^ 46 / 2 ^ 40 = pa % 2 ^ 46 / 2 ^ 40 := by omega
    have h3 : (pa + j) % 2 ^ 46 % 2 ^ 40 = pa % 2 ^ 46 % 2 ^ 40 + j := by omega
    unfold resolve
    simp only [h1, h2, h3]
    have h4 : pa % 2 ^ 46 % 2 ^ 40 % 2 ^ 16 + j < 2 ^ 16 := by omega
    generalize pa % 2 ^ 46 % 2 ^ 40 = o at h4
    split_ifs <;> omega

theorem withChans_byteAt (s : State) (cs : Tab Chan) (a : Nat) : byteAt { s with chans := cs } a = byteAt s a := by
  simp only [byteAt, withChans_bytesAt]

theorem withChans_memoryOnly (s : State) (cs : Tab Chan) : MemoryOnly s { s with chans := cs } := ⟨rfl, fun _ => ⟨_, _, rfl⟩⟩

/-- The power states of pseudo-channels have no part in what an engine meets. -/
theorem withChans_engSame {s : State} (h : EngQuiet s) (W : Nat → Prop) (cs : Tab Chan) : EngSame s { s with chans := cs } W := by
  obtain ⟨_, hbytes, _, hwatch⟩ := h
  exact ⟨rfl, hwatch, hbytes, fun a _ => withChans_byteAt s cs a⟩

/-- What an engine reaches has a leaf. -/
theorem engAt_walk {s u : State} {c : Cmd} {n : Need} {va : Nat} {l : Leaf} (hb : s.bad = []) (h : (engAt c false va n).run s = (.ok l, u)) :
    ∃ l0, s.walk (pkgOf c.ctx) c.root (va % 2 ^ 72) = .ok l0 := by
  rw [engAt_eq] at h
  cases hw : s.walk (pkgOf c.ctx) c.root (va % 2 ^ 72) with
  | ok l0 => exact ⟨l0, rfl⟩
  | error e =>
    obtain ⟨cs, hread⟩ := readWalk_chans s hb c.view (va % 2 ^ 72)
    have htr : s.translate c.view (va % 2 ^ 72) n .plain = ({ s with chans := cs }, .error e) := by
      have hw' : ({ s with chans := cs }).walk c.view.pkg c.view.root (va % 2 ^ 72) = .error e := (withChans_walk _ _ _ _ _).trans hw
      simp only [State.translate, hread, hw']
    rw [htr] at h
    cases e <;> cases h

theorem EngMapped.walk {s : State} {W : Nat → Prop} {c : Cmd} {n : Need} {va : Nat} (hq : EngQuiet s) (h : EngMapped s W c n va) :
    ∃ l, s.walk (pkgOf c.ctx) c.root (va % 2 ^ 72) = .ok l := by
  obtain ⟨_, cs, hrun, -⟩ := h _ (withChans_engSame hq W s.chans)
  exact engAt_walk hq.1 hrun

/-- A byte reached stands at its offset in a granule of 64 KiB. -/
theorem EngMapped.cphys_page {s : State} {W : Nat → Prop} {c : Cmd} {n : Need} {va : Nat} (hq : EngQuiet s) (h : EngMapped s W c n va) :
    cphys s c va % 2 ^ 16 = va % 2 ^ 16 := by
  obtain ⟨l, hva⟩ := h.walk hq
  have hpage := (walk_leafOf hva).page
  simp only [cphys, hva, resolve_page]
  omega

/-- The bytes of a granule of 64 KiB from a byte reached follow it in order. -/
theorem EngMapped.cphys_add {s : State} {W : Nat → Prop} {c : Cmd} {n : Need} {va j : Nat} (hq : EngQuiet s) (h : EngMapped s W c n va)
    (hj : va % 2 ^ 16 + j < 2 ^ 16) : cphys s c (va + j) = cphys s c va + j := by
  obtain ⟨l, hva⟩ := h.walk hq
  have hpage := (walk_leafOf hva).page
  have hnext := walk_page s (pkgOf c.ctx) c.root (va := va % 2 ^ 72) (vb := (va + j) % 2 ^ 72) (by omega)
  have hpa : l.pa / 2 ^ 16 * 2 ^ 16 + (va + j) % 2 ^ 72 % 2 ^ 16 = l.pa + j := by omega
  rw [hva, Except.map, hpa] at hnext
  simp only [cphys, hva, hnext]
  exact resolve_add _ (by omega)

/-! The pieces of a write (R266). -/

/-- The pieces of the bytes from va: each at the place of its first byte, within a granule of 4 KiB. -/
def PiecesOf (s : State) (c : Cmd) : Nat → List (Leaf × Nat) → Prop
  | _, [] => True
  | va, (l, m) :: ps => l.lay.raw = false ∧ InOne l.pa m ∧ (∀ j, j < m → cphys s c (va + j) = l.pa + j) ∧ PiecesOf s c (va + m) ps

/-- Bytes in pieces. -/
def pieceBytes (ps : List (Leaf × Nat)) : Nat := (ps.map (·.2)).sum

theorem engCheck_ok {s u v : State} {c : Cmd} {need : Need} {f va n : Nat} {l : Leaf} {ps : List (Leaf × Nat)} (hn : n ≠ 0)
    (h : (engAt c false va need).run s = (.ok l, u))
    (hr : (engCheck c false need f (va + toGranule va n) (n - toGranule va n)).run u = (.ok ps, v)) :
    (engCheck c false need (f + 1) va n).run s = (.ok ((l, toGranule va n) :: ps), v) := by
  rw [engCheck, if_neg hn, run_bind_ok h, run_bind_ok hr]
  rfl

theorem engCheck_error {s u : State} {c : Cmd} {need : Need} {f va n code : Nat} (hn : n ≠ 0)
    (h : (engAt c false va need).run s = (.error code, u)) : (engCheck c false need (f + 1) va n).run s = (.error code, u) := by
  rw [engCheck, if_neg hn, run_bind_error h]

/-- Bytes that are reached are found in pieces, one after another. -/
theorem engCheck_mapped {s : State} (hq : EngQuiet s) {W : Nat → Prop} {c : Cmd} {need : Need} (f : Nat) : ∀ (va n : Nat) (cs : Tab Chan),
    AllMapped s W c need va n → n = 0 ∨ va % 4096 + n ≤ 4096 * f → ∃ ps cs',
      (engCheck c false need f va n).run { s with chans := cs } = (.ok ps, { s with chans := cs' }) ∧ PiecesOf s c va ps ∧
        pieceBytes ps = n := by
  induction f with
  | zero =>
    intro va n cs _ hn
    obtain rfl : n = 0 := by omega
    exact ⟨[], cs, rfl, trivial, rfl⟩
  | succ f ih =>
    intro va n cs hm hn
    by_cases h0 : n = 0
    · subst h0
      exact ⟨[], cs, rfl, trivial, rfl⟩
    · have hle : toGranule va n ≤ n := Nat.min_le_left _ _
      have hin : va % 4096 + toGranule va n ≤ 4096 := by unfold toGranule; omega
      have hrest : n - toGranule va n = 0 ∨ (va + toGranule va n) % 4096 + (n - toGranule va n) ≤ 4096 * f := by unfold toGranule; omega
      have hva : EngMapped s W c need va := hm 0 (Nat.pos_of_ne_zero h0)
      obtain ⟨l, cs1, hrun, hpa, hraw⟩ := hva _ (withChans_engSame hq W cs)
      obtain ⟨ps, cs2, hps, hpieces, hbytes⟩ := ih _ _ cs1 (fun j hj => by rw [Nat.add_assoc]; exact hm _ (by omega)) hrest
      have hplace (j : Nat) (hj : j < toGranule va n) : cphys s c (va + j) = l.pa + j := by rw [hva.cphys_add hq (by omega), hpa]
      refine ⟨_, cs2, engCheck_ok h0 hrun hps, ⟨hraw, ?_, hplace, hpieces⟩, ?_⟩
      · have hpage := hva.cphys_page hq
        exact inOne_of_page (by omega)
      · rw [pieceBytes, List.map_cons, List.sum_cons]
        change _ + pieceBytes ps = n
        omega

/-! The bytes of a write (R266). -/

theorem spanOf_split (s : State) (c : Cmd) (va m n : Nat) : spanOf s c va (m + n) = spanOf s c va m ++ spanOf s c (va + m) n := by
  simp only [spanOf, List.range_add, List.map_append, List.map_map, Function.comp_def, Nat.add_assoc]

/-- No context watches, and bytes and tags stand as writes leave them. -/
def Unwatched (s : State) : Prop := BytesOk s ∧ s.c.watchctl = 0

theorem write_unwatched {s : State} (h : Unwatched s) (a : Agent) (lay : Lay) (pa : Nat) (bs : List Byte) :
    MemoryOnly s (s.write a lay pa bs) ∧ Unwatched (s.write a lay pa bs) := by
  obtain ⟨hbytes, hwatch⟩ := h
  have hmem : MemoryOnly s (s.write a lay pa bs) := write_memoryOnly s lay (if_pos (by simp [hwatch]))
  exact ⟨hmem, write_bytesOk hbytes a lay pa bs, by rw [hmem.c]; exact hwatch⟩

theorem engStore_cons (a : Agent) (l : Leaf) (m : Nat) (ps : List (Leaf × Nat)) (bs : List Byte) (s : State) :
    (engStore a ((l, m) :: ps) bs).run s = (engStore a ps (bs.drop m)).run (s.write a l.lay l.pa (bs.take m)) := rfl

/-- Bytes written over their pieces stand at their places. -/
theorem engStore_pieces {s : State} {c : Cmd} (a : Agent) (ps : List (Leaf × Nat)) : ∀ (t : State) (va : Nat) (bs : List Byte),
    Unwatched t → PiecesOf s c va ps → pieceBytes ps = bs.length → ∃ u, (engStore a ps bs).run t = (.ok (), u) ∧ MemoryOnly t u ∧
      ∀ b, byteAt u b = putAt (spanOf s c va bs.length) bs (byteAt t) b := by
  induction ps with
  | nil =>
    intro t va bs _ _ hn
    obtain rfl := List.eq_nil_of_length_eq_zero hn.symm
    exact ⟨t, rfl, .refl t, fun _ => rfl⟩
  | cons p ps ih =>
    obtain ⟨l, m⟩ := p
    intro t va bs ht hp hn
    obtain ⟨hraw, hone, hplace, hrest⟩ := hp
    have hm : m + pieceBytes ps = bs.length := hn
    have htake : (bs.take m).length = m := by rw [List.length_take]; omega
    obtain ⟨hmem, hquiet⟩ := write_unwatched ht a l.lay l.pa (bs.take m)
    obtain ⟨u, hrun, hu, hbytes⟩ := ih _ (va + m) (bs.drop m) hquiet hrest (by rw [List.length_drop]; omega)
    refine ⟨u, (engStore_cons a l m ps bs t).trans hrun, hmem.trans hu, fun b => ?_⟩
    have hstored := (write_stored ht.1 a l.lay (pa := l.pa) (bs := bs.take m) (by rwa [htake])).1 hraw
    have hfirst : byteAt (t.write a l.lay l.pa (bs.take m)) = putAt (spanOf s c va m) (bs.take m) (byteAt t) := by
      funext b
      have hspan : spanOf s c va m = (List.range (bs.take m).length).map (l.pa + ·) := by
        rw [htake]
        exact List.map_congr_left fun j hj => hplace j (List.mem_range.1 hj)
      rw [hspan, putAt_run, hstored]
    have hall : putAt (spanOf s c va bs.length) bs (byteAt t) =
        putAt (spanOf s c (va + m) (bs.drop m).length) (bs.drop m) (putAt (spanOf s c va m) (bs.take m) (byteAt t)) := by
      rw [← putAt_append (by rw [spanOf, List.length_map, List.length_range, htake]), ← spanOf_split, List.take_append_drop,
        List.length_drop, Nat.add_sub_cancel' (by omega)]
    rw [hbytes, hfirst, hall]

/-! The status word (R267). -/

theorem engWrite_ok {s t u : State} {c : Cmd} {cls : Cls} {va : Nat} {bs : List Byte} {ps : List (Leaf × Nat)}
    (hc : (engCheck c false Need.write (pieceCount bs.length) va bs.length).run s = (.ok ps, t))
    (hw : (engStore (c.agent cls) ps bs).run t = (.ok (), u)) : (engWrite c cls false va bs).run s = (.ok (), u) :=
  (run_bind_ok hc).trans hw

/-- Bytes that are reached are written. -/
theorem engWrite_mapped {s : State} (hq : EngQuiet s) {W : Nat → Prop} {c : Cmd} (cls : Cls) {va : Nat} {bs : List Byte}
    (hm : AllMapped s W c Need.write va bs.length) : ∃ u, (engWrite c cls false va bs).run s = (.ok (), u) ∧ MemoryOnly s u ∧
      ∀ a, byteAt u a = putAt (spanOf s c va bs.length) bs (byteAt s) a := by
  obtain ⟨ps, cs, hcheck, hpieces, hn⟩ := engCheck_mapped hq (pieceCount bs.length) va bs.length s.chans hm
    (.inr (by unfold pieceCount; omega))
  obtain ⟨_, hbytes, hwatch, _⟩ := hq
  obtain ⟨u, hstore, hu, hput⟩ := engStore_pieces (c.agent cls) ps { s with chans := cs } va bs ⟨hbytes, hwatch⟩ hpieces hn
  refine ⟨u, engWrite_ok hcheck hstore, (withChans_memoryOnly s cs).trans hu, fun a => ?_⟩
  rw [hput, funext (withChans_byteAt s cs)]

/-- A write whose first byte is not reached changes no byte. -/
theorem engWrite_fails {s : State} (hq : EngQuiet s) {W : Nat → Prop} {c : Cmd} (cls : Cls) {va code : Nat} {bs : List Byte} (h0 : bs ≠ [])
    (hf : EngFails s W c Need.write va code) : ∃ cs, (engWrite c cls false va bs).run s = (.error code, { s with chans := cs }) := by
  obtain ⟨cs, hrun⟩ := hf _ (withChans_engSame hq W s.chans)
  exact ⟨cs, run_bind_error (engCheck_error (f := bs.length / 4096 + 1) (mt List.length_eq_zero_iff.1 h0) hrun)⟩

theorem writeStatus_written {s : State} (hq : EngQuiet s) (cls : Cls) (c : Cmd) (sta : Nat) (w : Word) :
    StatusWritten s (s.writeStatus cls c sta w) cls c sta w := by
  have hlen : (leBytes 8 w.toNat).length = 8 := leBytes_length 8 _
  refine ⟨fun h0 => if_pos h0, fun h0 hm => ?_, fun h0 ⟨code, hf⟩ => ?_⟩
  · obtain ⟨u, hrun, hu, hput⟩ := engWrite_mapped hq cls (bs := leBytes 8 w.toNat) (by rwa [hlen])
    rw [State.writeStatus, if_neg h0, hrun]
    rw [hlen] at hput
    exact ⟨hu, hput⟩
  · obtain ⟨cs, hrun⟩ := engWrite_fails hq cls (bs := leBytes 8 w.toNat) (List.ne_nil_of_length_pos (by omega)) hf
    rw [State.writeStatus, if_neg h0, hrun]
    exact ⟨cs, rfl⟩

/-! The rows of the classes (R323, R354, R360). -/

theorem completion_none {s : State} {cls : Cls} {l : List Cmd} {i : Nat} {c : Cmd} (hc : l[i]? = some c) (hr : c.result = none) (sta n : Nat) :
    s.completion cls l i sta n = s := by
  simp only [State.completion, hc, hr]

theorem completion_some {s : State} {cls : Cls} {l : List Cmd} {i : Nat} {c : Cmd} {r : Result} (hc : l[i]? = some c)
    (hr : c.result = some r) (sta n : Nat) :
    s.completion cls l i sta n = s.complete cls c (if n = 0 then 0 else recN c.image sta n) r := by
  simp only [State.completion, hc, hr]

theorem collGroup_toNat (r : BitVec 512) : (collGroup r).toNat = recN r 48 4 :=
  Nat.mod_eq_of_lt (Nat.mod_lt _ (Nat.two_pow_pos _))

theorem collSeq_toNat (r : BitVec 512) : (collSeq r).toNat = recN r 52 4 :=
  Nat.mod_eq_of_lt (Nat.mod_lt _ (Nat.two_pow_pos _))

/-- No earlier command of the context and group is left to COLL (R354). -/
def SeqFirst (s : State) (cls : Cls) (c : Cmd) : Prop :=
  cls = .coll → ∀ d ∈ s.engine c.ctx .coll, d.ctx = c.ctx →
    recN d.image 48 4 = recN c.image 48 4 → recN c.image 52 4 ≤ recN d.image 52 4

theorem collReady_of {s : State} {c : Cmd} (h : SeqFirst s .coll c) : s.collReady c = true := by
  refine List.all_eq_true.2 fun d hd => ?_
  by_cases h1 : d.ctx = c.ctx
  · by_cases h2 : collGroup d.image = collGroup c.image
    · have := h rfl d hd h1 (by rw [← collGroup_toNat, h2, collGroup_toNat])
      simp [collSeq_toNat, this]
    · simp [h2]
  · simp [h1]

/-- RTSET's tables leave the commands of every die (R360). -/
theorem bindReplica_disp (s : State) (c : Cmd) (d : Nat) : ((s.bindReplica c).dieAt d).disp = (s.dieAt d).disp := by
  have hget : (s.bindReplica c).dieAt d = if d = dieOf c.ctx then _ else s.dieAt d :=
    tabGet_set_of_ne s.dies (dieOf c.ctx) d fun he => Bool.noConfusion (congrArg (fun x => x.replica.bound) he)
  rw [hget]
  split
  · rename_i hd
    rw [hd]
  · rfl

/-- A row leaves a command without a status, and completes one with a status over what its class does before (R266). -/
def Completes (row : State → Out) (s : State) (cls : Cls) (c : Cmd) (sta : Nat) : Prop :=
  (c.result = none → row s = .next s) ∧
  ∀ r, c.result = some r → SeqFirst s cls c → row s = .next ((beforeSteps s cls c r).complete cls c sta r)

/-- The copy engines and the encoders do nothing before. -/
theorem completion_completes {s : State} {cls : Cls} {l : List Cmd} {i sta : Nat} {c : Cmd} {row : State → Out}
    (hrow : row s = .next (s.completion cls l i sta 9)) (hc : l[i]? = some c) (hb : ∀ r, beforeSteps s cls c r = s) :
    Completes row s cls c (recN c.image sta 9) :=
  ⟨fun hr => by rw [hrow, completion_none hc hr], fun r hr _ => by rw [hrow, completion_some hc hr, hb]; rfl⟩

theorem seam_completes {s : State} {die i : Nat} {c : Cmd} (hc : (s.dieAt die).seam[i]? = some c) :
    Completes (exec (.seamCompletion die i)) s .seam c (recN c.image 52 9) := by
  have hrow : exec (.seamCompletion die i) s = execSeamCompletion die i s := rfl
  refine ⟨fun hr => ?_, fun r hr _ => ?_⟩
  · simp only [hrow, execSeamCompletion, hc, hr]
  · simp only [hrow, execSeamCompletion, hc, hr]
    rfl

/-- COLL completes a command that no earlier one of its context and group holds up (R354). -/
theorem coll_completes {s : State} {die i : Nat} {c : Cmd} (hc : (s.dieAt die).coll[i]? = some c) :
    Completes (exec (.collCompletion die i)) s .coll c (recN c.image 35 9) := by
  have hrow : exec (.collCompletion die i) s = execCollCompletion die i s := rfl
  refine ⟨fun hr => ?_, fun r hr hseq => ?_⟩
  · simp only [hrow, execCollCompletion, hc, completion_none hc hr, ite_self]
  · simp only [hrow, execCollCompletion, hc, if_pos (collReady_of hseq), completion_some hc hr]
    rfl

/-- Of DISP, SEND and LZSET write a status word, and RTSET binds its tables first (R356, R360). -/
theorem disp_completes {s : State} {die i : Nat} {c : Cmd} (hc : (s.dieAt die).disp[i]? = some c) :
    Completes (exec (.dispCompletion die i)) s .disp c (if recCmd c.image = 1 ∨ recCmd c.image = 2 then recN c.image 17 9 else 0) := by
  have hrow : exec (.dispCompletion die i) s = execDispCompletion die i s := rfl
  refine ⟨fun hr => ?_, fun r hr _ => ?_⟩
  · simp only [hrow, execDispCompletion, hc, hr, Option.isSome_none, Bool.false_eq_true, and_false, if_false]
    rw [completion_none hc hr]
  · simp only [hrow, execDispCompletion, hc, hr, Option.isSome_some, and_true]
    have hsta : (if (if recCmd c.image = 1 ∨ recCmd c.image = 2 then 9 else 0) = 0 then 0
        else recN c.image 17 (if recCmd c.image = 1 ∨ recCmd c.image = 2 then 9 else 0)) =
        if recCmd c.image = 1 ∨ recCmd c.image = 2 then recN c.image 17 9 else 0 := by split <;> rfl
    have hb : beforeSteps s .disp c r = if recCmd c.image = 4 then s.bindReplica c else s := by
      simp only [beforeSteps, reduceCtorEq, if_false, true_and]
      rfl
    have hlist : ((if recCmd c.image = 4 then s.bindReplica c else s).dieAt die).disp[i]? = some c := by
      split
      · rwa [bindReplica_disp]
      · exact hc
    rw [completion_some hlist hr, hsta, hb]

theorem rows_complete {p : (Nat → Nat → Instr) × Cls × (State → Nat → List Cmd) × (BitVec 512 → Nat)} (hp : p ∈ completionTable)
    {s : State} {unit i : Nat} {c : Cmd} (hc : (p.2.2.1 s unit)[i]? = some c) :
    Completes (exec (p.1 unit i)) s p.2.1 c (p.2.2.2 c.image) := by
  simp only [completionTable, List.mem_cons, List.not_mem_nil, or_false] at hp
  obtain rfl | rfl | rfl | rfl | rfl | rfl := hp
  · exact completion_completes rfl hc fun _ => rfl
  · exact completion_completes rfl hc fun _ => rfl
  · exact completion_completes rfl hc fun _ => rfl
  · exact seam_completes hc
  · exact coll_completes hc
  · exact disp_completes hc

/-- Settles O47: a row with a status takes the common steps, its status word written as it can be, over what its class does before. -/
theorem engineCompletions : Obligations.EngineCompletions := by
  intro p hp s unit i c hc
  obtain ⟨hnone, hsome⟩ := rows_complete hp hc
  refine ⟨hnone, fun r hr => ?_⟩
  intro s1 hseq hq _
  refine ⟨_, writeStatus_written hq p.2.1 c _ r.word, ?_⟩
  rw [hsome r hr hseq, complete_eq]

end Sys2Proof.Machine
end

