-- ==== Sys2Proof/Proofs/ThreadRegions.lean ====
section
/-! Thread regions (R121 to R125). O13 stays unsettled, as O27 does and for the same reason: tfetch counts a lane's elements by the
width of the region's VCFG.FMT, which for a code that names no format is a constant without a body (log 9), and the statement holds if
and only if every such width divides 64, the bits of a lane's row. -/

namespace Sys2Proof.Machine

/-! Tables of lanes. -/

/-- One value written at each of some keys, another than that of an unlisted key. -/
theorem tabGet_setMany {α : Type} [DecidableEq α] {d v : α} (h : v ≠ d) (ks : List Nat) : ∀ (t : Tab α) (j : Nat),
    tabGet d (ks.foldl (fun t k => tabSet d t k v) t) j = if j ∈ ks then v else tabGet d t j := by
  induction ks with
  | nil => exact fun t j => (if_neg List.not_mem_nil).symm
  | cons k ks ih =>
    intro t j
    rw [List.foldl_cons, ih, tabGet_set_of_ne _ _ _ h]
    by_cases hj : j ∈ ks
    · rw [if_pos hj, if_pos (List.mem_cons_of_mem _ hj)]
    · simp only [List.mem_cons, hj, or_false, if_false]

theorem tabGet_tabMap {α : Type} [DecidableEq α] {d : α} {f : α → α} (hf : f d = d) (t : Tab α) (h : tabWf d t = true) (k : Nat) :
    tabGet d (tabMap d f t) k = f (tabGet d t k) := by
  induction t with
  | nil => exact hf.symm
  | cons p t ih =>
    obtain ⟨j, v⟩ := p
    simp only [tabWf, Bool.and_eq_true] at h
    obtain ⟨⟨-, habove⟩, hwf⟩ := h
    have hrest := ih hwf
    have hlow (hk : k ≤ j) : f d = tabGet d (tabMap d f t) k := by rw [hrest, tabGet_above habove hk]
    have hcons : tabMap d f ((j, v) :: t) = if f v ≠ d then (j, f v) :: tabMap d f t else tabMap d f t := by
      simp only [tabMap, List.map_cons, List.filter_cons, decide_eq_true_eq]
    rw [hcons, tabGet]
    by_cases h1 : k < j
    · rw [if_pos h1]
      split
      · rw [tabGet, if_pos h1, hf]
      · exact (hlow h1.le).symm
    · by_cases h2 : k = j
      · rw [if_neg h1, if_pos h2]
        split
        · rw [tabGet, if_neg h1, if_pos h2]
        · rename_i hv
          rw [← hlow h2.le, hf, not_not.1 hv]
      · rw [if_neg h1, if_neg h2]
        split
        · rw [tabGet, if_neg h1, if_neg h2, hrest]
        · exact hrest

/-! Opening a region (R122). -/

theorem mem_threadLanes {s : State} {l : Nat} : l ∈ s.threadLanes ↔ l < s.wid ∧ 64 * l / codeWidth s.c.vfmt < s.c.vl.toNat := by
  simp only [State.threadLanes, List.mem_filter, List.mem_range, decide_eq_true_eq]
  rfl

theorem vfetch_opens {s : State} (h : InScu s) (off : BitVec 32) : ∃ ls : Tab LaneState,
    (∀ l, tabGet LaneState.idle ls l = if l < s.wid ∧ 64 * l / codeWidth s.c.vfmt < s.c.vl.toNat
      then ⟨s.c.pc + word off.toInt, true, []⟩ else laneOf s l) ∧
    exec (.vfetch off) s = .next (next { s with c := { s.c with
      thr := true, thrX := s.c.x, thrFmt := s.c.vfmt, thrFault := none, lanes := ls } }) := by
  have hrun : (⟨s.target off, true, []⟩ : LaneState) ≠ LaneState.idle := fun he => Bool.noConfusion (congrArg LaneState.run he)
  refine ⟨_, fun l => ?_, congrArg Host.Outcome.next (adv_eq_next h)⟩
  rw [tabGet_setMany hrun]
  simp only [mem_threadLanes]
  rfl

/-! A lane goes on, or stops (R124). -/

/-- Where the region's width divides a lane's row, the elements of the model are those of the statement. -/
theorem mem_laneElems_region {s : State} (hw : s.c.regionWidth ∣ 64) {l i : Nat} : i ∈ s.laneElems l s.c.regionWidth ↔ laneHas s l i := by
  rw [mem_laneElems hw, laneHas]
  tauto

theorem tfetch_goes {s : State} {l : Nat} (h : s.laneSel = some l) {pm : MReg} (off : BitVec 32)
    (hall : ∀ i ∈ s.laneElems l s.c.regionWidth, (s.rm pm).getLsbD i = true) :
    LaneGoes (exec (.tfetch pm off) s) s l { laneOf s l with lpc := (laneOf s l).lpc + word off.toInt, block := [] } := by
  have hrow : exec (.tfetch pm off) s = execTfetch pm off s := rfl
  rw [hrow, execTfetch, h]
  dsimp only
  rw [if_pos (List.all_eq_true.2 hall : (s.laneElems l s.c.regionWidth).all (s.maskBit pm) = true)]
  rfl

theorem adv_in_lane {s : State} {l : Nat} (h : s.laneSel = some l) : s.adv = { s with c := { s.c with
    lanes := tabSet LaneState.idle s.c.lanes l { laneOf s l with lpc := (laneOf s l).lpc + 8, block := (laneOf s l).block.tail } } } := by
  unfold State.adv
  split
  · rename_i hnone
    cases h.symm.trans hnone
  · rename_i hsome
    obtain rfl := Option.some.inj (h.symm.trans hsome)
    rfl

theorem tfetch_falls {s : State} {l : Nat} (h : s.laneSel = some l) {pm : MReg} (off : BitVec 32) {i : Nat}
    (hi : i ∈ s.laneElems l s.c.regionWidth) (hoff : (s.rm pm).getLsbD i = false) :
    LaneGoes (exec (.tfetch pm off) s) s l { laneOf s l with lpc := (laneOf s l).lpc + 8, block := (laneOf s l).block.tail } := by
  have hrow : exec (.tfetch pm off) s = execTfetch pm off s := rfl
  have hmask : ¬ (s.laneElems l s.c.regionWidth).all (s.maskBit pm) = true :=
    fun hall => Bool.false_ne_true (hoff.symm.trans (List.all_eq_true.1 hall i hi))
  rw [hrow, execTfetch, h]
  dsimp only
  rw [if_neg hmask, adv_in_lane h]
  rfl

theorem tstop_stops {s : State} {l : Nat} (h : s.laneSel = some l) :
    LaneGoes (exec .tstop s) s l { laneOf s l with run := false, block := [] } := by
  have hrow : exec .tstop s = execTstop s := rfl
  rw [hrow, execTstop, h]
  rfl

/-- The region keeps the fault of the lowest element. -/
theorem laneFault_stops (s : State) (l : Nat) (t : Trap) {r : BitVec 3} {e : BitVec 13}
    (h : t.elem.getD (0, BitVec.ofNat 13 (s.c.laneFirst l)) = (r, e)) :
    LaneStops s (s.laneFault l t) l ⟨r, e, t.cause.code, t.detail, t.addr⟩ := by
  rw [State.laneFault, h]
  rfl

theorem raise_stops {s : State} {l : Nat} (h : s.laneSel = some l) {t : Trap} {r : BitVec 3} {e : BitVec 13} (ht : t.elem = some (r, e)) :
    LaneStops s (s.raise t) l ⟨r, e, t.cause.code, t.detail, t.addr⟩ := by
  rw [State.raise, h]
  exact laneFault_stops s l t (by rw [ht]; rfl)

/-! The check of a block (R123). -/

theorem laneVa_eq (s : State) (a : Word) : s.laneVa a = (if s.c.hnd then 0 else s.c.vah.toNat * 2 ^ 64) + a.toNat := by
  unfold State.laneVa
  split
  · exact (Nat.zero_add _).symm
  · rfl

theorem laneWord_of_word {s t : State} {a w : Word} (h : WordAt s t a w) : s.laneWord a = (t, some w) := by
  obtain ⟨s1, l, htr, hap, hread, rfl⟩ := h
  rw [State.laneWord, laneVa_eq, htr]
  dsimp only
  rw [if_neg (not_not_intro hap), hread]

theorem laneWord_of_none {s t : State} {a : Word} (h : NoWord s t a) : s.laneWord a = (t, none) := by
  rw [State.laneWord, laneVa_eq]
  obtain ⟨e, htr⟩ | ⟨s1, l, htr, ⟨hap, rfl⟩ | ⟨hap, pa, hread⟩⟩ := h
  · rw [htr]
  · rw [htr]
    exact if_pos hap
  · rw [htr]
    dsimp only
    rw [if_neg (not_not_intro hap), hread]

theorem laneWord_c {s t : State} {a : Word} {o : Option Word} (h : s.laneWord a = (t, o)) : t.c = s.c := by
  rw [State.laneWord] at h
  split at h
  · rename_i htr
    obtain ⟨rfl, -⟩ := Prod.mk.inj h
    exact (translate_memStep htr).c
  · rename_i htr
    split at h
    · obtain ⟨rfl, -⟩ := Prod.mk.inj h
      exact (translate_memStep htr).c
    · split at h
      all_goals
        rename_i hread
        obtain ⟨rfl, -⟩ := Prod.mk.inj h
        exact (checkRead_memStep hread).c.trans (translate_memStep htr).c

theorem fetchBlock_good (n : Nat) : ∀ {s u : State} {a : Word} {ws : List Word}, GoodBlock n s a ws u →
    s.fetchBlock n a = (u, .ok ws) ∧ u.c = s.c := by
  induction n with
  | zero => exact fun h => h.elim
  | succ n ih =>
    intro s u a ws h
    match ws with
    | [] => exact h.elim
    | w :: ws =>
      obtain ⟨t, i, hword, hdec, hallows, hend⟩ := h
      have hw := laneWord_of_word hword
      simp only [State.fetchBlock, hw, hdec, hallows, Bool.not_true, Bool.false_eq_true, if_false]
      by_cases he : endsBlock i = true
      · rw [if_pos he] at hend ⊢
        obtain ⟨rfl, rfl⟩ := hend
        exact ⟨rfl, laneWord_c hw⟩
      · rw [if_neg he] at hend ⊢
        obtain ⟨hrest, hc⟩ := ih hend
        rw [hrest]
        exact ⟨rfl, hc.trans (laneWord_c hw)⟩

theorem fetchBlock_bad (n : Nat) : ∀ {s u : State} {a : Word} {sub : Nat}, BadBlock n s a sub u →
    s.fetchBlock n a = (u, .error sub) ∧ u.c = s.c ∧ sub < 3 := by
  induction n with
  | zero =>
    rintro s u a sub ⟨rfl, rfl⟩
    exact ⟨rfl, rfl, by decide⟩
  | succ n ih =>
    intro s u a sub h
    obtain ⟨hno, rfl⟩ | ⟨t, w, hword, h⟩ := h
    · have hw := laneWord_of_none hno
      exact ⟨by simp only [State.fetchBlock, hw], laneWord_c hw, by decide⟩
    · have hw := laneWord_of_word hword
      obtain ⟨⟨e, hdec⟩, rfl, rfl⟩ | ⟨i, hdec, ⟨hallows, rfl, rfl⟩ | ⟨hallows, he, hrest⟩⟩ := h
      · exact ⟨by simp only [State.fetchBlock, hw, hdec], laneWord_c hw, by decide⟩
      · exact ⟨by simp only [State.fetchBlock, hw, hdec, hallows, Bool.not_false, if_true], laneWord_c hw, by decide⟩
      · obtain ⟨hfetch, hc, hsub⟩ := ih hrest
        refine ⟨?_, hc.trans (laneWord_c hw), hsub⟩
        simp only [State.fetchBlock, hw, hdec, hallows, he, Bool.not_true, Bool.false_eq_true, if_false, hfetch]

theorem laneFetch_good {s u : State} {l : Nat} {ws : List Word} (h : GoodBlock 16 s (laneOf s l).lpc ws u) :
    s.laneFetch l = { u with c := { s.c with lanes := tabSet LaneState.idle s.c.lanes l { laneOf s l with block := ws } } } := by
  obtain ⟨hfetch, hc⟩ := fetchBlock_good 16 h
  have hlpc : s.fetchBlock 16 (tabGet LaneState.idle s.c.lanes l).lpc = (u, .ok ws) := hfetch
  simp only [State.laneFetch, hlpc, hc]
  rfl

theorem laneFetch_bad {s u : State} {l why : Nat} (h : BadBlock 16 s (laneOf s l).lpc why u) : LaneStops { u with c := s.c } (s.laneFetch l) l
    ⟨0, BitVec.ofNat 13 (s.c.laneFirst l), 0x01, BitVec.ofNat 56 (2 * 2 ^ 52 + why * 2 ^ 48), (laneOf s l).lpc⟩ := by
  obtain ⟨hfetch, hc, hwhy⟩ := fetchBlock_bad 16 h
  have hlpc : s.fetchBlock 16 (tabGet LaneState.idle s.c.lanes l).lpc = (u, .error why) := hfetch
  have hdetail : (blockTrap why (laneOf s l).lpc).detail = BitVec.ofNat 56 (2 * 2 ^ 52 + why * 2 ^ 48) := by
    simp only [blockTrap, reason]
    interval_cases why <;> decide
  have hu : { u with c := s.c } = u := by rw [← hc]
  rw [hu, ← hdetail, ← hc]
  simp only [State.laneFetch, hlpc]
  exact laneFault_stops u l (blockTrap why (laneOf s l).lpc) rfl

/-! Joining (R125). -/

/-- Every RUN is 0, and every LPC stands. -/
theorem closeRegion_lanes {s : State} (h : tabWf LaneState.idle s.c.lanes = true) (l : Nat) :
    (tabGet LaneState.idle s.closeRegion.c.lanes l).run = false ∧ (tabGet LaneState.idle s.closeRegion.c.lanes l).lpc = (laneOf s l).lpc := by
  have hget : tabGet LaneState.idle s.closeRegion.c.lanes l = { laneOf s l with run := false, block := [] } :=
    tabGet_tabMap (f := fun st : LaneState => { st with run := false, block := [] }) rfl _ h l
  rw [hget]
  exact ⟨rfl, rfl⟩

theorem closeRegion_closed {s : State} (h : tabWf LaneState.idle s.c.lanes = true) : Closed s s.c.pc s.closeRegion.c :=
  ⟨rfl, closeRegion_lanes h⟩

/-- With no fault the stream goes on. -/
theorem join_closes {s : State} (hs : InScu s) (hf : s.c.thrFault = none) (h : tabWf LaneState.idle s.c.lanes = true) :
    ∃ c, Closed s (s.c.pc + 8) c ∧ s.join = { s with c := c } := by
  have hadv : s.closeRegion.adv = next s.closeRegion := adv_eq_next hs
  refine ⟨(next s.closeRegion).c, ⟨rfl, closeRegion_lanes h⟩, ?_⟩
  rw [State.join, hf]
  exact hadv

theorem laneFault_trap {f : LaneFault} {e : Cause} (he : e ∈ [Cause.illegal, .format, .memue]) (hf : f.cause = e.code) :
    f.trap = joinTrap f e := by
  simp only [LaneFault.trap, hf]
  simp only [List.mem_cons, List.not_mem_nil, or_false] at he
  obtain rfl | rfl | rfl := he <;> rfl

/-- The region's fault is raised after the region has closed. -/
theorem join_raises {s : State} {f : LaneFault} {e : Cause} (hs : s.c.thrFault = some f) (he : e ∈ [Cause.illegal, .format, .memue])
    (hf : f.cause = e.code) : s.join = ({ s with c := s.closeRegion.c }).raise (joinTrap f e) := by
  rw [State.join, hs, ← laneFault_trap he hf]
  rfl

theorem vjoin_joins {s : State} (ht : s.c.thr = true) (hr : s.c.running = []) : exec .vjoin s = .next s.join := by
  have hrow : exec .vjoin s = execVjoin s := rfl
  simp only [hrow, execVjoin, ht, hr, Bool.not_true, Bool.false_eq_true, if_false, if_true]

theorem vjoinCompletion_joins {s : State} (hw : s.c.wait = .vjoin) (hr : s.c.running = []) : exec .vjoinCompletion s = .next s.join := by
  have hrow : exec .vjoinCompletion s = execVjoinCompletion s := rfl
  simp only [hrow, execVjoinCompletion, hw, hr, and_self, if_true]

theorem vjoin_goes {s : State} (hs : InScu s) (ht : s.c.thr = false) : Goes (exec .vjoin s) s (s.c.pc + 8) :=
  congrArg Host.Outcome.next ((if_pos (by rw [ht]; rfl)).trans (adv_eq_next hs))

theorem vjoin_waits {s : State} (ht : s.c.thr = true) (hr : s.c.running ≠ []) : Waits (exec .vjoin s) s .vjoin .scu :=
  congrArg Host.Outcome.next ((if_neg (by rw [ht]; exact Bool.false_ne_true)).trans (if_neg hr))

/-! What the statement says of the width by which a region counts. -/

/-- Lane 0 under the format code f, with every bit of m1 but one. -/
def laneBut (f : BitVec 4) (i : Nat) : State :=
  { laneZero f with c := { (laneZero f).c with m := (laneZero f).c.m.set 1 (BitVec.allOnes 4096 ^^^ BitVec.twoPow 4096 i) } }

theorem laneBut_rm (f : BitVec 4) (i : Nat) : (laneBut f i).rm 1 = BitVec.allOnes 4096 ^^^ BitVec.twoPow 4096 i := by
  rw [State.rm, Ctx.rm, if_neg (by decide)]
  exact Vector.getElem_set_self _

theorem laneBut_bit (f : BitVec 4) {i j : Nat} (hj : j < 4096) : ((laneBut f i).rm 1).getLsbD j = !decide (i = j) := by
  rw [laneBut_rm, BitVec.getLsbD_xor, BitVec.getLsbD_allOnes, BitVec.getLsbD_twoPow, decide_eq_true hj, Bool.true_xor]
  by_cases he : i = j
  · rw [he, decide_eq_true hj, Bool.true_and]
  · rw [decide_eq_false he, Bool.and_false]

theorem laneGoes_inj {o : Out} {s : State} {l : Nat} {st st' : LaneState} (hw : tabWf LaneState.idle s.c.lanes = true)
    (h : LaneGoes o s l st) (h' : LaneGoes o s l st') : st = st' := by
  have hlanes := congrArg (fun u : State => tabGet LaneState.idle u.c.lanes l) (Host.Outcome.next.inj (h.symm.trans h'))
  simpa only [tabGet_set _ _ _ _ _ hw, if_true] using hlanes

/-- An element that the model does not count does not keep the lane from the target. -/
theorem laneBut_goes {f : BitVec 4} {i : Nat} (h : i ∉ (laneZero f).maskReach) :
    LaneGoes (exec (.tfetch 1 0) (laneBut f i)) (laneBut f i) 0 LaneState.idle := by
  refine tfetch_goes rfl 0 fun j hj => ?_
  have hmem : j ∈ (laneZero f).maskReach := hj
  have hne : ¬ i = j := fun he => h (he ▸ hmem)
  have hlt : j < 4096 := by
    have hvl : j < (laneZero f).vl := of_decide_eq_true (List.mem_filter.1 hmem).2
    have h64 : (laneZero f).vl = 64 := rfl
    omega
  rw [laneBut_bit f hlt, decide_eq_false hne]
  rfl

/-- What the statement of the thread regions comes to: it holds if and only if every format code counts by a divisor of 64, which is
no fact of the model where the code names no format. -/
theorem threadRegions_iff : Obligations.ThreadRegions ↔ ∀ f, codeWidth f ∣ 64 := by
  constructor
  · intro h f
    by_contra hf
    obtain ⟨hi, hon, hout⟩ := astride_lane hf
    have hreach : 64 * 0 ≤ codeWidth f * (64 / codeWidth f) ∧ codeWidth f * (64 / codeWidth f) < 64 * (0 + 1) ∧ 64 / codeWidth f < 64 :=
      of_decide_eq_true hon
    obtain ⟨hlo, hhi, hvl⟩ := hreach
    obtain ⟨-, hlane, -⟩ := h (laneBut f (64 / codeWidth f)) 1 0
    obtain ⟨-, hfalls, -⟩ := hlane 0 rfl
    have hbit : ((laneBut f (64 / codeWidth f)).rm 1).getLsbD (64 / codeWidth f) = false := by
      rw [laneBut_bit f (by omega), decide_eq_true rfl]
      rfl
    have hlpc : (0 : Word) + 8 = 0 := congrArg LaneState.lpc (laneGoes_inj rfl (hfalls ⟨_, ⟨hvl, hlo, hhi⟩, hbit⟩) (laneBut_goes hout))
    exact absurd hlpc (by decide)
  · intro hwidth s pm off
    have hmem (l i : Nat) : i ∈ s.laneElems l s.c.regionWidth ↔ laneHas s l i := mem_laneElems_region (hwidth _)
    refine ⟨fun hs => vfetch_opens hs off, fun l hl => ⟨fun hall => tfetch_goes hl off fun i hi => hall i ((hmem l i).1 hi),
      fun ⟨i, hi, hoff⟩ => tfetch_falls hl off ((hmem l i).2 hi) hoff, tstop_stops hl, fun t r e ht => raise_stops hl ht⟩,
      fun l ws u => laneFetch_good, fun l why u => laneFetch_bad, fun hs => ⟨vjoin_goes hs, vjoin_waits, fun ht hr hf hw => ?_,
      fun ht hr hf hw => ?_, fun f e hf he hc hr hw => ⟨_, closeRegion_closed hw, fun ht => ?_, fun ht => ?_⟩⟩⟩
    · rw [vjoin_joins ht hr]
      obtain ⟨c, hclosed, hj⟩ := join_closes hs hf hw
      exact ⟨c, hclosed, congrArg _ hj⟩
    · rw [vjoinCompletion_joins ht hr]
      obtain ⟨c, hclosed, hj⟩ := join_closes hs hf hw
      exact ⟨c, hclosed, congrArg _ hj⟩
    · rw [vjoin_joins ht hr, join_raises hf he hc]
    · rw [vjoinCompletion_joins ht hr, join_raises hf he hc]

end Sys2Proof.Machine
end
